-- ==== Sys2Proof/Word.lean ====
section
/-! DEFINITION. The word types of Virlin (R5, R13, R37). -/

namespace Sys2Proof

/-- One byte. -/
abbrev Byte := BitVec 8
/-- One 32-bit vector or scalar register (R13, R17). -/
abbrev Word := BitVec 32
/-- A 64-bit word: an instruction word, a clause header, an address register. -/
abbrev DWord := BitVec 64

end Sys2Proof
end

