-- ==== Sys2Proof/Config.lean ====
section
/-! DEFINITION. What the module fixes (R3, R352) and the values that the manual leaves open. An open value is a constant
without a body: nothing can be proved of it, so a statement holds whatever it is. -/

namespace Sys2Proof

/-- What the configuration image sets: each partition's clusters and L2 ways, DFEAT0, the power limit in watts, the migration
threshold in degrees Celsius, the minimum security version, and another SMBus address (R264, R291, R309, R353, R358, R362). -/
structure BootConf where
  parts      : List (Nat × Nat)
  dfeat      : BitVec 64
  powerLimit : Nat
  threshold  : Nat
  minVersion : Nat
  smbus      : Option (BitVec 7)
deriving DecidableEq, Repr, Inhabited

end Sys2Proof

namespace Sys2Proof.Config

/-- Cores of the module (R3). -/
abbrev cores : Nat := 192
/-- Queue interfaces (R281). -/
abbrev interfaces : Nat := 64
/-- Contexts (R261). -/
abbrev contexts : Nat := 64
/-- Device partitions (R263). -/
abbrev partitions : Nat := 8
/-- The features that Virlin implements: bits 2 to 13 (R30). -/
abbrev dfeat0 : BitVec 64 := 0x3FFC

/-- Which neighbour a faithfully rounded function returns when its exact result is not representable: the upper one
when true (R81). The function is 0 FEXP2, 1 FLOG2, 2 FSIN, 3 FCOS, 4 FTANH; the type is its code; the operand is its
bits. A free value, log entry 2. -/
opaque faithfulUp (fn ty bits : Nat) : Bool
/-- What a byte of host memory holds that nothing has written (R280). A free value, log entry 3. -/
opaque hostByte : Nat → BitVec 8
/-- What a byte of another chip's memory holds when an engine, a product, a fetch, the front end or a table walk reads it,
by fabric address and occurrence (R335). A free value, log entry 7. -/
opaque peerByte : Nat → Nat → BitVec 8
/-- The die whose doser serves the graph with a given queue base, modulo 4 (R228). A free value, log entry 8. -/
opaque graphDie : Nat → Nat
/-- The handle that CLAIM gives for a node launch (R324), by graph, node, level and first record. A free value, log
entry 8. -/
opaque nodeHandle : Nat → Nat → Nat → Nat → BitVec 64
/-- The value a scalar destination receives when the executing threads' results differ and no rule says which is
written (R41). A free value, log entry 5. -/
opaque unevenScalar : List Nat → Nat
/-- The cycles that WTIME counts for an issue, by the number of the issue (R24, R311). A free value, log entry 9. -/
opaque issueCycles : Nat → Nat
/-- The syndrome that a check leaves for an address (R327). A free value, log entry 10. -/
opaque syndrome : Nat → BitVec 32
/-- Whether a device partition owns the Rhaot ports (R337), which no register says. A free value, log entry 11. -/
opaque ownsPorts : Nat → Bool
/-- SHA-512 (R291 to R293), whose digests the manual does not restate. A free value, log entry 6. -/
opaque sha512 : List (BitVec 8) → List (BitVec 8)
/-- The Ed25519 signature that Cloper makes (R292). A free value, log entry 6. -/
opaque sign : List (BitVec 8) → List (BitVec 8)
/-- Whether a signature over some bytes is that of the Nymlas key in the mask ROM (R291). A free value, log entry 6. -/
opaque signedBy : List (BitVec 8) → List (BitVec 8) → Bool
/-- The settings that a configuration image holds (R291, R358), whose layout the manual does not give. A free value, log entry 6. -/
opaque settings : List (BitVec 8) → BootConf
/-- What a word of the CXL.io configuration space holds (R280, R360), by offset and occurrence: the manual gives no content. A free
value, log entry 59. -/
opaque configWord : Nat → Nat → BitVec 32
/-- What GET_CAPABILITIES answers (R292), which the manual does not restate. A free value, log entry 6. -/
opaque capabilities : List (BitVec 8)
/-- The ROM identity that Cloper reports after a stage-1 failure (R360). A free value, log entry 6. -/
opaque romIdentity : List (BitVec 8)
/-- The content of Cloper's certificate chain (R292). A free value, log entry 6. -/
opaque certificate : List (BitVec 8)
/-- The answer of Cloper to an MCTP control command, and a sensor's reading where the manual gives no number
(R362). Free values, log entry 6. -/
opaque mctpAnswer : BitVec 8 → List (BitVec 8)
opaque sensorReading : Nat → Nat → Nat

end Sys2Proof.Config
end

