-- ==== Sys2Proof/Syntax.lean ====
section
/-! DEFINITION. The instructions of Virlin: one constructor for each row of the opcode table.
A word of a clause carries the fields of its form (R37, R42), each at the width the spec gives it; the machine's own
steps (the table's last 83 rows) carry the numbers that say which object acts. -/

namespace Sys2Proof

/-- The fields that every instruction word has above its operands (R37): the next-address selector, the lookahead
window, the token attachment and the guard. -/
structure Common where
  nas  : BitVec 3
  look : BitVec 4
  ts   : BitVec 1
  tok  : BitVec 3
  pneg : BitVec 1
  pidx : BitVec 3
deriving DecidableEq, Repr, Inhabited

/-- Form A (R42): three source specifiers, TYPE and CTL. -/
structure FA where
  c   : Common
  dst : BitVec 8
  sa  : BitVec 8
  sb  : BitVec 8
  sc  : BitVec 8
  ty  : BitVec 4
  ctl : BitVec 5
deriving DecidableEq, Repr, Inhabited

/-- Form V (R42): a 32-bit immediate (SA, SB and MOD bits 16 to 1) and the reserved MOD bit 0. -/
structure FV where
  c   : Common
  dst : BitVec 8
  imm : BitVec 32
  rsv : BitVec 1
deriving DecidableEq, Repr, Inhabited

/-- Form M (R42): a byte offset, a width and CTL. -/
structure FM where
  c   : Common
  dst : BitVec 8
  sa  : BitVec 8
  sb  : BitVec 8
  off : BitVec 12
  wid : BitVec 3
  ctl : BitVec 2
deriving DecidableEq, Repr, Inhabited

/-- Form X (R42): a guard slot and the fields of the opcode. -/
structure FX where
  c   : Common
  dst : BitVec 8
  sa  : BitVec 8
  sb  : BitVec 8
  gd  : BitVec 1
  gs  : BitVec 3
  mod : BitVec 13
deriving DecidableEq, Repr, Inhabited

/-- Form S (R42): a CSR index or operation code and the fields of the opcode. -/
structure FS where
  c   : Common
  dst : BitVec 8
  sa  : BitVec 8
  sb  : BitVec 8
  idx : BitVec 12
  low : BitVec 5
deriving DecidableEq, Repr, Inhabited

/-- Form N (R42): DST, SA, SB and MOD, all zero in an instruction. -/
structure FN where
  c    : Common
  rest : BitVec 41
deriving DecidableEq, Repr, Inhabited

/-- What a fabric request asks of a peer's memory (R335); a store says whether its bytes are poisoned (R314). -/
inductive PeerOp where
  | load (addr len : Nat)
  | store (addr : Nat) (bytes : List (BitVec 8)) (bad : Bool)
  | atom (addr wid aop : Nat) (b : Nat)
deriving DecidableEq, Repr, Inhabited

/-- What the matched operations of a communicator must agree in (R341). -/
structure OpSig where
  op    : Nat
  ety   : BitVec 4
  rop   : BitVec 2
  count : Nat
  root  : Nat
deriving DecidableEq, Repr, Inhabited

/-- How a request reaches Cloper: the DOE mailbox of CXL.io, MCTP over CXL, or MCTP over SMBus, to an address there (R292,
R362). -/
inductive Transport where
  | doe
  | mctpCxl
  | mctpSmbus (addr : BitVec 7)
deriving DecidableEq, Repr, Inhabited

/-- What a step of bring-up meets (R358): the manifest and the images by id (R291), the code of a step that fails of itself, 0 where none does, and, as the links train, the module's chip number and the
chips that no link reaches. -/
structure Boot where
  manifest : List (BitVec 8)
  images   : List (Nat × List (BitVec 8))
  err      : Nat
  chip     : Nat
  down     : List Nat
deriving DecidableEq, Repr, Inhabited

/-- The instructions (rows 0 to 157 of the opcode table) and the machine's own steps (rows 158 to 240). -/
inductive Instr where
  /-- NOP: Does nothing except carry a selector or SKIP; it has the same meaning in every class. (R54) -/
  | nop (cls : BitVec 2) (w : FN)
  /-- ADD: Integer addition, reduced modulo 2^n or saturated. (R104) -/
  | add (w : FA)
  /-- SUB: Integer subtraction, reduced modulo 2^n or saturated. (R104) -/
  | sub (w : FA)
  /-- MUL: Integer multiplication keeping the low n bits. (R104) -/
  | mul (w : FA)
  /-- MULH: High half of the exact 2n-bit integer product. (R104) -/
  | mulh (w : FA)
  /-- MAD: Exact a × b + c, reduced or clamped once. (R104) -/
  | mad (w : FA)
  /-- MADW: Widening multiply-add of 32-bit values into a 64-bit pair. (R104) -/
  | madw (w : FA)
  /-- ADDC: Addition with carry in and carry out through predicates. (R105) -/
  | addc (w : FA)
  /-- SUBB: Subtraction with borrow in and borrow out through predicates. (R105) -/
  | subb (w : FA)
  /-- NEG: Integer negation. (R104) -/
  | neg (w : FA)
  /-- ABS: Integer absolute value. (R104) -/
  | abs (w : FA)
  /-- MIN: Smaller of two integers, compared by signedness. (R104) -/
  | min (w : FA)
  /-- MAX: Larger of two integers, compared by signedness. (R104) -/
  | max (w : FA)
  /-- AND: Bitwise AND. (R104) -/
  | and (w : FA)
  /-- OR: Bitwise OR. (R104) -/
  | or (w : FA)
  /-- XOR: Bitwise exclusive OR. (R104) -/
  | xor (w : FA)
  /-- ANDN: a AND NOT b. (R104) -/
  | andn (w : FA)
  /-- NOT: Bitwise complement. (R104) -/
  | not (w : FA)
  /-- SHL: Left shift by b mod n. (R104) -/
  | shl (w : FA)
  /-- SHR: Logical right shift by b mod n. (R104) -/
  | shr (w : FA)
  /-- SAR: Arithmetic right shift by b mod n. (R104) -/
  | sar (w : FA)
  /-- ROTL: Rotate left by b mod n. (R104) -/
  | rotl (w : FA)
  /-- FSHF: Funnel shift of the concatenation of c and a. (R104) -/
  | fshf (w : FA)
  /-- POPC: Population count. (R104) -/
  | popc (w : FA)
  /-- CLZ: Count of leading zeros. (R104) -/
  | clz (w : FA)
  /-- CTZ: Count of trailing zeros. (R104) -/
  | ctz (w : FA)
  /-- BREV: Bit reversal. (R104) -/
  | brev (w : FA)
  /-- BFX: Extracts a bit field, extended by signedness. (R106) -/
  | bfx (w : FA)
  /-- BFI: Inserts a bit field of a into b. (R107) -/
  | bfi (w : FA)
  /-- PRMT: Permutes bytes of two registers under a nibble selector. (R108) -/
  | prmt (w : FA)
  /-- LEA: Forms a 64-bit address from a base and a shifted index. (R109) -/
  | lea (w : FA)
  /-- CMP: Integer compare, writing a predicate and a mask register. (R110) -/
  | cmp (w : FA)
  /-- SEL: Selects a or b by whether c is non-zero. (R104) -/
  | sel (w : FA)
  /-- DIV: Integer division with defined edge results; on Virlin it always reaches the emulation handler. (R111) -/
  | div (w : FA)
  /-- REM: Integer remainder with defined edge results; on Virlin it always reaches the emulation handler. (R111) -/
  | rem (w : FA)
  /-- FADD: Correctly rounded float addition. (R112) -/
  | fadd (w : FA)
  /-- FSUB: Correctly rounded float subtraction. (R112) -/
  | fsub (w : FA)
  /-- FMUL: Correctly rounded float multiplication. (R112) -/
  | fmul (w : FA)
  /-- FFMA: Fused multiply-add with one rounding. (R112) -/
  | ffma (w : FA)
  /-- FMIN: Float minimum, with −0 below +0 and NaN rules. (R113) -/
  | fmin (w : FA)
  /-- FMAX: Float maximum, with −0 below +0 and NaN rules. (R113) -/
  | fmax (w : FA)
  /-- FCMP: Float compare, writing a predicate and a mask register. (R113) -/
  | fcmp (w : FA)
  /-- FCLASS: Writes a one-hot class mask of a float. (R114) -/
  | fclass (w : FA)
  /-- FSCALE: Rounded a × 2^b. (R112) -/
  | fscale (w : FA)
  /-- FRND: Rounds to an integral value in RM. (R112) -/
  | frnd (w : FA)
  /-- FRCP: Correctly rounded reciprocal. (R112) -/
  | frcp (w : FA)
  /-- FRSQ: Correctly rounded reciprocal square root. (R112) -/
  | frsq (w : FA)
  /-- FSQRT: Correctly rounded square root. (R112) -/
  | fsqrt (w : FA)
  /-- FDIV: Correctly rounded float division; on Virlin it always reaches the emulation handler. (R112) -/
  | fdiv (w : FA)
  /-- FEXP2: Faithfully rounded 2^a. (R112) -/
  | fexp2 (w : FA)
  /-- FLOG2: Faithfully rounded log2 a. (R112) -/
  | flog2 (w : FA)
  /-- FSIN: Faithfully rounded sine. (R112) -/
  | fsin (w : FA)
  /-- FCOS: Faithfully rounded cosine. (R112) -/
  | fcos (w : FA)
  /-- FTANH: Faithfully rounded hyperbolic tangent. (R112) -/
  | ftanh (w : FA)
  /-- FDOT2: Two-element packed dot product plus c, rounded once to f32. (R115) -/
  | fdot2 (w : FA)
  /-- CVT: Converts a value between integer and float types. (R116) -/
  | cvt (w : FA)
  /-- PACK: Packs two values into the halves of one register. (R117) -/
  | pack (w : FA)
  /-- UNPK: Unpacks the halves of one register into a pair. (R117) -/
  | unpk (w : FA)
  /-- QENC: Quantises a block held across lanes by the rule of R91. (R118) -/
  | qenc (w : FA)
  /-- QDEC: Decodes one quantised element with its scale. (R118) -/
  | qdec (w : FA)
  /-- MOV: Copies a register value. (R119) -/
  | mov (w : FA)
  /-- MOVI: Writes a 32-bit immediate. (R119) -/
  | movi (w : FV)
  /-- MOVH: Writes a 32-bit immediate to the odd register of a pair. (R119) -/
  | movh (w : FV)
  /-- RDS: Reads a special register. (R120) -/
  | rds (w : FA)
  /-- WRS: Writes a special register. (R120) -/
  | wrs (w : FA)
  /-- SHFL: Reads a value from another participating thread of the home warp. (R123) -/
  | shfl (w : FA)
  /-- VOTE: Combines a predicate across the participating threads (any, all, eq or ballot). (R124) -/
  | vote (w : FA)
  /-- REDUX: Reduces a value over the canonical tree of home lanes. (R125) -/
  | redux (w : FA)
  /-- MATCH: Finds the threads that hold equal values. (R126) -/
  | matchLanes (w : FA)
  /-- V2S: Moves one thread's value to a scalar. (R127) -/
  | v2s (w : FA)
  /-- PLOP: Computes any function of three predicates by truth table. (R121) -/
  | plop (w : FA)
  /-- PMOV_GET: Copies the predicates into a register. (R122) -/
  | pmovGet (w : FA)
  /-- PMOV_SET: Sets the masked predicates from a register. (R122) -/
  | pmovSet (w : FA)
  /-- LD: Loads the WID width, or a typed element, from global memory. (R178) -/
  | ld (w : FM)
  /-- ST: Stores the WID width, or a typed element, to global memory. (R178) -/
  | st (w : FM)
  /-- LDNR: Loads from resident pages only, flagging non-resident lanes in a predicate. (R180) -/
  | ldnr (w : FM)
  /-- LDA: Acquire load of up to 8 bytes. (R178) -/
  | lda (w : FM)
  /-- STL: Release store of up to 8 bytes. (R178) -/
  | stl (w : FM)
  /-- LDS: Loads from the team's scratchpad by offset. (R178) -/
  | lds (w : FM)
  /-- STS: Stores to the team's scratchpad by offset. (R178) -/
  | sts (w : FM)
  /-- LDT: Loads one tensor element through the shape registers, with clipping. (R190) -/
  | ldt (w : FM)
  /-- STT: Stores one tensor element through the shape registers, with clipping. (R190) -/
  | stt (w : FM)
  /-- QST: Writes whole Q blocks and chooses their scales. (R181) -/
  | qst (w : FM)
  /-- ATOM: Atomic operation at the home slice, returning the old value, with optional ordering. (R182) -/
  | atom (w : FM)
  /-- RED: Atomic reduction at the home slice that returns nothing. (R182) -/
  | red (w : FM)
  /-- ATOMS: Atomic operation at the scratchpad banks. (R182) -/
  | atoms (w : FM)
  /-- FENCE_ACQ: Makes the thread's earlier loads acquires. (R184) -/
  | fenceAcq (w : FM)
  /-- FENCE_REL: Makes the thread's later stores releases. (R184) -/
  | fenceRel (w : FM)
  /-- FENCE_FULL: Waits for acknowledgement of earlier stores, then performs the acquire invalidation. (R184) -/
  | fenceFull (w : FM)
  /-- PREF: Prefetches a sector into L1 or L2 without trapping. (R185) -/
  | pref (w : FM)
  /-- PGREQ: Requests residence of a page, optionally waiting for it. (R186) -/
  | pgreq (w : FM)
  /-- ICFENCE: Invalidates the core's instruction cache and prefetch lines. (R187) -/
  | icfence (w : FN)
  /-- SHAPE: Loads a 128-byte shape record into h0 to h3. (R189) -/
  | shape (w : FM)
  /-- SWINIT: Sets TARGET of a sync word and clears its COUNT. (R191) -/
  | swinit (w : FM)
  /-- SWWAIT: Waits until a sync word's GEN differs from a comparand, as an acquire. (R192) -/
  | swwait (w : FM)
  /-- SEAL: Closes the open copy batch and returns its number. (R193) -/
  | seal (w : FA)
  /-- WAITB: Waits for the covered batches to complete, and reports their faults. (R193) -/
  | waitb (w : FA)
  /-- JMPI: Indirect jump to a 64-bit target. (R232) -/
  | jmpi (w : FA)
  /-- CALLI: Indirect call that writes the link pair. (R232) -/
  | calli (w : FA)
  /-- MEETSET: Sets MEET to a relative label and MTAG to the group number. (R233) -/
  | meetset (w : FA)
  /-- MEETSET_R: Sets MEET from a register pair and MTAG to the group number. (R233) -/
  | meetsetR (w : FA)
  /-- MEETSET_CLR: Clears MEET to 1 and MTAG to 0. (R233) -/
  | meetsetClr (w : FA)
  /-- BAR_ARRIVE: Release arrival at a team barrier record, returning the generation. (R234) -/
  | barArrive (w : FA)
  /-- BAR_WAIT: Waits at BP-BAR until the team barrier generation advances. (R234) -/
  | barWait (w : FA)
  /-- BAR_SYNC: Arrives at a team barrier, then waits on that generation. (R234) -/
  | barSync (w : FA)
  /-- SBAR_ARRIVE: Counts the thread toward its team's arrival at a span barrier. (R235) -/
  | sbarArrive (w : FA)
  /-- SBAR_WAIT: Waits at BP-SPAN until the span barrier generation advances. (R235) -/
  | sbarWait (w : FA)
  /-- SBAR_SYNC: Arrives at a span barrier, then waits on that generation. (R235) -/
  | sbarSync (w : FA)
  /-- WATCH: Arms watches on sectors and clears the wake flag. (R237) -/
  | watch (w : FM)
  /-- WATCH_CLR: Empties the home warp's watch set. (R237) -/
  | watchClr (w : FM)
  /-- WAIT: Waits at BP-WATCH for the wake flag. (R238) -/
  | wait (w : FN)
  /-- YIELD: Asks the partition to prefer other warps for the next slot. (R239) -/
  | yield (w : FN)
  /-- SLEEP: Waits at BP-SLEEP for a CLK interval. (R239) -/
  | sleep (w : FA)
  /-- CBR: Contributes to a collective branch, then predicts and opens a speculation window, or waits. (R247) -/
  | cbr (w : FA)
  /-- CBSYNC: Waits at BP-AGREE for an outstanding collective branch to resolve. (R252) -/
  | cbsync (w : FA)
  /-- CBSYNC_ABORT: Sends an abort for the next sequence and waits for it to resolve. (R252) -/
  | cbsyncAbort (w : FA)
  /-- GRES: Resolves a guard slot, releasing or discarding the commands held in it. (R240) -/
  | gres (w : FA)
  /-- RECA: Allocates a record slot of a stage-graph slice, waiting at BP-RECQ when the slice is full. (R241) -/
  | reca (w : FA)
  /-- RECC: Commits an allocated record as a release. (R242) -/
  | recc (w : FA)
  /-- RECF: Frees the thread's delivered record. (R242) -/
  | recf (w : FA)
  /-- LAUNCH: Appends a request packet to a queue interface from a kernel. (R244) -/
  | launch (w : FA)
  /-- SIGNAL: Release write of a 64-bit word, with an optional interrupt. (R245) -/
  | signal (w : FA)
  /-- TRAP: Raises the precise SOFT trap with a value. (R246) -/
  | trap (w : FA)
  /-- BRK: Raises the precise breakpoint trap for every active thread. (R54) -/
  | brk (cls : BitVec 2) (rest : BitVec 56)
  /-- ALLOC: Requests accumulator banks for the gang, waiting at BP-ALLOC when they are held. (R135) -/
  | alloc (w : FX)
  /-- FREE: Returns accumulator banks to the free state. (R136) -/
  | free (w : FX)
  /-- MMA: Arrives at the gang's rendezvous latch for a matrix product. (R132) -/
  | mma (w : FX)
  /-- ACZ: Zeroes a bank range. (R147) -/
  | acz (w : FX)
  /-- ACRD: Reads bank words into vector registers. (R148) -/
  | acrd (w : FX)
  /-- ACWR: Writes vector registers into bank words. (R148) -/
  | acwr (w : FX)
  /-- ACLD: Loads banks from memory as RAW. (R149) -/
  | acld (w : FX)
  /-- ACST: Stores a tile to memory, converted to the page format. (R149) -/
  | acst (w : FX)
  /-- CPY: Issues an asynchronous byte copy. (R196) -/
  | cpy (w : FX)
  /-- CPYG: Issues an asynchronous indexed gather. (R196) -/
  | cpyg (w : FX)
  /-- CPYS: Issues an asynchronous indexed scatter. (R196) -/
  | cpys (w : FX)
  /-- CPYT: Issues a tile move between a tensor and scratchpad. (R197) -/
  | cpyt (w : FX)
  /-- WALK: Issues a graph walk from a walk descriptor. (R198) -/
  | walk (w : FX)
  /-- CRDC: Collective reduce to a root rank. (R343) -/
  | crdc (w : FX)
  /-- CALR: Collective all-reduce. (R343) -/
  | calr (w : FX)
  /-- CRSC: Collective reduce-scatter. (R343) -/
  | crsc (w : FX)
  /-- CALG: Collective all-gather. (R343) -/
  | calg (w : FX)
  /-- CBCS: Collective broadcast from a root rank. (R343) -/
  | cbcs (w : FX)
  /-- CBAR: Collective barrier over a communicator. (R343) -/
  | cbar (w : FX)
  /-- ERET_DONE: Ends a trap instance, continuing as if the word had executed. (R302) -/
  | eretDone (w : FS)
  /-- ERET_RETRY: Ends a trap instance, executing the trapping word again. (R302) -/
  | eretRetry (w : FS)
  /-- RDCSR: Reads a CSR. (R319) -/
  | rdcsr (w : FS)
  /-- WRCSR: Writes a CSR. (R320) -/
  | wrcsr (w : FS)
  /-- TLBINV_PAGE: Invalidates one stage-1 page of the context's PASID. (R322) -/
  | tlbinvPage (w : FS)
  /-- TLBINV_PASID: Invalidates every non-G stage-1 entry of the PASID. (R322) -/
  | tlbinvPasid (w : FS)
  /-- TLBINV_GPAGE: Invalidates one stage-1 page for every PASID of the partition. (R322) -/
  | tlbinvGpage (w : FS)
  /-- TLBINV_IPA: Invalidates one stage-2 page in the partition. (R322) -/
  | tlbinvIpa (w : FS)
  /-- TLBINV_ALL: Invalidates every entry of both stages in the partition. (R322) -/
  | tlbinvAll (w : FS)
  /-- CTXSW_OUT: Agent switches a context out of its core. (R323) -/
  | ctxswOut (w : FS)
  /-- CTXSW_IN: Agent switches a saved context back into its core. (R323) -/
  | ctxswIn (w : FS)
  /-- CLAIM: Agent claims a span from a ticket line atomically. (R324) -/
  | claim (w : FS)
  /-- CLAIM_NODE: Agent takes the next due node launch of its die's doser. (R324) -/
  | claimNode (w : FS)
  /-- MCACK: Clears a machine-check bank of the core. (R324) -/
  | mcack (w : FS)
  /-- HALT: Fails the context in handler mode, or stops the agent in the agent slot. (R324) -/
  | halt (w : FS)
  /-- CLAUSE_HEADER: Fetches and tests a clause header, waits on its tokens, and holds or releases meetings. (R34) -/
  | clauseHeader (team : Nat) (num : Nat)
  /-- RESULT_WRITEBACK: A long-latency result, or remote data, returns and is written, counting its token down. (R52) -/
  | resultWriteback (team : Nat) (tidx : Nat) (k : Nat)
  /-- STORE_ACKNOWLEDGE: The home acknowledges a store's ownership registration. (R167) -/
  | storeAcknowledge (id : Nat)
  /-- SPURIOUS_WAKE: A warp waiting on watches is woken without a write. (R220) -/
  | spuriousWake (team : Nat) (warp : Nat)
  /-- SPIN_DETECT: The spin counter reaches SPINN and the group is put at BP-SPIN with watches armed. (R218) -/
  | spinDetect (team : Nat) (num : Nat)
  /-- SLEEP_EXPIRE: The SLEEP interval passes and the thread leaves BP-SLEEP. (R239) -/
  | sleepExpire (team : Nat) (tidx : Nat)
  /-- WTIMER: WTIME reaches WTCMP and the WTIMER trap is raised at the next header. (R311) -/
  | wtimer (team : Nat) (warp : Nat)
  /-- PARK_SCAN: The periodic scan exchanges the longest-parked group with the most recent issuer. (R206) -/
  | parkScan (part : Nat)
  /-- TUMBLER_SWAP: The tumbler rotates eviction candidates out and a runnable warp in. (R211) -/
  | tumblerSwap (part : Nat)
  /-- CHECKPOINT_WRITEBACK: An idle write-back slot streams dirty registers to the save area. (R212) -/
  | checkpointWriteback (team : Nat) (warp : Nat) (reg : Nat)
  /-- TEAM_ROTATE_OUT: Rotates a whole team out to free its scratchpad. (R213) -/
  | teamRotateOut (team : Nat)
  /-- BANK_SPILL: Spills a waiting gang's accumulator banks to the save area. (R138) -/
  | bankSpill (part : Nat) (bank : Nat)
  /-- K_ROW: A matrix product fetches, checks and accumulates one K row. (R141) -/
  | kRow (id : Nat)
  /-- COPY_TRANSFER: An engine moves the bytes of an issued command. (R195) -/
  | copyTransfer (id : Nat) (piece : Nat)
  /-- WALK_HOP: A walk engine performs one hop and writes its entry. (R200) -/
  | walkHop (id : Nat)
  /-- TEAM_START: Starts a team, reading its parameter block into s0 to s15. (R28) -/
  | teamStart (launch : Nat) (index : Nat) (core : Nat) (part : Nat)
  /-- TEAM_RETIRE: Retires a team, freeing its banks and areas and counting RETIRED. (R150) -/
  | teamRetire (team : Nat)
  /-- WORK_STEAL: An agent idle for 2 µs claims spans from another die's counter. (R224) -/
  | workSteal (die : Nat) (launch : Nat)
  /-- DOSER_TIMER: The oldest record of a slice waits T µs and a partial launch follows. (R228) -/
  | doserTimer (launch : Nat) (node : Nat) (depth : Nat)
  /-- PAGE_MIGRATION: Migrates a touched bulk page into a pool frame. (R277) -/
  | pageMigration (part : Nat) (page : Nat)
  /-- INTERRUPT_TIMER: The coalescing timer lapses and the interrupt is raised. (R289) -/
  | interruptTimer (q : Nat) (v : Nat)
  /-- PACKET_AGING: A packet waiting 100 µs is served at priority 3. (R282) -/
  | packetAging (q : Nat)
  /-- DOORBELL: A TAIL write announces new packets, or halts the interface on overflow. (R283) -/
  | doorbell (q : Nat) (tail : BitVec 32)
  /-- NOP_PACKET: A NOP packet completes at once. (R284) -/
  | nopPacket (q : Nat)
  /-- LAUNCH_PACKET: Checks and begins a grid launch. (R284) -/
  | launchPacket (q : Nat)
  /-- GRAPH_PACKET: Checks and begins a stage graph. (R226) -/
  | graphPacket (q : Nat)
  /-- WAIT_PACKET: Holds later packets of its queue until a word meets a condition. (R284) -/
  | waitPacket (q : Nat)
  /-- WAIT_PACKET_SATISFIED: The watched word meets the condition and the WAIT packet completes. (R284) -/
  | waitPacketSatisfied (q : Nat)
  /-- SIGNAL_PACKET: After earlier completions, writes a value as a release. (R284) -/
  | signalPacket (q : Nat)
  /-- FETCH_FENCE: Waits for earlier completions and rereads the queue. (R225) -/
  | fetchFence (q : Nat)
  /-- CTXCMD_CREATE: Creates a context from its record. (R262) -/
  | ctxcmdCreate (ctx : Nat)
  /-- CTXCMD_REVOKE: Fails and revokes a context. (R262) -/
  | ctxcmdRevoke (ctx : Nat)
  /-- CTXCMD_UPDATE: Rereads a context's SCB and walk-window table. (R262) -/
  | ctxcmdUpdate (ctx : Nat)
  /-- INVREQ: Host request for a translation invalidation. (R270) -/
  | invreq (v : BitVec 64)
  /-- PDCTL_SUPPLY: Driver reply that a page is supplied; the merge entry closes. (R276) -/
  | pdctlSupply (part : Nat) (pasid : Nat) (s2 : Bool)
  /-- PDCTL_FAIL: Driver reply that a page cannot be supplied; the waiters fail with NOMAP. (R276) -/
  | pdctlFail (part : Nat) (pasid : Nat) (s2 : Bool)
  /-- POOLBASE_WRITE: Empties the migration pool until POOLSIZE is written. (R277) -/
  | poolbaseWrite (part : Nat) (v : BitVec 64)
  /-- POOLSIZE_WRITE: Starts a new pool stack at POOLBASE. (R277) -/
  | poolsizeWrite (part : Nat) (v : BitVec 64)
  /-- FQHEAD_WRITE: The driver consumes fault records, freeing room for pending ones. (R275) -/
  | fqheadWrite (part : Nat) (v : BitVec 32)
  /-- INTERFACE_ENABLE: Setting EN resets HEAD and TAIL and clears HALT. (R281) -/
  | interfaceEnable (q : Nat)
  /-- INTERFACE_DISABLE: Clearing EN discards packets not yet begun. (R281) -/
  | interfaceDisable (q : Nat)
  /-- ERR_CLEAR: A write of 1 clears an interface's ERR bit. (R282) -/
  | errClear (q : Nat)
  /-- COMMCMD_OPEN: Opens a communicator slot from its record. (R337) -/
  | commcmdOpen (slot : Nat)
  /-- COMMCMD_CLOSE: Closes a communicator slot. (R337) -/
  | commcmdClose (slot : Nat)
  /-- OPEN_TIMEOUT: An OPEN waiting for TSYNC ends with RESULT 4 after 1 s. (R338) -/
  | openTimeout (slot : Nat)
  /-- TIME_SYNC: CLK agrees with the fabric domain and TSYNC becomes 1. (R357) -/
  | timeSync
  /-- MRESET: A host write of MRESET resets the module. (R361) -/
  | mreset
  /-- MC_BANK_CLEAR: A driver write of VALID in BAR0 clears a machine-check bank. (R324) -/
  | mcBankClear (pcn : Nat) (bank : Nat)
  /-- REGISTER_WRITE: A write to a management register that has no behaviour of its own. (R264) -/
  | registerWrite (bar : Nat) (off : Nat) (v : BitVec 64)
  /-- CXL_MEM_READ: A host read of device memory at the home slice. (R171) -/
  | cxlMemRead (pa : Nat) (len : Nat)
  /-- CXL_MEM_WRITE: A host write of device memory at the home slice. (R171) -/
  | cxlMemWrite (pa : Nat) (bytes : List (BitVec 8))
  /-- ATS_INVALIDATION: The host invalidates cached ATS results. (R280) -/
  | atsInvalidation (pasid : Nat) (page : Nat)
  /-- GET_VERSION: SPDM request answered by Cloper. (R292) -/
  | getVersion (via : Transport)
  /-- GET_CAPABILITIES: SPDM request answered by Cloper. (R292) -/
  | getCapabilities (via : Transport)
  /-- NEGOTIATE_ALGORITHMS: SPDM request answered by Cloper. (R292) -/
  | negotiateAlgorithms (via : Transport)
  /-- GET_DIGESTS: SPDM request answered by Cloper. (R292) -/
  | getDigests (via : Transport)
  /-- GET_CERTIFICATE: SPDM request answered by Cloper. (R292) -/
  | getCertificate (via : Transport) (offset : Nat) (len : Nat)
  /-- CHALLENGE: SPDM challenge signed with the identity key. (R292) -/
  | challenge (via : Transport) (nonce : List (BitVec 8))
  /-- GET_MEASUREMENTS: SPDM request that returns the measurements. (R293) -/
  | getMeasurements (via : Transport) (index : Nat)
  /-- MCTP_CONTROL: MCTP control message answered by Cloper. (R362) -/
  | mctpControl (via : Transport) (cmd : BitVec 8)
  /-- PLDM_REQUEST: PLDM monitoring request answered with sensor values. (R362) -/
  | pldmRequest (via : Transport) (sensor : Nat)
  /-- MREQ: A peer memory request arrives on the MREQ channel. (R334) -/
  | mreq (chip : Nat) (tag : Nat) (op : PeerOp)
  /-- MRSP: A response or acknowledgement arrives on the MRSP channel. (R334) -/
  | mrsp (tag : Nat) (data : List (BitVec 8)) (bad : Bool)
  /-- JOIN: The root chip receives a JOIN for a communicator. (R339) -/
  | join (ftag : Nat) (chip : Nat)
  /-- NOTOPEN: A sender receives NOTOPEN and keeps its message. (R339) -/
  | notopen (ftag : Nat) (which : Option Nat)
  /-- JOIN_ACK: A chip's JOIN is acknowledged and its held agreement messages flow. (R339) -/
  | joinAck (ftag : Nat)
  /-- JOIN_RETRY: The JOIN is resent every 10 µs until acknowledged. (R339) -/
  | joinRetry (ftag : Nat)
  /-- CONTRIBUTION: A CBR contribution subtree arrives and may decide the sequence. (R345) -/
  | contribution (ftag : Nat) (seq : Nat) (lo : Nat) (hi : Nat) (any : Bool) (value : Option Bool) (partialRanks : Bool)
  /-- ABORT_MESSAGE: An abort arrives at the root chip and decides the sequence aborted if it is first. (R345) -/
  | abortMessage (ftag : Nat) (seq : Nat)
  /-- DECISION: A decision arrives at a chip and is delivered to its members. (R346) -/
  | decision (ftag : Nat) (seq : Nat) (outcome : BitVec 3) (partialRanks : Bool)
  /-- COLLECTIVE_CHUNK: The collective engine moves one 64 KiB chunk. (R344) -/
  | collectiveChunk (slot : Nat) (k : Nat) (chunk : Nat) (remote : List (Nat × OpSig × List (BitVec 8 × Bool)))
  /-- CHUNK_AGING: A chunk waiting 50 µs is promoted to high priority. (R344) -/
  | chunkAging (slot : Nat) (k : Nat)
  /-- LINK_LOSS: A Rhaot link is lost. (R349) -/
  | linkLoss (chips : List Nat)
  /-- LINK_RETRY: A flit with a bad CRC is retried on the link. (R315) -/
  | linkRetry (port : Nat)
  /-- THERMAL_POLL: The millisecond sensor read steps clocks, migrates teams or trips. (R355) -/
  | thermalPoll (sensor : Nat) (celsius : Nat)
  /-- POWER_LIMIT: Power averaged over 1 ms exceeds the limit and clocks step down. (R353) -/
  | powerLimit (watts : Nat)
  /-- WATCHDOG: A core's watchdog expires after 100 ms. (R315) -/
  | watchdog (core : Nat) (missed : Bool)
  /-- PATROL_SCRUB: The patrol scrub checks and rewrites idle data. (R315) -/
  | patrolScrub (pa : Nat) (uncorrectable : Bool)
  /-- MACHINE_CHECK: An uncorrectable error halts a core, is logged and is raised to the host. (R313) -/
  | machineCheck (core : Nat) (unit : Nat) (syndrome : BitVec 32) (paddr : Option Nat) (uc : Bool)
  /-- BRING_UP: At power-good, Cloper verifies images, configures, trains, zeroes and starts the agents. (R358) -/
  | bringUp (boot : Boot)
  /-- MODULE_RESET: Loss of power-good, a CXL reset or a thermal trip resets the module. (R361) -/
  | moduleReset
  /-- WATCH_REGISTRATION: The home slice or the banks confirm that a warp's watch is registered, and the thread's next word may issue. (R237) -/
  | watchRegistration (team : Nat) (warp : Nat)
  /-- CBAR_MESSAGE: A matching CBAR, or the matching of a data-less collective, arrives from another chip on VC 15 and may complete the operation in every member's batch. (R343) -/
  | cbarMessage (slot : Nat) (k : Nat) (rank : Nat) (sig : OpSig)
deriving DecidableEq, Repr

end Sys2Proof
end

