-- ==== Sys2Proof/Machine/Encoding.lean ====
section
/-! DEFINITION. What each field of an instruction word may hold: operand specifiers (R39 to R41), type and width codes
(R43, R44), CTL (R45) and the fields of each opcode (05, 06, 09, 11, 16, 18). From this one table come the test of
R56, the registers an instruction reads and writes (R51) and the destination that ERET.done writes (R303). -/

namespace Sys2Proof

/-- An operand specifier (R39). -/
inductive Opnd where
  | v (n : Nat)
  | s (n : Nat)
  | zero
  | imm8
  | hlane
  | tidx
  | ew (k : Nat)
  | bad
deriving DecidableEq, Repr, Inhabited

/-- The operand that a specifier code names (R39). -/
def opndOf (code : BitVec 8) : Opnd :=
  let n := code.toNat
  if n < 0xC0 then .v n
  else if n < 0xF0 then .s (n - 0xC0)
  else if n = 0xF0 then .zero
  else if n = 0xF1 then .imm8
  else if n = 0xF2 then .hlane
  else if n = 0xF3 then .tidx
  else if 0xF8 ≤ n ∧ n ≤ 0xFB then .ew (n - 0xF8)
  else .bad

/-- The cases of R56, in its order. -/
inductive NotInstr where
  /-- 1: CLASS 4 to 15 -/
  | undefinedClass
  /-- 2: header bits 42:32 -/
  | headerReserved
  /-- 3: BPRED, BNEG or TARGET where R35 requires zero -/
  | headerFields
  /-- 4: an opcode outside its class's map -/
  | opcode
  /-- 5: a feature that is not enabled -/
  | feature
  /-- 6: an unused field that is not zero -/
  | field
  /-- 7: an undefined or misplaced operand specifier -/
  | operand
  /-- 8: an odd pair base, or a quad base that is not a multiple of 4 -/
  | base
  /-- 9: a TYPE, WID or CTL value that the opcode does not accept -/
  | value
  /-- 10: LOOK, TS or TOK -/
  | lookahead
  /-- 11: a selector on a word that is not the last -/
  | selector
  /-- 12: a bad SKIP -/
  | skip
  /-- 13: UNI with a guard that is not unconditional -/
  | guardedUni
  /-- 14: JMPI or CALLI misplaced or with a selector -/
  | indirect
  /-- 15: GD or GS -/
  | guardSlot
  /-- 16: a window register outside handler mode -/
  | window
deriving DecidableEq, Repr, Inhabited

/-- Cases 11 to 14 of R56, whose ERET.done applies no selector, SKIP or transfer (R57, R302). -/
def NotInstr.control : NotInstr → Bool
  | .selector | .skip | .guardedUni | .indirect => true
  | _ => false

/-- What an operand field may hold. `ew` windows may stand wherever a vector register may, but not as 128 bits
(R299; DEDUCED, log entry 4). -/
inductive Kind where
  /-- the field has no use and is zero -/
  | unused
  /-- any source but IMM8 -/
  | src
  /-- any source, IMM8 too (SB of form A) -/
  | srcImm
  /-- a vector or scalar register -/
  | vs
  /-- a vector or scalar register, or IMM8 -/
  | vsImm
  /-- a vector or scalar register, or ZERO -/
  | vsz
  /-- a scalar -/
  | scal
  /-- a scalar or ZERO -/
  | scalZ
  /-- a scalar or IMM8 -/
  | scalImm
  /-- a scalar, ZERO or IMM8 -/
  | scalZImm
  /-- a vector register -/
  | vec
  /-- a vector register or ZERO -/
  | vecZ
  /-- a destination: vector, scalar or ZERO -/
  | dst
  /-- an operand record of eight scalars at s0, s8, ..., s40 (R130, R342) -/
  | record
deriving DecidableEq, Repr, Inhabited

/-- Whether a field of this kind may hold the operand. -/
def Kind.allows : Kind → Opnd → Bool
  | .src, .v _ | .src, .s _ | .src, .zero | .src, .hlane | .src, .tidx | .src, .ew _ => true
  | .srcImm, .v _ | .srcImm, .s _ | .srcImm, .zero | .srcImm, .hlane | .srcImm, .tidx | .srcImm, .ew _
  | .srcImm, .imm8 => true
  | .vs, .v _ | .vs, .s _ | .vs, .ew _ => true
  | .vsImm, .v _ | .vsImm, .s _ | .vsImm, .ew _ | .vsImm, .imm8 => true
  | .vsz, .v _ | .vsz, .s _ | .vsz, .ew _ | .vsz, .zero => true
  | .scal, .s _ => true
  | .scalZ, .s _ | .scalZ, .zero => true
  | .scalImm, .s _ | .scalImm, .imm8 => true
  | .scalZImm, .s _ | .scalZImm, .zero | .scalZImm, .imm8 => true
  | .vec, .v _ | .vec, .ew _ => true
  | .vecZ, .v _ | .vecZ, .ew _ | .vecZ, .zero => true
  | .dst, .v _ | .dst, .s _ | .dst, .ew _ | .dst, .zero => true
  | .record, .s n => decide (n % 8 = 0)
  | _, _ => false

/-- One use of an operand field: what it may hold, its code, how many 32-bit registers it names, and whether the
instruction writes them. -/
structure Use where
  kind  : Kind
  code  : BitVec 8
  regs  : Nat
  write : Bool := false
deriving DecidableEq, Repr, Inhabited

/-- The test of one use against R39 and R40; the kernel's register count and handler mode are tested at issue. -/
def Use.check (u : Use) : Option NotInstr :=
  if u.kind = .unused then (if u.code = 0 then none else some .field)
  else
    let o := opndOf u.code
    if ¬ u.kind.allows o then some .operand
    else match o with
      | .v n | .s n => if (u.regs = 2 ∧ n % 2 ≠ 0) ∨ (u.regs = 4 ∧ n % 4 ≠ 0) then some .base else none
      | .ew _ => if u.regs > 2 then some .operand else none
      | _ => none

/-! ### Types (R43) and widths (R44) -/

/-- Bits of a value of a TYPE; 32 for the code that names none. -/
def tyBits (t : BitVec 4) : Nat :=
  match t.toNat with
  | 0x2 | 0x3 | 0x7 | 0xD => 64
  | 0x5 | 0x6 | 0x8 | 0x9 | 0xF => 16
  | 0xA | 0xB => 8
  | _ => 32

/-- Registers that a value of a TYPE occupies. -/
def tyRegs (t : BitVec 4) : Nat := if tyBits t = 64 then 2 else 1

/-- Whether a TYPE is one of f32, f16, bf16, f64. -/
def tyFloat (t : BitVec 4) : Bool := 4 ≤ t.toNat && t.toNat ≤ 7
/-- Whether a TYPE is a signed integer type. -/
def tySigned (t : BitVec 4) : Bool := t.toNat == 0 || t.toNat == 2 || t.toNat == 8 || t.toNat == 0xA
/-- Whether a TYPE is a bit pattern. -/
def tyBit (t : BitVec 4) : Bool := t.toNat == 0xC || t.toNat == 0xD || t.toNat == 0xF
/-- Whether a TYPE is an integer type, signed or natural (the set I of R100). -/
def tyInt (t : BitVec 4) : Bool := !tyFloat t && !tyBit t && t.toNat != 0xE
/-- The set W of R100. -/
def tyWide (t : BitVec 4) : Bool := t.toNat ≤ 3
/-- n32, n64, b32 and b64 (R104). -/
def tyNB (t : BitVec 4) : Bool := t.toNat == 1 || t.toNat == 3 || t.toNat == 0xC || t.toNat == 0xD
/-- b32 and b64. -/
def tyB (t : BitVec 4) : Bool := t.toNat == 0xC || t.toNat == 0xD

/-- The numbers of the types that a rule names. -/
abbrev i32 : BitVec 4 := 0x0
abbrev n32 : BitVec 4 := 0x1
abbrev i64 : BitVec 4 := 0x2
abbrev n64 : BitVec 4 := 0x3
abbrev f32 : BitVec 4 := 0x4
abbrev f16 : BitVec 4 := 0x5
abbrev bf16 : BitVec 4 := 0x6
abbrev f64 : BitVec 4 := 0x7
abbrev i16 : BitVec 4 := 0x8
abbrev n16 : BitVec 4 := 0x9
abbrev i8 : BitVec 4 := 0xA
abbrev n8 : BitVec 4 := 0xB
abbrev b32 : BitVec 4 := 0xC
abbrev b64 : BitVec 4 := 0xD
abbrev b16 : BitVec 4 := 0xF

/-- Bytes that a WID code moves, for WID 0 to 4 (R44). -/
def widBytes (wid : BitVec 3) : Nat :=
  match wid.toNat with
  | 0 => 1 | 1 => 2 | 2 => 4 | 3 => 8 | _ => 16

/-- Registers that a WID code moves, for WID 0 to 4 (R44). -/
def widRegs (wid : BitVec 3) : Nat :=
  match wid.toNat with
  | 3 => 2 | 4 => 4 | _ => 1

/-- TYPE of a typed access in form M (R177). -/
def FM.mty (w : FM) : BitVec 4 := w.sb.extractLsb' 0 4
/-- PD of LDNR (R177). -/
def FM.pd (w : FM) : BitVec 3 := w.sb.extractLsb' 4 3
/-- AOP of an atomic: MOD[16:13] (R177). -/
def FM.aop (w : FM) : BitVec 4 := w.off.extractLsb' 8 4
/-- The 8-bit offset of an atomic: MOD[12:5] (R177). -/
def FM.off8 (w : FM) : BitVec 8 := w.off.extractLsb' 0 8

/-- Registers named by a load or store of form M (R44, R179). -/
def memRegs (w : FM) : Nat :=
  if w.wid = 5 then
    (if w.mty = f32 then 2 else if w.mty = f64 then 4 else tyRegs w.mty)
  else widRegs w.wid

/-- Registers of an atomic's operand b: doubled for cas (R182). -/
def atomRegs (w : FM) : Nat := (if w.aop = 9 then 2 else 1) * widRegs w.wid

/-! ### Fields of form A -/

/-- SC[2:0]. -/
def FA.sc20 (w : FA) : BitVec 3 := w.sc.extractLsb' 0 3
/-- SC[5:3]. -/
def FA.sc53 (w : FA) : BitVec 3 := w.sc.extractLsb' 3 3
/-- SC[6:4]. -/
def FA.sc64 (w : FA) : BitVec 3 := w.sc.extractLsb' 4 3
/-- CTL[4:2]. -/
def FA.ctl42 (w : FA) : BitVec 3 := w.ctl.extractLsb' 2 3
/-- CTL[1:0]. -/
def FA.ctl10 (w : FA) : BitVec 2 := w.ctl.extractLsb' 0 2
/-- STYPE of CVT (R116). -/
def FA.sty (w : FA) : BitVec 4 := w.sc.extractLsb' 0 4

/-- A field without use. -/
def un (c : BitVec 8) : Use := { kind := .unused, code := c, regs := 1 }
/-- A source. -/
def rd (k : Kind) (c : BitVec 8) (n : Nat := 1) : Use := { kind := k, code := c, regs := n }
/-- A destination. -/
def wr (k : Kind) (c : BitVec 8) (n : Nat := 1) : Use := { kind := k, code := c, regs := n, write := true }
/-- SC where the opcode has no third source: free under IMM8, which it then holds (R39), else zero. -/
def scFree (w : FA) : List Use := if w.sb = 0xF1 then [] else [un w.sc]

/-- d, a, b with b open to IMM8. -/
def uses3 (w : FA) (nd na nb : Nat) : List Use :=
  [wr .dst w.dst nd, rd .src w.sa na, rd .srcImm w.sb nb] ++ scFree w
/-- d, a, b where SC holds fields, so that b takes no IMM8 (R102). -/
def uses3f (w : FA) (nd na nb : Nat) : List Use := [wr .dst w.dst nd, rd .src w.sa na, rd .src w.sb nb]
/-- d, a, b, c. -/
def uses4 (w : FA) (nd na nb nc : Nat) : List Use :=
  [wr .dst w.dst nd, rd .src w.sa na, rd .src w.sb nb, rd .src w.sc nc]
/-- d, a. -/
def uses2 (w : FA) (nd na : Nat) : List Use := [wr .dst w.dst nd, rd .src w.sa na, un w.sb, un w.sc]
/-- No operand in form A. -/
def usesA0 (w : FA) : List Use := [un w.dst, un w.sa, un w.sb, un w.sc]
/-- No operand in form M. -/
def usesM0 (w : FM) : List Use := [un w.dst, un w.sa, un w.sb]
/-- No operand in form X. -/
def usesX0 (w : FX) : List Use := [un w.dst, un w.sa, un w.sb]
/-- No operand in form S. -/
def usesS0 (w : FS) : List Use := [un w.dst, un w.sa, un w.sb]

/-- W64 of ACRD and ACWR (R130). -/
def FX.w64 (w : FX) : Bool := w.mod.getLsbD 8
/-- BANK of an MTX word (R130). -/
def FX.bank (w : FX) : Nat := (w.mod.extractLsb' 4 4).toNat
/-- NLOG of an MTX word (R130). -/
def FX.nlog (w : FX) : Nat := (w.mod.extractLsb' 0 3).toNat
/-- MOD[10:8] of an MTX word: FMT of MMA (R130). -/
def FX.fmt (w : FX) : Nat := (w.mod.extractLsb' 8 3).toNat
/-- SW of CPY, CPYG and CPYS (R194). -/
def FX.sw (w : FX) : Bool := w.mod.getLsbD 12
/-- SWREG of CPY, CPYG and CPYS (R194). -/
def FX.swreg (w : FX) : BitVec 8 := w.mod.extractLsb' 4 8
/-- DIR of CPYT (R194). -/
def FX.dirOut (w : FX) : Bool := w.mod.getLsbD 12
/-- SW of CPYT (R194). -/
def FX.tsw (w : FX) : Bool := w.mod.getLsbD 11
/-- SWREG of CPYT (R194). -/
def FX.tswreg (w : FX) : BitVec 8 := w.mod.extractLsb' 3 8
/-- ETYPE of a collective (R342). -/
def FX.etype (w : FX) : BitVec 4 := w.mod.extractLsb' 9 4
/-- ROP of a collective (R342). -/
def FX.rop (w : FX) : BitVec 2 := w.mod.extractLsb' 7 2
/-- W64 of RDCSR and WRCSR (R317). -/
def FS.w64 (w : FS) : Bool := w.low.getLsbD 0

/-- SWREG as a use: a register when SW is set, zero otherwise (R194). -/
def swUse (sw : Bool) (reg : BitVec 8) : Use := if sw then rd .vs reg else un reg

/-- The operand fields of every instruction, in the order DST, SA, SB, SC. DESIGN CHOICE, log entry 57: b of SHFL ("one 32-bit
register, scalar or IMM8", R123) is read as a scalar register or IMM8, so a vector register there is not an instruction. DESIGN CHOICE, log entry 57: of the
fields that R231 calls only a pair, the value pair of SIGNAL takes ZERO, HLANE and TIDX like other sources, and the address pairs
of JMPI, CALLI, MEETSET.r, RECC, LAUNCH and SIGNAL do not. -/
def Instr.uses : Instr → List Use
  | .add w | .sub w | .mul w | .mulh w | .min w | .max w | .and w | .or w | .xor w | .andn w
  | .div w | .rem w => uses3 w (tyRegs w.ty) (tyRegs w.ty) (tyRegs w.ty)
  | .mad w => uses4 w (tyRegs w.ty) (tyRegs w.ty) (tyRegs w.ty) (tyRegs w.ty)
  | .madw w => uses4 w 2 1 1 2
  | .addc w | .subb w => uses3f w (tyRegs w.ty) (tyRegs w.ty) (tyRegs w.ty)
  | .neg w | .abs w | .not w | .brev w => uses2 w (tyRegs w.ty) (tyRegs w.ty)
  | .shl w | .shr w | .sar w | .rotl w | .bfx w => uses3 w (tyRegs w.ty) (tyRegs w.ty) 1
  | .fshf w => uses4 w (tyRegs w.ty) (tyRegs w.ty) 1 (tyRegs w.ty)
  | .popc w | .clz w | .ctz w => uses2 w 1 (tyRegs w.ty)
  | .bfi w | .sel w => uses4 w (tyRegs w.ty) (tyRegs w.ty) (tyRegs w.ty) 1
  | .prmt w => uses4 w 1 1 1 1
  | .lea w => uses3 w 2 2 1
  | .cmp w | .fcmp w => uses3f w 1 (tyRegs w.ty) (tyRegs w.ty)
  | .fadd w | .fsub w | .fmul w | .fmin w | .fmax w | .fdiv w =>
      uses3 w (tyRegs w.ty) (tyRegs w.ty) (tyRegs w.ty)
  | .ffma w => uses4 w (tyRegs w.ty) (tyRegs w.ty) (tyRegs w.ty) (tyRegs w.ty)
  | .fclass w => uses2 w 1 (tyRegs w.ty)
  | .fscale w => uses3 w (tyRegs w.ty) (tyRegs w.ty) 1
  | .frnd w | .frcp w | .frsq w | .fsqrt w | .fexp2 w | .flog2 w | .fsin w | .fcos w | .ftanh w =>
      uses2 w (tyRegs w.ty) (tyRegs w.ty)
  | .fdot2 w => uses4 w 1 1 1 1
  | .cvt w => [wr .dst w.dst (tyRegs w.ty), rd .src w.sa (tyRegs w.sty), un w.sb]
  | .pack w => uses3 w 1 1 1
  | .unpk w => uses2 w 2 1
  | .qenc w => uses2 w 1 (tyRegs w.ty)
  | .qdec w => uses2 w (tyRegs w.ty) 1
  | .mov w => uses2 w (tyRegs w.ty) (tyRegs w.ty)
  | .movi w => [wr .dst w.dst 1]
  | .movh w => [wr .dst w.dst 2]
  | .rds w => [wr .dst w.dst (tyRegs w.ty), un w.sa, un w.sb]
  | .wrs w => [un w.dst, rd .scalZ w.sa (tyRegs w.ty), un w.sb]
  | .shfl w => [wr .dst w.dst (tyRegs w.ty), rd .src w.sa (tyRegs w.ty), rd .scalImm w.sb 1] ++ scFree w
  | .vote w => [wr .scalZ w.dst 1, un w.sa, un w.sb]
  | .redux w => [wr .dst w.dst (tyRegs w.ty), rd .src w.sa (tyRegs w.ty), un w.sb]
  | .matchLanes w => [wr .dst w.dst 1, rd .src w.sa (tyRegs w.ty), un w.sb, un w.sc]
  | .v2s w => [wr .scalZ w.dst (tyRegs w.ty), rd .src w.sa (tyRegs w.ty), rd .scalZImm w.sb 1] ++ scFree w
  | .plop _ => []
  | .pmovGet w => [wr .dst w.dst 1, un w.sa, un w.sb, un w.sc]
  | .pmovSet w => [un w.dst, rd .src w.sa 1, un w.sb]
  | .ld w => [wr .dst w.dst (memRegs w), rd .vs w.sa 2]
  | .st w => [rd .src w.dst (memRegs w), rd .vs w.sa 2]
  | .ldnr w => [wr .vecZ w.dst (memRegs w), rd .vs w.sa 2]
  | .lda w => [wr .dst w.dst (widRegs w.wid), rd .vs w.sa 2, un w.sb]
  | .stl w => [rd .src w.dst (widRegs w.wid), rd .vs w.sa 2, un w.sb]
  | .lds w => [wr .dst w.dst (widRegs w.wid), rd .vs w.sa 1, un w.sb]
  | .sts w => [rd .src w.dst (widRegs w.wid), rd .vs w.sa 1, un w.sb]
  | .ldt w => [wr .vecZ w.dst (widRegs w.wid), rd .vec w.sa 1, un w.sb]
  | .stt w => [rd .src w.dst (widRegs w.wid), rd .vec w.sa 1, un w.sb]
  | .qst w => [rd .src w.dst (memRegs w), rd .vs w.sa 2]
  | .atom w => [wr .vecZ w.dst (widRegs w.wid), rd .vs w.sa 2, rd .src w.sb (atomRegs w)]
  | .red w => [un w.dst, rd .vs w.sa 2, rd .src w.sb (atomRegs w)]
  | .atoms w => [wr .vecZ w.dst (widRegs w.wid), rd .vs w.sa 1, rd .src w.sb (atomRegs w)]
  | .fenceAcq w | .fenceRel w | .fenceFull w => usesM0 w
  | .pref w | .pgreq w => [un w.dst, rd .vs w.sa 2, un w.sb]
  | .shape w => [un w.dst, rd .scal w.sa 2, un w.sb]
  | .swinit w | .swwait w => [rd .src w.dst 1, rd .vs w.sa 1, un w.sb]
  | .seal w => [wr .vecZ w.dst 1, un w.sa, un w.sb, un w.sc]
  | .waitb w => [un w.dst, rd .vs w.sa 1, un w.sb, un w.sc]
  | .jmpi w | .calli w => [un w.dst, rd .vs w.sa 2, un w.sb, un w.sc]
  | .meetset w => [un w.dst]
  | .meetsetR w => [un w.dst, rd .vs w.sa 2, un w.sb, un w.sc]
  | .meetsetClr w => usesA0 w
  | .barArrive w | .sbarArrive w => [wr .vecZ w.dst 1, un w.sa, un w.sb]
  | .barWait w | .sbarWait w => [un w.dst, rd .vs w.sa 1, un w.sb]
  | .barSync w | .sbarSync w => [un w.dst, un w.sa, un w.sb]
  | .watch w => [un w.dst, rd .vs w.sa 2, un w.sb]
  | .watchClr w => usesM0 w
  | .sleep w => [un w.dst, rd .vs w.sa 1, un w.sb, un w.sc]
  | .cbr w => [un w.dst, un w.sa, un w.sb]
  | .cbsync w | .cbsyncAbort w => usesA0 w
  | .gres w => [un w.dst, rd .scalZ w.sa 1, un w.sb]
  | .reca w => [wr .vec w.dst 2, rd .vs w.sa 1, rd .vsImm w.sb 1] ++ scFree w
  | .recc w => [un w.dst, rd .vs w.sa 2, un w.sb, un w.sc]
  | .recf w => usesA0 w
  | .launch w => [wr .vecZ w.dst 1, rd .vs w.sa 2, rd .vsImm w.sb 1] ++ scFree w
  | .signal w => [un w.dst, rd .vs w.sa 2, rd .src w.sb 2]
  | .trap w => [un w.dst, un w.sa, un w.sb]
  | .alloc w | .free w | .acz w => usesX0 w
  | .mma w => [un w.dst, rd .record w.sa 8, un w.sb]
  | .acrd w => [wr .vec w.dst (if w.w64 then 2 else 1), rd .vs w.sa 1, un w.sb]
  | .acwr w => [un w.dst, rd .vs w.sa 1, rd .vsz w.sb (if w.w64 then 2 else 1)]
  | .acld w => [un w.dst, rd .scal w.sa 2, un w.sb]
  | .acst w => [un w.dst, rd .scal w.sa 2, rd .scal w.sb 1]
  | .cpy w => [rd .vs w.dst 2, rd .vs w.sa 2, rd .src w.sb 1, swUse w.sw w.swreg]
  | .cpyg w | .cpys w => [rd .vs w.dst 2, rd .vs w.sa 2, rd .vs w.sb 4, swUse w.sw w.swreg]
  | .cpyt w => [rd .scal w.dst 1, rd .scal w.sa 1, un w.sb, swUse w.tsw w.tswreg]
  | .walk w => [un w.dst, rd .vs w.sa 2, un w.sb]
  | .crdc w | .calr w | .crsc w | .calg w | .cbcs w => [un w.dst, rd .record w.sa 8, un w.sb]
  | .cbar w => usesX0 w
  | .eretDone w | .eretRetry w => usesS0 w
  | .rdcsr w => [wr .vs w.dst (if w.w64 then 2 else 1),
      (if w.idx = 0x20 ∨ w.idx = 0x21 then rd .vs w.sa 1 else un w.sa), un w.sb]
  | .wrcsr w => [un w.dst, rd .scalZ w.sa (if w.w64 then 2 else 1), un w.sb]
  | .tlbinvPage w | .tlbinvGpage w | .tlbinvIpa w => [un w.dst, rd .scal w.sa 2, un w.sb]
  | .tlbinvPasid w | .tlbinvAll w => usesS0 w
  | .ctxswOut w | .ctxswIn w => [wr .scal w.dst 1, un w.sa, un w.sb]
  | .claim w => [wr .scal w.dst 2, rd .scal w.sa 2, rd .scal w.sb 1]
  | .claimNode w => [wr .scal w.dst 2, un w.sa, un w.sb]
  | .mcack w | .halt w => usesS0 w
  | _ => []

/-! ### Special registers (R24) and CSRs (R325) -/

/-- The special register indices of R24. -/
def srDefined (i : Nat) : Bool :=
  i ≤ 0x08 || (0x10 ≤ i && i ≤ 0x12) || (0x18 ≤ i && i ≤ 0x1C) || (0x20 ≤ i && i ≤ 0x23) || (0x28 ≤ i && i ≤ 0x2A)
/-- The writable ones. -/
def srWritable (i : Nat) : Bool :=
  i == 0x10 || i == 0x11 || i == 0x12 || i == 0x18 || i == 0x19 || i == 0x1B
/-- The ones of thread scope. -/
def srThread (i : Nat) : Bool := i == 0x02 || i == 0x22 || i == 0x28
/-- The 64-bit ones. -/
def srWide (i : Nat) : Bool := i == 0x07 || i == 0x1B || i == 0x21 || i == 0x23 || i == 0x29 || i == 0x2A

/-- The CSR indices of R325. -/
def csrDefined (i : Nat) : Bool :=
  i ≤ 0x002 || (0x010 ≤ i && i ≤ 0x01B) || i == 0x020 || i == 0x021 || (0x030 ≤ i && i ≤ 0x032) ||
  (0x040 ≤ i && i ≤ 0x042) || (0x050 ≤ i && i ≤ 0x057) || (0x060 ≤ i && i ≤ 0x063) || (0x100 ≤ i && i ≤ 0x10F)
/-- The CSRs that WRCSR may write, LCID among them (R320). -/
def csrWritable (i : Nat) : Bool :=
  i ≤ 0x002 || (0x016 ≤ i && i ≤ 0x019) || (0x030 ≤ i && i ≤ 0x032) || i == 0x042 || (0x060 ≤ i && i ≤ 0x063)
/-- The 32-bit CSRs. -/
def csrNarrow (i : Nat) : Bool :=
  i == 0x010 || i == 0x012 || i == 0x01A || i == 0x031 || i == 0x032 || (0x040 ≤ i && i ≤ 0x042)
/-- The halves of 128-bit CSRs: EMASK, EKILL and ESKIP (R320). -/
def csrHalf (i : Nat) : Bool := 0x014 ≤ i && i ≤ 0x019

/-! ### TYPE, WID, CTL and the other fields of each opcode -/

/-- First failing test of a list. -/
def firstCase : List (Bool × NotInstr) → Option NotInstr
  | [] => none
  | (ok, c) :: r => if ok then firstCase r else some c

/-- SAT where the opcode accepts it: CTL is 0 or 1 (R45, R104). -/
def ctlSat (w : FA) : Bool := w.ctl.toNat ≤ 1
/-- CTL 0. -/
def ctl0 (w : FA) : Bool := w.ctl = 0
/-- RM and FTZ: CTL[4:3] is 0 (R112). -/
def ctlRm (w : FA) : Bool := w.ctl.toNat < 8
/-- FTZ alone: RM is 0 (R112). -/
def ctlFtz (w : FA) : Bool := w.ctl.toNat = 0 || w.ctl.toNat = 4

/-- CTL of CVT (R116). -/
def cvtCtl (w : FA) : Bool :=
  let c := w.ctl.toNat
  if tyFloat w.ty then (if tyFloat w.sty then decide (c < 8) else decide (c < 4))
  else if tyFloat w.sty then decide (c % 2 = 1 ∧ c < 8) else decide (c ≤ 1)

/-- The fields of form M with an explicit or typed width: unused SB bits and TYPE (R177). -/
def mSb (w : FM) (pd : Bool) : Bool :=
  (w.sb.getLsbD 7 == false) && (pd || (w.sb.extractLsb' 4 3 == 0)) && (w.wid == 5 || w.mty == 0)
/-- SX: only with WID 0 or 1 (R177). -/
def mSx (w : FM) : Bool := w.ctl = 0 || (w.ctl = 1 && w.wid.toNat ≤ 1)
/-- BANK and NLOG of ALLOC, FREE, ACZ, ACRD, ACWR and ACLD (R130). -/
def bankRange (w : FX) : Bool := decide (w.nlog ≤ 4) && decide (w.bank % 2 ^ w.nlog = 0)
/-- BANK and NLOG of MMA and ACST (R130). -/
def bankTile (w : FX) : Bool := decide (w.nlog = 2) && decide (w.bank % 4 = 0)
/-- MOD[12:11] and MOD[3] of an MTX word (R130). -/
def mtxRsv (w : FX) : Bool := (w.mod.extractLsb' 11 2 == 0) && !w.mod.getLsbD 3
/-- Guard fields of a command that takes no guard slot (R42). -/
def noGuard (w : FX) : Bool := w.gd == 0 && w.gs == 0
/-- Guard fields of a command that may be guarded (R42). -/
def mayGuard (w : FX) : Bool := w.gd == 1 || w.gs == 0

/-- The tests of a collective's fields (R342). -/
def collCase (w : FX) (rop : Bool) : Option NotInstr :=
  firstCase [(noGuard w, .guardSlot), (w.mod.extractLsb' 0 7 == 0, .field),
    (decide (w.etype.toNat ≤ 6), .value), (if rop then w.rop != 3 else w.rop == 0, .value)]

/-- A form A opcode without fields of its own: its types and its CTL. -/
def aCase (ty ctl : Bool) : Option NotInstr := firstCase [(ty, .value), (ctl, .value)]

/-- The tests of TYPE, WID, CTL and the opcode's own fields, whatever the operands hold. DESIGN CHOICE, log entry 57: R320's
"128-bit half named as 32 bits" is a half of EKILL or ESKIP that WRCSR names with W64 = 0; RDCSR reads a half with W64 = 0. -/
def Instr.fieldCase : Instr → Option NotInstr
  | .nop _ w => firstCase [(w.rest == 0, .field)]
  | .icfence w | .wait w | .yield w => firstCase [(w.rest == 0, .field)]
  | .brk _ _ => none
  | .add w | .sub w | .mul w | .mad w | .neg w => aCase (tyInt w.ty) (ctlSat w)
  | .abs w => aCase (tySigned w.ty) (ctlSat w)
  | .mulh w | .bfx w | .div w | .rem w => aCase (tyWide w.ty) (ctl0 w)
  | .madw w => aCase (w.ty = i32 || w.ty = n32) (ctl0 w)
  | .addc w | .subb w => firstCase [(w.ty = n32 || w.ty = n64, .value), (ctl0 w, .value),
      (!w.sc.getLsbD 7 && (w.sc.getLsbD 3 || w.sc20 == 0), .field)]
  | .min w | .max w => aCase (tyInt w.ty) (ctl0 w)
  | .and w | .or w | .xor w | .andn w | .not w | .sel w => aCase (tyBit w.ty) (ctl0 w)
  | .shl w | .shr w | .rotl w | .popc w | .clz w | .ctz w => aCase (tyNB w.ty) (ctl0 w)
  | .sar w => aCase (w.ty = i32 || w.ty = i64) (ctl0 w)
  | .fshf w | .brev w | .bfi w | .mov w => aCase (tyB w.ty) (ctl0 w)
  | .prmt w => aCase (w.ty = b32) (ctl0 w)
  | .lea w => aCase (w.ty = i32 || w.ty = n32) (!w.ctl.getLsbD 0)
  | .cmp w => firstCase [(tyInt w.ty, .value), (ctl0 w, .value), (w.sc.extractLsb' 6 2 == 0, .field),
      (decide (w.sc53.toNat ≤ 5), .value)]
  | .fadd w | .fsub w | .fmul w | .ffma w | .fscale w | .frnd w | .frcp w | .frsq w | .fsqrt w | .fdiv w =>
      aCase (tyFloat w.ty) (ctlRm w)
  | .fmin w | .fmax w | .fclass w => aCase (tyFloat w.ty) (ctlFtz w)
  | .fcmp w => firstCase [(tyFloat w.ty, .value), (ctlFtz w, .value), (w.sc.extractLsb' 6 2 == 0, .field)]
  | .fexp2 w | .flog2 w | .fsin w | .fcos w | .ftanh w => aCase (tyFloat w.ty && w.ty != f64) (ctlFtz w)
  | .fdot2 w => aCase (w.ty = f16 || w.ty = bf16) (ctlRm w)
  | .cvt w => firstCase [(tyInt w.ty || tyFloat w.ty, .value), (w.sc.extractLsb' 4 4 == 0, .field),
      (tyInt w.sty || tyFloat w.sty, .value), (cvtCtl w, .value)]
  | .pack w => aCase (w.ty = f16 || w.ty = bf16 || w.ty = i16 || w.ty = n16 || w.ty = b16)
      (if w.ty = f16 || w.ty = bf16 then ctlRm w else if w.ty = b16 then ctl0 w else ctlSat w)
  | .unpk w => aCase (w.ty = f16 || w.ty = bf16 || w.ty = i16 || w.ty = n16 || w.ty = b16)
      (if w.ty = f16 || w.ty = bf16 then ctlFtz w else ctl0 w)
  | .qenc w | .qdec w => aCase (tyFloat w.ty) (w.ctl = 0 || w.ctl = 8)
  | .movi w | .movh w => firstCase [(w.rsv == 0, .field)]
  | .rds w => firstCase [(tyB w.ty, .value), (ctl0 w, .value), (srDefined w.sc.toNat, .value),
      (!(srThread w.sc.toNat && (match opndOf w.dst with | .s _ => true | _ => false)), .operand)]
  | .wrs w => firstCase [(tyB w.ty, .value), (ctl0 w, .value), (srWritable w.sc.toNat, .value)]
  | .shfl w => aCase (tyB w.ty) true
  | .vote w => firstCase [(w.ty = b32, .value), (!w.sc.getLsbD 7, .field), (!w.ctl.getLsbD 4, .value),
      (w.ctl10 == 3 || w.ctl.extractLsb' 2 2 == 0, .value), (w.ctl10 != 3 || w.sc64 == 7, .value)]
  | .redux w => firstCase [(w.sc.extractLsb' 3 5 == 0, .field),
      (if w.sc20.toNat ≤ 2 then tyInt w.ty || tyFloat w.ty else w.sc20.toNat ≤ 5 && tyBit w.ty, .value),
      (if tyFloat w.ty then (if w.sc20 = 0 then ctlRm w else ctlFtz w) else ctl0 w, .value)]
  | .matchLanes w => aCase (tyB w.ty) true
  | .v2s w => aCase (tyB w.ty) (ctl0 w)
  | .plop w => firstCase [(w.ty = 0, .field), (w.dst.toNat < 8 && w.sa.toNat < 8 && w.sb.toNat < 8, .field),
      (w.ctl.toNat < 8, .value)]
  | .pmovGet w => aCase (w.ty = b32) (w.ctl = 0)
  | .pmovSet w => firstCase [(w.ty = b32, .value), (w.ctl = 1, .value), (!w.sc.getLsbD 7, .field)]
  | .ld w => firstCase [(w.wid.toNat ≤ 5, .value), (mSb w false, .field), (w.wid != 5 || w.mty != 0xE, .value),
      (mSx w, .value)]
  | .st w => firstCase [(w.wid.toNat ≤ 5, .value), (mSb w false, .field), (w.wid != 5 || w.mty != 0xE, .value),
      (w.ctl = 0, .value)]
  | .ldnr w => firstCase [(w.wid.toNat ≤ 5, .value), (mSb w true, .field), (w.wid != 5 || w.mty != 0xE, .value),
      (mSx w, .value)]
  | .lda w => firstCase [(w.wid.toNat ≤ 3, .value), (mSx w, .value)]
  | .stl w => firstCase [(w.wid.toNat ≤ 3, .value), (w.ctl = 0, .value)]
  | .lds w => firstCase [(w.wid.toNat ≤ 4, .value), (mSx w, .value)]
  | .sts w => firstCase [(w.wid.toNat ≤ 4, .value), (w.ctl = 0, .value)]
  | .ldt w | .stt w => firstCase [(w.wid.toNat ≤ 3, .value), (w.off == 0, .field), (w.ctl = 0, .value)]
  | .qst w => firstCase [(w.wid = 5, .value), (w.sb.extractLsb' 4 4 == 0, .field), (tyFloat w.mty, .value),
      (w.ctl = 0, .value)]
  | .atom w => firstCase [(w.wid = 2 || w.wid = 3, .value), (w.aop.toNat ≤ 13, .value)]
  | .red w => firstCase [(w.wid = 2 || w.wid = 3, .value),
      (w.aop.toNat ≤ 13 && w.aop != 8 && w.aop != 9, .value), (w.ctl = 0, .value)]
  | .atoms w => firstCase [(w.wid = 2 || w.wid = 3, .value), (w.aop.toNat ≤ 13, .value), (w.ctl = 0, .value)]
  | .fenceAcq w => firstCase [(w.off == 0, .field), (w.wid = 0, .value), (w.ctl = 1, .value)]
  | .fenceRel w => firstCase [(w.off == 0, .field), (w.wid = 0, .value), (w.ctl = 2, .value)]
  | .fenceFull w => firstCase [(w.off == 0, .field), (w.wid = 0, .value), (w.ctl = 3, .value)]
  | .pref w | .pgreq w => firstCase [(w.wid = 0, .value), (w.ctl.toNat ≤ 1, .value)]
  | .shape w | .swinit w | .swwait w => firstCase [(w.wid = 0, .value), (w.ctl = 0, .value)]
  | .seal w | .waitb w | .recc w | .recf w => firstCase [(w.ty = 0, .field), (w.ctl = 0, .field)]
  | .jmpi w | .calli w => aCase (w.ty = b64) (ctl0 w)
  | .meetset w => firstCase [(w.ty = 0, .field), (w.ctl = 0, .value)]
  | .meetsetR w => firstCase [(w.ty = 0, .field), (w.ctl = 1, .value)]
  | .meetsetClr w => firstCase [(w.ty = 0, .field), (w.ctl = 2, .value)]
  | .barArrive w | .sbarArrive w =>
      firstCase [(w.ty = 0, .field), (w.sc.extractLsb' 4 4 == 0, .field), (w.ctl = 1, .value)]
  | .barWait w | .sbarWait w =>
      firstCase [(w.ty = 0, .field), (w.sc.extractLsb' 4 4 == 0, .field), (w.ctl = 2, .value)]
  | .barSync w | .sbarSync w =>
      firstCase [(w.ty = 0, .field), (w.sc.extractLsb' 4 4 == 0, .field), (w.ctl = 3, .value)]
  | .watch w => firstCase [(w.wid = 0, .value), (w.ctl = 0, .value)]
  | .watchClr w => firstCase [(w.wid = 0, .value), (w.ctl = 1, .value), (w.off == 0, .field)]
  | .sleep w | .reca w | .launch w => aCase (w.ty = n32) (ctl0 w)
  | .cbr w => firstCase [(w.ty = 0, .field), (!w.sc.getLsbD 7, .field), (w.sc64 != 7, .value),
      (w.ctl.toNat < 8, .value), (w.c.pidx == 7 && w.c.pneg == 0, .value)]
  | .cbsync w => firstCase [(w.ty = 0, .field), (w.ctl = 0, .value), (w.c.pidx == 7 && w.c.pneg == 0, .value)]
  | .cbsyncAbort w => firstCase [(w.ty = 0, .field), (w.ctl = 1, .value), (w.c.pidx == 7 && w.c.pneg == 0, .value)]
  | .gres w => firstCase [(w.ty = 0, .field), (w.sc.extractLsb' 3 5 == 0, .field), (w.ctl = 0, .field)]
  | .signal w => firstCase [(w.ty = b64, .value), (w.sc.extractLsb' 2 6 == 0, .field), (w.ctl.toNat ≤ 1, .value)]
  | .trap w => firstCase [(w.ty = 0, .field), (w.ctl = 0, .field)]
  | .alloc w | .free w | .acz w | .acld w =>
      firstCase [(noGuard w, .guardSlot), (mtxRsv w, .field), (w.fmt == 0, .field), (bankRange w, .value)]
  | .mma w => firstCase [(mayGuard w, .guardSlot), (mtxRsv w, .field), (1 ≤ w.fmt && w.fmt ≤ 3, .value),
      (bankTile w, .value)]
  | .acrd w | .acwr w =>
      firstCase [(noGuard w, .guardSlot), (mtxRsv w, .field), (w.fmt ≤ 1, .field), (bankRange w, .value)]
  | .acst w => firstCase [(noGuard w, .guardSlot), (mtxRsv w, .field), (w.fmt == 0, .field), (bankTile w, .value)]
  | .cpy w | .cpyg w | .cpys w => firstCase [(mayGuard w, .guardSlot), (w.mod.extractLsb' 0 4 == 0, .field)]
  | .cpyt w => firstCase [(mayGuard w, .guardSlot), (w.mod.extractLsb' 0 3 == 0, .field)]
  | .walk w => firstCase [(mayGuard w, .guardSlot), (w.mod == 0, .field)]
  | .crdc w | .calr w | .crsc w => collCase w true
  | .calg w | .cbcs w => collCase w false
  | .cbar w => firstCase [(noGuard w, .guardSlot), (w.mod == 0, .field)]
  | .eretDone w => firstCase [(w.c.nas == 0, .selector), (w.idx == 0, .field), (w.low == 0, .value)]
  | .eretRetry w => firstCase [(w.c.nas == 0, .selector), (w.idx == 0, .field), (w.low == 1, .value)]
  | .rdcsr w => firstCase [(w.c.nas == 0, .selector), (csrDefined w.idx.toNat, .value), (w.low.toNat ≤ 1, .field)]
  | .wrcsr w => firstCase [(w.c.nas == 0, .selector), (csrWritable w.idx.toNat, .value), (w.low.toNat ≤ 1, .field),
      (!(w.w64 && csrNarrow w.idx.toNat), .value), (w.w64 || !csrHalf w.idx.toNat, .value)]
  | .tlbinvPage w => firstCase [(w.c.nas == 0, .selector), (w.idx == 0, .field), (w.low == 0, .value)]
  | .tlbinvPasid w => firstCase [(w.c.nas == 0, .selector), (w.idx == 0, .field), (w.low == 1, .value)]
  | .tlbinvGpage w => firstCase [(w.c.nas == 0, .selector), (w.idx == 0, .field), (w.low == 2, .value)]
  | .tlbinvIpa w => firstCase [(w.c.nas == 0, .selector), (w.idx == 0, .field), (w.low == 3, .value)]
  | .tlbinvAll w => firstCase [(w.c.nas == 0, .selector), (w.idx == 0, .field), (w.low == 4, .value)]
  | .ctxswOut w => firstCase [(w.c.nas == 0, .selector), (decide (w.idx.toNat < 64), .field), (w.low == 0, .value)]
  | .ctxswIn w => firstCase [(w.c.nas == 0, .selector), (decide (w.idx.toNat < 64), .field), (w.low == 1, .value)]
  | .claim w => firstCase [(w.c.nas == 0, .selector), (w.idx == 0, .field), (w.low == 0, .value)]
  | .claimNode w => firstCase [(w.c.nas == 0, .selector), (w.idx == 0, .field), (w.low == 1, .value)]
  | .mcack w => firstCase [(w.c.nas == 0, .selector), (decide (w.idx.toNat < 4), .field), (w.low == 0, .field)]
  | .halt w => firstCase [(w.c.nas == 0, .selector), (decide (w.idx.toNat < 256), .field), (w.low == 0, .field)]
  | _ => none

/-- The fields above the operands of a word; none for a step of the machine itself. -/
def Instr.common : Instr → Option Common
  | .nop _ w | .icfence w | .wait w | .yield w => some w.c
  | .add w | .sub w | .mul w | .mulh w | .mad w | .madw w | .addc w | .subb w | .neg w | .abs w | .min w | .max w
  | .and w | .or w | .xor w | .andn w | .not w | .shl w | .shr w | .sar w | .rotl w | .fshf w | .popc w | .clz w
  | .ctz w | .brev w | .bfx w | .bfi w | .prmt w | .lea w | .cmp w | .sel w | .div w | .rem w | .fadd w | .fsub w
  | .fmul w | .ffma w | .fmin w | .fmax w | .fcmp w | .fclass w | .fscale w | .frnd w | .frcp w | .frsq w | .fsqrt w
  | .fdiv w | .fexp2 w | .flog2 w | .fsin w | .fcos w | .ftanh w | .fdot2 w | .cvt w | .pack w | .unpk w | .qenc w
  | .qdec w | .mov w | .rds w | .wrs w | .shfl w | .vote w | .redux w | .matchLanes w | .v2s w | .plop w
  | .pmovGet w | .pmovSet w | .seal w | .waitb w | .jmpi w | .calli w | .meetset w | .meetsetR w | .meetsetClr w
  | .barArrive w | .barWait w | .barSync w | .sbarArrive w | .sbarWait w | .sbarSync w | .sleep w | .cbr w
  | .cbsync w | .cbsyncAbort w | .gres w | .reca w | .recc w | .recf w | .launch w | .signal w | .trap w => some w.c
  | .movi w | .movh w => some w.c
  | .ld w | .st w | .ldnr w | .lda w | .stl w | .lds w | .sts w | .ldt w | .stt w | .qst w | .atom w | .red w
  | .atoms w | .fenceAcq w | .fenceRel w | .fenceFull w | .pref w | .pgreq w | .shape w | .swinit w | .swwait w
  | .watch w | .watchClr w => some w.c
  | .alloc w | .free w | .mma w | .acz w | .acrd w | .acwr w | .acld w | .acst w | .cpy w | .cpyg w | .cpys w
  | .cpyt w | .walk w | .crdc w | .calr w | .crsc w | .calg w | .cbcs w | .cbar w => some w.c
  | .eretDone w | .eretRetry w | .rdcsr w | .wrcsr w | .tlbinvPage w | .tlbinvPasid w | .tlbinvGpage w
  | .tlbinvIpa w | .tlbinvAll w | .ctxswOut w | .ctxswIn w | .claim w | .claimNode w | .mcack w | .halt w => some w.c
  | _ => none

/-- The long-latency instructions of R50. -/
def Instr.long : Instr → Bool
  | .ld _ | .ldnr _ | .lda _ | .lds _ | .ldt _ | .atom _ | .atoms _ | .frcp _ | .frsq _ | .fsqrt _ | .fexp2 _
  | .flog2 _ | .fsin _ | .fcos _ | .ftanh _ | .v2s _ | .redux _ | .matchLanes _ | .acrd _ => true
  | _ => false

/-- Whether the word is a NOP, the only word that may carry SKIP (R48). -/
def Instr.isNop : Instr → Bool
  | .nop _ _ => true
  | _ => false

/-- LOOK, TS and TOK against R48, R50 and R52, as far as the word alone decides. -/
def lookCase (i : Instr) (c : Common) : Option NotInstr :=
  if c.nas = 5 then
    firstCase [(i.isNop && c.look != 0, .skip), (c.ts == 0 && c.tok == 0, .lookahead)]
  else if i.long then firstCase [(c.ts == 1 || c.tok == 0, .lookahead)]
  else firstCase [(c.look == 0 && c.ts == 0 && c.tok == 0, .lookahead)]

/-- UNI with a guard that is not unconditional; JMPI and CALLI with a selector (R46, R47). -/
def selectorCase (i : Instr) (c : Common) : Option NotInstr :=
  if c.nas = 6 ∧ ¬ (c.pidx = 7 ∧ c.pneg = 0) then some .guardedUni
  else match i with
    | .jmpi _ | .calli _ => if c.nas = 0 then none else some .indirect
    | .cbr _ => if c.nas = 0 ∨ c.nas = 2 then none else some .value
    | _ => none

/-- R41: a scalar destination takes only scalars, ZERO and IMM8 as sources, but for V2S, REDUX, VOTE and RDS. -/
def scalarCase (i : Instr) : Option NotInstr :=
  match i with
  | .v2s _ | .redux _ | .vote _ | .rds _ => none
  | _ =>
    let us := i.uses
    let scalarDst := us.any fun u => u.write && (match opndOf u.code with | .s _ => true | _ => false)
    let laneSrc := us.any fun u => !u.write && u.kind != .unused &&
      (match opndOf u.code with | .v _ | .hlane | .tidx | .ew _ => true | _ => false)
    if scalarDst && laneSrc then some .operand else none

/-- First failing use. -/
def usesCase : List Use → Option NotInstr
  | [] => none
  | u :: r => match u.check with
    | some c => some c
    | none => usesCase r

/-- The test of R56 as far as the word alone decides it: `none` for an instruction. A BRK is never tested (R54). -/
def Instr.staticCase (i : Instr) : Option NotInstr :=
  match i.common with
  | none => none
  | some c =>
    match i.fieldCase with
    | some k => some k
    | none => match usesCase i.uses with
      | some k => some k
      | none => match scalarCase i with
        | some k => some k
        | none => match lookCase i c with
          | some k => some k
          | none => selectorCase i c

/-! ### Predicates named (R41, R51) -/

/-- Predicates that an instruction reads by name, besides its guard, in the order of R303. -/
def Instr.predSources : Instr → List (BitVec 3)
  | .addc w | .subb w => if w.sc.getLsbD 3 then [w.sc20] else []
  | .vote w | .cbr w => [w.sc20]
  | .plop w => [w.sa.extractLsb' 0 3, w.sb.extractLsb' 0 3, w.ctl.extractLsb' 0 3]
  | .pmovGet _ => [0, 1, 2, 3, 4, 5, 6]
  | _ => []

/-- Predicates that an instruction writes. -/
def Instr.predDests : Instr → List (BitVec 3)
  | .addc w | .subb w => [w.sc64]
  | .cmp w | .fcmp w => [w.sc20]
  | .vote w | .cbr w => [w.sc64]
  | .shfl w | .matchLanes w => [w.ctl42]
  | .ldnr w => [w.pd]
  | .plop w => [w.dst.extractLsb' 0 3]
  | .pmovSet w => ([0, 1, 2, 3, 4, 5, 6] : List (BitVec 3)).filter fun k => w.sc.getLsbD k.toNat
  | _ => []

/-- The feature bit of R30 that an instruction needs: 0 INTDIV, 1 FDIV, 2 AGREE, 3 WALK, 4 MTXQ4, 5 MTXB16,
6 STAGE, 7 VF64. -/
def Instr.feature : Instr → Option Nat
  | .div _ | .rem _ => some 0
  | .fdiv _ => some 1
  | .cbr _ | .cbsync _ | .cbsyncAbort _ => some 2
  | .walk _ => some 3
  | .mma w => if w.fmt = 2 then some 4 else if w.fmt = 3 then some 5 else none
  | .reca _ | .recc _ | .recf _ | .launch _ => some 6
  | .fadd w | .fsub w | .fmul w | .ffma w | .fmin w | .fmax w | .fcmp w | .fclass w | .fscale w | .frnd w | .frcp w
  | .frsq w | .fsqrt w | .qenc w | .qdec w | .redux w => if w.ty = f64 then some 7 else none
  | .cvt w => if w.ty = f64 ∨ w.sty = f64 then some 7 else none
  | .atom w | .red w | .atoms w => if w.wid = 3 ∧ 10 ≤ w.aop.toNat ∧ w.aop.toNat ≤ 12 then some 7 else none
  | _ => none

end Sys2Proof
end

