-- ==== Sys2Proof/Machine/Float.lean ====
section
/-! DEFINITION. Floating point (R77 to R81, R112 to R118): formats, exact values, one rounding, and the faithfully rounded
functions. A finite value is an integer times a power of two; a value that is not one (a quotient, a root) is carried
with a lowest bit that says it is inexact, more than two places below the rounded result. -/

namespace Sys2Proof.Machine

open Sys2Proof

/-- A binary format: exponent bits and fraction bits (R77). -/
structure Fm where
  eb : Nat
  mb : Nat
deriving DecidableEq, Repr

abbrev fm32 : Fm := { eb := 8, mb := 23 }
abbrev fm16 : Fm := { eb := 5, mb := 10 }
abbrev fmB16 : Fm := { eb := 8, mb := 7 }
abbrev fm64 : Fm := { eb := 11, mb := 52 }
/-- The format of a float TYPE. -/
def fmOf (ty : BitVec 4) : Fm := if ty = f16 then fm16 else if ty = bf16 then fmB16 else if ty = f64 then fm64 else fm32

/-- Bits of a value. -/
def Fm.width (f : Fm) : Nat := 1 + f.eb + f.mb
/-- Sign bit. -/
def Fm.signBit (f : Fm) : Nat := 2 ^ (f.eb + f.mb)
/-- The largest exponent field. -/
def Fm.top (f : Fm) : Nat := 2 ^ f.eb - 1
/-- +∞. -/
def Fm.inf (f : Fm) : Nat := f.top * 2 ^ f.mb
/-- The canonical quiet NaN (R77). -/
def Fm.nan (f : Fm) : Nat := f.inf + 2 ^ (f.mb - 1)
/-- Exponent of the lowest bit of a subnormal. -/
def Fm.qmin (f : Fm) : Int := 2 - 2 ^ (f.eb - 1) - f.mb

/-- A value that a format can hold. -/
inductive FVal where
  | nan
  | inf (neg : Bool)
  | fin (neg : Bool) (m : Nat) (e : Int)
deriving DecidableEq, Repr

/-- Exponent field and fraction field. -/
def Fm.fields (f : Fm) (v : Nat) : Bool × Nat × Nat :=
  (v / f.signBit % 2 == 1, v / 2 ^ f.mb % 2 ^ f.eb, v % 2 ^ f.mb)

/-- Read a value; under FTZ a subnormal is a zero of its sign (R78). -/
def Fm.read (f : Fm) (ftz : Bool) (v : Nat) : FVal :=
  let (s, e, m) := f.fields v
  if e = f.top then (if m = 0 then .inf s else .nan)
  else if e = 0 then .fin s (if ftz then 0 else m) f.qmin
  else .fin s (2 ^ f.mb + m) (f.qmin + (e - 1))

/-- Rounding modes: 0 RNE, 1 RTZ, 2 RDN, 3 RUP (R45). -/
abbrev Rm := Nat

/-- Whether a truncated magnitude goes up: its last bit, the part dropped and the weight of one unit. -/
def roundUp (rm : Rm) (neg : Bool) (odd : Bool) (rest unit : Nat) : Bool :=
  match rm with
  | 0 => unit < 2 * rest || (2 * rest == unit && odd)
  | 1 => false
  | 2 => neg && rest != 0
  | _ => !neg && rest != 0

/-- Drop sh low bits of a magnitude under a rounding mode. -/
def roundShift (rm : Rm) (neg : Bool) (a sh : Nat) : Nat :=
  let n := a / 2 ^ sh
  let r := a % 2 ^ sh
  n + (if roundUp rm neg (n % 2 == 1) r (2 ^ sh) then 1 else 0)

/-- A zero with its sign. -/
def Fm.zero (f : Fm) (neg : Bool) : Nat := if neg then f.signBit else 0

/-- Round m × 2^e, sign apart, to the format (R78). -/
def Fm.round (f : Fm) (rm : Rm) (ftz : Bool) (neg : Bool) (a : Nat) (e : Int) : Nat :=
  if a = 0 then f.zero neg
  else
    let q := max (e + (Nat.log2 a + 1) - (f.mb + 1)) f.qmin
    let n := if q ≤ e then a * 2 ^ (e - q).toNat else roundShift rm neg a (q - e).toNat
    let (n, q) := if n = 2 ^ (f.mb + 1) then (2 ^ f.mb, q + 1) else (n, q)
    let x := if n < 2 ^ f.mb then 0 else (q - f.qmin).toNat + 1
    if f.top ≤ x then
      let big := rm == 0 || (rm == 2 && neg) || (rm == 3 && !neg)
      f.zero neg + (if big then f.inf else f.inf - 1)
    else if x = 0 then (if ftz ∨ n = 0 then f.zero neg else f.zero neg + n)
    else f.zero neg + x * 2 ^ f.mb + (n - 2 ^ f.mb)

/-- Round a signed dyadic; an exact zero takes the sign given. -/
def Fm.roundI (f : Fm) (rm : Rm) (ftz : Bool) (zneg : Bool) (m : Int) (e : Int) : Nat :=
  if m = 0 then f.zero zneg else f.round rm ftz (m < 0) m.natAbs e

/-- The sign of an exact zero sum of terms that are not all zeros of one sign (IEEE 754). -/
def zeroSum (rm : Rm) : Bool := rm == 2

/-- Integer value of a finite value at exponent q, q at most its own. -/
def alignTo (neg : Bool) (m : Nat) (e q : Int) : Int :=
  let a : Int := (m * 2 ^ (e - q).toNat : Nat)
  if neg then -a else a

/-- Exact sum of finite terms, rounded once. Of two terms an exact zero has the sign that IEEE 754 gives it. DESIGN CHOICE, log
entry 57: of three (FDOT2, R115) it is -0 where every term is -0, +0 where every term is +0, else -0 under RDN alone. -/
def Fm.sum (f : Fm) (rm : Rm) (ftz : Bool) (ts : List (Bool × Nat × Int)) : Nat :=
  let q := ts.foldl (fun q t => min q t.2.2) (match ts with | [] => 0 | t :: _ => t.2.2)
  let m := ts.foldl (fun (a : Int) t => a + alignTo t.1 t.2.1 t.2.2 q) 0
  let allNeg := ts.all fun t => t.1 && t.2.1 == 0
  let allPos := ts.all fun t => !t.1 && t.2.1 == 0
  f.roundI rm ftz (if allNeg then true else if allPos then false else zeroSum rm) m q

/-- Sum of values: NaN and infinities first (IEEE 754, R79). -/
def Fm.addAll (f : Fm) (rm : Rm) (ftz : Bool) (vs : List FVal) : Nat :=
  let pos := vs.any (· == .inf false)
  let neg := vs.any (· == .inf true)
  if vs.any (· == .nan) || (pos && neg) then f.nan
  else if pos then f.inf
  else if neg then f.signBit + f.inf
  else f.sum rm ftz (vs.filterMap fun v => match v with | .fin s m e => some (s, m, e) | _ => none)

/-- Exact product. -/
def FVal.mul : FVal → FVal → FVal
  | .nan, _ | _, .nan => .nan
  | .inf s, .inf t => .inf (s != t)
  | .inf s, .fin t m _ | .fin t m _, .inf s => if m = 0 then .nan else .inf (s != t)
  | .fin s m e, .fin t n g => .fin (s != t) (m * n) (e + g)

/-- Change the sign. -/
def FVal.neg : FVal → FVal
  | .nan => .nan
  | .inf s => .inf (!s)
  | .fin s m e => .fin (!s) m e

/-- Round a value to the format. -/
def Fm.put (f : Fm) (rm : Rm) (ftz : Bool) : FVal → Nat
  | .nan => f.nan
  | .inf s => f.zero s + f.inf
  | .fin s m e => f.round rm ftz s m e

/-- FADD (R112). -/
def Fm.add (f : Fm) (rm : Rm) (ftz : Bool) (a b : Nat) : Nat := f.addAll rm ftz [f.read ftz a, f.read ftz b]
/-- FSUB. -/
def Fm.sub (f : Fm) (rm : Rm) (ftz : Bool) (a b : Nat) : Nat := f.addAll rm ftz [f.read ftz a, (f.read ftz b).neg]
/-- FMUL. -/
def Fm.mul (f : Fm) (rm : Rm) (ftz : Bool) (a b : Nat) : Nat := f.put rm ftz ((f.read ftz a).mul (f.read ftz b))
/-- FFMA: one rounding. -/
def Fm.fma (f : Fm) (rm : Rm) (ftz : Bool) (a b c : Nat) : Nat :=
  f.addAll rm ftz [(f.read ftz a).mul (f.read ftz b), f.read ftz c]
/-- FSCALE: a × 2^b. -/
def Fm.scale (f : Fm) (rm : Rm) (ftz : Bool) (a : Nat) (b : Int) : Nat :=
  match f.read ftz a with
  | .fin s m e => f.round rm ftz s m (e + b)
  | v => f.put rm ftz v

/-- Round a finite magnitude to an integer. -/
def integral (rm : Rm) (neg : Bool) (m : Nat) (e : Int) : Nat :=
  if 0 ≤ e then m * 2 ^ e.toNat else roundShift rm neg m (-e).toNat

/-- FRND: the sign of a zero result is kept (R112). -/
def Fm.rnd (f : Fm) (rm : Rm) (ftz : Bool) (a : Nat) : Nat :=
  match f.read ftz a with
  | .fin s m e => f.round rm ftz s (integral rm s m e) 0
  | v => f.put rm ftz v

/-- A quotient with its inexact bit: (n / d) × 2^0 as integer × 2^-k. -/
def quot (n d k : Nat) : Nat :=
  let x := n * 2 ^ k
  2 * (x / d) + (if x % d = 0 then 0 else 1)

/-- FRCP. -/
def Fm.rcp (f : Fm) (rm : Rm) (ftz : Bool) (a : Nat) : Nat :=
  match f.read ftz a with
  | .nan => f.nan
  | .inf s => f.zero s
  | .fin s m e => if m = 0 then f.zero s + f.inf else f.round rm ftz s (quot 1 m 192) (-e - 193)

/-- Integer square root by digits. -/
def isqrtGo (n : Nat) : Nat → Nat → Nat
  | 0, r => r
  | k + 1, r => let t := r + 2 ^ k; isqrtGo n k (if t * t ≤ n then t else r)
/-- Integer square root. -/
def isqrt (n : Nat) : Nat := isqrtGo n (Nat.log2 n / 2 + 1) 0

/-- FSQRT. -/
def Fm.sqrt (f : Fm) (rm : Rm) (ftz : Bool) (a : Nat) : Nat :=
  match f.read ftz a with
  | .nan => f.nan
  | .inf s => if s then f.nan else f.inf
  | .fin s m e =>
    if m = 0 then f.zero s else if s then f.nan
    else
      let (m, e) := if e % 2 = 0 then (m, e) else (2 * m, e - 1)
      let x := m * 2 ^ 128
      let r := isqrt x
      f.round rm ftz false (2 * r + (if r * r = x then 0 else 1)) (e / 2 - 65)

/-- FRSQ: 1/√a; FRSQ of −0 is −∞ (R112). -/
def Fm.rsq (f : Fm) (rm : Rm) (ftz : Bool) (a : Nat) : Nat :=
  match f.read ftz a with
  | .nan => f.nan
  | .inf s => if s then f.nan else 0
  | .fin s m e =>
    if m = 0 then f.zero s + f.inf else if s then f.nan
    else
      let (m, e) := if e % 2 = 0 then (m, e) else (2 * m, e - 1)
      -- √(2^320 / m), inexact unless it divides and is a square
      let x := 2 ^ 320 / m
      let r := isqrt x
      let exact := 2 ^ 320 % m == 0 && r * r == x
      f.round rm ftz false (2 * r + (if exact then 0 else 1)) (-(e / 2) - 161)

/-- Whether a bit pattern is a NaN. -/
def Fm.isNan (f : Fm) (v : Nat) : Bool := let (_, e, m) := f.fields v; e == f.top && m != 0
/-- A subnormal read under FTZ, as bits. -/
def Fm.flush (f : Fm) (ftz : Bool) (v : Nat) : Nat :=
  let (s, e, _) := f.fields v
  if ftz ∧ e = 0 then f.zero s else v % 2 ^ f.width
/-- Order of the bits of values that are not NaN, −0 below +0 (R113). -/
def Fm.key (f : Fm) (v : Nat) : Int :=
  let m : Int := (v % f.signBit : Nat)
  if v / f.signBit % 2 = 1 then -m - 1 else m
/-- FMIN and FMAX (R113). -/
def Fm.minmax (f : Fm) (isMax ftz : Bool) (a b : Nat) : Nat :=
  let a := f.flush ftz a
  let b := f.flush ftz b
  if f.isNan a then (if f.isNan b then f.nan else b)
  else if f.isNan b then a
  else if (f.key a ≤ f.key b) != isMax then a else b

/-- A value of one format in another (R116). -/
def cvtFloat (g f : Fm) (rm : Rm) (ftz : Bool) (a : Nat) : Nat := f.put rm ftz (g.read ftz a)
/-- A value of a format as an integer in a range; NaN gives 0 (R116). -/
def floatToInt (g : Fm) (rm : Rm) (lo hi : Int) (a : Nat) : Int :=
  match g.read false a with
  | .nan => 0
  | .inf s => if s then lo else hi
  | .fin s m e =>
    let n : Int := (integral rm s m e : Nat)
    max lo (min hi (if s then -n else n))

/-- FDOT2 (R115). -/
def dot2 (g : Fm) (rm : Rm) (ftz : Bool) (a b c : Nat) : Nat :=
  let lo := fun v => g.read ftz (v % 65536)
  let hi := fun v => g.read ftz (v / 65536 % 65536)
  fm32.addAll rm ftz [(lo a).mul (lo b), (hi a).mul (hi b), fm32.read ftz c]

/-! ### The faithfully rounded functions (R81)

Each is evaluated in fixed point with bounds on either side; the result is one of the two format values around the
exact one, and which one is a free value (log entry 2). -/

/-- π × 2^520. -/
abbrev pi520 : Nat := 0x3243f6a8885a308d313198a2e03707344a4093822299f31d0082efa98ec4e6c89452821e638d01377be5466cf34e90c6cc0ac29b7c97c50dd3f84d5b5b547091792
/-- ln 2 × 2^256. -/
abbrev ln2 : Nat := 0xb17217f7d1cf79abc9e3b39803f2f6af40f343267298b62d8a0d175b8baafa2b
/-- Fixed-point scale. -/
abbrev one256 : Nat := 2 ^ 256

/-- e^x of a fixed-point x below 1. -/
def expFix (x : Nat) : Nat :=
  let rec go : Nat → Nat → Nat → Nat → Nat
    | 0, _, _, acc => acc
    | n + 1, k, t, acc => let t := t * x / one256 / k; go n (k + 1) t (acc + t)
  go 70 1 one256 one256
/-- sin of a fixed-point x in [0, π/4]: sums of the odd terms. -/
def sinFix (x : Nat) : Int :=
  let rec go : Nat → Nat → Nat → Int → Int → Int
    | 0, _, _, _, acc => acc
    | n + 1, k, t, sg, acc =>
      let t := t * x / one256 * x / one256 / ((k + 1) * (k + 2))
      go n (k + 2) t (-sg) (acc - sg * (t : Int))
  go 36 1 x 1 x
/-- cos of a fixed-point x in [0, π/4]. -/
def cosFix (x : Nat) : Int :=
  let rec go : Nat → Nat → Nat → Int → Int → Int
    | 0, _, _, _, acc => acc
    | n + 1, k, t, sg, acc =>
      let t := t * x / one256 * x / one256 / ((k + 1) * (k + 2))
      go n (k + 2) t (-sg) (acc - sg * (t : Int))
  go 36 0 one256 1 one256
/-- ln of a fixed-point x in [1, 2), by 2 atanh((x − 1)/(x + 1)). -/
def lnFix (x : Nat) : Nat :=
  let z := (x - one256) * one256 / (x + one256)
  let z2 := z * z / one256
  let rec go : Nat → Nat → Nat → Nat → Nat
    | 0, _, _, acc => acc
    | n + 1, k, t, acc => let t := t * z2 / one256; go n (k + 2) t (acc + t / (k + 2))
  2 * go 90 1 z z

/-- The error allowed for a fixed-point evaluation. -/
abbrev slack : Nat := 2 ^ 16

/-- An interval of dyadics with one exponent that holds an exact result. -/
structure Span where
  lo : Int
  hi : Int
  e  : Int
deriving DecidableEq, Repr

/-- The two neighbours of a result in an interval, and the one that the free value picks (R81). -/
def Fm.faithful (f : Fm) (ftz : Bool) (fn ty : Nat) (arg : Nat) (x : Span) : Nat :=
  if Config.faithfulUp fn ty arg then f.roundI 3 ftz (x.hi < 0 || x.lo < 0) x.hi x.e
  else f.roundI 2 ftz (x.lo < 0) x.lo x.e

/-- An integer part and a fixed-point fraction of |m| × 2^e. -/
def fixOf (m : Nat) (e : Int) : Nat := if 0 ≤ e + 256 then m * 2 ^ (e + 256).toNat else m / 2 ^ (-(e + 256)).toNat

/-- A magnitude just beside m × 2^e, nearer to zero or farther, without reaching a neighbour. -/
def beside (neg nearer : Bool) (m : Nat) (e : Int) : Span :=
  let a : Int := (m * 2 ^ 80 : Nat)
  let a := if nearer then a - 1 else a + 1
  let a := if neg then -a else a
  { lo := a, hi := a, e := e - 80 }

/-- Whether |m| × 2^e is below 2^-40. -/
def tiny (m : Nat) (e : Int) : Bool := e + (Nat.log2 m + 1) < -40

/-- FEXP2 of a finite value that is not zero. -/
def exp2Span (neg : Bool) (m : Nat) (e : Int) : Span :=
  if tiny m e then (if neg then beside false true 1 0 else beside false false 1 0)
  else if 12 < e + (Nat.log2 m + 1) then { lo := 1, hi := 1, e := if neg then -100000 else 100000 }
  else
    let x : Int := if 0 ≤ e + 256 then (m * 2 ^ (e + 256).toNat : Nat) else (m / 2 ^ (-(e + 256)).toNat : Nat)
    let x := if neg then -x else x
    let n := x / one256
    let fr := (x % one256).toNat
    if fr = 0 then { lo := 1, hi := 1, e := n }
    else
      let y : Int := (expFix (fr * ln2 / one256) : Nat)
      { lo := y - slack, hi := y + slack, e := n - 256 }

/-- FLOG2 of a positive finite value. -/
def log2Span (m : Nat) (e : Int) : Span :=
  let k := Nat.log2 m
  let n : Int := e + k
  if m = 2 ^ k then { lo := n, hi := n, e := 0 }
  else
    let y : Int := (lnFix (m * 2 ^ (256 - k)) * one256 / ln2 : Nat)
    { lo := n * one256 + y - slack, hi := n * one256 + y + slack, e := -256 }

/-- The multiple of π/2 nearest below |x|, modulo 4, and the rest in fixed point. -/
def reduce (m : Nat) (e : Int) : Nat × Nat :=
  let x := m * 2 ^ (e + 520).toNat
  let h := pi520 / 2
  (x / h % 4, x % h / 2 ^ 264)

/-- sin of a quarter turn q and a rest r in [0, π/2). -/
def sinQuarter (q r : Nat) : Int :=
  let h := pi520 / 2 / 2 ^ 264
  let small := fun (c : Bool) => if 2 * r ≤ h then (if c then cosFix r else sinFix r)
    else (if c then sinFix (h - r) else cosFix (h - r))
  match q % 4 with
  | 0 => small false
  | 1 => small true
  | 2 => -small false
  | _ => -small true

/-- Keep an interval inside [−1, 1] (R112). -/
def Span.clamp (x : Span) (one : Int) : Span := { x with lo := max (-one) x.lo, hi := min one x.hi }

/-- FSIN of a finite value that is not zero. -/
def sinSpan (neg : Bool) (m : Nat) (e : Int) : Span :=
  if tiny m e then beside neg true m e
  else
    let (q, r) := reduce m e
    let y := sinQuarter q r
    let y := if neg then -y else y
    ({ lo := y - slack, hi := y + slack, e := -256 } : Span).clamp one256
/-- FCOS of a finite value that is not zero. -/
def cosSpan (m : Nat) (e : Int) : Span :=
  if tiny m e then beside false true 1 0
  else
    let (q, r) := reduce m e
    let y := sinQuarter (q + 1) r
    ({ lo := y - slack, hi := y + slack, e := -256 } : Span).clamp one256
/-- FTANH of a finite value that is not zero. -/
def tanhSpan (neg : Bool) (m : Nat) (e : Int) : Span :=
  if tiny m e then beside neg true m e
  else if 6 < e + (Nat.log2 m + 1) then beside neg true 1 0
  else
    let x := 2 * fixOf m e
    let n := x / ln2
    let y := expFix (x % ln2) * 2 ^ n
    let z : Int := ((y - one256) * one256 / (y + one256) : Nat)
    let z := if neg then -z else z
    ({ lo := z - slack, hi := z + slack, e := -256 } : Span).clamp one256

/-- FEXP2, FLOG2, FSIN, FCOS and FTANH by number 0 to 4, with the exact values of R112. -/
def Fm.fn (f : Fm) (fn : Nat) (ty : BitVec 4) (ftz : Bool) (a : Nat) : Nat :=
  let one := f.round 0 false false 1 0
  match f.read ftz a with
  | .nan => f.nan
  | .inf s =>
    match fn with
    | 0 => if s then 0 else f.inf
    | 1 => if s then f.nan else f.inf
    | 4 => f.zero s + one
    | _ => f.nan
  | .fin s m e =>
    if m = 0 then
      match fn with
      | 0 | 3 => one
      | 1 => f.signBit + f.inf
      | _ => f.zero s
    else
      let go := f.faithful ftz fn ty.toNat (f.flush ftz a)
      match fn with
      | 0 => go (exp2Span s m e)
      | 1 => if s then f.nan else go (log2Span m e)
      | 2 => go (sinSpan s m e)
      | 3 => go (cosSpan m e)
      | _ => go (tanhSpan s m e)

/-! ### Block quantisation (R91) -/

/-- RNE(x × 2^-s) of a finite value. -/
def quant (neg : Bool) (m : Nat) (e s : Int) : Int :=
  let n : Int := (integral 0 neg m (e - s) : Nat)
  if neg then -n else n

/-- The smallest scale from `s` up to 127 under which every value fits, else 127. -/
def scaleFrom (l : Nat) (vs : List (Bool × Nat × Int)) : Nat → Int → Int
  | 0, s => s
  | k + 1, s => if vs.all fun v => (quant v.1 v.2.1 v.2.2 s).natAbs ≤ l then s else scaleFrom l vs k (s + 1)

/-- R91: the scale and mantissas of a block. -/
def quantBlock (l : Nat) (xs : List FVal) : Int × List Int :=
  let fins := xs.filterMap fun v => match v with | .fin s m e => some (s, m, e) | _ => none
  if fins.length < xs.length then (-128, xs.map fun _ => 0)
  else if fins.all fun v => v.2.1 == 0 then (0, xs.map fun _ => 0)
  else
    let s := scaleFrom l fins 254 (-127)
    (s, fins.map fun v => max (-(l : Int)) (min l (quant v.1 v.2.1 v.2.2 s)))

/-- m × 2^s in a format; s = −128 is NaN (R87, R88). -/
def Fm.ofQ (f : Fm) (m s : Int) : Nat := if s = -128 then f.nan else f.roundI 0 false false m s

end Sys2Proof.Machine
end

