-- ==== Sys2Proof/WellFormed.lean ====
section
/-! DEFINITION. Which instructions are well formed: those whose word R56 does not turn away, as far as the word alone
decides it. What depends on the clause, the kernel, the mode or the feature set is tested when a thread reaches the
word (Sys2Proof/Machine/Ops.lean). The machine's own steps carry no word and are always well formed. -/

namespace Sys2Proof

/-- A well-formed instruction (R56). -/
def Instr.wf (i : Instr) : Bool := i.staticCase.isNone

end Sys2Proof
end

