-- ==== Sys2Proof/Decode.lean ====
section
/-! DEFINITION. The decoder and the encoder of instruction words and clause headers (R33 to R56). The decoder is total:
a word that is not an instruction is rejected by the case of R56 that it falls under. -/

namespace Sys2Proof

/-! ### Fields (R37, R42) -/

/-- Bits 55:41. -/
def Common.ofWord (w : DWord) : Common :=
  { nas := w.extractLsb' 53 3, look := w.extractLsb' 49 4, ts := w.extractLsb' 48 1,
    tok := w.extractLsb' 45 3, pneg := w.extractLsb' 44 1, pidx := w.extractLsb' 41 3 }
/-- The 15 bits 55:41. -/
def Common.toBits (c : Common) : BitVec 15 :=
  (c.nas ++ c.look ++ c.ts ++ c.tok ++ c.pneg ++ c.pidx).cast (by decide)

def FA.ofWord (w : DWord) : FA :=
  { c := Common.ofWord w, dst := w.extractLsb' 33 8, sa := w.extractLsb' 25 8, sb := w.extractLsb' 17 8,
    sc := w.extractLsb' 9 8, ty := w.extractLsb' 5 4, ctl := w.extractLsb' 0 5 }
def FA.toWord (op : BitVec 8) (x : FA) : DWord :=
  (op ++ x.c.toBits ++ x.dst ++ x.sa ++ x.sb ++ x.sc ++ x.ty ++ x.ctl).cast (by decide)

def FV.ofWord (w : DWord) : FV :=
  { c := Common.ofWord w, dst := w.extractLsb' 33 8, imm := w.extractLsb' 1 32, rsv := w.extractLsb' 0 1 }
def FV.toWord (op : BitVec 8) (x : FV) : DWord := (op ++ x.c.toBits ++ x.dst ++ x.imm ++ x.rsv).cast (by decide)

def FM.ofWord (w : DWord) : FM :=
  { c := Common.ofWord w, dst := w.extractLsb' 33 8, sa := w.extractLsb' 25 8, sb := w.extractLsb' 17 8,
    off := w.extractLsb' 5 12, wid := w.extractLsb' 2 3, ctl := w.extractLsb' 0 2 }
def FM.toWord (op : BitVec 8) (x : FM) : DWord :=
  (op ++ x.c.toBits ++ x.dst ++ x.sa ++ x.sb ++ x.off ++ x.wid ++ x.ctl).cast (by decide)

def FX.ofWord (w : DWord) : FX :=
  { c := Common.ofWord w, dst := w.extractLsb' 33 8, sa := w.extractLsb' 25 8, sb := w.extractLsb' 17 8,
    gd := w.extractLsb' 16 1, gs := w.extractLsb' 13 3, mod := w.extractLsb' 0 13 }
def FX.toWord (op : BitVec 8) (x : FX) : DWord :=
  (op ++ x.c.toBits ++ x.dst ++ x.sa ++ x.sb ++ x.gd ++ x.gs ++ x.mod).cast (by decide)

def FS.ofWord (w : DWord) : FS :=
  { c := Common.ofWord w, dst := w.extractLsb' 33 8, sa := w.extractLsb' 25 8, sb := w.extractLsb' 17 8,
    idx := w.extractLsb' 5 12, low := w.extractLsb' 0 5 }
def FS.toWord (op : BitVec 8) (x : FS) : DWord :=
  (op ++ x.c.toBits ++ x.dst ++ x.sa ++ x.sb ++ x.idx ++ x.low).cast (by decide)

def FN.ofWord (w : DWord) : FN := { c := Common.ofWord w, rest := w.extractLsb' 0 41 }
def FN.toWord (op : BitVec 8) (x : FN) : DWord := (op ++ x.c.toBits ++ x.rest).cast (by decide)

/-! ### The opcode maps (R53) -/

/-- GEN, class 0. -/
def decodeGen (op : Nat) (w : DWord) : Except NotInstr Instr :=
  match op with
  | 0x00 => .ok (.nop 0 (FN.ofWord w))
  | 0x01 => .ok (.add (FA.ofWord w))
  | 0x02 => .ok (.sub (FA.ofWord w))
  | 0x03 => .ok (.mul (FA.ofWord w))
  | 0x04 => .ok (.mulh (FA.ofWord w))
  | 0x05 => .ok (.mad (FA.ofWord w))
  | 0x06 => .ok (.madw (FA.ofWord w))
  | 0x07 => .ok (.addc (FA.ofWord w))
  | 0x08 => .ok (.subb (FA.ofWord w))
  | 0x09 => .ok (.neg (FA.ofWord w))
  | 0x0A => .ok (.abs (FA.ofWord w))
  | 0x0B => .ok (.min (FA.ofWord w))
  | 0x0C => .ok (.max (FA.ofWord w))
  | 0x0D => .ok (.and (FA.ofWord w))
  | 0x0E => .ok (.or (FA.ofWord w))
  | 0x0F => .ok (.xor (FA.ofWord w))
  | 0x10 => .ok (.andn (FA.ofWord w))
  | 0x11 => .ok (.not (FA.ofWord w))
  | 0x12 => .ok (.shl (FA.ofWord w))
  | 0x13 => .ok (.shr (FA.ofWord w))
  | 0x14 => .ok (.sar (FA.ofWord w))
  | 0x15 => .ok (.rotl (FA.ofWord w))
  | 0x16 => .ok (.fshf (FA.ofWord w))
  | 0x17 => .ok (.popc (FA.ofWord w))
  | 0x18 => .ok (.clz (FA.ofWord w))
  | 0x19 => .ok (.ctz (FA.ofWord w))
  | 0x1A => .ok (.brev (FA.ofWord w))
  | 0x1B => .ok (.bfx (FA.ofWord w))
  | 0x1C => .ok (.bfi (FA.ofWord w))
  | 0x1D => .ok (.prmt (FA.ofWord w))
  | 0x1E => .ok (.lea (FA.ofWord w))
  | 0x1F => .ok (.cmp (FA.ofWord w))
  | 0x20 => .ok (.sel (FA.ofWord w))
  | 0x21 => .ok (.div (FA.ofWord w))
  | 0x22 => .ok (.rem (FA.ofWord w))
  | 0x30 => .ok (.fadd (FA.ofWord w))
  | 0x31 => .ok (.fsub (FA.ofWord w))
  | 0x32 => .ok (.fmul (FA.ofWord w))
  | 0x33 => .ok (.ffma (FA.ofWord w))
  | 0x34 => .ok (.fmin (FA.ofWord w))
  | 0x35 => .ok (.fmax (FA.ofWord w))
  | 0x36 => .ok (.fcmp (FA.ofWord w))
  | 0x37 => .ok (.fclass (FA.ofWord w))
  | 0x38 => .ok (.fscale (FA.ofWord w))
  | 0x39 => .ok (.frnd (FA.ofWord w))
  | 0x3A => .ok (.frcp (FA.ofWord w))
  | 0x3B => .ok (.frsq (FA.ofWord w))
  | 0x3C => .ok (.fsqrt (FA.ofWord w))
  | 0x3D => .ok (.fdiv (FA.ofWord w))
  | 0x3E => .ok (.fexp2 (FA.ofWord w))
  | 0x3F => .ok (.flog2 (FA.ofWord w))
  | 0x40 => .ok (.fsin (FA.ofWord w))
  | 0x41 => .ok (.fcos (FA.ofWord w))
  | 0x42 => .ok (.ftanh (FA.ofWord w))
  | 0x43 => .ok (.fdot2 (FA.ofWord w))
  | 0x50 => .ok (.cvt (FA.ofWord w))
  | 0x51 => .ok (.pack (FA.ofWord w))
  | 0x52 => .ok (.unpk (FA.ofWord w))
  | 0x53 => .ok (.qenc (FA.ofWord w))
  | 0x54 => .ok (.qdec (FA.ofWord w))
  | 0x58 => .ok (.mov (FA.ofWord w))
  | 0x59 => .ok (.movi (FV.ofWord w))
  | 0x5A => .ok (.movh (FV.ofWord w))
  | 0x5B => .ok (.rds (FA.ofWord w))
  | 0x5C => .ok (.wrs (FA.ofWord w))
  | 0x5D => .ok (.shfl (FA.ofWord w))
  | 0x5E => .ok (.vote (FA.ofWord w))
  | 0x5F => .ok (.redux (FA.ofWord w))
  | 0x60 => .ok (.matchLanes (FA.ofWord w))
  | 0x61 => .ok (.v2s (FA.ofWord w))
  | 0x62 => .ok (.plop (FA.ofWord w))
  | 0x63 =>
    let x := FA.ofWord w
    match x.ctl.toNat with
    | 0 => .ok (.pmovGet x)
    | 1 => .ok (.pmovSet x)
    | _ => .error .value
  | 0x70 => .ok (.ld (FM.ofWord w))
  | 0x71 => .ok (.st (FM.ofWord w))
  | 0x72 => .ok (.ldnr (FM.ofWord w))
  | 0x73 => .ok (.lda (FM.ofWord w))
  | 0x74 => .ok (.stl (FM.ofWord w))
  | 0x75 => .ok (.lds (FM.ofWord w))
  | 0x76 => .ok (.sts (FM.ofWord w))
  | 0x77 => .ok (.ldt (FM.ofWord w))
  | 0x78 => .ok (.stt (FM.ofWord w))
  | 0x79 => .ok (.qst (FM.ofWord w))
  | 0x7A => .ok (.atom (FM.ofWord w))
  | 0x7B => .ok (.red (FM.ofWord w))
  | 0x7C => .ok (.atoms (FM.ofWord w))
  | 0x7D =>
    let x := FM.ofWord w
    match x.ctl.toNat with
    | 1 => .ok (.fenceAcq x)
    | 2 => .ok (.fenceRel x)
    | 3 => .ok (.fenceFull x)
    | _ => .error .value
  | 0x7E => .ok (.pref (FM.ofWord w))
  | 0x7F => .ok (.pgreq (FM.ofWord w))
  | 0x80 => .ok (.icfence (FN.ofWord w))
  | 0x81 => .ok (.shape (FM.ofWord w))
  | 0x82 => .ok (.swinit (FM.ofWord w))
  | 0x83 => .ok (.swwait (FM.ofWord w))
  | 0x84 => .ok (.seal (FA.ofWord w))
  | 0x85 => .ok (.waitb (FA.ofWord w))
  | 0xA0 => .ok (.jmpi (FA.ofWord w))
  | 0xA1 => .ok (.calli (FA.ofWord w))
  | 0xA2 =>
    let x := FA.ofWord w
    match x.ctl.toNat with
    | 0 => .ok (.meetset x)
    | 1 => .ok (.meetsetR x)
    | 2 => .ok (.meetsetClr x)
    | _ => .error .value
  | 0xA3 =>
    let x := FA.ofWord w
    match x.ctl.toNat with
    | 1 => .ok (.barArrive x)
    | 2 => .ok (.barWait x)
    | 3 => .ok (.barSync x)
    | _ => .error .value
  | 0xA4 =>
    let x := FA.ofWord w
    match x.ctl.toNat with
    | 1 => .ok (.sbarArrive x)
    | 2 => .ok (.sbarWait x)
    | 3 => .ok (.sbarSync x)
    | _ => .error .value
  | 0xA5 =>
    let x := FM.ofWord w
    match x.ctl.toNat with
    | 0 => .ok (.watch x)
    | 1 => .ok (.watchClr x)
    | _ => .error .value
  | 0xA6 => .ok (.wait (FN.ofWord w))
  | 0xA7 => .ok (.yield (FN.ofWord w))
  | 0xA8 => .ok (.sleep (FA.ofWord w))
  | 0xA9 => .ok (.cbr (FA.ofWord w))
  | 0xAA =>
    let x := FA.ofWord w
    match x.ctl.toNat with
    | 0 => .ok (.cbsync x)
    | 1 => .ok (.cbsyncAbort x)
    | _ => .error .value
  | 0xAB => .ok (.gres (FA.ofWord w))
  | 0xAC => .ok (.reca (FA.ofWord w))
  | 0xAD => .ok (.recc (FA.ofWord w))
  | 0xAE => .ok (.recf (FA.ofWord w))
  | 0xAF => .ok (.launch (FA.ofWord w))
  | 0xB0 => .ok (.signal (FA.ofWord w))
  | 0xB1 => .ok (.trap (FA.ofWord w))
  | _ => .error .opcode

/-- MTX, class 1. -/
def decodeMtx (op : Nat) (w : DWord) : Except NotInstr Instr :=
  match op with
  | 0x00 => .ok (.nop 1 (FN.ofWord w))
  | 0x01 => .ok (.alloc (FX.ofWord w))
  | 0x02 => .ok (.free (FX.ofWord w))
  | 0x03 => .ok (.mma (FX.ofWord w))
  | 0x04 => .ok (.acz (FX.ofWord w))
  | 0x05 => .ok (.acrd (FX.ofWord w))
  | 0x06 => .ok (.acwr (FX.ofWord w))
  | 0x07 => .ok (.acld (FX.ofWord w))
  | 0x08 => .ok (.acst (FX.ofWord w))
  | _ => .error .opcode

/-- ENG, class 2. -/
def decodeEng (op : Nat) (w : DWord) : Except NotInstr Instr :=
  match op with
  | 0x00 => .ok (.nop 2 (FN.ofWord w))
  | 0x01 => .ok (.cpy (FX.ofWord w))
  | 0x02 => .ok (.cpyg (FX.ofWord w))
  | 0x03 => .ok (.cpys (FX.ofWord w))
  | 0x04 => .ok (.cpyt (FX.ofWord w))
  | 0x05 => .ok (.walk (FX.ofWord w))
  | 0x06 => .ok (.crdc (FX.ofWord w))
  | 0x07 => .ok (.calr (FX.ofWord w))
  | 0x08 => .ok (.crsc (FX.ofWord w))
  | 0x09 => .ok (.calg (FX.ofWord w))
  | 0x0A => .ok (.cbcs (FX.ofWord w))
  | 0x0B => .ok (.cbar (FX.ofWord w))
  | _ => .error .opcode

/-- SYS, class 3. -/
def decodeSys (op : Nat) (w : DWord) : Except NotInstr Instr :=
  match op with
  | 0x00 => .ok (.nop 3 (FN.ofWord w))
  | 0x01 =>
    let x := FS.ofWord w
    match x.low.toNat with
    | 0 => .ok (.eretDone x)
    | 1 => .ok (.eretRetry x)
    | _ => .error .value
  | 0x02 => .ok (.rdcsr (FS.ofWord w))
  | 0x03 => .ok (.wrcsr (FS.ofWord w))
  | 0x04 =>
    let x := FS.ofWord w
    match x.low.toNat with
    | 0 => .ok (.tlbinvPage x)
    | 1 => .ok (.tlbinvPasid x)
    | 2 => .ok (.tlbinvGpage x)
    | 3 => .ok (.tlbinvIpa x)
    | 4 => .ok (.tlbinvAll x)
    | _ => .error .value
  | 0x05 =>
    let x := FS.ofWord w
    match x.low.toNat with
    | 0 => .ok (.ctxswOut x)
    | 1 => .ok (.ctxswIn x)
    | _ => .error .value
  | 0x06 =>
    let x := FS.ofWord w
    match x.low.toNat with
    | 0 => .ok (.claim x)
    | 1 => .ok (.claimNode x)
    | _ => .error .value
  | 0x07 => .ok (.mcack (FS.ofWord w))
  | 0x08 => .ok (.halt (FS.ofWord w))
  | _ => .error .opcode

/-- The word's opcode in its class's map, before the tests of its fields (R53, R54). -/
def lookup (cls : Nat) (w : DWord) : Except NotInstr Instr :=
  let op := (w.extractLsb' 56 8).toNat
  if op = 0xB2 then
    if cls < 4 then .ok (.brk (BitVec.ofNat 2 cls) (w.extractLsb' 0 56)) else .error .undefinedClass
  else match cls with
    | 0 => decodeGen op w
    | 1 => decodeMtx op w
    | 2 => decodeEng op w
    | 3 => decodeSys op w
    | _ => .error .undefinedClass

/-- Decode a word in a clause of a class: an instruction, or the case of R56 that rejects it. -/
def decode (cls : Nat) (w : DWord) : Except NotInstr Instr :=
  match lookup cls w with
  | .error k => .error k
  | .ok i => match i.staticCase with
    | some k => .error k
    | none => .ok i

/-! ### The encoder -/

/-- The class and the word of an instruction; a step of the machine itself has none. -/
def encode : Instr → Option (Nat × DWord)
  | .nop cls w => some (cls.toNat, FN.toWord 0x00 w)
  | .brk cls rest => some (cls.toNat, ((0xB2 : BitVec 8) ++ rest).cast (by decide))
  | .add w => some (0, FA.toWord 0x01 w)
  | .sub w => some (0, FA.toWord 0x02 w)
  | .mul w => some (0, FA.toWord 0x03 w)
  | .mulh w => some (0, FA.toWord 0x04 w)
  | .mad w => some (0, FA.toWord 0x05 w)
  | .madw w => some (0, FA.toWord 0x06 w)
  | .addc w => some (0, FA.toWord 0x07 w)
  | .subb w => some (0, FA.toWord 0x08 w)
  | .neg w => some (0, FA.toWord 0x09 w)
  | .abs w => some (0, FA.toWord 0x0A w)
  | .min w => some (0, FA.toWord 0x0B w)
  | .max w => some (0, FA.toWord 0x0C w)
  | .and w => some (0, FA.toWord 0x0D w)
  | .or w => some (0, FA.toWord 0x0E w)
  | .xor w => some (0, FA.toWord 0x0F w)
  | .andn w => some (0, FA.toWord 0x10 w)
  | .not w => some (0, FA.toWord 0x11 w)
  | .shl w => some (0, FA.toWord 0x12 w)
  | .shr w => some (0, FA.toWord 0x13 w)
  | .sar w => some (0, FA.toWord 0x14 w)
  | .rotl w => some (0, FA.toWord 0x15 w)
  | .fshf w => some (0, FA.toWord 0x16 w)
  | .popc w => some (0, FA.toWord 0x17 w)
  | .clz w => some (0, FA.toWord 0x18 w)
  | .ctz w => some (0, FA.toWord 0x19 w)
  | .brev w => some (0, FA.toWord 0x1A w)
  | .bfx w => some (0, FA.toWord 0x1B w)
  | .bfi w => some (0, FA.toWord 0x1C w)
  | .prmt w => some (0, FA.toWord 0x1D w)
  | .lea w => some (0, FA.toWord 0x1E w)
  | .cmp w => some (0, FA.toWord 0x1F w)
  | .sel w => some (0, FA.toWord 0x20 w)
  | .div w => some (0, FA.toWord 0x21 w)
  | .rem w => some (0, FA.toWord 0x22 w)
  | .fadd w => some (0, FA.toWord 0x30 w)
  | .fsub w => some (0, FA.toWord 0x31 w)
  | .fmul w => some (0, FA.toWord 0x32 w)
  | .ffma w => some (0, FA.toWord 0x33 w)
  | .fmin w => some (0, FA.toWord 0x34 w)
  | .fmax w => some (0, FA.toWord 0x35 w)
  | .fcmp w => some (0, FA.toWord 0x36 w)
  | .fclass w => some (0, FA.toWord 0x37 w)
  | .fscale w => some (0, FA.toWord 0x38 w)
  | .frnd w => some (0, FA.toWord 0x39 w)
  | .frcp w => some (0, FA.toWord 0x3A w)
  | .frsq w => some (0, FA.toWord 0x3B w)
  | .fsqrt w => some (0, FA.toWord 0x3C w)
  | .fdiv w => some (0, FA.toWord 0x3D w)
  | .fexp2 w => some (0, FA.toWord 0x3E w)
  | .flog2 w => some (0, FA.toWord 0x3F w)
  | .fsin w => some (0, FA.toWord 0x40 w)
  | .fcos w => some (0, FA.toWord 0x41 w)
  | .ftanh w => some (0, FA.toWord 0x42 w)
  | .fdot2 w => some (0, FA.toWord 0x43 w)
  | .cvt w => some (0, FA.toWord 0x50 w)
  | .pack w => some (0, FA.toWord 0x51 w)
  | .unpk w => some (0, FA.toWord 0x52 w)
  | .qenc w => some (0, FA.toWord 0x53 w)
  | .qdec w => some (0, FA.toWord 0x54 w)
  | .mov w => some (0, FA.toWord 0x58 w)
  | .movi w => some (0, FV.toWord 0x59 w)
  | .movh w => some (0, FV.toWord 0x5A w)
  | .rds w => some (0, FA.toWord 0x5B w)
  | .wrs w => some (0, FA.toWord 0x5C w)
  | .shfl w => some (0, FA.toWord 0x5D w)
  | .vote w => some (0, FA.toWord 0x5E w)
  | .redux w => some (0, FA.toWord 0x5F w)
  | .matchLanes w => some (0, FA.toWord 0x60 w)
  | .v2s w => some (0, FA.toWord 0x61 w)
  | .plop w => some (0, FA.toWord 0x62 w)
  | .pmovGet w => some (0, FA.toWord 0x63 w)
  | .pmovSet w => some (0, FA.toWord 0x63 w)
  | .ld w => some (0, FM.toWord 0x70 w)
  | .st w => some (0, FM.toWord 0x71 w)
  | .ldnr w => some (0, FM.toWord 0x72 w)
  | .lda w => some (0, FM.toWord 0x73 w)
  | .stl w => some (0, FM.toWord 0x74 w)
  | .lds w => some (0, FM.toWord 0x75 w)
  | .sts w => some (0, FM.toWord 0x76 w)
  | .ldt w => some (0, FM.toWord 0x77 w)
  | .stt w => some (0, FM.toWord 0x78 w)
  | .qst w => some (0, FM.toWord 0x79 w)
  | .atom w => some (0, FM.toWord 0x7A w)
  | .red w => some (0, FM.toWord 0x7B w)
  | .atoms w => some (0, FM.toWord 0x7C w)
  | .fenceAcq w => some (0, FM.toWord 0x7D w)
  | .fenceRel w => some (0, FM.toWord 0x7D w)
  | .fenceFull w => some (0, FM.toWord 0x7D w)
  | .pref w => some (0, FM.toWord 0x7E w)
  | .pgreq w => some (0, FM.toWord 0x7F w)
  | .icfence w => some (0, FN.toWord 0x80 w)
  | .shape w => some (0, FM.toWord 0x81 w)
  | .swinit w => some (0, FM.toWord 0x82 w)
  | .swwait w => some (0, FM.toWord 0x83 w)
  | .seal w => some (0, FA.toWord 0x84 w)
  | .waitb w => some (0, FA.toWord 0x85 w)
  | .jmpi w => some (0, FA.toWord 0xA0 w)
  | .calli w => some (0, FA.toWord 0xA1 w)
  | .meetset w => some (0, FA.toWord 0xA2 w)
  | .meetsetR w => some (0, FA.toWord 0xA2 w)
  | .meetsetClr w => some (0, FA.toWord 0xA2 w)
  | .barArrive w => some (0, FA.toWord 0xA3 w)
  | .barWait w => some (0, FA.toWord 0xA3 w)
  | .barSync w => some (0, FA.toWord 0xA3 w)
  | .sbarArrive w => some (0, FA.toWord 0xA4 w)
  | .sbarWait w => some (0, FA.toWord 0xA4 w)
  | .sbarSync w => some (0, FA.toWord 0xA4 w)
  | .watch w => some (0, FM.toWord 0xA5 w)
  | .watchClr w => some (0, FM.toWord 0xA5 w)
  | .wait w => some (0, FN.toWord 0xA6 w)
  | .yield w => some (0, FN.toWord 0xA7 w)
  | .sleep w => some (0, FA.toWord 0xA8 w)
  | .cbr w => some (0, FA.toWord 0xA9 w)
  | .cbsync w => some (0, FA.toWord 0xAA w)
  | .cbsyncAbort w => some (0, FA.toWord 0xAA w)
  | .gres w => some (0, FA.toWord 0xAB w)
  | .reca w => some (0, FA.toWord 0xAC w)
  | .recc w => some (0, FA.toWord 0xAD w)
  | .recf w => some (0, FA.toWord 0xAE w)
  | .launch w => some (0, FA.toWord 0xAF w)
  | .signal w => some (0, FA.toWord 0xB0 w)
  | .trap w => some (0, FA.toWord 0xB1 w)
  | .alloc w => some (1, FX.toWord 0x01 w)
  | .free w => some (1, FX.toWord 0x02 w)
  | .mma w => some (1, FX.toWord 0x03 w)
  | .acz w => some (1, FX.toWord 0x04 w)
  | .acrd w => some (1, FX.toWord 0x05 w)
  | .acwr w => some (1, FX.toWord 0x06 w)
  | .acld w => some (1, FX.toWord 0x07 w)
  | .acst w => some (1, FX.toWord 0x08 w)
  | .cpy w => some (2, FX.toWord 0x01 w)
  | .cpyg w => some (2, FX.toWord 0x02 w)
  | .cpys w => some (2, FX.toWord 0x03 w)
  | .cpyt w => some (2, FX.toWord 0x04 w)
  | .walk w => some (2, FX.toWord 0x05 w)
  | .crdc w => some (2, FX.toWord 0x06 w)
  | .calr w => some (2, FX.toWord 0x07 w)
  | .crsc w => some (2, FX.toWord 0x08 w)
  | .calg w => some (2, FX.toWord 0x09 w)
  | .cbcs w => some (2, FX.toWord 0x0A w)
  | .cbar w => some (2, FX.toWord 0x0B w)
  | .eretDone w => some (3, FS.toWord 0x01 w)
  | .eretRetry w => some (3, FS.toWord 0x01 w)
  | .rdcsr w => some (3, FS.toWord 0x02 w)
  | .wrcsr w => some (3, FS.toWord 0x03 w)
  | .tlbinvPage w => some (3, FS.toWord 0x04 w)
  | .tlbinvPasid w => some (3, FS.toWord 0x04 w)
  | .tlbinvGpage w => some (3, FS.toWord 0x04 w)
  | .tlbinvIpa w => some (3, FS.toWord 0x04 w)
  | .tlbinvAll w => some (3, FS.toWord 0x04 w)
  | .ctxswOut w => some (3, FS.toWord 0x05 w)
  | .ctxswIn w => some (3, FS.toWord 0x05 w)
  | .claim w => some (3, FS.toWord 0x06 w)
  | .claimNode w => some (3, FS.toWord 0x06 w)
  | .mcack w => some (3, FS.toWord 0x07 w)
  | .halt w => some (3, FS.toWord 0x08 w)
  | _ => none

/-- The opcode of an instruction (R326 EDEC). -/
def Instr.opcode (i : Instr) : Nat :=
  match encode i with
  | some (_, w) => (w.extractLsb' 56 8).toNat
  | none => 0

/-! ### Clause headers (R34) -/

/-- The fields of a clause header. -/
structure Header where
  cls    : BitVec 4
  cnt    : BitVec 4
  wait   : BitVec 8
  bpred  : BitVec 3
  bneg   : BitVec 1
  yh     : BitVec 1
  rsv    : BitVec 11
  target : BitVec 32
deriving DecidableEq, Repr, Inhabited

def Header.ofWord (w : DWord) : Header :=
  { cls := w.extractLsb' 60 4, cnt := w.extractLsb' 56 4, wait := w.extractLsb' 48 8, bpred := w.extractLsb' 45 3,
    bneg := w.extractLsb' 44 1, yh := w.extractLsb' 43 1, rsv := w.extractLsb' 32 11, target := w.extractLsb' 0 32 }
def Header.toWord (h : Header) : DWord :=
  (h.cls ++ h.cnt ++ h.wait ++ h.bpred ++ h.bneg ++ h.yh ++ h.rsv ++ h.target).cast (by decide)

/-- Cases 1 and 2 of R56, tested on the header alone. -/
def Header.case12 (h : Header) : Option NotInstr :=
  if 4 ≤ h.cls.toNat then some .undefinedClass else if h.rsv ≠ 0 then some .headerReserved else none

/-- Case 3 of R56: BPRED, BNEG and TARGET against the selector of the last word; a BRK there requires nothing (R35). -/
def Header.case3 (h : Header) (last : DWord) : Option NotInstr :=
  let nas := (last.extractLsb' 53 3).toNat
  if last.extractLsb' 56 8 = 0xB2 then none
  else if (nas ≠ 2 ∧ nas ≠ 6) ∧ (h.bpred ≠ 0 ∨ h.bneg ≠ 0) then some .headerFields
  else if (nas ≠ 1 ∧ nas ≠ 2 ∧ nas ≠ 3 ∧ nas ≠ 6) ∧ h.target ≠ 0 then some .headerFields
  else none

/-! ### Bytes -/

/-- The value of bytes stored least significant first (R5). -/
def leValue : List (BitVec 8) → Nat
  | [] => 0
  | b :: r => b.toNat + 256 * leValue r

/-- The n least significant bytes of a value, least significant first (R5). -/
def leBytes : Nat → Nat → List (BitVec 8)
  | 0, _ => []
  | n + 1, v => BitVec.ofNat 8 v :: leBytes n (v / 256)

/-- Decode the first eight bytes of a list as an instruction word and give the rest (R37). -/
def decodeBytes (cls : Nat) (bs : List (BitVec 8)) : Except NotInstr Instr × List (BitVec 8) :=
  (decode cls (BitVec.ofNat 64 (leValue (bs.take 8))), bs.drop 8)

/-- The instruction that the decoder reads from an instruction of `nbits` bits. Up to 64 bits it is a word of a GEN
clause; above 64, bits 63:0 are the clause header, whose CLASS the word at bits 127:64 is read in. The words are laid
out as bytes and decoded from there. -/
def decodeTableWord (nbits w : Nat) : Option Instr :=
  let w := w % 2 ^ nbits
  if nbits ≤ 64 then (decodeBytes 0 (leBytes 8 w)).1.toOption
  else
    let h := Header.ofWord (BitVec.ofNat 64 w)
    match h.case12 with
    | some _ => none
    | none => (decodeBytes h.cls.toNat (leBytes 8 (w / 2 ^ 64))).1.toOption

end Sys2Proof
end

