-- ==== Sys2Proof/Machine/State.lean ====
section
/-! DEFINITION. Everything the machine holds. Each field's rule, width and reset value stand in INVENTORY.md under
'## State'. Plain data: lists, numbers and bit vectors. -/

namespace Sys2Proof.Machine

open Sys2Proof

/-! ### Maps

A map from numbers is a list in one canonical form: keys strictly rising, no entry equal to what an unlisted key
reads as. -/

/-- A map whose unlisted keys read as a default named where it is read. -/
abbrev Map (β : Type) := List (Nat × β)

/-- Memory: bytes by address (Host.Cell). An unlisted address reads as zero: R358 writes every sector with zeros. -/
abbrev Memory := List Host.Cell

/-- A place that a byte lies in: device memory by physical address, host memory by PASID and host I/O virtual address
(R280), a peer's memory by fabric address, or a team's scratchpad by offset (R153, R174). -/
inductive Loc where
  | mem (pa : Nat)
  | host (pasid addr : Nat)
  | peer (pa : Nat)
  | pad (team off : Nat)
  /-- a byte of a page or scratchpad that is not there, by the team and VA that name it: only a watch does (R237) -/
  | away (team va : Nat)
deriving DecidableEq, Repr, Inhabited

/-- A page that translation found absent: its partition, stage, PASID (0 for stage 2) and page number (R273). With `far` it is
8 bytes of another chip's memory that have been asked for and not come (R335): `page` is their address over 8, `pasid` what asks
for them, 0 a table walk, 1 an engine command or a product, 2 an instruction fetch, and `part` the command, product or core. -/
structure PageKey where
  part  : Nat
  s2    : Bool
  pasid : Nat
  page  : Nat
  far   : Bool := false
deriving DecidableEq, Repr, Inhabited

/-- A gang: its team and GANG value, or for a solo gang its home warp (R131). -/
structure Gang where
  team : Nat
  val  : Word
  solo : Nat
deriving DecidableEq, Repr, Inhabited

/-- A clause as fetched: its header's address, the header and the words (R49), and the breakpoint comparators as they
stood (R312, R325). -/
structure Clause where
  addr   : DWord
  header : DWord
  words  : List DWord
  brk    : List DWord
deriving DecidableEq, Repr, Inhabited

/-- Where a thread that is not running stands: the blocking points of R31, exited, or queued for a trap level (R300).
A thread at BP-MEET, or held at its own word, keeps that place in `pc` and `mid`. -/
inductive Wait where
  | ready
  | exited
  | bar (id : Nat) (gen : Word)
  | span (id : Nat) (gen : Word)
  /-- at BP-GANG, for the MMA that a latch has captured, by the latch's number -/
  | gang (latch : Nat)
  | watch
  | spin (sectors : List Loc)
  | sleep (till : Nat)
  | recq (node depth : Nat)
  | alloc (bank count : Nat)
  | remoteTeam (team : Nat)
  | remoteData (tag : Nat)
  | page (keys : List PageKey)
  | meet
  | agree (seq : Nat)
  /-- at BP-AGREE before a word, until the branches of these members, by team, home warp and sequence, have resolved: the
  thread's own, or that of the holder of a word it stores to (R172, R248, R249) -/
  | agreeWord (on : List (Nat × Nat × Nat))
  | waitb (n : Word)
  | swwait (off : Nat) (gen : Word)
  | seal
  | drain
  | trapLevel
deriving DecidableEq, Repr, Inhabited

/-- A result and whether it is written; a written one stays until its clause ends, for its window. Its registers and predicate, the token it counts, the clause and the last position of
its window (R50 to R52). A result read from banks behind a held product has no value yet (R145). -/
structure Pend where
  key    : Nat
  done   : Bool
  dst    : BitVec 8
  regs   : Nat
  value  : Option Nat
  pred   : Option (BitVec 3 × Bool)
  token  : Option (BitVec 3)
  clause : DWord
  last   : Nat
deriving DecidableEq, Repr, Inhabited

/-- A fault of an engine command, pending with its thread (R160). -/
structure PendFault where
  cmd   : Nat
  batch : Word
  sync  : Option Nat
  pc    : DWord
  code  : Nat
  addr  : Nat
  s2    : Bool
deriving DecidableEq, Repr, Inhabited

/-- What a trap banks of a thread (R299): the interrupted place and predicates, the lane set (R207), and the results of
the interrupted clause whose lookahead windows stand (R51). -/
structure Banked where
  pc      : DWord
  mid     : Option (Clause × Nat)
  skip    : Nat
  meet    : DWord
  mtag    : BitVec 16
  alone   : Bool
  p       : BitVec 7
  laneSet : Nat
  looks   : List Pend
deriving DecidableEq, Repr, Inhabited

/-- A record slot of a graph: its graph, node, level and slot number (R226). -/
structure RecSlot where
  graph : Nat
  node  : Nat
  level : Nat
  slot  : Nat
deriving DecidableEq, Repr, Inhabited

/-- A thread (R13). `mid` is the clause it stands in and the position of its next word; none before a header. `deny` holds
the absent pages that the driver has refused to supply for its word (R276), and `due` the engine fault that the wait it has
left reports (R160, R192). `alone` is set in a thread that its meeting left behind at another blocking point (R210), `steps`
counts the clauses that it has left as a member of its lane set (R207), `issued` and `readyAt` are its partition's clause
counts when it last issued and when it last became ready (R203), and `came` holds the generations of the barrier records that
it has arrived at, span records from 16 up (R211). `flush` is set while a TLBINV of its is not complete: the peer accesses, by tag,
and the branches with held stores, by team, home warp and sequence, that came before it (R270, R322). -/
structure Thread where
  pc        : DWord
  mid       : Option (Clause × Nat)
  skip      : Nat
  released  : Bool
  refetch   : Bool
  noBreak   : Option DWord
  meet      : DWord
  mtag      : BitVec 16
  alone     : Bool
  v         : List Word
  p         : BitVec 7
  batch     : Word
  sealed    : List Word
  faults    : List PendFault
  laneSet   : Nat
  steps     : Nat
  issued    : Nat
  readyAt   : Nat
  came      : List (Nat × Word)
  wait      : Wait
  pend      : List Pend
  level     : Nat
  banks     : List Banked
  ew        : List (List DWord)
  recIdx    : Word
  delivered : Option RecSlot
  recs      : List RecSlot
  deny      : List PageKey
  due       : Option PendFault
  flush     : Option (List Nat × List (Nat × Nat × Nat))
deriving DecidableEq, Repr, Inhabited

/-- What a trap instance holds (R294, R326): the trap registers, its threads, and what ERET needs of the report. -/
structure TrapInst where
  level   : Nat
  threads : List Nat
  cause   : Nat
  defer   : Bool
  hdr     : Bool
  pos     : Nat
  epc     : DWord
  edec    : BitVec 32
  eword   : DWord
  emask   : BitVec 128
  ekill   : BitVec 128
  eskip   : BitVec 128
  frbase  : DWord
  emu     : Bool
  control : Bool
  skipTo  : Option DWord
  exec    : BitVec 128
  stop    : Option Nat
  gang    : Option Nat
deriving DecidableEq, Repr, Inhabited

/-- The warp state of R17 that a checkpoint saves (R248). -/
structure WarpRegs where
  s       : List Word
  tok     : List Nat
  shape   : BitVec 1024
  gang    : Word
  vcnt    : Word
  mprog   : Word
  comm    : Word
  crank   : Word
  cbabort : DWord
deriving DecidableEq, Repr, Inhabited

/-- A collective branch outstanding (R247): its sequence, kind and predicate, the prediction, the place of the CBR
word, the checkpoint, and the held stores in program order (R249). -/
structure Spec where
  seq     : Nat
  slot    : Nat
  pred    : Option Bool
  pd      : BitVec 3
  clause  : Clause
  aborted : Bool
  members : List Nat
  threads : List (Nat × Thread)
  regs    : WarpRegs
  held    : List (Nat × List (BitVec 8) × Nat)
deriving DecidableEq, Repr, Inhabited

/-- A home warp (R17). `unreg` holds the watches that are armed and not yet registered at their homes (R237), `clean` the
registers whose dirty bit is 0: vector registers by number, scalars from 1000 up (R212), and `trail` where the threads of a
lane set have gone at each departure that others of it have yet to make: the set, the departure, the next PC and the set that
goes there (R207). `next` is the home warp's link in the waiter chain of each record that it waits on, team records by number and
span records from 16 up (R216). -/
structure Warp where
  regs      : WarpRegs
  guards    : List Bool
  cseq      : Word
  cbstat    : Word
  wtime     : DWord
  wtcmp     : DWord
  watches   : List Loc
  unreg     : List Loc
  wake      : Bool
  insts     : List TrapInst
  spec      : Option Spec
  resident  : Bool
  since     : Nat
  clean     : List Nat
  nextSet   : Nat
  trail     : List (Nat × Nat × DWord × Nat)
  next      : Map DWord
  colls     : Nat
deriving DecidableEq, Repr, Inhabited

/-- A barrier record (R216). -/
structure BarRec where
  arrived : Word
  expect  : Word
  spanrec : Bool
  waiting : Bool
  gen     : Word
  waiters : DWord
deriving DecidableEq, Repr, Inhabited

/-- A rendezvous latch (R132): its number, by which arrivers wait for it, what it captured of its first arriver's MMA, whether that word is an instruction, whether it
is one that fails under cases 11 to 14 (R57), and the home warps that have arrived. -/
structure Latch where
  id      : Nat
  gang    : Gang
  word    : DWord
  pc      : DWord
  record  : List Word
  vcnt    : Word
  mprog   : Word
  guard   : Option (Nat × Nat)
  bad     : Option NotInstr
  control : Bool
  arrived : List Nat
deriving DecidableEq, Repr, Inhabited

/-- A team (R19). `stop` is set while its agents stop it at its clauses' ends, to migrate it (R308, R309), and `late` holds, by offset,
the bytes that engine commands have written while its scratchpad was out (R308). -/
structure Team where
  ctx       : Nat
  launch    : Nat
  node      : Option (Nat × Nat × Nat)
  agent     : Bool
  x         : Nat
  y         : Nat
  z         : Nat
  span      : Nat
  rank      : Nat
  spanSize  : Nat
  ntid      : Nat
  width     : Nat
  vregs     : Nat
  scratch   : Nat
  reslim    : Nat
  code      : DWord
  lcid      : Nat
  core      : Nat
  part      : Nat
  nrec      : Word
  recbase   : DWord
  save      : Nat
  visible   : Nat
  pad       : Memory
  padIn     : Bool
  late      : List (Nat × Byte)
  bars      : List BarRec
  spanCnt   : List Nat
  latches   : List Latch
  threads   : List Thread
  warps     : List Warp
  nextGroup : Nat
  started   : Bool
  retired   : Bool
  stop      : Bool
deriving DecidableEq, Repr, Inhabited

/-- The barrier records of a span and how many of its teams have not retired (R217). -/
structure SpanRec where
  launch : Nat
  span   : Nat
  teams  : Nat
  bars   : List BarRec
deriving DecidableEq, Repr, Inhabited

/-- An issue group (R205): the issue in which it last issued, and when it was parked, as an issue number (R206). -/
structure Group where
  team    : Nat
  num     : Nat
  threads : List Nat
  parked  : Bool
  issued  : Nat
  parkedAt : Nat
deriving DecidableEq, Repr, Inhabited

/-- A spin detector attached to a group (R218): the loop's header, the clauses of the iterations, what the last one
read and wrote, and how many in a row qualified. `sectors` are those that the loads of the present iteration touch, `armed` those
of the one before, which are watched once enough have qualified. -/
structure Spin where
  team   : Nat
  num    : Nat
  head   : DWord
  clauses : List DWord
  writes : List (Nat × Nat × Nat)
  sectors : List Loc
  armed  : List Loc
  reads  : List (Nat × Nat)
  bad    : Bool
  last   : Option (List DWord × List (Nat × Nat × Nat) × List (Nat × Nat))
  count  : Nat
deriving DecidableEq, Repr, Inhabited

/-- Why a product stopped (R144): code, address, K row, the number of the stop, and whether a trap has reported it. -/
structure BankFault where
  code : Nat
  addr : Nat
  row  : Nat
  stop : Nat
  told : Bool
deriving DecidableEq, Repr, Inhabited

/-- The captured operands of a product (R132, R141). -/
structure Product where
  gang   : Gang
  bank   : Nat
  fmt    : Nat
  record : List Word
  vm     : Nat
  vn     : Nat
  row    : Nat
  guard  : Option (Nat × Nat)
deriving DecidableEq, Repr, Inhabited

/-- An accumulator bank (R134): the gang that holds it, its words, and the fault and product it stopped with. -/
structure AccBank where
  owner : Option Gang
  words : Map Word
  fault : Option (BankFault × Product)
deriving DecidableEq, Repr, Inhabited

/-- What an accepted command of the matrix sequencer does (R129). -/
inductive SeqOp where
  | product (p : Product)
  | acz
  | acrd (team tidx key k : Nat) (w64 : Bool)
  | acwr (words : List (Nat × Word))
  | acld (cmd : Nat)
  | acst (cmd : Nat)
deriving DecidableEq, Repr, Inhabited

/-- An accepted command that is not finished, and the banks it names. -/
structure SeqCmd where
  id    : Nat
  gang  : Gang
  bank  : Nat
  count : Nat
  op    : SeqOp
deriving DecidableEq, Repr, Inhabited

/-- A spilled bank: its number, words and fault (R138). -/
structure Spill where
  gang : Gang
  bank : Nat
  acc  : AccBank
deriving DecidableEq, Repr, Inhabited

/-- A cached translation (R272): the page, the rights and format, the rights that stage 1 alone gives (R268), where its bytes
lie, the places of the leaf entries for the dirty bits (R269), and the low address bits below each leaf, so that an invalidation drops every cached page of a
larger leaf (R266, R270). -/
structure Tlb where
  part   : Nat
  pasid  : Nat
  page   : Nat
  glob   : Bool
  w      : Bool
  x      : Bool
  p      : Bool
  w1     : Bool
  x1     : Bool
  p1     : Bool
  fmt    : Nat
  geom   : Nat
  kind   : Nat
  frame  : Nat
  ipa    : Nat
  dirty  : Bool
  s1pte  : Loc
  s2pte  : Loc
  s1bits : Nat
  s2bits : Nat
deriving DecidableEq, Repr, Inhabited

/-- The four words of a machine-check bank (R327). -/
abbrev McBank := List DWord

/-- A core. `l1` and `owned` are its L1's copies and the words it owns (R167); `icache` its instruction cache; `clock` its
clock step below 2.0 GHz, `heat` its sensor's last reading, `cool` when its clock last changed (R355), `readyAt` when
it last held a ready resident warp (R224), `clauses` how many clauses each partition has started (R203), and `issuedAt` when
each last started one, or had none ready to start (R315). -/
structure Core where
  l1      : Map Byte
  owned   : List Nat
  icache  : Map DWord
  tlb     : List Tlb
  issue   : List (Option (Nat × Nat))
  banks   : List (List AccBank)
  seq     : List (List SeqCmd)
  spins   : List (List Spin)
  mc      : List McBank
  halted  : Bool
  agentUp : Bool
  clock   : Nat
  fused   : Bool
  heat    : Nat
  cool    : Nat
  readyAt : Nat
  clauses : List Nat
  issuedAt : List Nat
deriving DecidableEq, Repr, Inhabited

/-- A store or a RED that its home has not acknowledged (R167, R182): its core, thread, place and bytes. A RED has its
operation, and its bytes are its operand. -/
structure Store where
  id    : Nat
  core  : Nat
  team  : Nat
  tidx  : Nat
  pa    : Nat
  bytes : List Byte
  red   : Option Nat
deriving DecidableEq, Repr, Inhabited

/-- What an engine command moves (R194 to R202, R149, R343). An index array is kept as read, each index with its poison, none where it
could not be read. -/
inductive CmdOp where
  | cpy (dst src n : Nat)
  | cpyg (dst src idx n w : Nat) (index : Option (List (Option (Nat × Bool))))
  | cpys (dst src idx n w : Nat) (index : Option (List (Option (Nat × Bool))))
  | cpyt (out : Bool) (off : Nat) (org : List Int) (m n : Nat) (shape : BitVec 1024)
  | walk (desc : Nat) (words : List Nat) (hop cur : Nat)
  | acld (src bank count core part : Nat)
  | acst (bank vm vn addr stride fmt core part : Nat)
  | coll (slot k rank : Nat)
deriving DecidableEq, Repr, Inhabited

/-- An engine command issued and not complete: its thread or warp, the batches it joined, its rights, the guard it waits
on, its sync word, the pieces still to move, the bytes of 8-byte units that it has read for more than one
piece, each with its poison (R161), the pages refused to it (R276), and its first fault. -/
structure Cmd where
  id    : Nat
  team  : Nat
  warp  : Nat
  lead  : Nat
  joins : List (Nat × Word)
  pc    : DWord
  priv  : Bool
  guard : Option Nat
  sync  : Option Nat
  op    : CmdOp
  todo  : List Nat
  units : List (Loc × Byte × Bool)
  deny  : List PageKey
  fault : Option (Nat × Nat × Bool)
deriving DecidableEq, Repr, Inhabited

/-- How the bytes of a load become a result: their number, SX, TYPE of a typed load, the page's FMT, and the bits of
the named registers that stay as they are (R177 to R179). -/
structure LoadHow where
  len   : Nat
  sx    : Bool
  ty    : Option (BitVec 4)
  fmt   : Nat
  upper : Nat
deriving DecidableEq, Repr, Inhabited

/-- What the answer of a peer is for: the bytes of an element or an old value; the scale byte of a load, whose element is
at another place of a peer or has been read; the scale byte of a typed store, of TYPE and a value; a shape record; or 8 bytes
that a walk, an engine, a product or a fetch reads (R87, R189, R335), which are not kept where they were asked for before an
invalidation or an ICFENCE (R169, R270). The stores and the records of one issue are answered together: `got` is what has come
of them. -/
inductive PeerRole where
  | bytes
  | scale (elem : Option Nat) (near : List Byte)
  | store (fmt : Nat) (ty : BitVec 4) (value : Nat) (elem : Loc) (sc : Option Loc) (got : Option Byte)
  | shape (warp : Nat) (threads : List Nat) (got : Option (BitVec 1024))
  | data (key : PageKey) (stale : Bool)
deriving DecidableEq, Repr, Inhabited

/-- A load, store or atomic sent to a peer and not answered (R335): the thread, the result it fills, whether the thread
stands at BP-REMOTE for it, whether it is a synchronising store (R165), and the engine command that sent it, 0 where a
thread did (R160). `pa` is the address asked for. -/
structure PeerReq where
  tag   : Nat
  pa    : Nat
  team  : Nat
  tidx  : Nat
  key   : Nat
  how   : LoadHow
  scale : Byte
  waits : Bool
  sync  : Bool
  cmd   : Nat
  role  : PeerRole
deriving DecidableEq, Repr, Inhabited

/-- 8 bytes of another chip's memory as they came for what asked for them, and whether they are poisoned (R314, R335). -/
structure Far where
  key   : PageKey
  bytes : List Byte
  bad   : Bool
deriving DecidableEq, Repr, Inhabited

/-- An entry of a merge table (R273): the page, its die, the context and access of the first miss, and whether its
fault-queue record is written. `mig` marks the entry of a page found due to migrate, which is not the driver's to answer (R277). -/
structure Merge where
  die   : Nat
  key   : PageKey
  ctx   : Nat
  exec  : Bool
  write : Bool
  mig   : Bool
  sent  : Bool
deriving DecidableEq, Repr, Inhabited

/-- The record of a context (R261) and its CSRs of context scope (R325). -/
structure Ctx where
  valid    : Bool
  pasid    : Nat
  part     : Nat
  s1root   : Nat
  scb      : Nat
  savebase : Nat
  savesize : Nat
  wtbase   : Nat
  wwt      : Nat
  spwbase  : Nat
  trapvec  : DWord
  emuvec   : DWord
  emustk   : DWord
  spinn    : Nat
  bkpt     : List DWord
  windows  : List (Nat × Nat × Nat × Bool)
  failed   : Option Nat
  out      : List Nat
deriving DecidableEq, Repr, Inhabited

/-- A launch accepted from a packet (R28, R223, R284): its packet's place, the descriptor, the parameters, the counts, its
teams, and the spans claimed with the die that claimed each. -/
structure Launch where
  ctx     : Nat
  iface   : Nat
  index   : Nat
  graph   : Option Nat
  desc    : List DWord
  param   : Nat
  nx      : Nat
  ny      : Nat
  nz      : Nat
  size    : Nat
  nspan   : Nat
  ticket  : Nat
  pool    : Nat
  poolLen : Nat
  fuse    : Bool
  claimed : List (Nat × Nat)
  retired : Nat
  done    : Bool
deriving DecidableEq, Repr, Inhabited

/-- The state of a record slot (R227). -/
inductive SlotState where
  | allocated
  | committed (time order : Nat)
  | delivered
deriving DecidableEq, Repr, Inhabited

/-- A node of a graph (R226). -/
structure GNode where
  desc     : List DWord
  recsz    : Nat
  maxdepth : Nat
  timer    : Nat
  cap      : Nat
  group    : Nat
  succ     : List Nat
  base     : Nat
deriving DecidableEq, Repr, Inhabited

/-- A stage graph: its nodes, and the slots that are not free, by node, level and slot (R227). `due` holds the
launches that the doser has made due and no agent has claimed: node, level and records (R228); `taken` those claimed
and not started. -/
structure Graph where
  launch : Nat
  qbase  : Nat
  nodes  : List GNode
  sig    : Nat
  slots  : List (RecSlot × SlotState)
  order  : Nat
  due    : List (Nat × Nat × List Nat)
  taken  : List (Nat × Nat × List Nat)
  done   : Bool
deriving DecidableEq, Repr, Inhabited

/-- A remap entry (R288). -/
structure Remap where
  word  : DWord
  pdesc : DWord
deriving DecidableEq, Repr, Inhabited

/-- A packet begun and not complete (R284): its index and words, its launch, and the status that waits for the page of
its completion word (R285). -/
structure Packet where
  index  : Nat
  words  : List DWord
  ctx    : Nat
  launch : Option Nat
  status : Option Nat
deriving DecidableEq, Repr, Inhabited

/-- A queue interface (R281, R282). `begun` holds packets begun and not complete; `ahead` packets read ahead (R225);
`blocked` is set while a WAIT packet holds the queue, and `waits` names the pages that its next packet waits for (R286). `since`
holds how many of the packets left were announced at each time, oldest first (R282). -/
structure Iface where
  szlog   : Nat
  owner   : Nat
  en      : Bool
  ring    : Nat
  head    : Nat
  tail    : Nat
  prio    : Nat
  errvec  : Nat
  timer   : Nat
  count   : Nat
  errcode : Nat
  err     : Bool
  halt    : Bool
  erridx  : Nat
  remap   : List Remap
  counts  : List Nat
  starts  : List (Option Nat)
  begun   : List Packet
  ahead   : List (Nat × List DWord)
  blocked : Bool
  since   : List (Nat × Nat)
  aged    : Bool
  waits   : List PageKey
deriving DecidableEq, Repr, Inhabited

/-- A device partition's block (R264): its registers, the frames its pool has given out, and the TYPE 1 and 2 records that
wait for room in the fault queue (R275, R277). -/
structure Part where
  clusters : Nat
  l2ways   : Nat
  s2root   : Nat
  poolbase : Nat
  poolsize : Nat
  popped   : Nat
  poolOpen : Bool
  told     : Bool
  recs     : List (Nat × Nat × Nat)
  fqbase   : Nat
  fqlog    : Nat
  fqhead   : Word
  fqtail   : Word
  pdaddr   : Nat
deriving DecidableEq, Repr, Inhabited

/-- The remaining registers of BAR0 (R264, R336, R359), and what bring-up set: the images as loaded (R293), the migration
threshold (R309), the power limit, how many clock steps power now costs every core (R353), the last readings of the sensors
from 192 up (R355), the chips that no link reaches (R358), and what the last invalidation still waits for: peer accesses by
their tags, and branches whose held stores it must outlast, by team, home warp and sequence (R270). -/
structure Mgmt where
  dfeat    : DWord
  images   : List (Nat × List Byte)
  hotAt    : Nat
  watts    : Nat
  cut      : Nat
  temps    : Map Nat
  down     : List Nat
  drvfeat  : List DWord
  ctxtab   : Nat
  ctx      : Nat
  ctxOp    : Nat
  ctxRes   : Nat
  ctxBusy  : Bool
  inv      : Option DWord
  invDone  : Bool
  invTags  : List Nat
  invHeld  : List (Nat × Nat × Nat)
  comm     : Nat
  commOp   : Nat
  commRes  : Nat
  commBusy : Bool
  commSince : Nat
  commtab  : Nat
  err      : Nat
  tsync    : Bool
  stage    : Nat
  ready    : Bool
  msix     : Map DWord
  pending  : DWord
  chip     : Nat
  smbus    : BitVec 7
deriving DecidableEq, Repr, Inhabited

/-- A message to the fabric: of the agreement on VC 15 (R345), of an operation that a rank has issued (R341), a chunk, or a peer
access. `withdrawn` tells a chip that a rank has withdrawn from a sequence; it arrives there as a contribution without a value. -/
inductive FMsg where
  | join (ftag : Nat)
  | notopen (ftag : Nat)
  | joinAck (ftag chip : Nat)
  | contribution (ftag seq lo hi : Nat) (isAny : Bool) (value : Option Bool) (isPart : Bool)
  | abort (ftag seq : Nat)
  | decision (ftag seq : Nat) (outcome : BitVec 3) (isPart : Bool) (chip : Nat)
  | cbar (ftag k rank : Nat) (sig : OpSig) (chip : Nat)
  | withdrawn (ftag seq rank chip : Nat)
  | chunk (ftag k chunk rank : Nat) (sig : OpSig) (bytes : List (Byte × Bool))
  | mreq (tag pa : Nat) (op : PeerOp)
  | mrsp (chip tag : Nat) (bytes : List Byte) (poison : Bool)
deriving DecidableEq, Repr, Inhabited

/-- What is known of one sequence of a communicator: contributions by rank range, and the decision (R345). -/
structure Agree where
  seq     : Nat
  parts   : List (Nat × Nat × Bool × Option Bool × Bool)
  outcome : Option (BitVec 3 × Bool)
deriving DecidableEq, Repr, Inhabited

/-- A data collective or CBAR of one rank (R343): what it must agree in, its record, the command that waits for it, the
source as it stood at issue, each byte with its poison, the chunks whose bytes have been sent, and whether its own part is over. -/
structure CollOp where
  rank  : Nat
  k     : Nat
  sig   : OpSig
  src   : Nat
  dst   : Nat
  cmd   : Nat
  bytes : Option (List (Byte × Bool))
  aged  : Bool
  told  : List Nat
  ended : Bool
deriving DecidableEq, Repr, Inhabited

/-- A rank that this chip holds: the home warp bound to it and the first sequence it has withdrawn from (R340, R345). -/
structure Rank where
  rank : Nat
  team : Nat
  warp : Nat
  gone : Option Nat
deriving DecidableEq, Repr, Inhabited

/-- An open communicator slot (R337). `held` are messages kept off the fabric until a JOIN is acknowledged, `sent` those
sent since, which a NOTOPEN can give back (R339), `cbars` the operations that other ranks have issued, `past` those over on this
chip that some other rank has yet to issue (R341), and `told` whether this chip has been told of a withdrawal (R347). -/
structure Comm where
  slot    : Nat
  id      : Nat
  ctx     : Nat
  pri     : Bool
  ftag    : Nat
  nrank   : Nat
  rbase   : Nat
  rcnt    : Nat
  map     : List (Nat × Nat)
  acked   : Bool
  joined  : List Nat
  held    : List FMsg
  sent    : List FMsg
  ranks   : List Rank
  agree   : List Agree
  ops     : List CollOp
  cbars   : List (Nat × Nat × OpSig)
  past    : List (Nat × OpSig)
  told    : Bool
  failed  : Bool
  joinAt  : Nat
deriving DecidableEq, Repr, Inhabited

/-- An algorithm that Cloper offers (R292). -/
inductive Alg where
  | ed25519
  | sha512
deriving DecidableEq, Repr, Inhabited

/-- What the outside sees and no register holds. -/
inductive Out where
  | msix (entry : Nat)
  | machineCheck (core : Nat)
  | fabric (m : FMsg)
  | hostData (bytes : List Byte) (poison : Bool)
  | cxlError
  | register (bar off : Nat) (value : DWord)
  | answer (via : Transport) (kind : Nat) (bytes : List Byte)
  | offer (via : Transport) (sign hash : List Alg)
  | sensor (via : Transport) (id value : Nat)
  | config (off : Nat) (value : BitVec 32)
  | configDone (off : Nat)
deriving DecidableEq, Repr, Inhabited

/-- Who moves next (the guide's agenda; the model's own, log entry 1). -/
inductive Move where
  | event (i : Instr)
  | issue (core part : Nat)
  | resume (team num : Nat)
  | merge (team a b : Nat)
  | elapse (ns : Nat)
  | evict (core line : Nat)
  | codeEvict (core line : Nat)
  | tlbEvict (core page : Nat)
  | l2Evict (die page : Nat)
  | readAhead (q : Nat)
  | hostRead (bar off : Nat)
  | hostWrite (pasid addr : Nat) (bytes : List Byte)
  | hostMap (pasid page : Nat) (ok : Bool)
  | configRead (off : Nat)
  | configWrite (off : Nat) (v : BitVec 32)
deriving DecidableEq, Repr, Inhabited

/-- The machine. `poison` lists the poisoned bytes (R314), `hostBad` the host pages, by PASID and number, that the IOMMU
does not translate, `ats` those whose ATS translation is cached (R280), and `l2tlb` each die's L2 TLB (R272). `deny` and `hit` are the model's own: the absent pages that an access now tried finds refused, and
whether it met one (R276). -/
structure State where
  turn     : Nat × Nat
  teams    : List Team
  spans    : List SpanRec
  groups   : List Group
  issueNo  : Nat
  cores    : List Core
  spilled  : List Spill
  cmds     : List Cmd
  stores   : List Store
  peers    : List PeerReq
  far      : List Far
  mem      : Memory
  poison   : List Loc
  hostMem  : Memory
  hostBad  : List (Nat × Nat)
  ats      : List (Nat × Nat)
  l2tlb    : List (List Tlb)
  merges   : List Merge
  ctxs     : List Ctx
  launches : List Launch
  graphs   : List Graph
  mgmt     : Mgmt
  parts    : List Part
  ifaces   : List Iface
  comms    : List Comm
  clk      : Nat
  power    : Nat
  out      : List Out
  agenda   : List Move
  nextId   : Nat
  deny     : List PageKey
  hit      : Bool
deriving DecidableEq, Repr, Inhabited

/-! ### Why a step can stop -/

/-- Faults of the model. -/
inductive Fault where
  /-- Raised by the meaning of a word when no issue group stands at a word in the partition whose turn it is. Safe:
  the step never runs a word there, and the manual gives a word no meaning outside an issue (R36). -/
  | noIssue
deriving DecidableEq, Repr, Inhabited

/-- Refusals of the model. -/
inductive Refusal where
  /-- Raised by an arm of `exec` whose instruction has no meaning yet. Safe: nothing is claimed of it. -/
  | notModelled (mnemonic : String)
deriving DecidableEq, Repr, Inhabited

/-! ### Reset -/

/-- A barrier record that expects n arrivals (R217). -/
def BarRec.start (spanrec : Bool) (n : Nat) : BarRec :=
  { arrived := 0, expect := BitVec.ofNat 32 n, spanrec, waiting := false, gen := 0, waiters := 0 }

/-- An unallocated bank (R23). -/
def AccBank.reset : AccBank := { owner := none, words := [], fault := none }

/-- A core after module reset (R6, R355, R358). -/
def Core.reset : Core :=
  { l1 := [], owned := [], icache := [], tlb := [], issue := List.replicate 4 none,
    banks := List.replicate 4 (List.replicate 16 AccBank.reset), seq := List.replicate 4 [],
    spins := List.replicate 4 [], mc := List.replicate 4 [0, 0, 0, 0], halted := false, agentUp := false,
    clock := 0, fused := false, heat := 0, cool := 0, readyAt := 0,
    clauses := [0, 0, 0, 0], issuedAt := [0, 0, 0, 0] }

/-- A context that has not been created (R261, R325). -/
def Ctx.reset : Ctx :=
  { valid := false, pasid := 0, part := 0, s1root := 0, scb := 0, savebase := 0, savesize := 0, wtbase := 0,
    wwt := 0, spwbase := 0, trapvec := 0, emuvec := 0, emustk := 0, spinn := 8, bkpt := [0, 0, 0, 0], windows := [],
    failed := none, out := [] }

/-- An interface after reset (R281, R282). -/
def Iface.reset : Iface :=
  { szlog := 0, owner := 0, en := false, ring := 0, head := 0, tail := 0, prio := 0, errvec := 3, timer := 20,
    count := 4, errcode := 0, err := false, halt := false, erridx := 0,
    remap := List.replicate 4 { word := 0, pdesc := 0 }, counts := [0, 0, 0, 0],
    starts := [none, none, none, none], begun := [], ahead := [], blocked := false, since := [], aged := false, waits := [] }

/-- A partition block after reset: the configuration image gives partition 0 every cluster and way (R264). -/
def Part.reset (first : Bool) : Part :=
  { clusters := if first then 0xFFFFFF else 0, l2ways := if first then 0xFFFF else 0, s2root := 0, poolbase := 0,
    poolsize := 0, popped := 0, poolOpen := false, told := false, recs := [], fqbase := 0, fqlog := 0, fqhead := 0, fqtail := 0,
    pdaddr := 0 }

/-- The management registers after reset (R264, R336, R359). -/
def Mgmt.reset : Mgmt :=
  { dfeat := Config.dfeat0, images := [], hotAt := 95, watts := 3600, cut := 0, temps := [], down := [],
    drvfeat := [0, 0, 0, 0], ctxtab := 0, ctx := 0, ctxOp := 0, ctxRes := 0, ctxBusy := false, inv := none, invDone := false, invTags := [], invHeld := [],
    comm := 0, commOp := 0, commRes := 0, commBusy := false, commSince := 0, commtab := 0, err := 0, tsync := false, stage := 0,
    ready := false, msix := [], pending := 0, chip := 0, smbus := 0x4E }

/-- The machine right after module reset (R357 to R361): no context, no team, memory zero, CLK 0, bring-up before its
first stage. -/
def State.reset : State :=
  { turn := (0, 0), teams := [], spans := [], groups := [], issueNo := 0,
    cores := List.replicate Config.cores Core.reset, spilled := [], cmds := [], stores := [], peers := [], far := [], mem := [],
    poison := [], hostMem := [], hostBad := [], ats := [], l2tlb := List.replicate 4 [], merges := [], ctxs := List.replicate Config.contexts Ctx.reset, launches := [],
    graphs := [], mgmt := Mgmt.reset, parts := Part.reset true :: List.replicate 7 (Part.reset false),
    ifaces := List.replicate Config.interfaces Iface.reset, comms := [], clk := 0, power := 0, out := [],
    agenda := [], nextId := 1, deny := [], hit := false }

end Sys2Proof.Machine
end

