-- ==== Sys2Proof/Machine/Base.lean ====
section
/-! DEFINITION. Access to the state by name: maps, teams, warps and threads; ready threads and their groups (R205 to
R210). -/

namespace Sys2Proof.Machine

open Sys2Proof

/-! ### Maps in canonical form -/

/-- What a key reads as; an unlisted key reads as `d`. -/
def mget (d : β) : Map β → Nat → β
  | [], _ => d
  | (k, v) :: r, a => if k = a then v else mget d r a

/-- Set a key: the list keeps its keys rising, and a value equal to the default removes the entry. -/
def mset [DecidableEq β] (d : β) : Map β → Nat → β → Map β
  | [], a, v => if v = d then [] else [(a, v)]
  | (k, w) :: r, a, v =>
    if a < k then (if v = d then (k, w) :: r else (a, v) :: (k, w) :: r)
    else if a = k then (if v = d then r else (a, v) :: r)
    else (k, w) :: mset d r a v

/-- The canonical form above a key. -/
def mwfFrom [DecidableEq β] (d : β) : Nat → Map β → Bool
  | _, [] => true
  | lo, (k, v) :: r => decide (lo ≤ k) && decide (v ≠ d) && mwfFrom d (k + 1) r

/-- The canonical form: keys strictly rising, no entry equal to the default. -/
def mwf [DecidableEq β] (d : β) (m : Map β) : Bool := mwfFrom d 0 m

/-- What an unlisted address of device memory reads as: R358 writes every sector with zeros. -/
abbrev memDefault : Byte := 0

/-- The canonical form of memory. -/
def Memory.wf (m : Memory) : Bool := mwf memDefault m
/-- Read one byte of memory. -/
def Memory.read (m : Memory) (a : Nat) : Byte := mget memDefault m a
/-- Write one byte of memory. -/
def Memory.write (m : Memory) (a : Nat) (b : Byte) : Memory := mset memDefault m a b
/-- Read n bytes from an address up. -/
def Memory.readN (m : Memory) (a : Nat) : Nat → List Byte
  | 0 => []
  | n + 1 => m.read a :: Memory.readN m (a + 1) n
/-- The entries that bytes from an address up make: none for a byte that reads as the default. -/
def cellsAt (a : Nat) : List Byte → Memory
  | [] => []
  | b :: r => if b = memDefault then cellsAt (a + 1) r else (a, b) :: cellsAt (a + 1) r
/-- Write bytes from an address up: the entries below them, their own, and the entries above. -/
def Memory.writeN : Memory → Nat → List Byte → Memory
  | [], a, bs => cellsAt a bs
  | (k, v) :: r, a, bs =>
    if k < a then (k, v) :: Memory.writeN r a bs
    else cellsAt a bs ++ ((k, v) :: r).dropWhile fun c => decide (a ≤ c.1) && decide (c.1 < a + bs.length)

/-- Insert into a list before the first element that is not less. -/
def insertBy (le : α → α → Bool) (a : α) : List α → List α
  | [] => [a]
  | b :: r => if le a b then a :: b :: r else b :: insertBy le a r
/-- Sort a list; equal elements keep their order. -/
def isort (le : α → α → Bool) (l : List α) : List α := l.foldr (insertBy le) []
/-- Sort numbers, lowest first. -/
def nsort (l : List Nat) : List Nat := isort (fun (a b : Nat) => decide (a ≤ b)) l

/-! ### Cores, contexts, teams, warps, threads -/

/-- The state with one core changed. -/
def State.modCore (s : State) (c : Nat) (f : Core → Core) : State := { s with cores := s.cores.modify c f }
/-- A core. -/
def State.core (s : State) (c : Nat) : Core := s.cores.getD c default
/-- The state with one context changed. -/
def State.modCtx (s : State) (c : Nat) (f : Ctx → Ctx) : State := { s with ctxs := s.ctxs.modify c f }
/-- A context. -/
def State.ctx (s : State) (c : Nat) : Ctx := s.ctxs.getD c default
/-- The state with one team changed. -/
def State.modTeam (s : State) (t : Nat) (f : Team → Team) : State := { s with teams := s.teams.modify t f }
/-- A team. -/
def State.team (s : State) (t : Nat) : Team := s.teams.getD t default
/-- The state with one thread changed. -/
def State.modThread (s : State) (t i : Nat) (f : Thread → Thread) : State :=
  s.modTeam t fun m => { m with threads := m.threads.modify i f }
/-- A thread. -/
def State.thread (s : State) (t i : Nat) : Thread := (s.team t).threads.getD i default
/-- The state with one home warp changed. -/
def State.modWarp (s : State) (t w : Nat) (f : Warp → Warp) : State :=
  s.modTeam t fun m => { m with warps := m.warps.modify w f }
/-- A home warp. -/
def State.warp (s : State) (t w : Nat) : Warp := (s.team t).warps.getD w default
/-- The context of a team. -/
def State.ctxOf (s : State) (t : Nat) : Ctx := s.ctx (s.team t).ctx
/-- The state with one interface changed. -/
def State.modIface (s : State) (q : Nat) (f : Iface → Iface) : State := { s with ifaces := s.ifaces.modify q f }
/-- An interface. -/
def State.iface (s : State) (q : Nat) : Iface := s.ifaces.getD q default
/-- The state with one partition block changed. -/
def State.modPart (s : State) (p : Nat) (f : Part → Part) : State := { s with parts := s.parts.modify p f }
/-- A partition block. -/
def State.partOf (s : State) (p : Nat) : Part := s.parts.getD p default
/-- The state with one launch changed. -/
def State.modLaunch (s : State) (l : Nat) (f : Launch → Launch) : State := { s with launches := s.launches.modify l f }
/-- A launch. -/
def State.launch (s : State) (l : Nat) : Launch := s.launches.getD l default
/-- The state with one graph changed. -/
def State.modGraph (s : State) (g : Nat) (f : Graph → Graph) : State := { s with graphs := s.graphs.modify g f }
/-- A graph. -/
def State.graph (s : State) (g : Nat) : Graph := s.graphs.getD g default
/-- A message to the outside. -/
def State.emit (s : State) (o : Out) : State := { s with out := s.out ++ [o] }
/-- A fresh number for an object in flight. -/
def State.fresh (s : State) : Nat × State := (s.nextId, { s with nextId := s.nextId + 1 })

/-- Home lane (R14). -/
def Team.hlane (m : Team) (i : Nat) : Nat := i % m.width
/-- Home warp (R14). -/
def Team.warpOf (m : Team) (i : Nat) : Nat := i / m.width
/-- Number of home warps (R19). -/
def Team.nWarps (m : Team) : Nat := m.warps.length
/-- The TIDX values of a home warp's threads that exist (R19). -/
def Team.members (m : Team) (w : Nat) : List Nat :=
  ((List.range m.width).map (fun h => w * m.width + h)).filter (fun i => decide (i < m.threads.length))
/-- A die's number of a core (R352). -/
def dieOf (core : Nat) : Nat := core / 48
/-- The core of a fused cluster whose slice holds the line of an address (R155). -/
def l1Slice (pa : Nat) : Nat := ((pa / 2 ^ 7) ^^^ (pa / 2 ^ 10) ^^^ (pa / 2 ^ 13)) % 8
/-- The core whose L1 holds the line of an address for a core: its own, or in fused mode its cluster's slice (R155). -/
def State.l1Of (s : State) (c pa : Nat) : Nat := if (s.core c).fused then c / 8 * 8 + l1Slice pa else c
/-- The cores whose L1s act as the L1 of a core: its own, or in fused mode its cluster's eight slices (R155, R167). -/
def State.l1s (s : State) (c : Nat) : List Nat :=
  if (s.core c).fused then (List.range 8).map (c / 8 * 8 + ·) else [c]

/-- Whether a thread is in handler mode (R299). -/
def Thread.handler (x : Thread) : Bool := decide (0 < x.level)
/-- Whether a thread may do what handler mode or the agent slot may (R55, R299). -/
def State.privileged (s : State) (t i : Nat) : Bool := (s.thread t i).handler || (s.team t).agent

/-- The trap instance of a home warp at a nesting level. -/
def State.inst (s : State) (t w level : Nat) : Option TrapInst :=
  (s.warp t w).insts.find? (fun x => x.level = level)
/-- Change the trap instance of a home warp at a level. -/
def State.modInst (s : State) (t w level : Nat) (f : TrapInst → TrapInst) : State :=
  s.modWarp t w fun x => { x with insts := x.insts.map fun y => if y.level = level then f y else y }

/-! ### Waiting -/

/-- Whether a thread stands at a blocking point of R31 (R18). A thread queued for a trap level, or standing at its
word for a result, does not (R36, R300). -/
def Wait.blocking : Wait → Bool
  | .ready | .exited | .trapLevel => false
  | _ => true

/-- Whether a home warp is an eviction candidate (R211). -/
def State.candidate (s : State) (t w : Nat) : Bool :=
  (s.warp t w).resident && ((s.team t).members w).all fun i =>
    let x := (s.thread t i).wait
    x.blocking || x == .exited

/-- Whether a non-resident home warp is runnable (R211): some thread is neither blocked nor exited. -/
def State.runnable (s : State) (t w : Nat) : Bool :=
  !(s.warp t w).resident && ((s.team t).members w).any fun i =>
    let x := (s.thread t i).wait
    !x.blocking && x != .exited

/-! ### Issue groups (R205, R206) -/

/-- What the threads of one group share: the next header, or the clause and position they stand at inside it, the trap
level, whether the wait of their word has ended, and the pages refused to it. -/
def Thread.place (x : Thread) : DWord × Option (DWord × Nat) × Nat × Bool × List PageKey :=
  (x.pc, x.mid.map (fun m => (m.1.addr, m.2)), x.level, x.released, x.deny)

/-- A group number that no live group of the team has (R208), counting up from the team's last. -/
def freshNum (used : List Nat) : Nat → Nat → Nat
  | 0, n => n % 65536
  | k + 1, n => if used.contains (n % 65536) then freshNum used k (n + 1) else n % 65536

/-- Groups in one partition's formation table (R205). -/
def State.tableSize (s : State) (core part : Nat) : Nat :=
  (s.groups.filter fun g => !g.parked && (s.team g.team).core == core && (s.team g.team).part == part).length

/-- Put threads in a group of their own, which last issued when they did (R205). With 64 entries taken it is parked (R206). -/
def State.addGroup (s : State) (t : Nat) (issued : Nat) (is : List Nat) : State :=
  let m := s.team t
  let used := (s.groups.filter (fun g => g.team = t)).map Group.num
  let n := freshNum used used.length m.nextGroup
  let g : Group := { team := t, num := n, threads := is, parked := decide (64 ≤ s.tableSize m.core m.part),
                     issued, parkedAt := s.issueNo }
  { s.modTeam t (fun m => { m with nextGroup := (n + 1) % 65536 }) with groups := s.groups ++ [g] }

/-- Take threads out of their groups. -/
def State.ungroup (s : State) (t : Nat) (is : List Nat) : State :=
  let cut := fun (g : Group) =>
    if g.team = t then { g with threads := g.threads.filter (fun i => !is.contains i) } else g
  { s with groups := (s.groups.map cut).filter (fun g => !g.threads.isEmpty) }

/-- Gather threads by a key, in their order. -/
def gather [BEq κ] (key : Nat → κ) : List Nat → List (List Nat)
  | [] => []
  | i :: r =>
    let gs := gather key r
    let same := fun (g : List Nat) => match g with | j :: _ => key j == key i | [] => false
    match gs.find? same with
    | some _ => gs.map fun g => if same g then i :: g else g
    | none => [i] :: gs

/-- The order in which new groups take entries: where these run out, the smallest are parked, the higher PC first (R206). -/
def State.entryFirst (s : State) (t : Nat) (a b : List Nat) : Bool :=
  decide (b.length < a.length) || (a.length == b.length &&
    decide ((s.thread t (a.headD 0)).pc.toNat ≤ (s.thread t (b.headD 0)).pc.toNat))
/-- How many clauses the partition of a team has started (R203). -/
def State.clauseCount (s : State) (t : Nat) : Nat := (s.core (s.team t).core).clauses.getD (s.team t).part 0

/-- Place every ready thread of a team whose home warp is resident and that stands in no group into a group with the
threads of its home warp at the same place (R205). It is ready from now on (R203). -/
def State.regroup (s : State) (t : Nat) : State :=
  let m := s.team t
  let taken := (s.groups.filter (fun g => g.team = t)).flatMap Group.threads
  let free := (List.range m.threads.length).filter fun i =>
    (s.thread t i).wait == .ready && (s.warp t (m.warpOf i)).resident && !taken.contains i
  let n := s.clauseCount t
  let s := free.foldl (fun (s : State) (i : Nat) => s.modThread t i fun x => { x with readyAt := n }) s
  (isort (s.entryFirst t) (gather (fun i => (m.warpOf i, (s.thread t i).place)) free)).foldl (fun s is =>
    s.addGroup t ((is.map fun i => (s.thread t i).issued).foldl max 0) is) s

/-- The threads of a group have left a word: the group splits into one for each place at which they now stand (R205). -/
def State.resplit (s : State) (t num : Nat) : State :=
  match s.groups.find? fun g => g.team == t && g.num == num with
  | none => s
  | some g =>
    match gather (fun i => (s.thread t i).place) g.threads with
    | [] | [_] => s
    | parts =>
      let s := { s with groups := s.groups.filter fun e => !(e.team == t && e.num == num) }
      (isort (s.entryFirst t) parts).foldl (fun s is => s.addGroup t g.issued is) s

/-! ### Meetings (R208 to R210) -/

/-- The meeting values of a thread at a level, if its nesting reaches it (R209), and whether its meeting has left it behind
(R210). -/
def Thread.meetAt (x : Thread) (level : Nat) : Option (DWord × BitVec 16 × Bool) :=
  if x.level = level then some (x.meet, x.mtag, x.alone)
  else match x.banks[level]? with
    | some b => if level < x.level then some (b.meet, b.mtag, b.alone) else none
    | none => none
/-- A thread is left behind by the meeting of a level. -/
def Thread.leftBehind (x : Thread) (level : Nat) : Thread :=
  if x.level = level then { x with alone := true }
  else { x with banks := x.banks.modify level fun b => { b with alone := true } }

/-- The meeting set of a held thread: the threads of its team with its MEET and MTAG that have not been released; in handler
mode, those of its trap instance (R209, R300). A thread that its meeting has left behind forms a set alone (R210). -/
def State.meetSet (s : State) (t i : Nat) : List Nat :=
  let m := s.team t
  let x := s.thread t i
  let pool := if x.alone then [i]
    else if x.level = 0 then List.range m.threads.length
    else match s.inst t (m.warpOf i) x.level with
      | some y => y.threads
      | none => [i]
  pool.filter fun j => i == j || (s.thread t j).meetAt x.level == some (x.meet, x.mtag, false)

/-- Whether a held thread is released: every other thread of its set is held, exited or at another blocking point
(R210). A thread nested deeper counts by its handler's wait (R209). -/
def State.meetDone (s : State) (t i : Nat) : Bool :=
  (s.meetSet t i).all fun j => i == j || (s.thread t j).wait.blocking || (s.thread t j).wait == .exited

/-- Threads leave their waits, changed by `f`. A home warp that is out and comes to be runnable by it counts as runnable from
now (R211). -/
def State.wake (s : State) (t : Nat) (is : List Nat) (f : Thread → Thread) : State :=
  let ws := ((is.map (s.team t).warpOf).eraseDups).filter fun w => !(s.warp t w).resident && !s.runnable t w
  let s := is.foldl (fun (s : State) (i : Nat) => s.modThread t i fun x => { f x with wait := .ready }) s
  ws.foldl (fun (s : State) (w : Nat) => s.modWarp t w fun x => { x with since := s.clk }) s

/-- Release the held threads of one meeting set: MEET becomes 1, those of one home warp join one lane set, and the threads of
the set that stand at other blocking points are left behind (R207, R210). A thread released alone in its home warp joins
nothing, and keeps its lane set: only a word that threads leave for different next PCs splits one. DEDUCED, log entry 17. -/
def State.meetRelease (s : State) (t i : Nat) : State :=
  let m := s.team t
  let x := s.thread t i
  let (held, rest) := (s.meetSet t i).partition fun j => (s.thread t j).wait == .meet && (s.thread t j).level == x.level
  let ws := (held.map m.warpOf).eraseDups
  let s := rest.foldl (fun (s : State) (j : Nat) => s.modThread t j fun y => y.leftBehind x.level) s
  let s := ws.foldl (fun (s : State) (w : Nat) =>
    let n := (s.warp t w).nextSet
    let now := held.filter fun j => m.warpOf j == w
    let joins := fun (y : Thread) => y.level == 0 && decide (1 < now.length)
    s.wake t now fun y =>
      { y with meet := 1, alone := false, released := false, laneSet := if joins y then n else y.laneSet,
               steps := if joins y then 0 else y.steps }) s
  ws.foldl (fun s w => s.modWarp t w fun y => { y with nextSet := y.nextSet + 1 }) s

/-- Release every meeting of a team that can be released as the state stands, then group its ready threads. -/
def State.tidy (s : State) (t : Nat) : State :=
  let done := (List.range (s.team t).threads.length).filter fun i =>
    (s.thread t i).wait == .meet && s.meetDone t i
  let s := done.foldl (fun s i => if (s.thread t i).wait == .meet then s.meetRelease t i else s) s
  s.regroup t

/-- Note when a home warp came to stand wholly at blocking points (R211). -/
def State.noteBlocked (s : State) (t w : Nat) : State :=
  if s.candidate t w then s.modWarp t w fun x => { x with since := s.clk } else s

/-- A thread enters a wait: it leaves its group (R36). -/
def State.block (s : State) (t i : Nat) (w : Wait) : State :=
  let s := s.modThread t i fun x => { x with wait := w, released := false }
  (s.ungroup t [i]).noteBlocked t ((s.team t).warpOf i)

/-- Threads leave their waits; `released` says that the wait of their word has ended, so that the word completes;
otherwise the word is tried again (R36). -/
def State.unblock (s : State) (t : Nat) (is : List Nat) (released : Bool) : State :=
  (s.wake t is fun x => { x with released }).tidy t

/-- Threads of a team whose wait meets a test. -/
def State.waiting (s : State) (t : Nat) (p : Nat → Wait → Bool) : List Nat :=
  (List.range (s.team t).threads.length).filter fun i => p i (s.thread t i).wait

/-- Over every team of the machine, threads whose wait meets a test leave it. -/
def State.wakeAll (s : State) (released : Bool) (p : State → Nat → Nat → Wait → Bool) : State :=
  (List.range s.teams.length).foldl (fun s t =>
    let is := s.waiting t (fun i w => p s t i w)
    if is.isEmpty then s else s.unblock t is released) s

end Sys2Proof.Machine
end

