-- ==== Sys2Proof/Machine/Walk.lean ====
section
/-! DEFINITION. The physical regions (R265), the page tables of both stages and their walks (R266 to R268, R277), the span
windows (R174), and the place that an address names. Nothing here changes the state. -/

namespace Sys2Proof.Machine

open Sys2Proof

/-- Bits hi down to lo of a number. -/
def bits (v hi lo : Nat) : Nat := v / 2 ^ lo % 2 ^ (hi + 1 - lo)

/-- Sign-extend the low b bits of a number to an integer. -/
def sext (v b : Nat) : Int := let u := v % 2 ^ b; if u < 2 ^ (b - 1) then u else u - 2 ^ b

/-- The bits of an integer in n bits, two's complement. -/
def ibits (x : Int) (n : Nat) : Nat := (x % 2 ^ n).toNat

/-! ### Physical regions (R265) -/

/-- HBM. -/
def paHbm (pa : Nat) : Bool := pa < 0xC000000000
/-- Bulk memory. -/
def paBulk (pa : Nat) : Bool := 0xC000000000 ≤ pa && pa < 0x24000000000
/-- The fabric region. -/
def paFabric (pa : Nat) : Bool := pa / 2 ^ 51 == 1 && bits pa 40 0 < 0x20000000000
/-- HBM or bulk memory. -/
def paMemory (pa : Nat) : Bool := pa < 0x24000000000
/-- The die whose memory holds an address. -/
def dieOfPa (pa : Nat) : Nat := if pa < 0xC000000000 then pa / 0x1000000000 / 3 else (pa - 0xC000000000) / 0x1000000000 / 6

/-- The place of a physical address, by its KIND (R265, R268): a fabric address that names this chip is the local one in
its bits 40:0, and a host page's is a host I/O virtual address under the PASID (R280). -/
def placeOf (chip pasid kind pa : Nat) : Loc :=
  if kind = 3 then .host pasid pa
  else if kind = 2 then (if bits pa 50 41 = chip then .mem (bits pa 40 0) else .peer pa)
  else .mem pa
/-- The place of an address that a register or a table pointer holds (R265). -/
def State.placeAt (s : State) (pa : Nat) : Loc := placeOf s.mgmt.chip 0 (if paFabric pa then 2 else 0) pa

/-! ### Reading tables at their homes -/

/-- The place n bytes on. -/
def Loc.add : Loc → Nat → Loc
  | .mem pa, n => .mem (pa + n)
  | .host p a, n => .host p (a + n)
  | .peer pa, n => .peer (pa + n)
  | .pad t off, n => .pad t (off + n)
  | .away t va, n => .away t (va + n)

/-- What a key of a map with no default reads as: none where it is not listed. -/
def l1get : Map Byte → Nat → Option Byte
  | [], _ => none
  | (k, v) :: r, a => if k = a then some v else if a < k then none else l1get r a

/-- The PASID of accesses to host memory that carry none (R288). -/
abbrev noPasid : Nat := 2 ^ 20
/-- The key of a host byte: its PASID and host I/O virtual address (R280). -/
def hostKey (pasid addr : Nat) : Nat := pasid * 2 ^ 64 + addr
/-- A byte of host memory: what was written there, else the free value (R280). Entries are kept whatever their value,
since an unlisted byte has no value of its own. -/
def State.hostRead (s : State) (pasid a : Nat) : Byte :=
  (l1get s.hostMem (hostKey pasid a)).getD (Config.hostByte (hostKey pasid a))

/-- Read a 64-bit entry of device memory at the home. -/
def State.readWord (s : State) (pa : Nat) : Nat := leValue (s.mem.readN pa 8)
/-- What stands for 8 bytes of another chip's memory that something asks for: what kind of thing, its number, and the address
over 8 (R335). -/
def farKey (kind who unit : Nat) : PageKey := { part := who, s2 := false, pasid := kind, page := unit, far := true }
/-- The bytes that have come for a key. -/
def State.farUnit (s : State) (key : PageKey) : Option Far := s.far.find? fun f => f.key == key
/-- A byte of another chip's memory that has come for an engine command or a product, and its poison. -/
def State.farByte (s : State) (who pa : Nat) : Option (Byte × Bool) :=
  (s.farUnit (farKey 1 who (pa / 8))).map fun f => (f.bytes.getD (pa % 8) 0, f.bad)
/-- Forget what has come for something. -/
def State.farDrop (s : State) (kind who : Nat) : State :=
  { s with far := s.far.filter fun f => !(f.key.pasid == kind && f.key.part == who) }

/-- Read a 64-bit entry at a place: none where it lies on another chip and has not come yet. -/
def State.readEntry (s : State) : Loc → Option Nat
  | .mem pa => some (s.readWord pa)
  | .host p a => some (leValue ((List.range 8).map fun k => s.hostRead p (a + k)))
  | .peer pa => (s.farUnit (farKey 0 0 (pa / 8))).map fun f => leValue f.bytes
  | .pad t off => some (leValue ((s.team t).pad.readN off 8))
  | .away _ _ => some 0

/-! ### Tables (R266 to R268) -/

/-- What one table entry says at a level (R267, R268). -/
inductive Entry where
  | unmapped
  | absent
  | bad
  | pointer (addr : Nat)
  | leaf (e : Nat)
deriving DecidableEq, Repr

/-- Whether a leaf keeps the rules of R268 for its stage and level. -/
def leafOk (s2 : Bool) (level e : Nat) : Bool :=
  let kind := bits e 11 8
  let frame := bits e 55 20
  let pa := frame * 65536
  let size := if level = 3 then 0x40000000 else if level = 4 then 0x200000 else 0x10000
  bits e 63 56 == 0 && kind ≤ 3 &&
  (level != 3 || frame % 2 ^ 14 == 0) && (level != 4 || frame % 2 ^ 5 == 0) &&
  (if s2 then
    bits e 19 17 == 0 && bits e 16 12 == 0 && bits e 4 4 == 0 &&
    (bits e 7 7 == 0 || (level == 5 && kind == 1)) &&
    (match kind with
     | 0 => paHbm pa && paHbm (pa + size - 1)
     | 1 => paBulk pa && paBulk (pa + size - 1)
     | 2 => paFabric pa && paFabric (pa + size - 1)
     | _ => true)
   else kind == 0 && bits e 7 7 == 0)

/-- Whether a pointer entry keeps the rules of R267 and R268: at levels 1 to 3 the next table is 4 KiB, and a stage-2
pointer's PA lies in some region. -/
def pointerOk (s2 : Bool) (level e a : Nat) : Bool :=
  bits e 7 1 == 0 && bits e 63 56 == 0 && (level == 4 || a % 4096 == 0) && (!s2 || paMemory a || paFabric a)

/-- Sort an entry of a table (R267, R268). -/
def entryOf (s2 : Bool) (level e : Nat) : Entry :=
  let kind := bits e 11 8
  if bits e 0 0 = 0 then (if bits e 7 7 = 1 then .absent else .unmapped)
  else if level ≤ 4 ∧ kind = 0xF then
    let a := bits e 55 12 * 256
    if pointerOk s2 level e a then .pointer a else .bad
  else if level ≤ 2 then .bad
  else if leafOk s2 level e then .leaf e else .bad

/-- How a translation of one stage ends. -/
inductive Walk where
  /-- the leaf, its level, the place of its entry, the leaf entries used on the way whose A is 0, and the pages on the way
  that are due to migrate while the pool is empty (R277) -/
  | leaf (e level : Nat) (pte : Loc) (marks : List Loc) (dry : List Nat)
  /-- no page: stage 2 failed -/
  | nomap (s2 : Bool)
  /-- a page that is absent, or that is to migrate first: its stage and page number -/
  | absent (s2 : Bool) (page : Nat)
  /-- an entry on another chip has not come yet: its address over 8 (R335) -/
  | far (unit : Nat)
deriving DecidableEq, Repr
/-- The address over 8 of a place on another chip. -/
def Loc.farUnit : Loc → Nat
  | .peer pa => pa / 8
  | _ => 0

/-- The index of an address at a table level (R266). -/
def tableIndex (level a : Nat) : Nat :=
  match level with
  | 1 => bits a 56 48 | 2 => bits a 47 39 | 3 => bits a 38 30 | 4 => bits a 29 21 | _ => bits a 20 16

/-- The low address bits below a leaf of a level (R266). -/
def leafBits (level : Nat) : Nat := match level with | 3 => 30 | 4 => 21 | _ => 16
/-- The address that a leaf gives. -/
def leafAddr (e level a : Nat) : Nat := bits e 55 20 * 65536 / 2 ^ leafBits level * 2 ^ leafBits level + a % 2 ^ leafBits level

/-- Walk stage 2 from a level down (R266). -/
def State.walk2 (s : State) (ipa : Nat) : Nat → Nat → Walk
  | 0, _ => .nomap true
  | fuel + 1, table =>
    let level := 5 - fuel
    let pte := s.placeAt (table + 8 * tableIndex level ipa)
    match (s.readEntry pte).map (entryOf true level) with
    | none => .far pte.farUnit
    | some .unmapped | some .bad => .nomap true
    | some .absent => .absent true (ipa / 65536)
    | some (.pointer a) => s.walk2 ipa fuel a
    | some (.leaf e) => .leaf e level pte (if bits e 5 5 = 0 then [pte] else []) []

/-- Stage 2 of a partition as its tables stand (R266). IPA bits 63:52 are zero. -/
def State.stage2 (s : State) (part ipa : Nat) : Walk :=
  if 2 ^ 52 ≤ ipa then .nomap true else s.walk2 ipa 5 (s.partOf part).s2root

/-- Whether a partition's pool has a frame to give (R277). -/
def Part.poolReady (p : Part) : Bool := p.poolOpen && decide (p.popped < p.poolsize)

/-- A touch of an IPA through stage 2 (R277): a page due to migrate is absent until it has, where the pool has a frame;
with the pool empty, or for an access that never waits, the touch goes on. -/
def State.touch2 (s : State) (part ipa : Nat) (stay : Bool) : Walk :=
  match s.stage2 part ipa with
  | .leaf e l pte m _ =>
    if bits e 7 7 = 1 ∧ ¬ stay then
      (if (s.partOf part).poolReady then .absent true (ipa / 65536) else .leaf e l pte m [ipa / 65536])
    else .leaf e l pte m []
  | r => r

/-- Walk stage 1 from a level down; every table address is an IPA, translated before it is read (R266). -/
def State.walk1 (s : State) (part pasid va : Nat) (stay : Bool) (marks : List Loc) (dry : List Nat) : Nat → Nat → Walk
  | 0, _ => .nomap false
  | fuel + 1, table =>
    let level := 5 - fuel
    let ipa := table + 8 * tableIndex level va
    match s.touch2 part ipa stay with
    | .nomap _ => .nomap true
    | .absent _ p => .absent true p
    | .far u => .far u
    | .leaf e2 l2 _ m2 d2 =>
      let pte := placeOf s.mgmt.chip pasid (bits e2 11 8) (leafAddr e2 l2 ipa)
      match (s.readEntry pte).map (entryOf false level) with
      | none => .far pte.farUnit
      | some .unmapped | some .bad => .nomap false
      | some .absent => .absent false (va / 65536)
      | some (.pointer a) => s.walk1 part pasid va stay (marks ++ m2) (dry ++ d2) fuel a
      | some (.leaf e) => .leaf e level pte (marks ++ m2 ++ (if bits e 5 5 = 0 then [pte] else [])) (dry ++ d2)

/-- Whether a page is in bulk memory and due to migrate, and so is not the driver's to supply (R277). -/
def State.migDue (s : State) (key : PageKey) : Bool :=
  key.s2 && (match s.stage2 key.part (key.page * 65536) with
    | .leaf e _ _ _ _ => bits e 7 7 == 1
    | _ => false)

/-! ### Span windows (R174) -/

/-- A team of a span by its rank, if it has been placed. -/
def State.spanTeam (s : State) (launch span rank : Nat) : Option Nat :=
  (List.range s.teams.length).find? fun t =>
    let m := s.team t
    m.launch == launch && m.span == span && m.rank == rank && m.node.isNone && !m.agent

/-- What an address of the span-window region names. -/
inductive Window where
  | outside
  | range
  | notYet
  | pad (team off : Nat)
deriving DecidableEq, Repr

/-- The scratchpad byte that a VA names for a team, by its number and what it is (R174). A node launch is a span of its own
(R22). -/
def State.windowOf (s : State) (m : Team) (t va : Nat) : Window :=
  let base := (s.ctx m.ctx).spwbase
  if va < base ∨ base + 0x80000000 ≤ va then .outside
  else
    let rank := (va - base) / 0x80000
    let off := (va - base) % 0x80000
    if m.spanSize ≤ rank ∨ m.scratch * 1024 ≤ off then .range
    else if rank = m.rank then .pad t off
    else match s.spanTeam m.launch m.span rank with
      | none => .notYet
      | some u => if (s.team u).retired then .range else .pad u off
/-- The scratchpad byte that a VA names for a team of the machine. -/
def State.window (s : State) (t va : Nat) : Window := s.windowOf (s.team t) t va

/-! ### The place of an address -/

/-- The place that a VA names for a team as tables, windows and teams stand, where it names one: what a watch armed on a
page that was not there watches once it is (R237). -/
def State.lookPlace (s : State) (t va : Nat) : Option Loc :=
  match s.window t va with
  | .pad u off => some (.pad u off)
  | .range | .notYet => none
  | .outside =>
    let x := s.ctxOf t
    match s.walk1 x.part x.pasid va true [] [] 5 x.s1root with
    | .leaf e l _ _ _ =>
      match s.stage2 x.part (leafAddr e l va) with
      | .leaf e2 l2 _ _ _ => some (placeOf s.mgmt.chip x.pasid (bits e2 11 8) (leafAddr e2 l2 (leafAddr e l va)))
      | _ => none
    | _ => none

end Sys2Proof.Machine
end

