-- ==== Sys2Proof/Machine/Memory.lean ====
section
/-! DEFINITION. Memory as the cores see it: homes, L1 copies and owned words, stores and REDs on their way to the home,
watches, poison, scratchpad and host memory (R153 to R172, R182, R220, R314). -/

namespace Sys2Proof.Machine

open Sys2Proof

/-! ### Watches (R220) -/

/-- The 32-byte sector that a place lies in. -/
def Loc.sector : Loc → Loc
  | .mem pa => .mem (pa / 32 * 32)
  | .host p a => .host p (a / 32 * 32)
  | .peer pa => .peer (pa / 32 * 32)
  | .pad t off => .pad t (off / 32 * 32)
  | .away t va => .away t (va / 32 * 32)

/-- The sectors that n bytes from a place touch. -/
def sectorsOf (l : Loc) (n : Nat) : List Loc := ((List.range n).map (fun k => (l.add k).sector)).eraseDups

/-- Whether a watch names a sector: a watch armed on a page that was not there names what its address now does (R237). -/
def State.watchNames (s : State) (sec w : Loc) : Bool :=
  match w with
  | .away t va => (match s.lookPlace t va with | some l => l.sector == sec | none => false)
  | _ => w == sec

/-- Whether a detector whose counter has reached SPINN watches a sector: its watches are armed then (R218). -/
def State.spinArmed (s : State) (sec : Loc) (d : Spin) : Bool :=
  decide ((s.ctxOf d.team).spinn ≤ d.count) && d.armed.any (s.watchNames sec)
/-- A write to a sector: home warps that watch it and have registered that watch are woken. A waiting thread leaves
BP-WATCH and clears the flag (R238); with none waiting the flag is set. Threads at BP-SPIN on the sector leave it; where their
detector has counted enough iterations and they do not stand there yet, it lets them go on, and counts from 0 again (R219). -/
def State.wakeSector (s : State) (sec : Loc) : State :=
  let s := if s.cores.any (fun x => x.spins.any fun l => l.any (s.spinArmed sec)) then
      { s with cores := s.cores.map fun x => { x with spins := x.spins.map fun l => l.filter fun d => !s.spinArmed sec d } }
    else s
  (List.range s.teams.length).foldl (fun s t =>
    let s := (List.range (s.team t).nWarps).foldl (fun s w =>
      let x := s.warp t w
      if (x.watches.filter fun l => !x.unreg.contains l).any (s.watchNames sec) then
        let is := ((s.team t).members w).filter fun i => (s.thread t i).wait == .watch
        if is.isEmpty then s.modWarp t w fun x => { x with wake := true }
        else (s.modWarp t w fun x => { x with wake := false }).unblock t is true
      else s) s
    let is := s.waiting t fun _ x => match x with | .spin l => l.any (s.watchNames sec) | _ => false
    if is.isEmpty then s else s.unblock t is false) s

/-- Wake every sector of a list. -/
def State.wakeSectors (s : State) (l : List Loc) : State := l.foldl State.wakeSector s

/-! ### Poison (R314)

Poison is held for each byte of a marked sector that has not been overwritten since; the sector is poisoned while one
is left. -/

/-- Whether a byte is among the n from a place. -/
def Loc.within (l : Loc) (n : Nat) (b : Loc) : Bool := (List.range n).any fun k => l.add k == b
/-- n bytes from a place are overwritten. -/
def State.unpoison (s : State) (l : Loc) (n : Nat) : State :=
  if s.poison.isEmpty then s else { s with poison := s.poison.filter fun b => !l.within n b }
/-- The poisoned bytes of the sectors that n bytes from a place touch. -/
def State.poisonIn (s : State) (l : Loc) (n : Nat) : List Loc :=
  if s.poison.isEmpty then [] else s.poison.filter fun b => (sectorsOf l n).contains b.sector
/-- Whether a read of n bytes at the home consumes a poisoned sector. -/
def State.poisoned (s : State) (l : Loc) (n : Nat) : Bool := !(s.poisonIn l n).isEmpty
/-- Poison the sectors that n bytes from a place touch. -/
def State.mark (s : State) (l : Loc) (n : Nat) : State :=
  let new := (sectorsOf l n).flatMap fun b => (List.range 32).map b.add
  { s with poison := s.poison ++ new.filter fun b => !s.poison.contains b }

/-! ### L1 copies -/

/-- Put a copy into an L1. -/
def l1put : Map Byte → Nat → Byte → Map Byte
  | [], a, v => [(a, v)]
  | (k, w) :: r, a, v => if a < k then (a, v) :: (k, w) :: r else if a = k then (a, v) :: r else (k, w) :: l1put r a v
/-- Put bytes into an L1 from an address up. -/
def l1putN (m : Map Byte) (a : Nat) : List Byte → Map Byte
  | [] => m
  | b :: r => l1putN (l1put m a b) (a + 1) r

/-- The 128-byte lines that the copies of an L1 lie in, counted from the line before. -/
def lineCount : Option Nat → Map Byte → Nat
  | _, [] => 0
  | p, (k, _) :: r => (if p = some (k / 128) then 0 else 1) + lineCount (some (k / 128)) r
/-- A line leaves an L1; its owned words are at the home already (R167). -/
def Core.dropLine (x : Core) (line : Nat) : Core :=
  { x with l1 := x.l1.filter (fun e => e.1 / 128 != line), owned := x.owned.filter fun w => w / 32 != line }
/-- An L1 holds 2 MiB, which is 16,384 lines (R153): with more than that the lowest one but the line just used leaves.
DESIGN CHOICE, log entry 51: the manual does not say which line leaves. -/
def Core.trim (x : Core) (keep : Nat) : Core :=
  if x.l1.length ≤ 16384 ∨ lineCount none x.l1 ≤ 16384 then x
  else match x.l1.find? fun e => e.1 / 128 != keep with
    | some e => x.dropLine (e.1 / 128)
    | none => x

/-! ### Homes (R156, R167) -/

/-- Write bytes at the home: the bytes land, the sector's watches wake, and overwritten bytes lose their poison. -/
def State.homePut (s : State) (pa : Nat) (bytes : List Byte) : State :=
  ({ s with mem := s.mem.writeN pa bytes } : State).unpoison (.mem pa) bytes.length
    |>.wakeSectors (sectorsOf (.mem pa) bytes.length)

/-- The 4-byte words that n bytes touch. -/
def wordsOf (pa n : Nat) : List Nat := (List.range ((pa + n + 3) / 4 - pa / 4)).map fun k => pa / 4 + k

/-- Drop ownership of the words that n bytes touch in every L1 but one, with the L1s' copies of their 8-byte units, which
are read whole (R161, R167). -/
def State.disown (s : State) (keep : Option Nat) (pa n : Nat) : State :=
  let lo := pa / 4
  let hi := (pa + n + 3) / 4
  { s with cores := s.cores.mapIdx fun c x =>
      if keep = some c then x else
        let mine := x.owned.filter fun w => lo ≤ w && w < hi
        if mine.isEmpty then x else
          let left := x.owned.filter fun w => !(lo ≤ w && w < hi)
          { x with owned := left,
                   l1 := x.l1.filter fun e => !mine.any (fun w => w / 2 == e.1 / 8) || left.contains (e.1 / 4) } }

/-- Drop an L1's unowned copies of the 8-byte units that n bytes touch. -/
def Core.dropUnits (x : Core) (pa n : Nat) : Core :=
  { x with l1 := x.l1.filter fun e => !(pa / 8 ≤ e.1 / 8 && e.1 / 8 < (pa + n + 7) / 8) || x.owned.contains (e.1 / 4) }

/-! ### Atomic operations (R182) -/

/-- What an atomic operation leaves at a location of n bits. For cas, b holds the comparand and then the new value. -/
def atomResult (aop n old b : Nat) : Nat :=
  let x := b % 2 ^ n
  let f := if n = 64 then fm64 else fm32
  let lt := fun (a c : Nat) => decide (sext a n < sext c n)
  match aop with
  | 0 => (old + x) % 2 ^ n
  | 1 => if lt x old then x else old
  | 2 => if lt old x then x else old
  | 3 => min old x
  | 4 => max old x
  | 5 => old &&& x
  | 6 => old ||| x
  | 7 => old ^^^ x
  | 8 => x
  | 9 => if old = x then b / 2 ^ n % 2 ^ n else old
  | 10 => f.add 0 false old x
  | 11 => f.minmax false false old x
  | 12 => f.minmax true false old x
  | _ => if x ≤ old then 0 else (old + 1) % 2 ^ n

/-! ### Stores on their way (R167) -/

/-- A store reaches its home (R167): any previous owner gives up the words, the home takes the bytes, and the storing
core's L1 holds and owns them; its other copies of the unit go. A RED is applied at the home, and no L1 owns its words
(R156). -/
def State.land (s : State) (st : Store) : State :=
  let c := s.l1Of st.core st.pa
  let s := { s with stores := s.stores.filter fun x => x.id != st.id }
  let n := st.bytes.length
  match st.red with
  | some aop =>
    let old := leValue (s.mem.readN st.pa n)
    ((s.disown none st.pa n).modCore c fun x => x.dropUnits st.pa n).homePut st.pa
      (leBytes n (atomResult aop (8 * n) old (leValue st.bytes)))
  | none =>
    let s := s.disown (some c) st.pa n
    let s := s.modCore c fun x =>
      let x := x.dropUnits st.pa n
      ({ x with l1 := l1putN x.l1 st.pa st.bytes,
                owned := x.owned ++ (wordsOf st.pa n).filter fun w => !x.owned.contains w } : Core).trim (st.pa / 128)
    s.homePut st.pa st.bytes

/-- Whether a store of an L1 goes to an 8-byte unit; each store lies in one (R161). -/
def State.inUnit (s : State) (c u : Nat) (x : Store) : Bool := x.pa / 8 == u && s.l1Of x.core x.pa == s.l1Of c (8 * u)

/-- The home acknowledges a store (R167), and with it every older store of the same L1 to its unit: the stores of one L1
to a unit reach the home in their order (R166). -/
def State.ackStore (s : State) (st : Store) : State :=
  (s.stores.filter fun x => s.inUnit st.core (st.pa / 8) x && x.id ≤ st.id).foldl State.land s

/-- Acknowledge the stores of a list, oldest first. -/
def State.ackAll (s : State) (l : List Store) : State := l.foldl State.ackStore s

/-- Acknowledge every store on its way to the bytes named, of any core: what an access at the home waits for (R156).
DESIGN CHOICE, log entry 52: the manual does not say that the stores of other cores land first. -/
def State.settleBytes (s : State) (pa n : Nat) : State :=
  s.ackAll (s.stores.filter fun x => x.pa < pa + n && pa < x.pa + x.bytes.length)

/-- Acknowledge every earlier store of a thread: what a release waits for (R167). -/
def State.settleThread (s : State) (t i : Nat) : State :=
  s.ackAll (s.stores.filter fun x => x.team == t && x.tidx == i)

/-- Write bytes at the home from outside the L1s (atomics, engines, the host): stores on their way there land first,
and every L1 gives up the words (R156, R167, R171). -/
def State.homeWrite (s : State) (pa : Nat) (bytes : List Byte) : State :=
  ((s.settleBytes pa bytes.length).disown none pa bytes.length).homePut pa bytes

/-! ### L1 (R154, R167) -/

/-- The youngest store on its way from an L1 that names a byte. -/
def State.pendStore (s : State) (c pa : Nat) : Option Store :=
  s.stores.foldl (fun r x => if x.red.isNone ∧ s.l1Of x.core x.pa = s.l1Of c pa ∧ x.pa ≤ pa ∧ pa < x.pa + x.bytes.length
    then some x else r) none
/-- A byte on its way from a core: of the youngest store that names it. -/
def State.pendByte (s : State) (c pa : Nat) : Option Byte :=
  match s.pendStore c pa with
  | some x => x.bytes[pa - x.pa]?
  | none => none

/-- A held byte of the loading thread (R172, R249). -/
def Warp.heldByte (w : Warp) (lane pa : Nat) : Option Byte :=
  match w.spec with
  | none => none
  | some sp => sp.held.foldl (fun r x => if x.2.2 = lane ∧ x.1 ≤ pa ∧ pa < x.1 + x.2.1.length
      then x.2.1[pa - x.1]? else r) none

/-- Before a load of n bytes, the stores on their way to a unit whose bytes it would take from more than one source land,
and so do REDs to it: a load never mixes two stores within a unit, and follows its own RED (R161, R166). -/
def State.unmix (s : State) (c pa n : Nat) : State :=
  if s.stores.isEmpty then s else
  ((List.range ((pa + n + 7) / 8 - pa / 8)).map (pa / 8 + ·)).foldl (fun (s : State) (u : Nat) =>
    let named := (List.range 8).filterMap fun k =>
      if pa ≤ 8 * u + k ∧ 8 * u + k < pa + n then some ((s.pendStore c (8 * u + k)).map Store.id) else none
    let mine := s.stores.filter (s.inUnit c u)
    if 1 < named.eraseDups.length ∨ mine.any (fun x => x.red.isSome) then s.ackAll mine else s) s

/-- Fill the sectors of which n bytes miss some from the home, each 8-byte unit that is not wholly valid as a whole (R154,
R161). -/
def State.fillSectors (s : State) (c pa n : Nat) : State :=
  ((List.range ((pa + n + 31) / 32 - pa / 32)).map (pa / 32 + ·)).foldl (fun (s : State) (sec : Nat) =>
    let k := s.l1Of c (32 * sec)
    let old := (s.core k).l1
    let miss := (List.range 32).any fun d => decide (pa ≤ 32 * sec + d) && decide (32 * sec + d < pa + n) &&
      (s.pendByte c (32 * sec + d)).isNone && (l1get old (32 * sec + d)).isNone
    if miss then
      s.modCore k fun x =>
        ({ x with l1 := (List.range 4).foldl (fun (m : Map Byte) (j : Nat) =>
            let u := 32 * sec + 8 * j
            if (List.range 8).all fun d => (l1get m (u + d)).isSome then m else l1putN m u (s.mem.readN u 8)) x.l1 } : Core).trim
          (sec / 4)
    else s) s
/-- What a load of n bytes does to its L1 (R154). -/
def State.fill (s : State) (c pa n : Nat) : State := (s.unmix c pa n).fillSectors c pa n

/-- A byte as a thread of a core sees it: its held value, a store on its way from the core, the L1's copy, the home. -/
def State.seeByte (s : State) (c : Nat) (w : Warp) (lane pa : Nat) : Byte :=
  match w.heldByte lane pa with
  | some b => b
  | none => match s.pendByte c pa with
    | some b => b
    | none => (l1get (s.core (s.l1Of c pa)).l1 pa).getD (s.mem.read pa)

/-- Whether a read of n bytes at the home for a core consumes a poisoned sector (R314): one whose poisoned bytes are not all
overwritten by stores on their way from the core. -/
def State.takesPoison (s : State) (c : Nat) (l : Loc) (n : Nat) : Bool :=
  (s.poisonIn l n).any fun b => match b with | .mem q => (s.pendByte c q).isNone | _ => true
/-- Whether a load of n bytes does: it reads the home only for the bytes that miss in its L1. -/
def State.consumes (s : State) (c : Nat) (l : Loc) (n : Nat) : Bool :=
  !s.poison.isEmpty &&
  match l with
  | .mem pa => (List.range n).any fun d =>
      (s.pendByte c (pa + d)).isNone && (l1get (s.core (s.l1Of c (pa + d))).l1 (pa + d)).isNone &&
      s.takesPoison c (.mem (pa + d)) 1
  | l => s.poisoned l n

/-- Bytes as an engine or the fetch of a product sees them: stores of the issuing core on their way, then the home
(R168, R133). -/
def State.engineByte (s : State) (c pa : Nat) : Byte := (s.pendByte c pa).getD (s.mem.read pa)

/-- An acquire: the core's L1 drops every valid word that it does not own, in a fused cluster in all eight slices
(R167). -/
def State.acquire (s : State) (c : Nat) : State :=
  (s.l1s c).foldl (fun (s : State) (k : Nat) =>
    s.modCore k fun x => { x with l1 := x.l1.filter fun e => x.owned.contains (e.1 / 4) }) s

/-- Drop the unowned words of the n-byte block that holds a place from a core's L1 (R156, R237). -/
def State.dropBlock (s : State) (c n : Nat) : Loc → State
  | .mem pa => s.modCore (s.l1Of c pa) fun x =>
      { x with l1 := x.l1.filter fun e => e.1 / n != pa / n || x.owned.contains (e.1 / 4) }
  | _ => s
/-- Drop the unowned words of a sector from a core's L1 (R237). -/
def State.dropSector (s : State) (c : Nat) (l : Loc) : State := s.dropBlock c 32 l
/-- Drop the unowned words of a line from a core's L1 (R156). -/
def State.dropLine (s : State) (c : Nat) (l : Loc) : State := s.dropBlock c 128 l

/-- A line leaves a core's L1. -/
def State.evictLine (s : State) (c line : Nat) : State := s.modCore c fun x => x.dropLine line

/-! ### Scratchpad and host memory -/

/-- A byte of a team's scratchpad. -/
def State.padByte (s : State) (t off : Nat) : Byte := (s.team t).pad.read off
/-- The fault that a report carries: of the command that the thread issued first (R160, R192). -/
def firstFault (l : List PendFault) (p : PendFault → Bool) : Option PendFault :=
  (l.filter p).foldl (fun (r : Option PendFault) f => match r with
    | some g => if f.cmd < g.cmd then some f else r
    | none => some f) none
/-- The fault that an SWWAIT on a sync word reports for a thread: of its finished commands that name it (R192). -/
def Thread.swFault (x : Thread) (off : Nat) : Option PendFault := firstFault x.faults fun f => f.sync == some off
/-- Threads at SWWAIT whose sync word no longer holds the GEN they wait on go on after the word (R36, R192), each with the
fault that its SWWAIT reports: one of a command whose bytes had all been counted when GEN changed. -/
def State.wakeSync (s : State) (t : Nat) : State :=
  let is := s.waiting t fun _ x => match x with
    | .swwait off gen => leValue ((s.team t).pad.readN (off + 8) 4) != gen.toNat
    | _ => false
  if is.isEmpty then s
  else
    let s := is.foldl (fun (s : State) (i : Nat) => s.modThread t i fun x =>
      { x with due := (match x.wait with | .swwait off _ => x.swFault off | _ => none) }) s
    s.unblock t is true
/-- Write scratchpad bytes; the sector's watches and its sync words' waiters wake (R192, R220). What an engine writes while the
scratchpad is out is kept for its return: commands run to completion meanwhile (R308). -/
def State.padPut (s : State) (t off : Nat) (bytes : List Byte) : State :=
  (((s.modTeam t fun m =>
    { m with pad := m.pad.writeN off bytes,
             late := if m.padIn then m.late else m.late ++ bytes.zipIdx.map fun b => (off + b.2, b.1) }).unpoison (.pad t off) bytes.length).wakeSync t).wakeSectors
    (sectorsOf (.pad t off) bytes.length)

/-- Write host memory; the sector's watches wake. -/
def State.hostPut (s : State) (p a : Nat) (bytes : List Byte) : State :=
  ({ s with hostMem := l1putN s.hostMem (hostKey p a) bytes } : State).unpoison (.host p a) bytes.length
    |>.wakeSectors (sectorsOf (.host p a) bytes.length)

/-! ### Reading and writing by place -/

/-- A byte as a thread's load sees it; a peer's arrives with an answer (R335). -/
def State.loadByte (s : State) (c : Nat) (w : Warp) (lane : Nat) : Loc → Byte
  | .mem pa => s.seeByte c w lane pa
  | .host p a => s.hostRead p a
  | .peer pa => Config.peerByte pa s.nextId
  | .pad t off => s.padByte t off
  | .away _ _ => 0

/-- n bytes as a thread's load sees them. -/
def State.loadBytes (s : State) (c : Nat) (w : Warp) (lane : Nat) (l : Loc) (n : Nat) : List Byte :=
  (List.range n).map fun k => s.loadByte c w lane (l.add k)

/-- A thread's load first fills its L1. -/
def State.fillLoc (s : State) (c : Nat) (l : Loc) (n : Nat) : State :=
  match l with
  | .mem pa => s.fill c pa n
  | _ => s

/-- A byte as an engine command or a product sees it: of a peer, as it came for it (R335). DESIGN CHOICE, log entry 7: a reader that
asks for nothing, which is no command and no product, takes the free value there. -/
def State.engineLoc (s : State) (c who : Nat) : Loc → Byte
  | .mem pa => s.engineByte c pa
  | .host p a => s.hostRead p a
  | .peer pa => match s.farByte who pa with | some b => b.1 | none => Config.peerByte pa s.nextId
  | .pad t off => s.padByte t off
  | .away _ _ => 0
/-- Whether a byte that an engine command or a product reads is poisoned (R314). -/
def State.enginePoison (s : State) (c who : Nat) (l : Loc) : Bool :=
  match l with
  | .peer pa => (match s.farByte who pa with | some b => b.2 | none => false)
  | _ => s.takesPoison c l 1
/-- Before an engine reads bytes, stores of its core that a unit of them would mix with others land (R161, R168). -/
def State.unmixAll (s : State) (c : Nat) (ls : List Loc) : State :=
  if s.stores.isEmpty then s
  else ((ls.filterMap fun l => match l with | .mem pa => some (pa / 8) | _ => none).eraseDups).foldl
    (fun (s : State) (u : Nat) => s.unmix c (8 * u) 8) s
/-- What places on other chips an engine command or a product has yet to be sent (R335). -/
def State.farNeeds (s : State) (who : Nat) (ls : List Loc) : List PageKey :=
  ((ls.filterMap fun l => match l with | .peer pa => some (farKey 1 who (pa / 8)) | _ => none).eraseDups).filter fun k =>
    (s.farUnit k).isNone

/-- Send a message to the fabric. -/
def State.send (s : State) (m : FMsg) : State := s.emit (.fabric m)

/-- Whom an access at a peer belongs to: the thread, and the engine command that made it, 0 where the thread did; whether
it is a synchronising store (R160, R165, R335). -/
structure Owner where
  team : Nat
  tidx : Nat
  cmd  : Nat := 0
  sync : Bool := false
deriving DecidableEq, Repr, Inhabited

/-- Send a store or a RED to a peer: its answer is the acknowledgement that a release, or the command's batch, waits for
(R160, R335). -/
def State.sendPeer (s : State) (o : Owner) (pa : Nat) (op : PeerOp) : State :=
  let r : PeerReq := { tag := s.nextId, pa, team := o.team, tidx := o.tidx, key := 0,
                       how := { len := 0, sx := false, ty := none, fmt := 0, upper := 0 }, scale := 0, waits := false,
                       sync := o.sync, cmd := o.cmd, role := .bytes }
  ({ s with peers := s.peers ++ [r], nextId := s.nextId + 1 } : State).send (.mreq r.tag pa op)

/-- Ask another chip for 8 bytes, unless they have been asked for: an answer brings them (R335). -/
def State.askFar (s : State) (key : PageKey) : State :=
  if s.peers.any (fun r => r.role == .data key false) ∨ (s.farUnit key).isSome then s
  else
    let r : PeerReq := { tag := s.nextId, pa := 8 * key.page, team := 2 ^ 64, tidx := 0, key := 0,
                         how := { len := 8, sx := false, ty := none, fmt := 0, upper := 0 }, scale := 0, waits := true,
                         sync := false, cmd := 0, role := .data key false }
    ({ s with peers := s.peers ++ [r], nextId := s.nextId + 1 } : State).send (.mreq r.tag r.pa (.load r.pa 8))

/-- Whether an answer that brings a key is on its way. -/
def State.farOpen (s : State) (key : PageKey) : Bool := s.peers.any fun r => match r.role with | .data k _ => k == key | _ => false
/-- What has been asked for is not kept when it comes: a walk's entries at an invalidation (R270), a core's code at an ICFENCE
(R169). Its waiters ask again. -/
def State.farStale (s : State) (p : PageKey → Bool) : State :=
  { s with far := s.far.filter fun f => !p f.key,
           peers := s.peers.map fun r => match r.role with
             | .data k _ => if p k then { r with role := .data k true } else r
             | _ => r }

/-- A store's aligned 8-byte units, each one single-copy step (R161, R176). -/
def units (pa : Nat) (bytes : List Byte) : List (Nat × List Byte) :=
  let n := bytes.length
  let k := (pa + n + 7) / 8 - pa / 8
  (List.range k).filterMap fun j =>
    let lo := max pa ((pa / 8 + j) * 8)
    let hi := min (pa + n) ((pa / 8 + j + 1) * 8)
    if lo < hi then some (lo, (bytes.drop (lo - pa)).take (hi - lo)) else none

/-- A store or a RED of a thread goes to its L1 and sends its registration, or to the home (R167, R182). -/
def State.queueStore (s : State) (t i pa : Nat) (bytes : List Byte) (red : Option Nat) : State :=
  let st : Store := { id := s.nextId, core := (s.team t).core, team := t, tidx := i, pa, bytes, red }
  { s with stores := s.stores ++ [st], nextId := s.nextId + 1 }

/-- A plain store of a thread: to device memory it goes to the L1 and sends its registrations; to scratchpad and host
memory it lands; to a peer it is sent, and its watches wake with it (R157, R167, R220, R280, R335). -/
def State.storeLoc (s : State) (t i : Nat) (l : Loc) (bytes : List Byte) : State :=
  match l with
  | .mem pa => (units pa bytes).foldl (fun s u => s.queueStore t i u.1 u.2 none) s
  | .host p a => s.hostPut p a bytes
  | .peer pa => (s.sendPeer { team := t, tidx := i } pa (.store pa bytes false)).wakeSectors (sectorsOf l bytes.length)
  | .pad u off => s.padPut u off bytes
  | .away _ _ => s

/-- A write at the coherence point, of an engine, an atomic or a release, with its poison. -/
def State.writeLoc (s : State) (o : Owner) (l : Loc) (bytes : List Byte) (bad : Bool) : State :=
  let poison := fun (s : State) => if bad then s.mark l bytes.length else s
  match l with
  | .mem pa => poison (s.homeWrite pa bytes)
  | .host p a => poison (s.hostPut p a bytes)
  | .peer pa => (s.sendPeer o pa (.store pa bytes bad)).wakeSectors (sectorsOf l bytes.length)
  | .pad t off => poison (s.padPut t off bytes)
  | .away _ _ => s

end Sys2Proof.Machine
end

