-- ==== Sys2Proof/Machine/Translate.lean ====
section
/-! DEFINITION. Translation in two stages (R266 to R270), the span windows (R174) and the checks of R173. -/

namespace Sys2Proof.Machine

open Sys2Proof

/-! ### Fault codes (R328) -/

abbrev fNoncanon : Nat := 0x01
abbrev fPriv : Nat := 0x02
abbrev fAddrwrap : Nat := 0x03
abbrev fMisalign : Nat := 0x04
abbrev fSprange : Nat := 0x05
abbrev fNomap : Nat := 0x06
abbrev fNowrite : Nat := 0x07
abbrev fPagefmt : Nat := 0x08
abbrev fFetch : Nat := 0x09
abbrev fMtxfmt : Nat := 0x0A
abbrev fMtxrec : Nat := 0x0B
abbrev fMtxgang : Nat := 0x0C
abbrev fMtxown : Nat := 0x0D
abbrev fMtxfault : Nat := 0x0E
abbrev fGuardwait : Nat := 0x0F
abbrev fLookahead : Nat := 0x10
abbrev fUniform : Nat := 0x11
abbrev fShapefmt : Nat := 0x12
abbrev fTclip : Nat := 0x13
abbrev fSwfmt : Nat := 0x14
abbrev fCpylen : Nat := 0x15
abbrev fCpyovl : Nat := 0x16
abbrev fWatchlim : Nat := 0x17
abbrev fRecnode : Nat := 0x18
abbrev fRecdepth : Nat := 0x19
abbrev fRecstate : Nat := 0x1A
abbrev fLaunchq : Nat := 0x1B
abbrev fCbrsplit : Nat := 0x1C
abbrev fCbrcomm : Nat := 0x1D
abbrev fSoft : Nat := 0x1E
abbrev fBreak : Nat := 0x1F
abbrev fWtimer : Nat := 0x20
abbrev fWalk : Nat := 0x21
abbrev fEmul : Nat := 0x22
abbrev cUndefined : Nat := 0x30
abbrev cTrapnest : Nat := 0x31
abbrev cEmulnest : Nat := 0x32
abbrev cMcheck : Nat := 0x33
abbrev cRevoked : Nat := 0x34
abbrev cComm : Nat := 0x35
abbrev cHalt : Nat := 0x36
abbrev cUnreported : Nat := 0x37

/-! ### What an access asks of its translation -/

/-- What an access is, as translation and the checks of R173 see it. -/
structure Touch where
  /-- a store or an atomic: it needs W and sets D (R173, R269) -/
  write : Bool := false
  /-- an instruction fetch (R49, R275) -/
  exec  : Bool := false
  /-- it never waits, and a page due to migrate is used where it is (R180, R185, R186) -/
  stay  : Bool := false
  /-- a line access of a host page, which goes through ATS (R280) -/
  line  : Bool := false
  /-- it goes through the page tables wherever its address lies: a scale byte (R87) -/
  plain : Bool := false
  /-- the fault of a page whose defined FMT the instruction does not take (R86, R93) -/
  bad   : Nat := fPagefmt
  /-- that fault comes before check 8, as for ACST (R149) -/
  fmtFirst : Bool := false
deriving DecidableEq, Repr, Inhabited

/-! ### The fault queue and the merge tables (R273, R275) -/

/-- Set a bit of an entry at its home, by an atomic OR: stores and REDs on their way to it land first (R156, R269). -/
def State.orEntry (s : State) (pte : Loc) (mask : Nat) : State :=
  match pte with
  | .mem pa =>
    let s := s.settleBytes pa 8
    let e := s.readWord pa
    if e ||| mask = e then s else s.homeWrite pa (leBytes 8 (e ||| mask))
  | .host p a =>
    let e := leValue ((List.range 8).map fun k => s.hostRead p (a + k))
    if e ||| mask = e then s else s.hostPut p a (leBytes 8 (e ||| mask))
  | .peer pa => ({ s with nextId := s.nextId + 1 } : State).send (.mreq s.nextId pa (.atom pa 8 6 mask))
  | _ => s

/-- Write a fault-queue record and advance FQTAIL (R275). -/
def State.fqPut (s : State) (part : Nat) (f0 f1 f2 : Nat) : State :=
  let p := s.partOf part
  let at_ := s.placeAt (p.fqbase + 32 * (p.fqtail.toNat % 2 ^ (max p.fqlog 6)))
  (s.writeLoc { team := 2 ^ 64, tidx := 0 } at_ (leBytes 8 f0 ++ leBytes 8 f1 ++ leBytes 8 f2 ++ leBytes 8 0) false).modPart part
    fun p => { p with fqtail := p.fqtail + 1 }

/-- Whether the fault queue has room (R275). -/
def Part.fqRoom (p : Part) : Bool := decide ((p.fqtail - p.fqhead).toNat < 2 ^ (max p.fqlog 6))

/-- F0 of a record (R275). -/
def fqWord (page type : Nat) (s2 exec write : Bool) : Nat :=
  page * 65536 + type * 16 + s2.toNat * 8 + exec.toNat * 4 + write.toNat * 2
/-- F1 of a record. -/
def fqWord1 (pasid ctx : Nat) : Nat := pasid * 2 ^ 32 + ctx

/-- Write the pending records of a partition while its queue has room, none of which is lost: those of migrations and of
an empty pool, then those of absent pages (R275). -/
def State.fqDrain (s : State) (part : Nat) : State :=
  let s := (s.partOf part).recs.foldl (fun (s : State) (r : Nat × Nat × Nat) =>
    if (s.partOf part).fqRoom then
      (s.fqPut part r.1 r.2.1 r.2.2).modPart part fun p => { p with recs := p.recs.drop 1 }
    else s) s
  s.merges.foldl (fun (s : State) (m : Merge) =>
    if m.key.part = part ∧ ¬ m.sent ∧ (s.partOf part).fqRoom then
      { s.fqPut part (fqWord m.key.page 0 m.key.s2 m.exec m.write)
          (fqWord1 (if m.key.s2 then 0 else m.key.pasid) m.ctx) 0 with
        merges := (s.merges.map fun y => if y = m then { y with sent := true } else y) }
    else s) s
/-- Write a TYPE 1 or TYPE 2 record, or keep it until the queue has room (R275, R277). -/
def State.fqRecord (s : State) (part : Nat) (f0 f1 f2 : Nat) : State :=
  (s.modPart part fun p => { p with recs := p.recs ++ [(f0, f1, f2)] }).fqDrain part

/-- Ask for an absent page through the merge table of a die (R273): a new entry emits one record, a migration's when it
is done (R277); with the table full none is made. What lies on another chip is asked of it (R335). -/
def State.request (s : State) (die ctx : Nat) (key : PageKey) (exec write : Bool) : State :=
  if key.far then s.askFar key else
  let mine := s.merges.filter fun m => m.die == die
  if mine.any (fun m => m.key == key) then s
  else if 8192 ≤ mine.length then s
  else
    let m : Merge := { die, key, ctx, exec, write, mig := s.migDue key, sent := s.migDue key }
    State.fqDrain { s with merges := s.merges ++ [m] } key.part

/-- Ask for absent pages. -/
def State.requestAll (s : State) (die ctx : Nat) (keys : List PageKey) (exec write : Bool) : State :=
  keys.foldl (fun (s : State) (key : PageKey) => s.request die ctx key exec write) s

/-- A touch of a page that is due to migrate while the pool is empty emits a TYPE 2 record, once in each empty period
(R277). With POOLSIZE 0 migration is disabled (R264) and no record is written. DESIGN CHOICE, log entry 45. -/
def State.noteDry (s : State) (part ctx : Nat) (dry : List Nat) (a : Touch) : State :=
  match dry with
  | [] => s
  | p :: _ =>
    let q := s.partOf part
    if 0 < q.poolsize ∧ ¬ q.told then
      (s.modPart part fun p => { p with told := true }).fqRecord part (fqWord p 2 true a.exec a.write) (fqWord1 0 ctx) 0
    else s

/-! ### Translation (R266 to R272) -/

/-- How the translation of an address ends. An absent page comes with what the tables that are there say of it: its
rights and format, which decide the checks before residency (R173). -/
inductive Xlate where
  | page (x : Tlb)
  | nomap (s2 : Bool)
  | absent (key : PageKey) (leaf : Option Tlb)
deriving DecidableEq, Repr

/-- A cached translation of a page from its two leaves. -/
def tlbOf (part pasid page : Nat) (e1 l1 : Nat) (pte1 : Loc) (e2 l2 : Nat) (pte2 : Loc) : Tlb :=
  let ipa := leafAddr e1 l1 (page * 65536)
  { part, pasid, page, glob := bits e1 4 4 == 1,
    w := bits e1 1 1 == 1 && bits e2 1 1 == 1, x := bits e1 2 2 == 1 && bits e2 2 2 == 1,
    p := bits e1 3 3 == 1 || bits e2 3 3 == 1, w1 := bits e1 1 1 == 1, x1 := bits e1 2 2 == 1, p1 := bits e1 3 3 == 1, fmt := bits e1 16 12, geom := bits e1 19 17,
    kind := bits e2 11 8, frame := leafAddr e2 l2 ipa / 65536, ipa := ipa / 65536,
    dirty := bits e1 6 6 == 1 && bits e2 6 6 == 1, s1pte := pte1, s2pte := pte2,
    s1bits := leafBits l1, s2bits := leafBits l2 }
/-- The rights that the stage-1 leaf alone gives, where stage 2 has no leaf to show: stage 2 takes nothing away. -/
abbrev allRights : Nat := 0x66

/-- An absent page: it waits, unless the driver has refused it for this access (R276). -/
def State.absent (s : State) (key : PageKey) (leaf : Option Tlb) : State × Xlate :=
  if s.deny.contains key then ({ s with hit := true }, .nomap key.s2) else (s, .absent key leaf)

/-- Add a translation to a TLB of n entries (R272). DESIGN CHOICE, log entry 51: the oldest leaves a full one. -/
def tlbAdd (n : Nat) (l : List Tlb) (e : Tlb) : List Tlb := (if n ≤ l.length then l.drop 1 else l) ++ [e]
/-- Fill a core's L1 TLB of 1,024 entries. -/
def State.tlbFill (s : State) (core : Nat) (e : Tlb) : State :=
  s.modCore core fun c => { c with tlb := tlbAdd 1024 c.tlb e }
/-- Fill a die's L2 TLB of 32,768 entries. -/
def State.l2Fill (s : State) (die : Nat) (e : Tlb) : State :=
  { s with l2tlb := s.l2tlb.modify die fun l => tlbAdd 32768 l e }
/-- A core number that names no core: accesses of the front end and the engines hold no core's TLB. -/
abbrev noCore : Nat := 192
/-- Whether a cached translation serves a page of a context (R272). -/
def Tlb.serves (e : Tlb) (x : Ctx) (page : Nat) : Bool := e.part == x.part && e.page == page && (e.glob || e.pasid == x.pasid)

/-- Translate a VA of a context by a walk, which sets A (R266 to R269). Entries on other chips come first, each as an absent page
would; a walk that has come to its end forgets them (R335). -/
def State.walkPage (s : State) (core ctx va : Nat) (a : Touch) : State × Xlate :=
  let x := s.ctx ctx
  let page := va / 65536
  let key := fun (s2 : Bool) (p : Nat) => ({ part := x.part, s2, pasid := if s2 then 0 else x.pasid, page := p } : PageKey)
  match s.walk1 x.part x.pasid va a.stay [] [] 5 x.s1root with
  | .nomap s2 => (s.farDrop 0 0, .nomap s2)
  | .absent s2 p => (s.farDrop 0 0).absent (key s2 p) none
  | .far u => (s, .absent (farKey 0 0 u) none)
  | .leaf e1 l1 pte1 m1 d1 =>
    let ipa := leafAddr e1 l1 (page * 65536)
    match s.touch2 x.part ipa a.stay with
    | .nomap _ => (s.farDrop 0 0, .nomap true)
    | .far u => (s, .absent (farKey 0 0 u) none)
    | .absent _ p =>
      let known := match s.stage2 x.part ipa with
        | .leaf e2 l2 pte2 _ _ => tlbOf x.part x.pasid page e1 l1 pte1 e2 l2 pte2
        | _ => tlbOf x.part x.pasid page e1 l1 pte1 allRights 5 pte1
      (s.farDrop 0 0).absent (key true p) (some known)
    | .leaf e2 l2 pte2 m2 d2 =>
      let s := (s.farDrop 0 0).noteDry x.part ctx (d1 ++ d2) a
      let s := (m1 ++ m2).foldl (fun s pte => s.orEntry pte 0x20) s
      let t := tlbOf x.part x.pasid page e1 l1 pte1 e2 l2 pte2
      (if bits e2 7 7 = 1 ∨ Config.cores ≤ core then s else (s.l2Fill (dieOf core) t).tlbFill core t, .page t)

/-- Translate a VA of a context for a core: through its TLB, its die's L2 TLB, or a walk that fills both (R272). A page due
to migrate is absent until the migration is done; with the pool empty the access goes on (R277). -/
def State.translate (s : State) (core ctx va : Nat) (a : Touch) : State × Xlate :=
  let x := s.ctx ctx
  let page := va / 65536
  let mine := fun (e : Tlb) => ({ e with pasid := x.pasid } : Tlb)
  match (s.core core).tlb.find? fun e => e.serves x page with
  | some e => (s, .page (mine e))
  | none =>
    match (if core < Config.cores then (s.l2tlb.getD (dieOf core) []).find? fun e => e.serves x page else none) with
    | some e => (s.tlbFill core e, .page (mine e))
    | none => s.walkPage core ctx va a

/-- Whether two cached translations are of one page through the same leaves. -/
def Tlb.same (x e : Tlb) : Bool := e.part == x.part && e.page == x.page && e.s1pte == x.s1pte && e.s2pte == x.s2pte
/-- A store through a translation whose D is 0 sets it in both stages (R269). -/
def State.setDirty (s : State) (x : Tlb) : State :=
  if x.dirty then s
  else
    let s := (s.orEntry x.s1pte 0x40).orEntry x.s2pte 0x40
    let set := fun (l : List Tlb) => l.map fun e => if x.same e then { e with dirty := true } else e
    { s with cores := s.cores.map fun c => { c with tlb := set c.tlb }, l2tlb := s.l2tlb.map set }

/-- The place of a VA on a translated page. -/
def State.locOf (s : State) (x : Tlb) (va : Nat) : Loc := placeOf s.mgmt.chip x.pasid x.kind (x.frame * 65536 + va % 65536)

/-- Invalidate translations: those that a test names, in every TLB, and what walks under way have read on other chips
(R270, R322). -/
def State.tlbDrop (s : State) (p : Tlb → Bool) : State :=
  let s := s.farStale fun k => k.pasid == 0
  { s with cores := s.cores.map (fun c => { c with tlb := c.tlb.filter fun e => !p e }),
           l2tlb := s.l2tlb.map fun l => l.filter fun e => !p e }

/-! ### Host pages (R280) -/

/-- Whether an access to a host page is translated by the IOMMU, or for a line access by a cached ATS result (R280); a line
access keeps its result. DESIGN CHOICE, log entry 53: which host pages fail is the host's. -/
def State.hostOk (s : State) (x : Tlb) (a : Touch) : State × Bool :=
  let key := (x.pasid, x.frame)
  if x.kind ≠ 3 ∨ (a.line ∧ s.ats.contains key) then (s, true)
  else if s.hostBad.contains key then (s, false)
  else (if a.line then { s with ats := s.ats ++ [key] } else s, true)

/-! ### The checks of R173 -/

/-- How the probe of one access ends. A fault has its code, its address and whether stage 2 failed; a page that is not
resident comes with what is known of it. -/
inductive Probe where
  | ok (l : Loc) (x : Option Tlb)
  | fault (code addr : Nat) (s2 : Bool)
  | page (keys : List PageKey)
  | remote (team : Option Nat)
deriving DecidableEq, Repr

/-- Last address of the lower canonical half. -/
abbrev lowTop : Nat := 0x00FFFFFFFFFFFFFF
/-- First address of the upper canonical half. -/
abbrev highBase : Nat := 0xFF00000000000000

/-- Check 1: bits 63:57 equal bit 56. -/
def canonical (va : Nat) : Bool := va ≤ lowTop || (highBase ≤ va && va < 2 ^ 64)

/-- Checks 1 to 4 of R173 on a global access. -/
def checks14 (priv : Bool) (va size align : Nat) : Option (Nat × Nat) :=
  if ¬ canonical va then some (fNoncanon, va)
  else if ¬ priv ∧ lowTop < va then some (fPriv, va)
  else if (va ≤ lowTop ∧ lowTop < va + size - 1) then some (fNoncanon, lowTop + 1)
  else if 2 ^ 64 < va + size then some (fNoncanon, 0)
  else if va % align ≠ 0 then some (fMisalign, va)
  else none

/-- What PAGEFMT asks of the page (R86): its FMT and GEOM are defined. -/
def fmtOk (x : Tlb) : Bool := x.fmt ≤ 5 && x.geom ≤ 2 && (x.geom == 0 || x.fmt == 1 || x.fmt == 2)

/-- Check 6 after its mapping, and checks 7 and 8, on what the tables say of a page (R173): the fault's code, and whether stage 2
is the stage that failed (R268). Where both stages take a right away the fault is stage 1's. DEDUCED, log entry 28. -/
def pageFault (priv : Bool) (a : Touch) (fmt : Tlb → Bool) (x : Tlb) : Option (Nat × Bool) :=
  if x.p ∧ ¬ priv then some (fPriv, !x.p1)
  else if a.write ∧ ¬ x.w then some (fNowrite, x.w1)
  else if a.fmtFirst ∧ ¬ fmt x then some (a.bad, false)
  else if ¬ fmtOk x then some (fPagefmt, false)
  else if ¬ fmt x then some (a.bad, false)
  else none

/-- Checks 6 to 9 of R173 on an access that lies in one page, for a core and a context; a store sets D (R269), and a host
page that the IOMMU refuses is NOMAP (R280). -/
def State.checks69 (s : State) (core ctx : Nat) (priv : Bool) (va : Nat) (a : Touch) (fmt : Tlb → Bool) : State × Probe :=
  match s.translate core ctx va a with
  | (s, .nomap s2) => (s, .fault fNomap va s2)
  | (s, .absent key leaf) => (s, match leaf.bind (pageFault priv a fmt) with
      | some (c, s2) => .fault c va s2
      | none => .page [key])
  | (s, .page x) =>
    match pageFault priv a fmt x with
    | some (c, s2) => (s, .fault c va s2)
    | none =>
      match s.hostOk x a with
      | (s, false) => (s, .fault fNomap va false)
      | (s, true) => (if a.write then s.setDirty x else s, .ok (s.locOf x va) (some x))

/-- Check 5 of R173 on an access of a team, by its number and what it is, in a span window: the bytes' range, and the target
team's presence. -/
def State.check5Of (s : State) (m : Team) (t va size : Nat) : Option Probe :=
  match s.windowOf m t va with
  | .outside => none
  | .range => some (.fault fSprange va false)
  | .notYet => some (.remote none)
  | .pad u off =>
    if m.scratch * 1024 < off + size then some (.fault fSprange (va + (m.scratch * 1024 - off)) false)
    else if u ≠ t ∧ ¬ ((s.team u).padIn ∧ (s.team u).started) then some (.remote (some u))
    else some (.ok (.pad u off) none)
/-- Check 5 of R173 on an access of a team of the machine. -/
def State.check5 (s : State) (t va size : Nat) : Option Probe := s.check5Of (s.team t) t va size

/-- Checks 5 to 9 of R173 on an access that lies in one page or one window, with the format test of the instruction
(R86). -/
def State.checks59 (s : State) (t : Nat) (priv : Bool) (va size : Nat) (a : Touch) (fmt : Tlb → Bool) : State × Probe :=
  match (if a.plain then none else s.check5 t va size) with
  | some p => (s, p)
  | none => s.checks69 (s.team t).core (s.team t).ctx priv va a fmt

/-- Every check of R173 on an aligned access of a lane. -/
def State.probe (s : State) (t : Nat) (priv : Bool) (va size : Nat) (a : Touch) (fmt : Tlb → Bool) : State × Probe :=
  match checks14 priv va size size with
  | some (c, a) => (s, .fault c a false)
  | none => s.checks59 t priv va size a fmt

/-- The checks on a scratchpad offset (R173): alignment, then the team's own range. -/
def State.probePad (s : State) (t : Nat) (off : Int) (size : Nat) : Probe :=
  if off % size ≠ 0 then .fault fMisalign (off % 2 ^ 64).toNat false
  else if off < 0 ∨ ((s.team t).scratch * 1024 : Int) < off + size then .fault fSprange (off % 2 ^ 64).toNat false
  else .ok (.pad t off.toNat) none

end Sys2Proof.Machine
end

