-- ==== Sys2Proof/Machine/Operands.lean ====
section
/-! DEFINITION. Operands: reading and writing registers through specifiers (R38 to R41, R299), predicates and guards,
results not yet written (R50 to R52), and what a word does when it is done (R46 to R48, R207). -/

namespace Sys2Proof.Machine

open Sys2Proof

/-! ### Register values -/

/-- The value of n consecutive 32-bit registers from k, the lowest least significant (R40). -/
def regsVal (l : List Word) (k : Nat) : Nat → Nat
  | 0 => 0
  | n + 1 => (l.getD k 0).toNat + 2 ^ 32 * regsVal l (k + 1) n

/-- Set n consecutive registers from k to a value. -/
def regsSet (l : List Word) (k : Nat) (v : Nat) : Nat → List Word
  | 0 => l
  | n + 1 => regsSet (l.set k (BitVec.ofNat 32 v)) (k + 1) (v / 2 ^ 32) n

/-- A window of the thread's current level (R299, R301); zero outside handler mode. -/
def Thread.window (x : Thread) (k : Nat) : DWord := ((x.ew.getD (x.level - 1) []).getD k 0)

/-- What a source specifier reads for a thread, as n registers' bits (R39, R40). -/
def State.opnd (s : State) (t i : Nat) (code : BitVec 8) (n : Nat) : Nat :=
  let m := s.team t
  match opndOf code with
  | .v k => regsVal (s.thread t i).v k n
  | .s k => regsVal (s.warp t (m.warpOf i)).regs.s k n
  | .hlane => m.hlane i
  | .tidx => i
  | .ew k => ((s.thread t i).window k).toNat % 2 ^ (32 * n)
  | _ => 0

/-- A source that may be IMM8: SC sign-extended to the operand's width (R40). -/
def State.src (s : State) (t i : Nat) (code sc : BitVec 8) (n : Nat) : Nat :=
  if code = 0xF1 then ibits (sext sc.toNat 8) (32 * n) else s.opnd t i code n

/-- The dirty bits of n registers of a home warp are set (R212). -/
def State.soil (s : State) (t w k n : Nat) : State :=
  s.modWarp t w fun x => { x with clean := x.clean.filter fun j => !(decide (k ≤ j) && decide (j < k + n)) }
/-- Write n registers' bits through a destination specifier; ZERO discards, and a 32-bit write of a window
zero-extends (R39, R299). -/
def State.putReg (s : State) (t i : Nat) (code : BitVec 8) (n v : Nat) : State :=
  match opndOf code with
  | .v k => (s.modThread t i fun x => { x with v := regsSet x.v k v n }).soil t ((s.team t).warpOf i) k n
  | .s k => (s.modWarp t ((s.team t).warpOf i) fun w => { w with regs := { w.regs with s := regsSet w.regs.s k v n } }).soil t
      ((s.team t).warpOf i) (1000 + k) n
  | .ew k => s.modThread t i fun x =>
      { x with ew := x.ew.modify (x.level - 1) fun l => l.set k (BitVec.ofNat 64 (v % 2 ^ (32 * n))) }
  | _ => s

/-- A predicate; p7 reads true (R13). -/
def Thread.pred (x : Thread) (k : BitVec 3) : Bool := if k = 7 then true else x.p.getLsbD k.toNat
/-- Set a predicate; a write of p7 is discarded (R13). -/
def Thread.setPred (x : Thread) (k : BitVec 3) (b : Bool) : Thread :=
  if k = 7 then x
  else
    let m : BitVec 7 := 1#7 <<< k.toNat
    { x with p := if b then x.p ||| m else x.p &&& ~~~ m }
/-- Set a predicate of a thread. -/
def State.putPred (s : State) (t i : Nat) (k : BitVec 3) (b : Bool) : State :=
  s.modThread t i fun x => x.setPred k b

/-- The guard of a word for a thread: p(PIDX) XOR PNEG (R38). -/
def Thread.guard (x : Thread) (c : Common) : Bool := x.pred c.pidx != (c.pneg == 1)

/-! ### The current issue (R36) -/

/-- The word that the partition whose turn it is stands at: core, partition, team, group, its active threads in
increasing TIDX, the clause and the position. -/
structure Iss where
  core    : Nat
  part    : Nat
  team    : Nat
  num     : Nat
  threads : List Nat
  clause  : Clause
  pos     : Nat
deriving DecidableEq, Repr, Inhabited

/-- Find a group. -/
def State.group (s : State) (t num : Nat) : Option Group := s.groups.find? fun g => g.team == t && g.num == num

/-- The current issue, if a group stands at a word in the partition whose turn it is. -/
def State.iss (s : State) : Option Iss :=
  let (core, part) := s.turn
  match (s.core core).issue.getD part none with
  | none => none
  | some (t, num) =>
    match s.group t num with
    | none => none
    | some g =>
      match g.threads with
      | [] => none
      | i :: _ => match (s.thread t i).mid with
        | none => none
        | some (c, pos) => some { core, part, team := t, num, threads := g.threads, clause := c, pos }

/-- The header of a clause. -/
def Clause.hdr (c : Clause) : Header := Header.ofWord c.header
/-- CNT of a clause. -/
def Clause.cnt (c : Clause) : Nat := c.hdr.cnt.toNat
/-- The word at a position. -/
def Clause.word (c : Clause) (pos : Nat) : DWord := c.words.getD pos 0
/-- The address of the word at a position (R33). -/
def Clause.wordAddr (c : Clause) (pos : Nat) : DWord := c.addr + BitVec.ofNat 64 (8 * (pos + 1))
/-- The fall-through address (R33). -/
def Clause.fall (c : Clause) : DWord := c.addr + BitVec.ofNat 64 (8 * (c.cnt + 2))
/-- The target address (R35). -/
def Clause.target (c : Clause) : DWord := c.addr + 8 * c.hdr.target.signExtend 64
/-- Whether a position is the clause's last word. -/
def Clause.last (c : Clause) (pos : Nat) : Bool := c.cnt ≤ pos
/-- The address of the current word. -/
def Iss.pc (k : Iss) : DWord := k.clause.wordAddr k.pos

/-- Whether a thread executes the word at a position: its guard is true and no SKIP covers the position (R38, R48). -/
def State.executes (s : State) (t i : Nat) (c : Common) (pos : Nat) : Bool :=
  let x := s.thread t i
  x.guard c && x.skip ≤ pos

/-- The executing threads of an issue. -/
def State.exec1 (s : State) (k : Iss) (c : Common) : List Nat := k.threads.filter fun i => s.executes k.team i c k.pos

/-- The home warps of a list of threads, in increasing order (R17). -/
def State.warpsOf (s : State) (t : Nat) (is : List Nat) : List Nat :=
  (List.range (s.team t).nWarps).filter fun w => is.any fun i => (s.team t).warpOf i == w
/-- The threads of a list that belong to a home warp. -/
def State.ofWarp (s : State) (t w : Nat) (is : List Nat) : List Nat := is.filter fun i => (s.team t).warpOf i == w
/-- The lane sets of a list of threads, in increasing number (R207). -/
def State.setsOf (s : State) (t : Nat) (is : List Nat) : List Nat :=
  nsort ((is.map fun i => (s.thread t i).laneSet).eraseDups)
/-- The participating sets of a lane instruction: the executing threads of one lane set of one home warp, home warps
increasing and lane sets increasing within each (R103, R207). -/
def State.laneSets (s : State) (t : Nat) (is : List Nat) : List (List Nat) :=
  (s.warpsOf t is).flatMap fun w =>
    let here := s.ofWarp t w is
    (s.setsOf t here).map fun n => here.filter fun i => (s.thread t i).laneSet == n

/-! ### Writing results -/

/-- One value of a list, or the free value where they differ (R41, log entry 5). -/
def agreed : List Nat → Nat
  | [] => 0
  | v :: r => if r.all (· == v) then v else Config.unevenScalar (v :: r)

/-- Whether a specifier names a scalar. -/
def isScalar (code : BitVec 8) : Bool := match opndOf code with | .s _ => true | _ => false

/-- Write each executing thread's value to the destination; a scalar is written once for each home warp (R41). -/
def State.putAll (s : State) (t : Nat) (code : BitVec 8) (n : Nat) (vals : List (Nat × Nat)) : State :=
  if isScalar code then
    (s.warpsOf t (vals.map Prod.fst)).foldl (fun s w =>
      let mine := vals.filter fun e => (s.team t).warpOf e.1 == w
      match mine with
      | [] => s
      | (i, _) :: _ => s.putReg t i code n (agreed (mine.map Prod.snd))) s
  else vals.foldl (fun s e => s.putReg t e.1 code n e.2) s

/-- As `putAll` for an instruction that acts once for each lane set: the highest-numbered set's value remains
(R41, R207). -/
def State.putSets (s : State) (t : Nat) (code : BitVec 8) (n : Nat) (sets : List (List (Nat × Nat))) : State :=
  sets.foldl (fun s vals => s.putAll t code n vals) s

/-! ### Results not yet written (R50 to R52) -/

/-- Add to a token's count. -/
def State.tokAdd (s : State) (t w : Nat) (k : BitVec 3) (f : Nat → Nat) : State :=
  s.modWarp t w fun x => { x with regs := { x.regs with tok := x.regs.tok.modify k.toNat f } }

/-- Write one result: its registers and predicate; when it is the last of its issue in the home warp, the token it is
attached to counts down (R52). A result without a value yet stays. -/
def State.writeBack (s : State) (t i key : Nat) : State :=
  match (s.thread t i).pend.find? fun p => p.key == key && !p.done && p.value.isSome with
  | none => s
  | some p =>
    let s := match p.value with
      | some v => s.putReg t i p.dst p.regs v
      | none => s
    let s := match p.pred with
      | some (k, b) => s.putPred t i k b
      | none => s
    let s := s.modThread t i fun x => { x with pend := x.pend.map fun q => if q.key = key then { q with done := true } else q }
    match p.token with
    | none => s
    | some k =>
      let m := s.team t
      let left := (m.members (m.warpOf i)).any fun j => (s.thread t j).pend.any fun q => q.key == key && !q.done
      if left then s else s.tokAdd t (m.warpOf i) k (· - 1)

/-- Write every result of a thread that has its value. -/
def State.settle (s : State) (t i : Nat) : State :=
  ((s.thread t i).pend.map Pend.key).foldl (fun s key => s.writeBack t i key) s

/-- Write every result of some threads. -/
def State.settleAll (s : State) (t : Nat) (is : List Nat) : State := is.foldl (fun s i => s.settle t i) s

/-- Results of a thread that are not written. -/
def Thread.open_ (x : Thread) : List Pend := x.pend.filter fun p => !p.done

/-- Whether two ranges of registers meet, by specifier and count. -/
def overlap (a : BitVec 8) (n : Nat) (b : BitVec 8) (m : Nat) : Bool :=
  match opndOf a, opndOf b with
  | .v x, .v y => x < y + m && y < x + n
  | .s x, .s y => x < y + m && y < x + n
  | .ew x, .ew y => x == y
  | _, _ => false

/-- RANK of a home warp's shape record (R188). -/
def State.rank (s : State) (t w : Nat) : Nat := ((s.warp t w).regs.shape.extractLsb' 64 3).toNat
/-- What an instruction's operands name in a home warp: the coordinates of LDT and STT and the origin of CPYT are as many
registers as the rank of the shape record (R190, R197). -/
def State.usesOf (s : State) (t w : Nat) (i : Instr) : List Use :=
  let wide := fun (code : BitVec 8) => i.uses.map fun u => if u.code = code ∧ ¬ u.write then { u with regs := max u.regs (s.rank t w) } else u
  match i with
  | .ldt f | .stt f => wide f.sa
  | .cpyt f => wide f.sa
  | _ => i.uses

/-- Whether an instruction, with what its operands name, names a result's destination or predicate (R51). -/
def touches (i : Instr) (us : List Use) (p : Pend) : Bool :=
  (us.any fun u => u.kind != .unused && overlap u.code u.regs p.dst p.regs) ||
  (match p.pred with
   | none => false
   | some (k, _) => k != 7 && (i.predSources.contains k || i.predDests.contains k ||
      (match i.common with | some c => c.pidx == k | none => false)))

/-- Issue a long-latency result to each thread of a list: it is captured now and written later (R50, R51). A scalar's
value is the home warp's, and each thread of the home warp carries it (R41). -/
def State.issueResults (s : State) (k : Iss) (c : Common) (code : BitVec 8) (n : Nat)
    (vals : List (Nat × Option Nat × Option (BitVec 3 × Bool))) : State :=
  let t := k.team
  let key := s.nextId
  let s := { s with nextId := s.nextId + 1 }
  let tok := if c.ts = 1 then some c.tok else none
  let s := vals.foldl (fun s (e : Nat × Option Nat × Option (BitVec 3 × Bool)) =>
    let p : Pend := { key, done := false, dst := code, regs := n, value := e.2.1, pred := e.2.2,
                      token := tok, clause := k.clause.addr, last := k.pos + c.look.toNat }
    s.modThread t e.1 fun x => { x with pend := x.pend ++ [p] }) s
  if c.ts = 1 then (s.warpsOf t (vals.map Prod.fst)).foldl (fun s w => s.tokAdd t w c.tok (· + 1)) s else s

/-- Long-latency values of which a scalar destination receives one for each home warp: the agreed one. -/
def State.scalarAgree (s : State) (t : Nat) (code : BitVec 8) (vals : List (Nat × Nat)) : List (Nat × Nat) :=
  if isScalar code then
    vals.map fun e => (e.1, agreed ((vals.filter fun f => (s.team t).warpOf f.1 == (s.team t).warpOf e.1).map Prod.snd))
  else vals

end Sys2Proof.Machine
end

