-- ==== Sys2Proof/Machine/Front.lean ====
section
/-! DEFINITION. What a packet's end and a context's failure do: completion words, interrupts and their coalescing, fault
records and the failure record (R285 to R289, R305 to R307, R330), and the fetch of clauses (R49, R169). -/

namespace Sys2Proof.Machine

open Sys2Proof

/-! ### Accesses with a context's rights -/

/-- Accesses of Virlin's own belong to no thread. -/
abbrev noOwner : Owner := { team := 2 ^ 64, tidx := 0 }

/-- The checks of R173 on an access that Virlin makes with a context's rights, outside every span window (R286). -/
def State.probeCtx (s : State) (ctx va size : Nat) (a : Touch) : State × Probe :=
  match checks14 false va size size with
  | some (c, a) => (s, .fault c a false)
  | none => s.checks69 noCore ctx false va a (fun _ => true)

/-- A range that Virlin reads or writes a unit at a time, each checked by a probe: the places of its units, or the first
failure; pages that are not resident count only where nothing fails. -/
def State.probeUnits (s : State) (probe : State → Nat → State × Probe) (va size : Nat) : Nat → State × Except Probe (List Loc)
  | 0 => (s, .ok [])
  | n + 1 =>
    match probe s va with
    | (s, .ok l _) =>
      match s.probeUnits probe (va + size) size n with
      | (s, .ok r) => (s, .ok (l :: r))
      | r => r
    | (s, .page k) =>
      match s.probeUnits probe (va + size) size n with
      | (s, .error (.fault c a b)) => (s, .error (.fault c a b))
      | (s, .error (.page ks)) => (s, .error (.page (k ++ ks).eraseDups))
      | (s, _) => (s, .error (.page k))
    | (s, p) => (s, .error p)
/-- A range that Virlin reads or writes with a context's rights. -/
def State.probeRange (s : State) (ctx va size : Nat) (write : Bool) (n : Nat) : State × Except Probe (List Loc) :=
  s.probeUnits (fun (s : State) (va : Nat) => s.probeCtx ctx va size { write }) va size n

/-- Read the 64-bit words at places. -/
def State.readLocs (s : State) (ls : List Loc) : List DWord :=
  ls.map fun l => BitVec.ofNat 64 (leValue ((List.range 8).map fun k => s.engineLoc noCore 0 (l.add k)))

/-- The place of an IPA of a partition, through stage 2 alone, for an access that does not wait (R214, R261). A page of KIND host
is reached under a PASID, and not at all where the IOMMU does not translate it (R280). DESIGN CHOICE, log entry 53: that is the
PASID of the context whose region it is, and none for a ring, which belongs to no context. -/
def State.ipaLoc (s : State) (part pasid ipa : Nat) : Option Loc :=
  match s.stage2 part ipa with
  | .leaf e l _ _ _ =>
    let kind := bits e 11 8
    let pa := leafAddr e l ipa
    if kind = 3 ∧ s.hostBad.contains (pasid, pa / 65536) then none else some (placeOf s.mgmt.chip pasid kind pa)
  | _ => none

/-- Threads that wait for pages of which a test of their core's die and the page holds go on. -/
def State.wakePages (s : State) (p : Nat → PageKey → Bool) (deny : List PageKey) : State :=
  (List.range s.teams.length).foldl (fun (s : State) (t : Nat) =>
    let is := s.waiting t fun _ v => match v with | .page ks => ks.any (p (dieOf (s.team t).core)) | _ => false
    match is with
    | [] => s
    | _ =>
      let go := fun (x : Thread) =>
        let mine := deny.filter fun k => match x.wait with | .page ks => ks.contains k | _ => false
        ({ x with deny := if deny.isEmpty then x.deny else mine } : Thread)
      (s.wake t is go).tidy t) s

/-! ### Migration (R277, R278) -/

/-- Move an address of one 64 KiB frame to another. -/
def reframe (old new pa : Nat) : Nat := if pa / 65536 = old / 65536 then new + pa % 65536 else pa
/-- Move a place of one frame to another. -/
def Loc.reframe (old new : Nat) : Loc → Loc
  | .mem pa => .mem (Machine.reframe old new pa)
  | l => l
/-- The bytes of a frame are copied to another (R277 step 3): every byte that a load of the page would return goes with
it, and so do its watches, its held stores and its poison (R278). -/
def State.copyFrame (s : State) (old new : Nat) : State :=
  let inOld := fun (a : Nat) => a / 65536 == old / 65536
  let inNew := fun (a : Nat) => a / 65536 == new / 65536
  let s := s.ackAll (s.stores.filter fun x => inOld x.pa || inNew x.pa)
  let kept : Memory := s.mem.filter fun e => !inNew e.1
  let mem := (s.mem.filter fun e => inOld e.1).foldl (fun (m : Memory) e => m.write (reframe old new e.1) e.2) kept
  let onPage := fun (p : Nat → Bool) (l : Loc) => match l with | .mem a => p a | _ => false
  let move := Loc.reframe old new
  let poison := (s.poison.filter fun l => !onPage inNew l) ++ (s.poison.filter (onPage inOld)).map move
  let spins := fun (l : List Spin) => l.map fun d => { d with sectors := d.sectors.map move, armed := d.armed.map move }
  let clean := fun (x : Core) =>
    { x with l1 := x.l1.filter (fun e => !inNew e.1), owned := x.owned.filter (fun w => !inNew (4 * w)), spins := x.spins.map spins }
  let spec := fun (y : Spec) => { y with held := y.held.map fun h => (reframe old new h.1, h.2) }
  let warp := fun (w : Warp) => { w with watches := w.watches.map move, unreg := w.unreg.map move, spec := w.spec.map spec }
  let thread := fun (x : Thread) => { x with wait := match x.wait with
    | .spin ls => .spin (ls.map move)
    | v => v }
  let team := fun (m : Team) => { m with warps := m.warps.map warp, threads := m.threads.map thread }
  let role := fun (r : PeerRole) => match r with
    | .store fmt ty v elem sc got => .store fmt ty v (move elem) (sc.map move) got
    | r => r
  let cmd := fun (c : Cmd) => { c with units := c.units.map fun u => (move u.1, u.2) }
  { s with mem, poison, cmds := s.cmds.map cmd, cores := s.cores.map clean, teams := s.teams.map team,
           peers := s.peers.map fun r => { r with role := role r.role } }

/-- The frame that the pool gives next: from the top of its stack. -/
def Part.frame (p : Part) : Nat := p.poolbase + 65536 * (p.poolsize - 1 - p.popped)
/-- A page that is due to migrate does, where its partition's pool has a frame (R277): the frame is taken, the page copied, the
leaf written and its translations dropped, and the record written. -/
def State.migratePage (s : State) (part page ctx : Nat) (exec write : Bool) : State :=
  match s.stage2 part (page * 65536) with
  | .leaf e _ pte _ _ =>
    let p := s.partOf part
    if bits e 7 7 = 0 ∨ ¬ p.poolReady then s
    else
      let old := bits e 55 20 * 65536
      let new := p.frame
      let s := s.modPart part fun p => { p with popped := p.popped + 1 }
      let s := s.copyFrame old new
      let leaf := e - bits e 55 20 * 2 ^ 20 - bits e 11 8 * 2 ^ 8 - 2 ^ 7 + new / 65536 * 2 ^ 20
      let s := s.writeLoc noOwner pte (leBytes 8 leaf) false
      let s := s.tlbDrop fun x => x.part == part && x.ipa == page
      s.fqRecord part (fqWord page 1 true exec write) (fqWord1 0 ctx) old
  | _ => s

/-- Virlin's own access to an IPA touches its page: one that is due to migrate does so before the access goes on, and with the
pool empty the record is written (R277). DEDUCED, log entry 45: the access waits for nothing else meanwhile. -/
def State.ipaTouch (s : State) (part ctx ipa : Nat) (write : Bool) : State :=
  match s.stage2 part ipa with
  | .leaf e _ _ _ _ =>
    if bits e 7 7 = 0 then s
    else if (s.partOf part).poolReady then s.migratePage part (ipa / 65536) ctx false write
    else s.noteDry part ctx [ipa / 65536] { write }
  | _ => s

/-! ### Interrupts (R288, R289) -/

/-- Deliver an interrupt on vector v of interface q, where the remap entry is in use and its owner is the interface's;
otherwise it is dropped (R288). A masked MSI-X entry sets its pending bit. -/
def State.interrupt (s : State) (q v : Nat) : State :=
  let x := s.iface q
  let r := x.remap.getD v default
  let w := r.word.toNat
  if bits w 0 0 = 1 ∧ bits w 4 2 = x.owner then
    let s := if bits w 1 1 = 1 then
        let a := r.pdesc.toNat + bits w 23 16 / 8
        s.hostPut noPasid a [s.hostRead noPasid a ||| BitVec.ofNat 8 (2 ^ (bits w 23 16 % 8))]
      else s
    let e := bits w 15 8
    if bits (mget 0 s.mgmt.msix (2 * e + 1)).toNat 32 32 = 1 then
      { s with mgmt := { s.mgmt with pending := s.mgmt.pending ||| BitVec.ofNat 64 (2 ^ (e % 64)) } }
    else s.emit (.msix e)
  else s

/-- The error interrupt of an interface, outside coalescing (R282, R287). -/
def State.errorInt (s : State) (q : Nat) : State := s.interrupt q (s.iface q).errvec
/-- Record an error of an interface (R282). -/
def State.setErr (s : State) (q code index : Nat) : State :=
  s.modIface q fun x => { x with errcode := code, err := true, erridx := index }

/-- Raise the coalesced interrupt of a vector and reset its count and timer (R289). -/
def State.coalesceFire (s : State) (q v : Nat) : State :=
  (s.modIface q fun x => { x with counts := x.counts.set v 0, starts := x.starts.set v none }).interrupt q v

/-- Count a completion that asks for an interrupt (R289). -/
def State.coalesce (s : State) (q v : Nat) : State :=
  let s := s.modIface q fun x =>
    { x with counts := x.counts.modify v (· + 1),
             starts := if x.counts.getD v 0 = 0 then x.starts.set v (some s.clk) else x.starts }
  let x := s.iface q
  if max x.count 1 ≤ x.counts.getD v 0 then s.coalesceFire q v else s

/-! ### Completion (R285) -/

abbrev stDone : Nat := 1
abbrev stFailed : Nat := 2
abbrev stRefDesc : Nat := 4
abbrev stRefFeat : Nat := 5
abbrev stRefSave : Nat := 6

/-- A packet is complete and leaves its interface; a WAIT holds its queue no longer. -/
def Iface.drop (x : Iface) (p : Packet) : Iface :=
  { x with begun := x.begun.erase p, blocked := x.blocked && bits (p.words.getD 0 0).toNat 7 0 != 3 }

/-- Write the completion word of a packet whose status is decided, then count its interrupt. A word on an absent page
is requested and the packet waits; one that cannot be written records COMPLFAULT (R285). DESIGN CHOICE, log entry 44: a packet
that is refused and asks for an interrupt counts as a completion too, and the front end's pages are asked for through die 0's
merge table. -/
def State.completeNow (s : State) (q : Nat) (p : Packet) (status : Nat) : State :=
  let compl := (p.words.getD 1 0).toNat
  let k0 := (p.words.getD 0 0).toNat
  let drop := fun (s : State) => s.modIface q fun x => x.drop p
  let irq := fun (s : State) => if bits k0 8 8 = 1 then s.coalesce q (bits k0 10 9) else s
  if compl = 0 then irq (drop s)
  else match s.probeCtx p.ctx compl 8 { write := true, line := true } with
    | (s, .ok l _) => irq (drop (s.writeLoc noOwner l (leBytes 8 (p.index % 2 ^ 32 * 2 ^ 32 + status)) false))
    | (s, .page keys) =>
      (s.requestAll 0 p.ctx keys false true).modIface q fun x =>
        { x with begun := x.begun.map fun y => if y = p then { y with status := some status } else y }
    | (s, _) => irq (drop ((s.setErr q 3 p.index).errorInt q))

/-- Complete the packet of a launch. -/
def State.complete (s : State) (l status : Nat) : State :=
  let q := (s.launch l).iface
  match (s.iface q).begun.find? fun p => p.launch == some l with
  | some p => s.completeNow q p status
  | none => s

/-! ### Failure of a context (R307) -/

/-- What the failure record names besides its cause (R330). -/
structure Blame where
  value : Nat
  epc   : DWord
  addr  : Nat
  at_   : Option (Nat × Nat)
deriving DecidableEq, Repr, Inhabited

/-- A failure that names no thread. -/
def Blame.none : Blame := { value := 0, epc := 0, addr := 0, at_ := Option.none }

/-- The 64 bytes of the failure record (R330). -/
def State.failBytes (s : State) (cause : Nat) (b : Blame) : List Byte :=
  let (lcid, x, y, z, w) := match b.at_ with
    | some (t, i) => let m := s.team t; (m.lcid, m.x, m.y, m.z, m.warpOf i)
    | Option.none => (0, 0, 0, 0, 0)
  leBytes 8 (b.value % 2 ^ 32 * 2 ^ 32 + lcid % 256 * 256 + cause) ++ leBytes 8 b.epc.toNat ++ leBytes 8 b.addr ++
  leBytes 8 (y % 2 ^ 32 * 2 ^ 32 + x % 2 ^ 32) ++ leBytes 8 (w % 2 ^ 32 * 2 ^ 32 + z % 2 ^ 32) ++
  leBytes 8 s.clk ++ leBytes 8 0 ++ leBytes 8 0

/-- Return a bank to the free state; a newly granted bank holds zeros (R23, R136). -/
def AccBank.freed (_ : AccBank) : AccBank := AccBank.reset

/-- Stop and discard a context's work: threads, products, commands, walks, held stores, latches, records and launches
not started (R307 steps 1 and 2). -/
def State.discard (s : State) (c : Nat) : State :=
  let mine := fun t => decide (t < s.teams.length) && (s.team t).ctx == c
  { s with
    groups := s.groups.filter (fun g => !mine g.team),
    cores := s.cores.map fun x =>
      { x with issue := x.issue.map (fun e => match e with | some (t, n) => if mine t then none else some (t, n) | none => none),
               banks := x.banks.map fun l => l.map fun b => match b.owner with
                 | some g => if mine g.team then b.freed else b
                 | none => b,
               seq := x.seq.map (fun l => l.filter (fun q => !mine q.gang.team)),
               spins := x.spins.map (fun l => l.filter (fun d => !mine d.team)) },
    spilled := s.spilled.filter (fun x => !mine x.gang.team),
    cmds := s.cmds.filter (fun x => !mine x.team),
    stores := s.stores.filter (fun x => !mine x.team),
    peers := s.peers.filter (fun x => !mine x.team),
    teams := s.teams.map fun m => if m.ctx = c then
      { m with retired := true, latches := [],
               warps := m.warps.map (fun w => { w with resident := false, spec := none, watches := [], unreg := [] }) }
      else m,
    launches := s.launches.map fun l => if l.ctx = c then { l with done := true } else l,
    graphs := s.graphs.map fun g => if (s.launch g.launch).ctx = c then { g with done := true, slots := [], due := [], taken := [] } else g }

/-- Threads that wait for a bank try again: banks may have become free (R135). -/
def State.wakeAllocs (s : State) : State := s.wakeAll false fun _ _ _ w => match w with | .alloc _ _ => true | _ => false

/-- Change a communicator. -/
def State.modComm (s : State) (slot : Nat) (f : Comm → Comm) : State :=
  { s with comms := s.comms.map fun c => if c.slot = slot then f c else c }
/-- The chip of entry 0 of the map is the root chip (R337). -/
def Comm.root (c : Comm) : Nat := match c.map with | (_, chip) :: _ => chip | [] => 0
/-- The chips of a communicator but one. -/
def Comm.others (c : Comm) (chip : Nat) : List Nat := ((c.map.map Prod.snd).filter (· != chip)).eraseDups
/-- A message of a communicator goes out on VC 15, and is kept should it be refused; or, to a chip whose JOIN is not
acknowledged, it waits in the slot's queue (R339). -/
def State.sendTag (s : State) (c : Comm) (open_ : Bool) (m : FMsg) : State :=
  if open_ then (s.send m).modComm c.slot fun x => { x with sent := x.sent ++ [m] }
  else s.modComm c.slot fun x => { x with held := x.held ++ [m] }
/-- Whether messages to a chip flow: from the root, to a chip that has joined; from another chip, once its own JOIN is
acknowledged (R339). -/
def Comm.flows (c : Comm) (me chip : Nat) : Bool := if c.root = me then c.joined.contains chip else c.acked

/-- Threads that stand at BP-AGREE before a word go on to it when every branch that they wait for has resolved (R172,
R249). -/
def State.wakeAgree (s : State) : State :=
  let done := fun (b : Nat × Nat × Nat) => match (s.warp b.1 b.2.1).spec with | some sp => sp.seq != b.2.2 | none => true
  (List.range s.teams.length).foldl (fun (s : State) (t : Nat) =>
    let is := s.waiting t fun _ v => match v with | .agreeWord l => l.all done | _ => false
    if is.isEmpty then s
    else (s.wake t is id).tidy t) s

/-- Whether a chip knows of a withdrawal: of its own ranks, of parts, or of what it was told (R347). -/
def Comm.partial_ (c : Comm) : Bool :=
  c.told || c.ranks.any (fun r => r.gone.isSome) ||
  c.agree.any fun a => a.parts.any (fun p => p.2.2.2.2) || (match a.outcome with | some (_, b) => b | none => false)
/-- Fail the communicators of a context: the root chip, or from it every other chip, is told that what is not decided is
LOST, with what is known of withdrawals (R307 step 3, R347, R349). What is held for chips that have yet to join stays held. -/
def State.failComms (s : State) (c : Nat) : State :=
  let mine := s.comms.filter fun k => k.ctx == c && !k.failed
  let s := { s with comms := s.comms.map fun k => if k.ctx = c then { k with failed := true, ops := [], cbars := [], past := [] } else k }
  let me := s.mgmt.chip
  mine.foldl (fun (s : State) (k : Comm) =>
    let lost := fun (chip : Nat) (s : State) =>
      s.sendTag k (k.flows me chip) (.decision k.ftag 0 4 k.partial_ chip)
    if k.root = me then (k.others me).foldl (fun s chip => lost chip s) s else lost k.root s) s

/-- Fail a context (R307): stop and discard its work, fail its communicators, complete its packets FAILED with the
error interrupt of those that ask for one, and write the failure record. A later cause changes nothing (R330). -/
def State.failContext (s : State) (c cause : Nat) (b : Blame) : State :=
  let x := s.ctx c
  if ¬ x.valid ∨ x.failed.isSome then s
  else
    let rec_ := s.failBytes cause b
    let s := s.modCtx c fun x => { x with failed := some cause }
    let s := ((s.discard c).wakeAllocs.failComms c).wakeAgree
    let s := (List.range s.ifaces.length).foldl (fun (s : State) (q : Nat) =>
      ((s.iface q).begun.filter fun p => p.ctx == c).foldl (fun (s : State) (p : Packet) =>
        let s := s.completeNow q p stFailed
        if bits (p.words.getD 0 0).toNat 8 8 = 1 then s.errorInt q else s) s) s
    let s := s.ipaTouch x.part c x.savebase true
    match s.ipaLoc x.part x.pasid x.savebase with
    | some l => s.writeLoc noOwner l rec_ false
    | none => s

/-! ### Fetching clauses (R49, R169) -/

/-- How the fetch of a word ends. -/
inductive Fetch where
  | word (w : DWord)
  | fault (code addr : Nat) (s2 : Bool)
  | page (keys : List PageKey)
  | poison (l : Loc)
deriving DecidableEq, Repr

/-- The checks on a fetch address (R49): canonical, user half unless privileged, then the page: mapped, reachable, X. -/
def State.fetchLoc (s : State) (core ctx : Nat) (priv : Bool) (va : Nat) : State × Probe :=
  if ¬ canonical va then (s, .fault fNoncanon va false)
  else if ¬ priv ∧ lowTop < va then (s, .fault fPriv va false)
  else
    let bad := fun (x : Tlb) =>
      if x.p ∧ ¬ priv then some (fPriv, !x.p1) else if ¬ x.x then some (fFetch, x.x1) else none
    match s.translate core ctx va { exec := true } with
    | (s, .nomap s2) => (s, .fault fFetch va s2)
    | (s, .absent k leaf) => (s, match leaf.bind bad with
        | some (c, s2) => .fault c va s2
        | none => .page [k])
    | (s, .page x) => match bad x with
      | some (c, s2) => (s, .fault c va s2)
      | none => match s.hostOk x {} with
        | (s, false) => (s, .fault fFetch va false)
        | (s, true) => (s, .ok (s.locOf x va) (some x))

/-- A core's instruction cache and what it prefetched go, with what it has asked other chips for (R169). -/
def State.icDrop (s : State) (core : Nat) : State :=
  (s.farStale fun k => k.pasid == 2 && k.part == core).modCore core fun x => { x with icache := [] }
/-- Fetch one word through the core's instruction cache (R169); a poisoned sector is consumed (R314). Code on another chip is
asked for, and its answer fills the cache (R335). -/
def State.fetchWord (s : State) (core ctx : Nat) (priv : Bool) (va : Nat) : State × Fetch :=
  match s.fetchLoc core ctx priv va with
  | (s, .ok (.mem pa) _) =>
    match (s.core core).icache.find? fun e => e.1 == pa with
    | some e => (s, .word e.2)
    | none =>
      if s.poisoned (.mem pa) 8 then (s, .poison (.mem pa))
      else
        let s := s.unmix core pa 8
        let w := BitVec.ofNat 64 (leValue ((List.range 8).map fun k => s.engineByte core (pa + k)))
        (s.modCore core fun x => { x with icache := (pa, w) :: x.icache }, .word w)
  | (s, .ok (.peer pa) _) =>
    match (s.core core).icache.find? fun e => e.1 == pa with
    | some e => (s, .word e.2)
    | none => (s, .page [farKey 2 core (pa / 8)])
  | (s, .ok l _) =>
    if s.poisoned l 8 then (s, .poison l)
    else (s, .word (BitVec.ofNat 64 (leValue ((List.range 8).map fun k => s.engineLoc core 0 (l.add k)))))
  | (s, .fault c a b) => (s, .fault c a b)
  | (s, .page k) => (s, .page k)
  | (s, .remote _) => (s, .fault fFetch va false)

/-- What the fetch of several words meets: the lowest that failed, the absent pages, the lowest poisoned sector. -/
structure FetchBad where
  fault  : Option (Nat × Nat × Bool) := none
  pages  : List PageKey := []
  poison : Option Loc := none
deriving DecidableEq, Repr, Inhabited
/-- Fetch n words from an address up, and what their fetch meets. -/
def State.fetchWords (s : State) (core ctx : Nat) (priv : Bool) (va : Nat) : Nat → State × List DWord × FetchBad
  | 0 => (s, [], {})
  | n + 1 =>
    let (s, f) := s.fetchWord core ctx priv va
    let (s, ws, bad) := s.fetchWords core ctx priv ((va + 8) % 2 ^ 64) n
    match f with
    | .word w => (s, w :: ws, bad)
    | .fault c a b => (s, 0 :: ws, { bad with fault := some (c, a, b) })
    | .page k => (s, 0 :: ws, { bad with pages := (k ++ bad.pages).eraseDups })
    | .poison l => (s, 0 :: ws, { bad with poison := some l })

/-- How the fetch of a clause ends: its header, its words, or a report at the header (R49). -/
inductive ClauseFetch where
  | clause (c : Clause)
  | badHeader (header : DWord) (k : NotInstr)
  | fault (header : Option DWord) (code addr : Nat) (s2 : Bool)
  | pages (keys : List PageKey)
  | poison (l : Loc)
deriving DecidableEq, Repr

/-- Fetch a clause (R34, R49, R57): the header with its cases 1 and 2, then every word, then case 3. -/
def State.fetchClause (s : State) (core ctx : Nat) (priv : Bool) (h : DWord) : State × ClauseFetch :=
  match s.fetchWord core ctx priv h.toNat with
  | (s, .fault c a b) => (s, .fault none c a b)
  | (s, .page k) => (s, .pages k)
  | (s, .poison l) => (s, .poison l)
  | (s, .word w) =>
    let hd := Header.ofWord w
    match hd.case12 with
    | some k => (s, .badHeader w k)
    | none =>
      let (s, ws, bad) := s.fetchWords core ctx priv ((h.toNat + 8) % 2 ^ 64) (hd.cnt.toNat + 1)
      match bad.poison, bad.pages, bad.fault with
      | some l, _, _ => (s, .poison l)
      | none, _ :: _, _ => (s, .pages bad.pages)
      | none, [], some (c, a, b) => (s, .fault (some w) c a b)
      | none, [], none =>
        match hd.case3 (ws.getD hd.cnt.toNat 0) with
          | some k => (s, .badHeader w k)
          | none => (s, .clause { addr := h, header := w, words := ws, brk := (s.ctx ctx).bkpt })

/-- How the fetch of a header at an entry address stands, as the word that transfers to it sees it (R49). -/
inductive Entering where
  | ok
  | fault (code addr : Nat) (s2 : Bool)
  | pages (keys : List PageKey)
deriving DecidableEq, Repr, Inhabited
/-- The tests of R49 on an entry address: canonical, user half, a multiple of 8 for RET, JMPI and CALLI, then the page of
its header. -/
def State.entering (s : State) (t i : Nat) (aligned : Bool) (pc : DWord) : State × Entering :=
  let m := s.team t
  let priv := s.privileged t i
  let va := pc.toNat
  if ¬ canonical va then (s, .fault fNoncanon va false)
  else if ¬ priv ∧ lowTop < va then (s, .fault fPriv va false)
  else if ¬ aligned ∧ va % 8 ≠ 0 then (s, .fault fMisalign va false)
  else match s.fetchLoc m.core m.ctx priv va with
    | (s, .fault c a b) => (s, .fault c a b)
    | (s, .page ks) => (s, .pages ks)
    | (s, _) => (s, .ok)

end Sys2Proof.Machine
end

