-- ==== Sys2Proof/Machine/Areas.lean ====
section
/-! DEFINITION. The save area and the state extension area of a team (R212 to R216, R296): their layout, their bytes, and
the accesses that Virlin makes to them through stage 2 alone. No code reads an area, and the state that they save stays in
`State` too: registers, the state extension and the scratchpad image are read back, and what the manual lays out is written. -/

namespace Sys2Proof.Machine

open Sys2Proof

/-! ### Layout (R214, R296) -/

/-- Registers of a team's threads. -/
def Team.nregs (m : Team) : Nat := 8 * m.vregs
/-- Bytes of a home warp's part of the save area. -/
def warpBytes (w n : Nat) : Nat := 512 + 32 * w + 4 * n * w
/-- Bytes of a team's save area and state extension area: home warps, width, vector registers, scratchpad KiB. -/
def areaBytes (h w n scratch : Nat) : Nat :=
  4096 + h * warpBytes w n + scratch * 1024 + 262144 + h * (160 * w + 1792 + 4 * n * w)
/-- Bytes that a team's save and state extension areas take. -/
def Team.areas (m : Team) : Nat := areaBytes m.nWarps m.width m.nregs m.scratch
/-- Offset of a home warp's part of the save area. -/
def Team.warpOff (m : Team) (w : Nat) : Nat := 0x1000 + w * warpBytes m.width m.nregs
/-- Where it begins (R216). -/
def Team.warpArea (m : Team) (w : Nat) : Nat := m.save + m.warpOff w
/-- Offset of the scratchpad image. -/
def Team.padOff (m : Team) : Nat := m.warpOff m.nWarps
/-- Offset of a bank in the accumulator spill. -/
def Team.bankOff (m : Team) (b : Nat) : Nat := m.padOff + m.scratch * 1024 + 16384 * b
/-- Offset of a home warp's part of the state extension area, which follows the save area (R296). -/
def Team.extOff (m : Team) (w : Nat) : Nat := m.bankOff 16 + w * (160 * m.width + 1792 + 4 * m.nregs * m.width)

/-! ### Accesses -/

/-- The pieces of n bytes of an area from an offset, one in each page: the IPA, and how many bytes. An agent has no area. -/
def State.areaPieces (s : State) (t off n : Nat) : List (Nat × Nat) :=
  let m := s.team t
  let a := m.save + off
  if m.save = 0 ∨ n = 0 then []
  else (List.range ((a + n - 1) / 65536 + 1 - a / 65536)).map fun k =>
    let lo := max a ((a / 65536 + k) * 65536)
    (lo, min (a + n) ((a / 65536 + k + 1) * 65536) - lo)
/-- The place of an IPA of a team's context. -/
def State.areaLoc (s : State) (t ipa : Nat) : Option Loc := s.ipaLoc (s.ctxOf t).part (s.ctxOf t).pasid ipa
/-- Virlin touches the pages of n bytes of an area (R277). -/
def State.areaTouch (s : State) (t off n : Nat) (write : Bool) : State :=
  (s.areaPieces t off n).foldl (fun (s : State) (p : Nat × Nat) => s.ipaTouch (s.ctxOf t).part (s.team t).ctx p.1 write) s
/-- Write bytes of an area. One that stage 2 does not map takes none. -/
def State.areaPut (s : State) (t off : Nat) (bytes : List Byte) : State :=
  let a := (s.team t).save + off
  (s.areaPieces t off bytes.length).foldl (fun (s : State) (p : Nat × Nat) => match s.areaLoc t p.1 with
    | some l => s.writeLoc noOwner l ((bytes.drop (p.1 - a)).take p.2) false
    | none => s) (s.areaTouch t off bytes.length true)
/-- The place of an IPA of a team's context that can be read at once: none on another chip, from which nothing is read back. -/
def State.areaRead (s : State) (t ipa : Nat) : Option Loc :=
  (s.areaLoc t ipa).bind fun l => match l with | .peer _ => none | l => some l
/-- Read bytes of an area, if stage 2 maps them all. -/
def State.areaGet (s : State) (t off n : Nat) : Option (List Byte) :=
  let ps := (s.areaPieces t off n).map fun p => (s.areaRead t p.1).map fun l => (List.range p.2).map fun k => s.engineLoc noCore 0 (l.add k)
  if ps.isEmpty ∨ ps.any Option.isNone then none else some ((ps.filterMap id).flatMap id)
/-- Device memory with n bytes from an address set to zero. -/
def Memory.clear (m : Memory) (a n : Nat) : Memory := m.filter fun c => !(decide (a ≤ c.1) && decide (c.1 < a + n))
/-- Write zeros to n bytes of device memory at the home. -/
def State.homeZero (s : State) (pa n : Nat) : State :=
  let s := (s.settleBytes pa n).disown none pa n
  { s with mem := s.mem.clear pa n,
           poison := s.poison.filter fun b => match b with | .mem q => !(decide (pa ≤ q) && decide (q < pa + n)) | _ => true }
/-- Write zeros to an area (R215). -/
def State.areaZero (s : State) (t off n : Nat) : State :=
  (s.areaPieces t off n).foldl (fun (s : State) (p : Nat × Nat) => match s.areaLoc t p.1 with
    | some (.mem pa) => s.homeZero pa p.2
    | some l => s.writeLoc noOwner l (List.replicate p.2 0) false
    | none => s) (s.areaTouch t off n true)
/-- Write listed bytes of an image over zeros: its length, and the bytes that are not zero. -/
def State.areaImage (s : State) (t off n : Nat) (img : Memory) : State :=
  img.foldl (fun (s : State) (c : Nat × Byte) => s.areaPut t (off + c.1) [c.2]) (s.areaZero t off n)
/-- The listed bytes of an image as the area holds it, if stage 2 maps it all; other bytes are zero. -/
def State.areaCells (s : State) (t off n : Nat) : Option Memory :=
  let a := (s.team t).save + off
  let ps := (s.areaPieces t off n).map fun p => (s.areaRead t p.1).map fun l => match l with
    | .mem pa => (s.mem.filter fun c => decide (pa ≤ c.1) && decide (c.1 < pa + p.2)).map fun c => (c.1 - pa + (p.1 - a), c.2)
    | l => cellsAt (p.1 - a) ((List.range p.2).map fun k => s.engineLoc noCore 0 (l.add k))
  if ps.isEmpty ∨ ps.any Option.isNone then none else some ((ps.filterMap id).flatMap id)

/-! ### Barrier records (R216) -/

/-- The 32 bytes of a barrier record. -/
def BarRec.bytes (b : BarRec) : List Byte :=
  leBytes 8 (b.arrived.toNat * 2 ^ 32 + b.expect.toNat) ++
  leBytes 8 (b.spanrec.toNat * 2 ^ 33 + b.waiting.toNat * 2 ^ 32 + b.gen.toNat) ++ leBytes 8 b.waiters.toNat ++ leBytes 8 0
/-- Write a team barrier record to its place. -/
def State.putBar (s : State) (t id : Nat) : State := s.areaPut t (32 * id) ((s.team t).bars.getD id default).bytes
/-- The team in whose area the span barrier records of a team lie: the span's rank-0 team, while it has an area; a node launch
is a span of its own (R22, R214). -/
def State.spanHome (s : State) (t : Nat) : Option Nat :=
  let m := s.team t
  if m.node.isSome then some t
  else match s.spanTeam m.launch m.span 0 with
    | some u => if (s.team u).retired then none else some u
    | none => none
/-- Write a span barrier record to its place. -/
def State.putSpanBar (s : State) (t id : Nat) (b : BarRec) : State :=
  match s.spanHome t with
  | some u => s.areaPut u (0x200 + 32 * id) b.bytes
  | none => s

/-! ### Warp state (R212, R214) -/

/-- The 32 bytes of a thread's state: PC, MEET, MTAG, predicates, open batch, lane set. -/
def threadBytes (pc meet mtag p batch set : Nat) : List Byte :=
  leBytes 8 pc ++ leBytes 8 meet ++ leBytes 2 mtag ++ leBytes 1 p ++ leBytes 1 0 ++ leBytes 4 batch ++
  leBytes 2 (set % 65536) ++ leBytes 6 0
/-- The address that a thread's place stands at: its word, or its next header. -/
def Thread.at_ (x : Thread) : DWord := match x.mid with | some (c, p) => c.addr + BitVec.ofNat 64 (8 * (p + 1)) | none => x.pc
/-- A thread's state. -/
def Thread.bytes (x : Thread) : List Byte :=
  threadBytes x.at_.toNat x.meet.toNat x.mtag.toNat x.p.toNat x.batch.toNat x.laneSet
/-- A handler bank, laid out as thread state (R296). -/
def Banked.bytes (b : Banked) (batch : Word) : List Byte :=
  threadBytes ((match b.mid with | some (c, p) => c.addr + BitVec.ofNat 64 (8 * (p + 1)) | none => b.pc).toNat) b.meet.toNat b.mtag.toNat
    b.p.toNat batch.toNat b.laneSet
/-- Offset of a scalar register in the 512 bytes of warp state. DESIGN CHOICE, log entry 20: the manual says what these hold
and not where; scalars come first, then shape registers, tokens, guard slots, special registers and chain links. -/
def scalarOff (k : Nat) : Nat := 4 * k
/-- The warp state that a checkpoint saves (R17): 376 bytes. -/
def WarpRegs.bytes (r : WarpRegs) (guards : List Bool) (cseq cbstat colls : Nat) (wtime wtcmp : DWord) : List Byte :=
  (List.range 48).flatMap (fun k => leBytes 4 (r.s.getD k 0).toNat) ++ leBytes 128 r.shape.toNat ++
  (List.range 8).flatMap (fun k => leBytes 1 (r.tok.getD k 0)) ++
  leBytes 1 ((List.range 8).map fun k => (guards.getD k false).toNat * 2 ^ k).sum ++
  leBytes 4 r.gang.toNat ++ leBytes 4 r.vcnt.toNat ++ leBytes 4 r.mprog.toNat ++ leBytes 2 r.comm.toNat ++ leBytes 3 r.crank.toNat ++
  leBytes 8 r.cbabort.toNat ++ leBytes 4 cseq ++ leBytes 1 cbstat ++ leBytes 4 colls ++ leBytes 8 wtime.toNat ++ leBytes 8 wtcmp.toNat
/-- The chain links of a home warp: for team records the next home warp's number plus one, for span records its area's
address in 32 bytes (R216). -/
def Warp.links (x : Warp) (m : Team) : List Byte :=
  (List.range 16).flatMap (fun k =>
    let a := (mget 0 x.next k).toNat
    leBytes 2 (if a = 0 then 0 else (a - m.warpArea 0) / warpBytes m.width m.nregs + 1)) ++
  (List.range 16).flatMap fun k => leBytes 6 ((mget 0 x.next (16 + k)).toNat / 32)
/-- The warp state of a home warp. -/
def Warp.bytes (x : Warp) (m : Team) : List Byte :=
  x.regs.bytes x.guards x.cseq.toNat x.cbstat.toNat x.colls x.wtime x.wtcmp ++ x.links m
/-- The four bytes of vector register r in each lane of a home warp; a lane with no thread holds zero. -/
def vectorBytes (w : Nat) (lane : Nat → Option (List Word)) (r : Nat) : List Byte :=
  (List.range w).flatMap fun h => leBytes 4 (match lane h with | some v => (v.getD r 0).toNat | none => 0)
/-- The vector registers of a thread by home lane. -/
def State.laneRegs (s : State) (t w h : Nat) : Option (List Word) :=
  let m := s.team t
  m.threads[w * m.width + h]?.map Thread.v

/-- A register's key in a warp's list of clean ones: a vector register's number, a scalar's from 1000 up. -/
abbrev scalarKey : Nat := 1000
/-- The keys of every register of a home warp. -/
def Team.regKeys (m : Team) : List Nat := List.range m.nregs ++ (List.range 48).map (scalarKey + ·)
/-- Write a register of a home warp to its save area (R212). -/
def State.saveReg (s : State) (t w key : Nat) : State :=
  let m := s.team t
  if scalarKey ≤ key then s.areaPut t (m.warpOff w + scalarOff (key - scalarKey)) (leBytes 4 ((s.warp t w).regs.s.getD (key - scalarKey) 0).toNat)
  else s.areaPut t (m.warpOff w + 512 + 32 * m.width + 4 * key * m.width) (vectorBytes m.width (s.laneRegs t w) key)
/-- Read a register of a home warp back from its save area. -/
def State.loadReg (s : State) (t w key : Nat) : State :=
  let m := s.team t
  if scalarKey ≤ key then
    match s.areaGet t (m.warpOff w + scalarOff (key - scalarKey)) 4 with
    | some l => s.modWarp t w fun x => { x with regs := { x.regs with s := x.regs.s.set (key - scalarKey) (BitVec.ofNat 32 (leValue l)) } }
    | none => s
  else
    match s.areaGet t (m.warpOff w + 512 + 32 * m.width + 4 * key * m.width) (4 * m.width) with
    | some l => (m.members w).foldl (fun (s : State) (i : Nat) => s.modThread t i fun x =>
        { x with v := x.v.set key (BitVec.ofNat 32 (leValue ((l.drop (4 * m.hlane i)).take 4))) }) s
    | none => s

/-! ### State extension (R296) -/

/-- The instance registers of a level, 128 bytes. -/
def TrapInst.bytes (x : TrapInst) : List Byte :=
  leBytes 8 (x.defer.toNat * 2 ^ 15 + x.hdr.toNat * 2 ^ 14 + x.pos % 16 * 256 + x.cause) ++ leBytes 8 x.epc.toNat ++
  leBytes 8 x.edec.toNat ++ leBytes 8 x.eword.toNat ++ leBytes 16 x.emask.toNat ++ leBytes 16 x.ekill.toNat ++
  leBytes 16 x.eskip.toNat ++ leBytes 8 x.frbase.toNat ++ List.replicate 40 0
/-- The parts of the handler state that a home warp uses: offset and bytes. -/
def State.handlerParts (s : State) (t w : Nat) : List (Nat × List Byte) :=
  let m := s.team t
  (m.members w).flatMap (fun i =>
    let x := s.thread t i
    let at_ := fun (level : Nat) => level * 32 * m.width + 32 * m.hlane i
    x.banks.zipIdx.map (fun b => (at_ b.2, b.1.bytes x.batch)) ++
    x.ew.zipIdx.map fun e => (64 * m.width + at_ e.2, (List.range 4).flatMap fun k => leBytes 8 (e.1.getD k 0).toNat)) ++
  (s.warp t w).insts.map fun y => (128 * m.width + 128 * (y.level - 1), y.bytes)
/-- The parts of an open speculation window: the checkpoint, laid out as the home warp's part of the save area, and the held
words (R248, R249). -/
def State.specParts (s : State) (t w : Nat) : List (Nat × List Byte) :=
  let m := s.team t
  let x := s.warp t w
  match x.spec with
  | none => []
  | some sp =>
    let at_ := 128 * m.width + 256
    let words := sp.held.flatMap fun e => (List.range ((e.1 + e.2.1.length + 3) / 4 - e.1 / 4)).map fun k => (e.1 / 4 + k, e.2.2)
    let value := fun (q lane : Nat) => leValue ((List.range 4).map fun k => (x.heldByte lane (4 * q + k)).getD 0)
    let thread := fun (h : Nat) => (sp.threads.find? fun e => m.hlane e.1 == h).map Prod.snd
    [(at_, sp.regs.bytes x.guards x.cseq.toNat x.cbstat.toNat x.colls x.wtime x.wtcmp)] ++
    sp.threads.map (fun e => (at_ + 512 + 32 * m.hlane e.1, e.2.bytes)) ++
    (List.range m.nregs).map (fun r => (at_ + 512 + 32 * m.width + 4 * r * m.width,
      vectorBytes m.width (fun h => (thread h).map Thread.v) r)) ++
    (words.eraseDups.take 64).zipIdx.map fun e => (160 * m.width + 768 + 4 * m.nregs * m.width + 16 * e.2,
      leBytes 8 (4 * e.1.1) ++ leBytes 4 (value e.1.1 e.1.2) ++ leBytes 1 e.1.2 ++ leBytes 3 0)

/-- Bytes as an area holds them, or those of the model's own field where it does not. -/
def State.areaOr (s : State) (t off : Nat) (bytes : List Byte) : List Byte := (s.areaGet t off bytes.length).getD bytes
/-- Bits of bytes from a place on. -/
def leAt (b : List Byte) (at_ n : Nat) : Nat := leValue ((b.drop at_).take n)
/-- A bank of a thread with what its 32 bytes hold. Its word keeps the place that it stands at in its clause. -/
def Banked.ofBytes (b : Banked) (l : List Byte) : Banked :=
  { b with pc := match b.mid with | some _ => b.pc | none => BitVec.ofNat 64 (leAt l 0 8),
           meet := BitVec.ofNat 64 (leAt l 8 8), mtag := BitVec.ofNat 16 (leAt l 16 2), p := BitVec.ofNat 7 (leAt l 18 1),
           laneSet := if b.laneSet < 65536 then leAt l 24 2 else b.laneSet }
/-- The instance registers of a level with what their 128 bytes hold. -/
def TrapInst.ofBytes (x : TrapInst) (l : List Byte) : TrapInst :=
  let t := leAt l 0 8
  { x with cause := bits t 7 0, defer := bits t 15 15 == 1, hdr := bits t 14 14 == 1,
           pos := if x.pos < 16 then bits t 11 8 else x.pos, epc := BitVec.ofNat 64 (leAt l 8 8), edec := BitVec.ofNat 32 (leAt l 16 8),
           eword := BitVec.ofNat 64 (leAt l 24 8), emask := BitVec.ofNat 128 (leAt l 32 16),
           ekill := BitVec.ofNat 128 (leAt l 48 16), eskip := BitVec.ofNat 128 (leAt l 64 16),
           frbase := BitVec.ofNat 64 (leAt l 80 8) }
/-- A restore reads the handler state of a home warp back (R296). The windows of a thread that a result of its clause names stay
as they are: it may have come while the home warp was out. -/
def State.loadHandler (s : State) (t w : Nat) : State :=
  let m := s.team t
  let at_ := fun (level h : Nat) => m.extOff w + level * 32 * m.width + 32 * h
  let s := (m.members w).foldl (fun (s : State) (i : Nat) =>
    let x := s.thread t i
    let banks := x.banks.zipIdx.map fun b => b.1.ofBytes (s.areaOr t (at_ b.2 (m.hlane i)) (b.1.bytes x.batch))
    let ew := x.ew.zipIdx.map fun e =>
      let l := s.areaOr t (64 * m.width + at_ e.2 (m.hlane i)) ((List.range 4).flatMap fun k => leBytes 8 (e.1.getD k 0).toNat)
      (List.range e.1.length).map fun k => if k < 4 then BitVec.ofNat 64 (leAt l (8 * k) 8) else e.1.getD k 0
    let mine := x.pend.any fun p => match opndOf p.dst with | .ew _ => true | _ => false
    if x.banks.isEmpty ∧ x.ew.isEmpty then s else s.modThread t i fun x => { x with banks, ew := if mine then x.ew else ew }) s
  let insts := (s.warp t w).insts.map fun y => y.ofBytes (s.areaOr t (m.extOff w + 128 * m.width + 128 * (y.level - 1)) y.bytes)
  if insts.isEmpty then s else s.modWarp t w fun x => { x with insts }
/-- A restore reads an open speculation window back (R248, R249, R296): the registers and predicates of the checkpoint, and the
held words. Of the held stores to one byte the last has what the area holds. -/
def State.loadSpec (s : State) (t w : Nat) : State :=
  let m := s.team t
  let x := s.warp t w
  match x.spec with
  | none => s
  | some sp =>
    let base := m.extOff w + 128 * m.width + 256
    let scalars := sp.regs.s.zipIdx.map fun e => BitVec.ofNat 32 (leValue (s.areaOr t (base + scalarOff e.2) (leBytes 4 e.1.toNat)))
    let threads := sp.threads.map fun (e : Nat × Thread) =>
      let h := m.hlane e.1
      let l := s.areaOr t (base + 512 + 32 * h) e.2.bytes
      let v := e.2.v.zipIdx.map fun r => BitVec.ofNat 32 (leValue (s.areaOr t (base + 512 + 32 * m.width + 4 * (r.2 * m.width + h)) (leBytes 4 r.1.toNat)))
      (e.1, ({ e.2 with v, meet := BitVec.ofNat 64 (leAt l 8 8), mtag := BitVec.ofNat 16 (leAt l 16 2), p := BitVec.ofNat 7 (leAt l 18 1) } : Thread))
    let words := ((sp.held.flatMap fun e => (List.range ((e.1 + e.2.1.length + 3) / 4 - e.1 / 4)).map fun k => (e.1 / 4 + k, e.2.2)).eraseDups.take 64).zipIdx
    let byte := fun (a lane : Nat) (own : Byte) => match words.find? fun e => e.1 == (a / 4, lane) with
      | some e => BitVec.ofNat 8 (leValue (s.areaOr t (m.extOff w + 160 * m.width + 768 + 4 * m.nregs * m.width + 16 * e.2 + 8 + a % 4) [own]))
      | none => own
    let later := fun (n a lane : Nat) => (sp.held.drop (n + 1)).any fun e => e.2.2 == lane && decide (e.1 ≤ a) && decide (a < e.1 + e.2.1.length)
    let held := sp.held.zipIdx.map fun e => (e.1.1, e.1.2.1.zipIdx.map (fun b =>
      let a := e.1.1 + b.2
      if later e.2 a e.1.2.2 then b.1 else byte a e.1.2.2 b.1), e.1.2.2)
    s.modWarp t w fun x => { x with spec := some { sp with regs := { sp.regs with s := scalars }, threads, held } }

/-! ### Team state (R214) -/

/-- What a latch holds, as team state: 40 bytes and the captured record. -/
def Latch.bytes (l : Latch) : List Byte :=
  leBytes 4 l.gang.val.toNat ++ leBytes 4 l.vcnt.toNat ++ leBytes 4 l.mprog.toNat ++
  leBytes 4 (l.arrived.map fun w => 2 ^ (w - bits l.gang.val.toNat 31 20)).sum ++ leBytes 8 l.word.toNat ++ leBytes 8 l.pc.toNat ++
  leBytes 8 (match l.guard with | some (w, k) => 65536 + 256 * w + k | none => 0) ++ l.record.flatMap fun x => leBytes 4 x.toNat
/-- What a command of the sequencer is, as team state: its kind, bank and count, and a product's next row. -/
def SeqCmd.bytes (q : SeqCmd) : List Byte :=
  let kind := match q.op with
    | .product _ => 0 | .acz => 1 | .acrd .. => 2 | .acwr _ => 3 | .acld _ => 4 | .acst _ => 5
  leBytes 1 kind ++ leBytes 1 q.bank ++ leBytes 1 q.count ++ leBytes 1 0 ++
  leBytes 4 (match q.op with | .product p => p.row | _ => 0)
/-- The team state of a team: how many threads of each home warp have exited, its latches, its held guarded commands by PC,
home warp and guard slot, and its commands in the sequencer. DESIGN CHOICE, log entry 20: the manual says what these bytes hold
and not where. -/
def State.teamBytes (s : State) (t : Nat) : List Byte :=
  let m := s.team t
  let exits := (List.range m.nWarps).flatMap fun w =>
    leBytes 2 ((m.members w).filter fun i => (s.thread t i).wait == .exited).length
  let held := (s.cmds.filter fun c => c.team == t).flatMap fun c => match c.guard with
    | some k => leBytes 8 c.pc.toNat ++ leBytes 2 c.warp ++ leBytes 2 k ++ leBytes 4 0
    | none => []
  let queue := (((s.core m.core).seq.getD m.part []).filter fun q => q.gang.team == t).flatMap SeqCmd.bytes
  (exits ++ m.latches.flatMap Latch.bytes ++ held ++ queue).take 3072
/-- Write a team's team state to its save area: what it does not fill is zero. -/
def State.saveTeam (s : State) (t : Nat) : State :=
  s.areaImage t 0x400 3072 (cellsAt 0 (s.teamBytes t))

/-! ### Saving and restoring -/

/-- A home warp's swap out writes every register still dirty, its threads' state, its warp state, its team's state, and the parts
of the state extension in use; of a warp whose threads have all exited nothing lives (R212, R296). -/
def State.saveWarp (s : State) (t w : Nat) : State :=
  let m := s.team t
  let is := m.members w
  if m.save = 0 ∨ is.all (fun i => (s.thread t i).wait == .exited) then s
  else
    let x := s.warp t w
    let s := (m.regKeys.filter fun k => !x.clean.contains k).foldl (fun (s : State) (k : Nat) => s.saveReg t w k) s
    let s := is.foldl (fun (s : State) (i : Nat) => s.areaPut t (m.warpOff w + 512 + 32 * m.hlane i) (s.thread t i).bytes) s
    let s := s.areaPut t (m.warpOff w) (x.bytes m)
    let s := (s.handlerParts t w ++ s.specParts t w).foldl (fun (s : State) (p : Nat × List Byte) =>
      s.areaPut t (m.extOff w + p.1) p.2) (s.saveTeam t)
    s.modWarp t w fun x => { x with clean := m.regKeys }
/-- A home warp's swap in reads back the registers that its save area holds; a warp that was never resident starts with the
values of R23 and R28 (R212). The parts of the state extension in use are read back with them (R296). -/
def State.loadWarp (s : State) (t w : Nat) : State :=
  let m := s.team t
  if (s.warp t w).clean.isEmpty then s
  else
    let s := s.areaTouch t (m.warpOff w) (warpBytes m.width m.nregs) false
    let s := (s.warp t w).clean.foldl (fun (s : State) (k : Nat) => s.loadReg t w k) s
    if (s.handlerParts t w ++ s.specParts t w).isEmpty then s
    else ((s.areaTouch t (m.extOff w) (160 * m.width + 1792 + 4 * m.nregs * m.width) false).loadHandler t w).loadSpec t w
/-- Write a team's scratchpad to its save area (R213). -/
def State.savePad (s : State) (t : Nat) : State :=
  let m := s.team t
  s.areaImage t m.padOff (m.scratch * 1024) m.pad
/-- Read a team's scratchpad back. -/
def State.loadPad (s : State) (t : Nat) : State :=
  let m := s.team t
  let s := s.areaTouch t m.padOff (m.scratch * 1024) false
  match s.areaCells t m.padOff (m.scratch * 1024) with
  | some img => s.modTeam t fun m => { m with pad := img.foldr (fun c (p : Memory) => p.write c.1 c.2) [] }
  | none => s
/-- Write a bank to the accumulator spill of its team (R138, R214). -/
def State.saveBank (s : State) (t b : Nat) (acc : AccBank) : State :=
  s.areaImage t ((s.team t).bankOff b) 16384 (acc.words.flatMap fun e => cellsAt (4 * e.1) (leBytes 4 e.2.toNat))

end Sys2Proof.Machine
end

