-- ==== Sys2Proof/Machine/Flags.lean ====
section
/-! DEFINITION. The conditions that instructions compute into predicates: carry and borrow (R105), integer and float
comparison (R110, R113), the class of a float (R114), and the limits of integer types (R83). -/

namespace Sys2Proof.Machine

open Sys2Proof

/-- The integer that bits hold under an integer TYPE. -/
def intOf (ty : BitVec 4) (v : Nat) : Int :=
  let n := tyBits ty
  let u := v % 2 ^ n
  if tySigned ty ∧ 2 ^ (n - 1) ≤ u then (u : Int) - 2 ^ n else u
/-- Lowest and highest value of an integer TYPE (R83). -/
def tyMin (ty : BitVec 4) : Int := if tySigned ty then -(2 ^ (tyBits ty - 1)) else 0
def tyMax (ty : BitVec 4) : Int := if tySigned ty then 2 ^ (tyBits ty - 1) - 1 else 2 ^ tyBits ty - 1
/-- Fill the register bits above a result of a TYPE: copies of its sign for i types, zeros otherwise (R83). -/
def fillTy (ty : BitVec 4) (v : Nat) : Nat :=
  let n := tyBits ty
  let u := v % 2 ^ n
  if n < 32 ∧ tySigned ty ∧ 2 ^ (n - 1) ≤ u then u + 2 ^ 32 - 2 ^ n else u
/-- An exact integer at the width of a TYPE: reduced, or clamped under SAT (R83). -/
def narrow (ty : BitVec 4) (sat : Bool) (x : Int) : Nat :=
  let y := if sat then max (tyMin ty) (min (tyMax ty) x) else x
  fillTy ty ((y % 2 ^ tyBits ty).toNat)

/-- Carry out of ADDC: the sum, and whether it reaches 2^n (R105). -/
def carryOf (n a b c : Nat) : Nat × Bool := ((a + b + c) % 2 ^ n, 2 ^ n ≤ a + b + c)
/-- Borrow out of SUBB (R105). -/
def borrowOf (n a b c : Nat) : Nat × Bool := ((2 ^ (n + 1) + a - b - c) % 2 ^ n, a < b + c)

/-- CMP (R110): 0 eq, 1 ne, 2 lt, 3 le, 4 gt, 5 ge. -/
def intCond (cond : Nat) (a b : Int) : Bool :=
  match cond with
  | 0 => a == b | 1 => a != b | 2 => a < b | 3 => a ≤ b | 4 => b < a | _ => b ≤ a
/-- FCMP (R113): as CMP on ordered values, then 6 unordered, 7 ordered; −0 equals +0. -/
def floatCond (f : Fm) (ftz : Bool) (cond a b : Nat) : Bool :=
  let a := f.flush ftz a
  let b := f.flush ftz b
  let un := f.isNan a || f.isNan b
  let val := fun (v : Nat) => if v % f.signBit = 0 then (0 : Int) else f.key v
  match cond with
  | 6 => un
  | 7 => !un
  | 1 => un || val a != val b
  | c => !un && intCond c (val a) (val b)
/-- FCLASS (R114): the number of the bit set. -/
def classOf (f : Fm) (ftz : Bool) (v : Nat) : Nat :=
  let (s, e, m) := f.fields (f.flush ftz v)
  if e = f.top then (if m = 0 then (if s then 0 else 7) else if 2 ^ (f.mb - 1) ≤ m then 9 else 8)
  else if e = 0 then (if m = 0 then (if s then 3 else 4) else if s then 2 else 5)
  else if s then 1 else 6

end Sys2Proof.Machine
end

