-- ==== Sys2Proof/Machine/Units.lean ====
section
/-! DEFINITION. Barriers (R216, R217, R235), copy batches and sync words (R159, R160), guard slots (R202), record slots
(R229) and machine checks (R313, R327). -/

namespace Sys2Proof.Machine

open Sys2Proof

/-! ### Barriers -/

/-- A generation completes (R217). -/
def BarRec.full (b : BarRec) : Bool := decide (b.expect.toNat ≤ b.arrived.toNat) && decide (0 < b.arrived.toNat)
/-- The record after its generation completes (R217). -/
def BarRec.close (b : BarRec) : BarRec := { b with gen := b.gen + 1, arrived := 0, waiting := false, waiters := 0 }

/-- Change a team barrier record, and complete its generation if it is full: its waiters go on (R217). The record lies in
the team's save area, and is written through (R216). -/
def State.barMod (s : State) (t id : Nat) (f : BarRec → BarRec) : State :=
  let s := s.modTeam t fun m => { m with bars := m.bars.modify id f }
  let full := ((s.team t).bars.getD id default).full
  let s := (if full then s.modTeam t fun m => { m with bars := m.bars.modify id BarRec.close } else s).putBar t id
  if full then
    s.unblock t (s.waiting t fun _ w => match w with | .bar k _ => k == id | _ => false) true
  else s

/-- The number of a team's span; a node launch is a span of its own (R22). -/
def State.spanNo (s : State) (t : Nat) : Nat :=
  let m := s.team t
  if m.node.isSome then 2 ^ 52 + t else m.span
/-- The barrier record of a team's span. -/
def State.spanBar (s : State) (t id : Nat) : BarRec :=
  match s.spans.find? fun x => x.launch == (s.team t).launch && x.span == s.spanNo t with
  | some x => x.bars.getD id default
  | none => default
/-- Change a span barrier record, and complete its generation if it is full. -/
def State.spanMod (s : State) (t id : Nat) (f : BarRec → BarRec) : State :=
  let l := (s.team t).launch
  let n := s.spanNo t
  let on := fun (g : BarRec → BarRec) (s : State) =>
    { s with spans := s.spans.map fun x => if x.launch = l ∧ x.span = n then { x with bars := x.bars.modify id g } else x }
  let s := on f s
  let full := (s.spanBar t id).full
  let s := if full then on BarRec.close s else s
  let s := s.putSpanBar t id (s.spanBar t id)
  if full then
    s.wakeAll true fun s u _ w => match w with
      | .span k _ => k == id && (s.team u).launch == l && s.spanNo u == n
      | _ => false
  else s

/-- Whether a thread has exited (R31: BP-DRAIN is the last exit's wait). -/
def Thread.gone (x : Thread) : Bool := x.wait == .exited || x.wait == .drain
/-- A team's threads that have not exited. -/
def State.alive (s : State) (t : Nat) : Nat := ((s.team t).threads.filter fun x => !x.gone).length
/-- A team's count for a span barrier reaches its live threads: the team arrives (R235). -/
def State.spanCheck (s : State) (t id : Nat) : State :=
  let c := (s.team t).spanCnt.getD id 0
  if c ≠ 0 ∧ c = s.alive t then
    (s.modTeam t fun m => { m with spanCnt := m.spanCnt.set id 0 }).spanMod t id fun b => { b with arrived := b.arrived + 1 }
  else s
/-- A thread's arrival at a span barrier (R235). -/
def State.spanArrive (s : State) (t id : Nat) : State :=
  (s.modTeam t fun m => { m with spanCnt := m.spanCnt.modify id (· + 1) }).spanCheck t id

/-! ### Copy batches (R160) -/

/-- "Batch b is at or before n". -/
def atOrBefore (b n : Word) : Bool := (n - b).toNat < 2 ^ 31
/-- The batch number after b, skipping 0. -/
def nextBatch (b : Word) : Word := if b + 1 = 0 then 1 else b + 1
/-- Whether every command of a batch of a thread is complete. -/
def State.batchDone (s : State) (t i : Nat) (b : Word) : Bool :=
  !s.cmds.any fun c => c.team == t && c.joins.contains (i, b)
/-- Whether every batch of a thread at or before n is complete. -/
def State.batchesDone (s : State) (t i : Nat) (n : Word) : Bool :=
  !s.cmds.any fun c => c.team == t && c.joins.any fun j => j.1 == i && atOrBefore j.2 n
/-- Sealed batches of a thread that are not complete. -/
def State.sealedOpen (s : State) (t i : Nat) : Nat :=
  ((s.thread t i).sealed.filter fun b => !s.batchDone t i b).length
/-- Close a thread's open batch and open the next. -/
def Thread.seal (x : Thread) : Thread := { x with sealed := x.sealed ++ [x.batch], batch := nextBatch x.batch }
/-- Work of a team in the engines or the sequencer (R31, R150). -/
def State.inFlight (s : State) (t : Nat) : Bool :=
  s.cmds.any (fun c => c.team == t) || s.cores.any fun x => x.seq.any fun l => l.any fun q => q.gang.team == t

/-- The fault that a WAITB n reports for a thread: of the batches it covers, the command that was issued first (R160). -/
def Thread.batchFault (x : Thread) (n : Word) : Option PendFault :=
  firstFault x.faults fun f => atOrBefore f.batch n

/-- Threads whose wait for batches or for the drain has ended go on (R31, R160): a WAITB after its word, with the fault it
reports (R36); a SEAL at its word. -/
def State.wakeBatches (s : State) (t : Nat) : State :=
  let s := s.modTeam t fun m => { m with threads := m.threads.mapIdx fun i x =>
    { x with sealed := x.sealed.filter fun b => !s.batchDone t i b,
             wait := if x.wait = .drain ∧ ¬ s.inFlight t then .exited else x.wait } }
  let is := s.waiting t fun i w => match w with
    | .waitb n => s.batchesDone t i n
    | .seal => decide (s.sealedOpen t i < 15)
    | _ => false
  let (ends, seals) := is.partition fun i => match (s.thread t i).wait with | .waitb _ => true | _ => false
  let s := ends.foldl (fun (s : State) (i : Nat) => s.modThread t i fun x =>
    { x with due := match x.wait with | .waitb n => x.batchFault n | _ => none }) s
  let s := if ends.isEmpty then s else s.unblock t ends true
  if seals.isEmpty then s else s.unblock t seals false

/-- The fault of a command becomes pending with its threads (R160). -/
def State.blame (s : State) (c : Cmd) : State :=
  match c.fault with
  | none => s
  | some (code, addr, s2) =>
    let note := fun (j : Nat × Word) (x : Thread) =>
      let f : PendFault := { cmd := c.id, batch := j.2, sync := c.sync, pc := c.pc, code, addr, s2 }
      ({ x with faults := x.faults ++ [f] } : Thread)
    c.joins.foldl (fun (s : State) (j : Nat × Word) => s.modThread c.team j.1 (note j)) s
/-- A command ends: its fault becomes pending with its threads, and its batches may be complete (R160). It ends once every
write that it sent to a peer has been acknowledged, and what it has read of peers goes with it. -/
def State.finishCmd (s : State) (c : Cmd) : State :=
  if s.peers.any fun r => r.cmd == c.id then
    { s with cmds := s.cmds.map fun x => if x.id = c.id then { c with todo := [] } else x }
  else
    let s := (s.farStale fun k => k.pasid == 1 && k.part == c.id)
    (({ s with cmds := s.cmds.filter fun x => x.id != c.id } : State).blame c).wakeBatches c.team

/-- Add n bytes to a sync word (R159). -/
def State.syncAdd (s : State) (t off n : Nat) : State :=
  let rd := fun k => leValue ((s.team t).pad.readN (off + 4 * k) 4)
  let c := (rd 1 + n) % 2 ^ 32
  let g := if rd 0 = 0 then 0 else c / rd 0
  let c := if rd 0 = 0 then c else c % rd 0
  s.padPut t (off + 4) (leBytes 4 c ++ leBytes 4 ((rd 2 + g) % 2 ^ 32))

/-! ### Guard slots (R202), and the commands of the sequencer that stand before others (R129) -/

/-- The sequencer commands of a partition. -/
def State.seqOf (s : State) (c p : Nat) : List SeqCmd := (s.core c).seq.getD p []
/-- Whether ranges of banks meet. -/
def banksMeet (a n b m : Nat) : Bool := decide (a < b + m) && decide (b < a + n)
/-- The commands of a gang that must be done before a command on a range, in their order: the earlier ones that name its
banks, and what those wait for in turn (R129). -/
def State.seqNeeds (s : State) (c p : Nat) (g : Gang) (id : Option Nat) (b n : Nat) : List SeqCmd :=
  ((s.seqOf c p).filter fun q => q.gang == g && (match id with | some k => decide (q.id < k) | none => true)).foldr
    (fun q acc => if banksMeet q.bank q.count b n || acc.any fun x => banksMeet q.bank q.count x.bank x.count
      then q :: acc else acc) []
/-- The held products among commands: the slots they wait on (R145). -/
def heldSlots (l : List SeqCmd) : List (Nat × Nat) :=
  l.filterMap fun q => match q.op with | .product x => x.guard | _ => none

/-- The engine that runs a command: 0 copies, 1 walks, 2 the sequencer, 3 collectives. -/
def CmdOp.engine : CmdOp → Nat
  | .walk _ _ _ _ => 1
  | .acld _ _ _ _ _ | .acst _ _ _ _ _ _ _ _ => 2
  | .coll _ _ _ => 3
  | _ => 0
/-- The slots of the held products that a command of the sequencer waits behind, as they are now (R145). -/
def State.behind (s : State) (c : Cmd) : List (Nat × Nat) :=
  let at_ := match c.op with
    | .acld _ _ _ core part | .acst _ _ _ _ _ _ core part => some (core, part)
    | _ => none
  match at_ with
  | none => []
  | some (k, p) =>
    match (s.seqOf k p).find? fun q => q.op == .acld c.id || q.op == .acst c.id with
    | some q => heldSlots (s.seqNeeds k p q.gang (some q.id) q.bank q.count)
    | none => []
/-- The slots that a command waits on: its own, those of earlier commands of its warp in its engine, and those of the
products it waits behind (R145, R202). -/
def State.heldBy (s : State) (c : Cmd) : List (Nat × Nat) :=
  (match c.guard with | some k => [(c.warp, k)] | none => []) ++ s.behind c ++
  ((s.cmds.filter fun d => d.team == c.team && d.warp == c.warp && d.op.engine == c.op.engine && decide (d.id < c.id)).filterMap
    fun d => d.guard.map fun k => (d.warp, k))
/-- Whether a wait of a home warp covers a command held by one of its own slots: GUARDWAIT (R192, R193). -/
def State.guardWait (s : State) (t w : Nat) (p : Cmd → Bool) : Bool :=
  s.cmds.any fun c => c.team == t && p c && (s.heldBy c).any fun h => h.1 == w

/-- Resolve a guard slot of a home warp for the commands of the engines: on true they proceed, on false they end
without effect (R202, R240). Held products are the sequencer's. -/
def State.resolveCmds (s : State) (t w k : Nat) (v : Bool) : State :=
  let s := s.modWarp t w fun x => { x with guards := x.guards.set k false }
  let mine := s.cmds.filter fun c => c.team == t && c.warp == w && c.guard == some k
  let s := { s with cmds := s.cmds.map fun c =>
    { c with guard := if c.team = t ∧ c.warp = w ∧ c.guard = some k then none else c.guard } }
  if v then s else mine.foldl (fun s c => s.finishCmd { c with fault := none }) s

/-! ### Record slots (R227, R229) -/

/-- A record slot becomes free, and threads that wait for one of its slice try again (R229). -/
def State.freeSlot (s : State) (r : RecSlot) : State :=
  let s := s.modGraph r.graph fun g => { g with slots := g.slots.filter fun e => e.1 != r }
  s.wakeAll false fun s u _ w => match w with
    | .recq n d => n == r.node && d == r.level && (match (s.team u).node with | some (g, _, _) => g == r.graph | none => false)
    | _ => false

/-! ### Machine checks (R313, R327) -/

/-- Whether a core holds a thread, an operation in flight or other state of a context: warps, scratchpad, banks, commands of
the engines and the sequencer, stores on their way, and accesses that peers have yet to answer (R313, R316). The products of a
context that is switched out are in its save areas (R308). -/
def State.onCore (s : State) (c ctx : Nat) : Bool :=
  let mine := fun (t : Nat) => (s.team t).core == c && (s.team t).ctx == ctx
  s.teams.any (fun m => m.core == c && m.ctx == ctx && !m.retired && m.started &&
    (m.warps.any Warp.resident || (m.padIn && decide (0 < m.scratch)))) ||
  s.cmds.any (fun d => mine d.team) ||
  s.peers.any (fun r => decide (r.team < s.teams.length) && mine r.team) ||
  (!(s.ctx ctx).out.contains c && (s.core c).seq.any (fun l => l.any fun q => (s.team q.gang.team).ctx == ctx)) ||
  (s.core c).banks.any (fun l => l.any fun b => match b.owner with | some g => (s.team g.team).ctx == ctx | none => false) ||
  s.stores.any (fun x => x.core == c && (s.team x.team).ctx == ctx)

/-- Log an error in a core's banks: the lowest that is free; with none free, OVER in each for an uncorrected error, or
one more corrected error in bank 0 (R327). -/
def State.mcLog (s : State) (c unit : Nat) (syn : BitVec 32) (pa : Option Nat) (uc : Bool) : State :=
  let rec_ : McBank :=
    [BitVec.ofNat 64 (2 ^ 63 + uc.toNat * 2 ^ 62 + pa.isSome.toNat * 2 ^ 60 + unit % 256 * 2 ^ 48 + syn.toNat),
     BitVec.ofNat 64 ((pa.getD 0) % 2 ^ 52), BitVec.ofNat 64 s.clk, if uc then 0 else 1]
  s.modCore c fun x =>
    match x.mc.findIdx? fun b => !(b.getD 0 0).getLsbD 63 with
    | some k => { x with mc := x.mc.set k rec_ }
    | none => { x with mc := if uc then x.mc.map fun b => b.modify 0 (· ||| BitVec.ofNat 64 (2 ^ 61))
                             else x.mc.modify 0 fun b => b.modify 3 fun w => if w.toNat % 65536 = 65535 then w else w + 1 }

/-- A machine check on a core: it halts, the error is recorded, the host is told, and every context with state there
fails with MCHECK (R313). -/
def State.machineCheck (s : State) (c unit : Nat) (syn : BitVec 32) (pa : Option Nat) : State :=
  let s := (s.mcLog c unit syn pa true).modCore c fun x => { x with halted := true, issue := x.issue.map fun _ => none }
  let s := s.emit (.machineCheck c)
  (List.range s.ctxs.length).foldl (fun s k => if s.onCore c k then s.failContext k cMcheck Blame.none else s) s

/-- The unit that holds an address, for a bank's UNIT field: 7 HBM, 8 bulk. -/
def unitOf (pa : Nat) : Nat := if paHbm pa then 7 else 8
/-- A core consumes a poisoned sector (R314): a machine check on it. DESIGN CHOICE, log entry 40: R327 lists no unit for host
memory, and one of its bytes is logged under 1, the L2. -/
def State.consume (s : State) (c : Nat) (l : Loc) : State :=
  match l with
  | .mem pa => s.machineCheck c (unitOf pa) (Config.syndrome pa) (some pa)
  | .pad _ off => s.machineCheck c 2 (Config.syndrome off) none
  | .peer pa => s.machineCheck c 9 (Config.syndrome pa) (some pa)
  | .host _ a => s.machineCheck c 1 (Config.syndrome a) none
  | .away _ _ => s

end Sys2Proof.Machine
end

