-- ==== Sys2Proof/Machine/Sequencer.lean ====
section
/-! DEFINITION. Gangs, accumulator banks, the matrix sequencer and the arithmetic of a K row (R93 to R98, R128 to R150). -/

namespace Sys2Proof.Machine

open Sys2Proof

/-! ### Gangs (R131) -/

/-- The gang that a home warp names. -/
def State.gangOf (s : State) (t w : Nat) : Gang :=
  let g := (s.warp t w).regs.gang
  { team := t, val := g, solo := if g = 0 then w else 0 }
/-- The members of a gang, lowest first. -/
def Gang.members (g : Gang) : List Nat :=
  if g.val = 0 then [g.solo]
  else ((List.range 16).filter fun k => g.val.getLsbD k).map fun k => bits g.val.toNat 31 20 + k
/-- Whether a home warp's GANG is valid. -/
def State.gangValid (s : State) (t w : Nat) : Bool :=
  let g := s.gangOf t w
  let ms := g.members
  g.val == 0 || (decide (2 ≤ ms.length) && decide (ms.length ≤ 6) && ms.contains w &&
    ms.all fun m => decide (m < (s.team t).nWarps))
/-- Whether every thread of a home warp has exited. -/
def State.warpGone (s : State) (t w : Nat) : Bool := ((s.team t).members w).all fun i => (s.thread t i).gone

/-! ### Banks (R134 to R138) -/

/-- Change them. -/
def State.modSeq (s : State) (c p : Nat) (f : List SeqCmd → List SeqCmd) : State :=
  s.modCore c fun x => { x with seq := x.seq.modify p f }
/-- A bank. -/
def State.bank (s : State) (c p b : Nat) : AccBank := ((s.core c).banks.getD p []).getD b AccBank.reset
/-- Change a bank. -/
def State.modBank (s : State) (c p b : Nat) (f : AccBank → AccBank) : State :=
  s.modCore c fun x => { x with banks := x.banks.modify p fun l => l.modify b f }
/-- The banks of a range. -/
def range (b n : Nat) : List Nat := (List.range n).map (b + ·)
/-- Word k of a range (R134). -/
def State.accWord (s : State) (c p b k : Nat) : Word := mget 0 (s.bank c p (b + k / 4096)).words (k % 4096)
/-- Write word k of a range. -/
def State.setAcc (s : State) (c p b k : Nat) (v : Word) : State :=
  s.modBank c p (b + k / 4096) fun x => { x with words := mset 0 x.words (k % 4096) v }
/-- Whether a gang holds a bank, there or spilled. -/
def State.holds (s : State) (c p : Nat) (g : Gang) (b : Nat) : Bool :=
  (s.bank c p b).owner == some g || s.spilled.any fun x => x.gang == g && x.bank == b
/-- Whether a bank of a range is held by another gang. -/
def State.foreign (s : State) (c p : Nat) (g : Gang) (bs : List Nat) : Bool :=
  bs.any fun b => match (s.bank c p b).owner with | some o => o != g | none => false
/-- Restore the spilled banks of a gang in a range; they must be free of other gangs (R138). -/
def State.restore (s : State) (c p : Nat) (g : Gang) (bs : List Nat) : State :=
  bs.foldl (fun s b => match s.spilled.find? fun x => x.gang == g && x.bank == b with
    | some x => { s.modBank c p b fun _ => x.acc with spilled := s.spilled.filter fun y => y != x }
    | none => s) s
/-- Bring the spilled banks of a range back for a gang's command, where no other gang stands there (R138). -/
def State.bring (s : State) (c p : Nat) (g : Gang) (bs : List Nat) : Option State :=
  if bs.any fun b => s.spilled.any fun x => x.gang == g && x.bank == b then
    (if s.foreign c p g bs then none else some (s.restore c p g bs))
  else some s
/-- The fault that a bank of a range holds, if any (R144). DESIGN CHOICE, log entry 54: of two stopped products the one on
the lowest bank is reported. -/
def State.bankFault (s : State) (c p : Nat) (bs : List Nat) : Option (BankFault × Product) :=
  bs.findSome? fun b => (s.bank c p b).fault
/-- Change the banks, there or spilled, that hold the fault of a stop. -/
def State.modStop (s : State) (n : Nat) (g : AccBank → AccBank) : State :=
  let cut := fun (b : AccBank) => match b.fault with
    | some (f, _) => if f.stop = n then g b else b
    | none => b
  { s with cores := s.cores.map (fun x => { x with banks := x.banks.map fun l => l.map cut }),
           spilled := s.spilled.map fun x => { x with acc := cut x.acc } }
/-- Clear the fault of a stop. -/
def State.clearStop (s : State) (n : Nat) : State := s.modStop n fun b => { b with fault := none }
/-- The fault of a stop has been reported (R144). -/
def State.tellStop (s : State) (n : Nat) : State :=
  s.modStop n fun b => { b with fault := b.fault.map fun e => ({ e.1 with told := true }, e.2) }

/-! ### Operands of a product (R139, R140) -/

/-- Fields of an operand record. -/
structure MRec where
  a  : Nat
  as : Nat
  aS : Bool
  b  : Nat
  bs : Nat
  bS : Bool
  k  : Nat
deriving DecidableEq, Repr

/-- Read the record of a product. -/
def mrec (r : List Word) : MRec :=
  let w := fun k => (r.getD k 0).toNat
  { a := w 0 + w 1 * 2 ^ 32, as := w 2, aS := bits (w 3) 8 8 == 1, b := w 4 + w 5 * 2 ^ 32, bs := w 6,
    bS := bits (w 3) 9 9 == 1, k := bits (w 3) 6 0 }
/-- The first failing check of a record at the first arrival (R140). -/
def recCheck (fmt : Nat) (r : List Word) : Option (Nat × Nat) :=
  let w := fun k => (r.getD k 0).toNat
  let x := mrec r
  if x.k = 0 ∨ 64 < x.k ∨ bits (w 3) 31 10 ≠ 0 ∨ bits (w 3) 7 7 ≠ 0 ∨ w 7 ≠ 0 then some (fMtxrec, 0)
  else if fmt ≠ 3 ∧ (x.aS ∨ x.bS) then some (fMtxfmt, 0)
  else
    let bad := fun (st : Bool) (a d : Nat) => let n := if st then 256 else 128; a % n ≠ 0 ∨ d % n ≠ 0
    if bad x.aS x.a x.as then some (fMisalign, x.a) else if bad x.bS x.b x.bs then some (fMisalign, x.b) else none

/-- Elements of a K row. -/
def rowLen (fmt : Nat) : Nat := if fmt = 1 then 128 else if fmt = 2 then 256 else 64
/-- The fetches of one operand for a K row: address and bytes. -/
def rowFetch (base stride : Nat) (strided : Bool) (rows j : Nat) : List (Nat × Nat) :=
  if rows = 0 then []
  else if strided then (List.range 64).map fun t => (base + (64 * j + t) * stride, 2 * rows)
  else (List.range rows).map fun i => (base + i * stride + 128 * j, 128)

/-- Probe one fetch of a product, with its scale byte for a Q format: its places, or its fault, or the page it waits
for (R87, R93, R144). A span window is RAW, which no product takes (R174). -/
def State.probeFetch (s : State) (t fmt va n : Nat) : State × Except Probe (Loc × Option Loc) :=
  if 2 ^ 64 ≤ va then (s, .error (.fault fAddrwrap (va % 2 ^ 64) false))
  else match checks14 false va n 1 with
    | some (c, a) => (s, .error (.fault c a false))
    | none => match s.checks59 t false va n { bad := fMtxfmt } (fun e => e.fmt == fmt && (fmt == 3 || e.geom == 2)) with
      | (s, .ok _ none) | (s, .remote _) => (s, .error (.fault fMtxfmt va false))
      | (s, .ok l (some _)) =>
        if fmt = 3 then (s, .ok (l, none))
        else
          let sa := ((s.ctxOf t).scb + va / 32) % 2 ^ 64
          match checks14 false sa 1 1 with
          | some (c, a) => (s, .error (.fault c a false))
          | none => match s.checks59 t false sa 1 { plain := true } (fun e => e.fmt == 0) with
            | (s, .ok m _) => (s, .ok (l, some m))
            | (s, p) => (s, .error p)
      | (s, p) => (s, .error p)

/-- Probe fetches in turn. -/
def State.probeFetches (s : State) (t fmt : Nat) : List (Nat × Nat) → State × List (Except Probe (Loc × Option Loc))
  | [] => (s, [])
  | (va, n) :: r =>
    let (s, x) := s.probeFetch t fmt va n
    let (s, xs) := s.probeFetches t fmt r
    (s, x :: xs)

/-- The fault at the lowest address of a list of probes. -/
def lowFault (ps : List Probe) : Option (Nat × Nat × Bool) :=
  ps.foldl (fun r p => match p, r with
    | .fault c a b, some (_, a0, _) => if a < a0 then some (c, a, b) else r
    | .fault c a b, none => some (c, a, b)
    | _, _ => r) none
/-- The absent pages of a list of probes. -/
def absentPages (ps : List Probe) : List PageKey :=
  (ps.flatMap fun p => match p with | .page ks => ks | _ => []).eraseDups

/-! ### The arithmetic of a K row (R94 to R97) -/

/-- A row ready for the dot product: NaR or poisoned, its integers and its scale. -/
structure Row where
  bad : Bool
  xs  : List Int
  e   : Int
deriving DecidableEq, Repr

/-- A Q row (R95). -/
def qRow (fmt : Nat) (bs : List Byte) (scale : Byte) : Row :=
  let xs : List Int := if fmt = 1 then bs.map fun b => sext b.toNat 8
    else bs.flatMap fun b => [sext b.toNat 4, sext (b.toNat / 16) 4]
  let e := sext scale.toNat 8
  { bad := e == -128, xs, e }
/-- A B16 row, aligned to its largest exponent (R96). -/
def bRow (vs : List Nat) : Row :=
  let xs := vs.map (fmB16.read false)
  let bad := xs.any fun x => match x with | .fin _ _ _ => false | _ => true
  let exps := xs.filterMap fun x => match x with
    | .fin _ m e => if m = 0 then none else some (e + Nat.log2 m)
    | _ => none
  match exps with
  | [] => { bad, xs := xs.map fun _ => 0, e := 0 }
  | e0 :: r =>
    let top := r.foldl max e0
    { bad, xs := xs.map fun x => match x with | .fin s m e => quant s m e (top - 14) | _ => 0, e := top - 14 }
/-- The exact dot product, which the residue channels of R94 recover. -/
def dot : List Int → List Int → Int
  | a :: as, b :: bs => a * b + dot as bs
  | _, _ => 0
/-- The value that a K row leaves in an accumulator word (R97). -/
def accumulate (c : Word) (a b : Row) : Word :=
  if a.bad || b.bad then BitVec.ofNat 32 fm32.nan
  else
    let x := dot a.xs b.xs
    let y := fm32.addAll 0 false [fm32.read false c.toNat, .fin (x < 0) x.natAbs (a.e + b.e)]
    BitVec.ofNat 32 y

/-- The rows of one operand from its places, for a product by its number. -/
def State.rowsOf (s : State) (core who : Nat) (fmt : Nat) (strided : Bool) (n : Nat) (ls : List (Loc × Option Loc)) :
    List Row :=
  let rd := fun (l : Loc) (k : Nat) => (s.engineLoc core who (l.add k)).toNat
  if strided then (List.range n).map fun i => bRow (ls.map fun l => rd l.1 (2 * i) + 256 * rd l.1 (2 * i + 1))
  else ls.map fun l =>
    if fmt = 3 then bRow ((List.range 64).map fun t => rd l.1 (2 * t) + 256 * rd l.1 (2 * t + 1))
    else qRow fmt ((List.range 128).map fun k => s.engineLoc core who (l.1.add k))
      (match l.2 with | some m => s.engineLoc core who m | none => 0)

/-- VCNT's fields, each taken as 128 when above 128 (R25). -/
def vcntM (v : Word) : Nat := min 128 (bits v.toNat 7 0)
def vcntN (v : Word) : Nat := min 128 (bits v.toNat 15 8)

/-! ### Running a product (R141, R144) -/

/-- How one K row ends. -/
inductive RowEnd where
  | row
  | finished
  | stopped
  | pages (keys : List PageKey)
  | poison (l : Loc)
  /-- its banks are spilled, and another gang holds their numbers (R138) -/
  | blocked
deriving DecidableEq, Repr

/-- Set MPROG of the members of a gang. -/
def State.setProg (s : State) (g : Gang) (j : Nat) : State :=
  g.members.foldl (fun s w => s.modWarp g.team w fun x => { x with regs := { x.regs with mprog := BitVec.ofNat 32 j } }) s
/-- A product ends: it leaves the sequencer, with what it has read of peers. -/
def State.dropSeq (s : State) (c p id : Nat) : State :=
  (s.farStale fun k => k.pasid == 1 && k.part == id).modSeq c p fun l => l.filter fun q => q.id != id
/-- A place in each 8-byte unit that n bytes from a place touch. -/
def Loc.unitPlaces (l : Loc) (n : Nat) : List Loc := if n = 0 then [] else ((List.range ((n + 7) / 8)).map fun k => l.add (8 * k)) ++ [l.add (n - 1)]
/-- The places of a row's fetches, one or more in each unit, with those of their scale bytes. -/
def rowUnits (sizes : List Nat) (ls : List (Loc × Option Loc)) : List Loc :=
  (sizes.zip ls).flatMap fun e => e.2.1.unitPlaces e.1 ++ e.2.2.toList

/-- The first poisoned place among the fetches of a row, of as many bytes as each fetches, and their scale bytes (R314). -/
def rowPoison (s : State) (c who : Nat) (sizes : List Nat) (ls : List (Loc × Option Loc)) : Option Loc :=
  let takes := fun (l : Loc) (n : Nat) => match l with
    | .peer _ => (List.range n).any fun k => s.enginePoison c who (l.add k)
    | l => s.takesPoison c l n
  (sizes.zip ls).findSome? fun e =>
    if takes e.2.1 e.1 then some e.2.1
    else match e.2.2 with | some m => if takes m 1 then some m else none | none => none

/-- Run one K row of a product, or end it when no row is left. Before the row is read, stores of its core that a unit of it would
mix with the home land, and what lies on other chips is asked for (R133, R161, R168, R335). -/
def State.runRow (s : State) (c p : Nat) (q : SeqCmd) (x : Product) : State × RowEnd :=
  let r := mrec x.record
  if r.k ≤ x.row then ((s.setProg x.gang 0).dropSeq c p q.id, .finished)
  else if s.foreign c p x.gang (range x.bank 4) then (s, .blocked)
  else
    let s := s.restore c p x.gang (range x.bank 4)
    let t := x.gang.team
    let none_ := x.vm = 0 ∨ x.vn = 0
    let fa := if none_ then [] else rowFetch r.a r.as r.aS x.vm x.row
    let fb := if none_ then [] else rowFetch r.b r.bs r.bS x.vn x.row
    let (s, pa) := s.probeFetches t x.fmt fa
    let (s, pb) := s.probeFetches t x.fmt fb
    let errs := (pa ++ pb).filterMap fun e => match e with | .error p => some p | .ok _ => none
    match lowFault errs with
    | some (code, addr, _) =>
      let f : BankFault := { code, addr, row := x.row, stop := s.nextId, told := false }
      let s := { s with nextId := s.nextId + 1 }
      let s := (range x.bank 4).foldl (fun s b => s.modBank c p b fun k => { k with fault := some (f, x) }) s
      ((s.setProg x.gang x.row).dropSeq c p q.id, .stopped)
    | none =>
      match absentPages errs with
      | k :: ks => (s.requestAll (dieOf c) (s.team t).ctx (k :: ks) false false, .pages (k :: ks))
      | [] =>
        let oks := fun (l : List (Except Probe (Loc × Option Loc))) =>
          l.filterMap fun e => match e with | .ok v => some v | .error _ => none
        let la := oks pa
        let lb := oks pb
        let sizes := (fa ++ fb).map Prod.snd
        let ls := rowUnits sizes (la ++ lb)
        match s.farNeeds q.id ls with
        | k :: ks => (s.requestAll (dieOf c) (s.team t).ctx (k :: ks) false false, .pages (k :: ks))
        | [] => match rowPoison s c q.id sizes (la ++ lb) with
        | some l => (s, .poison l)
        | none =>
          let s := s.unmixAll c ls
          let ra := s.rowsOf c q.id x.fmt r.aS x.vm la
          let rb := s.rowsOf c q.id x.fmt r.bS x.vn lb
          let s := (ra.zipIdx).foldl (fun s (a : Row × Nat) => (rb.zipIdx).foldl (fun s (b : Row × Nat) =>
            let k := a.2 * 128 + b.2
            s.setAcc c p x.bank k (accumulate (s.accWord c p x.bank k) a.1 b.1)) s) s
          ((s.farDrop 1 q.id).modSeq c p fun l => l.map fun y =>
            if y.id = q.id then { y with op := .product { x with row := x.row + 1 } } else y, .row)

/-- The earlier commands of a gang that name banks of a range (R129). Commands of another gang on the same numbers are
held ones whose banks are spilled (R138). -/
def State.seqBefore (s : State) (c p : Nat) (g : Gang) (id : Option Nat) (b n : Nat) : List SeqCmd :=
  (s.seqOf c p).filter fun q => q.gang == g && banksMeet q.bank q.count b n && (match id with | some k => decide (q.id < k) | none => true)
/-! ### Engine moves of ACLD and ACST, and of queued commands (R129, R145, R149) -/

/-- Put a value into the result that waits for it. -/
def Thread.fill (x : Thread) (key v : Nat) : Thread :=
  { x with pend := x.pend.map fun p => if p.key = key ∧ ¬ p.done then { p with value := some v } else p }
/-- Put the value of a queued ACRD or of a peer's answer into the result it belongs to, in the thread and in the
checkpoint that holds the thread. -/
def State.fillResult (s : State) (t i key v : Nat) : State :=
  let s := s.modThread t i fun x => x.fill key v
  let in_ := fun (e : Nat × Thread) => if e.1 = i then (e.1, e.2.fill key v) else e
  s.modWarp t ((s.team t).warpOf i) fun w => { w with spec := w.spec.map fun sp => { sp with threads := sp.threads.map in_ } }

/-- What ACRD reads at index k: one word, or the pair under W64 (R148). -/
def State.accRead (s : State) (c p b k : Nat) (w64 : Bool) : Nat :=
  if w64 then (s.accWord c p b (k / 2 * 2)).toNat + 2 ^ 32 * (s.accWord c p b (k / 2 * 2 + 1)).toNat
  else (s.accWord c p b k).toNat

/-- Do a queued command of the sequencer that is first in its banks' order: true when it is done. Products run row by
row, and moves to and from memory end with their engine command. Spilled banks come back first (R138). -/
def State.seqDo (s : State) (c p : Nat) (q : SeqCmd) : State × Bool :=
  match s.bring c p q.gang (range q.bank q.count) with
  | none => (s, false)
  | some s => match q.op with
  | .product _ => (s, false)
  | .acz => (((range q.bank q.count).foldl (fun s b => s.modBank c p b fun x => { x with words := [] }) s).dropSeq c p q.id, true)
  | .acrd t i key k w64 => ((s.fillResult t i key (s.accRead c p q.bank k w64)).dropSeq c p q.id, true)
  | .acwr ws => ((ws.foldl (fun s e => s.setAcc c p q.bank e.1 e.2) s).dropSeq c p q.id, true)
  | .acld _ | .acst _ => (s, false)

/-- Bytes of an element that ACST stores to a page of a format (R149). -/
def acstWidth (fmt : Nat) : Nat := if fmt = 3 ∨ fmt = 4 then 2 else 4
/-- The bytes that ACST stores for the outputs of one row of a tile, in the format of the page (R149). -/
def State.acstRow (s : State) (c p bank vn fmt i : Nat) : List Byte :=
  (List.range vn).flatMap fun j =>
    let x := (s.accWord c p bank (i * 128 + j)).toNat
    let v := if fmt = 3 then cvtFloat fm32 fmB16 0 false x else if fmt = 4 then cvtFloat fm32 fm16 0 false x else x
    leBytes (acstWidth fmt) v

/-- Advance every queued command that has nothing before it, as often as there are commands. -/
def State.seqAdvance (s : State) (c p : Nat) : Nat → State
  | 0 => s
  | n + 1 =>
    let r := (s.seqOf c p).foldl (fun (r : State × Bool) q =>
      if r.2 ∨ ¬ (r.1.seqBefore c p q.gang (some q.id) q.bank q.count).isEmpty then r else r.1.seqDo c p q) (s, false)
    if r.2 then r.1.seqAdvance c p n else r.1

/-- How the wait for the earlier commands on a range ends. -/
inductive Drain where
  | clear
  | held (slots : List (Nat × Nat))
  | pages (keys : List PageKey)
  /-- moves of the banks are under way, or commands behind them -/
  | engine
  /-- the same, and a product is to run after them -/
  | product
  /-- the banks of a product, from this one up, are spilled, and another gang holds their numbers (R138) -/
  | banks (b : Nat)
  | poison (l : Loc)
deriving DecidableEq, Repr

/-- Run the products that must be done before a command on a range until none is left or one cannot go on (R129). -/
def State.drainSeq (s : State) (c p : Nat) (g : Gang) (id : Option Nat) (b n : Nat) : Nat → State × Drain
  | 0 => (s, .product)
  | fuel + 1 =>
    let needs := s.seqNeeds c p g id b n
    match needs with
    | [] => (s, .clear)
    | q :: _ =>
      match heldSlots needs with
      | x :: xs => (s, .held (x :: xs))
      | [] => match q.op with
        | .product x =>
          match s.runRow c p q x with
          | (s, .pages ks) => (s, .pages ks)
          | (s, .poison a) => (s, .poison a)
          | (s, .blocked) => (s, .banks x.bank)
          | (s, .row) => s.drainSeq c p g id b n fuel
          | (s, _) => (s.seqAdvance c p (s.seqOf c p).length).drainSeq c p g id b n fuel
        | _ => (s, if needs.any fun q => match q.op with | .product _ => true | _ => false then .product else .engine)

/-- Rows that the products of a partition can still run: the fuel of a drain. -/
def State.drainFuel (s : State) (c p : Nat) : Nat := 66 * ((s.seqOf c p).length + 1)

/-- The drain of a range before a command. -/
def State.drain (s : State) (c p : Nat) (g : Gang) (b n : Nat) : State × Drain :=
  s.drainSeq c p g none b n (s.drainFuel c p)

/-- Resolve a guard slot for held products (R145, R240). -/
def State.resolveSeq (s : State) (t w k : Nat) (v : Bool) : State :=
  let m := s.team t
  let mine := fun (q : SeqCmd) => q.gang.team == t && (match q.op with | .product x => x.guard == some (w, k) | _ => false)
  let s := s.modSeq m.core m.part fun l =>
    if v then l.map fun q => match q.op with
      | .product x => if mine q then { q with op := .product { x with guard := none } } else q
      | _ => q
    else l.filter fun q => !mine q
  s.seqAdvance m.core m.part (s.seqOf m.core m.part).length

/-- GRES: resolve a slot for every engine (R240). -/
def State.resolve (s : State) (t w k : Nat) (v : Bool) : State :=
  if (s.warp t w).guards.getD k false then ((s.resolveSeq t w k v).resolveCmds t w k v).wakeBatches t else s

/-! ### The rendezvous latch (R132, R133, R145, R146) -/

/-- Whether every member of a latch's gang has arrived or exited. -/
def State.latchFull (s : State) (l : Latch) : Bool :=
  l.gang.members.all fun w => l.arrived.contains w || s.warpGone l.gang.team w

/-- The member that enters the handler for an MMA that is not an instruction (R146). -/
def State.latchHead (s : State) (l : Latch) : Nat :=
  match l.gang.members.find? fun w => !s.warpGone l.gang.team w with
  | some w => w
  | none => 0

/-- A full latch whose MMA is an instruction: the product is accepted, the latch empties, and the arrivers go on
(R132). A guarded product is held; the faulted state of its banks clears (R144, R145). The banks that the gang has
spilled come back first; none of another gang may stand there (R138). -/
def State.accept (s : State) (l : Latch) : State :=
  let g := l.gang
  let m := s.team g.team
  let c := m.core
  let p := m.part
  let w := l.word.toNat
  let bank := bits w 7 4
  let fmt := bits w 10 8
  let s := s.restore c p g (range bank 4)
  let s := match s.bankFault c p (range bank 4) with
    | some (f, _) => s.clearStop f.stop
    | none => s
  let x : Product := { gang := g, bank, fmt, record := l.record, vm := vcntM l.vcnt, vn := vcntN l.vcnt,
                       row := bits l.mprog.toNat 5 0, guard := l.guard }
  let (id, s) := s.fresh
  let s := s.modSeq c p fun q => q ++ [{ id, gang := g, bank, count := 4, op := .product x }]
  let s := s.modTeam g.team fun m => { m with latches := m.latches.filter fun y => y.gang != g }
  let s := match l.guard with
    | some (v, k) => s.modWarp g.team v fun y => { y with guards := y.guards.set k true }
    | none => s
  s.unblock g.team (s.waiting g.team fun _ v => v == .gang l.id) true

/-- Whether a full latch waits for banks of another gang to leave the numbers that its product names (R138). -/
def State.latchBlocked (s : State) (l : Latch) : Bool :=
  let m := s.team l.gang.team
  s.latchFull l && l.bad.isNone && s.foreign m.core m.part l.gang (range (bits l.word.toNat 7 4) 4)
/-- Accept every full latch of a team that can be, after an exit (R132). With banks of another gang in the way of a restore,
its arrivers stand where they are until these have left (R138). A latch whose MMA is not an instruction is entered by its
head (R146). -/
def State.latchCheck (s : State) (t : Nat) : State :=
  (s.team t).latches.foldl (fun s l =>
    if s.latchFull l ∧ l.bad.isNone ∧ ¬ s.latchBlocked l then s.accept l else s) s

end Sys2Proof.Machine
end

