-- ==== Sys2Proof/Machine/Agree.lean ====
section
/-! DEFINITION. Communicators and machine-wide agreement: members and ranks (R340), contributions, withdrawal and the
decision (R345 to R348), what a decision does to a member (R250), and failure (R349). -/

namespace Sys2Proof.Machine

open Sys2Proof

/-! ### Communicators and members -/

/-- The communicator in a slot. -/
def State.comm (s : State) (slot : Nat) : Option Comm := s.comms.find? fun c => c.slot == slot
/-- The open communicator that a home warp's COMM names in its context (R340). -/
def State.commOf (s : State) (t w : Nat) : Option Comm :=
  s.comms.find? fun c => c.ctx == (s.team t).ctx && c.id == bits (s.warp t w).regs.comm.toNat 15 0 && !c.failed
/-- The rank that a home warp names. -/
def State.rankOf (s : State) (t w : Nat) : Nat := bits (s.warp t w).regs.crank.toNat 19 0
/-- The checks of R340 at issue: an open slot, a rank of this chip, and no other home warp bound to it. -/
def State.member (s : State) (t w : Nat) : Option (Comm × Nat) :=
  match s.commOf t w with
  | none => none
  | some c =>
    let r := s.rankOf t w
    if c.rbase ≤ r ∧ r < c.rbase + c.rcnt ∧
        (c.ranks.all fun x => x.rank != r || x.gone.isSome || (x.team == t && x.warp == w)) then some (c, r) else none
/-- Bind a rank to a home warp (R340); it stays bound until the warp's last thread exits. -/
def State.bindRank (s : State) (slot r t w : Nat) : State :=
  s.modComm slot fun c => if c.ranks.any fun x => x.rank == r && x.gone.isNone then c
    else { c with ranks := c.ranks ++ [{ rank := r, team := t, warp := w, gone := none }] }
/-- Whether an earlier home warp of the same issue, of those that pass their checks, binds the rank that a home warp names
(R340). -/
def State.rival (s : State) (t : Nat) (ws : List Nat) (v : Nat) : Bool :=
  match s.member t v with
  | none => false
  | some (c, r) => ws.any fun u => decide (u < v) && (match s.member t u with
    | some (d, q) => d.slot == c.slot && q == r
    | none => false)
/-- Whether this chip is the root chip (R337). -/
def State.isRoot (s : State) (c : Comm) : Bool := c.root == s.mgmt.chip

/-! ### What is known of a sequence (R345) -/

/-- What a communicator knows of a sequence. -/
def Comm.seqInfo (c : Comm) (n : Nat) : Agree :=
  match c.agree.find? fun a => a.seq == n with
  | some a => a
  | none => { seq := n, parts := [], outcome := none }
/-- Change it. -/
def Comm.modSeq (c : Comm) (n : Nat) (f : Agree → Agree) : Comm :=
  if c.agree.any fun a => a.seq == n then
    { c with agree := c.agree.map fun a => if a.seq = n then f a else a }
  else { c with agree := c.agree ++ [f { seq := n, parts := [], outcome := none }] }
/-- The parts that bear on a sequence: its own, ranges withdrawn before it, and this chip's withdrawn ranks. -/
def Comm.parts (c : Comm) (n : Nat) : List (Nat × Nat × Bool × Option Bool × Bool) :=
  (c.seqInfo n).parts ++
  (c.agree.flatMap fun a => if a.seq < n then a.parts.filter fun p => p.2.2.2.1.isNone else []) ++
  (c.ranks.filterMap fun r => match r.gone with
    | some g => if g ≤ n then some (r.rank, r.rank + 1, false, none, true) else none
    | none => none)
/-- Whether parts cover the ranks from lo up to hi. -/
def covered (ps : List (Nat × Nat × Bool × Option Bool × Bool)) (hi : Nat) : Nat → Nat → Bool
  | 0, lo => hi ≤ lo
  | k + 1, lo =>
    if hi ≤ lo then true
    else match ps.find? fun p => decide (p.1 ≤ lo) && decide (lo < p.2.1) with
      | some p => covered ps hi k p.2.1
      | none => false
/-- The part that combines the parts inside a range: kind, value (none where every rank has withdrawn), and whether
some rank has withdrawn. -/
def combine (ps : List (Nat × Nat × Bool × Option Bool × Bool)) (lo hi : Nat) : Bool × Option Bool × Bool :=
  let here := ps.filter fun p => decide (lo ≤ p.1) && decide (p.2.1 ≤ hi)
  let vs := here.filterMap fun p => p.2.2.2.1.map fun v => (p.2.2.1, v)
  let isAny := match vs with | (k, _) :: _ => k | [] => false
  (isAny, match vs with | [] => none | _ => some (if isAny then vs.any Prod.snd else vs.all Prod.snd),
   here.any fun p => p.2.2.2.2)
/-- Whether contributions of both kinds stand in one sequence. -/
def mixed (ps : List (Nat × Nat × Bool × Option Bool × Bool)) : Bool :=
  ps.any (fun p => p.2.2.2.1.isSome && p.2.2.1) && ps.any fun p => p.2.2.2.1.isSome && !p.2.2.1
/-- The largest canonical subtree that holds a rank and lies in [lo, hi) (R99, R345). -/
def maxSub (n lo hi r : Nat) : Nat → Nat × Nat
  | 0 => (r, r + 1)
  | l + 1 =>
    let a := r / 2 ^ (l + 1) * 2 ^ (l + 1)
    let b := min n (a + 2 ^ (l + 1))
    if lo ≤ a ∧ b ≤ hi then (a, b) else maxSub n lo hi r l

/-! ### Resolution at a member (R250, R347) -/

/-- CBSTAT. -/
def cbstat (wrong pred isPart : Bool) (o : Nat) : Word :=
  BitVec.ofNat 32 (wrong.toNat * 32 + pred.toNat * 16 + isPart.toNat * 8 + o)

/-- Put the threads of a member back as its checkpoint holds them (R248). Faults of commands that ended since stay
pending, and requests to peers that a restored result waits for stay open. -/
def State.rollback (s : State) (t w : Nat) (sp : Spec) : State :=
  let s := s.ungroup t sp.members
  let awaited := fun (r : PeerReq) => r.key == 0 || sp.threads.any fun (e : Nat × Thread) =>
    e.1 == r.tidx && e.2.pend.any fun (p : Pend) => p.key == r.key
  let s := { s with peers := s.peers.filter fun r => !(r.team == t && sp.members.contains r.tidx) || awaited r }
  let back := fun (y : Thread) (x : Thread) => ({ y with faults := x.faults, wait := x.wait, issued := x.issued, readyAt := x.readyAt } : Thread)
  let s := sp.threads.foldl (fun (s : State) (e : Nat × Thread) => s.modThread t e.1 (back e.2)) s
  s.modWarp t w fun x => { x with regs := sp.regs, trail := [], clean := [] }

/-- Register the held stores of a confirmed path at their homes, one after another in program order and after every store
to those bytes before them (R172, R250); those of a member that is out come from the save area (R251). -/
def State.register (s : State) (t w : Nat) (sp : Spec) : State :=
  sp.held.foldl (fun (s : State) (e : Nat × List (BitVec 8) × Nat) =>
    let i := w * (s.team t).width + e.2.2
    if (s.warp t w).resident then ((s.settleBytes e.1 e.2.1.length).storeLoc t i (.mem e.1) e.2.1).settleThread t i
    else s.homeWrite e.1 e.2.1) s

/-- Send every thread of a list to an address, before its header: its clause is over, and with it its lookahead windows. -/
def State.sendTo (s : State) (t : Nat) (is : List Nat) (pc : DWord) : State :=
  (s.ungroup t is).wake t is fun x =>
    { x with pc, mid := none, skip := 0, released := false, refetch := false, noBreak := none,
             pend := x.open_.map fun p => { p with clause := 1 } }

/-- A decision reaches a member: outcome 1 true, 2 false, 3 aborted, 4 LOST (R250). -/
def State.resolveMember (s : State) (t w : Nat) (o : Nat) (isPart : Bool) : State :=
  let x := s.warp t w
  let wrong := match x.spec with
    | some sp => (match sp.pred with | some p => decide (o ≤ 2) && p != (o == 1) | none => false)
    | none => false
  let pred := match x.spec with | some sp => sp.pred.isSome | none => false
  let s := s.modWarp t w fun x => { x with cseq := x.cseq + 1, cbstat := cbstat wrong pred isPart o, spec := none }
  let live := ((s.team t).members w).filter fun i => !(s.thread t i).gone
  let s := match x.spec with
    | none => s.sendTo t live x.regs.cbabort
    | some sp =>
      let r := o == 1
      if 2 < o then
        let s := if sp.pred.isSome then s.rollback t w sp else s
        s.sendTo t sp.members sp.regs.cbabort
      else match sp.pred with
        | none =>
          let s := sp.members.foldl (fun (s : State) (i : Nat) => s.putPred t i sp.pd r) s
          s.wake t sp.members fun y => { y with released := true }
        | some p =>
          if p = r then
            let s := s.register t w sp
            s.wake t (live.filter fun i => match (s.thread t i).wait with | .agree _ => true | _ => false) fun y =>
              { y with released := true }
          else
            let s := s.rollback t w sp
            let s := sp.members.foldl (fun (s : State) (i : Nat) => s.putPred t i sp.pd r) s
            let c := Common.ofWord (sp.clause.word sp.clause.cnt)
            s.sendTo t sp.members (if c.nas = 2 ∧ r then sp.clause.target else sp.clause.fall)
  let s := s.acquire (s.team t).core
  s.wakeAgree.tidy t

/-- Whether a member has a CBR or an abort of its own outstanding: it waits for its next sequence. -/
def State.outstanding (s : State) (t w : Nat) : Bool :=
  (s.warp t w).spec.isSome || ((s.team t).members w).any fun i => match (s.thread t i).wait with | .agree _ => true | _ => false

/-- Deliver the decision of a sequence to the members that wait for it (R346). -/
def State.deliver (s : State) (slot n : Nat) : State :=
  match s.comm slot with
  | none => s
  | some c => match (c.seqInfo n).outcome with
    | none => s
    | some (o, isPart) => c.ranks.foldl (fun s r =>
        if r.gone.isNone ∧ (s.warp r.team r.warp).cseq.toNat + 1 = n ∧ s.outstanding r.team r.warp
        then s.resolveMember r.team r.warp o.toNat isPart else s) s

/-! ### Failure (R349) -/

/-- A communicator fails: its members' sequences resolve LOST, with the withdrawals that this chip knows or has been told of
(R347), its collectives complete with nothing more written, and its context fails. -/
def State.loseComm (s : State) (slot : Nat) (told : Bool) : State :=
  match s.comm slot with
  | none => s
  | some c =>
    if c.failed then s
    else
      let isPart := fun (n : Nat) => told || (c.parts n).any fun p => p.2.2.2.2
      let s := c.ranks.foldl (fun s r => if r.gone.isNone ∧ s.outstanding r.team r.warp
        then s.resolveMember r.team r.warp 4 (isPart ((s.warp r.team r.warp).cseq.toNat + 1)) else s) s
      let s := (s.cmds.filter fun d => match d.op with | .coll k _ _ => k == slot | _ => false).foldl
        (fun s d => s.finishCmd { d with fault := none }) s
      ((s.modComm slot fun c => { c with told := c.told || told }).failContext c.ctx cComm Blame.none).modComm slot fun c =>
        { c with failed := true }
/-- A communicator fails of itself. -/
def State.failComm (s : State) (slot : Nat) : State := s.loseComm slot false

/-! ### Messages and decisions (R339, R345) -/

/-- Send a message of a communicator to a chip, or hold it until it may flow. -/
def State.sendTo_ (s : State) (slot chip : Nat) (m : FMsg) : State :=
  match s.comm slot with
  | some c => s.sendTag c (c.flows s.mgmt.chip chip) m
  | none => s
/-- Send a message to the root chip. -/
def State.sendRoot (s : State) (slot : Nat) (m : FMsg) : State :=
  match s.comm slot with
  | some c => s.sendTag c c.acked m
  | none => s
/-- The root decides a sequence once, tells the chips that have joined, holds the message for the others, and delivers
it to its own members. Outcome 0 is the decision without an outcome, of which nothing is sent. -/
def State.decide_ (s : State) (slot n : Nat) (o : BitVec 3) (isPart : Bool) : State :=
  match s.comm slot with
  | none => s
  | some c =>
    if (c.seqInfo n).outcome.isSome then s
    else
      let s := s.modComm slot fun c => c.modSeq n fun a => { a with outcome := some (o, isPart) }
      if o = 0 then s
      else
        let s := (c.others s.mgmt.chip).foldl (fun s k => s.sendTo_ slot k (.decision c.ftag n o isPart k)) s
        s.deliver slot n

/-- The root decides a sequence when every leaf is known (R345). -/
def State.tryDecide (s : State) (slot n : Nat) : State :=
  match s.comm slot with
  | none => s
  | some c =>
    let ps := c.parts n
    if mixed ps then s.failComm slot
    else if covered ps c.nrank (ps.length + 1) 0 then
      match combine ps 0 c.nrank with
      | (_, none, _) => s.decide_ slot n 0 true
      | (_, some v, isPart) => s.decide_ slot n (if v then 1 else 2) isPart
    else s

/-- What a chip does when one more of its ranks is known in a sequence: the root looks whether it can decide; another
chip forwards the subtree that is now complete (R345). -/
def State.forward (s : State) (slot n r : Nat) : State :=
  match s.comm slot with
  | none => s
  | some c =>
    if s.isRoot c then s.tryDecide slot n
    else
      let ps := c.parts n
      let (lo, hi) := maxSub c.nrank c.rbase (c.rbase + c.rcnt) r 20
      if mixed ps then s.failComm slot
      else if covered ps hi (ps.length + 1) lo then
        let (isAny, v, isPart) := combine ps lo hi
        s.sendRoot slot (.contribution c.ftag n lo hi isAny v isPart)
      else s

/-- A member contributes (R247). A leaf that is already known stays as it is. -/
def State.contribute (s : State) (slot n r : Nat) (isAny v : Bool) : State :=
  let known := match s.comm slot with | some c => (c.parts n).any fun p => p.1 == r && p.2.1 == r + 1 | none => true
  if known then s
  else (s.modComm slot fun c => c.modSeq n fun a => { a with parts := a.parts ++ [(r, r + 1, isAny, some v, false)] }).forward
    slot n r
/-- An abort reaches the root (R345, R252): it decides the sequence where nothing has. -/
def State.abortAt (s : State) (slot n : Nat) : State :=
  match s.comm slot with
  | none => s
  | some c => s.decide_ slot n 3 ((c.parts n).any fun p => p.2.2.2.2)
/-- A member aborts (R252). -/
def State.abort (s : State) (slot n : Nat) : State :=
  match s.comm slot with
  | none => s
  | some c => if s.isRoot c then s.abortAt slot n else s.sendRoot slot (.abort c.ftag n)

/-- The last thread of a home warp exits: each rank bound to it withdraws from its next sequence and every later one
(R340, R345). Every subtree that is complete by it goes on, also of later sequences that other ranks have withdrawn from; and
the other chips are told, whose collectives wait for the rank (R343). DESIGN CHOICE, log entry 35: the manual does not say how. -/
def State.withdraw (s : State) (t w : Nat) : State :=
  s.comms.foldl (fun s c => (c.ranks.filter fun r => r.team == t && r.warp == w && r.gone.isNone).foldl (fun (s : State) (r : Rank) =>
    let n := (s.warp t w).cseq.toNat + 1
    let s := s.modComm c.slot fun c =>
      { c with ranks := c.ranks.map fun x => if x = r then { x with gone := some n } else x }
    let later := (c.agree.map Agree.seq ++ c.ranks.filterMap Rank.gone).filter fun k => decide (n < k)
    let s := ((n :: later).eraseDups).foldl (fun s k => s.forward c.slot k r.rank) s
    (c.others s.mgmt.chip).foldl (fun (s : State) (chip : Nat) =>
      s.sendTo_ c.slot chip (.withdrawn c.ftag n r.rank chip)) s) s) s

end Sys2Proof.Machine
end

