-- ==== Sys2Proof/Machine/Spin.lean ====
section
/-! DEFINITION. The spin detectors (R218, R219): what an attached detector records of each word, and when an iteration
of its loop qualifies. -/

namespace Sys2Proof.Machine

open Sys2Proof

/-- Change the detector attached to a group. -/
def State.modSpin (s : State) (t num : Nat) (f : Spin → Option Spin) : State :=
  let m := s.team t
  let g := fun (l : List Spin) => l.filterMap fun d => if d.team = t ∧ d.num = num then f d else some d
  s.modCore m.core fun x => { x with spins := x.spins.modify m.part g }
/-- The detector attached to a group. -/
def State.spin (s : State) (t num : Nat) : Option Spin :=
  let m := s.team t
  ((s.core m.core).spins.getD m.part []).find? fun d => d.team == t && d.num == num

/-- What an iteration may not execute (R218, condition 2). -/
def spinBad (i : Instr) (c : Common) : Bool :=
  c.nas == 3 || (match i with
  | .st _ | .stl _ | .sts _ | .stt _ | .qst _ | .atom _ | .red _ | .atoms _ | .pgreq _ | .swinit _ | .swwait _ | .seal _
  | .waitb _ | .calli _ | .barArrive _ | .barWait _ | .barSync _ | .sbarArrive _ | .sbarWait _ | .sbarSync _ | .watch _
  | .watchClr _ | .wait _ | .sleep _ | .cbr _ | .cbsync _ | .cbsyncAbort _ | .gres _ | .reca _ | .recc _ | .recf _
  | .launch _ | .signal _ | .alloc _ | .free _ | .mma _ | .acz _ | .acrd _ | .acwr _ | .acld _ | .acst _ | .cpy _
  | .cpyg _ | .cpys _ | .cpyt _ | .walk _ | .crdc _ | .calr _ | .crsc _ | .calg _ | .cbcs _ | .cbar _ => true
  | .rds w => w.sc == 0x29 || w.sc == 0x2A
  | _ => false)

/-- The destinations of a word as numbers: vector registers, then scalars, windows and predicates. -/
def destKeys (i : Instr) : List Nat :=
  (i.uses.flatMap fun u => if !u.write then [] else match opndOf u.code with
    | .v k => (List.range u.regs).map (k + ·)
    | .s k => (List.range u.regs).map (1000 + k + ·)
    | .ew k => [2000 + k]
    | _ => []) ++ (i.predDests.filterMap fun p => if p = 7 then none else some (3000 + p.toNat))

/-- What a destination holds for a thread, a result on its way included. -/
def State.destBits (s : State) (t i key : Nat) : Nat :=
  let x := s.thread t i
  if key < 1000 then
    match x.open_.findSome? fun p => match opndOf p.dst, p.value with
      | .v k, some v => if k ≤ key ∧ key < k + p.regs then some (v / 2 ^ (32 * (key - k)) % 2 ^ 32) else none
      | _, _ => none with
    | some v => v
    | none => (x.v.getD key 0).toNat
  else if key < 2000 then ((s.warp t ((s.team t).warpOf i)).regs.s.getD (key - 1000) 0).toNat
  else if key < 3000 then (x.window (key - 2000)).toNat
  else (x.pred (BitVec.ofNat 3 (key - 3000))).toNat

/-- The key under which the executing threads of a word are recorded (R218, condition 1). -/
abbrev spinThreads : Nat := 4000
/-- Record a word that the attached group has executed. -/
def State.spinWord (s : State) (k : Iss) (i : Instr) (c : Common) (ex : List Nat) : State :=
  match s.spin k.team k.num with
  | none => s
  | some _ =>
    let ws := ex.flatMap fun t => (t, spinThreads, 0) :: (destKeys i).map fun d => (t, d, s.destBits k.team t d)
    s.modSpin k.team k.num fun d => some { d with bad := d.bad || spinBad i c, writes := d.writes ++ ws }

/-- Record the sectors that a load reads, and the bits it returns (R218, condition 5). -/
def State.spinReads (s : State) (k : Iss) (ls : List (Loc × Nat × Nat)) : State :=
  match s.spin k.team k.num with
  | none => s
  | some _ => s.modSpin k.team k.num fun d =>
      some { d with sectors := (d.sectors ++ ls.flatMap fun l => sectorsOf l.1 l.2.1).eraseDups,
                    reads := d.reads ++ ls.map fun l => (l.2.1, l.2.2) }

/-- Record a clause of the attached group: an iteration that reaches a fifth cannot qualify, and the detector is released
(R218, condition 1). -/
def State.spinClause (s : State) (t num : Nat) (pc : DWord) : State :=
  match s.spin t num with
  | none => s
  | some _ => s.modSpin t num fun d => if 4 ≤ d.clauses.length then none else some { d with clauses := d.clauses ++ [pc] }

/-- An iteration ends: the first is the reference, a later one counts or releases the detector. -/
def Spin.iterate (d : Spin) : Option Spin :=
  let it := (d.clauses, d.writes, d.reads)
  let ok := !d.bad && decide (((d.writes.map fun w => w.2.1).filter (· != spinThreads)).eraseDups.length ≤ 8) &&
    decide (d.sectors.length ≤ 4)
  let next : Spin := { d with clauses := [], writes := [], sectors := [], reads := [], armed := d.sectors, last := some it }
  match d.last with
  | none => if ok then some next else none
  | some l => if ok ∧ l = it then some { next with count := d.count + 1 } else none

/-- The groups of a team leave a clause: a taken backward transfer to the loop's header ends an iteration, and a free
detector of the partition attaches to a group that makes one by a selector or jump that R218 lists (`attach`). -/
def State.spinTransfer (s : State) (t num : Nat) (attach : Bool) (clause pc : DWord) : State :=
  if pc.toNat ≤ clause.toNat then
    match s.spin t num with
    | some d => if d.head = pc then s.modSpin t num Spin.iterate else s
    | none =>
      if ¬ attach then s else
      let m := s.team t
      let live := ((s.core m.core).spins.getD m.part []).filter fun d => (s.group d.team d.num).isSome
      let d : Spin := { team := t, num, head := pc, clauses := [], writes := [], sectors := [], armed := [], reads := [], bad := false,
                        last := none, count := 0 }
      let l := if live.length < 4 then live ++ [d] else live
      s.modCore m.core fun x => { x with spins := x.spins.set m.part l }
  else s

/-- Whether a group is to be declared spinning (R218). -/
def State.spinning (s : State) (t num : Nat) : Option Spin :=
  match s.spin t num with
  | some d => if (s.ctxOf t).spinn ≤ d.count then some d else none
  | none => none

end Sys2Proof.Machine
end

