-- ==== Sys2Proof/Machine/Ops.lean ====
section
/-! DEFINITION. Taking a trap (R294 to R301), a thread's exit (R46, R217, R229), leaving a word by its selector
(R46 to R49, R207), what is tested before a word (R56, R57, R312), and the frame in which every word runs. -/

namespace Sys2Proof.Machine

open Sys2Proof

/-! ### Leaving the issue slot -/

/-- Clear a partition's issue slot. -/
def State.clearIssue (s : State) (k : Iss) : State :=
  s.modCore k.core fun x => { x with issue := x.issue.set k.part none }
/-- The word is left: the group splits as its threads now stand (R205). -/
def State.leave (s : State) (k : Iss) : State := ((s.clearIssue k).resplit k.team k.num).tidy k.team

/-! ### Reports and trap entry -/

/-- One thread's fault record (R329). Without a source the record names EPC. -/
structure Rep where
  code  : Nat
  addr  : Nat := 0
  value : Nat := 0
  sub   : Nat := 0
  s2    : Bool := false
  defer : Bool := false
  src   : Option DWord := none
deriving DecidableEq, Repr, Inhabited

/-- What an emulation entry shows of its word (R303). -/
structure Emu where
  cls     : Nat
  word    : DWord
  header  : Bool := false
  edec    : BitVec 32
  control : Bool
  instr   : Option Instr
deriving DecidableEq, Repr, Inhabited

/-- A precise report at a word or a header: the active threads, those it is raised for, their records, and what the
return needs. `committed` says that the word's effect has been taken (R47). -/
structure Report where
  threads   : List Nat
  raised    : List Nat
  reps      : List (Nat × Rep)
  epc       : DWord
  pos       : Nat := 0
  hdr       : Bool := false
  exec      : List Nat := []
  skipTo    : Option DWord := none
  emu       : Option Emu := none
  stop      : Option Nat := none
  gang      : Option Nat := none
  committed : Bool := false
deriving DecidableEq, Repr, Inhabited

/-- The mask of home lanes of threads. -/
def Team.mask (m : Team) (is : List Nat) : BitVec 128 :=
  is.foldl (fun (a : BitVec 128) i => a ||| (1#128 <<< m.hlane i)) 0

/-- Threads wait at the word. -/
def State.hold (s : State) (t : Nat) (is : List Nat) (w : Wait) (keep : Bool) : State :=
  let s := is.foldl (fun (s : State) (i : Nat) => s.modThread t i fun x => { x with wait := w, released := keep && x.released }) s
  let s := s.ungroup t is
  (s.warpsOf t is).foldl (fun (s : State) (v : Nat) => s.noteBlocked t v) s

/-- The 32 bytes of a fault record. -/
def Rep.bytes (r : Rep) (epc : DWord) : List Byte :=
  leBytes 8 r.addr ++
  leBytes 8 (r.value % 2 ^ 32 * 2 ^ 32 + r.sub % 256 * 65536 + r.s2.toNat * 512 + r.defer.toNat * 256 + r.code) ++
  leBytes 8 (r.src.getD epc).toNat ++ leBytes 8 0

/-- The place of a byte of a visible area: Virlin writes with its own rights, whatever W says (R215). -/
def State.probeVisible (s : State) (ctx va : Nat) : State × Probe :=
  match s.translate noCore ctx va { write := true } with
  | (s, .nomap s2) => (s, .fault fNomap va s2)
  | (s, .absent key _) => (s, .page [key])
  | (s, .page x) => match s.hostOk x { write := true } with
    | (s, false) => (s, .fault fNomap va false)
    | (s, true) => (s.setDirty x, .ok (s.locOf x va) (some x))

/-- Probe the places of a list of visible addresses. -/
def State.probeAreas (s : State) (ctx : Nat) : List Nat → State × List Probe
  | [] => (s, [])
  | va :: r =>
    let (s, p) := s.probeVisible ctx va
    let (s, ps) := s.probeAreas ctx r
    (s, p :: ps)

/-- The type by which a source of a word of TYPE ty is read, where the operation gives one source another than TYPE: by the
place of the source among its operands (R112, R115, R117, R118, R303). -/
def srcTy (i : Option Instr) (ty : BitVec 4) (k : Nat) : BitVec 4 :=
  match i with
  | some (.cvt x) => x.sty
  | some (.fscale _) => if k = 2 then i32 else ty
  | some (.fdot2 _) => if k = 3 then f32 else b32
  | some (.pack _) => if tyFloat ty then f32 else if ty = i16 then i32 else if ty = n16 then n32 else b32
  | some (.unpk _) | some (.qdec _) => b32
  | _ => ty
/-- The type of the destination of a word of TYPE ty: 32 bits where the operation writes a register of another width or of
packed values (R100, R303). -/
def dstTy (i : Option Instr) (ty : BitVec 4) : BitVec 4 :=
  match i with
  | some (.cvt x) => x.ty
  | some (.fdot2 _) => f32
  | some (.cmp _) | some (.fcmp _) | some (.fclass _) | some (.popc _) | some (.clz _) | some (.ctz _) | some (.matchLanes _)
  | some (.vote _) | some (.pack _) | some (.qenc _) => b32
  | _ => ty
/-- A source as ew0 to ew2 show it: the first 64 bits, extended by its type (R303). An IMM8 is a value of that type, and of
32 bits where the operand is one register (R40). -/
def State.ewSource (s : State) (t i : Nat) (ty : BitVec 4) (sc : BitVec 8) (u : Use) : DWord :=
  if u.code = 0xF1 then
    let v := sext sc.toNat 8
    if tySigned ty then BitVec.ofInt 64 v
    else if tyFloat ty then BitVec.ofNat 64 ((fmOf ty).roundI 0 false false v 0)
    else BitVec.ofNat 64 (ibits v (min (tyBits ty) (32 * u.regs)))
  else
    let v := s.opnd t i u.code (min 2 u.regs)
    let n := if 2 ≤ u.regs then 64 else min (tyBits ty) 32
    if tySigned ty then BitVec.ofInt 64 (sext v n)
    else if u.regs = 1 ∧ n < 32 then BitVec.ofNat 64 (v % 2 ^ n)
    else BitVec.ofNat 64 v

/-- TYPE of an instruction word, and SC; b32 where the form has none. Of CVT it is the destination's. -/
def tySc (i : Instr) : BitVec 4 × BitVec 8 :=
  match encode i with
  | none => (b32, 0)
  | some (c, w) =>
    match i with
    | .cvt x => (x.ty, x.sc)
    | .ld x | .st x | .ldnr x | .qst x => (if x.wid = 5 then x.mty else b32, 0)
    | .add _ | .sub _ | .mul _ | .mulh _ | .mad _ | .madw _ | .addc _ | .subb _ | .neg _ | .abs _ | .min _ | .max _
    | .and _ | .or _ | .xor _ | .andn _ | .not _ | .shl _ | .shr _ | .sar _ | .rotl _ | .fshf _ | .popc _ | .clz _
    | .ctz _ | .brev _ | .bfx _ | .bfi _ | .prmt _ | .lea _ | .cmp _ | .sel _ | .div _ | .rem _ | .fadd _ | .fsub _
    | .fmul _ | .ffma _ | .fmin _ | .fmax _ | .fcmp _ | .fclass _ | .fscale _ | .frnd _ | .frcp _ | .frsq _
    | .fsqrt _ | .fdiv _ | .fexp2 _ | .flog2 _ | .fsin _ | .fcos _ | .ftanh _ | .fdot2 _ | .pack _ | .unpk _
    | .qenc _ | .qdec _ | .mov _ | .rds _ | .wrs _ | .shfl _ | .vote _ | .redux _ | .matchLanes _ | .v2s _ =>
      let x := FA.ofWord w
      (x.ty, x.sc)
    | _ => (b32, if c = 0 then (FA.ofWord w).sc else 0)

/-- The form of an opcode in its class: 0 A, 1 V, 2 M, 3 X, 4 S, 5 N, 6 none. -/
def formOf (cls op : Nat) : Nat :=
  match cls with
  | 0 =>
    if op = 0 ∨ op = 0x80 ∨ op = 0xA6 ∨ op = 0xA7 then 5
    else if op = 0x59 ∨ op = 0x5A then 1
    else if (0x70 ≤ op ∧ op ≤ 0x7F) ∨ (0x81 ≤ op ∧ op ≤ 0x83) ∨ op = 0xA5 then 2
    else if op ≤ 0x22 ∨ (0x30 ≤ op ∧ op ≤ 0x43) ∨ (0x50 ≤ op ∧ op ≤ 0x54) ∨ op = 0x58 ∨ (0x5B ≤ op ∧ op ≤ 0x63) ∨
      op = 0x84 ∨ op = 0x85 ∨ (0xA0 ≤ op ∧ op ≤ 0xA4) ∨ (0xA8 ≤ op ∧ op ≤ 0xB1) then 0
    else 6
  | 1 => if op = 0 then 5 else if op ≤ 8 then 3 else 6
  | 2 => if op = 0 then 5 else if op ≤ 0xB then 3 else 6
  | 3 => if op = 0 then 5 else if op ≤ 8 then 4 else 6
  | _ => 6

/-- The operands of a word of a defined opcode whose operation field names none of its operations, by its form alone: as wide
as TYPE in form A, a pair for the address of form M (R42, R303). DESIGN CHOICE, log entry 57. -/
def formUses (form : Nat) (w : DWord) : List Use :=
  let x := FA.ofWord w
  let use := fun (code : BitVec 8) (n : Nat) (write : Bool) => ({ kind := if write then .dst else .srcImm, code, regs := n, write } : Use)
  match form with
  | 0 => let n := tyRegs x.ty; [use x.dst n true, use x.sa n false, use x.sb n false, use x.sc n false]
  | 2 => [use x.dst 1 true, use x.sa 2 false, use x.sb 1 false]
  | 3 | 4 => [use x.dst 1 true, use x.sa 1 false, use x.sb 1 false]
  | _ => []
/-- The operands of a word of a class: of the instruction that it decodes to, else by its form (R303). -/
def wordUses (cls : Nat) (w : DWord) (i : Option Instr) : List Use :=
  match i with
  | some x => x.uses
  | none => formUses (formOf cls (w.extractLsb' 56 8).toNat) w
/-- Whether a kernel with a number of vector registers has those that an operand names (R23, R56). -/
def inRange (vregs : Nat) (u : Use) : Bool :=
  u.kind == .unused || (match opndOf u.code with
    | .v n => decide (n + u.regs ≤ 8 * vregs)
    | .s n => decide (n + u.regs ≤ 48)
    | _ => true)
/-- The destination of a word, where one can be decoded (R303). -/
def dstUse (cls : Nat) (w : DWord) (i : Option Instr) (vregs : Nat) : Option Use :=
  (wordUses cls w i).find? fun u => u.write && u.kind != .unused && u.check.isNone && inRange vregs u

/-- EDEC of a word of a class in a kernel (R326). -/
def edecOf (vregs cls : Nat) (w : DWord) (i : Option Instr) : BitVec 32 :=
  let op := (w.extractLsb' 56 8).toNat
  let form := formOf cls op
  let a := FA.ofWord w
  let m := FM.ofWord w
  let ty := if form = 0 then a.ty.toNat
    else if form = 2 ∧ m.wid = 5 ∧ (op = 0x70 ∨ op = 0x71 ∨ op = 0x72 ∨ op = 0x79) then m.mty.toNat else 0
  let wid := if form = 2 then m.wid.toNat else 0
  let ctl := if form = 0 ∨ form = 3 ∨ form = 4 then a.ctl.toNat else if form = 2 then m.ctl.toNat else 0
  BitVec.ofNat 32 (cls * 2 ^ 28 + form * 2 ^ 24 + op * 2 ^ 16 + ty * 2 ^ 12 + wid * 2 ^ 9 +
    (dstUse cls w i vregs).isSome.toNat * 2 ^ 8 + ctl)

/-- TYPE of a word, and SC (R303). -/
def wordTySc (cls : Nat) (w : DWord) (i : Option Instr) : BitVec 4 × BitVec 8 :=
  match i with
  | some x => tySc x
  | none => if formOf cls (w.extractLsb' 56 8).toNat = 0 then ((FA.ofWord w).ty, (FA.ofWord w).sc) else (b32, 0)
/-- The windows ew0 to ew3 at an emulation entry (R303). A header, and a word of no opcode, have no operands. -/
def State.ewStart (s : State) (t i : Nat) (e : Emu) : List DWord :=
  match e.instr with
  | some (.plop w) =>
    let p := fun (k : BitVec 3) => BitVec.ofNat 64 ((s.thread t i).pred k).toNat
    [p (w.sa.extractLsb' 0 3), p (w.sb.extractLsb' 0 3), p (w.ctl.extractLsb' 0 3), 0]
  | x =>
    if e.header then [0, 0, 0, 0] else
    let (ty, sc) := wordTySc e.cls e.word x
    let us := wordUses e.cls e.word x
    let src : Nat → DWord := fun (k : Nat) => match us[k]? with
      | some u => if u.kind = .unused ∨ u.write then 0 else s.ewSource t i (srcTy x ty k) sc u
      | none => 0
    let dst := match us[0]? with
      | some u => if u.kind = .unused then 0 else BitVec.ofNat 64 (s.opnd t i u.code (min 2 u.regs))
      | none => 0
    [src 1, src 2, src 3, dst]

/-- A thread enters a trap instance (R296, R299, R303): what a return restores is saved, and it stands at the vector with
MEET 1, MTAG 0, its own windows and no predicate true but p6 of an emulation entry. -/
def Thread.entered (y : Thread) (level : Nat) (vec : DWord) (p6 : Bool) (ew : List DWord) : Thread :=
  { y with
    banks := y.banks ++ [{ pc := y.pc, mid := y.mid, skip := y.skip, meet := y.meet, mtag := y.mtag, alone := y.alone,
                           p := y.p, laneSet := y.laneSet, looks := y.pend.filter Pend.done }],
    level, pc := vec, mid := none, skip := 0, released := false, refetch := false, noBreak := none,
    meet := 1, mtag := 0, alone := false, p := (if p6 then 0x40 else 0), laneSet := 0, pend := y.open_, ew := y.ew ++ [ew] }

/-- Enter a trap instance for one home warp (R294 to R301, R305). -/
def State.enter (s : State) (t w : Nat) (r : Report) : State :=
  let m := s.team t
  let is := s.ofWarp t w r.threads
  let reps := r.reps.filter fun e => m.warpOf e.1 == w
  match (s.ofWarp t w r.raised) with
  | [] => s
  | lead :: _ =>
    let first : Nat × Rep := match reps with
      | e :: _ => e
      | [] => (lead, { code := fEmul, addr := r.epc.toNat })
    let cause := if r.emu.isSome then fEmul else first.2.code
    let level := (s.thread t lead).level + 1
    let x := s.ctx m.ctx
    let blame : Blame := { value := first.2.value, epc := r.epc, addr := first.2.addr, at_ := some (t, first.1) }
    match (s.warp t w).spec with
    | some sp => s.hold t is (.agreeWord [(t, w, sp.seq)]) r.committed
    | none =>
      if 2 < level then s.failContext m.ctx (if r.emu.isSome then cEmulnest else cTrapnest) blame
      else if (s.inst t w level).isSome then s.hold t is .trapLevel r.committed
      else
        let vec := if r.emu.isSome then x.emuvec else x.trapvec
        if vec = 0 then s.failContext m.ctx (if r.emu.isSome then cUndefined else cause) blame
        else
          let s := s.settleAll t is
          if is.any fun i => !(s.thread t i).open_.isEmpty then s
          else
            let base := m.visible + (2 * w + level - 1) * (32 * m.width)
            let at_ := fun (i : Nat) => (base + 32 * m.hlane i) % 2 ^ 64
            let (s, ps) := s.probeAreas m.ctx (reps.map fun e => at_ e.1)
            match lowFault ps with
            | some (c, a, _) => s.failContext m.ctx c { value := 0, epc := r.epc, addr := a, at_ := some (t, first.1) }
            | none => match absentPages ps with
              | k :: ks =>
                let s := s.requestAll (dieOf m.core) m.ctx (k :: ks) false true
                s.hold t is (.page (k :: ks)) r.committed
              | [] =>
                let s := (reps.zip ps).foldl (fun (s : State) (e : (Nat × Rep) × Probe) => match e.2 with
                  | .ok l _ => (s.writeLoc noOwner l (e.1.2.bytes r.epc) false).dropSector m.core l
                  | _ => s) s
                let inst : TrapInst :=
                  { level, threads := is, cause, defer := reps.any fun e => e.2.defer, hdr := r.hdr, pos := r.pos,
                    epc := r.epc, edec := (match r.emu with | some e => e.edec | none => 0),
                    eword := (match r.emu with | some e => e.word | none => 0), emask := m.mask (reps.map Prod.fst),
                    ekill := 0, eskip := 0, frbase := BitVec.ofNat 64 base, emu := r.emu.isSome,
                    control := (match r.emu with | some e => e.control | none => false), skipTo := r.skipTo,
                    exec := m.mask r.exec, stop := r.stop, gang := r.gang }
                let ews := is.map fun i => (i, match r.emu with | some e => s.ewStart t i e | none => [0, 0, 0, 0])
                let p6 := fun (y : Thread) => match r.emu with
                  | some e => (match e.instr with
                    | some z => (match z.predSources with | k :: _ => y.pred k | [] => false)
                    | none => false)
                  | none => false
                let s := s.modWarp t w fun y => { y with insts := y.insts ++ [inst] }
                let s := match r.stop with | some n => s.tellStop n | none => s
                ews.foldl (fun (s : State) (e : Nat × List DWord) =>
                  s.modThread t e.1 fun y => y.entered level vec (p6 y) e.2) s

/-- Raise a precise report: one instance for each home warp that has a thread it is raised for (R294). Threads of other
home warps stay at the word. -/
def State.raise (s : State) (t : Nat) (r : Report) : State :=
  let ws := s.warpsOf t r.raised
  let s := ws.foldl (fun (s : State) (w : Nat) => s.enter t w r) s
  (s.ungroup t (r.threads.filter fun i => ws.contains ((s.team t).warpOf i))).tidy t

/-- Raise a report at the current word; the issue slot is free again. -/
def State.raiseAt (s : State) (k : Iss) (r : Report) : State := (s.clearIssue k).raise k.team r

/-- A report at the current word for threads that fail, each with its record. -/
def Iss.report (k : Iss) (ex : List Nat) (reps : List (Nat × Rep)) : Report :=
  { threads := k.threads, raised := reps.map Prod.fst, reps, epc := k.pc, pos := k.pos, exec := ex }

/-! ### Emulation entries (R57, R303, R326) -/

/-- Cases 11 to 14 of R56 for a word at a position of a clause, whatever else it is. A SYS word, whose NAS is always
NEXT (R317), counts under case 11 with any other selector (DEDUCED, log entry 30). -/
def controlCase (k : Iss) (c : Common) (i : Option Instr) : Bool :=
  let last := k.clause.last k.pos
  let nop := match i with | some x => x.isNop | none => false
  let jump := match i with | some (.jmpi _) | some (.calli _) => true | _ => false
  (c.nas != 0 && c.nas != 5 && !last) ||
  (c.nas == 5 && (!nop || c.look == 0 || decide (k.clause.cnt ≤ k.pos + c.look.toNat))) ||
  (c.nas == 6 && !(c.pidx == 7 && c.pneg == 0)) ||
  (jump && (!last || c.nas != 0)) ||
  (k.clause.hdr.cls == 3 && i.isSome && !nop && c.nas != 0)

/-- Enter the emulation handler at the current word for some of its threads; EMASK holds those that execute it. -/
def State.emulate (s : State) (k : Iss) (w : DWord) (i : Option Instr) (is : List Nat) : State :=
  let c := Common.ofWord w
  let ex := (s.exec1 k c).filter is.contains
  let cls := k.clause.hdr.cls.toNat
  let e : Emu := { cls, word := w, edec := edecOf (s.team k.team).vregs cls w i, control := controlCase k c i, instr := i }
  s.raiseAt k
    { threads := is, raised := is, reps := ex.map fun j => (j, { code := fEmul, addr := k.pc.toNat }),
      epc := k.pc, pos := k.pos, exec := ex, emu := some e }

/-- The member that must enter the handler for a full latch whose word is not an instruction enters it, with every active
thread of its MMA; EMASK holds those whose guard is true (R146, R297, R304). The latch empties once it has entered. -/
def State.enterLatch (s : State) (l : Latch) : State :=
  let t := l.gang.team
  let v := s.latchHead l
  let all := s.ofWarp t v (s.waiting t fun _ x => x == .gang l.id)
  match all with
  | [] => s
  | lead :: _ => match (s.thread t lead).mid with
    | none => s
    | some (c, p) =>
      let is := all.filter fun i => (s.thread t i).place == (s.thread t lead).place
      let ex := is.filter fun i => s.executes t i (Common.ofWord (c.word p)) p
      let ins := Instr.mma (FX.ofWord l.word)
      let e : Emu := { cls := 1, word := l.word, edec := edecOf (s.team t).vregs 1 l.word (some ins), control := l.control,
                       instr := some ins }
      let s := s.wake t is fun x => { x with released := false }
      let s := s.enter t v
        { threads := is, raised := is, reps := ex.map fun i => (i, { code := fEmul, addr := (c.wordAddr p).toNat }),
          epc := c.wordAddr p, pos := p, exec := ex, emu := some e, gang := some l.id }
      let s := if (s.warp t v).insts.any (fun y => y.gang == some l.id)
        then s.modTeam t fun m => { m with latches := m.latches.filter fun y => y.id != l.id }
        else s
      (s.ungroup t is).tidy t
/-- Enter the handler for every full latch of a team whose word is not an instruction. -/
def State.enterLatches (s : State) (t : Nat) : State :=
  (s.team t).latches.foldl (fun (s : State) (l : Latch) => if l.bad.isSome ∧ s.latchFull l then s.enterLatch l else s) s

/-! ### Exit (R31, R46, R217, R229) -/

/-- An instance ends (R318): the level is free for an instance that waits for it, and the threads that arrived for an emulated
MMA and wait for it go on (R304); those that have arrived anew since, for another, do not. -/
def State.endInst (s : State) (t w level : Nat) : State :=
  let latch := (s.inst t w level).bind fun x => x.gang
  let s := s.modWarp t w fun x => { x with insts := x.insts.filter fun y => y.level != level }
  let s := s.wake t ((s.waiting t fun _ v => v == .trapLevel).filter fun i => (s.team t).warpOf i == w) id
  match latch with
  | none => s
  | some n => s.wake t (s.waiting t fun _ v => v == .gang n) fun x => { x with released := true }

/-- A thread leaves its instance at a level, which ends with its last thread. -/
def State.leaveInst (s : State) (t i level : Nat) : State :=
  let w := (s.team t).warpOf i
  match s.inst t w level with
  | none => s
  | some x =>
    let rest := x.threads.filter (· != i)
    let s := s.modInst t w level fun y => { y with threads := rest }
    if x.threads.contains i && rest.isEmpty then s.endInst t w level else s

/-- The last thread of a home warp has exited: its guards resolve false, its watches end, its rank withdraws and its
gang's latch counts it as arrived (R132, R202, R237, R345). -/
def State.warpExit (s : State) (t w : Nat) : State :=
  let s := (List.range 8).foldl (fun (s : State) (k : Nat) => s.resolve t w k false) s
  let s := s.modWarp t w fun x => { x with watches := [], unreg := [], wake := false }
  ((s.withdraw t w).latchCheck t).enterLatches t

/-- A thread terminates (R46): a release. Its results end, its records are freed, it leaves its instances, and it counts
as arrived at its team's barriers. The last exit of a team with work in flight stands at BP-DRAIN. -/
def State.exitThread (s : State) (t i : Nat) : State :=
  let m := s.team t
  let w := m.warpOf i
  if (s.thread t i).gone then s
  else
    let s := (s.settleThread t i).settle t i
    let s := s.modThread t i fun x => { x with pend := x.pend.map fun p =>
      if p.done then p else { p with dst := 0xF0, value := some 0, pred := none } }
    let s := s.settle t i
    let x := s.thread t i
    let free := x.recs ++ (match x.delivered with | some r => [r] | none => [])
    let s := s.modThread t i fun x => { x with pend := [], recs := [], delivered := none, wait := .exited }
    let s := free.foldl State.freeSlot s
    let s := if s.alive t = 0 ∧ s.inFlight t then s.modThread t i fun x => { x with wait := .drain } else s
    let s := (s.ungroup t [i]).noteBlocked t w
    let s := (List.range x.level).foldl (fun (s : State) (l : Nat) => s.leaveInst t i (l + 1)) s
    let s := (List.range 16).foldl (fun (s : State) (b : Nat) =>
      (s.barMod t b fun r => { r with expect := r.expect - 1 }).spanCheck t b) s
    if s.warpGone t w then s.warpExit t w else s

/-! ### Selectors (R46 to R49) -/

/-- The link pair's lower register (R47). -/
def Team.link (m : Team) : Nat := 8 * m.vregs - 2

/-- Where a thread goes after the last word of a clause; none for EXIT. A BPRED is read after the word's effect. -/
def State.nextPc (s : State) (t i : Nat) (k : Clause) (nas : BitVec 3) (executed : Bool) : Option DWord :=
  let x := s.thread t i
  let m := s.team t
  if !executed then some k.fall
  else match nas.toNat with
    | 1 | 3 => some k.target
    | 2 | 6 => some (if x.pred k.hdr.bpred != (k.hdr.bneg == 1) then k.target else k.fall)
    | 4 => some (BitVec.ofNat 64 (regsVal x.v m.link 2))
    | 7 => none
    | _ => some k.fall

/-- The lane set of a thread outside handler mode: the interrupted one in a handler (R207, R300). -/
def Thread.baseSet (x : Thread) : Nat := match x.banks with | b :: _ => b.laneSet | [] => x.laneSet
/-- Threads of one lane set of a home warp, at one departure of it, leave for a next PC: they go with those of the set that
have left there for it, the first to leave keep the number, and others form a new set (R207). -/
def State.depart (s : State) (t w n k : Nat) (is : List Nat) (pc : DWord) : State :=
  let x := s.warp t w
  let here := x.trail.filter fun e => e.1 == n && e.2.1 == k
  let (set, new) := match here.find? fun e => e.2.2.1 == pc with
    | some e => (e.2.2.2, false)
    | none => if here.isEmpty then (n, false) else (x.nextSet, true)
  let s := is.foldl (fun (s : State) (i : Nat) => s.modThread t i fun y => { y with laneSet := set, steps := k + 1 }) s
  s.modWarp t w fun y =>
    { y with nextSet := if new then y.nextSet + 1 else y.nextSet,
             trail := if here.any fun e => e.2.2.1 == pc then y.trail else y.trail ++ [(n, k, pc, set)] }
/-- The entries of a trail that a thread of a set will come to, from its number of departures on, by the entries it has yet to
pass; `from_` holds such sets and numbers. -/
def trailAhead (trail : List (Nat × Nat × DWord × Nat)) : Nat → List (Nat × Nat) → List (Nat × Nat × DWord × Nat)
  | 0, _ => []
  | n + 1, from_ =>
    let near := trail.filter fun e => from_.any fun f => f.1 == e.1 && decide (f.2 ≤ e.2.1)
    near ++ trailAhead (trail.filter fun e => !near.contains e) n (near.map fun e => (e.2.2.2, e.2.1 + 1))
/-- Departures that no thread has yet to make are forgotten: neither one of their lane set, nor one that will come to belong to
it where it goes the way of those that left before it. -/
def State.cutTrail (s : State) (t w : Nat) : State :=
  let here := ((s.team t).members w).filter fun i => !(s.thread t i).gone
  let ahead := trailAhead (s.warp t w).trail (s.warp t w).trail.length
    (here.map fun i => ((s.thread t i).baseSet, (s.thread t i).steps))
  s.modWarp t w fun y => { y with trail := y.trail.filter ahead.contains }
/-- Threads leave a word for their next addresses, and their lane sets split among these, whether they leave it in one issue
or in several (R207). A set that leaves whole for one address, and that no thread has yet to join, stays as it is. -/
def State.splitSets (s : State) (t : Nat) (nexts : List (Nat × DWord)) : State :=
  let out := nexts.filter fun e => (s.thread t e.1).level == 0
  (s.warpsOf t (out.map Prod.fst)).foldl (fun (s : State) (w : Nat) =>
    let here := out.filter fun e => (s.team t).warpOf e.1 == w
    let sets := s.setsOf t (here.map Prod.fst)
    let s := sets.foldl (fun (s : State) (n : Nat) =>
      let mine := here.filter fun e => (s.thread t e.1).laneSet == n
      let pcs := nsort ((mine.map fun e => e.2.toNat).eraseDups)
      let whole := ((s.team t).members w).all fun i =>
        (s.thread t i).gone || (s.thread t i).baseSet != n || mine.any fun e => e.1 == i
      if whole ∧ pcs.length ≤ 1 ∧ ¬ (s.warp t w).trail.any (fun e => e.1 == n || e.2.2.2 == n) then s
      else
        (nsort ((mine.map fun e => (s.thread t e.1).steps).eraseDups)).foldl (fun (s : State) (k : Nat) =>
          let now := mine.filter fun e => (s.thread t e.1).steps == k
          pcs.foldl (fun (s : State) (pc : Nat) =>
            match (now.filter fun e => e.2.toNat == pc).map Prod.fst with
            | [] => s
            | is => s.depart t w n k is (BitVec.ofNat 64 pc)) s) s) s
    s.cutTrail t w) s

/-- A thread goes to a header: its clause is over. -/
def Thread.goTo (x : Thread) (pc : DWord) : Thread :=
  { x with pc, mid := none, skip := 0, released := false, refetch := false, noBreak := none,
           pend := (x.open_.map fun p => { p with clause := 1 }) }

/-- An indirect transfer: the targets, and whether the link pair is written (R232). -/
structure Jump where
  targets : List (Nat × DWord) := []
  link    : Bool := false
deriving DecidableEq, Repr, Inhabited

/-- How the fetch of the headers at the next addresses stands (R49): the threads that fault, and those whose header lies on a
page that is not resident. -/
def State.nextHeaders (s : State) (t : Nat) (aligned : Nat → Bool) :
    List (Nat × DWord) → State × List (Nat × Rep) × List (Nat × List PageKey)
  | [] => (s, [], [])
  | (i, pc) :: r =>
    let (s, f) := s.entering t i (aligned i) pc
    let (s, fs, ps) := s.nextHeaders t aligned r
    match f with
    | .ok => (s, fs, ps)
    | .fault c a b => (s, (i, { code := c, addr := a, s2 := b }) :: fs, ps)
    | .pages ks => (s, fs, (i, ks) :: ps)
/-- Threads wait at their word for the page of the header that they transfer to, the transfer not made (R49). The effect of
the word stands, and it is not taken again: `over_` names the threads that have taken it. -/
def State.awaitHeaders (s : State) (t : Nat) (over_ : Nat → Bool) (ps : List (Nat × List PageKey)) : State :=
  ps.foldl (fun (s : State) (e : Nat × List PageKey) =>
    let s := s.requestAll (dieOf (s.team t).core) (s.team t).ctx e.2 true false
    let s := s.modThread t e.1 fun x => { x with released := over_ e.1 }
    s.hold t [e.1] (.page e.2) true) s

/-- Results that a selector reads: a predicate under IF and UNI, the link pair under CALL and RET (R47, R51). -/
def State.settleSelector (s : State) (t : Nat) (is : List Nat) (nas : BitVec 3) (link : Bool) : State :=
  if nas = 0 ∧ ¬ link then s else s.settleAll t is
/-- Whether the link pair still waits for a result that has no value yet. -/
def State.linkOpen (s : State) (t i : Nat) : Bool :=
  (s.thread t i).open_.any fun p => overlap (BitVec.ofNat 8 (s.team t).link) 2 p.dst p.regs

/-- Whether a thread has a store or RED at a peer that is not acknowledged: a release waits for it, and for none of its engine
commands (R167, R335). -/
def State.peerOpen (s : State) (t i : Nat) : Bool := s.peers.any fun r => r.team == t && r.tidx == i && r.cmd == 0
/-- Whether an exit of a thread, which is a release, has a store or RED to wait for (R46, R167). -/
def State.exitOpen (s : State) (t i : Nat) : Bool := s.peerOpen t i || s.stores.any fun x => x.team == t && x.tidx == i

/-- Threads leave a clause for their next headers; with one next PC for a whole group that makes a backward transfer, its spin
detector is told (R205, R207, R218). -/
def State.transferAll (s : State) (k : Iss) (c : Common) (j : Jump) (whole : Bool) (outs : List (Nat × DWord)) : State :=
  let t := k.team
  let s := s.splitSets t outs
  let s := outs.foldl (fun (s : State) (e : Nat × DWord) => s.modThread t e.1 fun x => x.goTo e.2) s
  let s := s.clearIssue k
  match outs with
  | (_, pc) :: r =>
    if whole ∧ r.all (fun e => e.2 == pc) then
      (if c.nas != 0 || !j.targets.isEmpty then s.spinTransfer t k.num (c.nas != 3 && !j.link) k.clause.addr pc else s)
    else s.resplit t k.num
  | [] => s

/-- The threads of an issue leave the word (R36, R46): to the next word, or by the selector. Threads that wait stay at
it, as do those that exit while a store of theirs is not acknowledged. A UNI that disagrees, or a target that cannot be fetched,
is reported at the word, and a target on a page that is not resident holds its threads there (R47, R49). DESIGN CHOICE, log entry 39: the word's own effect is taken before its target
is fetched, so it stands when the fetch faults, and ERET.retry takes it again. -/
def State.finish (s : State) (k : Iss) (c : Common) (ex : List Nat) (j : Jump) : State :=
  let t := k.team
  let live := k.threads.filter fun i =>
    let x := s.thread t i
    x.wait == .ready && x.mid == some (k.clause, k.pos) && (s.warp t ((s.team t).warpOf i)).resident
  if !k.clause.last k.pos then
    let s := live.foldl (fun (s : State) (i : Nat) => s.modThread t i fun x =>
      { x with mid := some (k.clause, k.pos + 1), released := false, noBreak := none }) s
    if live.isEmpty then s.leave k else if live.length = k.threads.length then s else s.tidy t
  else
    let mine := live.filter ex.contains
    let call := c.nas == 3 || j.link
    let over_ := fun (i : Nat) => ex.contains i && j.targets.isEmpty
    let commit := fun (s : State) => mine.foldl (fun (s : State) (i : Nat) => s.modThread t i fun x =>
      { x with released := j.targets.isEmpty }) s
    let s := s.settleSelector t mine c.nas (call || c.nas == 4)
    if ((call || c.nas == 4) && mine.any fun i => s.linkOpen t i) || (c.nas == 7 && mine.any fun i => s.exitOpen t i) then
      (commit s).leave k
    else
      let dir := fun (i : Nat) => s.nextPc t i k.clause c.nas true
      let split := if c.nas = 6 then (s.laneSets t mine).filter fun l => l.any fun i => dir i != dir (l.headD 0) else []
      match split with
      | _ :: _ =>
        let ws := s.warpsOf t split.flatten
        let bad := mine.filter fun i => ws.contains ((s.team t).warpOf i)
        (commit s).raiseAt k
          { (k.report mine (bad.map fun i => (i, ({ code := fUniform } : Rep)))) with threads := live, committed := true }
      | [] =>
        let nexts := live.map fun i => (i, match j.targets.find? fun e => e.1 == i with
          | some e => some e.2
          | none => s.nextPc t i k.clause c.nas (ex.contains i))
        let outs := nexts.filterMap fun e => e.2.map fun pc => (e.1, pc)
        let (s, bad, pages) := s.nextHeaders t (fun i => !(ex.contains i && (c.nas == 4 || !j.targets.isEmpty))) outs
        match bad with
        | _ :: _ => (commit s).raiseAt k { (k.report mine bad) with threads := live, committed := j.targets.isEmpty }
        | [] =>
          let s := s.awaitHeaders t over_ pages
          let stay := pages.map Prod.fst
          let outs := outs.filter fun e => !stay.contains e.1
          let s := if call then (mine.filter fun i => !stay.contains i).foldl (fun (s : State) (i : Nat) =>
              (s.modThread t i fun x => { x with v := regsSet x.v (s.team t).link k.clause.fall.toNat 2 }).soil t
                ((s.team t).warpOf i) (s.team t).link 2) s else s
          let gone := (nexts.filter fun e => e.2.isNone).map Prod.fst
          let whole := gone.isEmpty && stay.isEmpty && live.length == k.threads.length
          let s := (s.ungroup t gone).transferAll k c j whole outs
          let s := gone.foldl (fun (s : State) (i : Nat) => s.exitThread t i) s
          if whole then s else s.tidy t

/-! ### Before a word (R56, R57) -/

/-- The set of enabled features: those that Virlin implements, the configuration image has and the driver accepts (R30,
R290). -/
def State.enabled (s : State) (f : Nat) : Bool :=
  Config.dfeat0.getLsbD f && s.mgmt.dfeat.getLsbD f && (s.mgmt.drvfeat.getD 0 0).getLsbD f

/-- The tests of R56 that depend on the clause, the kernel, the mode and the features. -/
def State.ctxCase (s : State) (k : Iss) (i : Instr) (c : Common) : Option NotInstr :=
  let t := k.team
  let m := s.team t
  let lead := k.threads.headD 0
  let level := (s.thread t lead).level
  let last := k.clause.last k.pos
  let coords := fun (sa : BitVec 8) => (s.warpsOf t k.threads).all fun w => match opndOf sa with
    | .v n => decide (n + s.rank t w ≤ 8 * m.vregs)
    | .s n => decide (n + s.rank t w ≤ 48)
    | _ => false
  firstCase
    [(match i.feature with | some f => s.enabled f | none => true, .feature),
     (i.uses.all (inRange m.vregs), .operand),
     (match i with | .ldt w | .stt w => coords w.sa | .cpyt w => coords w.sa | _ => true, .operand),
     (!i.long || decide (k.pos + c.look.toNat ≤ k.clause.cnt), .lookahead),
     (c.nas == 0 || c.nas == 5 || last, .selector),
     (c.nas != 5 || decide (k.pos + c.look.toNat + 1 ≤ k.clause.cnt), .skip),
     (match i with | .jmpi _ | .calli _ => last | _ => true, .indirect),
     (match i with
      | .cbr w => last && level == 0 && (c.nas == 0 || (k.clause.hdr.bpred == w.sc64 && k.clause.hdr.bneg == 0))
      | _ => true, .value),
     (level != 0 || i.uses.all (fun u => u.kind == .unused || (match opndOf u.code with | .ew _ => false | _ => true)),
      .window)]

/-- Whether a word is not an instruction where it stands (R56). -/
def State.notInstr (s : State) (k : Iss) (i : Instr) (c : Common) : Bool :=
  i.staticCase.isSome || (s.ctxCase k i c).isSome

/-- Whether a breakpoint comparator matches an address (R312). -/
def breaks (l : List DWord) (a : DWord) : Bool := l.any fun b => b.getLsbD 0 && b.toNat / 8 == a.toNat / 8

/-- Whether a word raises PRIV for a thread (R55, R318, R320, R322). -/
def State.privFault (s : State) (t i : Nat) (x : Instr) : Bool :=
  let agent := (s.team t).agent
  match x with
  | .ctxswOut _ | .ctxswIn _ | .claim _ | .claimNode _ | .mcack _ | .tlbinvIpa _ | .tlbinvAll _ => !agent
  | .rdcsr w => !agent && decide (0x100 ≤ w.idx.toNat)
  | .wrcsr w => !agent && w.idx == 0x042
  | .eretDone _ | .eretRetry _ => !(s.thread t i).handler
  | _ => false

/-- Words that leave a speculation window open (R248), or whose own meaning says how they wait in one: a store, whose page and
limit it tests, and CBSYNC, whose wait is its effect (R36, R252). -/
def inWindow : Instr → Bool
  | .nop _ _ | .add _ | .sub _ | .mul _ | .mulh _ | .mad _ | .madw _ | .addc _ | .subb _ | .neg _ | .abs _ | .min _
  | .max _ | .and _ | .or _ | .xor _ | .andn _ | .not _ | .shl _ | .shr _ | .sar _ | .rotl _ | .fshf _ | .popc _
  | .clz _ | .ctz _ | .brev _ | .bfx _ | .bfi _ | .prmt _ | .lea _ | .cmp _ | .sel _ | .div _ | .rem _ | .fadd _
  | .fsub _ | .fmul _ | .ffma _ | .fmin _ | .fmax _ | .fcmp _ | .fclass _ | .fscale _ | .frnd _ | .frcp _ | .frsq _
  | .fsqrt _ | .fdiv _ | .fexp2 _ | .flog2 _ | .fsin _ | .fcos _ | .ftanh _ | .fdot2 _ | .cvt _ | .pack _ | .unpk _
  | .qenc _ | .qdec _ | .mov _ | .movi _ | .movh _ | .rds _ | .wrs _ | .shfl _ | .vote _ | .redux _ | .matchLanes _
  | .v2s _ | .plop _ | .pmovGet _ | .pmovSet _ | .ld _ | .ldnr _ | .lda _ | .lds _ | .ldt _ | .pref _ | .st _ | .stt _
  | .meetset _ | .meetsetR _ | .meetsetClr _ | .jmpi _ | .calli _ | .yield _ | .cbsync _ | .cbsyncAbort _ => true
  | .pgreq w => w.ctl == 0
  | _ => false

/-- The branch that a home warp has outstanding with a window open. -/
def State.branchOf (s : State) (t w : Nat) : List (Nat × Nat × Nat) :=
  match (s.warp t w).spec with
  | some sp => [(t, w, sp.seq)]
  | none => []
/-- Threads of a list that stand in an open speculation window. -/
def State.speculating (s : State) (t : Nat) (is : List Nat) : List Nat :=
  is.filter fun i => (s.warp t ((s.team t).warpOf i)).spec.isSome

/-- Write the results that a word must wait for: those that it touches, and a scalar's in any thread of the home warp
(R51); and, where it would take a token past 63, those of its token (R52). -/
def State.settleFor (s : State) (k : Iss) (i : Instr) (c : Common) (ex : List Nat) : State :=
  let t := k.team
  let ws := s.warpsOf t k.threads
  ws.foldl (fun (s : State) (w : Nat) =>
    let full := c.ts = 1 ∧ 63 ≤ (s.warp t w).regs.tok.getD c.tok.toNat 0
    ((s.team t).members w).foldl (fun (s : State) (j : Nat) =>
      ((s.thread t j).open_.filter fun p => (touches i (s.usesOf t w i) p && (ex.contains j || isScalar p.dst)) ||
        (full && p.token == some c.tok)).foldl (fun (s : State) (p : Pend) => s.writeBack t j p.key) s) s) s
/-- Whether a word still waits for a result. -/
def State.waitsFor (s : State) (k : Iss) (i : Instr) (c : Common) (ex : List Nat) : Bool :=
  let t := k.team
  (s.warpsOf t k.threads).any fun w =>
    (decide (c.ts = 1) && decide (63 ≤ (s.warp t w).regs.tok.getD c.tok.toNat 0)) ||
    ((s.team t).members w).any fun j => (s.thread t j).open_.any fun p =>
      touches i (s.usesOf t w i) p && (ex.contains j || isScalar p.dst)

/-- Results that write the predicate which guards a word (R51). -/
def guards (c : Common) (p : Pend) : Bool := c.pidx != 7 && (match p.pred with | some (q, _) => q == c.pidx | none => false)
/-- Write the results that a word's guard waits for: the guard is read when the word issues (R38, R51). -/
def State.settleGuard (s : State) (k : Iss) (c : Common) : State :=
  k.threads.foldl (fun (s : State) (j : Nat) =>
    ((s.thread k.team j).open_.filter (guards c)).foldl (fun (s : State) (p : Pend) => s.writeBack k.team j p.key) s) s
/-- Whether a word's guard still waits for a result. -/
def State.guardOpen (s : State) (k : Iss) (c : Common) : Bool :=
  k.threads.any fun j => (s.thread k.team j).open_.any (guards c)

/-- The home warps of a list register their watches (R237). -/
def State.registerWatches (s : State) (t : Nat) (ws : List Nat) : State :=
  ws.foldl (fun (s : State) (w : Nat) => s.modWarp t w fun x => { x with unreg := [] }) s

/-- How the tests before a word end: it does not run, or it runs for these threads. -/
inductive Before where
  | out (s : State)
  | go (s : State) (k : Iss) (ex : List Nat)

/-- Whether an instruction is BRK. -/
def isBrk : Instr → Bool
  | .brk _ _ => true
  | _ => false
/-- Whether an instruction is an MMA, whose own rules say when its word is tested (R146). -/
def isMma : Instr → Bool
  | .mma _ => true
  | _ => false

/-- The threads of a word that is not an instruction that enter the handler at it. Of an MMA these are the home warps that do
not arrive at a latch: those with no executing thread, and those whose gang is not valid (R56, R131, R146). -/
def State.notInstrFor (s : State) (k : Iss) (i : Instr) (c : Common) (ex : List Nat) : List Nat :=
  if ¬ s.notInstr k i c then []
  else if isMma i then k.threads.filter fun j =>
    let w := (s.team k.team).warpOf j
    !s.gangValid k.team w || !(ex.any fun e => (s.team k.team).warpOf e == w)
  else k.threads

/-- What comes before a word's own effect, in the order of R57. BRK has no guard (R54). An MMA that is not an instruction and
arrives at its latch raises no LOOKAHEAD. -/
def State.before (s : State) (k : Iss) (i : Instr) (c : Common) : Before :=
  let t := k.team
  let s := if isBrk i then s else s.settleGuard k c
  let cmp := if breaks k.clause.brk k.pc then k.threads.filter fun j => (s.thread t j).noBreak != some k.pc else []
  let stop := if isBrk i then k.threads else cmp
  let ex := s.exec1 k c
  match stop with
  | _ :: _ => .out (s.raiseAt k (k.report ex (stop.map fun j => (j, { code := fBreak, addr := k.pc.toNat }))))
  | [] =>
    if s.guardOpen k c then .out (s.leave k)
    else match s.notInstrFor k i c ex with
    | j :: js => .out (s.emulate k (k.clause.word k.pos) (some i) (j :: js))
    | [] =>
      let priv := ex.filter fun j => s.privFault t j i
      let ahead := if s.notInstr k i c then [] else ex.filter fun j => (s.thread t j).pend.any fun p =>
        p.clause == k.clause.addr && decide (k.pos ≤ p.last) && touches i (s.usesOf t ((s.team t).warpOf j) i) p
      match priv, ahead with
      | _ :: _, _ => .out (s.raiseAt k (k.report ex (priv.map fun j => (j, { code := fPriv }))))
      | [], _ :: _ =>
        let ws := s.warpsOf t ahead
        .out (s.raiseAt k (k.report ex ((ex.filter fun j => ws.contains ((s.team t).warpOf j)).map fun j =>
          (j, { code := fLookahead }))))
      | [], [] =>
        let s := s.settleFor k i c ex
        if s.waitsFor k i c ex then .out (s.leave k)
        else
          let s := s.registerWatches t (s.warpsOf t k.threads)
          let ends := !inWindow i || (c.nas == 7 && k.clause.last k.pos)
          let out := if ends then s.speculating t ex else []
          match out with
          | [] => .go s k ex
          | _ :: _ =>
            let s := out.foldl (fun (s : State) (j : Nat) => s.hold t [j] (.agreeWord (s.branchOf t ((s.team t).warpOf j))) false) s
            let k := { k with threads := k.threads.filter fun j => !out.contains j }
            match k.threads with
            | [] => .out (s.leave k)
            | _ => .go s k (ex.filter fun j => !out.contains j)

/-! ### The frame of a word -/

/-- How a word's own effect ends. -/
inductive Res where
  /-- it is taken; threads that do not wait go on -/
  | done (s : State) (j : Jump)
  /-- the issue is over; its threads stand where they now are -/
  | left (s : State)
  /-- it cannot be taken yet; its threads stay at the word -/
  | stall (s : State)

/-- A word's effect ends with nothing more than the selector. -/
abbrev Res.ok (s : State) : Res := .done s {}

/-- The threads of an issue wait at the word for absent pages, and nothing of it is performed (R175). -/
def State.awaitPages (s : State) (k : Iss) (keys : List PageKey) : Res :=
  .left ((s.hold k.team k.threads (.page keys) false).leave k)

/-- Ask for the pages of a list for a team's core and context. -/
def State.requests (s : State) (t : Nat) (keys : List PageKey) (write : Bool) : State :=
  s.requestAll (dieOf (s.team t).core) (s.team t).ctx keys false write

/-- A precise trap of the instruction's own. -/
def State.trapAt (s : State) (k : Iss) (ex : List Nat) (reps : List (Nat × Rep)) : Res :=
  .left (s.raiseAt k (k.report ex reps))

/-- Nothing more is to be done when the wait of a word has ended. -/
def goOn (s : State) (_ : Iss) : Res := .ok s
/-- An issue whose word's wait has ended goes on as that ends. Threads of it that a SKIP or a trap's return has moved past the
word do not execute it. -/
def State.resume (s : State) (k : Iss) (c : Common) (after : State → Iss → Res) : State :=
  match after s k with
  | .done s j => s.finish k c (k.threads.filter fun i => (s.thread k.team i).skip ≤ k.pos) j
  | .left s => s
  | .stall s => s.leave k
/-- Whether the wait of the word of an issue has ended. -/
def State.over_ (s : State) (k : Iss) : Bool := (s.thread k.team (k.threads.headD 0)).released

/-- Run a word: nothing stands at one, or its wait has ended and it completes, or it is tested and takes its effect. -/
def word (i : Instr) (c : Common) (after : State → Iss → Res) (body : State → Iss → List Nat → Res) (s : State) :
    Host.Outcome State Fault Refusal :=
  match s.iss with
  | none => .fault .noIssue
  | some k =>
    if s.over_ k then .next (s.resume k c after)
    else match s.before k i c with
      | .out s => .next s
      | .go s k ex => match body s k ex with
        | .done s j => .next ((s.spinWord k i c ex).finish k c ex j)
        | .left s => .next s
        | .stall s => .next (s.leave k)

/-- A word whose effect never waits. -/
def simple (i : Instr) (c : Common) (body : State → Iss → List Nat → State) (s : State) :
    Host.Outcome State Fault Refusal :=
  word i c goOn (fun s k ex => .ok (body s k ex)) s

end Sys2Proof.Machine
end

