-- ==== Sys2Proof/Machine/Access.lean ====
section
/-! DEFINITION. The probe stage and the moving of bytes, typed or not: what loads, stores and atomics share (R84 to R92,
R173 to R183). -/

namespace Sys2Proof.Machine

open Sys2Proof

/-! ### Probing lanes (R173, R175) -/

/-- Where an access that passes its checks lies: its place, its page, its scale byte, and its bytes. -/
structure Access where
  loc   : Loc
  page  : Option Tlb
  scale : Option Loc
  size  : Nat
deriving DecidableEq, Repr, Inhabited

/-- FMT of the page of an access; a window is RAW (R174). -/
def Access.fmt (a : Access) : Nat := match a.page with | some x => x.fmt | none => 0

/-- The checks of R173 at an exact address. -/
def State.probeEa (s : State) (t i : Nat) (ea : Int) (size align : Nat) (a : Touch) (fmt : Tlb → Bool) :
    State × Probe :=
  if ea < 0 ∨ (2 ^ 64 : Int) ≤ ea then (s, .fault fAddrwrap (ibits ea 64) false)
  else match checks14 (s.privileged t i) ea.toNat size align with
    | some (c, x) => (s, .fault c x false)
    | none => s.checks59 t (s.privileged t i) ea.toNat size a fmt

/-- An access of an explicit width (R86: it moves bytes as stored on every format). -/
def State.access (s : State) (t i : Nat) (ea : Int) (size align : Nat) (a : Touch) : State × Except Probe Access :=
  match s.probeEa t i ea size align a (fun _ => true) with
  | (s, .ok l x) => (s, .ok { loc := l, page := x, scale := none, size })
  | (s, p) => (s, .error p)

/-- An access at a scratchpad offset (R157, R173). -/
def State.accessPad (s : State) (t : Nat) (off : Int) (size : Nat) : Except Probe Access :=
  match s.probePad t off size with
  | .ok l x => .ok { loc := l, page := x, scale := none, size }
  | p => .error p

/-- Bytes of an element of a page for a TYPE (R84, R88). DESIGN CHOICE, log entry 57: under a FMT that is not defined an
element has 4 bytes for check 4, which comes before check 8. -/
def typedBytes (fmt : Nat) (ty : BitVec 4) : Nat :=
  match fmt with
  | 0 => tyBits ty / 8
  | 1 | 2 => 1
  | 3 | 4 => 2
  | _ => 4

/-- FMT of the page at an address, where the tables that are there tell it before the access is checked (R173, R176). -/
def State.peekFmt (s : State) (t i : Nat) (ea : Int) (a : Touch) : State × Option Nat :=
  if ea < 0 ∨ (2 ^ 64 : Int) ≤ ea ∨ (checks14 (s.privileged t i) ea.toNat 1 1).isSome then (s, none)
  else match s.window t ea.toNat with
    | .outside =>
      let m := s.team t
      match s.translate m.core m.ctx ea.toNat a with
      | (s, .page x) => (s, some x.fmt)
      | (s, .absent _ leaf) => (s, leaf.map Tlb.fmt)
      | (s, .nomap _) => (s, none)
    | _ => (s, some 0)

/-- Whether a typed access of a TYPE may use a page (R86). -/
def typeOk (ty : BitVec 4) (x : Tlb) : Bool := x.fmt == 0 || tyFloat ty

/-- The scale byte of an element of a Q page, checked after it: it lies in ordinary pages wherever its address is (R87). -/
def State.accessScale (s : State) (t i : Nat) (va : Nat) (x : Tlb) (a : Touch) (write : Bool) : State × Probe :=
  let b := 32 * 2 ^ x.geom
  let sa : Nat := ((s.ctxOf t).scb + va / b * b / 32) % 2 ^ 64
  s.probeEa t i (sa : Int) 1 1 { a with write, plain := true } (fun y => y.fmt == 0)

/-- A typed access: its element, then on a Q page its scale byte (R87). `scaleW` says that the scale is written. -/
def State.accessTyped (s : State) (t i : Nat) (ea : Int) (ty : BitVec 4) (a : Touch) (scaleW : Nat → Bool)
    (ok : Tlb → Bool) : State × Except Probe Access :=
  let (s, f) := s.peekFmt t i ea a
  let size := match f with | some k => typedBytes k ty | none => 1
  match s.probeEa t i ea size size a ok with
  | (s, .ok l (some x)) =>
    if x.fmt = 1 ∨ x.fmt = 2 then
      (match s.accessScale t i ea.toNat x a (a.write && scaleW x.fmt) with
       | (s, .ok m _) => (s, .ok { loc := l, page := some x, scale := some m, size })
       | (s, p) => (s, .error p))
    else (s, .ok { loc := l, page := some x, scale := none, size })
  | (s, .ok l none) => (s, .ok { loc := l, page := none, scale := none, size })
  | (s, p) => (s, .error p)

/-- Probe each thread of a list in turn. -/
def probeEach (f : State → Nat → State × Except Probe α) : State → List Nat → State × List (Nat × Except Probe α)
  | s, [] => (s, [])
  | s, i :: r =>
    let (s, x) := f s i
    let (s, xs) := probeEach f s r
    (s, (i, x) :: xs)

/-- Failing lanes with their records. -/
def faultReps (ps : List (Nat × Except Probe α)) : List (Nat × Rep) :=
  ps.filterMap fun e => match e.2 with
    | .error (.fault c a s2) => some (e.1, { code := c, addr := a, s2 })
    | _ => none
/-- Absent pages of the lanes. -/
def missingPages (ps : List (Nat × Except Probe α)) : List PageKey :=
  (ps.flatMap fun e => match e.2 with | .error (.page ks) => ks | _ => []).eraseDups
/-- A word that does not wait for absent pages still waits at its place for what its translations read on other chips (R335). -/
def State.awaitFar (s : State) (k : Iss) (ps : List (Nat × Except Probe α)) (go : State → Res) : Res :=
  match (missingPages ps).filter PageKey.far with
  | [] => go s
  | ks => (s.requests k.team ks false).awaitPages k ks
/-- Lanes that pass. -/
def passed (ps : List (Nat × Except Probe α)) : List (Nat × α) :=
  ps.filterMap fun e => match e.2 with | .ok a => some (e.1, a) | .error _ => none

/-- What the probe stage decides (R174, R175): a fatal lane traps; else absent pages are requested and the issue waits;
else a scratchpad that is not resident keeps it waiting; else the access performs. -/
def State.onProbes (s : State) (k : Iss) (ex : List Nat) (ps : List (Nat × Except Probe α)) (write : Bool)
    (go : State → List (Nat × α) → Res) : Res :=
  match faultReps ps with
  | _ :: _ => s.trapAt k ex (faultReps ps)
  | [] => match missingPages ps with
    | _ :: _ => (s.requests k.team (missingPages ps) write).awaitPages k (missingPages ps)
    | [] => match ps.find? fun e => match e.2 with | .error (.remote _) => true | _ => false with
      | some (_, .error (.remote u)) =>
        .left ((s.hold k.team k.threads (.remoteTeam (u.getD (2 ^ 64))) false).leave k)
      | _ => go s (passed ps)

/-- The first of some places that is poisoned by a test is consumed, and nothing is performed (R314). -/
def State.onPoison (s : State) (k : Iss) (test : Loc → Nat → Bool) (ls : List (Loc × Nat)) (go : Res) : Res :=
  match ls.find? fun e => test e.1 e.2 with
  | some e => .left (s.consume k.core e.1)
  | none => go

/-- The places of accesses, with their scale bytes. -/
def places (as : List (Nat × Access)) : List (Loc × Nat) :=
  as.flatMap fun e => (e.2.loc, e.2.size) :: (match e.2.scale with | some m => [(m, 1)] | none => [])

/-! ### Loads -/

/-- A typed element as register bits (R88, R89). -/
def decodeTyped (fmt : Nat) (ty : BitVec 4) (v : Nat) (scale : Byte) : Nat :=
  let f := fmOf ty
  let e := sext scale.toNat 8
  match fmt with
  | 0 => fillTy ty v
  | 1 => f.ofQ (sext v 8) e
  | 2 =>
    let lo := f.ofQ (sext v 4) e
    let hi := f.ofQ (sext (v / 16) 4) e
    lo + 2 ^ f.width * hi
  | 3 => cvtFloat fmB16 f 0 false v
  | 4 => cvtFloat fm16 f 0 false v
  | _ => cvtFloat fm32 f 0 false v

/-- Registers that a typed load from a page writes; the other named ones stay (R179). -/
def typedRegs (fmt : Nat) (ty : BitVec 4) : Nat :=
  if fmt = 2 then (if ty = f32 then 2 else if ty = f64 then 4 else tyRegs ty) else tyRegs ty

/-- The result of a load from its bytes. -/
def LoadHow.value (h : LoadHow) (bytes : List Byte) (scale : Byte) : Nat :=
  let v := leValue bytes
  match h.ty with
  | none => if h.sx then ibits (sext v (8 * h.len)) 32 else v
  | some ty => decodeTyped h.fmt ty v scale + h.upper

/-- How a load of a thread becomes its result: `regs` registers are named from `code`. -/
def State.loadHow (s : State) (t i : Nat) (code : BitVec 8) (regs : Nat) (sx : Bool) (ty : Option (BitVec 4))
    (a : Access) : LoadHow :=
  let upper := match ty with
    | none => 0
    | some y =>
      let n := typedRegs a.fmt y
      if n < regs then s.opnd t i code regs / 2 ^ (32 * n) * 2 ^ (32 * n) else 0
  { len := a.size, sx, ty, fmt := a.fmt, upper }

/-- Send a load or an atomic with a result to a peer; its thread will stand at BP-REMOTE (R335). -/
def State.askPeer (s : State) (t i key : Nat) (how : LoadHow) (scale : Byte) (pa : Nat) (op : PeerOp) (role : PeerRole) :
    State :=
  let r : PeerReq := { tag := s.nextId, pa, team := t, tidx := i, key, how, scale, waits := true, sync := false, cmd := 0, role }
  let s := { s with peers := s.peers ++ [r], nextId := s.nextId + 1 }
  s.send (.mreq r.tag pa op)
/-- What a load asks of a peer: the address and number of bytes, the scale that it has, and what the answer is for (R87,
R335); none where nothing of it lies there. -/
def Access.asks (a : Access) (near : List Byte) (scale : Byte) : Option (Nat × Nat × Byte × PeerRole) :=
  match a.scale, a.loc with
  | some (.peer q), .peer pa => some (q, 1, 0, .scale (some pa) [])
  | some (.peer q), _ => some (q, 1, 0, .scale none near)
  | _, .peer pa => some (pa, a.size, scale, .bytes)
  | _, _ => none

/-- Bytes that a thread's load sees at a place. -/
def State.laneBytes (s : State) (t i : Nat) (l : Loc) (n : Nat) : List Byte :=
  let m := s.team t
  s.loadBytes m.core (s.warp t (m.warpOf i)) (m.hlane i) l n
/-- The scale byte of an access. -/
def State.laneScale (s : State) (t i : Nat) (a : Access) : Byte :=
  match a.scale with
  | some m => (s.laneBytes t i m 1).headD 0
  | none => 0

/-- The sectors of loads enter L1; an acquire drops what L1 held of them first (R154, R156, R178). -/
def State.fillLanes (s : State) (k : Iss) (as : List (Nat × Access)) (acq : Bool) : State :=
  as.foldl (fun (s : State) (e : Nat × Access) =>
    let s := if acq then s.dropSector k.core e.2.loc else s
    let s := s.fillLoc k.core e.2.loc e.2.size
    match e.2.scale with | some m => s.fillLoc k.core m 1 | none => s) s
/-- What an access loads: how it becomes its result, what it asks of a peer, and its value where it asks nothing. -/
def State.laneLoad (s : State) (t : Nat) (code : BitVec 8) (regs : Nat) (sx : Bool) (ty : Option (BitVec 4))
    (e : Nat × Access) : LoadHow × Option (Nat × Nat × Byte × PeerRole) × Nat :=
  let h := s.loadHow t e.1 code regs sx ty e.2
  let sc := s.laneScale t e.1 e.2
  let bytes := s.laneBytes t e.1 e.2.loc e.2.size
  (h, e.2.asks bytes sc, h.value bytes sc)
/-- The loads of an issue (R178): their values are captured and written later (R50); the lanes of peer pages send their
requests and stand at BP-REMOTE. `zeros` lists lanes that receive zero, and `pred` each lane's predicate. -/
def State.loadDone (s : State) (k : Iss) (c : Common) (code : BitVec 8) (regs : Nat) (sx : Bool)
    (ty : Option (BitVec 4)) (as : List (Nat × Access)) (zeros : List Nat) (pred : Nat → Option (BitVec 3 × Bool))
    (acq : Bool) : State :=
  let t := k.team
  let key := s.nextId
  let vals := as.map fun (e : Nat × Access) => (e, s.laneLoad t code regs sx ty e)
  let near := vals.filter fun v => v.2.2.1.isNone
  let far := vals.filter fun v => v.2.2.1.isSome
  let got : List (Nat × Option Nat) :=
    (s.scalarAgree t code (near.map fun v => (v.1.1, v.2.2.2))).map fun e => (e.1, some e.2)
  let zero : List (Nat × Option Nat) := zeros.map fun i => (i, some 0)
  let wait : List (Nat × Option Nat) := far.map fun v => (v.1.1, none)
  let all := isort (fun a b => decide (a.1 ≤ b.1)) (got ++ zero ++ wait)
  let s := s.spinReads k (near.map fun v => (v.1.2.loc, v.1.2.size, v.2.2.2))
  let s := s.issueResults k c code regs (all.map fun e => (e.1, e.2, pred e.1))
  let s := far.foldl (fun (s : State) v => match v.2.2.1 with
    | some (pa, n, sc, role) => (s.askPeer t v.1.1 key v.2.1 sc pa (.load pa n) role).block t v.1.1 (.remoteData key)
    | none => s) s
  if acq then s.acquire k.core else s
/-- Perform the loads of an issue, unless they consume poison. -/
def State.loadLanes (s : State) (k : Iss) (c : Common) (code : BitVec 8) (regs : Nat) (sx : Bool)
    (ty : Option (BitVec 4)) (as : List (Nat × Access)) (zeros : List Nat) (pred : Nat → Option (BitVec 3 × Bool))
    (acq : Bool) : Res :=
  s.onPoison k (if acq then s.takesPoison k.core else s.consumes k.core) (places as)
    (.ok ((s.fillLanes k as acq).loadDone k c code regs sx ty as zeros pred acq))

/-! ### Stores -/

/-- The mantissa of a value under a scale, and whether it makes the block NaR (R90). -/
def quantStore (l : Nat) (x : FVal) (scale : Int) : Int × Bool :=
  match x with
  | .fin s m e => (max (-(l : Int)) (min l (quant s m e (if scale = -128 then 0 else scale))), false)
  | _ => (0, true)

/-- The two values that a typed access to a Q4 page takes from its registers (R89). -/
def q4Values (ty : BitVec 4) (v : Nat) : Nat × Nat :=
  let n := (fmOf ty).width
  (v % 2 ^ n, v / 2 ^ n % 2 ^ n)

/-- The bytes that a typed store writes, and whether it makes the block NaR (R88, R90). -/
def encodeTyped (fmt : Nat) (ty : BitVec 4) (v : Nat) (scale : Byte) : List Byte × Bool :=
  let f := fmOf ty
  let e := sext scale.toNat 8
  match fmt with
  | 0 => (leBytes (tyBits ty / 8) v, false)
  | 1 =>
    let (m, nar) := quantStore 127 (f.read false (v % 2 ^ f.width)) e
    (leBytes 1 (ibits m 8), nar)
  | 2 =>
    let (a, b) := q4Values ty v
    let (m, x) := quantStore 7 (f.read false a) e
    let (n, y) := quantStore 7 (f.read false b) e
    (leBytes 1 (ibits m 4 + 16 * ibits n 4), x || y)
  | 3 => (leBytes 2 (cvtFloat f fmB16 0 false (v % 2 ^ f.width)), false)
  | 4 => (leBytes 2 (cvtFloat f fm16 0 false (v % 2 ^ f.width)), false)
  | _ => (leBytes 4 (cvtFloat f fm32 0 false (v % 2 ^ f.width)), false)

/-- Whether a typed store of a value to a page of FMT writes the scale byte. -/
def makesNar (ty : BitVec 4) (v fmt : Nat) : Bool := (encodeTyped fmt ty v 0).2

/-- The words that a speculation window holds, each with its lane (R249). -/
def Spec.words (sp : Spec) : List (Nat × Nat) :=
  (sp.held.flatMap fun h => (List.range ((h.1 + h.2.1.length + 3) / 4 - h.1 / 4)).map fun d => (h.1 / 4 + d, h.2.2)).eraseDups

/-- The members that hold one of some words for a thread other than the one at a home warp and lane (R172). -/
def State.holders (s : State) (t w lane : Nat) (words : List Nat) : List (Nat × Nat × Nat) :=
  (List.range s.teams.length).flatMap fun u => (List.range (s.team u).nWarps).filterMap fun v =>
    match (s.warp u v).spec with
    | some q => if q.words.any (fun e => words.contains e.1 && !(u == t && v == w && e.2 == lane)) then some (u, v, q.seq) else none
    | none => none
/-- The branches that a thread's store in an open window waits for, none where it can be held (R172, R248, R249): it is held
where it goes to HBM or bulk memory outside span windows, to words that no other thread holds, within 64 words of its member. -/
def State.storeWaits (s : State) (t i : Nat) (page : Option Tlb) (ls : List (Loc × Nat)) : List (Nat × Nat × Nat) :=
  let m := s.team t
  let w := m.warpOf i
  match (s.warp t w).spec with
  | none => []
  | some sp =>
    let words := (ls.flatMap fun l => match l.1 with | .mem pa => wordsOf pa l.2 | _ => []).eraseDups
    let near := (match page with | some x => decide (x.kind ≤ 1) | none => false) &&
      ls.all fun l => match l.1 with | .mem _ => true | _ => false
    let others := s.holders t w (m.hlane i) words
    if near ∧ others.isEmpty ∧ (sp.words ++ words.map fun a => (a, m.hlane i)).eraseDups.length ≤ 64 then []
    else ((t, w, sp.seq) :: others).eraseDups

/-- Hold a store in its member's window. -/
def State.holdStore (s : State) (t i : Nat) (l : Loc) (bytes : List Byte) : State :=
  match l with
  | .mem pa =>
    let m := s.team t
    s.modWarp t (m.warpOf i) fun w => { w with spec := w.spec.map fun sp =>
      { sp with held := sp.held ++ [(pa, bytes, m.hlane i)] } }
  | _ => s

/-- The plain stores of an issue, in increasing home warp and home lane, so that the highest wins (R176). In an open
window a store is held, and one that cannot be ends the window for its thread. -/
def State.storeDone (s : State) (k : Iss) (sts : List (Nat × Access × List (Loc × List Byte))) : State :=
  let t := k.team
  sts.foldl (fun (s : State) (e : Nat × Access × List (Loc × List Byte)) =>
    if (s.warp t ((s.team t).warpOf e.1)).spec.isNone then
      e.2.2.foldl (fun (s : State) (x : Loc × List Byte) => s.storeLoc t e.1 x.1 x.2) s
    else match s.storeWaits t e.1 e.2.1.page (e.2.2.map fun x => (x.1, x.2.length)) with
      | [] => e.2.2.foldl (fun (s : State) (x : Loc × List Byte) => s.holdStore t e.1 x.1 x.2) s
      | on => s.block t e.1 (.agreeWord on)) s
/-- Perform the plain stores of an issue. -/
def State.storeLanes (s : State) (k : Iss) (sts : List (Nat × Access × List (Loc × List Byte))) : Res :=
  .ok (s.storeDone k sts)

/-- The bytes and scale byte that a typed store of a value writes, under the scale it read (R90). -/
def typedBytesAt (fmt : Nat) (ty : BitVec 4) (v : Nat) (l : Loc) (sc : Option Loc) (scale : Byte) : List (Loc × List Byte) :=
  let (b, nar) := encodeTyped fmt ty v scale
  (l, b) :: (match sc with | some m => if nar then [(m, [0x80])] else [] | none => [])
/-- Whether the scale byte of an access lies on a peer page. -/
def Access.farScale (a : Access) : Option Nat := match a.scale with | some (.peer q) => some q | _ => none
/-- Typed stores stand with their thread at BP-REMOTE until every scale of the issue has come: `got` is what is known of a lane's,
and a lane whose scale is not on a peer page asks for nothing. -/
def State.standStore (s : State) (t key : Nat) (e : Nat × Access) (ty : BitVec 4) (v : Nat) : State :=
  let how : LoadHow := { len := 1, sx := false, ty := none, fmt := 0, upper := 0 }
  match e.2.scale with
  | some (.peer q) =>
    (s.askPeer t e.1 key how 0 q (.load q 1) (.store e.2.fmt ty v e.2.loc e.2.scale none)).block t e.1 (.remoteData key)
  | sc =>
    let (tag, s') := s.fresh
    let r : PeerReq := { tag, pa := 0, team := t, tidx := e.1, key, how, scale := 0, waits := true, sync := false, cmd := 0,
                         role := .store e.2.fmt ty v e.2.loc sc (some (s.laneScale t e.1 e.2)) }
    ({ s' with peers := s'.peers ++ [r] } : State).block t e.1 (.remoteData key)
/-- The typed stores of an issue (R88 to R90): every scale is read before anything is written, and the stores are made in
increasing home warp and home lane, so that the highest wins (R176). Where a scale byte lies on a peer page the threads stand at
BP-REMOTE until all have come, and their stores are made then; in an open window such a thread first waits for its branch. -/
def State.typedStores (s : State) (k : Iss) (code : BitVec 8) (regs : Nat) (ty : BitVec 4) (as : List (Nat × Access)) :
    State :=
  let t := k.team
  let free := fun (e : Nat × Access) => (s.branchOf t ((s.team t).warpOf e.1)).isEmpty
  let some_ := as.any fun e => free e && e.2.farScale.isSome
  let near := as.filter fun e => e.2.farScale.isNone && !(some_ && free e)
  let stand := if some_ then (as.filter free).map fun (e : Nat × Access) => (e, s.opnd t e.1 code regs) else []
  let wait := as.filter fun e => e.2.farScale.isSome && !free e
  let s := s.storeDone k (near.map fun e =>
    (e.1, e.2, typedBytesAt e.2.fmt ty (s.opnd t e.1 code regs) e.2.loc e.2.scale (s.laneScale t e.1 e.2)))
  let (key, s) := s.fresh
  let s := stand.foldl (fun (s : State) e => s.standStore t key e.1 ty e.2) s
  wait.foldl (fun (s : State) (e : Nat × Access) => s.block t e.1 (.agreeWord (s.branchOf t ((s.team t).warpOf e.1)))) s

/-! ### Releases -/

/-- What a release of some threads waits for (R167): their stores are acknowledged; none where a peer has not answered. -/
def State.release (s : State) (t : Nat) (is : List Nat) : Option State :=
  if is.any fun i => s.peerOpen t i then none
  else some (is.foldl (fun (s : State) (i : Nat) => s.settleThread t i) s)
/-- Whether a thread has a synchronising store at a peer that is not acknowledged (R165). -/
def State.syncOpen (s : State) (t i : Nat) : Bool := s.peers.any fun r => r.team == t && r.tidx == i && r.sync
/-- Go on once the synchronising stores of some threads are done: the synchronising operations of a thread take effect in its
program order (R165). -/
def State.syncing (s : State) (t : Nat) (is : List Nat) (go : State → Res) : Res :=
  if is.any (s.syncOpen t) then .stall s else go s
/-- Go on once a release is done. -/
def State.releasing (s : State) (t : Nat) (is : List Nat) (go : State → Res) : Res :=
  match s.release t is with
  | some s => go s
  | none => .stall s

/-! ### Atomics (R182) -/

/-- The bytes at a place as its home holds them, stores on their way there first (R156). -/
def State.homeBytes (s : State) (l : Loc) (n : Nat) : State × List Byte :=
  match l with
  | .mem pa => let s := s.settleBytes pa n; (s, s.mem.readN pa n)
  | _ => (s, (List.range n).map fun d => s.engineLoc noCore 0 (l.add d))
/-- Apply one lane's atomic at its home or banks: the value it replaced. -/
def State.applyAtom (s : State) (t i : Nat) (l : Loc) (n aop b : Nat) : State × Nat :=
  let (s, bytes) := s.homeBytes l n
  let old := leValue bytes
  ((s.writeLoc { team := t, tidx := i } l (leBytes n (atomResult aop (8 * n) old b)) false).dropLine (s.team t).core l, old)

/-- Apply the atomics of an issue in increasing home warp and home lane: each lane's replaced value (R182). Lanes of peer
pages are sent. -/
def State.applyAtoms (s : State) (t key n aop : Nat) : List (Nat × Loc × Nat) → State × List (Nat × Option Nat)
  | [] => (s, [])
  | (i, l, b) :: r =>
    match l with
    | .peer pa =>
      let how : LoadHow := { len := n, sx := false, ty := none, fmt := 0, upper := 0 }
      let s := s.askPeer t i key how 0 pa (.atom pa n aop b) .bytes
      let (s, vs) := s.applyAtoms t key n aop r
      (s, (i, none) :: vs)
    | _ =>
      let (s, v) := s.applyAtom t i l n aop b
      let (s, vs) := s.applyAtoms t key n aop r
      (s, (i, some v) :: vs)

/-- One lane's RED (R156, R167, R182): it goes to its home, which acknowledges it later; at banks and in host memory it is
applied, and to a peer it is sent. -/
def State.redLane (s : State) (t n aop : Nat) (e : Nat × Loc × Nat) : State :=
  match e.2.1 with
  | .mem pa => (s.queueStore t e.1 pa (leBytes n e.2.2) (some aop)).dropLine (s.team t).core e.2.1
  | .peer pa => s.sendPeer { team := t, tidx := e.1 } pa (.atom pa n aop e.2.2)
  | l => (s.applyAtom t e.1 l n aop e.2.2).1

/-- Atomics that return the old value (ATOM, ATOMS): long-latency even when it is discarded (R50, R182). -/
def State.atomDone (s : State) (k : Iss) (c : Common) (code : BitVec 8) (wid : BitVec 3) (aop : Nat)
    (ls : List (Nat × Loc × Nat)) (acq : Bool) : State :=
  let (key, s) := s.fresh
  let (s, vs) := s.applyAtoms k.team key (widBytes wid) aop ls
  let used := s.nextId
  let s := { s with nextId := key }
  let s := s.issueResults k c code (widRegs wid) (vs.map fun e => (e.1, e.2, none))
  let s := { s with nextId := used }
  let s := if acq then s.acquire k.core else s
  vs.foldl (fun (s : State) (e : Nat × Option Nat) => match e.2 with
    | none => s.block k.team e.1 (.remoteData key)
    | some _ => s) s
/-- Perform the atomics of an issue that return the old value. -/
def State.atomLanes (s : State) (k : Iss) (c : Common) (code : BitVec 8) (wid : BitVec 3) (aop : Nat)
    (ls : List (Nat × Loc × Nat)) (acq : Bool) : Res :=
  s.onPoison k (s.takesPoison k.core) (ls.map fun e => (e.2.1, widBytes wid)) (.ok (s.atomDone k c code wid aop ls acq))

end Sys2Proof.Machine
end

