-- ==== Sys2Proof/Machine/Int.lean ====
section
/-! DEFINITION. Integer instructions (R104 to R111). -/

namespace Sys2Proof.Machine

open Sys2Proof

/-! ### The frame of an element-wise instruction (R101) -/

/-- One value for each executing thread, of its operands as they stand before the word. -/
def State.mapTo (s : State) (k : Iss) (ex : List Nat) (code : BitVec 8) (n : Nat) (f : Nat → Nat) : State :=
  s.putAll k.team code n (ex.map fun i => (i, f i))
/-- A form A instruction whose result is a function of each thread's operands. -/
def alu (i : Instr) (w : FA) (nd : Nat) (f : State → Nat → Nat → Nat) (s : State) : Host.Outcome State Fault Refusal :=
  simple i w.c (fun s k ex => s.mapTo k ex w.dst nd (f s k.team)) s
/-- As `alu`, and a predicate with each result. -/
def aluPred (i : Instr) (w : FA) (nd : Nat) (pd : BitVec 3) (f : State → Nat → Nat → Nat × Bool) (s : State) :
    Host.Outcome State Fault Refusal :=
  simple i w.c (fun s k ex =>
    let rs := ex.map fun t => (t, f s k.team t)
    let s := s.putAll k.team w.dst nd (rs.map fun r => (r.1, r.2.1))
    rs.foldl (fun (s : State) (r : Nat × Nat × Bool) => s.putPred k.team r.1 pd r.2.2) s) s

/-- SA at TYPE's registers. -/
def State.fa (s : State) (w : FA) (t i : Nat) : Nat := s.opnd t i w.sa (tyRegs w.ty)
/-- SB at TYPE's registers. -/
def State.fb (s : State) (w : FA) (t i : Nat) : Nat := s.src t i w.sb w.sc (tyRegs w.ty)
/-- SC at TYPE's registers. -/
def State.fc (s : State) (w : FA) (t i : Nat) : Nat := s.opnd t i w.sc (tyRegs w.ty)
/-- SB as one 32-bit register. -/
def State.fb32 (s : State) (w : FA) (t i : Nat) : Nat := s.src t i w.sb w.sc 1
/-- SA, SB and SC as integers of TYPE. -/
def State.ia (s : State) (w : FA) (t i : Nat) : Int := intOf w.ty (s.fa w t i)
def State.ib (s : State) (w : FA) (t i : Nat) : Int := intOf w.ty (s.fb w t i)
def State.ic (s : State) (w : FA) (t i : Nat) : Int := intOf w.ty (s.fc w t i)

/-- An integer result, exact, then narrowed or clamped (R83). -/
def arith (i : Instr) (w : FA) (f : State → Nat → Nat → Int) (s : State) : Host.Outcome State Fault Refusal :=
  alu i w (tyRegs w.ty) (fun s t x => narrow w.ty (w.ctl.getLsbD 0) (f s t x)) s
/-- A bit-pattern result of TYPE's width. -/
def bitwise (i : Instr) (w : FA) (f : State → Nat → Nat → Nat) (s : State) : Host.Outcome State Fault Refusal :=
  alu i w (tyRegs w.ty) (fun s t x => fillTy w.ty (f s t x)) s

/-! ### Arithmetic -/

def execAdd (w : FA) (s : State) : Host.Outcome State Fault Refusal :=
  arith (.add w) w (fun s t i => s.ia w t i + s.ib w t i) s
def execSub (w : FA) (s : State) : Host.Outcome State Fault Refusal :=
  arith (.sub w) w (fun s t i => s.ia w t i - s.ib w t i) s
def execMul (w : FA) (s : State) : Host.Outcome State Fault Refusal :=
  arith (.mul w) w (fun s t i => s.ia w t i * s.ib w t i) s
def execMad (w : FA) (s : State) : Host.Outcome State Fault Refusal :=
  arith (.mad w) w (fun s t i => s.ia w t i * s.ib w t i + s.ic w t i) s
/-- Bits 2n − 1 to n of the exact product. -/
def execMulh (w : FA) (s : State) : Host.Outcome State Fault Refusal :=
  bitwise (.mulh w) w (fun s t i => ibits (s.ia w t i * s.ib w t i / 2 ^ tyBits w.ty) (tyBits w.ty)) s
/-- a and b of 32 bits, c and d pairs. -/
def execMadw (w : FA) (s : State) : Host.Outcome State Fault Refusal :=
  alu (.madw w) w 2 (fun s t i => ibits (s.ia w t i * s.ib w t i + (s.opnd t i w.sc 2 : Nat)) 64) s
def execNeg (w : FA) (s : State) : Host.Outcome State Fault Refusal :=
  arith (.neg w) w (fun s t i => -s.ia w t i) s
def execAbs (w : FA) (s : State) : Host.Outcome State Fault Refusal :=
  arith (.abs w) w (fun s t i => ((s.ia w t i).natAbs : Int)) s
def execMin (w : FA) (s : State) : Host.Outcome State Fault Refusal :=
  arith (.min w) w (fun s t i => min (s.ia w t i) (s.ib w t i)) s
def execMax (w : FA) (s : State) : Host.Outcome State Fault Refusal :=
  arith (.max w) w (fun s t i => max (s.ia w t i) (s.ib w t i)) s

/-- ADDC (R105): the carry in is p(PCI) when CIN is 1. -/
def execAddc (w : FA) (s : State) : Host.Outcome State Fault Refusal :=
  aluPred (.addc w) w (tyRegs w.ty) w.sc64 (fun s t i =>
    carryOf (tyBits w.ty) (s.fa w t i) (s.opnd t i w.sb (tyRegs w.ty))
      (w.sc.getLsbD 3 && (s.thread t i).pred w.sc20).toNat) s
def execSubb (w : FA) (s : State) : Host.Outcome State Fault Refusal :=
  aluPred (.subb w) w (tyRegs w.ty) w.sc64 (fun s t i =>
    borrowOf (tyBits w.ty) (s.fa w t i) (s.opnd t i w.sb (tyRegs w.ty))
      (w.sc.getLsbD 3 && (s.thread t i).pred w.sc20).toNat) s

/-! ### Bits -/

def execAnd (w : FA) (s : State) : Host.Outcome State Fault Refusal :=
  bitwise (.and w) w (fun s t i => s.fa w t i &&& s.fb w t i) s
def execOr (w : FA) (s : State) : Host.Outcome State Fault Refusal :=
  bitwise (.or w) w (fun s t i => s.fa w t i ||| s.fb w t i) s
def execXor (w : FA) (s : State) : Host.Outcome State Fault Refusal :=
  bitwise (.xor w) w (fun s t i => s.fa w t i ^^^ s.fb w t i) s
/-- The complement of n bits. -/
def notBits (n v : Nat) : Nat := 2 ^ n - 1 - v % 2 ^ n
def execAndn (w : FA) (s : State) : Host.Outcome State Fault Refusal :=
  bitwise (.andn w) w (fun s t i => s.fa w t i &&& notBits (32 * tyRegs w.ty) (s.fb w t i)) s
def execNot (w : FA) (s : State) : Host.Outcome State Fault Refusal :=
  bitwise (.not w) w (fun s t i => notBits (32 * tyRegs w.ty) (s.fa w t i)) s
def execShl (w : FA) (s : State) : Host.Outcome State Fault Refusal :=
  bitwise (.shl w) w (fun s t i => s.fa w t i * 2 ^ (s.fb32 w t i % tyBits w.ty)) s
def execShr (w : FA) (s : State) : Host.Outcome State Fault Refusal :=
  bitwise (.shr w) w (fun s t i => s.fa w t i / 2 ^ (s.fb32 w t i % tyBits w.ty)) s
def execSar (w : FA) (s : State) : Host.Outcome State Fault Refusal :=
  arith (.sar w) w (fun s t i => s.ia w t i / 2 ^ (s.fb32 w t i % tyBits w.ty)) s
def execRotl (w : FA) (s : State) : Host.Outcome State Fault Refusal :=
  bitwise (.rotl w) w (fun s t i =>
    let n := tyBits w.ty
    let b := s.fb32 w t i % n
    s.fa w t i * 2 ^ b + s.fa w t i / 2 ^ (n - b)) s
def execFshf (w : FA) (s : State) : Host.Outcome State Fault Refusal :=
  bitwise (.fshf w) w (fun s t i =>
    let n := tyBits w.ty
    (s.fc w t i * 2 ^ n + s.fa w t i) / 2 ^ (s.opnd t i w.sb 1 % n)) s

/-- Ones among the low n bits. -/
def popBits (v : Nat) : Nat → Nat
  | 0 => 0
  | n + 1 => (if v.testBit n then 1 else 0) + popBits v n
/-- Zeros above the highest one of n bits. -/
def clzBits (v : Nat) : Nat → Nat
  | 0 => 0
  | n + 1 => if v.testBit n then 0 else 1 + clzBits v n
/-- Zeros below the lowest one of n bits. -/
def ctzBits (v : Nat) : Nat → Nat
  | 0 => 0
  | n + 1 => if v % 2 = 1 then 0 else 1 + ctzBits (v / 2) n
/-- n bits reversed. -/
def revBits (v : Nat) : Nat → Nat
  | 0 => 0
  | n + 1 => (if v.testBit 0 then 2 ^ n else 0) + revBits (v / 2) n
def execPopc (w : FA) (s : State) : Host.Outcome State Fault Refusal :=
  alu (.popc w) w 1 (fun s t i => popBits (s.fa w t i) (tyBits w.ty)) s
def execClz (w : FA) (s : State) : Host.Outcome State Fault Refusal :=
  alu (.clz w) w 1 (fun s t i => clzBits (s.fa w t i) (tyBits w.ty)) s
def execCtz (w : FA) (s : State) : Host.Outcome State Fault Refusal :=
  alu (.ctz w) w 1 (fun s t i => ctzBits (s.fa w t i) (tyBits w.ty)) s
def execBrev (w : FA) (s : State) : Host.Outcome State Fault Refusal :=
  bitwise (.brev w) w (fun s t i => revBits (s.fa w t i) (tyBits w.ty)) s

/-- BFX (R106). -/
def bfx (ty : BitVec 4) (a b : Nat) : Nat :=
  let n := tyBits ty
  let pos := b % 256
  let len := min (b / 256 % 256) n
  let x := intOf ty a / 2 ^ pos
  if len = 0 then 0
  else if tySigned ty then ibits (sext (ibits x len) len) n else ibits x len
def execBfx (w : FA) (s : State) : Host.Outcome State Fault Refusal :=
  bitwise (.bfx w) w (fun s t i => bfx w.ty (s.fa w t i) (s.fb32 w t i)) s

/-- BFI (R107). -/
def bfi (n a b c : Nat) : Nat :=
  let pos := c % 256
  let len := c / 256 % 256
  if len = 0 ∨ n ≤ pos then b
  else
    let hi := min (pos + len) n
    b / 2 ^ hi * 2 ^ hi + a % 2 ^ (hi - pos) * 2 ^ pos + b % 2 ^ pos
def execBfi (w : FA) (s : State) : Host.Outcome State Fault Refusal :=
  bitwise (.bfi w) w (fun s t i => bfi (tyBits w.ty) (s.fa w t i) (s.fb w t i) (s.opnd t i w.sc 1)) s

/-- PRMT (R108). -/
def prmt (a b c : Nat) : Nat :=
  let byte := fun (k : Nat) => (if k < 4 then a / 256 ^ k else b / 256 ^ (k - 4)) % 256
  let out := fun (k : Nat) =>
    let x := c / 16 ^ k % 16
    let v := byte (x % 8)
    if x < 8 then v else if v < 128 then 0 else 255
  out 0 + 256 * out 1 + 65536 * out 2 + 16777216 * out 3
def execPrmt (w : FA) (s : State) : Host.Outcome State Fault Refusal :=
  alu (.prmt w) w 1 (fun s t i => prmt (s.fa w t i) (s.fb w t i) (s.fc w t i)) s

/-- LEA (R109): the shift is CTL[4:1]. -/
def execLea (w : FA) (s : State) : Host.Outcome State Fault Refusal :=
  alu (.lea w) w 2 (fun s t i =>
    ibits ((s.opnd t i w.sa 2 : Nat) + intOf w.ty (s.fb32 w t i) * 2 ^ (w.ctl.toNat / 2)) 64) s

/-- A condition into a predicate and a mask register (R110, R113). -/
def maskOf (b : Bool) : Nat := if b then 0xFFFFFFFF else 0
def execCmp (w : FA) (s : State) : Host.Outcome State Fault Refusal :=
  aluPred (.cmp w) w 1 w.sc20 (fun s t i =>
    let r := intCond w.sc53.toNat (s.ia w t i) (intOf w.ty (s.opnd t i w.sb (tyRegs w.ty)))
    (maskOf r, r)) s
def execSel (w : FA) (s : State) : Host.Outcome State Fault Refusal :=
  bitwise (.sel w) w (fun s t i => if s.opnd t i w.sc 1 ≠ 0 then s.fa w t i else s.fb w t i) s

/-! ### Division (R55, R111): the feature is never enabled, so the word enters the emulation handler -/

/-- The word enters the emulation handler. -/
def emulated (i : Instr) (c : Common) (s : State) : Host.Outcome State Fault Refusal :=
  word i c goOn (fun s k _ => .left (s.emulate k (k.clause.word k.pos) (some i) k.threads)) s
def execDiv (w : FA) (s : State) : Host.Outcome State Fault Refusal := emulated (.div w) w.c s
def execRem (w : FA) (s : State) : Host.Outcome State Fault Refusal := emulated (.rem w) w.c s

end Sys2Proof.Machine
end

