-- ==== Sys2Proof/Machine/FloatOps.lean ====
section
/-! DEFINITION. Float instructions (R112 to R115). -/

namespace Sys2Proof.Machine

open Sys2Proof

/-- RM and FTZ (R45). -/
def rmOf (w : FA) : Rm := w.ctl.toNat % 4
def ftzOf (w : FA) : Bool := w.ctl.getLsbD 2
/-- The format of TYPE. -/
def fmA (w : FA) : Fm := fmOf w.ty
/-- IMM8 as a float of a format (R40). -/
def immFloat (f : Fm) (sc : BitVec 8) : Nat := f.roundI 0 false false (sext sc.toNat 8) 0
/-- SA as a float's bits. -/
def State.ga (s : State) (w : FA) (t i : Nat) : Nat := s.opnd t i w.sa (tyRegs w.ty) % 2 ^ (fmOf w.ty).width
/-- SB as a float's bits. -/
def State.gb (s : State) (w : FA) (t i : Nat) : Nat :=
  if w.sb = 0xF1 then immFloat (fmOf w.ty) w.sc else s.opnd t i w.sb (tyRegs w.ty) % 2 ^ (fmOf w.ty).width
/-- SC as a float's bits. -/
def State.gc (s : State) (w : FA) (t i : Nat) : Nat := s.opnd t i w.sc (tyRegs w.ty) % 2 ^ (fmOf w.ty).width

/-- A short float instruction. -/
def falu (i : Instr) (w : FA) (f : State → Nat → Nat → Nat) (s : State) : Host.Outcome State Fault Refusal :=
  alu i w (tyRegs w.ty) f s
/-- A long-latency instruction whose result is a function of each thread's operands (R50). -/
def longAlu (i : Instr) (w : FA) (n : Nat) (f : State → Nat → Nat → Nat) (s : State) :
    Host.Outcome State Fault Refusal :=
  simple i w.c (fun s k ex =>
    let vals := s.scalarAgree k.team w.dst (ex.map fun t => (t, f s k.team t))
    s.issueResults k w.c w.dst n (vals.map fun e => (e.1, some e.2, none))) s

def execFadd (w : FA) (s : State) : Host.Outcome State Fault Refusal :=
  falu (.fadd w) w (fun s t i => (fmA w).add (rmOf w) (ftzOf w) (s.ga w t i) (s.gb w t i)) s
def execFsub (w : FA) (s : State) : Host.Outcome State Fault Refusal :=
  falu (.fsub w) w (fun s t i => (fmA w).sub (rmOf w) (ftzOf w) (s.ga w t i) (s.gb w t i)) s
def execFmul (w : FA) (s : State) : Host.Outcome State Fault Refusal :=
  falu (.fmul w) w (fun s t i => (fmA w).mul (rmOf w) (ftzOf w) (s.ga w t i) (s.gb w t i)) s
def execFfma (w : FA) (s : State) : Host.Outcome State Fault Refusal :=
  falu (.ffma w) w (fun s t i => (fmA w).fma (rmOf w) (ftzOf w) (s.ga w t i) (s.gb w t i) (s.gc w t i)) s
def execFmin (w : FA) (s : State) : Host.Outcome State Fault Refusal :=
  falu (.fmin w) w (fun s t i => (fmA w).minmax false (ftzOf w) (s.ga w t i) (s.gb w t i)) s
def execFmax (w : FA) (s : State) : Host.Outcome State Fault Refusal :=
  falu (.fmax w) w (fun s t i => (fmA w).minmax true (ftzOf w) (s.ga w t i) (s.gb w t i)) s
def execFcmp (w : FA) (s : State) : Host.Outcome State Fault Refusal :=
  aluPred (.fcmp w) w 1 w.sc20 (fun s t i =>
    let r := floatCond (fmA w) (ftzOf w) w.sc53.toNat (s.ga w t i) (s.gb w t i)
    (maskOf r, r)) s
def execFclass (w : FA) (s : State) : Host.Outcome State Fault Refusal :=
  alu (.fclass w) w 1 (fun s t i => 2 ^ classOf (fmA w) (ftzOf w) (s.ga w t i)) s
/-- FSCALE reads b as one i32 register. -/
def execFscale (w : FA) (s : State) : Host.Outcome State Fault Refusal :=
  falu (.fscale w) w (fun s t i => (fmA w).scale (rmOf w) (ftzOf w) (s.ga w t i) (sext (s.fb32 w t i) 32)) s
def execFrnd (w : FA) (s : State) : Host.Outcome State Fault Refusal :=
  falu (.frnd w) w (fun s t i => (fmA w).rnd (rmOf w) (ftzOf w) (s.ga w t i)) s
def execFrcp (w : FA) (s : State) : Host.Outcome State Fault Refusal :=
  longAlu (.frcp w) w (tyRegs w.ty) (fun s t i => (fmA w).rcp (rmOf w) (ftzOf w) (s.ga w t i)) s
def execFrsq (w : FA) (s : State) : Host.Outcome State Fault Refusal :=
  longAlu (.frsq w) w (tyRegs w.ty) (fun s t i => (fmA w).rsq (rmOf w) (ftzOf w) (s.ga w t i)) s
def execFsqrt (w : FA) (s : State) : Host.Outcome State Fault Refusal :=
  longAlu (.fsqrt w) w (tyRegs w.ty) (fun s t i => (fmA w).sqrt (rmOf w) (ftzOf w) (s.ga w t i)) s
/-- FDIV is never enabled (R55). -/
def execFdiv (w : FA) (s : State) : Host.Outcome State Fault Refusal := emulated (.fdiv w) w.c s
/-- The five faithfully rounded functions (R81). -/
def execFexp2 (w : FA) (s : State) : Host.Outcome State Fault Refusal :=
  longAlu (.fexp2 w) w (tyRegs w.ty) (fun s t i => (fmA w).fn 0 w.ty (ftzOf w) (s.ga w t i)) s
def execFlog2 (w : FA) (s : State) : Host.Outcome State Fault Refusal :=
  longAlu (.flog2 w) w (tyRegs w.ty) (fun s t i => (fmA w).fn 1 w.ty (ftzOf w) (s.ga w t i)) s
def execFsin (w : FA) (s : State) : Host.Outcome State Fault Refusal :=
  longAlu (.fsin w) w (tyRegs w.ty) (fun s t i => (fmA w).fn 2 w.ty (ftzOf w) (s.ga w t i)) s
def execFcos (w : FA) (s : State) : Host.Outcome State Fault Refusal :=
  longAlu (.fcos w) w (tyRegs w.ty) (fun s t i => (fmA w).fn 3 w.ty (ftzOf w) (s.ga w t i)) s
def execFtanh (w : FA) (s : State) : Host.Outcome State Fault Refusal :=
  longAlu (.ftanh w) w (tyRegs w.ty) (fun s t i => (fmA w).fn 4 w.ty (ftzOf w) (s.ga w t i)) s
/-- FDOT2 (R115). -/
def execFdot2 (w : FA) (s : State) : Host.Outcome State Fault Refusal :=
  alu (.fdot2 w) w 1 (fun s t i =>
    dot2 (fmA w) (rmOf w) (ftzOf w) (s.opnd t i w.sa 1) (s.opnd t i w.sb 1) (s.opnd t i w.sc 1)) s

end Sys2Proof.Machine
end

