-- ==== Sys2Proof/Machine/Moves.lean ====
section
/-! DEFINITION. NOP with SKIP (R48, R54), moves, special registers and predicates (R119 to R122). -/

namespace Sys2Proof.Machine

open Sys2Proof

/-- NOP: its only effects are SKIP and the selector. A thread that executes SKIP at position i executes none of the
words i + 1 to i + n. -/
def execNop (cls : BitVec 2) (w : FN) (s : State) : Host.Outcome State Fault Refusal :=
  simple (.nop cls w) w.c (fun s k ex =>
    if w.c.nas = 5 then ex.foldl (fun (s : State) (i : Nat) => s.modThread k.team i fun x =>
      { x with skip := k.pos + 1 + w.c.look.toNat }) s
    else s) s

def execMov (w : FA) (s : State) : Host.Outcome State Fault Refusal :=
  alu (.mov w) w (tyRegs w.ty) (fun s t i => s.fa w t i) s
def execMovi (w : FV) (s : State) : Host.Outcome State Fault Refusal :=
  simple (.movi w) w.c (fun s k ex => s.mapTo k ex w.dst 1 fun _ => w.imm.toNat) s
/-- MOVH writes the odd register of the pair and leaves the even one (R119); of a window, the upper half. -/
def execMovh (w : FV) (s : State) : Host.Outcome State Fault Refusal :=
  simple (.movh w) w.c (fun s k ex => s.mapTo k ex w.dst 2 fun i =>
    s.opnd k.team i w.dst 1 + 2 ^ 32 * w.imm.toNat) s

/-! ### Special registers (R24, R25, R120) -/

/-- What a special register reads as for a thread. -/
def State.special (s : State) (t i idx : Nat) : Nat :=
  let m := s.team t
  let x := s.thread t i
  let w := s.warp t (m.warpOf i)
  match idx with
  | 0x00 => m.lcid
  | 0x01 => m.part
  | 0x02 => m.warpOf i
  | 0x03 => m.x
  | 0x04 => m.y
  | 0x05 => m.z
  | 0x06 => m.ntid
  | 0x07 => if m.node.isSome then 0 else m.span * 4096 + m.rank
  | 0x08 => m.width
  | 0x10 => w.regs.gang.toNat
  | 0x11 => w.regs.vcnt.toNat
  | 0x12 => w.regs.mprog.toNat
  | 0x18 => w.regs.comm.toNat
  | 0x19 => w.regs.crank.toNat
  | 0x1A => w.cseq.toNat
  | 0x1B => w.regs.cbabort.toNat
  | 0x1C => w.cbstat.toNat
  | 0x20 => m.nrec.toNat
  | 0x21 => m.recbase.toNat
  | 0x22 => x.recIdx.toNat
  | 0x23 => (s.ctxOf t).spwbase + m.rank * 0x80000
  | 0x28 => x.batch.toNat
  | 0x29 => s.clk
  | 0x2A => w.wtime.toNat
  | _ => 0

/-- The products of a gang that are accepted and neither finished nor stopped. -/
def State.products (s : State) (c p : Nat) (g : Gang) : List SeqCmd :=
  (s.seqOf c p).filter fun q => q.gang == g && (match q.op with | .product _ => true | _ => false)
/-- Run a gang's accepted products until none is left or one cannot go on (R142). -/
def State.drainGang (s : State) (c p : Nat) (g : Gang) : Nat → State × Drain
  | 0 => (s, .engine)
  | n + 1 =>
    match s.products c p g with
    | [] => (s, .clear)
    | q :: _ => match s.drainSeq c p q.gang (some (q.id + 1)) q.bank q.count (s.drainFuel c p) with
      | (s, .clear) => s.drainGang c p g n
      | r => r
/-- Run the products of the gangs of some home warps. -/
def State.drainGangs (s : State) (t : Nat) : List Nat → State × Drain
  | [] => (s, .clear)
  | w :: r =>
    let m := s.team t
    let g := s.gangOf t w
    match s.drainGang m.core m.part g ((s.products m.core m.part g).length + 1) with
    | (s, .clear) => s.drainGangs t r
    | x => x

/-- RDS. A read of MPROG waits until the gang's products have finished or stopped (R142). -/
def execRds (w : FA) (s : State) : Host.Outcome State Fault Refusal :=
  word (.rds w) w.c goOn (fun s k ex =>
    let idx := w.sc.toNat
    let (s, d) := if idx = 0x12 then s.drainGangs k.team (s.warpsOf k.team ex) else (s, .clear)
    match d with
    | .clear => .ok (s.mapTo k ex w.dst (tyRegs w.ty) fun i => s.special k.team i idx % 2 ^ (32 * tyRegs w.ty))
    | .pages ks => s.awaitPages k ks
    | .poison l => .left (s.consume k.core l)
    | _ => .stall s) s

/-- Write a writable special register of a home warp; reserved bits keep zero (R7, R25). DESIGN CHOICE, log entry 57: under
b64 a 32-bit register takes bits 31:0. -/
def WarpRegs.put (r : WarpRegs) (idx v : Nat) : WarpRegs :=
  let x := BitVec.ofNat 32 v
  match idx with
  | 0x10 => { r with gang := x &&& 0xFFF0FFFF }
  | 0x11 => { r with vcnt := x &&& 0xFFFF }
  | 0x12 => { r with mprog := x &&& 0x3F }
  | 0x18 => { r with comm := x &&& 0xFFFF }
  | 0x19 => { r with crank := x &&& 0xFFFFF }
  | 0x1B => { r with cbabort := BitVec.ofNat 64 v }
  | _ => r
/-- WRS, once for each home warp that has an executing thread. -/
def execWrs (w : FA) (s : State) : Host.Outcome State Fault Refusal :=
  simple (.wrs w) w.c (fun s k ex => (s.warpsOf k.team ex).foldl (fun (s : State) (v : Nat) =>
    let i := (s.ofWarp k.team v ex).headD 0
    let x := s.opnd k.team i w.sa (tyRegs w.ty)
    s.modWarp k.team v fun y => { y with regs := y.regs.put w.sc.toNat x }) s) s

/-! ### Predicates (R121, R122) -/

/-- PLOP: bit 4·pa + 2·pb + pc of the table in SC. -/
def execPlop (w : FA) (s : State) : Host.Outcome State Fault Refusal :=
  simple (.plop w) w.c (fun s k ex => ex.foldl (fun (s : State) (i : Nat) =>
    let x := s.thread k.team i
    let n := 4 * (x.pred (w.sa.extractLsb' 0 3)).toNat + 2 * (x.pred (w.sb.extractLsb' 0 3)).toNat +
      (x.pred (w.ctl.extractLsb' 0 3)).toNat
    s.putPred k.team i (w.dst.extractLsb' 0 3) (w.sc.getLsbD n)) s) s
/-- pmov.get: pk × 2^k, p7 reading true. -/
def execPmovGet (w : FA) (s : State) : Host.Outcome State Fault Refusal :=
  simple (.pmovGet w) w.c (fun s k ex => s.mapTo k ex w.dst 1 fun i => 128 + (s.thread k.team i).p.toNat) s
/-- pmov.set: the predicates that the mask names. -/
def execPmovSet (w : FA) (s : State) : Host.Outcome State Fault Refusal :=
  simple (.pmovSet w) w.c (fun s k ex => ex.foldl (fun (s : State) (i : Nat) =>
    let a := BitVec.ofNat 7 (s.opnd k.team i w.sa 1)
    let m := w.sc.extractLsb' 0 7
    s.modThread k.team i fun x => { x with p := (x.p &&& ~~~ m) ||| (a &&& m) }) s) s

end Sys2Proof.Machine
end

