-- ==== Sys2Proof/Machine/MemoryOps.lean ====
section
/-! DEFINITION. Loads, stores, atomics, fences, prefetch, page requests, ICFENCE, tensor accesses and SWINIT (R177 to
R191). -/

namespace Sys2Proof.Machine

open Sys2Proof

/-! ### Addresses (R173) -/

/-- The EA of the global form. -/
def State.ea (s : State) (w : FM) (t i : Nat) : Int := (s.opnd t i w.sa 2 : Int) + sext w.off.toNat 12
/-- The EA of an atomic, whose offset has 8 bits (R177). -/
def State.ea8 (s : State) (w : FM) (t i : Nat) : Int := (s.opnd t i w.sa 2 : Int) + sext w.off8.toNat 8
/-- The offset of the scratchpad form. -/
def State.padOff (s : State) (w : FM) (t i : Nat) : Int := (s.opnd t i w.sa 1 : Int) + sext w.off.toNat 12
/-- TYPE of a typed access. -/
def typeOf (w : FM) : Option (BitVec 4) := if w.wid = 5 then some w.mty else none

/-- Probe the global accesses of LD, ST, LDNR, LDA and STL. -/
def State.probeGlobal (s : State) (k : Iss) (w : FM) (ex : List Nat) (a : Touch) :
    State × List (Nat × Except Probe Access) :=
  let t := k.team
  probeEach (fun (s : State) (i : Nat) =>
    if w.wid = 5 then
      let v := s.opnd t i w.dst (memRegs w)
      s.accessTyped t i (s.ea w t i) w.mty a (fun f => makesNar w.mty v f) (typeOk w.mty)
    else s.access t i (s.ea w t i) (widBytes w.wid) (widBytes w.wid) a) s ex

/-! ### LD, ST, LDNR, LDA, STL (R178 to R180) -/

def execLd (w : FM) (s : State) : Host.Outcome State Fault Refusal :=
  word (.ld w) w.c goOn (fun s k ex =>
    let (s, ps) := s.probeGlobal k w ex {}
    s.onProbes k ex ps false fun s as =>
      s.loadLanes k w.c w.dst (memRegs w) (w.ctl.getLsbD 0) (typeOf w) as [] (fun _ => none) false) s

/-- The scale bytes of accesses. -/
def scalesOf (as : List (Nat × Access)) : List (Loc × Nat) := as.filterMap fun e => e.2.scale.map fun m => (m, 1)

def execSt (w : FM) (s : State) : Host.Outcome State Fault Refusal :=
  word (.st w) w.c goOn (fun s k ex =>
    let t := k.team
    let (s, ps) := s.probeGlobal k w ex { write := true }
    s.onProbes k ex ps true fun s as =>
      if w.wid = 5 then
        let scales := scalesOf as
        s.onPoison k (s.consumes k.core) scales (
          let s := scales.foldl (fun (s : State) (m : Loc × Nat) => s.fillLoc k.core m.1 1) s
          .ok (s.typedStores k w.dst (memRegs w) w.mty as))
      else s.storeLanes k (as.map fun e => (e.1, e.2, [(e.2.loc, leBytes e.2.size (s.opnd t e.1 w.dst (memRegs w)))]))) s

/-- Lanes whose page is absent. -/
def absentLanes (ps : List (Nat × Except Probe Access)) : List Nat := ps.filterMap fun e =>
  match e.2 with | .error (.page ks) => if ks.any PageKey.far then none else some e.1 | _ => none
/-- LDNR: a lane whose page is absent receives zero and true. A page due to migrate is there (R180). -/
def execLdnr (w : FM) (s : State) : Host.Outcome State Fault Refusal :=
  word (.ldnr w) w.c goOn (fun s k ex =>
    let (s, ps) := s.probeGlobal k w ex { stay := true }
    let out := absentLanes ps
    let ps := ps.filter fun (e : Nat × Except Probe Access) => !out.contains e.1
    s.onProbes k ex ps false fun s as =>
      s.loadLanes k w.c w.dst (memRegs w) (w.ctl.getLsbD 0) (typeOf w) as out
        (fun i => some (w.pd, out.contains i)) false) s

/-- LDA: an acquire once its read has returned. -/
def execLda (w : FM) (s : State) : Host.Outcome State Fault Refusal :=
  word (.lda w) w.c (fun s k => .ok (s.acquire k.core)) (fun s k ex =>
    let (s, ps) := s.probeGlobal k w ex {}
    s.onProbes k ex ps false fun s as => s.syncing k.team ex fun s =>
      s.loadLanes k w.c w.dst (memRegs w) (w.ctl.getLsbD 0) none as [] (fun _ => none) true) s

/-- A store at the coherence point, after everything before it: of a peer page, the request that a later release, and the
thread's next synchronising operation, waits for (R165). -/
def State.storeHome (s : State) (k : Iss) (i : Nat) (l : Loc) (bytes : List Byte) : State :=
  (s.writeLoc { team := k.team, tidx := i, sync := true } l bytes false).dropSector k.core l

/-- STL: a release, then its store. -/
def execStl (w : FM) (s : State) : Host.Outcome State Fault Refusal :=
  word (.stl w) w.c goOn (fun s k ex =>
    let t := k.team
    let (s, ps) := s.probeGlobal k w ex { write := true }
    s.onProbes k ex ps true fun s as =>
      s.releasing t ex fun s => .ok (as.foldl (fun (s : State) (e : Nat × Access) =>
        s.storeHome k e.1 e.2.loc (leBytes e.2.size (s.opnd t e.1 w.dst (memRegs w)))) s)) s

/-! ### LDS and STS -/

/-- Probe scratchpad accesses. -/
def State.probePads (s : State) (k : Iss) (ex : List Nat) (off : Nat → Int) (size : Nat) :
    List (Nat × Except Probe Access) :=
  ex.map fun i => (i, s.accessPad k.team (off i) size)

def execLds (w : FM) (s : State) : Host.Outcome State Fault Refusal :=
  word (.lds w) w.c goOn (fun s k ex =>
    let ps := s.probePads k ex (fun i => s.padOff w k.team i) (widBytes w.wid)
    s.onProbes k ex ps false fun s as =>
      s.loadLanes k w.c w.dst (widRegs w.wid) (w.ctl.getLsbD 0) none as [] (fun _ => none) false) s
def execSts (w : FM) (s : State) : Host.Outcome State Fault Refusal :=
  word (.sts w) w.c goOn (fun s k ex =>
    let t := k.team
    let ps := s.probePads k ex (fun i => s.padOff w t i) (widBytes w.wid)
    s.onProbes k ex ps true fun s as => s.storeLanes k
      (as.map fun e => (e.1, e.2, [(e.2.loc, leBytes e.2.size (s.opnd t e.1 w.dst (widRegs w.wid)))]))) s

/-! ### QST (R181) -/

/-- The element or elements that an access names in its block, each with its value. -/
def qstElems (fmt : Nat) (ty : BitVec 4) (k v : Nat) : List (Nat × FVal) :=
  let f := fmOf ty
  if fmt = 1 then [(k, f.read false (v % 2 ^ f.width))]
  else [(2 * k, f.read false (q4Values ty v).1), (2 * k + 1, f.read false (q4Values ty v).2)]
/-- The bytes of a block's mantissas. -/
def qstBytes (fmt : Nat) (ms : List Int) : List Byte :=
  if fmt = 1 then ms.map fun m => BitVec.ofInt 8 m
  else (List.range (ms.length / 2)).map fun j =>
    BitVec.ofNat 8 (ibits (ms.getD (2 * j) 0) 4 + 16 * ibits (ms.getD (2 * j + 1) 0) 4)

/-- A store that several threads share: it is registered at once, and a release of any of them waits for a peer's
answer. -/
def State.storeShared (s : State) (t : Nat) (is : List Nat) (l : Loc) (bytes : List Byte) : State :=
  let s := s.storeLoc t (is.headD 0) l bytes
  match l with
  | .mem pa => s.settleBytes pa bytes.length
  | .peer _ => match s.peers.getLast? with
    | some r => { s with peers := s.peers ++ (is.drop 1).map fun i => { r with tidx := i } }
    | none => s
  | _ => s

/-- Write one block of a home warp from the lanes that name it. -/
def State.qstBlock (s : State) (t : Nat) (ty : BitVec 4) (ls : List (Nat × Nat × Access × Nat)) (base : Nat) : State :=
  match ls with
  | [] => s
  | (_, _, a, _) :: _ =>
    match a.page, a.scale with
    | some x, some m =>
      let b := 32 * 2 ^ x.geom
      let n := if x.fmt = 1 then b else 2 * b
      let put := ls.flatMap fun l => qstElems x.fmt ty (l.2.1 - base) l.2.2.2
      let xs := (List.range n).map fun e => put.foldl (fun (r : FVal) p => if p.1 = e then p.2 else r) (.fin false 0 0)
      let (sc, ms) := quantBlock (if x.fmt = 1 then 127 else 7) xs
      let is := ls.map Prod.fst
      (s.storeShared t is (s.locOf x base) (qstBytes x.fmt ms)).storeShared t is m [BitVec.ofInt 8 sc]
    | _, _ => s

/-- Probe the accesses of QST: their pages must be Q8 or Q4, which a span window is not, also of a team that is not there
(R174, R181). -/
def State.probeQst (s : State) (k : Iss) (w : FM) (ex : List Nat) : State × List (Nat × Except Probe Access) :=
  let t := k.team
  probeEach (fun (s : State) (i : Nat) =>
    match s.accessTyped t i (s.ea w t i) w.mty { write := true } (fun _ => true) (fun x => x.fmt == 1 || x.fmt == 2) with
    | (s, .ok a) => (s, if a.page.isSome then .ok a
        else .error (.fault fPagefmt (s.ea w t i).toNat false))
    | (s, .error (.remote _)) => (s, .error (.fault fPagefmt (s.ea w t i).toNat false))
    | r => r) s ex
/-- Write every block that the lanes of a home warp name, home warps increasing. -/
def State.qstDone (s : State) (k : Iss) (w : FM) (ex : List Nat) (as : List (Nat × Access)) : State :=
  let t := k.team
  let named := as.map fun (e : Nat × Access) =>
    let va := (s.ea w t e.1).toNat
    (e.1, va, e.2, s.opnd t e.1 w.dst (memRegs w))
  let block := fun (l : Nat × Nat × Access × Nat) => match l.2.2.1.page with
    | some x => l.2.1 / (32 * 2 ^ x.geom) * (32 * 2 ^ x.geom)
    | none => l.2.1
  (s.warpsOf t ex).foldl (fun (s : State) (v : Nat) =>
    let here := named.filter fun l => (s.team t).warpOf l.1 == v
    ((here.map block).eraseDups).foldl (fun (s : State) (b : Nat) =>
      s.qstBlock t w.mty (here.filter fun l => block l == b) b) s) s

def execQst (w : FM) (s : State) : Host.Outcome State Fault Refusal :=
  word (.qst w) w.c goOn (fun s k ex =>
    let (s, ps) := s.probeQst k w ex
    s.onProbes k ex ps true fun s as => .ok (s.qstDone k w ex as)) s

/-! ### Atomics (R182, R183) -/

/-- Probe the atomics of an issue. -/
def State.probeAtoms (s : State) (k : Iss) (w : FM) (ex : List Nat) : State × List (Nat × Except Probe Access) :=
  probeEach (fun (s : State) (i : Nat) =>
    s.access k.team i (s.ea8 w k.team i) (widBytes w.wid) (widBytes w.wid) { write := true, line := true }) s ex
/-- The places and operands of atomics. -/
def State.atomArgs (s : State) (k : Iss) (w : FM) (as : List (Nat × Access)) : List (Nat × Loc × Nat) :=
  as.map fun e => (e.1, e.2.loc, s.opnd k.team e.1 w.sb (atomRegs w))

/-- ATOM: under `.rel` it waits before it is applied; under `.acq` it acquires after its value returns. -/
def execAtom (w : FM) (s : State) : Host.Outcome State Fault Refusal :=
  word (.atom w) w.c (fun s k => .ok (if w.ctl.getLsbD 0 then s.acquire k.core else s)) (fun s k ex =>
    let (s, ps) := s.probeAtoms k w ex
    s.onProbes k ex ps true fun s as =>
      let go := fun (s : State) =>
        s.atomLanes k w.c w.dst w.wid w.aop.toNat (s.atomArgs k w as) (w.ctl.getLsbD 0)
      if w.ctl.getLsbD 1 then s.releasing k.team ex go
      else if w.ctl.getLsbD 0 then s.syncing k.team ex go
      else go s) s
/-- RED returns nothing and does not wait: each lane's goes to its home by itself (R182). -/
def execRed (w : FM) (s : State) : Host.Outcome State Fault Refusal :=
  word (.red w) w.c goOn (fun s k ex =>
    let (s, ps) := s.probeAtoms k w ex
    s.onProbes k ex ps true fun s as =>
      let ls := s.atomArgs k w as
      s.onPoison k (s.takesPoison k.core) (ls.map fun e => (e.2.1, widBytes w.wid))
        (.ok (ls.foldl (fun (s : State) e => s.redLane k.team (widBytes w.wid) w.aop.toNat e) s))) s
def execAtoms (w : FM) (s : State) : Host.Outcome State Fault Refusal :=
  word (.atoms w) w.c goOn (fun s k ex =>
    let t := k.team
    let off := fun (i : Nat) => (s.opnd t i w.sa 1 : Int) + sext w.off8.toNat 8
    let ps := s.probePads k ex off (widBytes w.wid)
    s.onProbes k ex ps true fun s as =>
      s.atomLanes k w.c w.dst w.wid w.aop.toNat (s.atomArgs k w as) false) s

/-! ### Fences, prefetch, page requests and code (R184 to R187) -/

/-- fence.acq: the thread's earlier loads become acquires. -/
def execFenceAcq (w : FM) (s : State) : Host.Outcome State Fault Refusal :=
  word (.fenceAcq w) w.c goOn (fun s k ex => s.syncing k.team ex fun s =>
    .ok (if ex.isEmpty then s else s.acquire k.core)) s
/-- fence.rel: the thread's later stores become releases, so earlier stores are acknowledged first. -/
def execFenceRel (w : FM) (s : State) : Host.Outcome State Fault Refusal :=
  word (.fenceRel w) w.c goOn (fun s k ex => s.releasing k.team ex fun s => .ok s) s
/-- fence.full: both, the acknowledgements first. -/
def execFenceFull (w : FM) (s : State) : Host.Outcome State Fault Refusal :=
  word (.fenceFull w) w.c goOn (fun s k ex => s.releasing k.team ex fun s =>
    .ok (if ex.isEmpty then s else s.acquire k.core)) s

/-- PREF: the sector of each lane whose access would pass every check enters L1; L2 is not modelled as a copy. One with poison
stays out, so that what reads it later finds it (R314). DESIGN CHOICE, log entry 57. -/
def execPref (w : FM) (s : State) : Host.Outcome State Fault Refusal :=
  simple (.pref w) w.c (fun s k ex => ex.foldl (fun (s : State) (i : Nat) =>
    match s.access k.team i (s.ea w k.team i) 1 1 { stay := true } with
    | (s, .ok a) => if w.ctl = 0 ∧ ¬ s.poisoned a.loc 1 then s.fillLoc k.core a.loc.sector 32 else s
    | (s, .error _) => s) s) s

/-- PGREQ: one request for each absent page; with WT the threads whose page is absent wait for it (R186). A page due to migrate
is there. -/
def execPgreq (w : FM) (s : State) : Host.Outcome State Fault Refusal :=
  word (.pgreq w) w.c goOn (fun s k ex =>
    let (s, ps) := probeEach (fun (s : State) (i : Nat) => s.access k.team i (s.ea w k.team i) 1 1 { stay := true }) s ex
    match faultReps ps with
    | _ :: _ => s.trapAt k ex (faultReps ps)
    | [] => s.awaitFar k ps fun s =>
      let s := s.requests k.team (missingPages ps) false
      if w.ctl.getLsbD 0 then
        .ok (ps.foldl (fun (s : State) (e : Nat × Except Probe Access) => match e.2 with
          | .error (.page ks) => s.block k.team e.1 (.page ks)
          | _ => s) s)
      else .ok s) s

/-- ICFENCE: the core's instruction cache holds nothing; the words of the current clause stay as fetched. -/
def execIcfence (w : FN) (s : State) : Host.Outcome State Fault Refusal :=
  simple (.icfence w) w.c (fun s k ex =>
    if ex.isEmpty then s else s.icDrop k.core) s

/-! ### Tensor addressing (R188 to R190) -/

/-- Fields of a shape record. -/
def shpBase (h : BitVec 1024) : Nat := (h.extractLsb' 0 64).toNat
def shpClip (h : BitVec 1024) : Nat := (h.extractLsb' 72 2).toNat
def shpEsz (h : BitVec 1024) : Nat := (h.extractLsb' 70 2).toNat
def shpRank (h : BitVec 1024) : Nat := (h.extractLsb' 64 3).toNat
def shpDim (h : BitVec 1024) (k : Nat) : Nat := (h.extractLsb' (128 + 32 * k) 32).toNat
def shpStride (h : BitVec 1024) (k : Nat) : Int := (h.extractLsb' (384 + 64 * k) 64).toInt
/-- Whether a record keeps the rules of R188. -/
def shapeOk (h : BitVec 1024) : Bool :=
  let r := shpRank h
  decide (shpClip h ≤ 1) && decide (1 ≤ r) && (h.extractLsb' 74 54 == 0) && (h.extractLsb' 67 3 == 0) &&
  (h.extractLsb' 352 32 == 0) && (h.extractLsb' 832 192 == 0) &&
  (List.range 7).all fun k =>
    (decide (k < r) || (shpDim h k == 0 && shpStride h k == 0)) && decide (shpStride h k % (2 ^ shpEsz h : Int) = 0)
/-- Whether coordinates lie inside the dimensions. -/
def inBounds (h : BitVec 1024) (cs : List Int) : Bool :=
  (cs.zipIdx).all fun c => decide (0 ≤ c.1) && decide (c.1 < shpDim h c.2)
/-- The exact address of an element. -/
def elemAddr (h : BitVec 1024) (cs : List Int) : Int :=
  (cs.zipIdx).foldl (fun (a : Int) c => a + c.1 * shpStride h c.2) (shpBase h)

/-- Ask peers for the shape records of home warps. Every active thread of the issue stands at BP-REMOTE until all have returned,
and the records that need none are kept until then (R189, R335). -/
def State.askShapes (s : State) (k : Iss) (ex : List Nat) (far : List (Nat × Nat)) (near : List (Nat × BitVec 1024)) : State :=
  let t := k.team
  let (key, s) := s.fresh
  let how : LoadHow := { len := 128, sx := false, ty := none, fmt := 0, upper := 0 }
  let s := k.threads.foldl (fun (s : State) (i : Nat) => s.block t i (.remoteData key)) s
  let s := near.foldl (fun (s : State) (r : Nat × BitVec 1024) =>
    let (tag, s) := s.fresh
    let is := s.ofWarp t r.1 ex
    let r : PeerReq := { tag, pa := 0, team := t, tidx := is.headD 0, key, how, scale := 0, waits := true, sync := false, cmd := 0,
                         role := .shape r.1 is (some r.2) }
    { s with peers := s.peers ++ [r] }) s
  far.foldl (fun (s : State) (f : Nat × Nat) =>
    let is := s.ofWarp t f.1 ex
    s.askPeer t (is.headD 0) key how 0 f.2 (.load f.2 128) (.shape f.1 is none)) s
/-- SHAPE, once for each home warp; its lead thread makes the access. -/
def execShape (w : FM) (s : State) : Host.Outcome State Fault Refusal :=
  word (.shape w) w.c goOn (fun s k ex =>
    let t := k.team
    let ws := s.warpsOf t ex
    let lead := fun (v : Nat) => (s.ofWarp t v ex).headD 0
    let (s, ps) := probeEach (fun (s : State) (v : Nat) => s.access t (lead v) (s.ea w t (lead v)) 128 128 {}) s ws
    let all := ps.flatMap fun (e : Nat × Except Probe Access) => (s.ofWarp t e.1 ex).map fun i => (i, e.2)
    s.onProbes k ex all false fun s _ =>
      let far := (passed ps).filterMap fun (e : Nat × Access) => match e.2.loc with | .peer pa => some (e.1, pa) | _ => none
      let as := (passed ps).filter fun (e : Nat × Access) => !far.any fun f => f.1 == e.1
      s.onPoison k (s.consumes k.core) (places as) (
        let s := as.foldl (fun (s : State) (e : Nat × Access) => s.fillLoc k.core e.2.loc 128) s
        let recs := as.map fun (e : Nat × Access) =>
          let h := BitVec.ofNat 1024 (leValue (s.laneBytes t (lead e.1) e.2.loc 128))
          (e.1, h)
        let s := s.spinReads k ((as.zip recs).map fun e => (e.1.2.loc, 128, e.2.2.toNat))
        match recs.filter fun r => !shapeOk r.2 with
        | [] => .ok (if far.isEmpty then recs.foldl (fun (s : State) (r : Nat × BitVec 1024) =>
            s.modWarp t r.1 fun x => { x with regs := { x.regs with shape := r.2 } }) s
          else s.askShapes k ex far recs)
        | bad => s.trapAt k ex ((ex.filter fun i => bad.any fun r => r.1 == (s.team t).warpOf i).map fun i =>
            (i, { code := fShapefmt })))) s

/-- The shape record of a thread's home warp. -/
def State.shapeOf (s : State) (t i : Nat) : BitVec 1024 := (s.warp t ((s.team t).warpOf i)).regs.shape
/-- The coordinates of LDT and STT. -/
def State.coords (s : State) (w : FM) (t i : Nat) : List Int :=
  match opndOf w.sa with
  | .v n => (List.range (shpRank (s.shapeOf t i))).map fun k => sext ((s.thread t i).v.getD (n + k) 0).toNat 32
  | _ => []
/-- Probe the elements of LDT and STT; a lane out of bounds makes no access. -/
def State.probeTensor (s : State) (k : Iss) (w : FM) (ex : List Nat) (a : Touch) :
    State × List (Nat × Except Probe (Option Access)) :=
  let t := k.team
  probeEach (fun (s : State) (i : Nat) =>
    let h := s.shapeOf t i
    let cs := s.coords w t i
    if shpEsz h ≠ w.wid.toNat then (s, .error (.fault fShapefmt 0 false))
    else if inBounds h cs then
      match s.access t i (elemAddr h cs) (widBytes w.wid) (widBytes w.wid) a with
      | (s, .ok a) => (s, .ok (some a))
      | (s, .error p) => (s, .error p)
    else if shpClip h = 1 then (s, .error (.fault fTclip 0 false))
    else (s, .ok none)) s ex
/-- The lanes that make an access. -/
def accessing (as : List (Nat × Option Access)) : List (Nat × Access) := as.filterMap fun e => e.2.map fun a => (e.1, a)
/-- The lanes that are out of bounds. -/
def clipped (as : List (Nat × Option Access)) : List Nat := as.filterMap fun e => if e.2.isNone then some e.1 else none

def execLdt (w : FM) (s : State) : Host.Outcome State Fault Refusal :=
  word (.ldt w) w.c goOn (fun s k ex =>
    let (s, ps) := s.probeTensor k w ex {}
    s.onProbes k ex ps false fun s as =>
      s.loadLanes k w.c w.dst (widRegs w.wid) false none (accessing as) (clipped as) (fun _ => none) false) s
def execStt (w : FM) (s : State) : Host.Outcome State Fault Refusal :=
  word (.stt w) w.c goOn (fun s k ex =>
    let t := k.team
    let (s, ps) := s.probeTensor k w ex { write := true }
    s.onProbes k ex ps true fun s as => s.storeLanes k ((accessing as).map fun e =>
      (e.1, e.2, [(e.2.loc, leBytes e.2.size (s.opnd t e.1 w.dst (widRegs w.wid)))]))) s

/-! ### SWINIT (R191) -/

/-- Set a sync word: TARGET, COUNT 0, W3 0; GEN stays. -/
def State.swSet (s : State) (t off target : Nat) : State :=
  (s.padPut t off (leBytes 4 target ++ leBytes 4 0)).padPut t (off + 12) (leBytes 4 0)
def execSwinit (w : FM) (s : State) : Host.Outcome State Fault Refusal :=
  word (.swinit w) w.c goOn (fun s k ex =>
    let t := k.team
    let ps := s.probePads k ex (fun i => s.padOff w t i) 16
    s.onProbes k ex ps true fun s as => .ok (as.foldl (fun (s : State) (e : Nat × Access) =>
      match e.2.loc with
      | .pad u off => s.swSet u off (s.opnd t e.1 w.dst 1)
      | _ => s) s)) s

end Sys2Proof.Machine
end

