-- ==== Sys2Proof/Machine/Control.lean ====
section
/-! DEFINITION. Indirect transfers, meeting, barriers, watches, YIELD and SLEEP, guards, software traps and breakpoints
(R231 to R240, R246, R54), and the waits for batches and sync words (R192, R193, R160). -/

namespace Sys2Proof.Machine

open Sys2Proof

/-! ### Indirect transfers and meeting (R232, R233) -/

/-- The targets of JMPI and CALLI. -/
def State.targets (s : State) (w : FA) (k : Iss) (ex : List Nat) : List (Nat × DWord) :=
  ex.map fun i => (i, BitVec.ofNat 64 (s.opnd k.team i w.sa 2))
def execJmpi (w : FA) (s : State) : Host.Outcome State Fault Refusal :=
  word (.jmpi w) w.c goOn (fun s k ex => .done s { targets := s.targets w k ex }) s
def execCalli (w : FA) (s : State) : Host.Outcome State Fault Refusal :=
  word (.calli w) w.c goOn (fun s k ex => .done s { targets := s.targets w k ex, link := true }) s

/-- Set MEET and MTAG of executing threads. A thread that an earlier meeting has left behind belongs to its new meeting set
(R209, R210). -/
def State.setMeet (s : State) (k : Iss) (ex : List Nat) (tag : Nat) (f : Nat → DWord) : State :=
  ex.foldl (fun (s : State) (i : Nat) =>
    let v := f i
    s.modThread k.team i fun x => { x with meet := v, mtag := BitVec.ofNat 16 tag, alone := false }) s
/-- The 24-bit offset of the relative form. -/
def meetOff (w : FA) : BitVec 24 := (w.sa ++ w.sb ++ w.sc).cast (by decide)
def execMeetset (w : FA) (s : State) : Host.Outcome State Fault Refusal :=
  simple (.meetset w) w.c (fun s k ex =>
    s.setMeet k ex k.num fun _ => k.clause.addr + 8 * (meetOff w).signExtend 64) s
def execMeetsetR (w : FA) (s : State) : Host.Outcome State Fault Refusal :=
  simple (.meetsetR w) w.c (fun s k ex =>
    s.setMeet k ex k.num fun i => BitVec.ofNat 64 (s.opnd k.team i w.sa 2)) s
def execMeetsetClr (w : FA) (s : State) : Host.Outcome State Fault Refusal :=
  simple (.meetsetClr w) w.c (fun s k ex => s.setMeet k ex 0 fun _ => 1) s

/-! ### Barriers (R234, R235) -/

/-- The record's number. -/
def barId (w : FA) : Nat := (w.sc.extractLsb' 0 4).toNat

/-- GEN of a team's or a span's record. -/
def State.barGen (s : State) (span : Bool) (t id : Nat) : Word :=
  (if span then s.spanBar t id else (s.team t).bars.getD id default).gen
/-- One thread arrives, in the record's present generation. -/
def State.arrive (s : State) (span : Bool) (t id i : Nat) : State :=
  let key := if span then 16 + id else id
  let g := s.barGen span t id
  let s := s.modThread t i fun x => { x with came := x.came.filter (fun e => e.1 != key) ++ [(key, g)] }
  if span then s.spanArrive t id else s.barMod t id fun b => { b with arrived := b.arrived + 1 }
/-- One thread waits on a generation. A home warp that does not wait on the record yet comes first on its chain (R216). -/
def State.barBlock (s : State) (span : Bool) (t id i : Nat) (g : Word) : State :=
  let w := (s.team t).warpOf i
  let wait : Wait := if span then .span id g else .bar id g
  let area := BitVec.ofNat 64 ((s.team t).warpArea w)
  let head := (if span then s.spanBar t id else (s.team t).bars.getD id default).waiters
  let note := fun (b : BarRec) => { b with waiting := true, waiters := area }
  let s :=
    if ((s.team t).members w).any fun j => (s.thread t j).wait == wait then s
    else
      let s := s.modWarp t w fun x => { x with next := mset 0 x.next (if span then 16 + id else id) head }
      if span then s.spanMod t id note else s.barMod t id note
  s.block t i wait
/-- The arrivals of an issue, each one step: the generation of each. -/
def State.arriveAll (s : State) (span : Bool) (t id : Nat) : List Nat → State × List (Nat × Word)
  | [] => (s, [])
  | i :: r =>
    let g := s.barGen span t id
    let (s, gs) := (s.arrive span t id i).arriveAll span t id r
    (s, (i, g) :: gs)
/-- The waits of an issue; those that pass acquire. -/
def State.barWaits (s : State) (span : Bool) (k : Iss) (id : Nat) (gs : List (Nat × Word)) : State :=
  let t := k.team
  let g0 := s.barGen span t id
  let s := if gs.any fun e => e.2 != g0 then s.acquire k.core else s
  gs.foldl (fun (s : State) (e : Nat × Word) => if e.2 = g0 then s.barBlock span t id e.1 e.2 else s) s

/-- The arrive form: a release. -/
def barArrive (i : Instr) (w : FA) (span : Bool) (s : State) : Host.Outcome State Fault Refusal :=
  word i w.c goOn (fun s k ex => s.releasing k.team ex fun s =>
    let (s, gs) := s.arriveAll span k.team (barId w) ex
    .ok (s.putAll k.team w.dst 1 (gs.map fun e => (e.1, e.2.toNat)))) s
/-- The wait form: an acquire. -/
def barWait (i : Instr) (w : FA) (span : Bool) (s : State) : Host.Outcome State Fault Refusal :=
  word i w.c (fun s k => .ok (s.acquire k.core)) (fun s k ex => s.syncing k.team ex fun s =>
    .ok (s.barWaits span k (barId w) (ex.map fun j => (j, BitVec.ofNat 32 (s.opnd k.team j w.sa 1))))) s
/-- The sync form: every arrival, then the waits. -/
def barSync (i : Instr) (w : FA) (span : Bool) (s : State) : Host.Outcome State Fault Refusal :=
  word i w.c (fun s k => .ok (s.acquire k.core)) (fun s k ex => s.releasing k.team ex fun s =>
    let (s, gs) := s.arriveAll span k.team (barId w) ex
    .ok (s.barWaits span k (barId w) gs)) s

def execBarArrive (w : FA) (s : State) : Host.Outcome State Fault Refusal := barArrive (.barArrive w) w false s
def execBarWait (w : FA) (s : State) : Host.Outcome State Fault Refusal := barWait (.barWait w) w false s
def execBarSync (w : FA) (s : State) : Host.Outcome State Fault Refusal := barSync (.barSync w) w false s
def execSbarArrive (w : FA) (s : State) : Host.Outcome State Fault Refusal := barArrive (.sbarArrive w) w true s
def execSbarWait (w : FA) (s : State) : Host.Outcome State Fault Refusal := barWait (.sbarWait w) w true s
def execSbarSync (w : FA) (s : State) : Host.Outcome State Fault Refusal := barSync (.sbarSync w) w true s

/-! ### Watches (R237, R238) -/

/-- Checks 1 to 6 of R173 on a global address. -/
def State.probe16 (s : State) (t i : Nat) (ea : Int) (size align : Nat) : State × Probe :=
  let priv := s.privileged t i
  if ea < 0 ∨ (2 ^ 64 : Int) ≤ ea then (s, .fault fAddrwrap (ibits ea 64) false)
  else match checks14 priv ea.toNat size align with
    | some (c, a) => (s, .fault c a false)
    | none => match s.check5 t ea.toNat size with
      | some p => (s, p)
      | none =>
        let m := s.team t
        let refused := fun (x : Tlb) => x.p && !priv
        match s.translate m.core m.ctx ea.toNat { stay := true } with
        | (s, .nomap s2) => (s, .fault fNomap ea.toNat s2)
        | (s, .absent key leaf) => (s, if leaf.any refused then .fault fPriv ea.toNat (leaf.any fun x => !x.p1) else .page [key])
        | (s, .page x) =>
          if refused x then (s, .fault fPriv ea.toNat (!x.p1))
          else match s.hostOk x {} with
            | (s, false) => (s, .fault fNomap ea.toNat false)
            | (s, true) => (s, .ok (s.locOf x ea.toNat) (some x))

/-- The sector that a WATCH names, or its fault. What is not there is named by its address: the watch is then of what that
address comes to name (R237). -/
def State.watchSector (s : State) (w : FM) (t i : Nat) : State × Except Probe Loc :=
  let ea := s.ea w t i
  match s.probe16 t i ea 1 1 with
  | (s, .ok l _) => (s, .ok l.sector)
  | (s, .page ks) => (s, if ks.any PageKey.far then .error (.page ks) else .ok (Loc.away t ea.toNat).sector)
  | (s, .remote none) => (s, .ok (Loc.away t ea.toNat).sector)
  | (s, .remote (some u)) => (s, .ok (Loc.pad u ((ea.toNat - (s.ctxOf t).spwbase) % 0x80000)).sector)
  | (s, p) => (s, .error p)
/-- The sector that a watch names now: one armed on what was not there names what its address has come to name (R237). -/
def State.watched (s : State) (l : Loc) : Loc :=
  match l with
  | .away t va => (match s.lookPlace t va with | some p => p.sector | none => l)
  | _ => l
/-- Watches with more sectors: one that a watch names already, or another of them, adds none. -/
def State.addWatches (s : State) (old new : List Loc) : List Loc :=
  new.foldl (fun (r : List Loc) l => if r.any fun a => s.watched a == s.watched l then r else r ++ [l]) old
/-- WATCH. The new sectors are not registered yet: they are when the warp's next word issues (R237). -/
def execWatch (w : FM) (s : State) : Host.Outcome State Fault Refusal :=
  word (.watch w) w.c goOn (fun s k ex =>
    let t := k.team
    let (s, ps) := probeEach (fun (s : State) (i : Nat) => s.watchSector w t i) s ex
    match faultReps ps with
    | _ :: _ => s.trapAt k ex (faultReps ps)
    | [] => s.awaitFar k ps fun s =>
      let ls := passed ps
      let ws := s.warpsOf t ex
      let new := fun (v : Nat) => s.addWatches (s.warp t v).watches ((ls.filter fun e => (s.team t).warpOf e.1 == v).map Prod.snd)
      match ws.filter fun v => decide (4 < (new v).length) with
      | [] => .ok (ws.foldl (fun (s : State) (v : Nat) =>
          let l := new v
          let s := s.modWarp t v fun x =>
            { x with watches := l, wake := false, unreg := x.unreg ++ l.filter fun a => !x.watches.contains a }
          l.foldl (fun (s : State) (a : Loc) => s.dropSector k.core (s.watched a)) s) s)
      | over_ => s.trapAt k ex ((ex.filter fun i => over_.contains ((s.team t).warpOf i)).map fun i =>
          (i, { code := fWatchlim }))) s
/-- watch.clr: the set is empty. -/
def execWatchClr (w : FM) (s : State) : Host.Outcome State Fault Refusal :=
  simple (.watchClr w) w.c (fun s k ex => (s.warpsOf k.team ex).foldl (fun (s : State) (v : Nat) =>
    s.modWarp k.team v fun x => { x with watches := [], unreg := [] }) s) s
/-- WAIT. -/
def execWait (w : FN) (s : State) : Host.Outcome State Fault Refusal :=
  word (.wait w) w.c goOn (fun s k ex =>
    .ok ((s.warpsOf k.team ex).foldl (fun (s : State) (v : Nat) =>
      let x := s.warp k.team v
      if x.watches.isEmpty then s
      else if x.wake then s.modWarp k.team v fun x => { x with wake := false }
      else (s.ofWarp k.team v ex).foldl (fun (s : State) (i : Nat) => s.block k.team i .watch) s) s)) s

/-! ### YIELD and SLEEP (R239) -/

/-- YIELD has no architectural effect. -/
def execYield (w : FN) (s : State) : Host.Outcome State Fault Refusal := simple (.yield w) w.c (fun s _ _ => s) s
/-- SLEEP. -/
def execSleep (w : FA) (s : State) : Host.Outcome State Fault Refusal :=
  word (.sleep w) w.c goOn (fun s k ex =>
    .ok (ex.foldl (fun (s : State) (i : Nat) =>
      let n := s.opnd k.team i w.sa 1
      if n = 0 then s else s.block k.team i (.sleep (s.clk + n))) s)) s

/-! ### GRES, TRAP and BRK (R240, R246, R54) -/

/-- GRES: the value is the scalar in SA; ZERO is false. -/
def execGres (w : FA) (s : State) : Host.Outcome State Fault Refusal :=
  simple (.gres w) w.c (fun s k ex => (s.warpsOf k.team ex).foldl (fun (s : State) (v : Nat) =>
    let i := (s.ofWarp k.team v ex).headD 0
    s.resolve k.team v w.sc20.toNat (s.opnd k.team i w.sa 1 != 0)) s) s
/-- TRAP raises SOFT for the executing threads. -/
def execTrap (w : FA) (s : State) : Host.Outcome State Fault Refusal :=
  word (.trap w) w.c goOn (fun s k ex => match ex with
    | [] => .ok s
    | _ => s.trapAt k ex (ex.map fun i => (i, { code := fSoft, value := w.sc.toNat }))) s
/-- BRK traps every active thread before anything else of it is looked at. -/
def execBrk (cls : BitVec 2) (rest : BitVec 56) (s : State) : Host.Outcome State Fault Refusal :=
  simple (.brk cls rest) (Common.ofWord (rest.setWidth 64)) (fun s _ _ => s) s

/-! ### SEAL, WAITB and SWWAIT (R160, R192, R193) -/

/-- SEAL, for each thread; with 15 sealed batches incomplete it waits. -/
def execSeal (w : FA) (s : State) : Host.Outcome State Fault Refusal :=
  word (.seal w) w.c goOn (fun s k ex =>
    let t := k.team
    let full := ex.filter fun i => decide (15 ≤ s.sealedOpen t i)
    let go := ex.filter fun i => !full.contains i
    let s := s.putAll t w.dst 1 (go.map fun i => (i, (s.thread t i).batch.toNat))
    let s := go.foldl (fun (s : State) (i : Nat) => s.modThread t i Thread.seal) s
    .ok (full.foldl (fun (s : State) (i : Nat) => s.block t i .seal) s)) s

/-- The record of a deferred fault (R329). -/
def PendFault.rep (f : PendFault) : Rep :=
  { code := f.code, addr := f.addr, s2 := f.s2, defer := true, src := some f.pc }
/-- Report pending faults at the current word: a report that is raised carries its faults away (R160). -/
def State.reportPending (s : State) (k : Iss) (ex : List Nat) (fs : List (Nat × PendFault)) : Res :=
  let r := s.raiseAt k (k.report ex (fs.map fun e => (e.1, e.2.rep)))
  .left (fs.foldl (fun (r : State) (e : Nat × PendFault) =>
    if (s.thread k.team e.1).level < (r.thread k.team e.1).level then
      r.modThread k.team e.1 fun x => { x with faults := x.faults.filter fun f => f.cmd != e.2.cmd }
    else r) r)
/-- Threads whose wait is over: the others have left the issue. -/
def Iss.without (k : Iss) (is : List Nat) : Iss := { k with threads := k.threads.filter fun i => !is.contains i }

/-- The wait of a WAITB or an SWWAIT has ended: an acquire, and the report of the fault that each thread found (R160, R192). -/
def State.waitOver (s : State) (k : Iss) : Res :=
  let fs := k.threads.filterMap fun i => (s.thread k.team i).due.map fun f => (i, f)
  let s := k.threads.foldl (fun (s : State) (i : Nat) => s.modThread k.team i fun x => { x with due := none }) (s.acquire k.core)
  if fs.isEmpty then .ok s else s.reportPending k k.threads fs

/-- WAITB: the open batch is sealed where the wait covers it. DESIGN CHOICE, log entry 57: GUARDWAIT is raised before anything
is sealed. -/
def execWaitb (w : FA) (s : State) : Host.Outcome State Fault Refusal :=
  word (.waitb w) w.c State.waitOver (fun s k ex => s.syncing k.team ex fun s =>
    let t := k.team
    let n := fun (i : Nat) => BitVec.ofNat 32 (s.opnd t i w.sa 1)
    let held := ex.filter fun i => s.guardWait t ((s.team t).warpOf i) fun c =>
      c.joins.any fun j => j.1 == i && atOrBefore j.2 (n i)
    match held with
    | _ :: _ => s.trapAt k ex (held.map fun i => (i, { code := fGuardwait }))
    | [] =>
      let wait := (ex.filter fun i => !s.batchesDone t i (n i)).map fun i => (i, n i)
      let go := (ex.filter fun i => s.batchesDone t i (n i)).map fun i => (i, n i)
      let faults := go.filterMap fun e => ((s.thread t e.1).batchFault e.2).map fun f => (e.1, f)
      let s := (wait ++ go).foldl (fun (s : State) (e : Nat × Word) => s.modThread t e.1 fun x =>
        if atOrBefore x.batch e.2 then x.seal else x) s
      let s := wait.foldl (fun (s : State) (e : Nat × Word) => s.block t e.1 (.waitb e.2)) s
      let s := if go.isEmpty then s else s.acquire k.core
      match faults with
      | [] => .ok s
      | _ => s.reportPending (k.without (wait.map Prod.fst)) (go.map Prod.fst) faults) s

/-- SWWAIT. -/
def execSwwait (w : FM) (s : State) : Host.Outcome State Fault Refusal :=
  word (.swwait w) w.c State.waitOver (fun s k ex =>
    let t := k.team
    let ps := s.probePads k ex (fun i => s.padOff w t i) 16
    s.onProbes k ex ps false fun s as => s.syncing t ex fun s =>
      let offs := as.filterMap fun (e : Nat × Access) => match e.2.loc with | .pad _ off => some (e.1, off) | _ => none
      let rd := fun (off j : Nat) => leValue ((s.team t).pad.readN (off + 4 * j) 4)
      let bad := offs.filterMap fun (e : Nat × Nat) =>
        if rd e.2 3 ≠ 0 then some (e.1, ({ code := fSwfmt } : Rep))
        else if s.cmds.any fun c => c.team == t && c.warp == (s.team t).warpOf e.1 && c.guard.isSome && c.sync == some e.2
        then some (e.1, ({ code := fGuardwait } : Rep))
        else none
      match bad with
      | _ :: _ => s.trapAt k ex bad
      | [] =>
        let wait := offs.filter fun e => rd e.2 2 == s.opnd t e.1 w.dst 1
        let go := offs.filter fun e => !wait.contains e
        let faults := go.filterMap fun (e : Nat × Nat) =>
          ((s.thread t e.1).swFault e.2).map fun f => (e.1, f)
        let s' := wait.foldl (fun (s : State) (e : Nat × Nat) =>
          s.block t e.1 (.swwait e.2 (BitVec.ofNat 32 (s.opnd t e.1 w.dst 1)))) s
        let s' := if go.isEmpty then s' else s'.acquire k.core
        match faults with
        | [] => .ok s'
        | _ => s'.reportPending (k.without (wait.map Prod.fst)) (go.map Prod.fst) faults) s

end Sys2Proof.Machine
end

