-- ==== Sys2Proof/Machine/Records.lean ====
section
/-! DEFINITION. Record slots and the doser (R226 to R229, R241 to R243), device launches (R244) and SIGNAL (R245). -/

namespace Sys2Proof.Machine

open Sys2Proof

/-! ### Slices (R226, R227) -/

/-- A node of a graph. -/
def Graph.node (g : Graph) (n : Nat) : GNode := g.nodes.getD n default
/-- The address of a slot of a slice. -/
def GNode.slotAddr (n : GNode) (level slot : Nat) : Nat := n.base + (level * n.cap + slot) * n.recsz
/-- Whether a slot is free. -/
def Graph.slotFree (g : Graph) (n d k : Nat) : Bool :=
  g.slots.all fun e => !(e.1.node == n && e.1.level == d && e.1.slot == k)
/-- The lowest free slot of a slice: one of the first that are as many as the slots in use, and one more. -/
def Graph.lowest (g : Graph) (n d : Nat) : Option Nat :=
  (List.range (min (g.node n).cap (g.slots.length + 1))).find? fun k => g.slotFree n d k
/-- The committed records of a slice in commit order: order, time and slot. -/
def Graph.committed (g : Graph) (n d : Nat) : List (Nat × Nat × Nat) :=
  isort (fun (a b : Nat × Nat × Nat) => decide (a.1 ≤ b.1)) (g.slots.filterMap fun e => match e.2 with
    | .committed time order => if e.1.node = n ∧ e.1.level = d then some (order, time, e.1.slot) else none
    | _ => none)
/-- Change the state of a slot. -/
def Graph.setSlot (g : Graph) (r : RecSlot) (x : SlotState) : Graph :=
  { g with slots := if g.slots.any fun e => e.1 == r then g.slots.map fun e => if e.1 = r then (r, x) else e
                    else g.slots ++ [(r, x)] }

/-! ### The doser (R228) -/

/-- A launch of the k oldest records of a slice becomes due; the records are delivered. -/
def Graph.deliver (g : Graph) (gi n d k : Nat) : Graph :=
  let slots := ((g.committed n d).take k).map fun x => x.2.2
  let g := slots.foldl (fun (g : Graph) (i : Nat) =>
    g.setSlot { graph := gi, node := n, level := d, slot := i } .delivered) g
  { g with due := g.due ++ [(n, d, slots)] }
/-- Every full group of a slice becomes due. -/
def Graph.fillGroups (g : Graph) (gi n d : Nat) : Nat → Graph
  | 0 => g
  | k + 1 => if (g.node n).group ≤ (g.committed n d).length then (g.deliver gi n d (g.node n).group).fillGroups gi n d k else g
/-- The full groups of a graph. -/
def Graph.dose (g : Graph) (gi : Nat) : Graph :=
  ((g.slots.map fun e => (e.1.node, e.1.level)).eraseDups).foldl
    (fun (g : Graph) (e : Nat × Nat) => g.fillGroups gi e.1 e.2 g.slots.length) g
/-- Run the doser of a graph. -/
def State.dose (s : State) (gi : Nat) : State := s.modGraph gi fun g => g.dose gi
/-- The due launch that is taken next: the deeper level first, then the lower node, then the older. -/
def nextDue : List (Nat × Nat × List Nat) → Option (Nat × Nat × List Nat)
  | [] => none
  | e :: r => match nextDue r with
    | none => some e
    | some f => if e.2.1 < f.2.1 ∨ (e.2.1 = f.2.1 ∧ f.1 < e.1) then some f else some e

/-! ### RECA, RECC and RECF (R241 to R243) -/

/-- The checks of R227 on a RECA: RECNODE, then RECDEPTH. -/
def State.recaCheck (s : State) (t n d : Nat) : Option Nat :=
  match (s.team t).node with
  | none => some fRecnode
  | some (gi, p, e) =>
    let g := s.graph gi
    if g.nodes.length ≤ n ∨ ¬ (g.node p).succ.contains n then some fRecnode
    else if (g.node n).maxdepth ≤ d ∨ (n = p ∧ d ≠ e + 1) ∨ (n ≠ p ∧ d ≠ 0) then some fRecdepth
    else none

/-- Allocate for one thread: the address, or a wait. -/
def State.recAlloc (s : State) (w : FA) (t i n d : Nat) : State :=
  match (s.team t).node with
  | none => s
  | some (gi, _, _) =>
    let g := s.graph gi
    match g.lowest n d with
    | none => s.block t i (.recq n d)
    | some k =>
      let r : RecSlot := { graph := gi, node := n, level := d, slot := k }
      let s := s.modGraph gi fun g => g.setSlot r .allocated
      let s := s.modThread t i fun x => { x with recs := x.recs ++ [r] }
      s.putReg t i w.dst 2 ((g.node n).slotAddr d k)

def execReca (w : FA) (s : State) : Host.Outcome State Fault Refusal :=
  word (.reca w) w.c goOn (fun s k ex =>
    let t := k.team
    let args := ex.map fun i => (i, s.opnd t i w.sa 1, s.src t i w.sb w.sc 1)
    let bad := args.filterMap fun (a : Nat × Nat × Nat) =>
      (s.recaCheck t a.2.1 a.2.2).map fun c => (a.1, ({ code := c } : Rep))
    match bad with
    | _ :: _ => s.trapAt k ex bad
    | [] => .ok (args.foldl (fun (s : State) (a : Nat × Nat × Nat) => s.recAlloc w t a.1 a.2.1 a.2.2) s)) s

/-- The allocated record of a thread at an address. -/
def State.recAt (s : State) (t i a : Nat) : Option RecSlot :=
  (s.thread t i).recs.find? fun r => ((s.graph r.graph).node r.node).slotAddr r.level r.slot == a
/-- Commit a record of a thread. -/
def State.recCommit (s : State) (t i : Nat) (r : RecSlot) : State :=
  let s := s.modThread t i fun x => { x with recs := x.recs.filter fun y => y != r }
  (s.modGraph r.graph fun g => { g.setSlot r (.committed s.clk g.order) with order := g.order + 1 }).dose r.graph
/-- RECC: a release, then the commits in order. -/
def execRecc (w : FA) (s : State) : Host.Outcome State Fault Refusal :=
  word (.recc w) w.c goOn (fun s k ex =>
    let t := k.team
    let rs := ex.map fun i => (i, s.recAt t i (s.opnd t i w.sa 2))
    match rs.filter fun r => r.2.isNone with
    | [] => s.releasing t ex fun s => .ok (rs.foldl (fun (s : State) (r : Nat × Option RecSlot) => match r.2 with
        | some x => s.recCommit t r.1 x
        | none => s) s)
    | bad => s.trapAt k ex (bad.map fun r => (r.1, { code := fRecstate }))) s
/-- RECF frees the delivered record of each thread. -/
def execRecf (w : FA) (s : State) : Host.Outcome State Fault Refusal :=
  simple (.recf w) w.c (fun s k ex => ex.foldl (fun (s : State) (i : Nat) =>
    match (s.thread k.team i).delivered with
    | some r => (s.modThread k.team i fun x => { x with delivered := none }).freeSlot r
    | none => s) s) s

/-! ### LAUNCH and SIGNAL (R244, R245) -/

/-- Packets of a ring that are not processed. -/
def Iface.used (x : Iface) : Nat := (x.tail + 2 ^ 32 - x.head) % 2 ^ 32
/-- Packets announced at a time: the new tail, and when they began to wait (R282, R283). -/
def Iface.announce (x : Iface) (tail clk : Nat) : Iface :=
  let n := (tail + 2 ^ 32 - x.tail) % 2 ^ 32
  { x with tail, since := if n = 0 then x.since else x.since ++ [(n, clk)] }
/-- The place of a packet in its ring, through the owner's stage 2 (R281, R283). -/
def State.ringLoc (s : State) (q i : Nat) : Option Loc :=
  let x := s.iface q
  s.ipaLoc x.owner noPasid (x.ring + 64 * (i % 2 ^ x.szlog))
/-- The front end's touch of a packet's place in its ring, of which a page due to migrate does so first (R277). -/
def State.ringTouch (s : State) (q i : Nat) (write : Bool) : State :=
  let x := s.iface q
  s.ipaTouch x.owner 0 (x.ring + 64 * (i % 2 ^ x.szlog)) write
/-- Append a packet at the tail of a queue that is enabled and has a free entry: its index. A ring that cannot be reached
takes no bytes; the front end finds that when it reads the entry. -/
def State.append (s : State) (q : Nat) (words : List DWord) : State × Option Nat :=
  let x := s.iface q
  if ¬ x.en ∨ x.halt ∨ 2 ^ x.szlog ≤ x.used then (s, none)
  else
    let s := s.ringTouch q x.tail true
    let s := match s.ringLoc q x.tail with
      | some l => (words.zipIdx).foldl (fun (s : State) (e : DWord × Nat) =>
          s.writeLoc noOwner (l.add (8 * e.2)) (leBytes 8 e.1.toNat) false) s
      | none => s
    (s.modIface q fun y => y.announce ((y.tail + 1) % 2 ^ 32) s.clk, some x.tail)

/-- The words at a place as a thread's load sees them. -/
def State.laneWords (s : State) (t i : Nat) (l : Loc) (n : Nat) : List DWord :=
  (List.range n).map fun j => BitVec.ofNat 64 (leValue (s.laneBytes t i (l.add (8 * j)) 8))

/-- LAUNCH: the checks, a release, then each thread's packet in order. -/
def execLaunch (w : FA) (s : State) : Host.Outcome State Fault Refusal :=
  word (.launch w) w.c goOn (fun s k ex =>
    let t := k.team
    let q := fun (i : Nat) => s.src t i w.sb w.sc 1
    let (s', ps) := probeEach (fun (s : State) (i : Nat) =>
      match s.probe16 t i (s.opnd t i w.sa 2 : Int) 64 64 with
      | (s, .ok l x) =>
        if 64 ≤ q i ∨ (s.iface (q i)).owner ≠ (s.ctxOf t).part then (s, .error (.fault fLaunchq 0 false))
        else (s, .ok ({ loc := l, page := x, scale := none, size := 64 } : Access))
      | (s, p) => (s, .error p)) s ex
    s'.onProbes k ex ps false fun s as => s.releasing t ex fun s =>
      s.onPoison k (s.consumes k.core) (places as) (
        let s := as.foldl (fun (s : State) (e : Nat × Access) => s.fillLoc k.core e.2.loc 64) s
        let r := as.foldl (fun (r : State × List (Nat × Nat)) (e : Nat × Access) =>
          match r.1.append (q e.1) (r.1.laneWords t e.1 e.2.loc 8) with
          | (s, some n) => (s, r.2 ++ [(e.1, n)])
          | (s, none) => (s, r.2 ++ [(e.1, 0xFFFFFFFF)])) (s, [])
        .ok (r.1.putAll t w.dst 1 r.2))) s

/-- SIGNAL: a release, the write, and with IRQ the interrupt of the interface that the running launch came through. -/
def execSignal (w : FA) (s : State) : Host.Outcome State Fault Refusal :=
  word (.signal w) w.c goOn (fun s k ex =>
    let t := k.team
    let (s, ps) := probeEach (fun (s : State) (i : Nat) => s.access t i (s.opnd t i w.sa 2 : Int) 8 8 { write := true, line := true }) s ex
    s.onProbes k ex ps true fun s as => s.releasing t ex fun s =>
      .ok (as.foldl (fun (s : State) (e : Nat × Access) =>
        let s := s.storeHome k e.1 e.2.loc (leBytes 8 (s.opnd t e.1 w.sb 2))
        if w.ctl.getLsbD 0 then s.coalesce (s.launch (s.team t).launch).iface (w.sc.extractLsb' 0 2).toNat else s) s)) s

end Sys2Proof.Machine
end

