-- ==== Sys2Proof/Machine/Branch.lean ====
section
/-! DEFINITION. The collective branch (R247 to R252). -/

namespace Sys2Proof.Machine

open Sys2Proof

/-- The threads of a home warp that have not exited. -/
def State.live (s : State) (t v : Nat) : List Nat := ((s.team t).members v).filter fun i => !(s.thread t i).gone

/-- The checks that CBR and CBSYNC share: CBRSPLIT, then CBRCOMM, for each home warp of an issue. -/
def State.branchCheck (s : State) (t v : Nat) (here : List Nat) : Option Nat :=
  if s.live t v ≠ here then some fCbrsplit
  else
    let a := (s.warp t v).regs.cbabort.toNat
    if (s.member t v).isNone ∨ a = 0 ∨ a % 8 ≠ 0 then some fCbrcomm else none
/-- The records of the home warps of an issue that fail the checks. -/
def State.branchFaults (s : State) (t : Nat) (ex : List Nat) : List (Nat × Rep) :=
  let ws := s.warpsOf t ex
  let pass := ws.filter fun v => (s.branchCheck t v (s.ofWarp t v ex)).isNone
  ws.flatMap fun v =>
    let here := s.ofWarp t v ex
    match s.branchCheck t v here with
    | some c => here.map fun i => (i, { code := c })
    | none => if s.rival t pass v then here.map fun i => (i, { code := fCbrcomm }) else []

/-- One home warp's CBR: its contribution, then its wait, or its prediction with the checkpoint and the window. In a sequence
that is decided already it resolves at once, without speculating (R346). -/
def State.branch (s : State) (k : Iss) (w : FA) (v : Nat) (here : List Nat) : State :=
  let t := k.team
  match s.member t v with
  | none => s
  | some (c, r) =>
    let s := s.bindRank c.slot r t v
    let seq := (s.warp t v).cseq.toNat + 1
    let isAny := w.ctl.getLsbD 0
    let vote := fun (i : Nat) => (s.thread t i).pred w.sc20 != w.sc.getLsbD 3
    let val := if isAny then here.any vote else here.all vote
    let known := match s.comm c.slot with | some c => (c.seqInfo seq).outcome.isSome | none => false
    let pred := if known then none else match (w.ctl.extractLsb' 1 2).toNat with
      | 0 => some val
      | 1 => some true
      | 2 => some false
      | _ => none
    let s := s.contribute c.slot seq r isAny val
    let s := match pred with
      | some b => here.foldl (fun (s : State) (i : Nat) => s.putPred t i w.sc64 b) s
      | none => s
    let sp : Spec :=
      { seq, slot := c.slot, pred, pd := w.sc64, clause := k.clause, aborted := false, members := here,
        threads := here.map fun i => (i, s.thread t i), regs := (s.warp t v).regs, held := [] }
    let s := s.modWarp t v fun x => { x with spec := some sp }
    let s := if pred.isNone then here.foldl (fun (s : State) (i : Nat) => s.block t i (.agree seq)) s else s
    s.deliver c.slot seq

/-- CBR, once for each home warp: a release, then the contribution. -/
def execCbr (w : FA) (s : State) : Host.Outcome State Fault Refusal :=
  word (.cbr w) w.c goOn (fun s k ex =>
    match s.branchFaults k.team ex with
    | [] => s.releasing k.team ex fun s => .ok ((s.warpsOf k.team ex).foldl (fun (s : State) (v : Nat) =>
        s.branch k w v (s.ofWarp k.team v ex)) s)
    | bad => s.trapAt k ex bad) s
/-- One home warp's wait for its branch. -/
def State.syncWarp (s : State) (t v : Nat) (here : List Nat) : State :=
  match s.member t v, (s.warp t v).spec with
  | some (c, r), some sp =>
    here.foldl (fun (s : State) (i : Nat) => s.block t i (.agree sp.seq)) (s.bindRank c.slot r t v)
  | some (c, r), none => s.bindRank c.slot r t v
  | none, _ => s
/-- CBSYNC in its wait form: it binds the rank (R340), and each executing thread of a home warp with a branch outstanding
waits for it (R252). -/
def execCbsync (w : FA) (s : State) : Host.Outcome State Fault Refusal :=
  word (.cbsync w) w.c goOn (fun s k ex =>
    match s.branchFaults k.team ex with
    | [] => .ok ((s.warpsOf k.team ex).foldl (fun (s : State) (v : Nat) =>
        s.syncWarp k.team v (s.ofWarp k.team v ex)) s)
    | bad => s.trapAt k ex bad) s
/-- One home warp's abort of its next sequence: its threads stand at BP-AGREE, and the abort, which on the root chip decides at
once, finds them there. -/
def State.abortWarp (s : State) (t v : Nat) (here : List Nat) : State :=
  match s.member t v with
  | none => s
  | some (c, r) =>
    let s := s.bindRank c.slot r t v
    let seq := (s.warp t v).cseq.toNat + 1
    let s := s.modWarp t v fun x => { x with spec := x.spec.map fun sp => { sp with aborted := true } }
    let s := here.foldl (fun (s : State) (i : Nat) => s.block t i (.agree seq)) s
    (s.abort c.slot seq).deliver c.slot seq
def execCbsyncAbort (w : FA) (s : State) : Host.Outcome State Fault Refusal :=
  word (.cbsyncAbort w) w.c goOn (fun s k ex =>
    match s.branchFaults k.team ex with
    | [] => .ok ((s.warpsOf k.team ex).foldl (fun (s : State) (v : Nat) =>
        s.abortWarp k.team v (s.ofWarp k.team v ex)) s)
    | bad => s.trapAt k ex bad) s

end Sys2Proof.Machine
end

