-- ==== Sys2Proof/Machine/Matrix.lean ====
section
/-! DEFINITION. Matrix instructions (R128 to R149): each acts once for a home warp with an executing thread, ACRD and
ACWR for each thread. -/

namespace Sys2Proof.Machine

open Sys2Proof

/-! ### The checks that every command shares -/

/-- Latches of a partition that an exit filled are accepted, where no other gang stands in their way (R132, R138). -/
def State.latchChecks (s : State) (c p : Nat) : State :=
  (List.range s.teams.length).foldl (fun (s : State) (t : Nat) =>
    if (s.team t).core = c ∧ (s.team t).part = p then s.latchCheck t else s) s
/-- Banks changed hands in a partition: threads at BP-ALLOC try again, and full latches are accepted (R135, R138). -/
def State.wakeAlloc (s : State) (c p : Nat) : State :=
  (s.wakeAll false fun s t _ v => match v with
    | .alloc _ _ => (s.team t).core == c && (s.team t).part == p
    | _ => false).latchChecks c p

/-- How the tests of one home warp's command end: a report, a wait, or it may act. -/
inductive Mtx where
  | trap (reps : List (Nat × Rep)) (stop : Option Nat)
  | wait (v : Wait)
  | ready (d : Drain)
  | poison (l : Loc)
  /-- it cannot act yet, and its warp stands at no blocking point (R136) -/
  | stall

/-- The record of MTXFAULT (R144). -/
def BankFault.rep (f : BankFault) : Rep := { code := fMtxfault, addr := f.addr, value := f.row, sub := f.code }

/-- GANG, then ownership of every bank (R131, R137). -/
def State.mtxOwn (s : State) (k : Iss) (v : Nat) (bs : List Nat) : Option Nat :=
  if ¬ s.gangValid k.team v then some fMtxgang
  else if bs.any fun b => !s.holds k.core k.part (s.gangOf k.team v) b then some fMtxown
  else none
/-- A code for each executing thread of a home warp. -/
def codeFor (here : List Nat) (c : Nat) : Mtx := .trap (here.map fun i => (i, { code := c })) none
/-- MTXFAULT for the active threads of a home warp. -/
def State.faultFor (s : State) (k : Iss) (v : Nat) (f : BankFault) : Mtx :=
  .trap ((s.ofWarp k.team v k.threads).map fun i => (i, f.rep)) (some f.stop)

/-- The tests of a command on a range that its gang must hold: ownership, spilled banks back, earlier commands done,
no fault (R129, R137, R138, R144). A product that has its guard and waits for a move of the banks keeps the command at its word,
which reports it should it stop. -/
def State.mtxReady (s : State) (k : Iss) (v b n : Nat) (here : List Nat) : State × Mtx :=
  let bs := range b n
  match s.mtxOwn k v bs with
  | some c => (s, codeFor here c)
  | none =>
    let g := s.gangOf k.team v
    if s.foreign k.core k.part g bs then (s, .wait (.alloc b n))
    else
      let s := s.restore k.core k.part g bs
      match s.drain k.core k.part g b n with
      | (s, .pages ks) => (s, .wait (.page ks))
      | (s, .poison l) => (s, .poison l)
      | (s, .banks a) => (s, .wait (.alloc a 4))
      | (s, .product) => (s, .stall)
      | (s, d) => match s.bankFault k.core k.part bs with
        | some (f, _) => (s, s.faultFor k v f)
        | none => (s, .ready d)

/-- The tests of a command for the home warps of an issue, in their order. -/
def State.mtxTests (s : State) (k : Iss) (ex : List Nat) (test : State → Nat → List Nat → State × Mtx) :
    State × List (Nat × Mtx) :=
  (s.warpsOf k.team ex).foldl (fun (r : State × List (Nat × Mtx)) (v : Nat) =>
    let (s, m) := test r.1 v (s.ofWarp k.team v ex)
    (s, r.2 ++ [(v, m)])) (s, [])
/-- What a command does for the home warps of an issue after their tests: those that wait stand at the word; for the
others `go` acts. -/
def State.mtxActs (s : State) (k : Iss) (ex : List Nat) (ms : List (Nat × Mtx))
    (go : State → Nat → List Nat → Drain → State) : State :=
  ms.foldl (fun (s : State) (e : Nat × Mtx) =>
    let here := s.ofWarp k.team e.1 ex
    match e.2 with
    | .wait v => here.foldl (fun (s : State) (i : Nat) => s.block k.team i v) s
    | .ready d => go s e.1 here d
    | _ => s) s
/-- The first poisoned sector that the tests met. -/
def mtxPoison (ms : List (Nat × Mtx)) : Option Loc := ms.findSome? fun e => match e.2 with | .poison l => some l | _ => none
/-- Whether a home warp's command cannot act yet. -/
def mtxStalls (ms : List (Nat × Mtx)) : Bool := ms.any fun e => match e.2 with | .stall => true | _ => false
/-- The first report that the tests gave. -/
def mtxTrap (ms : List (Nat × Mtx)) : Option (List (Nat × Rep) × Option Nat) :=
  ms.findSome? fun e => match e.2 with | .trap reps stop => some (reps, stop) | _ => none
/-- Run a command for the home warps of an issue: the first that has a report traps and nothing acts, nor does anything while one
cannot act. -/
def State.mtxAll (s : State) (k : Iss) (ex : List Nat) (test : State → Nat → List Nat → State × Mtx)
    (go : State → Nat → List Nat → Drain → State) : Res :=
  let r := s.mtxTests k ex test
  match mtxPoison r.2 with
  | some l => .left (r.1.consume k.core l)
  | none => match mtxTrap r.2 with
    | some (reps, stop) => .left (r.1.raiseAt k { (k.report ex reps) with stop })
    | none => if mtxStalls r.2 then .stall r.1 else .ok (r.1.mtxActs k ex r.2 go)

/-- Put a command behind the earlier ones on its banks. -/
def State.enqueue (s : State) (k : Iss) (g : Gang) (b n : Nat) (op : SeqOp) : State :=
  let (id, s) := s.fresh
  s.modSeq k.core k.part fun q => q ++ [{ id, gang := g, bank := b, count := n, op }]
/-- Banks that a word names. -/
def bankCount (w : FX) : Nat := 2 ^ w.nlog

/-! ### ALLOC and FREE (R135, R136) -/

/-- Grant the free banks of a range, empty. -/
def State.grant (s : State) (c p : Nat) (g : Gang) (bs : List Nat) : State :=
  bs.foldl (fun (s : State) (b : Nat) =>
    if (s.bank c p b).owner.isNone then s.modBank c p b fun _ => { AccBank.reset with owner := some g } else s) s
/-- The tests of ALLOC: the gang, then the range, which must be free or the gang's (R135). DESIGN CHOICE, log entry 54: a faulted
bank that another gang holds keeps ALLOC waiting, as any bank of that gang does, and raises no MTXFAULT. -/
def State.allocTest (s : State) (k : Iss) (w : FX) (v : Nat) (here : List Nat) : State × Mtx :=
  let bs := range w.bank (bankCount w)
  if ¬ s.gangValid k.team v then (s, codeFor here fMtxgang)
  else
    let g := s.gangOf k.team v
    if s.foreign k.core k.part g bs then (s, .wait (.alloc w.bank (bankCount w)))
    else
      let s := s.restore k.core k.part g bs
      match s.bankFault k.core k.part bs with
      | some (f, _) => (s, s.faultFor k v f)
      | none => (s, .ready .clear)
/-- ALLOC takes its range, unless an earlier home warp of the issue has taken a bank of it for another gang. -/
def State.allocGo (s : State) (k : Iss) (w : FX) (v : Nat) (here : List Nat) : State :=
  let g := s.gangOf k.team v
  let bs := range w.bank (bankCount w)
  if s.foreign k.core k.part g bs then
    here.foldl (fun (s : State) (i : Nat) => s.block k.team i (.alloc w.bank (bankCount w))) s
  else s.grant k.core k.part g bs
def execAlloc (w : FX) (s : State) : Host.Outcome State Fault Refusal :=
  word (.alloc w) w.c goOn (fun s k ex =>
    s.mtxAll k ex (fun s v here => s.allocTest k w v here) (fun s v here _ => s.allocGo k w v here)) s

/-- Discard the held products of a gang on a range (R136, step 1). -/
def State.discardHeld (s : State) (c p : Nat) (g : Gang) (b n : Nat) : State :=
  let held := fun (q : SeqCmd) => q.gang == g && banksMeet q.bank q.count b n &&
    (match q.op with | .product x => x.guard.isSome | _ => false)
  let s := s.modSeq c p fun l => l.filter fun q => !held q
  s.seqAdvance c p (s.seqOf c p).length
/-- Whether an open latch of a gang has captured a product on a range. -/
def State.latchNames (s : State) (g : Gang) (b n : Nat) : Bool :=
  (s.team g.team).latches.any fun l => l.gang == g && banksMeet (bits l.word.toNat 7 4) 4 b n
/-- The tests of FREE, in the order of R136: what is held on the range is discarded, then the open latch, the commands in
flight, for which the warp waits at no blocking point, and the faulted banks. -/
def State.freeTest (s : State) (k : Iss) (w : FX) (v : Nat) (here : List Nat) : State × Mtx :=
  let b := w.bank
  let n := bankCount w
  let bs := range b n
  match s.mtxOwn k v bs with
  | some c => (s, codeFor here c)
  | none =>
    let g := s.gangOf k.team v
    let s := s.discardHeld k.core k.part g b n
    if s.latchNames g b n then (s, codeFor here fMtxown)
    else if s.foreign k.core k.part g bs then (s, .wait (.alloc b n))
    else
      match (s.restore k.core k.part g bs).drain k.core k.part g b n with
      | (s, .pages ks) => (s, .wait (.page ks))
      | (s, .poison l) => (s, .poison l)
      | (s, .banks a) => (s, .wait (.alloc a 4))
      | (s, .clear) => (match s.bankFault k.core k.part bs with
        | some (f, _) => (s, s.faultFor k v f)
        | none => (s, .ready .clear))
      | (s, _) => (s, .stall)
/-- The banks of a range go back to the free state. -/
def State.freeRange (s : State) (k : Iss) (w : FX) : State :=
  ((range w.bank (bankCount w)).foldl (fun (s : State) (j : Nat) => s.modBank k.core k.part j AccBank.freed) s).wakeAlloc
    k.core k.part
/-- The threads of an issue in home warps whose gang an earlier home warp of the issue names too. -/
def State.sameGang (s : State) (t : Nat) (ex : List Nat) : List Nat :=
  let ws := s.warpsOf t ex
  let again := ws.filter fun v => ws.any fun u => decide (u < v) && s.gangOf t u == s.gangOf t v
  ex.filter fun i => again.contains ((s.team t).warpOf i)
/-- FREE: the range goes back to the free state. Other home warps of the same gang in the issue stay at the word and come to it
after that, when they hold nothing there (R136). -/
def execFree (w : FX) (s : State) : Host.Outcome State Fault Refusal :=
  word (.free w) w.c goOn (fun s k ex =>
    let late := s.sameGang k.team ex
    let again := fun (here : List Nat) => late.contains (here.headD 0)
    let r := s.mtxAll k ex (fun s v here => if again here then (s, .ready .clear) else s.freeTest k w v here)
      (fun s _ here _ => if again here then s else s.freeRange k w)
    match r, late with
    | .done s j, _ :: _ =>
      .left (((s.ungroup k.team late).finish (k.without late) w.c (ex.filter fun i => !late.contains i) j).tidy k.team)
    | r, _ => r) s

/-! ### MMA (R132, R139, R140, R145, R146) -/

/-- The tests of a first arrival: its banks, then its record (R137, R140). -/
def State.mmaCheck (s : State) (k : Iss) (w : FX) (v : Nat) (here : List Nat) : Option Mtx :=
  match s.mtxOwn k v (range w.bank 4) with
  | some c => some (codeFor here c)
  | none => match recCheck w.fmt ((List.range 8).map fun j =>
      (s.warp k.team v).regs.s.getD (w.sa.toNat - 0xC0 + j) 0) with
    | some (c, a) => some (.trap (here.map fun i => (i, { code := c, addr := a })) none)
    | none => none

/-- The latch of a gang. -/
def State.latch (s : State) (g : Gang) : Option Latch := (s.team g.team).latches.find? fun l => l.gang == g
/-- Capture an MMA in an empty latch, which takes a fresh number. -/
def State.capture (s : State) (k : Iss) (w : FX) (v : Nat) (g : Gang) (bad : Option NotInstr) : State :=
  let x := s.warp k.team v
  let (id, s) := s.fresh
  let l : Latch :=
    { id, gang := g, word := k.clause.word k.pos, pc := k.pc,
      record := (List.range 8).map fun j => x.regs.s.getD (w.sa.toNat - 0xC0 + j) 0, vcnt := x.regs.vcnt,
      mprog := x.regs.mprog, guard := if w.gd = 1 then some (v, w.gs.toNat) else none, bad,
      control := controlCase k w.c (some (.mma w)), arrived := [] }
  s.modTeam k.team fun m => { m with latches := m.latches ++ [l] }
/-- A home warp arrives at a latch. DESIGN CHOICE, log entry 54: where other threads of a home warp that has arrived issue an
MMA, it is no second arrival; they wait for the same rendezvous. -/
def State.arriveLatch (s : State) (g : Gang) (v : Nat) : State :=
  s.modTeam g.team fun m => { m with latches := m.latches.map fun l =>
    if l.gang = g ∧ ¬ l.arrived.contains v then { l with arrived := l.arrived ++ [v] } else l }

/-- One home warp's arrival, after its release: its executing threads wait, and at a latch whose word is not an instruction all
its active ones, which enter the handler together if the home warp must (R146, R297). -/
def State.mmaArrive (s : State) (k : Iss) (w : FX) (bad : Option NotInstr) (v : Nat) (here : List Nat) : State :=
  let t := k.team
  let g := s.gangOf t v
  let s := if (s.latch g).isNone then s.capture k w v g bad else s
  match s.latch g with
  | none => s
  | some l0 =>
    let bank := bits l0.word.toNat 7 4
    let would : Latch := { l0 with arrived := l0.arrived ++ [v] }
    if s.latchFull would ∧ l0.bad.isNone ∧ s.foreign k.core k.part g (range bank 4) then
      here.foldl (fun (s : State) (i : Nat) => s.block t i (.alloc bank 4)) s
    else
      let s := s.arriveLatch g v
      match s.latch g with
      | none => s
      | some l =>
        if l.bad.isNone ∧ s.latchFull l then s.accept l
        else
          let stay := if l.bad.isNone then here else s.ofWarp t v k.threads
          let s := stay.foldl (fun (s : State) (i : Nat) => s.block t i (.gang l.id)) s
          if s.latchFull l then s.enterLatch l else s

/-- MMA. A word that is not an instruction arrives as any other does (R132, R146). -/
def execMma (w : FX) (s : State) : Host.Outcome State Fault Refusal :=
  word (.mma w) w.c (fun s k => .left (s.finish k w.c (s.exec1 k w.c) {})) (fun s k ex =>
    let t := k.team
    let bad := match (Instr.mma w).staticCase with
      | some c => some c
      | none => s.ctxCase k (.mma w) w.c
    let ws := s.warpsOf t ex
    let first := fun (v : Nat) => (s.latch (s.gangOf t v)).isNone &&
      !(ws.any fun u => decide (u < v) && s.gangOf t u == s.gangOf t v)
    let test := ws.findSome? fun v =>
      let here := s.ofWarp t v ex
      if ¬ s.gangValid t v then some (codeFor here fMtxgang)
      else if first v ∧ bad.isNone then s.mmaCheck k w v here else none
    match test with
    | some (.trap reps stop) => .left (s.raiseAt k { (k.report ex reps) with stop })
    | _ =>
      s.releasing t (ws.flatMap fun v => (s.team t).members v) fun s =>
        .ok (ws.foldl (fun (s : State) (v : Nat) => s.mmaArrive k w bad v (s.ofWarp t v ex)) s)) s

/-! ### ACZ, ACRD and ACWR (R147, R148) -/

/-- ACZ zeroes its range (R147), or waits behind the commands on it. -/
def State.aczGo (s : State) (k : Iss) (w : FX) (v : Nat) (d : Drain) : State :=
  match d with
  | .clear => (range w.bank (bankCount w)).foldl (fun (s : State) (b : Nat) =>
      s.modBank k.core k.part b fun x => { x with words := [] }) s
  | _ => s.enqueue k (s.gangOf k.team v) w.bank (bankCount w) .acz
def execAcz (w : FX) (s : State) : Host.Outcome State Fault Refusal :=
  word (.acz w) w.c goOn (fun s k ex =>
    s.mtxAll k ex (fun s v here => s.mtxReady k v w.bank (bankCount w) here) (fun s v _ d => s.aczGo k w v d)) s

/-- The index of ACRD and ACWR. -/
def State.accIndex (s : State) (w : FX) (t i : Nat) : Nat := s.opnd t i w.sa 1 % (4096 * bankCount w)
/-- ACRD is long-latency; behind commands that are not done it has no value yet. -/
def State.acrdGo (s : State) (k : Iss) (w : FX) (v : Nat) (here : List Nat) (d : Drain) : State :=
  let t := k.team
  let key := s.nextId
  let idx := here.map fun i => (i, s.accIndex w t i)
  let now := match d with | .clear => true | _ => false
  let s := s.issueResults k w.c w.dst (if w.w64 then 2 else 1) (idx.map fun e =>
    (e.1, if now then some (s.accRead k.core k.part w.bank e.2 w.w64) else none, none))
  if now then s
  else idx.foldl (fun (s : State) (e : Nat × Nat) =>
    s.enqueue k (s.gangOf t v) w.bank (bankCount w) (.acrd t e.1 key e.2 w.w64)) s
def execAcrd (w : FX) (s : State) : Host.Outcome State Fault Refusal :=
  word (.acrd w) w.c goOn (fun s k ex =>
    s.mtxAll k ex (fun s v here => s.mtxReady k v w.bank (bankCount w) here) (fun s v here d => s.acrdGo k w v here d)) s
/-- The words that ACWR writes, in increasing home lane. -/
def State.acwrWords (s : State) (w : FX) (t : Nat) (here : List Nat) : List (Nat × Word) :=
  here.flatMap fun i =>
    let k := s.accIndex w t i
    let v := s.opnd t i w.sb (if w.w64 then 2 else 1)
    if w.w64 then [(k / 2 * 2, BitVec.ofNat 32 v), (k / 2 * 2 + 1, BitVec.ofNat 32 (v / 2 ^ 32))]
    else [(k, BitVec.ofNat 32 v)]
def State.acwrGo (s : State) (k : Iss) (w : FX) (v : Nat) (here : List Nat) (d : Drain) : State :=
  let ws := s.acwrWords w k.team here
  match d with
  | .clear => ws.foldl (fun (s : State) (e : Nat × Word) => s.setAcc k.core k.part w.bank e.1 e.2) s
  | _ => s.enqueue k (s.gangOf k.team v) w.bank (bankCount w) (.acwr ws)
def execAcwr (w : FX) (s : State) : Host.Outcome State Fault Refusal :=
  word (.acwr w) w.c goOn (fun s k ex =>
    s.mtxAll k ex (fun s v here => s.mtxReady k v w.bank (bankCount w) here) (fun s v here d => s.acwrGo k w v here d)) s

/-! ### ACLD and ACST (R149) -/

/-- Probe runs of bytes of a home warp's command, on pages of one format or of any: the first fault, else the pages that are
absent and the team whose window is not there. A span window is RAW, and the format comes before the checks of R86 (R149, R174). -/
def State.probeRuns (s : State) (t i : Nat) (a : Touch) (fmt : Option Nat) :
    List (Int × Nat) → State × Option (Nat × Nat × Bool) × List PageKey × Option Nat
  | [] => (s, none, [], none)
  | (va, n) :: r =>
    let raw := match fmt with | none | some 0 => true | some _ => false
    let out := fun (s : State) (ks : List PageKey) (u : Option Nat) => match s.probeRuns t i a fmt r with
      | (s, some f, _, _) => (s, some f, [], none)
      | (s, none, ls, v) => (s, none, (ks ++ ls).eraseDups, u.orElse fun _ => v)
    match s.probeEa t i va n 1 { a with bad := fMtxfmt, fmtFirst := true } (fun x => match fmt with | none => true | some f => x.fmt == f) with
    | (s, .fault c x b) => (s, some (c, x, b), [], none)
    | (s, .ok _ (some _)) => out s [] none
    | (s, .ok _ none) => if raw then out s [] none else (s, some (fMtxfmt, va.toNat, false), [], none)
    | (s, .page ks) => out s ks none
    | (s, .remote u) => if raw then out s [] (some (u.getD (2 ^ 64))) else (s, some (fMtxfmt, va.toNat, false), [], none)
/-- Split a run of bytes at page boundaries. -/
def pageRuns (a : Int) (n : Nat) : List (Int × Nat) :=
  let room := (65536 - a % 65536).toNat
  if n ≤ room then (if n = 0 then [] else [(a, n)]) else [(a, room), (a + room, n - room)]
/-- Turn what the probes found into a test of the command. -/
def Mtx.ofProbe (s : State) (t : Nat) (here : List Nat) (write : Bool)
    (r : Option (Nat × Nat × Bool) × List PageKey × Option Nat) (d : Drain) : State × Mtx :=
  match r with
  | (some (c, a, b), _, _) => (s, .trap (here.map fun i => (i, { code := c, addr := a, s2 := b })) none)
  | (none, k :: ks, _) => (s.requests t (k :: ks) write, .wait (.page (k :: ks)))
  | (none, [], some u) => (s, .wait (.remoteTeam u))
  | (none, [], none) => (s, .ready d)

/-- Start an engine command of the sequencer: it joins the open batch of each executing thread. -/
def State.startMove (s : State) (k : Iss) (v b n : Nat) (here : List Nat) (op : CmdOp) (todo : List Nat)
    (seq : Nat → SeqOp) : State :=
  let t := k.team
  let (id, s) := s.fresh
  let cmd : Cmd :=
    { id, team := t, warp := v, lead := here.headD 0, joins := here.map fun i => (i, (s.thread t i).batch), pc := k.pc,
      priv := s.privileged t (here.headD 0), guard := none, sync := none, op, todo, units := [],
      deny := [], fault := none }
  let s := { s with cmds := s.cmds ++ [cmd] }
  s.enqueue k (s.gangOf t v) b n (seq id)

/-- The address of ACLD and ACST: the lead thread's. -/
def State.moveAddr (s : State) (k : Iss) (w : FX) (here : List Nat) : Nat := s.opnd k.team (here.headD 0) w.sa 2
/-- The tests of ACLD: its banks, then every byte of its source. -/
def State.acldTest (s : State) (k : Iss) (w : FX) (v : Nat) (here : List Nat) : State × Mtx :=
  let t := k.team
  match s.mtxReady k v w.bank (bankCount w) here with
  | (s, .ready d) =>
    let a := s.moveAddr k w here
    match checks14 (s.privileged t (here.headD 0)) a 128 128 with
    | some (c, x) => (s, .trap (here.map fun i => (i, { code := c, addr := x })) none)
    | none =>
      let (s, r) := s.probeRuns t (here.headD 0) {} none
        ((List.range (128 * bankCount w)).map fun j => ((a + 128 * j : Nat), 128))
      Mtx.ofProbe s t here false r d
  | r => r
/-- ACLD starts its move. -/
def State.acldGo (s : State) (k : Iss) (w : FX) (v : Nat) (here : List Nat) : State :=
  s.startMove k v w.bank (bankCount w) here (.acld (s.moveAddr k w here) w.bank (bankCount w) k.core k.part)
    (List.range (128 * bankCount w)) .acld
def execAcld (w : FX) (s : State) : Host.Outcome State Fault Refusal :=
  word (.acld w) w.c goOn (fun s k ex =>
    s.mtxAll k ex (fun s v here => s.acldTest k w v here) (fun s v here _ => s.acldGo k w v here)) s

/-- The runs of bytes of ACST's rows. -/
def acstRuns (a stride vm n : Nat) : List (Int × Nat) :=
  (List.range vm).flatMap fun i => pageRuns ((a + i * stride : Nat) : Int) n
/-- The row stride of ACST. -/
def State.moveStride (s : State) (k : Iss) (w : FX) (here : List Nat) : Nat := s.opnd k.team (here.headD 0) w.sb 1
/-- The tests of ACST: its banks, then its address, the format of its page, the alignment, every byte of its rows, and the
residency of them all (R149). -/
def State.acstTest (s : State) (k : Iss) (w : FX) (v : Nat) (here : List Nat) : State × Mtx :=
  let t := k.team
  let i := here.headD 0
  match s.mtxReady k v w.bank 4 here with
  | (s, .ready d) =>
    let a := s.moveAddr k w here
    let trap := fun (c x : Nat) (b : Bool) => Mtx.trap (here.map fun i => (i, { code := c, addr := x, s2 := b })) none
    match s.probeEa t i (a : Int) 1 1 { write := true, fmtFirst := true, bad := fMtxfmt }
      (fun x => x.fmt != 1 && x.fmt != 2) with
    | (s, .fault c x b) => (s, trap c x b)
    | (s, p) => match s.peekFmt t i (a : Int) { write := true } with
      | (s, none) => Mtx.ofProbe s t here true (none, (match p with | .page ks => ks | _ => []), none) d
      | (s, some fmt) =>
        if a % acstWidth fmt ≠ 0 then (s, trap fMisalign a false)
        else
          let vc := (s.warp t v).regs.vcnt
          let (s, r) := s.probeRuns t i { write := true } (some fmt)
            ((a, 1) :: acstRuns a (s.moveStride k w here) (vcntM vc) (vcntN vc * acstWidth fmt))
          Mtx.ofProbe s t here true r d
  | r => r
/-- ACST starts its move. -/
def State.acstGo (s : State) (k : Iss) (w : FX) (v : Nat) (here : List Nat) : State :=
  let a := s.moveAddr k w here
  let (s, f) := s.peekFmt k.team (here.headD 0) (a : Int) { write := true }
  let vn := vcntN (s.warp k.team v).regs.vcnt
  let rows := if vn = 0 then 0 else vcntM (s.warp k.team v).regs.vcnt
  s.startMove k v w.bank 4 here
    (.acst w.bank rows vn a (s.moveStride k w here) (f.getD 0) k.core k.part) (List.range rows) .acst
def execAcst (w : FX) (s : State) : Host.Outcome State Fault Refusal :=
  word (.acst w) w.c goOn (fun s k ex =>
    s.mtxAll k ex (fun s v here => s.acstTest k w v here) (fun s v here _ => s.acstGo k w v here)) s

end Sys2Proof.Machine
end

