-- ==== Sys2Proof/Machine/Engines.lean ====
section
/-! DEFINITION. Engine commands (R194 to R202): copies, gathers, scatters, tiles and walks, and the data collectives and
CBAR (R340 to R344): what they do at issue, and what each step of their transfer does. -/

namespace Sys2Proof.Machine

open Sys2Proof

/-! ### The checks of a range at issue (R195) -/

/-- The first byte of a range of VAs that lies in the span-window region and in no team's scratchpad (R173, check 5). -/
def State.windowFault (s : State) (t va n : Nat) : Option Nat :=
  let base := (s.ctxOf t).spwbase
  let m := s.team t
  let lo := max va base
  let hi := min (va + n) (base + 0x80000000)
  if hi ≤ lo then none
  else
    let k0 := (lo - base) / 0x80000
    let k1 := (hi - 1 - base) / 0x80000
    ((List.range (k1 + 1 - k0)).map (k0 + ·)).findSome? fun k =>
      let away := match s.spanTeam m.launch m.span k with
        | some u => (s.team u).retired
        | none => false
      let room := if decide (k < m.spanSize) && (k == m.rank || !away) then m.scratch * 1024 else 0
      let start := max lo (base + k * 0x80000 + room)
      if start < min hi (base + (k + 1) * 0x80000) then some start else none
/-- Checks 1 to 5 on a range with an alignment. -/
def State.rangeFault (s : State) (t : Nat) (priv : Bool) (va n align : Nat) : Option (Nat × Nat) :=
  if n = 0 then none
  else match checks14 priv va n align with
    | some f => some f
    | none => (s.windowFault t va n).map fun a => (fSprange, a)
/-- The first failure of a list of ranges: address, size and alignment. -/
def State.rangeFaults (s : State) (t : Nat) (priv : Bool) (rs : List (Nat × Nat × Nat)) : Option (Nat × Nat) :=
  rs.findSome? fun r => s.rangeFault t priv r.1 r.2.1 r.2.2
/-- Whether two ranges of bytes meet. -/
def meets (a n b m : Nat) : Bool := decide (0 < n) && decide (0 < m) && decide (a < b + m) && decide (b < a + n)
/-- Whether a range lies in the team's own window. -/
def State.inOwn (s : State) (t va n : Nat) : Bool :=
  let own := (s.ctxOf t).spwbase + (s.team t).rank * 0x80000
  n == 0 || (decide (own ≤ va) && decide (va + n ≤ own + (s.team t).scratch * 1024))
/-- Whether a sync word is refused: not an aligned word of the scratchpad, or W3 is not zero (R158, R196). -/
def State.syncBad (s : State) (t : Nat) (sync : Option Nat) : Bool :=
  match sync with
  | none => false
  | some off => off % 16 != 0 || decide ((s.team t).scratch * 1024 < off + 16) ||
      leValue ((s.team t).pad.readN (off + 12) 4) != 0

/-- The aligned 128-byte blocks that a range touches, by number. -/
def blocks (a n : Nat) : List Nat :=
  if n = 0 then [] else (List.range ((a + n + 127) / 128 - a / 128)).map (a / 128 + ·)

/-! ### Starting a command -/

/-- What a command does at issue for one thread or home warp: its failure, or what to start; `none` starts nothing. -/
abbrev Plan := Except Rep (Option (CmdOp × List Nat × Option Nat))

/-- Start a command for some threads; a guarded one is held in its slot (R195, R202). -/
def State.startCmd (s : State) (k : Iss) (guard : Option Nat) (joins : List Nat) (op : CmdOp) (todo : List Nat)
    (sync : Option Nat) : State :=
  let t := k.team
  let lead := joins.headD 0
  let v := (s.team t).warpOf lead
  let (id, s) := s.fresh
  let cmd : Cmd :=
    { id, team := t, warp := v, lead, joins := joins.map fun i => (i, (s.thread t i).batch), pc := k.pc,
      priv := s.privileged t lead, guard, sync, op, todo, units := [], deny := [], fault := none }
  let s := { s with cmds := s.cmds ++ [cmd] }
  match guard with
  | some g => s.modWarp t v fun x => { x with guards := x.guards.set g true }
  | none => s
/-- The guard slot of a command word. -/
def guardOf (w : FX) : Option Nat := if w.gd = 1 then some w.gs.toNat else none

/-- An engine word: every thread, or home warp, is checked; with no failure each starts its command. -/
def engineWord (i : Instr) (w : FX) (units : State → Iss → List Nat → List (List Nat))
    (plan : State → Iss → List Nat → Plan) (s : State) : Host.Outcome State Fault Refusal :=
  word i w.c goOn (fun s k ex =>
    let us := (units s k ex).map fun u => (u, plan s k u)
    let bad := us.flatMap fun (u : List Nat × Plan) => match u.2 with
      | .error r => u.1.map fun j => (j, r)
      | .ok _ => []
    match bad with
    | _ :: _ => s.trapAt k ex bad
    | [] => .ok (us.foldl (fun (s : State) (u : List Nat × Plan) => match u.2 with
        | .ok (some (op, todo, sync)) => s.startCmd k (guardOf w) u.1 op todo sync
        | _ => s) s)) s
/-- One command for each executing thread. -/
def eachThread (_ : State) (_ : Iss) (ex : List Nat) : List (List Nat) := ex.map fun i => [i]
/-- One command for each home warp. -/
def eachWarp (s : State) (k : Iss) (ex : List Nat) : List (List Nat) :=
  (s.warpsOf k.team ex).map fun v => s.ofWarp k.team v ex

/-! ### CPY, CPYG, CPYS (R196) -/

/-- The sync word's offset that CPY, CPYG and CPYS name. -/
def State.cpySync (s : State) (w : FX) (t i : Nat) : Option Nat := if w.sw then some (s.opnd t i w.swreg 1) else none

/-- The checks that the copies share, in the order of R195. -/
def State.copyPlan (s : State) (t i : Nat) (long : Bool) (ranges : List (Nat × Nat × Nat)) (cross : Bool)
    (sync : Option Nat) (own : Bool) (go : Option (CmdOp × List Nat × Option Nat)) : Plan :=
  if long then .error { code := fCpylen }
  else match s.rangeFaults t (s.privileged t i) ranges with
    | some (c, a) => .error { code := c, addr := a }
    | none =>
      if cross then .error { code := fCpyovl }
      else if s.syncBad t sync ∨ (sync.isSome ∧ ¬ own) then .error { code := fSwfmt }
      else .ok go

def execCpy (w : FX) (s : State) : Host.Outcome State Fault Refusal :=
  engineWord (.cpy w) w eachThread (fun s k u =>
    let t := k.team
    let i := u.headD 0
    let src := s.opnd t i w.sa 2
    let dst := s.opnd t i w.dst 2
    let n := s.opnd t i w.sb 1
    let sync := s.cpySync w t i
    s.copyPlan t i (65536 < n) [(src, n, 1), (dst, n, 1)] (meets src n dst n) sync (s.inOwn t dst n)
      (if n = 0 then none else some (.cpy dst src n, blocks dst n, sync))) s

/-- The quad of CPYG and CPYS: index array, count, width, and whether its length or reserved bits are refused. -/
def quadOf (q : Nat) : Nat × Nat × Nat × Bool :=
  let n := bits q 95 64
  let w := 2 ^ bits q 98 96
  (q % 2 ^ 64, n, w, decide (4096 < n) || decide (65536 < n * w) || bits q 127 99 != 0)

def execCpyg (w : FX) (s : State) : Host.Outcome State Fault Refusal :=
  engineWord (.cpyg w) w eachThread (fun s k u =>
    let t := k.team
    let i := u.headD 0
    let src := s.opnd t i w.sa 2
    let dst := s.opnd t i w.dst 2
    let (idx, n, e, long) := quadOf (s.opnd t i w.sb 4)
    let sync := s.cpySync w t i
    s.copyPlan t i long [(dst, n * e, 1), (idx, 4 * n, 1)] false sync (s.inOwn t dst (n * e))
      (some (.cpyg dst src idx n e none, blocks dst (n * e), sync))) s

/-- CPYS. Where its elements land is known when the index array has been read; the destination base must lie in the
team's own window for a sync word. -/
def execCpys (w : FX) (s : State) : Host.Outcome State Fault Refusal :=
  engineWord (.cpys w) w eachThread (fun s k u =>
    let t := k.team
    let i := u.headD 0
    let src := s.opnd t i w.sa 2
    let dst := s.opnd t i w.dst 2
    let (idx, n, e, long) := quadOf (s.opnd t i w.sb 4)
    let sync := s.cpySync w t i
    s.copyPlan t i long [(src, n * e, 1), (idx, 4 * n, 1)] false sync (s.inOwn t dst (if n = 0 then 0 else 1))
      (some (.cpys dst src idx n e none, [], sync))) s

/-! ### CPYT (R197) -/

/-- The coordinates of element e of row r; none where DIM1 is taken as 1 and the row is not the first. -/
def tileCoords (h : BitVec 1024) (org : List Int) (r e : Nat) : Option (List Int) :=
  if shpRank h ≤ 1 ∧ r ≠ 0 then none
  else some ((org.take (shpRank h)).zipIdx.map fun o => o.1 + (if o.2 = 0 then (e : Int) else if o.2 = 1 then (r : Int) else 0))
/-- The address of an element of a tile; none out of bounds. -/
def tileAddr (h : BitVec 1024) (org : List Int) (r e : Nat) : Option Int :=
  match tileCoords h org r e with
  | some cs => if inBounds h cs then some (elemAddr h cs) else none
  | none => none
/-- The elements of a tile, row by row. -/
def tileElems (m n : Nat) : List (Nat × Nat) := (List.range m).flatMap fun r => (List.range n).map fun e => (r, e)

/-- What CPYT does at issue for the threads u of a home warp: checks 1 to 5 on each element of the tensor, the scratchpad
range, then the sync word. DESIGN CHOICE, log entry 57: a scratchpad offset that is not a multiple of 128 raises MISALIGN and a
tile that passes SCRATCH raises SPRANGE, since R197 names the checks without their faults; and a vector register that holds the sync word's offset is read in the
lowest executing thread, since the command acts once for its home warp. -/
def State.cpytPlan (s : State) (w : FX) (t : Nat) (u : List Nat) : Plan :=
  let i := u.headD 0
  let v := (s.team t).warpOf i
  let h := (s.warp t v).regs.shape
  let wd := 2 ^ shpEsz h
  let org := (List.range (shpRank h)).map fun j => sext (s.opnd t i (w.sa + BitVec.ofNat 8 j) 1) 32
  let d := s.opnd t i w.dst 1
  let m := vcntM (s.warp t v).regs.vcnt
  let n := min (bits (s.warp t v).regs.vcnt.toNat 15 8) (128 / wd)
  let sync := if w.tsw then some (s.opnd t i w.tswreg 1) else none
  let addrs := (tileElems m n).filterMap fun x => tileAddr h org x.1 x.2
  let bad := addrs.findSome? fun a =>
    if a < 0 ∨ (2 ^ 64 : Int) ≤ a then some (fAddrwrap, ibits a 64)
    else s.rangeFault t (s.privileged t i) a.toNat wd wd
  match bad with
  | some (c, a) => .error { code := c, addr := a }
  | none =>
    let room := (s.team t).scratch * 1024
    if d % 128 ≠ 0 then .error { code := fMisalign, addr := d }
    else if room < d + 128 * m then .error { code := fSprange, addr := max d room }
    else if s.syncBad t sync ∨ (sync.isSome ∧ w.dirOut ∧ ¬ addrs.all fun a => s.inOwn t a.toNat wd) then
      .error { code := fSwfmt }
    else .ok (some (.cpyt w.dirOut d org m n h, if m = 0 then [] else if w.dirOut then [0] else List.range m, sync))
def execCpyt (w : FX) (s : State) : Host.Outcome State Fault Refusal :=
  engineWord (.cpyt w) w eachWarp (fun s k u => s.cpytPlan w k.team u) s

/-! ### WALK (R198, R199) -/

def execWalk (w : FX) (s : State) : Host.Outcome State Fault Refusal :=
  engineWord (.walk w) w eachThread (fun s k u =>
    let t := k.team
    let i := u.headD 0
    let a := s.opnd t i w.sa 2
    match checks14 (s.privileged t i) a 32 32 with
    | some (c, x) => .error { code := c, addr := x }
    | none => .ok (some (.walk a [] 0 0, [], none))) s

/-! ### Transfers (R195, R160) -/

/-- Note a fault of a command: the one at the lowest address stays. -/
def Cmd.note (c : Cmd) (f : Option (Nat × Nat × Bool)) : Cmd :=
  match f, c.fault with
  | some (code, a, b), some (_, a0, _) => if a < a0 then { c with fault := some (code, a, b) } else c
  | some f, none => { c with fault := some f }
  | none, _ => c
/-- Put a command back into the list. -/
def State.setCmd (s : State) (c : Cmd) : State := { s with cmds := s.cmds.map fun x => if x.id = c.id then c else x }
/-- A command's piece is done: with the last one the command ends, and one of the sequencer leaves it. -/
def State.pieceDone (s : State) (c : Cmd) (piece : Nat) : State :=
  let c := { c with todo := c.todo.filter (· != piece) }
  if ¬ c.todo.isEmpty then s.setCmd c
  else
    let m := s.team c.team
    let s := match c.op with
      | .acld _ _ _ _ _ | .acst _ _ _ _ _ _ _ _ =>
        let s := s.modSeq m.core m.part fun l => l.filter fun q => q.op != SeqOp.acld c.id && q.op != SeqOp.acst c.id
        s.seqAdvance m.core m.part (s.seqOf m.core m.part).length
      | _ => s
    (s.setCmd c).finishCmd c

/-- Probe one byte for a command, with the rights that it was issued with. -/
def State.probeByte (s : State) (t : Nat) (priv : Bool) (a : Int) (store : Bool) : State × Probe :=
  if a < 0 ∨ (2 ^ 64 : Int) ≤ a then (s, .fault fAddrwrap (ibits a 64) false)
  else match checks14 priv a.toNat 1 1 with
    | some (c, x) => (s, .fault c x false)
    | none => s.checks59 t priv a.toNat 1 { write := store } (fun _ => true)
/-- Probe bytes in turn; `none` needs no probe. -/
def State.probeBytes (s : State) (t : Nat) (priv store : Bool) : List (Option Int) → State × List (Option Probe)
  | [] => (s, [])
  | none :: r =>
    let (s, ps) := s.probeBytes t priv store r
    (s, none :: ps)
  | some a :: r =>
    let (s, p) := s.probeByte t priv a store
    let (s, ps) := s.probeBytes t priv store r
    (s, some p :: ps)

/-- How the probes of a piece end: it waits, or it is moved as far as it translates. -/
inductive Moved where
  | waits (s : State)
  | moved (s : State) (c : Cmd)

/-- The places that probes found. -/
def probePlaces (ps : List Probe) : List Loc := ps.filterMap fun p => match p with | .ok l _ => some l | _ => none
/-- Wait for absent pages, for a team that is not there, or for what the command reads on other chips: it is requested (R335). -/
def State.engineWaits (s : State) (c : Cmd) (write : Bool) (ps : List Probe) : Option State :=
  match absentPages ps with
  | k :: ks => some (s.requests c.team (k :: ks) write)
  | [] => if ps.any fun p => match p with | .remote _ => true | _ => false then some s
    else match s.farNeeds c.id (if write then [] else (probePlaces ps).filter fun l => c.units.all fun u => u.1 != l) with
      | k :: ks => some (s.requests c.team (k :: ks) false)
      | [] => none

/-- The first place of the 8-byte unit of a place. -/
def Loc.unit : Loc → Loc
  | .mem a => .mem (a - a % 8)
  | .host p a => .host p (a - a % 8)
  | .peer a => .peer (a - a % 8)
  | .pad t a => .pad t (a - a % 8)
  | .away t a => .away t (a - a % 8)
/-- A byte that a command reads, and its poison: as it was when the command read its unit (R161), or as it is now. -/
def State.cmdByte (s : State) (core : Nat) (c : Cmd) (l : Loc) : Byte × Bool :=
  match c.units.find? fun u => u.1 == l with
  | some u => u.2
  | none => (s.engineLoc core c.id l, s.enginePoison core c.id l)
/-- The units that a piece reads in part are read whole, and the command keeps them for its other pieces (R161). -/
def State.keepUnits (s : State) (core : Nat) (c : Cmd) (ls : List Loc) : Cmd :=
  let parts := ((ls.map Loc.unit).eraseDups).filter fun u =>
    c.units.all (fun e => e.1 != u) && (List.range 8).any fun k => !ls.contains (u.add k)
  { c with units := c.units ++ parts.flatMap fun u => (List.range 8).map fun k => (u.add k, s.cmdByte core c (u.add k)) }
/-- Whether a place follows another in its 8-byte unit. -/
def Loc.joins (a b : Loc) (n : Nat) : Bool := a.add n == b && match b with | .mem x | .host _ x | .peer x | .pad _ x => x % 8 != 0 | .away _ _ => false
/-- Bytes that lie side by side in a unit are written as one step (R161): the places of runs, their bytes, and whether
they carry poison. -/
def unitPuts : List (Loc × Byte × Bool) → List (Loc × List Byte × Bool)
  | [] => []
  | (l, b, bad) :: r => match unitPuts r with
    | (m, bs, bad') :: ps => if l.joins m 1 then (l, b :: bs, bad || bad') :: ps else (l, [b], bad) :: (m, bs, bad') :: ps
    | [] => [(l, [b], bad)]
/-- A command writes bytes at places; what it sends to a peer is its own until acknowledged (R160, R314). -/
def State.cmdPut (s : State) (c : Cmd) (l : List (Loc × Byte × Bool)) : State :=
  (unitPuts l).foldl (fun (s : State) (u : Loc × List Byte × Bool) =>
    s.writeLoc { team := c.team, tidx := c.lead, cmd := c.id } u.1 u.2.1 u.2.2) s

/-- Move bytes: each goes to an address from an address, or is a zero. All sources are read before anything is written, each
unit once; a byte whose source or destination fails stays as it is, and poison travels with a byte (R314), as does that of the
index that named it, of which a test of the destination tells. -/
def State.moveBytes (s : State) (c : Cmd) (taint : Int → Bool) (ms : List (Int × Option Int)) : Moved :=
  let (s, ps) := s.probeBytes c.team c.priv false (ms.map Prod.snd)
  let (s, qs) := s.probeBytes c.team c.priv true (ms.map fun m => some m.1)
  let src := ps.filterMap id
  let dst := qs.filterMap id
  match s.engineWaits c false src with
  | some s => .waits s
  | none => match s.engineWaits c true dst with
    | some s => .waits s
    | none =>
      let core := (s.team c.team).core
      let ls := probePlaces src
      let s := s.unmixAll core ls
      let c := s.keepUnits core c ls
      let vals : List (Option (Loc × Byte × Bool)) := ((ms.map Prod.fst).zip (ps.zip qs)).map
        fun (e : Int × Option Probe × Option Probe) => match e with
        | (_, none, some (.ok d _)) => some (d, 0, false)
        | (a, some (.ok l _), some (.ok d _)) => let b := s.cmdByte core c l; some (d, b.1, b.2 || taint a)
        | _ => none
      .moved ((s.cmdPut c (vals.filterMap id)).farDrop 1 c.id) (c.note (lowFault (src ++ dst)))

/-- Count bytes of a command at its sync word, at most 128 at a time (R159). With its last bytes its fault becomes pending,
before the step that counts them: an SWWAIT that sees that step reports it (R192). -/
def State.count (s : State) (c : Cmd) (n : Nat) (final : Bool) : State × Cmd :=
  match c.sync with
  | none => (s, c)
  | some off =>
    let adds := List.replicate (n / 128) 128 ++ (if n % 128 = 0 then [] else [n % 128])
    let s := adds.dropLast.foldl (fun (s : State) (k : Nat) => s.syncAdd c.team off k) s
    match adds.getLast? with
    | none => (s, c)
    | some k => if final then ((s.blame c).syncAdd c.team off k, { c with fault := none }) else (s.syncAdd c.team off k, c)

/-- Bytes of a range that lie in an aligned 128-byte block. -/
def inBlock (a n b : Nat) : List Nat := ((List.range 128).map (128 * b + ·)).filter fun x => a ≤ x && x < a + n

/-- 32-bit words as read, each with its poison: one that cannot be read is none (R196). -/
def readIndex (s : State) (core who : Nat) : Nat → List (Option Probe) → List (Option (Nat × Bool))
  | 0, _ => []
  | k + 1, ps =>
    let here := (ps.take 4).map fun p => match p with
      | some (.ok l _) => some (s.engineLoc core who l, s.enginePoison core who l)
      | _ => none
    let w := here.filterMap id
    (if here.all Option.isSome then some (leValue (w.map Prod.fst), w.any Prod.snd) else none) ::
      readIndex s core who k (ps.drop 4)

/-- Read the index array of CPYG or CPYS, as part of the command. -/
def State.loadIndex (s : State) (c : Cmd) (idx n : Nat) : State × Option (Cmd × List (Option (Nat × Bool))) :=
  let (s, ps) := s.probeBytes c.team c.priv false ((List.range (4 * n)).map fun j => some ((idx + j : Nat) : Int))
  let all := ps.filterMap id
  match s.engineWaits c false all with
  | some s => (s, none)
  | none =>
    let core := (s.team c.team).core
    let s := s.unmixAll core (probePlaces all)
    (s.farDrop 1 c.id, some (c.note (lowFault all), readIndex s core c.id n ps))

/-- The element that CPYS leaves at an address: the highest that names it. -/
def scatterAt (dst e : Nat) (index : List (Option (Nat × Bool))) (a : Nat) : Option Nat :=
  if a < dst then none
  else (index.zipIdx.filter fun x => x.1.map Prod.fst == some ((a - dst) / e)).getLast?.map Prod.snd
/-- Whether an index is poisoned. -/
def indexBad (index : List (Option (Nat × Bool))) (k : Nat) : Bool := match index.getD k none with | some x => x.2 | none => false

/-- The blocks that CPYS touches. -/
def scatterBlocks (dst e : Nat) (index : List (Option (Nat × Bool))) : List Nat :=
  nsort ((index.flatMap fun x => match x with
    | some k => blocks (dst + k.1 * e) e
    | none => []).eraseDups)

/-- The bytes that a tile moves. -/
def tileMoves (own : Nat) (out : Bool) (off : Nat) (org : List Int) (rows : List Nat) (n : Nat) (h : BitVec 1024) :
    List (Int × Option Int) × Nat × Bool :=
  let wd := 2 ^ shpEsz h
  let es := rows.flatMap fun r => (List.range n).map fun e => (r, e)
  let one := fun (x : Nat × Nat) =>
    let pad : Int := (own + off + 128 * x.1 + x.2 * wd : Nat)
    (List.range wd).filterMap fun (n : Nat) =>
      let j : Int := n
      match tileAddr h org x.1 x.2 with
      | some a => if out then some (a + j, some (pad + j)) else some (pad + j, some (a + j))
      | none => if out ∨ shpClip h = 1 then none else some (pad + j, none)
  let outside := es.filter fun x => (tileAddr h org x.1 x.2).isNone
  let silent := if out ∧ shpClip h ≠ 1 then outside.length else 0
  (es.flatMap one, (es.length - silent) * wd, shpClip h == 1 && !outside.isEmpty)

/-- The banks of an engine move whose turn it is: no earlier command stands before it on them (R129). Those that its gang
has spilled come back first, where no other gang stands in their place (R138). -/
def State.seqTurn (s : State) (core part : Nat) (op : SeqOp) (bank n : Nat) : Option State :=
  match (s.seqOf core part).find? fun q => q.op == op with
  | some q => if (s.seqBefore core part q.gang (some q.id) bank n).isEmpty then s.bring core part q.gang (range bank n) else none
  | none => none

/-- Move a piece of a command. A command with nothing to move ends. -/
def State.transfer (s : State) (c : Cmd) (piece : Nat) : State :=
  let t := c.team
  let m := s.team t
  let run := fun (s : State) (taint : Int → Bool) (ms : List (Int × Option Int)) (n : Nat) (extra : Option (Nat × Nat × Bool)) =>
    match s.moveBytes c taint ms with
    | .waits s => s
    | .moved s c =>
      let (s, c) := s.count (c.note extra) n (c.todo.all (· == piece))
      (s.setCmd c).pieceDone c piece
  match c.op with
  | .cpy dst src n =>
    if ¬ c.todo.contains piece then s
    else
      let ds := inBlock dst n piece
      run s (fun _ => false) (ds.map fun (d : Nat) => ((d : Int), some ((src + (d - dst) : Nat) : Int))) ds.length none
  | .cpyg dst src idx n e none =>
    (match s.loadIndex c idx n with
     | (s, none) => s
     | (s, some (c, l)) =>
       let c := { c with op := .cpyg dst src idx n e (some l) }
       if c.todo.isEmpty then (s.setCmd c).finishCmd c else s.setCmd c)
  | .cpyg dst src _ n e (some l) =>
    if ¬ c.todo.contains piece then s
    else
      let ds := inBlock dst (n * e) piece
      let ms := ds.filterMap fun (d : Nat) => (l.getD ((d - dst) / e) none).map fun k =>
        ((d : Int), some ((src + k.1 * e + (d - dst) % e : Nat) : Int))
      run s (fun a => indexBad l ((a.toNat - dst) / e)) ms ds.length none
  | .cpys dst src idx n e none =>
    (match s.loadIndex c idx n with
     | (s, none) => s
     | (s, some (c, l)) =>
       let c := { c with op := .cpys dst src idx n e (some l), todo := scatterBlocks dst e l }
       let counted := n * e - ((c.todo.flatMap fun b => (inBlock 0 (128 * (b + 1)) b).filter fun a =>
         (scatterAt dst e l a).isSome).length)
       let (s, c) := s.count c counted c.todo.isEmpty
       if c.todo.isEmpty then (s.setCmd c).finishCmd c else s.setCmd c)
  | .cpys dst src _ _ e (some l) =>
    if ¬ c.todo.contains piece then s
    else
      let ds := (inBlock 0 (128 * (piece + 1)) piece).filterMap fun a => (scatterAt dst e l a).map fun k => (a, k)
      run s (fun a => ds.any fun d => (d.1 : Int) == a && indexBad l d.2) (ds.map fun (d : Nat × Nat) => ((d.1 : Int), some ((src + d.2 * e + (d.1 - dst) % e : Nat) : Int))) ds.length none
  | .cpyt out off org rows n h =>
    if c.todo.isEmpty then s.finishCmd c
    else if ¬ c.todo.contains piece then s
    else
      let own := (s.ctxOf t).spwbase + m.rank * 0x80000
      let (ms, count, clip) := tileMoves own out off org (if out then List.range rows else [piece]) n h
      run s (fun _ => false) ms count (if clip then some (fTclip, 0, false) else none)
  | .acld src bank n core part =>
    match s.seqTurn core part (.acld c.id) bank n with
    | none => s
    | some s =>
    if c.todo.isEmpty then s.pieceDone c piece
    else if ¬ c.todo.contains piece then s
    else
      let (s, ps) := s.probeBytes t c.priv false ((List.range 128).map fun j => some ((src + 128 * piece + j : Nat) : Int))
      let all := ps.filterMap id
      let ls := probePlaces all
      (match s.engineWaits c false all, ls.find? fun l => s.enginePoison core c.id l with
       | some s, _ => s
       | none, some l => s.consume core l
       | none, none =>
         let s := s.unmixAll core ls
         let ws := readIndex s core c.id 32 ps
         let put := fun (s : State) (x : Option (Nat × Bool) × Nat) => match x.1 with
           | some v => s.setAcc core part bank (32 * piece + x.2) (BitVec.ofNat 32 v.1)
           | none => s
         let c := c.note (lowFault all)
         (((ws.zipIdx.foldl put s).farDrop 1 c.id).setCmd c).pieceDone c piece)
  | .acst bank rows vn addr stride fmt core part =>
    match s.seqTurn core part (.acst c.id) bank 4 with
    | none => s
    | some s =>
    if c.todo.isEmpty ∧ rows = 0 then s.pieceDone c piece
    else if ¬ c.todo.contains piece then s
    else
      let bytes := s.acstRow core part bank vn fmt piece
      let (s, ps) := s.probeBytes t c.priv true ((List.range bytes.length).map fun j =>
        some ((addr + piece * stride + j : Nat) : Int))
      let all := ps.filterMap id
      (match s.engineWaits c true all with
       | some s => s
       | none =>
         let put := (all.zip bytes).filterMap fun (x : Probe × Byte) => match x.1 with
           | .ok l _ => some (l, x.2, false)
           | _ => none
         let c := c.note (lowFault all)
         ((s.cmdPut c put).setCmd c).pieceDone c piece)
  | _ => s

/-! ### Walk hops (R198 to R200, R271) -/

/-- The physical address of n bytes in a context's walk windows: none outside them, or where a write is not allowed. -/
def Ctx.walkPa (x : Ctx) (va n : Nat) (write : Bool) : Option Nat :=
  (x.windows.find? fun w => decide (w.1 ≤ va) && decide (va + n - 1 ≤ w.2.1)).bind fun w =>
    if write ∧ ¬ w.2.2.2 then none else some (w.2.2.1 + (va - w.1))

/-- How a hop ends. -/
inductive Hop where
  | on (s : State) (cur : Nat)
  | over_ (s : State)
  | bad (addr : Nat)
  | poison (l : Loc)

/-- Read n bytes for a walk, at the home (R200). -/
def State.walkRead (s : State) (t va n : Nat) : Except Hop Nat :=
  match (s.ctxOf t).walkPa va n false with
  | none => .error (.bad (va % 2 ^ 64))
  | some pa => if s.poisoned (.mem pa) n then .error (.poison (.mem pa)) else .ok (leValue (s.mem.readN pa n))
/-- Write an entry of a walk. -/
def State.walkWrite (s : State) (t va : Nat) (bytes : List Byte) : Option State :=
  ((s.ctxOf t).walkPa va bytes.length true).map fun pa => s.homeWrite pa bytes

/-- The fields of a walk descriptor. -/
def walkMode (d : List Nat) : Nat := bits (d.getD 3 0) 33 32
def walkHops (d : List Nat) : Nat := bits (d.getD 3 0) 41 36 + 1
def walkSeed (d : List Nat) : Nat := bits (d.getD 3 0) 63 48
def walkNode (d : List Nat) : Nat := bits (d.getD 3 0) 31 0
/-- Whether a descriptor is a walk fault (R198). -/
def walkBad (d : List Nat) : Bool :=
  let d3 := d.getD 3 0
  decide (1 < walkMode d) || bits d3 47 42 != 0 || bits d3 35 34 != 0 ||
  (if walkMode d = 0 then
     d.getD 0 0 % 8 != 0 || d.getD 1 0 % 32 != 0 || d.getD 2 0 != 0 || walkSeed d != 0 ||
       bits (walkNode d) 31 5 != 0 || bits (walkNode d) 2 0 != 0
   else d.getD 0 0 % 4 != 0 || d.getD 1 0 % 4 != 0 || d.getD 2 0 % 4 != 0)

/-- Hop h of a CSR walk from a node. -/
def State.csrHop (s : State) (t : Nat) (d : List Nat) (h u : Nat) : Except Hop Hop := do
  let a ← s.walkRead t (d.getD 1 0 + 4 * u) 4
  let b ← s.walkRead t (d.getD 1 0 + 4 * (u + 1)) 4
  let deg := (b + 2 ^ 32 - a) % 2 ^ 32
  let out := d.getD 0 0 + 4 * h
  if deg = 0 then
    match s.walkWrite t out (leBytes 4 0xFFFFFFFF) with
    | some s => return .over_ s
    | none => return .bad (out % 2 ^ 64)
  else
    let x := (walkSeed d * 40503 + h * 12829 + u * 6991) % 65536
    let v ← s.walkRead t (d.getD 2 0 + 4 * (a + x / 256 % deg)) 4
    match s.walkWrite t out (leBytes 4 v) with
    | some s => return .on s v
    | none => return .bad (out % 2 ^ 64)
/-- Hop h of a CHAIN walk from a pointer. -/
def State.chainHop (s : State) (t : Nat) (d : List Nat) (h p : Nat) : Except Hop Hop := do
  let v ← s.walkRead t (p + 8 * bits (walkNode d) 4 3) 8
  let out := d.getD 0 0 + 8 * h
  if v % 32 ≠ 0 then return .bad v
  else match s.walkWrite t out (leBytes 8 v) with
    | some s => return (if v = 0 then .over_ s else .on s v)
    | none => return .bad (out % 2 ^ 64)

/-- The descriptor of a walk: its four words. -/
def State.walkDesc (s : State) (t a : Nat) : Except Hop (List Nat) := do
  let w0 ← s.walkRead t a 8
  let w1 ← s.walkRead t (a + 8) 8
  let w2 ← s.walkRead t (a + 16) 8
  let w3 ← s.walkRead t (a + 24) 8
  return [w0, w1, w2, w3]

/-- The walks that began before one and are not held: 48 engines have 64 hops each in flight (R3). -/
def State.walksAhead (s : State) (c : Cmd) : Nat :=
  (s.cmds.filter fun d => d.op.engine == 1 && decide (d.id < c.id) && (s.heldBy d).isEmpty).length
/-- One hop of a walk. The first reads the descriptor. It reads after the thread's own stores have registered: those of
others that happen before its issue have (R167, R200). -/
def State.hop (s : State) (c : Cmd) : State :=
  if 3072 ≤ s.walksAhead c then s else
  match c.op with
  | .walk desc ws h cur =>
    let t := c.team
    let s := s.settleThread t c.lead
    let stop := fun (s : State) (f : Option (Nat × Nat × Bool)) =>
      let c := { c with fault := f }
      (s.setCmd c).finishCmd c
    let fin := fun (d : List Nat) (r : Except Hop Hop) =>
      match (match r with | .ok x => x | .error x => x) with
      | .on s v => if walkHops d ≤ h + 1 then stop s none else s.setCmd { c with op := .walk desc d (h + 1) v }
      | .over_ s => stop s none
      | .bad a => stop s (some (fWalk, a, false))
      | .poison l => s.consume (s.team t).core l
    let go := fun (d : List Nat) (v : Nat) => fin d (if walkMode d = 1 then s.csrHop t d h v else s.chainHop t d h v)
    (match ws with
     | _ :: _ => go ws cur
     | [] => match s.walkDesc t desc with
       | .error x => fin [] (.error x)
       | .ok d => if walkBad d then stop s (some (fWalk, desc, false))
         else go d (if walkMode d = 1 then walkNode d else d.getD 1 0))
  | _ => s

end Sys2Proof.Machine
end

