-- ==== Sys2Proof/Machine/Collectives.lean ====
section
/-! DEFINITION. Data collectives and CBAR (R99, R340 to R344): their checks and start at a member, the canonical tree, and
the writing of a chunk. -/

namespace Sys2Proof.Machine

open Sys2Proof

/-! ### The canonical tree (R99) -/

/-- Combine two values at a node; f16 and bf16 sums are in f32. ROP 0 adds, 1 and 2 are minimum and maximum. -/
def combine2 (ty : BitVec 4) (rop : BitVec 2) (a b : Nat) : Nat :=
  if tyFloat ty then
    if rop = 0 then fm32.add 0 false a b else (fmOf ty).minmax (rop == 2) false a b
  else
    let n := tyBits ty
    let le := if tySigned ty then decide (sext a n ≤ sext b n) else decide (a ≤ b)
    if rop = 0 then (a + b) % 2 ^ n else if rop = 1 then (if le then a else b) else (if le then b else a)
/-- A value entering the tree, and the result leaving it. -/
def treeIn (ty : BitVec 4) (rop : BitVec 2) (v : Nat) : Nat :=
  if tyFloat ty ∧ ty ≠ f32 ∧ rop = 0 then cvtFloat (fmOf ty) fm32 0 false v else v
def treeOut (ty : BitVec 4) (rop : BitVec 2) (v : Nat) : Nat :=
  if tyFloat ty ∧ ty ≠ f32 ∧ rop = 0 then cvtFloat fm32 (fmOf ty) 0 false v else v
/-- The node of a level from rank lo: ranks that are absent have no leaf. -/
def treeNode (f : Nat → Nat → Nat) : Nat → Nat → List (Nat × Nat) → Option Nat
  | 0, lo, vs => (vs.find? fun v => v.1 == lo).map Prod.snd
  | l + 1, lo, vs =>
    match vs with
    | [] => none
    | _ =>
      let mid := lo + 2 ^ l
      match treeNode f l lo (vs.filter fun v => decide (v.1 < mid)), treeNode f l mid (vs.filter fun v => decide (mid ≤ v.1)) with
      | some a, some b => some (f a b)
      | some a, none => some a
      | none, b => b
/-- T over the ranks that have a leaf. -/
def tree (ty : BitVec 4) (rop : BitVec 2) (vs : List (Nat × Nat)) : Option Nat :=
  (treeNode (combine2 ty rop) 20 0 (vs.map fun v => (v.1, treeIn ty rop v.2))).map (treeOut ty rop)

/-- Probe bytes for a command, with the pages that the driver has refused it (R276). -/
def State.probeAs (s : State) (c : Cmd) (store : Bool) (as : List (Option Int)) : State × List (Option Probe) :=
  let (s, ps) := ({ s with deny := c.deny } : State).probeBytes c.team c.priv store as
  ({ s with deny := [], hit := false }, ps)

/-! ### At issue (R341 to R343) -/

/-- The opcodes, as `CollOp` names them. -/
abbrev oCrdc : Nat := 6
abbrev oCalr : Nat := 7
abbrev oCrsc : Nat := 8
abbrev oCalg : Nat := 9
abbrev oCbcs : Nat := 10
abbrev oCbar : Nat := 11

/-- The record of a data collective: SRC, DST, COUNT, ROOT, and whether a reserved field is not zero. -/
def collRec (r : List Word) : Nat × Nat × Nat × Nat × Bool :=
  let w := fun k => (r.getD k 0).toNat
  (w 0 + w 1 * 2 ^ 32, w 2 + w 3 * 2 ^ 32, w 4, bits (w 5) 19 0, bits (w 5) 31 20 != 0 || w 6 != 0 || w 7 != 0)
/-- Bytes of the source and of the destination of an operation. -/
def srcLen (op nrank n w : Nat) : Nat := if op = oCrsc then nrank * n * w else n * w
def dstLen (op nrank n w : Nat) : Nat := if op = oCalg then nrank * n * w else n * w
/-- Bytes of an element. -/
def etBytes (ty : BitVec 4) : Nat := tyBits ty / 8

/-- The checks of a collective for one home warp. -/
def State.collCheck (s : State) (op : Nat) (w : FX) (t v lead : Nat) : Option Rep :=
  match s.member t v with
  | none => some { code := fCbrcomm }
  | some (c, _) =>
    if op = oCbar then none
    else
      let (src, dst, n, root, rsv) := collRec ((List.range 8).map fun j => (s.warp t v).regs.s.getD (w.sa.toNat - 0xC0 + j) 0)
      let e := etBytes w.etype
      let a := srcLen op c.nrank n e
      let b := dstLen op c.nrank n e
      if c.nrank ≤ root ∨ (root ≠ 0 ∧ op ≠ oCrdc ∧ op ≠ oCbcs) ∨ rsv ∨ c.slot = 15 then some { code := fCbrcomm }
      else if 2 ^ 30 < n * e ∨ ((op = oCalg ∨ op = oCrsc) ∧ 2 ^ 36 < c.nrank * n * e) then some { code := fCpylen }
      else if meets src a dst b ∧ ¬ (src = dst ∧ (op = oCalr ∨ op = oCbcs)) then some { code := fCpyovl }
      else if src % e ≠ 0 then some { code := fMisalign, addr := src }
      else if dst % e ≠ 0 then some { code := fMisalign, addr := dst }
      else (s.rangeFaults t (s.privileged t lead) [(src, a, e), (dst, b, e)]).map fun f => { code := f.1, addr := f.2 }

/-- Read the source of a member's operation, where it has not been read, with its poison (R314). An unreadable one gives no
leaf, and the fault is its command's (R343). -/
def State.readLeaf (s : State) (slot : Nat) (o : CollOp) : State :=
  match o.bytes, s.cmds.find? fun c => c.id == o.cmd, s.comm slot with
  | none, some c, some k =>
    let n := if o.sig.op = oCbcs ∧ o.rank ≠ o.sig.root then 0 else srcLen o.sig.op k.nrank o.sig.count (etBytes o.sig.ety)
    let (s, ps) := s.probeAs c false ((List.range n).map fun j => some ((o.src + j : Nat) : Int))
    let all := ps.filterMap id
    match s.engineWaits c false all with
    | some s => s
    | none =>
      let f := lowFault all
      let core := (s.team c.team).core
      let ls := probePlaces all
      let s := s.unmixAll core ls
      let got := if f.isSome then [] else ls.map fun l => (s.engineLoc core c.id l, s.enginePoison core c.id l)
      ((s.farDrop 1 c.id).setCmd (c.note f)).modComm slot fun x => { x with ops := x.ops.map fun y =>
        if y = o then { y with bytes := some got } else y }
  | _, _, _ => s

/-- Whether every rank of this chip has issued operation k, or has withdrawn. -/
def Comm.localReady (c : Comm) (k : Nat) : Bool :=
  (List.range c.rcnt).all fun j =>
    c.ops.any (fun o => o.rank == c.rbase + j && o.k == k) || c.ranks.any fun r => r.rank == c.rbase + j && r.gone.isSome
/-- Whether a rank of another chip is known to have withdrawn: its chip tells the others. -/
def Comm.knownGone (c : Comm) (r : Nat) : Bool :=
  c.agree.any fun a => a.parts.any fun p => p.2.2.2.1.isNone && decide (p.1 ≤ r) && decide (r < p.2.1)
/-- Whether every rank of another chip is known to have issued its operation k, or has withdrawn. -/
def Comm.remoteBars (c : Comm) (k : Nat) : Bool :=
  (List.range c.nrank).all fun r => (decide (c.rbase ≤ r) && decide (r < c.rbase + c.rcnt)) ||
    (c.cbars.any fun b => b.1 == k && b.2.1 == r) || c.knownGone r

/-- A member's part of an operation is over: its command ends. The operation leaves this chip with its last member's part,
whose leaf the others may still need (R343); it is remembered while other ranks may still issue another one (R341). -/
def State.endOp (s : State) (slot : Nat) (o : CollOp) : State :=
  let s := s.modComm slot fun c =>
    let ops := c.ops.map fun y => if y.rank = o.rank ∧ y.k = o.k then { y with ended := true } else y
    if (ops.filter fun y => y.k == o.k).all CollOp.ended then
      let c := { c with ops := ops.filter fun y => y.k != o.k }
      if c.remoteBars o.k then { c with cbars := c.cbars.filter fun b => b.1 != o.k } else { c with past := c.past ++ [(o.k, o.sig)] }
    else { c with ops }
  match s.cmds.find? fun c => c.id == o.cmd with
  | some c => s.finishCmd c
  | none => s
/-- Whether an operation moves no data: CBAR, or a collective of no elements. -/
def CollOp.bare (o : CollOp) : Bool := o.sig.op == oCbar || o.sig.count == 0
/-- Operation k, which moves no data, completes in every member of this chip once every rank has issued it. -/
def State.barTry (s : State) (slot k : Nat) : State :=
  match s.comm slot with
  | none => s
  | some c =>
    let here := c.ops.filter fun o => o.k == k
    if here.all CollOp.bare && c.localReady k && c.remoteBars k then
      here.foldl (fun (s : State) (o : CollOp) => s.endOp slot o) s
    else s

/-- Start a member's operation: it is bound to its rank, counted, matched with those that this chip knows of, and joins the
batches of its threads; the other chips are told of it (R341). -/
def State.collStart (s : State) (k : Iss) (op : Nat) (w : FX) (v : Nat) (here : List Nat) : State :=
  let t := k.team
  match s.member t v with
  | none => s
  | some (c, r) =>
    let s := s.bindRank c.slot r t v
    let n := (s.warp t v).colls
    let s := s.modWarp t v fun x => { x with colls := x.colls + 1 }
    let id := s.nextId
    let (src, dst, count, root, _) := if op = oCbar then (0, 0, 0, 0, false)
      else collRec ((List.range 8).map fun j => (s.warp t v).regs.s.getD (w.sa.toNat - 0xC0 + j) 0)
    let len := if op = oCbar then 0 else srcLen op c.nrank count (etBytes w.etype)
    let s := s.startCmd k none here (.coll c.slot n r) (List.range ((len + 65535) / 65536)) none
    let sig : OpSig := { op, ety := w.etype, rop := w.rop, count, root }
    let o : CollOp := { rank := r, k := n, sig, src, dst, cmd := id, bytes := none, aged := false, told := [], ended := false }
    let s := s.modComm c.slot fun x => { x with ops := x.ops ++ [o] }
    if (c.ops.any fun x => x.k == n && x.sig != sig) || (c.cbars.any fun b => b.1 == n && b.2.2 != sig) then s.failComm c.slot
    else
      let s := (c.others s.mgmt.chip).foldl (fun (s : State) (chip : Nat) => s.sendTo_ c.slot chip (.cbar c.ftag n r sig chip)) s
      if o.bare then s.barTry c.slot n else s.readLeaf c.slot o

/-- A collective, once for each home warp. -/
def collective (i : Instr) (op : Nat) (w : FX) (s : State) : Host.Outcome State Fault Refusal :=
  word i w.c goOn (fun s k ex =>
    let t := k.team
    let ws := s.warpsOf t ex
    let fails := fun (v : Nat) => s.collCheck op w t v ((s.ofWarp t v ex).headD 0)
    let pass := ws.filter fun v => (fails v).isNone
    let bad := ws.flatMap fun v =>
      let here := s.ofWarp t v ex
      match fails v with
      | some r => here.map fun i => (i, r)
      | none => if s.rival t pass v then here.map fun i => (i, { code := fCbrcomm }) else []
    match bad with
    | _ :: _ => s.trapAt k ex bad
    | [] => s.releasing t ex fun s => .ok ((s.warpsOf t ex).foldl (fun (s : State) (v : Nat) =>
        s.collStart k op w v (s.ofWarp t v ex)) s)) s

def execCrdc (w : FX) (s : State) : Host.Outcome State Fault Refusal := collective (.crdc w) oCrdc w s
def execCalr (w : FX) (s : State) : Host.Outcome State Fault Refusal := collective (.calr w) oCalr w s
def execCrsc (w : FX) (s : State) : Host.Outcome State Fault Refusal := collective (.crsc w) oCrsc w s
def execCalg (w : FX) (s : State) : Host.Outcome State Fault Refusal := collective (.calg w) oCalg w s
def execCbcs (w : FX) (s : State) : Host.Outcome State Fault Refusal := collective (.cbcs w) oCbcs w s
def execCbar (w : FX) (s : State) : Host.Outcome State Fault Refusal := collective (.cbar w) oCbar w s

/-! ### A chunk (R343, R344) -/

/-- Elements of a slice of bytes. -/
def elemsOf (w : Nat) : Nat → List Byte → List Nat
  | 0, _ => []
  | n + 1, l => if l.length < w then [] else leValue (l.take w) :: elemsOf w n (l.drop w)

/-- A rank's part of a chunk: its bytes, each with its poison. -/
abbrev Leaf := Nat × List (Byte × Bool)
/-- The reduction of a chunk, with the poison of the elements that go into it (R99, R314). -/
def reduceLeaves (g : OpSig) (leaves : List Leaf) : List (Byte × Bool) :=
  let e := etBytes g.ety
  let cols := leaves.map fun l => (l.1, elemsOf e l.2.length (l.2.map Prod.fst))
  let n := (cols.map fun c => c.2.length).foldl max 0
  (List.range n).flatMap fun j => match tree g.ety g.rop (cols.filterMap fun c => c.2[j]?.map fun v => (c.1, v)) with
    | some v =>
      let bad := leaves.any fun l => ((l.2.drop (j * e)).take e).any Prod.snd
      (leBytes e v).map fun b => (b, bad)
    | none => []
/-- What a chunk writes at a member: the address and bytes of each run. -/
def chunkWrites (o : CollOp) (leaves : List Leaf) (off : Nat) : List (Nat × List (Byte × Bool)) :=
  let e := etBytes o.sig.ety
  let blk := o.sig.count * e
  if leaves.isEmpty then []
  else if o.sig.op = oCrdc then (if o.rank = o.sig.root then [(o.dst + off, reduceLeaves o.sig leaves)] else [])
  else if o.sig.op = oCalr then [(o.dst + off, reduceLeaves o.sig leaves)]
  else if o.sig.op = oCrsc then
    let lo := o.rank * blk
    let bs := reduceLeaves o.sig leaves
    let a := max lo off
    let b := min (lo + blk) (off + bs.length)
    if a < b then [(o.dst + (a - lo), (bs.drop (a - off)).take (b - a))] else []
  else if o.sig.op = oCalg then leaves.map fun l => (o.dst + l.1 * blk + off, l.2)
  else (leaves.filter fun l => l.1 == o.sig.root).map fun l => (o.dst + off, l.2)

/-- Write runs of bytes for a command: each byte that translates; a wait where a page is absent. -/
def State.writeRuns (s : State) (c : Cmd) (ws : List (Nat × List (Byte × Bool))) : Moved :=
  let bs := ws.flatMap fun w => w.2.zipIdx.map fun b => (((w.1 + b.2 : Nat) : Int), b.1)
  let (s, ps) := s.probeAs c true (bs.map fun b => some b.1)
  let all := ps.filterMap id
  match s.engineWaits c true all with
  | some s => .waits s
  | none =>
    let put := (all.zip bs).filterMap fun (x : Probe × (Int × Byte × Bool)) => match x.1 with
      | .ok l _ => some (l, x.2.2)
      | _ => none
    .moved (s.cmdPut c put) (c.note (lowFault all))

/-- One member's part of a chunk. -/
def State.chunkAt (s : State) (slot chunk : Nat) (leaves : List Leaf) (o : CollOp) : State :=
  match s.cmds.find? fun c => c.id == o.cmd with
  | none => s
  | some c =>
    if o.ended ∨ ¬ c.todo.contains chunk then s
    else match s.writeRuns c (chunkWrites o leaves (65536 * chunk)) with
      | .waits s => s
      | .moved s c =>
        let c := { c with todo := c.todo.filter (· != chunk) }
        let s := s.setCmd c
        if c.todo.isEmpty then s.endOp slot o else s

/-- A chunk of operation k of a communicator: every rank of this chip has issued it, `remote` gives what the ranks of other
chips that have a leaf issued and their bytes, and this chip's are sent to the others, once. A rank that issued another
operation fails the communicator (R341). -/
def State.collChunk (s : State) (slot k chunk : Nat) (remote : List (Nat × OpSig × List (Byte × Bool))) : State :=
  match s.comm slot with
  | none => s
  | some c =>
    if c.failed then s
    else if c.ops.any (fun o => o.k == k && remote.any fun r => r.2.1 != o.sig) then s.failComm slot
    else if ¬ c.localReady k then s
    else if (c.ops.filter fun o => o.k == k).any CollOp.bare then s.barTry slot k
    else
      let s := (c.ops.filter fun o => o.k == k).foldl (fun (s : State) (o : CollOp) => s.readLeaf slot o) s
      match s.comm slot with
      | none => s
      | some c =>
        let here := c.ops.filter fun o => o.k == k
        if here.any fun o => o.bytes.isNone then s
        else
          let cut := fun (l : List (Byte × Bool)) => (l.drop (65536 * chunk)).take 65536
          let leaf := fun (o : CollOp) => match o.bytes with
            | some [] => none
            | some l => some (o.rank, cut l)
            | none => none
          let own : List Leaf := here.filterMap leaf
          let far : List Leaf := (remote.filter fun r => decide (r.1 < c.nrank) &&
            !(decide (c.rbase ≤ r.1) && decide (r.1 < c.rbase + c.rcnt))).map fun r => (r.1, r.2.2)
          let tell := here.filter fun o => !o.told.contains chunk
          let s := (c.others s.mgmt.chip).foldl (fun (s : State) (_ : Nat) => tell.foldl (fun (s : State) (o : CollOp) =>
            match leaf o with
            | some l => s.send (.chunk c.ftag k chunk l.1 o.sig l.2)
            | none => s) s) s
          let mark := fun (o : CollOp) =>
            if o.k = k ∧ ¬ o.told.contains chunk then { o with told := o.told ++ [chunk] } else o
          let s := s.modComm slot fun x => { x with ops := x.ops.map mark }
          here.foldl (fun (s : State) (o : CollOp) => s.chunkAt slot chunk (own ++ far) o) s

end Sys2Proof.Machine
end

