-- ==== Sys2Proof/Machine/Tumbler.lean ====
section
/-! DEFINITION. Kernel descriptors (R26), residency and the tumbler's moves (R16, R170, R211 to R214, R221), the taking of
areas (R215), and the placing and claiming of spans and node launches (R20, R21, R224, R228). -/

namespace Sys2Proof.Machine

open Sys2Proof

/-! ### Kernel descriptors (R26) -/

/-- A word of a descriptor. -/
def dq (d : List DWord) (k : Nat) : Nat := (d.getD k 0).toNat
def dCode (d : List DWord) : Nat := dq d 0
def dWidth (d : List DWord) : Nat := bits (dq d 2) 2 0
/-- The hardware warp width (R15). -/
def dHw (d : List DWord) : Nat := if dWidth d = 1 then 16 else if dWidth d = 3 then 64 else if dWidth d = 4 then 128 else 32
def dVregs (d : List DWord) : Nat := bits (dq d 2) 7 3
def dNtid (d : List DWord) : Nat := bits (dq d 2) 23 8 + 1
def dSpan (d : List DWord) : Nat := bits (dq d 2) 35 24 + 1
def dScratch (d : List DWord) : Nat := bits (dq d 2) 45 36
def dReslim (d : List DWord) : Nat := bits (dq d 2) 50 46
def dPflines (d : List DWord) : Nat := bits (dq d 2) 54 51
def dPfmode (d : List DWord) : Nat := bits (dq d 2) 56 55
def dLat (d : List DWord) : Nat := bits (dq d 2) 58 57
/-- Home warps of a team. -/
def dWarps (d : List DWord) : Nat := (dNtid d + dHw d - 1) / dHw d

/-! ### Areas (R214, R215, R296) -/

/-- Bytes of the save and state extension areas of a descriptor's teams. -/
def dArea (d : List DWord) : Nat := areaBytes (dWarps d) (dHw d) (8 * dVregs d) (dScratch d)
/-- Bytes of a team's visible area. -/
def dVisible (d : List DWord) (node : Bool) : Nat := 64 * dWarps d * dHw d + (if node then 8 * dNtid d else 0)
/-- A visible area of a pool: the largest, rounded up. -/
def areaSize (need : Nat) : Nat := (need + 4095) / 4096 * 4096
/-- The lowest place for n bytes from lo up to hi that meets none of the ranges of a list: address and length. -/
def lowestSpot (lo hi n : Nat) (used : List (Nat × Nat)) : Option Nat :=
  let ok := fun (a : Nat) => decide (a + n ≤ hi) && used.all fun u => decide (a + n ≤ u.1) || decide (u.1 + u.2 ≤ a)
  ((lo :: used.map fun u => u.1 + u.2).filter ok).foldl (fun (r : Option Nat) a => match r with
    | some b => some (min a b)
    | none => some a) none
/-- Whether areas of given sizes all find places beside those of a list. -/
def allFit (lo hi : Nat) : List Nat → List (Nat × Nat) → Bool
  | [], _ => true
  | n :: r, used => match lowestSpot lo hi n used with
    | some a => allFit lo hi r (used ++ [(a, n)])
    | none => false
/-- The areas that the teams of a context hold. -/
def State.heldAreas (s : State) (c : Nat) : List (Nat × Nat) :=
  (s.teams.filter fun m => m.ctx == c && !m.retired && !m.agent).map fun m => (m.save, m.areas)
/-- The lowest place of a context's save region that is free for n bytes; the first 4 KiB are never used. -/
def State.saveSpot (s : State) (c n : Nat) : Option Nat :=
  let x := s.ctx c
  lowestSpot (x.savebase + 4096) (x.savebase + x.savesize) n (s.heldAreas c)
/-- The lowest free visible area of a launch's pool (R215). -/
def State.visibleSpot (s : State) (l unit : Nat) : Option Nat :=
  let x := s.launch l
  let used := (s.teams.filter fun m => m.launch == l && !m.retired).map Team.visible
  ((List.range (if unit = 0 then 0 else x.poolLen / unit)).map fun k => x.pool + k * unit).find? fun a => !used.contains a

/-! ### Residency (R15, R16, R211) -/

/-- Resident warps of a partition. -/
def State.residents (s : State) (c p : Nat) : List (Nat × Nat) :=
  (List.range s.teams.length).flatMap fun t =>
    let m := s.team t
    if m.core = c ∧ m.part = p ∧ ¬ m.retired then
      ((List.range m.nWarps).filter fun w => (s.warp t w).resident).map fun w => (t, w)
    else []
/-- The slot of a home warp: two width-16 warps of a team share one. -/
def State.slotOf (s : State) (e : Nat × Nat) : Nat × Nat := (e.1, if (s.team e.1).width = 16 then e.2 / 2 else e.2)
/-- Slots that a set of warps uses. -/
def State.slots (s : State) (ws : List (Nat × Nat)) : Nat := ((ws.map s.slotOf).eraseDups).length
/-- Bytes of registers that a set of warps uses. -/
def State.regBytes (s : State) (ws : List (Nat × Nat)) : Nat :=
  (ws.map fun e => 32 * (s.team e.1).vregs * (s.team e.1).width).sum
/-- Whether a set of warps may be resident together (R16). -/
def State.fits (s : State) (ws : List (Nat × Nat)) : Bool :=
  decide (s.slots ws ≤ 16) && decide (s.regBytes ws ≤ 393216) &&
  ws.all fun e => decide ((ws.filter fun f => f.1 == e.1).length ≤ (if (s.team e.1).reslim = 0 then 16 else (s.team e.1).reslim))
/-- Whether a context stands switched out of a core (R308). -/
def State.isOut (s : State) (t : Nat) : Bool := (s.ctxOf t).out.contains (s.team t).core

/-- Scratchpad KiB that the teams of a core hold. -/
def State.padUse (s : State) (c : Nat) : Nat :=
  (s.teams.map fun m => if m.core = c ∧ m.padIn ∧ ¬ m.retired then m.scratch else 0).sum

/-- Whether a thread's stores to peers are all acknowledged: rotating out is a release (R170, R335). -/
def State.storesOpen (s : State) (t i : Nat) : Bool := s.peers.any fun r => r.team == t && r.tidx == i && !r.waits && r.cmd == 0
/-- Whether a home warp may leave its slot as it stands: none of its stores to peers is open. -/
def State.mayLeave (s : State) (e : Nat × Nat) : Bool := ((s.team e.1).members e.2).all fun i => !s.storesOpen e.1 i
/-- A home warp leaves its slot (R170, R212): a release; its state goes to its save area, and its threads leave their
groups. -/
def State.swapOut (s : State) (t w : Nat) : State :=
  let is := (s.team t).members w
  let s := is.foldl (fun (s : State) (i : Nat) => (s.settleThread t i).settle t i) s
  let s := (s.ungroup t is).saveWarp t w
  s.modWarp t w fun x => { x with resident := false, since := s.clk }
/-- Threads that wait for a team to be there try again (R174). -/
def State.wakeRemote (s : State) : State :=
  s.wakeAll false fun _ _ _ v => match v with | .remoteTeam _ => true | _ => false
/-- A team's scratchpad comes back from its save area, with what engines have written meanwhile, and threads that wait for it go on
(R213, R308). -/
def State.padBack (s : State) (t : Nat) : State :=
  if (s.team t).padIn then s
  else ((s.loadPad t).modTeam t fun m =>
    { m with padIn := true, pad := m.late.foldl (fun (p : Memory) (e : Nat × Byte) => p.write e.1 e.2) m.pad, late := [] }).wakeRemote
/-- A team's scratchpad goes to its save area (R213). -/
def State.padAway (s : State) (t : Nat) : State :=
  if (s.team t).padIn then (s.savePad t).modTeam t fun m => { m with padIn := false } else s
/-- A home warp comes in: an acquire and an ICFENCE, after which a clause it stands in is fetched again; its team's scratchpad
comes first, and its registers are read back (R170, R212, R310). -/
def State.swapIn (s : State) (t w : Nat) : State :=
  let c := (s.team t).core
  let s := (s.acquire c).icDrop c
  let s := (s.padBack t).loadWarp t w
  let s := ((s.team t).members w).foldl (fun (s : State) (i : Nat) => s.modThread t i fun x => { x with refetch := x.mid.isSome }) s
  let s := s.modWarp t w fun x => { x with resident := true, since := s.clk }
  s.wakeRemote.tidy t

/-! ### Device partitions, dies and clusters (R263, R352) -/

/-- The device partition that owns a core's cluster: the lowest-numbered that lists it. -/
def State.devPart (s : State) (core : Nat) : Nat :=
  ((List.range s.parts.length).find? fun p => (s.partOf p).clusters.testBit (core / 8)).getD 8
/-- Whether the agents may place teams of a partition on a core. -/
def State.usable (s : State) (part core : Nat) : Bool :=
  decide (core < Config.cores) && s.devPart core == part && !(s.core core).halted && (s.core core).agentUp

/-! ### Spans and tickets (R20, R223, R224) -/

/-- Teams of a launch's spans. -/
def Launch.spanLen (l : Launch) : Nat := dSpan l.desc
/-- How many teams a span holds. -/
def Launch.spanTeams (l : Launch) (k : Nat) : Nat := min l.spanLen (l.size - k * l.spanLen)
/-- The coordinates of a team. -/
def Launch.coords (l : Launch) (i : Nat) : Nat × Nat × Nat := (i % l.nx, i / l.nx % l.ny, i / l.nx / l.ny)
/-- The L2 slice that a span has affinity with. -/
def Launch.slice (l : Launch) (k : Nat) : Nat :=
  let (x, y, z) := l.coords (k * l.spanLen)
  let q := dq l.desc 3
  (bits q 15 0 * x + bits q 31 16 * y + bits q 47 32 * z) % 2 ^ 64 / 2 ^ bits q 53 48 % 128
/-- The die that a span has affinity with. -/
def Launch.die (l : Launch) (k : Nat) : Nat := l.slice k / 32

/-- The step of R224 on a ticket: the new ticket, and the span that is claimed. -/
def Launch.claimStep (l : Launch) (die ticket : Nat) : Nat × Option Nat :=
  match ((List.range 64).map (ticket + ·)).find? fun k => decide (k < l.nspan) && l.die k == die with
  | some k => (k + 1, some k)
  | none => (min (ticket + 64) l.nspan, none)

/-- The place of a launch's ticket line. -/
def State.ticketLoc (s : State) (l : Nat) : State × Except Probe Loc :=
  match s.probeCtx (s.launch l).ctx (s.launch l).ticket 8 { write := true } with
  | (s, .ok x _) => (s, .ok x)
  | (s, p) => (s, .error p)
/-- Apply the step of R224 at the ticket line for a die's ticket; `by_` is the die that claims. -/
def State.claimAt (s : State) (l : Nat) (line : Loc) (die by_ : Nat) : State × Option Nat :=
  let x := s.launch l
  let (s, bs) := s.homeBytes (line.add (8 * die)) 8
  let (t, k) := x.claimStep die (leValue bs)
  let s := s.writeLoc noOwner (line.add (8 * die)) (leBytes 8 t) false
  match k with
  | some k => (s.modLaunch l fun y => { y with claimed := y.claimed ++ [(k, by_)] }, some k)
  | none => (s, none)

/-- Teams of a launch's spans that are claimed and not started. -/
def State.owed (s : State) (l : Nat) : Nat :=
  let x := s.launch l
  (x.claimed.map fun k => x.spanTeams k.1 - (s.teams.filter fun m => m.launch == l && m.node.isNone && m.span == k.1).length).sum
/-- Visible areas of a launch (R215): each as large as the largest that a team of the launch or graph needs. -/
def State.visibleUnit (s : State) (l : Nat) : Nat :=
  let x := s.launch l
  match x.graph with
  | some g => areaSize (((s.graph g).nodes.map fun n => dVisible n.desc true).foldl max 0)
  | none => areaSize (dVisible x.desc false)
/-- Sizes of the areas of a context's teams that are claimed and not started: of spans and of node launches. -/
def State.owedAreas (s : State) (c : Nat) : List Nat :=
  (List.range s.launches.length).flatMap fun l =>
    let x := s.launch l
    if x.ctx ≠ c ∨ x.done then []
    else match x.graph with
      | some g => (s.graph g).taken.map fun e => dArea (((s.graph g).nodes.getD e.1 default).desc)
      | none => List.replicate (s.owed l) (dArea x.desc)
/-- Whether the save region and the pool have free areas for n more teams of a launch, each of a size (R215, R224, R228). -/
def State.roomFor (s : State) (l n size : Nat) : Bool :=
  let x := s.launch l
  let c := s.ctx x.ctx
  let owed := match x.graph with | some g => (s.graph g).taken.length | none => s.owed l
  let live := (s.teams.filter fun m => m.launch == l && !m.retired).length
  allFit (c.savebase + 4096) (c.savebase + c.savesize) (s.owedAreas x.ctx ++ List.replicate n size) (s.heldAreas x.ctx) &&
  decide ((live + owed + n) * s.visibleUnit l ≤ x.poolLen)
/-- Whether a node launch of a graph has free areas, as a span of one team has (R228). -/
def State.nodeRoom (s : State) (g node : Nat) : Bool :=
  s.roomFor (s.graph g).launch 1 (dArea (((s.graph g).nodes.getD node default).desc))

/-- The cluster of a die that a slice's span is placed in: the preferred one, or the nearest usable one by index. -/
def State.clusterFor (s : State) (part die slice : Nat) : Option Nat :=
  let pref := 6 * die + slice % 32 * 6 / 32
  let ok := ((List.range 6).map (6 * die + ·)).filter fun c => (List.range 8).any fun k => s.usable part (8 * c + k)
  let dist := fun (c : Nat) => if pref ≤ c then c - pref else pref - c
  ok.foldl (fun (r : Option Nat) c => match r with
    | some b => if dist c < dist b then some c else some b
    | none => some c) none

end Sys2Proof.Machine
end

