-- ==== Sys2Proof/Machine/System.lean ====
section
/-! DEFINITION. SYS instructions (R302, R303, R317 to R324): the return from a trap, CSRs, invalidation, context
switching, claims, machine-check acknowledgement and HALT. -/

namespace Sys2Proof.Machine

open Sys2Proof

/-! ### ERET (R302, R303, R318) -/

/-- Whether a bit of a lane mask is set. -/
def laneBit (m : BitVec 128) (h : Nat) : Bool := m.getLsbD h

/-- Restore the bank of a thread's level (R302). -/
def Thread.restore (x : Thread) : Thread :=
  match x.banks.getLast? with
  | none => x
  | some b => { x with
      banks := x.banks.dropLast, ew := x.ew.dropLast, level := x.level - 1, pc := b.pc, mid := b.mid, skip := b.skip,
      meet := b.meet, mtag := b.mtag, alone := b.alone, p := b.p, laneSet := b.laneSet, released := false, refetch := b.mid.isSome,
      noBreak := none, pend := x.open_ ++ b.looks }

/-- The fate of the product whose stop raised an instance: the first ERET that ends one decides (R144). A product that goes on
brings its banks back with its next row (R138). -/
def State.fate (s : State) (t : Nat) (x : TrapInst) (retry : Bool) : State :=
  match x.stop with
  | none => s
  | some n =>
    let m := s.team t
    let all := (s.core m.core).banks.getD m.part [] ++ s.spilled.map Spill.acc
    match all.findSome? fun b => match b.fault with
        | some (f, p) => if f.stop = n then some (f, p) else none
        | none => none with
    | none => s
    | some (_, p) =>
      let s := s.clearStop n
      if ¬ retry then s
      else
        let (id, s) := s.fresh
        s.modSeq m.core m.part fun q => q ++ [{ id, gang := p.gang, bank := p.bank, count := 4, op := .product p }]

/-- What the handler of an emulated word leaves: its destination and destination predicate (R303). A header has neither. -/
def emuWrites (vregs : Nat) (x : TrapInst) : Option (BitVec 8 × Nat × BitVec 4) × List (BitVec 3) :=
  if ¬ x.emu ∨ x.hdr then (none, [])
  else
    let cls := bits x.edec.toNat 31 28
    let i := match lookup cls x.eword with | .ok i => some i | .error _ => none
    ((dstUse cls x.eword i vregs).map fun u => (u.code, min 2 u.regs, dstTy i (wordTySc cls x.eword i).1),
     match i with | some i => i.predDests | none => [])

/-- The value that ew3 gives a destination. -/
def emuValue (regs : Nat) (ty : BitVec 4) (v : DWord) : Nat :=
  if 2 ≤ regs then v.toNat else fillTy (if tyBits ty = 64 then b32 else ty) (v.toNat % 2 ^ (min 32 (tyBits ty)))

/-- Where a thread goes on, with the bank restored: at the word, at the next position, or by the selector. -/
inductive Back where
  | word
  | next
  | select (executed : Bool)
  | header (pc : DWord)
  | gone
deriving DecidableEq, Repr

/-- Where an instance sends a thread of a home lane. After MTXFAULT the word takes its effect, whatever the form (R144). -/
def TrapInst.back (x : TrapInst) (h : Nat) (retry : Bool) : Back :=
  if laneBit x.ekill h then .gone
  else if x.hdr then .header (if retry ∧ ¬ laneBit x.eskip h then x.epc else x.skipTo.getD x.epc)
  else if laneBit x.eskip h then .next
  else if retry ∨ (x.cause = fMtxfault ∧ ¬ x.emu) then .word
  else if laneBit x.exec h ∧ ¬ x.control then .select true
  else .next

/-- The clause of a thread, fetched again at its header; none where the fetch has something to report or to wait for. -/
def State.again (s : State) (t i : Nat) (c : Clause) : State × Option Clause :=
  let m := s.team t
  match s.fetchClause m.core m.ctx (s.privileged t i) c.addr with
  | (s, .clause d) => (s, some d)
  | (s, _) => (s, none)
/-- Send a restored thread on. The clause it stands in is fetched again: before its next word, or here where its word is the
last. Where that fetch has something to report or to wait for, the thread stands at the word, whose effect is over, and its
clause is fetched as it goes on (R302). -/
def State.sendBack (s : State) (t i : Nat) (x : TrapInst) (b : Back) : State × List (Nat × DWord) :=
  let y := s.thread t i
  let leave := fun (s : State) (pc : DWord) => (s.modThread t i fun y => y.goTo pc, [(i, pc)])
  let stay := fun (s : State) (p : Nat) (ran : Bool) =>
    (s.modThread t i fun y => { y with released := true, skip := if ran then y.skip else p + 1 }, [])
  match b, y.mid with
  | .gone, _ => (s.exitThread t i, [])
  | .header pc, _ =>
    let nb := if x.cause = fBreak then some x.epc else none
    (s.modThread t i fun y => { y with pc := pc, mid := none, skip := 0, noBreak := nb }, [])
  | .word, some (c, p) =>
    let brk := (c.word p).extractLsb' 56 8 == 0xB2
    let nb := if x.cause = fBreak ∧ ¬ brk then some x.epc else none
    (s.modThread t i fun y => { y with released := x.cause == fUniform, noBreak := nb }, [])
  | .next, some (c, p) =>
    if c.last p then
      match s.again t i c with
      | (s, some c) => leave s c.fall
      | (s, none) => stay s p false
    else (s.modThread t i fun y => { y with mid := some (c, p + 1) }, [])
  | .select ex, some (c, p) =>
    let w := c.word p
    let k := Common.ofWord w
    let nas := if w.extractLsb' 56 8 == 0xB2 then 0 else k.nas
    if c.last p then
      match s.again t i c with
      | (s, none) => stay s p ex
      | (s, some c) => match s.nextPc t i c nas ex with
      | none => (s.exitThread t i, [])
      | some pc =>
        let s := if nas = 3 then s.modThread t i fun y => { y with v := regsSet y.v (s.team t).link c.fall.toNat 2 } else s
        leave s pc
    else
      let skip := fun (y : Thread) => if nas = 5 then p + 1 + k.look.toNat else y.skip
      (s.modThread t i fun y => { y with mid := some (c, p + 1), skip := skip y }, [])
  | _, none => (s, [])

/-- One thread's return: its bank, the emulated destination, and its way on. -/
def State.eret1 (s : State) (t i : Nat) (x : TrapInst) (retry : Bool) : State × List (Nat × DWord) :=
  let h := (s.team t).hlane i
  let y := s.thread t i
  let b := x.back h retry
  let s := s.modThread t i Thread.restore
  let (_, ps) := emuWrites (s.team t).vregs x
  let s := if b ≠ .gone ∧ ¬ laneBit x.eskip h ∧ ¬ retry ∧ laneBit x.emask h
    then ps.foldl (fun (s : State) (k : BitVec 3) => s.putPred t i k (y.p.getLsbD 6)) s else s
  let r := s.sendBack t i x b
  (r.1.leaveInst t i y.level, r.2)

/-- The executing threads of an instance return. A scalar destination is written once. -/
def State.eretAll (s : State) (k : Iss) (ex : List Nat) (x : TrapInst) (retry : Bool) : State :=
  let t := k.team
  let m := s.team t
  let vals := ex.filterMap fun i =>
    let h := m.hlane i
    if ¬ retry ∧ laneBit x.emask h ∧ ¬ laneBit x.ekill h ∧ ¬ laneBit x.eskip h ∧ ¬ x.hdr
    then some (i, (s.thread t i).window 3, (s.thread t i).level) else none
  let s := if x.threads.all ex.contains then s.fate t x retry else s
  let s := s.ungroup t ex
  -- The destination is named at the level returned to, whose windows it may name.
  let s := match (emuWrites m.vregs x).1 with
    | none => s
    | some (code, regs, ty) => match opndOf code with
      | .ew n => vals.foldl (fun (s : State) (v : Nat × DWord × Nat) => s.modThread t v.1 fun y =>
          { y with ew := y.ew.modify (v.2.2 - 2) fun l => l.set n (BitVec.ofNat 64 (emuValue regs ty v.2.1)) }) s
      | _ => s.putAll t code regs (vals.map fun v => (v.1, emuValue regs ty v.2.1))
  let r := ex.foldl (fun (r : State × List (Nat × DWord)) (i : Nat) =>
    let (s, o) := r.1.eret1 t i x retry
    (s, r.2 ++ o)) (s, [])
  (r.1.splitSets t r.2).tidy t

/-- Whether the return of a thread ends it: by EKILL, or by the selector EXIT of the word it returns after (R302). -/
def State.returnEnds (s : State) (t i : Nat) (x : TrapInst) (retry : Bool) : Bool :=
  match x.back ((s.team t).hlane i) retry, ((s.thread t i).banks.getLast?).bind Banked.mid with
  | .gone, _ => true
  | .select true, some (c, p) => c.last p && (c.word p).extractLsb' 56 8 != 0xB2 && (Common.ofWord (c.word p)).nas == 7
  | _, _ => false
/-- ERET: the threads that execute it return; the others go on in the handler. A termination is a release, whether by EKILL or by
an EXIT (R162). -/
def eret (i : Instr) (w : FS) (retry : Bool) (s : State) : Host.Outcome State Fault Refusal :=
  word i w.c goOn (fun s k ex =>
    let t := k.team
    let s := s.settleAll t ex
    let lead := ex.headD 0
    let open_ := ex.any fun j => !(s.thread t j).open_.isEmpty
    match ex, s.inst t ((s.team t).warpOf lead) (s.thread t lead).level with
    | [], _ => .ok s
    | _, none => .ok s
    | _, some x =>
      let dead := ex.filter fun j => s.returnEnds t j x retry
      if open_ then .stall s
      else s.releasing t dead fun s =>
        let s := s.eretAll k ex x retry
        .left (s.finish (k.without ex) w.c [] {})) s
def execEretDone (w : FS) (s : State) : Host.Outcome State Fault Refusal := eret (.eretDone w) w false s
def execEretRetry (w : FS) (s : State) : Host.Outcome State Fault Refusal := eret (.eretRetry w) w true s

/-- A SYS word issues only after the earlier words of its threads have written their results (R317). -/
def sysWord (i : Instr) (w : FS) (body : State → Iss → List Nat → Res) (s : State) : Host.Outcome State Fault Refusal :=
  word i w.c goOn (fun s k ex =>
    let s := s.settleAll k.team ex
    if ex.any fun j => !(s.thread k.team j).open_.isEmpty then .stall s else body s k ex) s

/-! ### CSRs (R319 to R321, R325) -/

/-- TSTATE of a home lane for a reader (R299, R319): of a thread of the reader's instance, the values at the trapping
word. DESIGN CHOICE, log entry 57: the lane of a thread that has exited holds that thread still, with its last values. -/
def State.tstate (s : State) (t i : Nat) (lane : Nat) (meet : Bool) : Nat :=
  let m := s.team t
  let w := m.warpOf i
  let j := w * m.width + lane
  let level := (s.thread t i).level
  if m.width ≤ lane ∨ m.threads.length ≤ j then 0
  else
    let y := s.thread t j
    let mine := match s.inst t w level with | some x => x.threads.contains j | none => false
    match mine, y.banks[level - 1]? with
    | true, some b =>
      if meet then b.meet.toNat
      else (match b.mid with | some (c, p) => c.wordAddr p | none => b.pc).toNat
    | _, _ => if meet then y.meet.toNat else y.at_.toNat

/-- TSTAT (R326). -/
def TrapInst.tstat (x : TrapInst) : Nat := x.defer.toNat * 2 ^ 15 + x.hdr.toNat * 2 ^ 14 + x.pos % 16 * 256 + x.cause
/-- What a CSR reads as for a thread (R325). -/
def State.csr (s : State) (t i idx lane : Nat) : Nat :=
  let m := s.team t
  let c := s.ctx m.ctx
  let w := m.warpOf i
  let inst := fun (f : TrapInst → Nat) => match s.inst t w (s.thread t i).level with | some x => f x | none => 0
  match idx with
  | 0x000 => c.trapvec.toNat
  | 0x001 => c.emuvec.toNat
  | 0x002 => c.emustk.toNat
  | 0x010 => inst TrapInst.tstat
  | 0x011 => inst fun x => x.epc.toNat
  | 0x012 => inst fun x => x.edec.toNat
  | 0x013 => inst fun x => x.eword.toNat
  | 0x014 => inst fun x => x.emask.toNat % 2 ^ 64
  | 0x015 => inst fun x => x.emask.toNat / 2 ^ 64
  | 0x016 => inst fun x => x.ekill.toNat % 2 ^ 64
  | 0x017 => inst fun x => x.ekill.toNat / 2 ^ 64
  | 0x018 => inst fun x => x.eskip.toNat % 2 ^ 64
  | 0x019 => inst fun x => x.eskip.toNat / 2 ^ 64
  | 0x01A => (s.thread t i).level
  | 0x01B => inst fun x => x.frbase.toNat
  | 0x020 => s.tstate t i lane false
  | 0x021 => s.tstate t i lane true
  | 0x030 => (s.warp t w).wtcmp.toNat
  | 0x031 => c.spinn
  | 0x032 => m.reslim
  | 0x040 => m.ctx
  | 0x041 => c.pasid
  | 0x042 => m.lcid
  | 0x050 => s.mgmt.dfeat.toNat
  | 0x054 => (s.mgmt.drvfeat.getD 0 0).toNat
  | 0x055 => (s.mgmt.drvfeat.getD 1 0).toNat
  | 0x056 => (s.mgmt.drvfeat.getD 2 0).toNat
  | 0x057 => (s.mgmt.drvfeat.getD 3 0).toNat
  | 0x060 => (c.bkpt.getD 0 0).toNat
  | 0x061 => (c.bkpt.getD 1 0).toNat
  | 0x062 => (c.bkpt.getD 2 0).toNat
  | 0x063 => (c.bkpt.getD 3 0).toNat
  | _ => if 0x100 ≤ idx ∧ idx ≤ 0x10F then (((s.core m.core).mc.getD ((idx - 0x100) / 4) []).getD (idx % 4) 0).toNat else 0

def execRdcsr (w : FS) (s : State) : Host.Outcome State Fault Refusal :=
  sysWord (.rdcsr w) w (fun s k ex =>
    let n := if w.w64 then 2 else 1
    .ok (s.putAll k.team w.dst n (ex.map fun i =>
      (i, s.csr k.team i w.idx.toNat (s.opnd k.team i w.sa 1) % 2 ^ (32 * n))))) s

/-- Set half of a lane mask. -/
def setHalf (m : BitVec 128) (high : Bool) (v : Nat) : BitVec 128 :=
  if high then BitVec.ofNat 128 (v * 2 ^ 64 + m.toNat % 2 ^ 64) else BitVec.ofNat 128 (m.toNat / 2 ^ 64 * 2 ^ 64 + v)
/-- What a write of a CSR does for a thread; reserved bits are ignored (R320, R325). -/
def State.setCsr (s : State) (t i idx v : Nat) : State :=
  let m := s.team t
  let w := m.warpOf i
  let ctx := fun (f : Ctx → Ctx) => s.modCtx m.ctx f
  let inst := fun (f : TrapInst → TrapInst) => s.modInst t w (s.thread t i).level f
  match idx with
  | 0x000 => ctx fun c => { c with trapvec := BitVec.ofNat 64 v }
  | 0x001 => ctx fun c => { c with emuvec := BitVec.ofNat 64 v }
  | 0x002 => ctx fun c => { c with emustk := BitVec.ofNat 64 v }
  | 0x016 => inst fun x => { x with ekill := setHalf x.ekill false v }
  | 0x017 => inst fun x => { x with ekill := setHalf x.ekill true v }
  | 0x018 => inst fun x => { x with eskip := setHalf x.eskip false v }
  | 0x019 => inst fun x => { x with eskip := setHalf x.eskip true v }
  | 0x030 => s.modWarp t w fun x => { x with wtcmp := BitVec.ofNat 64 v }
  | 0x031 => ctx fun c => { c with spinn := if 2 ≤ v % 128 ∧ v % 128 ≤ 64 then v % 128 else c.spinn }
  | 0x032 => s.modTeam t fun m => { m with reslim := v % 32 }
  | 0x042 => s.modTeam t fun m => { m with lcid := v % 2 ^ 32 }
  | _ => if 0x060 ≤ idx ∧ idx ≤ 0x063
    then ctx fun c => { c with bkpt := c.bkpt.set (idx - 0x060) (BitVec.ofNat 64 (v / 8 * 8 + v % 2)) }
    else s
def execWrcsr (w : FS) (s : State) : Host.Outcome State Fault Refusal :=
  sysWord (.wrcsr w) w (fun s k ex => .ok (ex.foldl (fun (s : State) (i : Nat) =>
    s.setCsr k.team i w.idx.toNat (s.opnd k.team i w.sa (if w.w64 then 2 else 1))) s)) s

/-! ### TLBINV (R270, R322) -/

/-- Whether a cached page lies below the stage-1 leaf that holds a VA, or the stage-2 leaf that holds an IPA: an invalidation
drops every cached page of a larger leaf (R266, R270). -/
def Tlb.s1Holds (e : Tlb) (va : Nat) : Bool := e.page * 65536 / 2 ^ e.s1bits == va / 2 ^ e.s1bits
def Tlb.s2Holds (e : Tlb) (ipa : Nat) : Bool := e.ipa * 65536 / 2 ^ e.s2bits == ipa / 2 ^ e.s2bits
/-- Branches of a partition's contexts with held stores: team, home warp and sequence. -/
def State.heldStores (s : State) (part : Nat) : List (Nat × Nat × Nat) :=
  (List.range s.teams.length).flatMap fun t =>
    if (s.ctxOf t).part ≠ part then []
    else (s.team t).warps.zipIdx.filterMap fun w => match w.1.spec with
      | some sp => if sp.held.isEmpty then none else some (t, w.2, sp.seq)
      | none => none
/-- Accesses of a partition's contexts that peers have not answered. Those that belong to no team count for every partition. What
walks, engines, products and fetches have asked for does not count: it comes to nothing after an invalidation, or is asked for by
its own address. -/
def State.openTags (s : State) (part : Nat) : List Nat :=
  (s.peers.filter fun r => match r.role with
    | .data _ _ => false
    | _ => decide (s.teams.length ≤ r.team) || (s.ctxOf r.team).part == part).map PeerReq.tag
/-- Whether accesses at peers, by tag, and branches with held stores, by team, home warp and sequence, are over. -/
def State.outlived (s : State) (tags : List Nat) (held : List (Nat × Nat × Nat)) : Bool :=
  (tags.all fun n => !s.peers.any fun r => r.tag == n) &&
  held.all fun b => match (s.warp b.1 b.2.1).spec with | some sp => sp.seq != b.2.2 | none => true
/-- Invalidate cached translations of a partition; stores on their way, which were probed with them, land (R270). -/
def State.invalidate (s : State) (p : Tlb → Bool) : State := (s.ackAll s.stores).tlbDrop p
/-- Invalidate, for each home warp of an issue, once. Every access that was probed before it completes before the threads go on
(R270). DEDUCED, log entry 29: those are the accesses and held stores of the partition that are open when it begins, of whatever
page. -/
def tlbinv (i : Instr) (w : FS) (p : State → Nat → Nat → Tlb → Bool) (s : State) : Host.Outcome State Fault Refusal :=
  sysWord i w (fun s k ex => match ex with
    | [] => .ok s
    | _ => s.releasing k.team ex fun s =>
      let t := k.team
      let new := ex.filter fun i => (s.thread t i).flush.isNone
      let s := (s.warpsOf t new).foldl (fun (s : State) (v : Nat) =>
        s.invalidate (p s t (s.opnd t ((s.ofWarp t v new).headD 0) w.sa 2))) s
      let part := (s.ctxOf t).part
      let open_ := (s.openTags part, s.heldStores part)
      let mark := fun (f : Option (List Nat × List (Nat × Nat × Nat))) (is : List Nat) (s : State) =>
        is.foldl (fun (s : State) (i : Nat) => s.modThread t i fun x => { x with flush := f }) s
      let s := mark (some open_) new s
      if ex.all fun i => match (s.thread t i).flush with | some f => s.outlived f.1 f.2 | none => true
      then .ok (mark none ex s) else .stall s) s
/-- The partition and the PASID of a team's context. -/
def State.partPasid (s : State) (t : Nat) (e : Tlb) : Bool × Bool :=
  (e.part == (s.ctxOf t).part, e.pasid == (s.ctxOf t).pasid)
def execTlbinvPage (w : FS) (s : State) : Host.Outcome State Fault Refusal :=
  tlbinv (.tlbinvPage w) w (fun s t a e => (s.partPasid t e).1 && (s.partPasid t e).2 && !e.glob && e.s1Holds a) s
def execTlbinvPasid (w : FS) (s : State) : Host.Outcome State Fault Refusal :=
  tlbinv (.tlbinvPasid w) w (fun s t _ e => (s.partPasid t e).1 && (s.partPasid t e).2 && !e.glob) s
def execTlbinvGpage (w : FS) (s : State) : Host.Outcome State Fault Refusal :=
  tlbinv (.tlbinvGpage w) w (fun s t a e => (s.partPasid t e).1 && e.s1Holds a) s
def execTlbinvIpa (w : FS) (s : State) : Host.Outcome State Fault Refusal :=
  tlbinv (.tlbinvIpa w) w (fun s t a e => (s.partPasid t e).1 && e.s2Holds a) s
def execTlbinvAll (w : FS) (s : State) : Host.Outcome State Fault Refusal :=
  tlbinv (.tlbinvAll w) w (fun s t _ e => (s.partPasid t e).1) s

/-! ### CTXSW (R308, R323) -/

/-- The teams of a context on a core. -/
def State.teamsOn (s : State) (ctx core : Nat) : List Nat :=
  (List.range s.teams.length).filter fun t =>
    let m := s.team t
    m.ctx == ctx && m.core == core && m.started && !m.retired && !m.agent
/-- Whether a result waits behind a held product: it stays pending over a switch (R145, R308). -/
def State.resultHeld (s : State) (t i key : Nat) : Bool :=
  let m := s.team t
  (s.seqOf m.core m.part).any fun q => (match q.op with | .acrd u j k _ _ => u == t && j == i && k == key | _ => false) &&
    !(heldSlots (s.seqNeeds m.core m.part q.gang (some q.id) q.bank q.count)).isEmpty
/-- Whether a thread stands where a switch or a migration takes it: at a clause boundary, at a blocking point, exited, or
queued for a trap level, with no store or result of its own open (R308, R309). -/
def State.threadStill (s : State) (t i : Nat) : Bool :=
  let x := s.thread t i
  (x.wait != .ready || x.mid.isNone) && !s.peerOpen t i && x.open_.all (fun p => p.value.isSome || s.resultHeld t i p.key)
/-- Whether a thread of a team must still reach a place where a switch or a migration takes it (R308, R309). -/
def State.notStopped (s : State) (t : Nat) : Bool :=
  let m := s.team t
  ((s.core m.core).issue.any fun e => match e with | some (u, _) => u == t | none => false) ||
  (List.range m.threads.length).any fun i => !s.threadStill t i
/-- Whether a copy of a team of the same span writes into a team's scratchpad. A CPYS may until it has read where to (R196). -/
def State.copiesInto (s : State) (c : Cmd) (t : Nat) : Bool :=
  let m := s.team t
  let d := s.team c.team
  let base := (s.ctxOf t).spwbase + m.rank * 0x80000
  let hits := fun (a n : Nat) => meets a n base (m.scratch * 1024)
  (c.team == t || (d.node.isNone && m.node.isNone && d.launch == m.launch && d.span == m.span)) &&
  match c.op with
  | .cpy dst _ n => hits dst n
  | .cpyg dst _ _ n e _ => hits dst (n * e)
  | .cpys _ _ _ n _ none => decide (0 < n)
  | .cpys dst _ _ _ e (some l) => l.any fun x => match x with | some k => hits (dst + k.1 * e) e | none => false
  | .cpyt false _ _ _ _ _ => c.team == t
  | .cpyt true _ org rows n h => (tileElems rows n).any fun x => match tileAddr h org x.1 x.2 with
    | some a => decide (0 ≤ a) && hits a.toNat (2 ^ shpEsz h)
    | none => false
  | _ => false
/-- Whether a switch must wait for a team: for a thread, or for a copy into its scratchpad (R308). -/
def State.notStill (s : State) (t : Nat) : Bool :=
  s.notStopped t || s.cmds.any fun c => (s.heldBy c).isEmpty && s.copiesInto c t
/-- Put a gang's bank into its team's save area, and free its number (R138). -/
def State.spillBank (s : State) (c p b : Nat) (g : Gang) : State :=
  let x := s.bank c p b
  { (s.saveBank g.team b x).modBank c p b (fun _ => AccBank.reset) with spilled := s.spilled ++ [{ gang := g, bank := b, acc := x }] }
/-- Spill every bank of a partition whose holder meets a test; ALLOCs that wait try again (R135). -/
def State.spillBanks (s : State) (c p : Nat) (test : Gang → Bool) : State :=
  ((List.range 16).foldl (fun (s : State) (b : Nat) => match (s.bank c p b).owner with
    | some g => if test g then s.spillBank c p b g else s
    | none => s) s).wakeAlloc c p
/-- Banks of a team's gangs go to its save area (R150). -/
def State.spillTeam (s : State) (t : Nat) : State := s.spillBanks (s.team t).core (s.team t).part fun g => g.team == t
/-- Take a team of a context out of its core. -/
def State.teamOut (s : State) (t : Nat) : State :=
  let s := (List.range (s.team t).nWarps).foldl (fun (s : State) (w : Nat) =>
    let s := if (s.warp t w).resident then s.swapOut t w else s
    s.modWarp t w fun x => { x with watches := [], wake := false, unreg := [] }) s
  ((s.spillTeam t).padAway t).modTeam t fun m => { m with stop := false }
/-- Warps of a team that fit beside those that are there come in, with room for its scratchpad (R15, R16, R213). -/
def State.settleIn (s : State) (t : Nat) : State :=
  let m := s.team t
  (List.range m.nWarps).foldl (fun (s : State) (w : Nat) =>
    if ((s.team t).padIn ∨ s.padUse m.core + m.scratch ≤ 512) ∧ ¬ (s.warp t w).resident ∧
      s.fits (s.residents m.core m.part ++ [(t, w)]) then s.swapIn t w else s) s
/-- Bring a team back: those of its warps that fit come in, and threads at BP-WATCH and BP-SPIN wake once (R221). -/
def State.teamIn (s : State) (t : Nat) : State :=
  let s := s.settleIn t
  let s := s.unblock t (s.waiting t fun _ v => v == .watch) true
  s.unblock t (s.waiting t fun _ v => match v with | .spin _ => true | _ => false) false
/-- Write the status of a switch. -/
def State.swStatus (s : State) (k : Iss) (ex : List Nat) (w : FS) (v : Nat) : Res :=
  .ok (s.putAll k.team w.dst 1 (ex.map fun i => (i, v)))
/-- What a switch answers before it begins, if it does not. -/
def State.swEarly (s : State) (c core : Nat) (out : Bool) : Option Nat :=
  let x := s.ctx c
  if ¬ x.valid ∨ x.part ≠ s.devPart core then some 1
  else if x.failed.isSome then some 3
  else if x.out.contains core == out then some 2
  else none

def execCtxswOut (w : FS) (s : State) : Host.Outcome State Fault Refusal :=
  sysWord (.ctxswOut w) w (fun s k ex => match ex with
    | [] => .ok s
    | _ =>
      let c := w.idx.toNat % 64
      match s.swEarly c k.core true with
      | some v => s.swStatus k ex w v
      | none =>
        let ts := s.teamsOn c k.core
        let s := ts.foldl (fun (s : State) (t : Nat) => s.modTeam t fun m => { m with stop := true }) s
        if ts.any fun t => s.notStill t then .stall s
        else
          let s := ts.foldl (fun (s : State) (t : Nat) => s.teamOut t) s
          (s.modCtx c fun x => { x with out := x.out ++ [k.core] }).swStatus k ex w 0) s
def execCtxswIn (w : FS) (s : State) : Host.Outcome State Fault Refusal :=
  sysWord (.ctxswIn w) w (fun s k ex => match ex with
    | [] => .ok s
    | _ =>
      let c := w.idx.toNat % 64
      match s.swEarly c k.core false with
      | some v => s.swStatus k ex w v
      | none =>
        let s := s.modCtx c fun x => { x with out := x.out.filter (· != k.core) }
        let s := (s.teamsOn c k.core).foldl (fun (s : State) (t : Nat) => s.teamIn t) s
        s.swStatus k ex w 0) s

/-! ### CLAIM (R224, R228, R324) -/

/-- The accepted launch whose ticket line lies at a place. -/
def State.lineOf (s : State) (l : Loc) : Option Nat :=
  (List.range s.launches.length).find? fun n =>
    let x := s.launch n
    !x.done && x.graph.isNone && (match (s.ticketLoc n).2 with | .ok y => y == l | .error _ => false)
/-- A claim answers every executing thread alike. -/
def State.claimed (s : State) (k : Iss) (w : FS) (ex : List Nat) (v : Option Nat) : Res :=
  .ok (s.putAll k.team w.dst 2 (ex.map fun i => (i, v.getD (2 ^ 64 - 1))))
/-- CLAIM of a span: one atomic claim. DESIGN CHOICE, log entry 57: its operands are the lowest executing thread's. -/
def execClaim (w : FS) (s : State) : Host.Outcome State Fault Refusal :=
  sysWord (.claim w) w (fun s k ex => match ex with
    | [] => .ok s
    | i :: _ =>
      let t := k.team
      let (s, ps) := probeEach (fun (s : State) (i : Nat) => s.access t i (s.opnd t i w.sa 2 : Int) 128 128 { write := true }) s [i]
      s.onProbes k ex ps true fun s as => match as with
        | (_, a) :: _ => (match s.lineOf a.loc with
          | none => s.claimed k w ex none
          | some l =>
            let (s, n) := s.claimAt l a.loc (s.opnd t i w.sb 1 % 4) (dieOf k.core)
            s.claimed k w ex n)
        | [] => .ok s) s

/-- The next due node launch of a graph, where it has free areas (R215, R228). -/
def State.dueNode (s : State) (g : Nat) : Option (Nat × Nat × List Nat) :=
  (nextDue (s.graph g).due).bind fun e => if s.nodeRoom g e.1 then some e else none
/-- A due node launch is claimed. -/
def State.claimDue (s : State) (g : Nat) (e : Nat × Nat × List Nat) : State :=
  s.modGraph g fun x => { x with due := x.due.erase e, taken := x.taken ++ [e] }
/-- The due node launch of a die that its doser takes next: the deeper level first, then the lower node (R228). -/
def State.dieDue (s : State) (die : Nat) : Option (Nat × Nat × Nat × List Nat) :=
  let gs := (List.range s.graphs.length).filter fun g => Config.graphDie (s.graph g).qbase % 4 == die && !(s.graph g).done
  (gs.filterMap fun g => (nextDue (s.graph g).due).map fun e => (g, e)).foldl (fun r e => match r with
    | none => some e
    | some f => if f.2.2.1 < e.2.2.1 ∨ (f.2.2.1 = e.2.2.1 ∧ e.2.1 < f.2.1) then some e else some f) none
/-- Take the next due node launch of a die: its graph, node, level and records (R324). -/
def State.takeDue (s : State) (die : Nat) : State × Option (Nat × Nat × Nat × List Nat) :=
  match s.dieDue die with
  | none => (s, none)
  | some (g, e) => (s.claimDue g e, some (g, e))
/-- CLAIM of a node launch: one atomic claim. -/
def execClaimNode (w : FS) (s : State) : Host.Outcome State Fault Refusal :=
  sysWord (.claimNode w) w (fun s k ex => match ex with
    | [] => .ok s
    | _ =>
      let (s, e) := s.takeDue (dieOf k.core)
      s.claimed k w ex (e.map fun x => (Config.nodeHandle x.1 x.2.1 x.2.2.1 (x.2.2.2.headD 0)).toNat)) s

/-! ### MCACK and HALT (R324, R327) -/

/-- A halted core as its agent rebuilds it: nothing that a context had there is taken from it. What comes back to it comes from save
areas, as a home warp comes in, and so do the products of a context that is switched out (R308, R313). -/
def Core.rebuilt (x : Core) : Core :=
  { x with l1 := [], owned := [], icache := [], tlb := [], issue := Core.reset.issue, banks := Core.reset.banks,
           spins := Core.reset.spins, halted := false }
/-- Clear a machine-check bank. A halted core whose banks are all clear is rebuilt and rejoins its partition (R313). -/
def State.mcClear (s : State) (c b : Nat) : State :=
  s.modCore c fun x =>
    let x := { x with mc := x.mc.set b [0, 0, 0, 0] }
    if x.halted ∧ ¬ x.mc.any fun l => (l.getD 0 0).getLsbD 63 then x.rebuilt else x
def execMcack (w : FS) (s : State) : Host.Outcome State Fault Refusal :=
  sysWord (.mcack w) w (fun s k ex => .ok (match ex with
    | [] => s
    | _ => s.mcClear k.core (w.idx.toNat % 4))) s

/-- HALT: in handler mode the context fails; in the agent slot the agent stops. -/
def execHalt (w : FS) (s : State) : Host.Outcome State Fault Refusal :=
  sysWord (.halt w) w (fun s k ex => match ex with
    | [] => .ok s
    | i :: _ =>
      let t := k.team
      let m := s.team t
      if m.agent then
        let s := s.modTeam t fun m => { m with threads := m.threads.map fun x => { x with wait := .exited } }
        .left ((s.modCore k.core fun x => { x with agentUp := false }).leave k)
      else .left (s.failContext m.ctx cHalt
        { value := w.idx.toNat % 256, epc := k.pc, addr := 0, at_ := some (t, i) })) s

end Sys2Proof.Machine
end

