-- ==== Sys2Proof/Machine/ThreadEvents.lean ====
section
/-! DEFINITION. Steps that threads, warps and teams on a core take between words: clause headers (R33 to R36, R49, R57),
results and acknowledgements (R52, R167), wakes (R219, R220, R239), the formation table and the tumbler (R206, R211 to
R213), the bank spill (R138), and the steps of the sequencer and the engines (R141, R195, R199). A step that the state does
not allow leaves the state as it is. -/

namespace Sys2Proof.Machine

open Sys2Proof

/-! ### The choice of a group (R203) -/

/-- A partition's number: its core and its index there. -/
def partCore (part : Nat) : Nat := part / 4
def partIdx (part : Nat) : Nat := part % 4
/-- Groups of a partition. -/
def State.groupsOf (s : State) (c p : Nat) : List Group :=
  s.groups.filter fun g => (s.team g.team).core == c && (s.team g.team).part == p

/-- Whether a group is ready to issue: it has an entry, its threads do not wait, its context is there, and its agents have not
stopped it at its clause's end (R203, R206, R308). -/
def State.ready (s : State) (g : Group) : Bool :=
  !g.parked && !g.threads.isEmpty && !s.isOut g.team && (g.threads.all fun i => (s.thread g.team i).wait == .ready) &&
  (!(s.team g.team).stop || (s.thread g.team (g.threads.headD 0)).mid.isSome)
/-- The threads of a partition's ready groups, each with the warp slot of its home warp; an agent has a slot of its own. -/
def State.readyThreads (s : State) (c p : Nat) : List (Group × Nat × (Nat × Nat)) :=
  ((s.groupsOf c p).filter fun g => s.ready g && !(s.team g.team).agent).flatMap fun g =>
    g.threads.map fun i => (g, i, s.slotOf (g.team, (s.team g.team).warpOf i))
/-- The clause from which a thread's wait counts: the one it last issued in, or after which it became ready. -/
def Thread.since (x : Thread) : Nat := max x.issued x.readyAt
/-- The clause by which a slot with a ready thread issues: within 16 of the last one that held one of its threads, or of the
one after which one became ready. -/
def State.slotDue (s : State) (ts : List (Group × Nat × (Nat × Nat))) (k : Nat × Nat) : Nat :=
  let m := s.team k.1
  let last := ((List.range m.threads.length).filter fun i => s.slotOf (k.1, m.warpOf i) == k).map fun i => (s.thread k.1 i).issued
  let since := ((ts.filter fun e => e.2.2 == k).map fun e => (s.thread e.1.team e.2.1).readyAt)
  16 + max (last.foldl max 0) (since.foldl min (since.headD 0))
/-- The clause by which a group's threads of a slot issue: within 1,024 of their last. -/
def State.groupDue (s : State) (g : Group) : Nat :=
  let l := g.threads.map fun i => (s.thread g.team i).since
  1024 + l.foldl min (l.headD 0)
/-- Whether dues that are met one after another, from a clause on and with a number of clauses to each, are all kept. -/
def inTurn (next step : Nat) (dues : List Nat) : Bool := (nsort dues).zipIdx.all fun e => decide (next + step * e.2 ≤ e.1)
/-- Whether a group may issue the next clause of its partition within the bounds of R203: every slot, and within the group's
slots every other group, can still issue by its due; or no other slot and no other group there is due sooner. -/
def State.onTime (s : State) (c p : Nat) (g : Group) : Bool :=
  let ts := s.readyThreads c p
  let n := (s.core c).clauses.getD p 0
  let slots := (ts.map fun e => e.2.2).eraseDups
  let mine := ((ts.filter fun e => e.1.team == g.team && e.1.num == g.num).map fun e => e.2.2).eraseDups
  let others := fun (k : Nat × Nat) => ((ts.filter fun e => e.2.2 == k && (e.1.team != g.team || e.1.num != g.num)).map Prod.fst).eraseDups
  let kept := inTurn (n + 2) 1 ((slots.filter fun k => !mine.contains k).map (s.slotDue ts)) &&
    mine.all fun k => inTurn (n + 17) 16 ((others k).map s.groupDue)
  let urgent := mine.any fun k => slots.all (fun j => decide (s.slotDue ts k ≤ s.slotDue ts j)) &&
    (others k).all fun h => decide (s.groupDue g ≤ s.groupDue h)
  kept || urgent
/-- The group, if it may take its partition's issue slot. -/
def State.mayIssue (s : State) (t num : Nat) : Option Group :=
  match s.group t num with
  | none => none
  | some g =>
    let m := s.team t
    if (s.core m.core).halted ∨ ((s.core m.core).issue.getD m.part none).isSome ∨ ¬ s.ready g then none
    else if m.agent ∨ s.onTime m.core m.part g then some g else none

/-- A group takes the issue slot of its partition at a position of a clause. The groups stand in the order in which they last
issued. An agent's clauses do not count among its partition's. -/
def State.take (s : State) (t num : Nat) (g : Group) (c : Clause) (pos : Nat) : State :=
  let m := s.team t
  let n := s.issueNo
  let k := s.clauseCount t + (if m.agent then 0 else 1)
  let cyc := BitVec.ofNat 64 (Config.issueCycles n)
  let s := g.threads.foldl (fun (s : State) (i : Nat) => s.modThread t i fun x =>
    { x with mid := some (c, pos), refetch := false, issued := k }) s
  let s := (s.warpsOf t g.threads).foldl (fun (s : State) (w : Nat) => s.modWarp t w fun x =>
    { x with wtime := x.wtime + cyc }) s
  let s := s.modCore m.core fun x =>
    { x with issue := x.issue.set m.part (some (t, num)), readyAt := s.clk, clauses := x.clauses.set m.part k,
             issuedAt := if m.agent then x.issuedAt else x.issuedAt.set m.part s.clk }
  let rest := s.groups.filter fun h => !(h.team == t && h.num == num)
  { s with turn := (m.core, m.part), issueNo := n + 1, groups := rest ++ [{ g with issued := k }] }

/-! ### Clause headers -/

/-- A report at a header (R57): its threads, each with a record. -/
def headerReport (is : List Nat) (pc : DWord) (r : Rep) (skipTo : Option DWord) (emu : Option Emu) : Report :=
  { threads := is, raised := is, reps := is.map fun i => (i, r), epc := pc, hdr := true, exec := is, skipTo, emu }
/-- A header that is not one (R56, R57). -/
def badHeaderReport (is : List Nat) (pc header : DWord) : Report :=
  let h := Header.ofWord header
  headerReport is pc { code := fEmul, addr := pc.toNat } (some (pc + BitVec.ofNat 64 (8 * (h.cnt.toNat + 2))))
    (some { cls := h.cls.toNat, word := header, header := true, edec := BitVec.ofNat 32 (h.cls.toNat * 2 ^ 28 + 6 * 2 ^ 24), control := false, instr := none })

/-- The loop of a group is declared spinning (R218): its threads stand at BP-SPIN on the loop's sectors. -/
def State.spinDetect (s : State) (t num : Nat) : State :=
  match s.group t num, s.spinning t num with
  | some g, some d =>
    let s := s.modSpin t num fun _ => none
    g.threads.foldl (fun (s : State) (i : Nat) => s.block t i (.spin d.armed)) s |>.tidy t
  | _, _ => s

/-- Write the results that hold the tokens of a mask in the home warps of some threads (R52). -/
def State.settleTokens (s : State) (t : Nat) (ws : List Nat) (mask : Nat) : State :=
  ws.foldl (fun (s : State) (w : Nat) => ((s.team t).members w).foldl (fun (s : State) (i : Nat) =>
    ((s.thread t i).open_.filter fun p => match p.token with | some k => mask.testBit k.toNat | none => false).foldl
      (fun (s : State) (p : Pend) => s.writeBack t i p.key) s) s) s
/-- Whether a token of a mask still counts something. -/
def State.tokensOpen (s : State) (t : Nat) (ws : List Nat) (mask : Nat) : Bool :=
  ws.any fun w => (List.range 8).any fun k => mask.testBit k && decide (0 < (s.warp t w).regs.tok.getD k 0)

/-- Home warps of threads whose WTIMER is due (R311). -/
def State.timersDue (s : State) (t : Nat) (is : List Nat) : List Nat :=
  (s.warpsOf t is).filter fun w =>
    let x := s.warp t w
    decide (x.wtcmp ≠ 0) && decide (x.wtcmp.toNat ≤ x.wtime.toNat)

/-- Fetch a clause for a group at a header: the clause, or the state after a report, a wait or a machine check. DESIGN CHOICE,
log entry 58: an entry address that is not a multiple of 8 raises MISALIGN at the header, whatever led to it; the manual says
so of RET, JMPI and CALLI alone, whose word raises it (R49). -/
def State.fetchFor (s : State) (t : Nat) (is : List Nat) (pc : DWord) (keep : Bool) : State × Option Clause :=
  let m := s.team t
  let priv := s.privileged t (is.headD 0)
  if pc.toNat % 8 ≠ 0 then (s.raise t (headerReport is pc { code := fMisalign, addr := pc.toNat } none none), none)
  else match s.fetchClause m.core m.ctx priv pc with
    | (s, .badHeader w _) => (s.raise t (badHeaderReport is pc w), none)
    | (s, .fault _ c a b) => (s.raise t (headerReport is pc { code := c, addr := a, s2 := b } none none), none)
    | (s, .pages ks) =>
      let s := s.requestAll (dieOf m.core) m.ctx ks true false
      ((s.hold t is (.page ks) keep).tidy t, none)
    | (s, .poison l) => (s.consume m.core l, none)
    | (s, .clause c) => (s, some c)
/-- Threads whose clause waits for a token are not ready: their wait for an issue begins anew (R52, R203). -/
def State.notReady (s : State) (t : Nat) (is : List Nat) : State :=
  let n := s.clauseCount t
  is.foldl (fun (s : State) (i : Nat) => s.modThread t i fun x => { x with readyAt := n }) s

/-- A group reaches a clause header: what R57 lists, in its order, then the clause starts. -/
def State.clauseHeader (s : State) (t num : Nat) : State :=
  match s.mayIssue t num with
  | none => s
  | some g =>
    let m := s.team t
    let is := g.threads
    let lead := s.thread t (is.headD 0)
    let pc := lead.pc
    if lead.mid.isSome then s
    else if (s.spinning t num).isSome then s.spinDetect t num
    else
      let meet := is.filter fun i => (s.thread t i).meet == pc
      match meet with
      | _ :: _ => (meet.foldl (fun (s : State) (i : Nat) => s.block t i .meet) s).tidy t
      | [] =>
        let brk := if breaks (s.ctxOf t).bkpt pc then is.filter fun i => (s.thread t i).noBreak != some pc else []
        match brk with
        | _ :: _ => s.raise t (headerReport brk pc { code := fBreak, addr := pc.toNat } none none)
        | [] => match s.fetchFor t is pc false with
          | (s, none) => s
          | (s, some c) =>
            let ws := s.warpsOf t is
            let s := s.settleTokens t ws c.hdr.wait.toNat
            let user := if c.hdr.cls = 3 then is.filter fun i => !s.privileged t i else []
            let due := s.timersDue t is
            if s.tokensOpen t ws c.hdr.wait.toNat then s.notReady t is
            else match user, due with
              | _ :: _, _ => s.raise t (headerReport user pc { code := fPriv, addr := pc.toNat } (some c.fall) none)
              | [], _ :: _ =>
                let mine := is.filter fun i => due.contains (m.warpOf i)
                let r := s.raise t (headerReport mine pc { code := fWtimer } none none)
                due.foldl (fun (r : State) (w : Nat) =>
                  if (mine.any fun i => m.warpOf i == w && decide ((s.thread t i).level < (r.thread t i).level))
                  then r.modWarp t w fun x => { x with wtcmp := 0 } else r) r
              | [], [] =>
                let s := is.foldl (fun (s : State) (i : Nat) => s.modThread t i fun x => { x with skip := 0, noBreak := none }) s
                (s.spinClause t num pc).take t num g c 0

/-- A group inside a clause takes the issue slot again (R36); after a return from a trap its clause is fetched again
(R302). -/
def State.resumeGroup (s : State) (t num : Nat) : State :=
  match s.mayIssue t num with
  | none => s
  | some g =>
    let lead := s.thread t (g.threads.headD 0)
    match lead.mid with
    | none => s
    | some (c, p) =>
      if g.threads.any fun i => (s.thread t i).refetch then
        match s.fetchFor t g.threads c.addr true with
        | (s, none) => s
        | (s, some c) => s.take t num g c p
      else s.take t num g c p

def execClauseHeader (team num : Nat) (s : State) : Host.Outcome State Fault Refusal := .next (s.clauseHeader team num)

/-! ### Results, acknowledgements and wakes -/

/-- A result of a thread is written (R52). -/
def execResultWriteback (team tidx k : Nat) (s : State) : Host.Outcome State Fault Refusal :=
  .next (s.writeBack team tidx k)
/-- A store's registration reaches its home, after the older stores of its L1 to its unit (R166, R167). -/
def State.storeAck (s : State) (id : Nat) : State :=
  match s.stores.find? fun x => x.id == id with
  | none => s
  | some x => s.ackStore x
def execStoreAcknowledge (id : Nat) (s : State) : Host.Outcome State Fault Refusal := .next (s.storeAck id)

/-- A home warp wakes without a write (R219, R220). -/
def State.spurious (s : State) (t w : Nat) : State :=
  let x := s.warp t w
  let here := fun (p : Wait → Bool) => ((s.team t).members w).filter fun i => p (s.thread t i).wait
  let watch := here fun v => v == .watch
  let spin := here fun v => match v with | .spin _ => true | _ => false
  let s := match watch with
    | _ :: _ => (s.modWarp t w fun x => { x with wake := false }).unblock t watch true
    | [] => if x.watches.isEmpty then s else s.modWarp t w fun x => { x with wake := true }
  if spin.isEmpty then s else s.unblock t spin false
def execSpuriousWake (team warp : Nat) (s : State) : Host.Outcome State Fault Refusal := .next (s.spurious team warp)
/-- A home warp's watches are registered (R237). -/
def execWatchRegistration (team warp : Nat) (s : State) : Host.Outcome State Fault Refusal :=
  .next (s.registerWatches team [warp])
/-- A detector declares the loop of a group that stands at its first header. -/
def execSpinDetect (team num : Nat) (s : State) : Host.Outcome State Fault Refusal :=
  .next (match s.group team num with
    | some g => if s.ready g ∧ (s.thread team (g.threads.headD 0)).mid.isNone then s.spinDetect team num else s
    | none => s)
/-- The interval of a SLEEP has passed (R239). Threads of the home warp whose interval has passed too go on together. -/
def State.sleepOver (s : State) (team tidx : Nat) : State :=
  let over_ := fun (i : Nat) => match (s.thread team i).wait with
    | .sleep till => decide (till ≤ s.clk)
    | _ => false
  if over_ tidx then
    let m := s.team team
    s.unblock team ((m.members (m.warpOf tidx)).filter over_) true
  else s
def execSleepExpire (team tidx : Nat) (s : State) : Host.Outcome State Fault Refusal := .next (s.sleepOver team tidx)
/-- WTIMER: due threads of a home warp stand at a header, where it is raised in its order (R57, R311). -/
def execWtimer (team warp : Nat) (s : State) : Host.Outcome State Fault Refusal :=
  .next (match s.groups.find? fun g => g.team == team && !(s.timersDue team g.threads).isEmpty &&
      (g.threads.any fun i => (s.team team).warpOf i == warp) && (s.thread team (g.threads.headD 0)).mid.isNone with
    | some g => s.clauseHeader team g.num
    | none => s)

/-! ### The formation table and the tumbler -/

/-- The group that a test prefers. -/
def pick (better : Group → Group → Bool) : List Group → Option Group
  | [] => none
  | g :: r => match pick better r with
    | some h => if better h g then some h else some g
    | none => some g
/-- The slow scan (R206): the group parked longest takes the entry of the group that issued most recently, or a free entry. A
group in the issue slot stands inside its clause, which no other warp's clause interrupts (R36): the scan waits for its end. -/
def State.parkScan (s : State) (c p : Nat) : State :=
  let gs := s.groupsOf c p
  let busy := (s.core c).issue.getD p none
  let set := fun (s : State) (g : Group) (parked : Bool) =>
    { s with groups := s.groups.map fun h => if h.team = g.team ∧ h.num = g.num then
        { h with parked, parkedAt := if parked then s.issueNo else h.parkedAt } else h }
  match pick (fun a b => decide (a.parkedAt < b.parkedAt)) (gs.filter Group.parked) with
  | none => s
  | some g =>
    let ready := fun (s : State) => s.notReady g.team g.threads
    if s.tableSize c p < 64 then set (ready s) g false
    else match pick (fun a b => decide (b.issued < a.issued)) (gs.filter fun h => !h.parked) with
      | some h => if busy = some (h.team, h.num) then s else set (set (ready s) g false) h true
      | none => s
def execParkScan (part : Nat) (s : State) : Host.Outcome State Fault Refusal :=
  .next (s.parkScan (partCore part) (partIdx part))

/-- Whether a home warp has yet to arrive in a wait in which another member stands waiting (R211). -/
def State.awaited (s : State) (t w : Nat) : Bool :=
  let m := s.team t
  let missing := fun (e : Nat × Word) => (m.members w).any fun i => !(s.thread t i).gone && !(s.thread t i).came.contains e
  (m.threads.any fun x => match x.wait with | .bar k g => missing (k, g) | _ => false) ||
  ((List.range s.teams.length).any fun u => (s.team u).launch == m.launch && s.spanNo u == s.spanNo t &&
    (s.team u).threads.any fun x => match x.wait with | .span k g => missing (16 + k, g) | _ => false) ||
  m.latches.any fun l => l.gang.members.contains w && !l.arrived.contains w

/-- Whether a remote access waits for a team to be there (R174). -/
def State.calledFor (s : State) (t : Nat) : Bool := s.teams.any fun m => m.threads.any fun x => x.wait == .remoteTeam t
/-- The priority of a runnable warp (R211): first where a remote access waits for its team, next where a wait of its group
waits for it, then by when it became runnable. -/
def State.rankIn (s : State) (t w : Nat) : List Nat :=
  if s.calledFor t then [0] else if s.awaited t w then [1] else [2, (s.warp t w).since]

/-- Lexicographic order. -/
def lexLe : List Nat → List Nat → Bool
  | [], _ => true
  | _ :: _, [] => false
  | a :: r, b :: q => decide (a < b) || (a == b && lexLe r q)
/-- A team's linear index in its grid (R20). -/
def State.linear (s : State) (t : Nat) : Nat :=
  let m := s.team t
  let l := s.launch m.launch
  m.x + l.nx * (m.y + l.ny * m.z)
/-- Sort warps by keys; ties go to the lower linear team index, then to the lower home warp (R211). -/
def State.sortWarps (s : State) (l : List (List Nat × Nat × Nat)) : List (Nat × Nat) :=
  let key := fun (e : List Nat × Nat × Nat) => e.1 ++ [s.linear e.2.1, e.2.2, e.2.1]
  (isort (fun (a b : List Nat × Nat × Nat) => lexLe (key a) (key b)) l).map Prod.snd

/-- Whether a team of a core may have its scratchpad there: it has it, or it fits (R213). -/
def State.padFits (s : State) (t : Nat) : Bool := (s.team t).padIn || decide (s.padUse (s.team t).core + (s.team t).scratch ≤ 512)
/-- The teams placed on a partition that the tumbler moves. -/
def State.moved (s : State) (c p : Nat) : List Nat :=
  (List.range s.teams.length).filter fun t =>
    let m := s.team t
    m.core == c && m.part == p && m.started && !m.retired && !s.isOut t && !m.agent
/-- Runnable warps of a partition that are not resident, in the order of R211. -/
def State.incoming (s : State) (c p : Nat) : List (Nat × Nat) :=
  s.sortWarps ((s.moved c p).flatMap fun t =>
    if s.padFits t then ((List.range (s.team t).nWarps).filter fun w => s.runnable t w).map fun w => (s.rankIn t w, t, w) else [])
/-- Eviction candidates of a partition, longest-standing first. -/
def State.outgoing (s : State) (c p : Nat) : List (Nat × Nat) :=
  s.sortWarps (((s.residents c p).filter fun e => s.candidate e.1 e.2 && !(s.team e.1).agent).map fun e =>
    ([(s.warp e.1 e.2).since], e.1, e.2))
/-- The candidates that leave for a warp: none where it fits as it is; the first whose departure suffices alone; else the
first ones until it fits. -/
def State.leavers (s : State) (res cands : List (Nat × Nat)) (w : Nat × Nat) : Option (List (Nat × Nat)) :=
  let fitsWithout := fun (out : List (Nat × Nat)) => s.fits ((res.filter fun e => !out.contains e) ++ [w])
  if fitsWithout [] then some []
  else match cands.find? fun e => fitsWithout [e] with
    | some e => some [e]
    | none => ((List.range (cands.length + 1)).map fun n => cands.take n).find? fitsWithout
/-- A team that a remote access waits for, and of which no warp is to come in: its scratchpad is restored alone (R213). -/
def State.padCalled (s : State) (c p : Nat) : Option Nat :=
  (s.moved c p).find? fun t => s.calledFor t && !(s.team t).padIn && s.padFits t &&
    !(List.range (s.team t).nWarps).any fun w => s.runnable t w
/-- The tumbler swaps. Rotating out is a release: the swap waits until those that leave have none of their stores open at
peers (R170, R335). -/
def State.tumble (s : State) (c p : Nat) : State :=
  match s.padCalled c p with
  | some t => s.padBack t
  | none =>
    let res := s.residents c p
    let cands := s.outgoing c p
    match (s.incoming c p).findSome? fun w => (s.leavers res cands w).map fun l => (w, l) with
    | none => s
    | some (w, l) =>
      if l.all s.mayLeave then (l.foldl (fun (s : State) (e : Nat × Nat) => s.swapOut e.1 e.2) s).swapIn w.1 w.2 else s
def execTumblerSwap (part : Nat) (s : State) : Host.Outcome State Fault Refusal :=
  .next (s.tumble (partCore part) (partIdx part))

/-- An idle write-back port writes a dirty register of a resident home warp to its save area and clears its dirty bit (R212):
a vector register by its number, a scalar by its number from 1000 up. -/
def State.writeDirty (s : State) (t w key : Nat) : State :=
  let x := s.warp t w
  if x.resident ∧ (s.team t).regKeys.contains key ∧ ¬ x.clean.contains key then
    (s.saveReg t w key).modWarp t w fun x => { x with clean := x.clean ++ [key] }
  else s
def execCheckpointWriteback (team warp reg : Nat) (s : State) : Host.Outcome State Fault Refusal := .next (s.writeDirty team warp reg)

/-- Whether a team that is out needs its scratchpad: to run, or for an access that waits for it (R213). -/
def State.needsPad (s : State) (t : Nat) : Bool :=
  let m := s.team t
  m.started && !m.retired && !m.padIn && !s.isOut t && (s.calledFor t || (List.range m.nWarps).any fun w => s.runnable t w)
/-- A whole team leaves its core for the scratchpad that another needs, once none of its stores is open at a peer (R170,
R213). -/
def State.rotateOut (s : State) (t : Nat) : State :=
  let m := s.team t
  let need := (List.range s.teams.length).any fun u => u != t && (s.team u).core == m.core && s.needsPad u && !s.padFits u
  let ws := (List.range m.nWarps).filter fun w => (s.warp t w).resident
  if need ∧ (ws.all fun w => s.candidate t w && s.mayLeave (t, w)) ∧ m.padIn ∧ m.started ∧ ¬ m.retired ∧ ¬ m.agent then
    (ws.foldl (fun (s : State) (w : Nat) => s.swapOut t w) s).padAway t
  else s
def execTeamRotateOut (team : Nat) (s : State) : Host.Outcome State Fault Refusal := .next (s.rotateOut team)

/-! ### Banks, products and engines -/

/-- Whether every thread of a gang's members stands at a blocking point or has exited, or its team is out. -/
def State.gangStill (s : State) (g : Gang) : Bool :=
  s.isOut g.team || g.members.all fun w => ((s.team g.team).members w).all fun i =>
    let v := (s.thread g.team i).wait
    v.blocking || v == .exited
/-- The banks of a gang that stands still, and none of whose commands can go on, are spilled for an ALLOC, or for a full latch, that
waits for them (R138). With the bank free, a full latch that waited is accepted. -/
def State.bankSpill (s : State) (c p b : Nat) : State :=
  match (s.bank c p b).owner with
  | none => s.latchChecks c p
  | some g =>
    let asked := (List.range s.teams.length).any fun t =>
      let m := s.team t
      m.core == c && m.part == p &&
      ((List.range m.threads.length).any (fun i => match (s.thread t i).wait with
        | .alloc k n => decide (k ≤ b) && decide (b < k + n) && s.gangOf t (m.warpOf i) != g
        | _ => false) ||
       m.latches.any fun l => l.gang != g && s.latchBlocked l && (range (bits l.word.toNat 7 4) 4).contains b)
    let held := ((s.seqOf c p).filter fun q => q.gang == g).all fun q =>
      !(heldSlots (q :: s.seqNeeds c p g (some q.id) q.bank q.count)).isEmpty
    if asked ∧ s.gangStill g ∧ held then s.spillBanks c p fun h => h == g else s
def execBankSpill (part bank : Nat) (s : State) : Host.Outcome State Fault Refusal :=
  .next (s.bankSpill (partCore part) (partIdx part) bank)

/-- A product runs one K row, or ends (R141, R144). -/
def State.kRow (s : State) (id : Nat) : State :=
  let places := (List.range s.cores.length).flatMap fun c => (List.range 4).map fun p => (c, p)
  match places.findSome? fun e => ((s.seqOf e.1 e.2).find? fun q => q.id == id).map fun q => (e, q) with
  | none => s
  | some ((c, p), q) => match q.op with
    | .product x =>
      if x.guard.isSome ∨ s.isOut q.gang.team ∨ (s.core c).halted ∨ ¬ (s.seqBefore c p q.gang (some q.id) q.bank q.count).isEmpty
      then s
      else match s.runRow c p q x with
        | (s, .poison l) => s.consume c l
        | (s, .row) | (s, .pages _) | (s, .blocked) => s
        | (s, _) => (s.seqAdvance c p (s.seqOf c p).length).wakeBatches q.gang.team
    | _ => s
def execKRow (id : Nat) (s : State) : Host.Outcome State Fault Refusal := .next (s.kRow id)

/-- The engine moves a piece of a command (R195). -/
def execCopyTransfer (id piece : Nat) (s : State) : Host.Outcome State Fault Refusal :=
  .next (match s.cmds.find? fun c => c.id == id with
    | some c => if (s.heldBy c).isEmpty then s.transfer c piece else s
    | none => s)
/-- A walk makes a hop (R200). -/
def execWalkHop (id : Nat) (s : State) : Host.Outcome State Fault Refusal :=
  .next (match s.cmds.find? fun c => c.id == id with
    | some c => if (s.heldBy c).isEmpty then s.hop c else s
    | none => s)

end Sys2Proof.Machine
end

