-- ==== Sys2Proof/Machine/Teams.lean ====
section
/-! DEFINITION. Teams: start (R19, R22, R23, R28, R29, R214, R215, R217), retirement (R150, R160, R217), stealing (R224) and
the doser's timer (R228), and the end of a graph (R229). -/

namespace Sys2Proof.Machine

open Sys2Proof

/-! ### A team's registers at its start (R23, R24) -/

/-- A thread at its team's start. -/
def Thread.start (code : DWord) (nv : Nat) (recIdx : Word) (delivered : Option RecSlot) : Thread :=
  { pc := code, mid := none, skip := 0, released := false, refetch := false, noBreak := none, meet := 1, mtag := 0, alone := false,
    v := List.replicate nv 0, p := 0, batch := 1, sealed := [], faults := [], laneSet := 0, steps := 0, issued := 0, readyAt := 0,
    came := [], wait := .ready, pend := [], level := 0, banks := [], ew := [], recIdx, delivered, recs := [], deny := [], due := none, flush := none }
/-- The warp state at a team's start: s0 to s15 hold the parameters (R28). -/
def WarpRegs.start (params : List Word) : WarpRegs :=
  { s := params ++ List.replicate (48 - params.length) 0, tok := List.replicate 8 0, shape := 0, gang := 0, vcnt := 0x8080,
    mprog := 0, comm := 0, crank := 0, cbabort := 0 }
/-- A home warp at its team's start, not yet resident. -/
def Warp.start (params : List Word) (clk : Nat) : Warp :=
  { regs := WarpRegs.start params, guards := List.replicate 8 false, cseq := 0, cbstat := 0, wtime := 0, wtcmp := 0,
    watches := [], unreg := [], wake := false, insts := [], spec := none, resident := false, since := clk, clean := [],
    nextSet := 1, trail := [], next := [], colls := 0 }
/-- The parameter words of eight 64-bit words (R28). -/
def paramWords (qs : List DWord) : List Word := qs.flatMap fun q => [q.extractLsb' 0 32, q.extractLsb' 32 32]

/-- Where a team starts: its launch, coordinates, span, core and partition, and for a node launch its graph, node, level
and slots. -/
structure Spot where
  launch : Nat
  desc   : List DWord
  param  : Nat
  coords : Nat × Nat × Nat
  span   : Nat
  rank   : Nat
  size   : Nat
  core   : Nat
  part   : Nat
  node   : Option (Nat × Nat × Nat × List Nat)
deriving DecidableEq, Repr

/-- The records of a node launch, in commit order. -/
def Spot.recs (p : Spot) : List RecSlot :=
  match p.node with
  | some (g, n, d, ks) => ks.map fun k => { graph := g, node := n, level := d, slot := k }
  | none => []

/-- The team that starts at a spot, with its areas and parameters. -/
def Spot.team (p : Spot) (ctx save visible clk : Nat) (params : List Word) (padIn started : Bool) : Team :=
  let d := p.desc
  let n := dNtid d
  let rs := p.recs
  let idx := fun (i : Nat) => if p.node.isSome then BitVec.ofNat 32 i else (BitVec.allOnes 32 : Word)
  { ctx, launch := p.launch, node := p.node.map (fun e => (e.1, e.2.1, e.2.2.1)), agent := false,
    x := p.coords.1, y := p.coords.2.1, z := p.coords.2.2, span := p.span, rank := p.rank, spanSize := p.size, ntid := n,
    width := dHw d, vregs := dVregs d, scratch := dScratch d, reslim := dReslim d, code := BitVec.ofNat 64 (dCode d),
    lcid := p.core, core := p.core, part := p.part, nrec := BitVec.ofNat 32 rs.length,
    recbase := (if p.node.isSome then BitVec.ofNat 64 (visible + 64 * dWarps d * dHw d) else 0), save, visible, pad := [],
    padIn, late := [], bars := List.replicate 16 (BarRec.start false n), spanCnt := List.replicate 16 0, latches := [],
    threads := (List.range n).map (fun i => Thread.start (BitVec.ofNat 64 (dCode d)) (8 * dVregs d) (idx i) rs[i]?),
    warps := List.replicate (dWarps d) (Warp.start params clk), nextGroup := 0, started, retired := false,
    stop := false }

/-- A team cannot start: its context fails, and the failure record names the team (R29, R306). -/
def State.startFails (s : State) (p : Spot) (code addr : Nat) : State :=
  let x := s.launch p.launch
  let t := s.teams.length
  let m := p.team x.ctx 0 0 s.clk [] false false
  ({ s with teams := s.teams ++ [m] } : State).failContext x.ctx code
    { value := 0, epc := m.code, addr, at_ := some (t, 0) }

/-- Probe the record list of a node launch for Virlin's writes (R215, R228). -/
def State.probeList (s : State) (ctx base n : Nat) : State × List Probe :=
  s.probeAreas ctx ((List.range n).map fun k => (base + 8 * k) % 2 ^ 64)

/-- One access of Virlin for a team that starts, with the context's rights: every check of R173, a window of its span
included (R29, R174). -/
def State.probeParam (s : State) (p : Spot) (va : Nat) : State × Probe :=
  let c := (s.launch p.launch).ctx
  match checks14 false va 8 8 with
  | some (c, a) => (s, .fault c a false)
  | none => match s.check5Of (p.team c 0 0 0 [] true true) s.teams.length va 8 with
    | some r => (s, r)
    | none => s.checks69 noCore c false va {} fun _ => true
/-- The team's areas are zeroed, and the barrier records set in them (R215 to R217). -/
def State.openAreas (s : State) (t : Nat) : State :=
  let s := s.areaZero t 0 (s.team t).areas
  let s := s.areaPut t 0 ((s.team t).bars.flatMap BarRec.bytes)
  match s.spanHome t with
  | some u => s.areaPut u 0x200 ((List.range 16).flatMap fun id => (s.spanBar t id).bytes)
  | none => s

/-- PUSH prefetch (R204): lines from CODE enter the core's instruction cache. -/
def State.push (s : State) (p : Spot) (ctx : Nat) : State :=
  if dPfmode p.desc = 2 then
    (s.fetchWords p.core ctx false (dCode p.desc) (16 * dPflines p.desc)).1
  else s

/-- The cluster's L1s become one (R155). DESIGN CHOICE, log entry 60: a cluster enters fused mode when a team of a fused launch
first starts there, and stays in it until reset. -/
def State.fuse (s : State) (core : Nat) : State :=
  if (s.core core).fused then s
  else
    let mine := fun (c : Nat) => c / 8 == core / 8
    let s := s.ackAll (s.stores.filter fun x => mine x.core)
    { s with cores := s.cores.mapIdx fun c x => if mine c then { x with fused := true, l1 := [], owned := [] } else x }

/-- Start a team at a spot: parameters, areas, record list, then the team (R28, R29, R215, R217, R22). `began` changes the
state where the team starts. -/
def State.startAt (s : State) (p : Spot) (began : State → State) : State :=
  let x := s.launch p.launch
  let c := x.ctx
  match s.probeUnits (fun (s : State) (va : Nat) => s.probeParam p va) p.param 8 8 with
  | (s, .error (.page ks)) => s.requestAll (dieOf p.core) c ks false false
  | (s, .error (.fault code a _)) => s.startFails p code a
  | (s, .error (.remote _)) | (s, .error (.ok _ _)) => s
  | (s, .ok ls) =>
    match s.saveSpot c (dArea p.desc), s.visibleSpot p.launch (s.visibleUnit p.launch) with
    | some save, some vis =>
      let rs := p.recs
      let base := vis + 64 * dWarps p.desc * dHw p.desc
      let (s, ps) := s.probeList c base rs.length
      match lowFault ps with
      | some (code, a, _) => s.startFails p code a
      | none => match absentPages ps with
        | k :: ks => s.requestAll (dieOf p.core) c (k :: ks) false true
        | [] =>
          match ls.find? fun l => s.poisoned l 8 with
          | some l => s.consume p.core l
          | none =>
            let s := began s
            let s := (ps.zip rs).foldl (fun (s : State) (e : Probe × RecSlot) => match e.1 with
              | .ok l _ => s.writeLoc noOwner l (leBytes 8 (((s.graph e.2.graph).node e.2.node).slotAddr e.2.level e.2.slot)) false
              | _ => s) s
            let s := if x.fuse then s.fuse p.core else s
            let params := paramWords (s.readLocs ls)
            let t := s.teams.length
            let room := decide (s.padUse p.core + dScratch p.desc ≤ 512)
            let s := { s with teams := s.teams ++ [p.team c save vis s.clk params room true] }
            let span := s.spanNo t
            let s := if s.spans.any fun y => y.launch == p.launch && y.span == span then s
              else { s with spans := s.spans ++ [{ launch := p.launch, span, teams := p.size,
                                                   bars := List.replicate 16 (BarRec.start true p.size) }] }
            let s := ((s.openAreas t).acquire p.core).settleIn t
            let s := s.push p c
            let late := if p.node.isSome then (List.range (dNtid p.desc - rs.length)).map (rs.length + ·) else []
            let s := late.foldl (fun (s : State) (i : Nat) => s.exitThread t i) s
            (s.tidy t).wakeRemote
    | _, _ => s

/-! ### Which team may start where -/

/-- Whether some core of a die that a partition may use has a free warp slot (R224). -/
def State.slotOn (s : State) (part die : Nat) : Bool :=
  ((List.range 48).map (48 * die + ·)).any fun c =>
    s.usable part c && (List.range 4).any fun p => decide (s.slots (s.residents c p) < 16)

/-- Claim a span of a launch for the die of a core, where the step of R224 yields it; the die takes the step only with a free core
slot and free areas for a span's teams. -/
def State.claimSpan (s : State) (l k die : Nat) : State :=
  let x := s.launch l
  match s.ticketLoc l with
  | (s, .error (.page keys)) => s.requestAll die x.ctx keys false true
  | (s, .error _) => s
  | (s, .ok line) =>
    let t := leValue (s.homeBytes (line.add (8 * die)) 8).2
    match (x.claimStep die t).2 with
    | none => if s.roomFor l (x.spanTeams 0) (dArea x.desc) ∧ s.slotOn (s.ctx x.ctx).part die then (s.claimAt l line die die).1 else s
    | some j => if j = k ∧ s.roomFor l (x.spanTeams k) (dArea x.desc) ∧ s.slotOn (s.ctx x.ctx).part die
      then (s.claimAt l line die die).1 else s

/-- Start team `index` of a grid (R20, R21, R224). Where its span is not claimed, the core's die takes the step of R224, which
claims it if it is the die's next one; a die whose next 64 spans are all others' moves its ticket on, also where the team
has started elsewhere. -/
def State.startGrid (s : State) (l index core part : Nat) : State :=
  let x := s.launch l
  let k := index / x.spanLen
  let rank := index % x.spanLen
  if x.size ≤ index then s
  else if (s.spanTeam l k rank).isSome then s.claimSpan l x.nspan (dieOf core)
  else
    let s := if x.claimed.any fun e => e.1 == k then s else s.claimSpan l k (dieOf core)
    match (s.launch l).claimed.find? fun e => e.1 == k with
    | none => s
    | some (_, die) =>
      if s.clusterFor (s.ctx x.ctx).part die (x.slice k) ≠ some (core / 8) then s
      else s.startAt { launch := l, desc := x.desc, param := x.param, coords := x.coords index, span := k, rank,
                       size := x.spanTeams k, core, part, node := none } id

/-- Start a node launch of a graph (R22, R228): a claimed one, or the next due on the graph's home die, which is thereby
claimed. -/
def State.startNode (s : State) (l g index core part : Nat) : State :=
  let x := s.graph g
  let home := Config.graphDie x.qbase % 4 == dieOf core
  let pick := match x.taken[index]? with
    | some e => some (s, e)
    | none => if x.taken.isEmpty && home && s.slotOn (s.ctx (s.launch l).ctx).part (dieOf core) then
        (s.dueNode g).map fun e => (s.claimDue g e, e)
      else none
  match pick with
  | none => s
  | some (s, e) =>
    let n := x.node e.1
    s.startAt { launch := l, desc := n.desc, param := dq n.desc 1, coords := (e.1, 0, 0), span := 0, rank := 0, size := 1,
                core, part, node := some (g, e.1, e.2.1, e.2.2) }
      fun s => s.modGraph g fun y => { y with taken := y.taken.erase e }

/-- A team starts on a partition of a core. -/
def State.teamStart (s : State) (l index core part : Nat) : State :=
  let x := s.launch l
  let c := s.ctx x.ctx
  if s.launches.length ≤ l ∨ x.done ∨ 4 ≤ part ∨ ¬ c.valid ∨ c.failed.isSome ∨ ¬ s.usable c.part core ∨ c.out.contains core
  then s
  else match x.graph with
    | some g => s.startNode l g index core part
    | none => s.startGrid l index core part
def execTeamStart (launch index core part : Nat) (s : State) : Host.Outcome State Fault Refusal :=
  .next (s.teamStart launch index core part)

/-! ### Retirement -/

/-- Whether a graph has drained (R229). -/
def State.drained (s : State) (g : Nat) : Bool :=
  let x := s.graph g
  !x.done && x.slots.isEmpty && x.due.isEmpty && x.taken.isEmpty &&
  s.teams.all fun m => m.retired || (match m.node with | some (h, _, _) => h != g | none => true)
/-- A drained graph writes 1 to SIGADDR and completes its packet (R229). -/
def State.graphCheck (s : State) (g : Nat) : State :=
  if g < s.graphs.length ∧ s.drained g then
    let x := s.graph g
    let l := s.launch x.launch
    let done := fun (s : State) =>
      let s := s.modGraph g fun y => { y with done := true }
      (s.modLaunch x.launch fun y => { y with done := true }).complete x.launch stDone
    match s.probeCtx l.ctx x.sig 8 { write := true, line := true } with
    | (s, .ok loc _) => done (s.writeLoc noOwner loc (leBytes 8 1) false)
    | (s, .page keys) => s.requestAll 0 l.ctx keys false true
    | (s, _) => done ((s.setErr l.iface 3 l.index).errorInt l.iface)
  else s

/-- The first fault of a team that nothing has reported: of an engine command, or of a product (R144, R160). -/
def State.unreported (s : State) (t : Nat) : Option Blame :=
  let m := s.team t
  match ((List.range m.threads.length).findSome? fun i => ((s.thread t i).faults.head?).map fun f => (i, f)) with
  | some (i, f) => some { value := 0, epc := f.pc, addr := f.addr, at_ := some (t, i) }
  | none =>
    let held := (s.core m.core).banks.getD m.part [] ++ s.spilled.map Spill.acc
    (held.findSome? fun b => match b.owner, b.fault with
      | some g, some (f, _) => if g.team = t ∧ ¬ f.told then some f else none
      | _, _ => none).map fun f => { value := f.row, epc := 0, addr := f.addr, at_ := none }

/-- Free every bank that a team's gangs hold or have spilled (R150). -/
def State.freeBanks (s : State) (t : Nat) : State :=
  let m := s.team t
  let mine := fun (b : AccBank) => match b.owner with | some g => g.team == t | none => false
  let s := s.modCore m.core fun x =>
    { x with banks := x.banks.map fun l => l.map fun b => if mine b then b.freed else b }
  ({ s with spilled := s.spilled.filter fun b => b.gang.team != t } : State).wakeAlloc m.core m.part

/-- One more retired team of a grid: RETIRED counts it, and the launch completes when RETIRED is the number of teams (R223,
R224). DESIGN CHOICE, log entry 23: with the line out of reach, the teams that have retired count. -/
def State.countRetired (s : State) (l : Nat) (line : Option Loc) : State :=
  let s := s.modLaunch l fun y => { y with retired := y.retired + 1 }
  let (s, n) := match line with
    | some loc =>
      let (s, bs) := s.homeBytes (loc.add 32) 8
      let n := (leValue bs + 1) % 2 ^ 64
      (s.writeLoc noOwner (loc.add 32) (leBytes 8 n) false, n)
    | none => (s, (s.launch l).retired)
  let x := s.launch l
  if n = x.size ∧ ¬ x.done then (s.modLaunch l fun y => { y with done := true }).complete l stDone else s

/-- A team retires (R150): a fault that nothing reported fails the context; else its span expects one arrival less, its
banks and areas are free, and its launch or graph goes on. -/
def State.teamRetire (s : State) (t : Nat) : State :=
  let m := s.team t
  if s.teams.length ≤ t ∨ ¬ m.started ∨ m.retired ∨ m.agent ∨ ¬ (m.threads.all fun x => x.wait == .exited) ∨ s.inFlight t
  then s
  else match s.unreported t with
    | some b => s.failContext m.ctx cUnreported b
    | none =>
      let line := if m.node.isSome then (s, Except.error (Probe.remote none)) else s.ticketLoc m.launch
      match line with
      | (s, .error (.page keys)) => s.requestAll (dieOf m.core) m.ctx keys false true
      | (s, line) =>
        let s := (List.range 16).foldl (fun (s : State) (id : Nat) =>
          s.spanMod t id fun b => { b with expect := b.expect - 1 }) s
        let n := s.spanNo t
        let less := fun (y : SpanRec) => if y.launch = m.launch ∧ y.span = n then { y with teams := y.teams - 1 } else y
        let s := { s with spans := (s.spans.map less).filter fun (y : SpanRec) => y.teams != 0 }
        let s := s.freeBanks t
        let off := fun (w : Warp) => { w with resident := false }
        let s := s.modTeam t fun m => { m with retired := true, padIn := false, warps := m.warps.map off }
        let s := match m.node with
          | some (g, _, _) => s.graphCheck g
          | none => s.countRetired m.launch (match line with | .ok loc => some loc | .error _ => none)
        s.wakeRemote
def execTeamRetire (team : Nat) (s : State) : Host.Outcome State Fault Refusal := .next (s.teamRetire team)

/-! ### Stealing and the doser's timer -/

/-- Whether a core holds a resident warp that does not stand at a blocking point. -/
def State.busyCore (s : State) (c : Nat) : Bool :=
  (List.range s.teams.length).any fun t =>
    let m := s.team t
    m.core == c && !m.retired && (List.range m.nWarps).any fun w => (s.warp t w).resident && !s.candidate t w
/-- Whether a die's cores of a partition have held no ready resident warp for 2 µs (R224). -/
def State.idleDie (s : State) (part die : Nat) : Bool :=
  ((List.range 48).map (48 * die + ·)).all fun c =>
    s.devPart c != part || (!s.busyCore c && decide ((s.core c).readyAt + 2000 ≤ s.clk))

/-- The step of R224 with the tickets of other dies, in turn. -/
def State.stealFrom (s : State) (l die : Nat) (line : Loc) : List Nat → State
  | [] => s
  | e :: r =>
    let x := s.launch l
    match (x.claimStep e (leValue (s.homeBytes (line.add (8 * e)) 8).2)).2 with
    | none => if s.roomFor l (x.spanTeams 0) (dArea x.desc) then (s.claimAt l line e die).1.stealFrom l die line r else s
    | some k => if s.roomFor l (x.spanTeams k) (dArea x.desc) then (s.claimAt l line e die).1 else s
/-- A die steals a span of a launch, or takes a due node launch of another die. -/
def State.steal (s : State) (die l : Nat) : State :=
  let x := s.launch l
  let c := s.ctx x.ctx
  if s.launches.length ≤ l ∨ x.done ∨ 4 ≤ die ∨ ¬ c.valid ∨ c.failed.isSome ∨ ¬ s.idleDie c.part die ∨ ¬ s.slotOn c.part die
  then s
  else match x.graph with
    | some g => match s.dueNode g with
      | some e => s.claimDue g e
      | none => s
    | none => match s.ticketLoc l with
      | (s, .ok line) => s.stealFrom l die line [(die + 1) % 4, (die + 2) % 4, (die + 3) % 4]
      | (s, .error (.page keys)) => s.requestAll die x.ctx keys false true
      | (s, .error _) => s
def execWorkSteal (die launch : Nat) (s : State) : Host.Outcome State Fault Refusal := .next (s.steal die launch)

/-- The oldest record of a slice has waited out its node's timer: a partial launch is due (R228). -/
def State.doserTimer (s : State) (l n d : Nat) : State :=
  match (s.launch l).graph with
  | none => s
  | some g =>
    let x := s.graph g
    match x.committed n d with
    | [] => s
    | (_, time, _) :: _ =>
      if ¬ x.done ∧ time + 1000 * (x.node n).timer ≤ s.clk then s.modGraph g fun y => y.deliver g n d (y.committed n d).length
      else s
def execDoserTimer (launch node depth : Nat) (s : State) : Host.Outcome State Fault Refusal :=
  .next (s.doserTimer launch node depth)

end Sys2Proof.Machine
end

