-- ==== Sys2Proof/Machine/FrontEnd.lean ====
section
/-! DEFINITION. The front end of the queue interfaces: doorbells, the order and the checks of packets, and what each packet
does (R225 to R227, R281 to R289). -/

namespace Sys2Proof.Machine

open Sys2Proof

/-! ### Rings (R225, R281 to R283) -/

/-- Halt an interface with an error (R282, R283). -/
def State.haltIface (s : State) (q code : Nat) : State :=
  let s := (s.setErr q code (s.iface q).head).modIface q fun x => { x with halt := true }
  s.errorInt q
/-- A doorbell: a new tail (R283). -/
def State.doorbell (s : State) (q : Nat) (t : Word) : State :=
  let x := s.iface q
  if ¬ s.mgmt.ready ∨ ¬ x.en ∨ x.halt then s
  else if 2 ^ x.szlog < (t.toNat + 2 ^ 32 - x.head) % 2 ^ 32 then s.haltIface q 2
  else s.modIface q fun y => y.announce t.toNat s.clk
def execDoorbell (q : Nat) (tail : Word) (s : State) : Host.Outcome State Fault Refusal := .next (s.doorbell q tail)

/-- A packet of a ring, as its eight units stand now. -/
def State.readPacket (s : State) (q i : Nat) : Option (List DWord) :=
  (s.ringLoc q i).map fun l => s.readLocs ((List.range 8).map fun j => l.add (8 * j))
/-- Read one more packet ahead (R225). -/
def State.readAhead (s : State) (q : Nat) : State :=
  let x := s.iface q
  let n := x.ahead.length
  if ¬ x.en ∨ x.halt ∨ 33 ≤ n ∨ x.used ≤ n then s
  else
    let i := (x.head + n) % 2 ^ 32
    let s := s.ringTouch q i false
    match s.readPacket q i with
    | some ws => s.modIface q fun y => { y with ahead := y.ahead ++ [(i, ws)] }
    | none => s

/-- How the next packet of a queue stands. -/
inductive Head where
  | none
  | fault
  | packet (words : List DWord)
deriving DecidableEq, Repr

/-- The next packet to be processed. -/
def State.head (s : State) (q : Nat) : Head :=
  let x := s.iface q
  if ¬ s.mgmt.ready ∨ ¬ x.en ∨ x.halt ∨ x.blocked ∨ x.used = 0 then .none
  else match x.ahead.find? fun e => e.1 == x.head with
    | some e => .packet e.2
    | Option.none => match s.readPacket q x.head with
      | some ws => .packet ws
      | Option.none => .fault

/-- The packets announced at each time, without the oldest of them. -/
def dropOldest : List (Nat × Nat) → List (Nat × Nat)
  | (n + 2, c) :: r => (n + 1, c) :: r
  | _ :: r => r
  | [] => []
/-- HEAD passes the packet; the next has waited since it was announced (R282). -/
def State.advance (s : State) (q : Nat) : State :=
  s.modIface q fun x => { x with head := (x.head + 1) % 2 ^ 32, ahead := x.ahead.filter (fun e => e.1 != x.head),
                                 since := dropOldest x.since, aged := false, waits := [] }
/-- A packet begins. -/
def State.begin_ (s : State) (q : Nat) (p : Packet) : State :=
  (s.advance q).modIface q fun x => { x with begun := x.begun ++ [p] }
/-- A packet begins and completes with a status. -/
def State.beginEnd (s : State) (q : Nat) (p : Packet) (status : Nat) : State := (s.begin_ q p).completeNow q p status
/-- A refused packet: its status, the error and the error interrupt (R286). -/
def State.refuse (s : State) (q : Nat) (p : Packet) (status : Nat) : State :=
  ((s.beginEnd q p status).setErr q 1 p.index).errorInt q

/-! ### Checks of a packet (R284, R286, R287) -/

/-- TYPE of a packet, and whether it asks for an interrupt. -/
def pType (ws : List DWord) : Nat := bits (dq ws 0) 7 0
def pIrq (ws : List DWord) : Bool := bits (dq ws 0) 8 8 == 1
/-- Whether a packet waits for every earlier one to complete before it begins (R284). -/
def pAfter (ws : List DWord) : Bool := bits (dq ws 0) 12 12 == 1 || pType ws == 4 || pType ws == 5
/-- Step 2 of R286. -/
def packetBad (ws : List DWord) : Bool :=
  let k := dq ws
  let zero := fun (l : List Nat) => l.all fun j => k j == 0
  let reserved := bits (k 0) 63 52 != 0 || bits (k 0) 31 13 != 0 || (bits (k 0) 11 11 != 0 && pType ws != 1)
  let nx := bits (k 4) 31 0
  let ny := bits (k 4) 63 32
  let nz := bits (k 5) 31 0
  let outside := fun (n : Nat) => n == 0 || decide (2 ^ 31 - 1 < n)
  reserved || (match pType ws with
    | 0 | 5 => !zero [2, 3, 4, 5, 6, 7]
    | 1 => outside nx || outside ny || outside nz || decide (2 ^ 52 < nx * ny * nz) || k 7 % 65536 != 0
    | 2 => !zero [3, 4, 6] || bits (k 5) 31 0 != 0 || k 7 % 65536 != 0
    | 3 => !zero [5, 6, 7] || decide (2 < k 4)
    | 4 => !zero [4, 5, 6, 7]
    | _ => true)
/-- The context that a packet names for an interface (R287). -/
def State.packetCtx (s : State) (q : Nat) (ws : List DWord) : Option Nat :=
  (List.range s.ctxs.length).find? fun c =>
    let x := s.ctx c
    x.valid && x.pasid == bits (dq ws 0) 51 32 && x.part == (s.iface q).owner

/-- Whether an interface has a packet ready: its next may begin, and waits for no page. -/
def State.packetReady (s : State) (q : Nat) : Bool :=
  let x := s.iface q
  match s.head q with
  | .none => false
  | .fault => true
  | .packet ws => !(pAfter ws && !x.begun.isEmpty) && !x.waits.any fun k => s.farOpen k || s.merges.any fun m => m.key == k
/-- Whether the next packet of an interface has waited 100 µs since it was announced (R282). -/
def Iface.old (x : Iface) (clk : Nat) : Bool :=
  match x.since with
  | (_, c) :: _ => decide (c + 100000 ≤ clk)
  | [] => false
/-- The priority of an interface: a packet that has waited 100 µs counts as PRIO 3 (R282). -/
def State.priority (s : State) (q : Nat) : Nat :=
  let x := s.iface q
  if x.aged || x.old s.clk then 3 else x.prio
/-- Whether the front end serves another interface first: one of higher priority with a packet ready (R282). -/
def State.outranked (s : State) (q : Nat) : Bool :=
  (List.range s.ifaces.length).any fun p => p != q && decide (s.priority q < s.priority p) && s.packetReady p

/-- Process the next packet of a queue, if its type is one of an event's: the order of beginning (R284), the PASID check,
a failed context, and step 2 of R286; then what the packet does. -/
def State.servePacket (s : State) (q : Nat) (types : Nat → Bool) (run : State → Packet → State) : State :=
  match s.head q with
  | .none => s
  | .fault => s.haltIface q 4
  | .packet ws =>
    let x := s.iface q
    if ¬ types (pType ws) ∨ (pAfter ws ∧ ¬ x.begun.isEmpty) then s
    else
     let s := if x.ahead.any fun e => e.1 == x.head then s else s.ringTouch q x.head false
     match s.packetCtx q ws with
      | none => ((s.setErr q 1 x.head).errorInt q).advance q
      | some c =>
        let p : Packet := { index := x.head, words := ws, ctx := c, launch := none, status := none }
        if (s.ctx c).failed.isSome then
          let s := s.beginEnd q p stFailed
          if pIrq ws then s.errorInt q else s
        else if packetBad ws then s.refuse q p stRefDesc
        else run s p

/-- The front end takes a queue's next packet in the order of priorities (R282). -/
def State.onPacket (s : State) (q : Nat) (types : Nat → Bool) (run : State → Packet → State) : State :=
  if s.outranked q then s else s.servePacket q types run

/-- NOP, and a packet whose TYPE is not one (R286). -/
def execNopPacket (q : Nat) (s : State) : Host.Outcome State Fault Refusal :=
  .next (s.onPacket q (fun ty => ty == 0 || decide (5 < ty)) fun s p => s.beginEnd q p stDone)

/-! ### Descriptors (R26, R27, R30) -/

/-- The cases of R27 that refuse with REFUSED_DESC. -/
def descBad (d : List DWord) (param : Nat) : Bool :=
  dCode d % 8 != 0 || decide (lowTop < dCode d) || param % 64 != 0 || decide (4 < dWidth d) || dVregs d == 0 ||
  decide (24 < dVregs d) || decide (512 < dScratch d) || decide (16 < dReslim d) || dPfmode d == 3 ||
  (dPfmode d == 2 && (dPflines d == 0 || decide (8 < dPflines d))) || (decide (dPfmode d ≤ 1) && dPflines d != 0) ||
  dLat d == 3 || bits (dq d 2) 63 59 != 0 || bits (dq d 3) 63 54 != 0 ||
  (List.range 8).any fun j => dq d (8 + j) != 0
/-- Whether a descriptor requires a feature that refuses it (R30). -/
def State.featBad (s : State) (d : List DWord) : Bool :=
  let req := fun (f : Nat) => (dq d (4 + f / 64)).testBit (f % 64)
  let uses := fun (f : Nat) => req f || (f == 8 && dWidth d == 1) || (f == 9 && dWidth d == 3) ||
    (f == 10 && dWidth d == 4) || (f == 12 && dLat d == 2) || (f == 13 && dPfmode d == 2)
  ((List.range 6).map (8 + ·)).any (fun f => uses f && !s.enabled f) ||
  ((List.range 242).map (14 + ·)).any req
/-- Read words with a context's rights: aligned as a whole, or it is refused. -/
def State.readFor (s : State) (ctx va align n : Nat) : State × Except Probe (List DWord) :=
  if va % align ≠ 0 then (s, .error (.fault fMisalign va false))
  else match s.probeRange ctx va 8 false n with
    | (s, .ok ls) => (s, .ok (s.readLocs ls))
    | (s, .error p) => (s, .error p)
/-- What a structure that cannot be read does to its packet: a wait for its page, or a refusal (R286). -/
def State.unread (s : State) (q : Nat) (p : Packet) (e : Probe) (write : Bool) : State :=
  match e with
  | .page ks => (s.requestAll 0 p.ctx ks false write).modIface q fun x => { x with waits := ks }
  | _ => s.refuse q p stRefDesc

/-! ### LAUNCH -/

/-- The teams that a grid's launch of a descriptor makes. -/
def launchOf (q : Nat) (p : Packet) (d : List DWord) : Launch :=
  let k := dq p.words
  let nx := bits (k 4) 31 0
  let ny := bits (k 4) 63 32
  let nz := bits (k 5) 31 0
  let size := nx * ny * nz
  { ctx := p.ctx, iface := q, index := p.index, graph := none, desc := d, param := k 3, nx, ny, nz, size,
    nspan := (size + dSpan d - 1) / dSpan d, ticket := k 6, pool := k 7, poolLen := bits (k 5) 63 32 * 65536,
    fuse := bits (k 0) 11 11 == 1, claimed := [], retired := 0, done := false }
/-- Whether the areas of n teams fit the save region and the pool at all (R215). -/
def State.sized (s : State) (ctx n area unit poolLen : Nat) : Bool :=
  decide (4096 + n * area ≤ (s.ctx ctx).savesize) && decide (n * unit ≤ poolLen)
/-- A LAUNCH packet: its descriptor and ticket line are read and checked, then the launch begins (R27, R223, R286).

DESIGN CHOICE, log entry 44: the ticket line is checked as stored to before the checks that can still refuse the launch, and that
sets D in its page's leaves though the launch is then refused. -/
def State.launchPacket (s : State) (q : Nat) (p : Packet) : State :=
  let k := dq p.words
  match s.readFor p.ctx (k 2) 128 16 with
  | (s, .error e) => s.unread q p e false
  | (s, .ok d) =>
    if descBad d (k 3) then s.refuse q p stRefDesc
    else match s.readFor p.ctx (k 6) 128 16 with
      | (s, .error e) => s.unread q p e true
      | (s, .ok line) => match s.probeRange p.ctx (k 6) 8 true 16 with
        | (s, .error e) => s.unread q p e true
        | (s, .ok _) =>
          let x := launchOf q p d
          if (line.drop 5).any fun w => w != 0 then s.refuse q p stRefDesc
          else if s.featBad d || (x.fuse && !s.enabled 11) then s.refuse q p stRefFeat
          else if ¬ s.sized p.ctx (x.spanTeams 0) (dArea d) (areaSize (dVisible d false)) x.poolLen then s.refuse q p stRefSave
          else
            let l := s.launches.length
            ({ s with launches := s.launches ++ [x] } : State).begin_ q { p with launch := some l }
def execLaunchPacket (q : Nat) (s : State) : Host.Outcome State Fault Refusal :=
  .next (s.onPacket q (· == 1) fun s p => s.launchPacket q p)

/-! ### GRAPH (R226, R227) -/

/-- A node entry read from memory, with its descriptor; INIT stands beside it. -/
structure NodeRec where
  node : GNode
  init : Nat
  bad  : Bool
deriving DecidableEq, Repr

/-- A node entry of n nodes: its fields, and whether one breaks its limits. -/
def nodeOf (n k : Nat) (e d : List DWord) : NodeRec :=
  let e1 := dq e 1
  let succ := (List.range 256).filter fun m => (dq e (4 + m / 64)).testBit (m % 64)
  let node : GNode :=
    { desc := d, recsz := bits e1 57 48, maxdepth := bits e1 47 42, timer := bits e1 41 32, cap := bits e1 31 0,
      group := bits (dq e 2) 15 0 + 1, succ, base := 0 }
  let init := bits (dq e 3) 31 0
  { node, init,
    bad := bits e1 63 58 != 0 || node.recsz % 16 != 0 || decide (node.recsz < 16) || decide (512 < node.recsz) ||
      node.maxdepth == 0 || decide (32 < node.maxdepth) || node.timer == 0 || decide (1000 < node.timer) ||
      node.cap == 0 || bits (dq e 2) 63 16 != 0 || decide (dNtid d < node.group) || bits (dq e 3) 63 32 != 0 ||
      decide (node.cap < init) || succ.any (fun m => decide (n ≤ m)) || (succ.contains k && node.maxdepth == 1) ||
      descBad d (dq d 1) }
/-- Bytes of a node's slices. -/
def GNode.bytes (n : GNode) : Nat := n.maxdepth * n.cap * n.recsz
/-- Give each node the base of its slices. -/
def placeNodes (at_ : Nat) : List GNode → List GNode
  | [] => []
  | n :: r => { n with base := at_ } :: placeNodes (at_ + n.bytes) r
/-- Nodes left when those whose other successors have all gone are taken away, as often as said. -/
def peel (ns : List GNode) : Nat → List Nat → List Nat
  | 0, left => left
  | k + 1, left => peel ns k (left.filter fun i => (ns.getD i default).succ.any fun m => m != i && left.contains m)
/-- Whether the edges other than self-edges form a cycle. -/
def cyclic (ns : List GNode) : Bool := !(peel ns ns.length (List.range ns.length)).isEmpty

/-- Read the node entries from k on and their descriptors. -/
def State.readNodes (s : State) (ctx at_ n : Nat) : Nat → State × Except Probe (List NodeRec)
  | 0 => (s, .ok [])
  | m + 1 =>
    let k := n - (m + 1)
    match s.readFor ctx (at_ + 64 + 64 * k) 64 8 with
    | (s, .error e) => (s, .error e)
    | (s, .ok e) => match s.readFor ctx (dq e 0) 128 16 with
      | (s, .error e) => (s, .error e)
      | (s, .ok d) => match s.readNodes ctx at_ n m with
        | (s, .ok r) => (s, .ok (nodeOf n k e d :: r))
        | r => r

/-- The graph that begins: INIT slots of the level-0 slices are committed in slot order (R227). -/
def graphOf (launch gi qbase sig clk : Nat) (ns : List NodeRec) : Graph :=
  let slots := ns.zipIdx.flatMap fun e => (List.range e.1.init).map fun i => (e.2, i)
  { launch, qbase, nodes := placeNodes qbase (ns.map NodeRec.node), sig,
    slots := slots.zipIdx.map fun (e : (Nat × Nat) × Nat) =>
      ({ graph := gi, node := e.1.1, level := 0, slot := e.1.2 }, .committed clk e.2),
    order := slots.length, due := [], taken := [], done := false }
/-- A GRAPH packet: its object and descriptors are read and checked, then the graph begins. -/
def State.graphPacket (s : State) (q : Nat) (p : Packet) : State :=
  let k := dq p.words
  match s.readFor p.ctx (k 2) 64 8 with
  | (s, .error e) => s.unread q p e false
  | (s, .ok h) =>
    let n := bits (dq h 0) 8 0
    if dq h 0 / 512 ≠ 0 ∨ n = 0 ∨ 256 < n ∨ dq h 1 % 64 ≠ 0 ∨ dq h 3 % 8 ≠ 0 ∨ (h.drop 4).any fun w => w != 0 then
      s.refuse q p stRefDesc
    else match s.readNodes p.ctx (k 2) n n with
      | (s, .error e) => s.unread q p e false
      | (s, .ok ns) =>
        let nodes := ns.map NodeRec.node
        let poolLen := bits (k 5) 63 32 * 65536
        if (ns.any NodeRec.bad) || cyclic nodes || decide (dq h 2 < (nodes.map GNode.bytes).sum) then s.refuse q p stRefDesc
        else if nodes.any fun x => s.featBad x.desc then s.refuse q p stRefFeat
        else if ¬ s.sized p.ctx 1 ((nodes.map fun x => dArea x.desc).foldl max 0)
            (areaSize ((nodes.map fun x => dVisible x.desc true).foldl max 0)) poolLen then s.refuse q p stRefSave
        else
          let l := s.launches.length
          let g := s.graphs.length
          let x : Launch :=
            { ctx := p.ctx, iface := q, index := p.index, graph := some g, desc := [], param := 0, nx := 0, ny := 0, nz := 0,
              size := 0, nspan := 0, ticket := 0, pool := k 7, poolLen, fuse := false, claimed := [], retired := 0,
              done := false }
          let s := { s with launches := s.launches ++ [x], graphs := s.graphs ++ [graphOf l g (dq h 1) (dq h 3) s.clk ns] }
          (((s.begin_ q { p with launch := some l }).dose g).graphCheck g)
def execGraphPacket (q : Nat) (s : State) : Host.Outcome State Fault Refusal :=
  .next (s.onPacket q (· == 2) fun s p => s.graphPacket q p)

/-! ### WAIT, SIGNAL and FETCH_FENCE (R225, R284) -/

/-- Whether a WAIT's word satisfies its condition. -/
def waitMet (ws : List DWord) (v : Nat) : Bool :=
  match dq ws 4 with
  | 0 => v == dq ws 3
  | 1 => v != dq ws 3
  | _ => decide (dq ws 3 ≤ v)
/-- Look at the word of a WAIT that has begun: it completes where the word satisfies it or cannot be read. -/
def State.tryWait (s : State) (q : Nat) (p : Packet) : State :=
  match s.probeCtx p.ctx (dq p.words 2) 8 {} with
  | (s, .ok l _) =>
    let (s, bs) := s.homeBytes l 8
    if waitMet p.words (leValue bs) then s.completeNow q p stDone else s
  | (s, .page ks) => s.requestAll 0 p.ctx ks false false
  | (s, _) => s.completeNow q p stFailed
def execWaitPacket (q : Nat) (s : State) : Host.Outcome State Fault Refusal :=
  .next (s.onPacket q (· == 3) fun s p =>
    ((s.begin_ q p).modIface q fun x => { x with blocked := true }).tryWait q p)
/-- The WAIT that holds a queue looks at its word again. -/
def State.waitAgain (s : State) (q : Nat) : State :=
  match (s.iface q).begun.find? fun p => pType p.words == 3 && p.status.isNone with
  | some p => s.tryWait q p
  | none => s
def execWaitPacketSatisfied (q : Nat) (s : State) : Host.Outcome State Fault Refusal := .next (s.waitAgain q)

/-- SIGNAL writes its value as a release of the work before it. -/
def State.signalPacket (s : State) (q : Nat) (p : Packet) : State :=
  match s.probeCtx p.ctx (dq p.words 2) 8 { write := true, line := true } with
  | (s, .ok l _) => (s.writeLoc noOwner l (leBytes 8 (dq p.words 3)) false).beginEnd q p stDone
  | (s, .page ks) => s.unread q p (.page ks) true
  | (s, _) => s.beginEnd q p stFailed
def execSignalPacket (q : Nat) (s : State) : Host.Outcome State Fault Refusal :=
  .next (s.onPacket q (· == 4) fun s p => s.signalPacket q p)

/-- FETCH_FENCE discards what was read ahead. -/
def execFetchFence (q : Nat) (s : State) : Host.Outcome State Fault Refusal :=
  .next (s.onPacket q (· == 5) fun s p => (s.beginEnd q p stDone).modIface q fun x => { x with ahead := [] })

/-! ### The interface itself (R281, R282, R289) -/

/-- EN goes from 0 to 1: the ring starts again. -/
def Iface.enable (x : Iface) : Iface :=
  if x.en then x else { x with en := true, head := 0, tail := 0, halt := false, ahead := [], since := [],
                                   aged := false, waits := [] }
/-- EN is cleared: packets not begun are discarded. -/
def Iface.disable (x : Iface) : Iface := { x with en := false, tail := x.head, ahead := [], since := [], aged := false }
def execInterfaceEnable (q : Nat) (s : State) : Host.Outcome State Fault Refusal :=
  .next (if s.mgmt.ready then s.modIface q Iface.enable else s)
def execInterfaceDisable (q : Nat) (s : State) : Host.Outcome State Fault Refusal :=
  .next (if s.mgmt.ready then s.modIface q Iface.disable else s)
def execErrClear (q : Nat) (s : State) : Host.Outcome State Fault Refusal :=
  .next (if s.mgmt.ready then s.modIface q fun x => { x with err := false } else s)

/-- A coalescing timer lapses (R289). -/
def State.intTimer (s : State) (q v : Nat) : State :=
  match (s.iface q).starts.getD v none with
  | some t => if t + 1000 * max 1 (s.iface q).timer ≤ s.clk then s.coalesceFire q v else s
  | none => s
def execInterruptTimer (q v : Nat) (s : State) : Host.Outcome State Fault Refusal := .next (s.intTimer q v)
/-- The next packet has waited 100 µs (R282). -/
def execPacketAging (q : Nat) (s : State) : Host.Outcome State Fault Refusal :=
  .next (s.modIface q fun x => if 0 < x.used ∧ x.old s.clk then { x with aged := true } else x)

end Sys2Proof.Machine
end

