-- ==== Sys2Proof/Machine/Contexts.lean ====
section
/-! DEFINITION. What the host driver does to contexts and translation: context commands (R261, R262, R271), invalidation
(R270, R280), page replies (R274, R276), the migration pool and migration (R277, R278), and the fault queue (R275). -/

namespace Sys2Proof.Machine

open Sys2Proof

/-! ### Context commands (R261, R262) -/

/-- The words of a record at a physical address. -/
def State.recordAt (s : State) (pa n : Nat) : List DWord :=
  s.readLocs ((List.range n).map fun j => s.placeAt (pa + 8 * j))
/-- Whether a device partition holds a cluster. -/
def State.hasCluster (s : State) (part : Nat) : Bool := (List.range 24).any fun c => s.devPart (8 * c) == part

/-- The walk windows in use at a table (R271). -/
def windowsOf : List (Nat × Nat × Nat × Nat) → List (Nat × Nat × Nat × Bool) → List (Nat × Nat × Nat × Bool)
  | [], ws => ws
  | (lo, hi, pa, y) :: r, ws =>
    let ok := y % 2 == 1 && decide (y < 4) && lo % 65536 == 0 && (hi + 1) % 65536 == 0 && decide (lo ≤ hi) &&
      pa % 65536 == 0 && paHbm (pa + (hi - lo)) && ws.all fun w => decide (hi < w.1) || decide (w.2.1 < lo)
    windowsOf r (if ok then ws ++ [(lo, hi, pa, y / 2 == 1)] else ws)
/-- Read the walk-window table of a context at an IPA, through stage 2 alone. -/
def State.readWindows (s : State) (part pasid wwt : Nat) : List (Nat × Nat × Nat × Bool) :=
  match s.ipaLoc part pasid wwt with
  | none => []
  | some l =>
    let q := s.readLocs ((List.range 64).map fun j => l.add (8 * j))
    windowsOf ((List.range 16).map fun w => (dq q (4 * w), dq q (4 * w + 1), dq q (4 * w + 2), dq q (4 * w + 3))) []

/-- Whether a context record breaks an alignment or a reserved field of R261, or describes no context. -/
def ctxRecBad (x : List DWord) : Bool :=
  let q := dq x
  q 0 % 2 == 0 || bits (q 0) 7 1 != 0 || bits (q 0) 31 11 != 0 || bits (q 0) 63 52 != 0 || q 1 % 4096 != 0 ||
  q 3 % 65536 != 0 || q 4 % 65536 != 0 || q 5 % 65536 != 0 || q 6 % 512 != 0 || q 7 % 0x80000000 != 0 ||
  decide (lowTop < q 7 + 0x7FFFFFFF) || (x.drop 8).any fun w => w != 0

/-- Whether a context command may run now: READY, and no other one is under way. -/
def State.cmdFree (s : State) (op c : Nat) : Bool :=
  s.mgmt.ready && decide (c < s.ctxs.length) && (!s.mgmt.ctxBusy || (s.mgmt.ctxOp == op && s.mgmt.ctx == c))
/-- A context command ends with a result. -/
def State.cmdEnd (s : State) (c result : Nat) : State :=
  { s with mgmt := { s.mgmt with ctx := c, ctxOp := 0, ctxRes := result, ctxBusy := false } }

/-- CREATE: the context of the record replaces what its number named before. -/
def State.ctxCreate (s : State) (c : Nat) : State :=
  if ¬ s.cmdFree 1 c then s
  else
    let x := s.recordAt (s.mgmt.ctxtab + 128 * c) 16
    let pasid := bits (dq x 0) 51 32
    let part := bits (dq x 0) 10 8
    if (List.range s.ctxs.length).any fun k => k != c && (s.ctx k).valid && (s.ctx k).pasid == pasid then s.cmdEnd c 2
    else if ctxRecBad x || !s.hasCluster part then s.cmdEnd c 1
    else
      let s := s.ipaTouch part c (dq x 6) false
      let made : Ctx :=
        { Ctx.reset with valid := true, pasid, part, s1root := dq x 1, scb := dq x 2, savebase := dq x 3,
                         savesize := dq x 4, wtbase := dq x 5, wwt := dq x 6, spwbase := dq x 7,
                         windows := s.readWindows part pasid (dq x 6) }
      (s.modCtx c fun _ => made).cmdEnd c 0
def execCtxcmdCreate (ctx : Nat) (s : State) : Host.Outcome State Fault Refusal := .next (s.ctxCreate ctx)

/-- UPDATE reads SCB and WWT again. -/
def State.ctxUpdate (s : State) (c : Nat) : State :=
  if ¬ s.cmdFree 3 c then s
  else
    let x := s.recordAt (s.mgmt.ctxtab + 128 * c) 16
    if ¬ (s.ctx c).valid ∨ dq x 6 % 512 ≠ 0 then s.cmdEnd c 1
    else
      let s := s.ipaTouch (s.ctx c).part c (dq x 6) false
      (s.modCtx c fun y =>
        { y with scb := dq x 2, wwt := dq x 6, windows := s.readWindows y.part y.pasid (dq x 6) }).cmdEnd c 0
def execCtxcmdUpdate (ctx : Nat) (s : State) : Host.Outcome State Fault Refusal := .next (s.ctxUpdate ctx)

/-- REVOKE: the context fails, and BUSY clears when its packets are complete, its slots closed and its translations
gone. -/
def State.ctxRevoke (s : State) (c : Nat) : State :=
  if ¬ s.cmdFree 2 c then s
  else if ¬ (s.ctx c).valid then s.cmdEnd c 1
  else
    let s := s.failContext c cRevoked Blame.none
    if s.ifaces.any fun x => x.begun.any fun p => p.ctx == c then
      { s with mgmt := { s.mgmt with ctx := c, ctxOp := 2, ctxBusy := true } }
    else
      let x := s.ctx c
      let s := s.tlbDrop fun e => e.part == x.part && e.pasid == x.pasid && !e.glob
      let s := { s with comms := s.comms.filter (fun k => k.ctx != c), ats := s.ats.filter fun e => e.1 != x.pasid }
      (s.modCtx c fun y => { y with valid := false, windows := [] }).cmdEnd c 0
def execCtxcmdRevoke (ctx : Nat) (s : State) : Host.Outcome State Fault Refusal := .next (s.ctxRevoke ctx)

/-! ### Invalidation (R270, R280) -/

/-- INVREQ names what the next write of PDADDR invalidates. -/
def State.invReq (s : State) (v : DWord) : State :=
  if s.mgmt.ready then { s with mgmt := { s.mgmt with inv := some v, invDone := false, invTags := [], invHeld := [] } } else s
def execInvreq (v : DWord) (s : State) : Host.Outcome State Fault Refusal := .next (s.invReq v)
/-- Whether an invalidation removes a translation. -/
def invHits (v addr : Nat) (e : Tlb) : Bool :=
  e.part == bits v 30 28 &&
  (if bits v 1 1 = 1 then e.s2Holds addr
   else e.s1Holds addr && (bits v 2 2 == 1 || (e.pasid == bits v 51 32 && !e.glob)))
/-- Whether what an invalidation had to outlast is over: the peer accesses and held stores probed before it (R270). -/
def State.invOver (s : State) : Bool :=
  s.mgmt.invDone && s.outlived s.mgmt.invTags s.mgmt.invHeld
/-- PDADDR of a partition is written: an invalidation that waits for it takes place, after every store probed before it. It is
complete when the accesses at peers and the held stores that came before are over. -/
def State.pdAddr (s : State) (part : Nat) (v : DWord) : State :=
  let s := s.modPart part fun p => { p with pdaddr := v.toNat }
  match s.mgmt.inv with
  | none => s
  | some w =>
    if bits w.toNat 30 28 = part then
      let s := s.invalidate (invHits w.toNat v.toNat)
      { s with mgmt := { s.mgmt with inv := none, invDone := true, invTags := s.openTags part, invHeld := s.heldStores part } }
    else s
/-- The host's ATS invalidation of a page of a PASID's I/O addresses: its cached results go (R280). -/
def State.atsDrop (s : State) (pasid page : Nat) : State :=
  { s with ats := s.ats.filter (· != (pasid, page)) }.tlbDrop fun e => e.kind == 3 && e.pasid == pasid && e.frame == page
def execAtsInvalidation (pasid page : Nat) (s : State) : Host.Outcome State Fault Refusal := .next (s.atsDrop pasid page)

/-! ### Page replies (R274, R276) -/

/-- Completion words that wait for their page, and the ends of graphs, are tried again (R229, R285). -/
def State.retryWords (s : State) : State :=
  let s := (List.range s.ifaces.length).foldl (fun (s : State) (q : Nat) =>
    (s.iface q).begun.foldl (fun (s : State) (p : Packet) => match p.status with
      | some st => s.completeNow q p st
      | none => s) s) s
  (List.range s.graphs.length).foldl State.graphCheck s
/-- The entries of a page close: its waiters probe again, and so do those that found the table full of a die whose entry frees
(R273, R274). -/
def State.closeMerge (s : State) (key : PageKey) (deny : List PageKey) : State :=
  let freed := (s.merges.filter fun m => m.key == key).map Merge.die
  let s := { s with merges := s.merges.filter fun m => m.key != key }
  s.wakePages (fun die k => k == key || (freed.contains die && !k.far && !s.merges.any fun m => m.die == die && m.key == k)) deny
/-- The page that a reply names. -/
def State.replyKey (s : State) (part pasid : Nat) (s2 : Bool) : PageKey :=
  { part, s2, pasid := if s2 then 0 else pasid, page := (s.partOf part).pdaddr / 65536 }
/-- Whether a page has an entry that the driver may answer. -/
def State.asked (s : State) (key : PageKey) : Bool := s.merges.any fun m => m.key == key && !m.mig

/-- The driver has made a page valid. -/
def State.supply (s : State) (part pasid : Nat) (s2 : Bool) : State :=
  let key := s.replyKey part pasid s2
  if ¬ s.asked key then s
  else
    let clear := fun (c : Cmd) => { c with deny := c.deny.filter fun k => k != key }
    let s := { s with cmds := s.cmds.map clear }
    (s.closeMerge key []).retryWords
def execPdctlSupply (part pasid : Nat) (s2 : Bool) (s : State) : Host.Outcome State Fault Refusal :=
  .next (s.supply part pasid s2)

/-- Do what waits for a refused page, with the page refused: it counts only where it met the page. -/
def State.tryDeny (s : State) (key : PageKey) (f : State → State) : State :=
  let r := f { s with deny := [key], hit := false }
  if r.hit then { r with deny := [], hit := false } else s
/-- Every packet that may begin. -/
def State.anyPacket (s : State) (q : Nat) : State :=
  s.servePacket q (fun _ => true) fun s p => match pType p.words with
    | 1 => s.launchPacket q p
    | 2 => s.graphPacket q p
    | 4 => s.signalPacket q p
    | _ => s
/-- A core that the teams of a claimed span, or a node launch, may start on. -/
def State.someCore (s : State) (l : Nat) (k : Option (Nat × Nat)) : Option Nat :=
  let x := s.launch l
  let part := (s.ctx x.ctx).part
  match k with
  | some (k, die) => (s.clusterFor part die (x.slice k)).bind fun c =>
      ((List.range 8).map (8 * c + ·)).find? fun i => s.usable part i
  | none => (List.range Config.cores).find? fun i => s.usable part i
/-- The teams of a launch that are claimed and may be waiting to start: index, and a core. -/
def State.pendingStarts (s : State) (l : Nat) : List (Nat × Nat) :=
  let x := s.launch l
  if x.done then []
  else match x.graph with
    | some g => (List.range (s.graph g).taken.length).filterMap fun i => (s.someCore l none).map fun c => (i, c)
    | none => x.claimed.filterMap fun e =>
        match (List.range (x.spanTeams e.1)).find? fun r => (s.spanTeam l e.1 r).isNone, s.someCore l (some e) with
        | some r, some c => some (e.1 * x.spanLen + r, c)
        | _, _ => none

/-- The driver cannot supply a page: every waiter's access fails with NOMAP, and the entry closes. -/
def State.refusePage (s : State) (part pasid : Nat) (s2 : Bool) : State :=
  let key := s.replyKey part pasid s2
  if ¬ s.asked key then s
  else
    let try_ := fun (s : State) (f : State → State) => s.tryDeny key f
    let s := s.cmds.foldl (fun (s : State) (c : Cmd) =>
      if ¬ (s.heldBy c).isEmpty then s
      else if c.op.engine = 3 then
        let mark := fun (d : Cmd) => if d.id = c.id then { d with deny := d.deny ++ [key] } else d
        { s with cmds := s.cmds.map mark }
      else (c.todo ++ [0]).foldl (fun (s : State) (piece : Nat) => try_ s fun (s : State) => (match s.cmds.find? fun (d : Cmd) => d.id == c.id with
        | some d => s.transfer d piece
        | none => s)) s) s
    let ids := s.cores.flatMap fun x => x.seq.flatMap fun l => l.map SeqCmd.id
    let s := ids.foldl (fun (s : State) (id : Nat) => try_ s fun (s : State) => s.kRow id) s
    let s := (List.range s.ifaces.length).foldl (fun (s : State) (q : Nat) =>
      let s := (s.iface q).begun.foldl (fun (s : State) (p : Packet) => match p.status with
        | some st => try_ s fun (s : State) => s.completeNow q p st
        | none => s) s
      try_ (try_ s fun (s : State) => s.waitAgain q) fun s => s.anyPacket q) s
    let s := (List.range s.launches.length).foldl (fun (s : State) (l : Nat) =>
      (s.pendingStarts l).foldl (fun (s : State) (e : Nat × Nat) => try_ s fun (s : State) => s.teamStart l e.1 e.2 0) s) s
    let s := (List.range s.teams.length).foldl (fun (s : State) (t : Nat) => try_ s fun (s : State) => s.teamRetire t) s
    let s := (List.range s.graphs.length).foldl (fun (s : State) (g : Nat) => try_ s fun (s : State) => s.graphCheck g) s
    (s.closeMerge key [key]).retryWords
def execPdctlFail (part pasid : Nat) (s2 : Bool) (s : State) : Host.Outcome State Fault Refusal :=
  .next (s.refusePage part pasid s2)

/-! ### The pool, the fault queue and migration (R275, R277, R278) -/

def execPoolbaseWrite (part : Nat) (v : DWord) (s : State) : Host.Outcome State Fault Refusal :=
  .next (if s.mgmt.ready then
    s.modPart part fun p => { p with poolbase := v.toNat / 65536 * 65536, poolOpen := false } else s)
def execPoolsizeWrite (part : Nat) (v : DWord) (s : State) : Host.Outcome State Fault Refusal :=
  .next (if s.mgmt.ready then
    s.modPart part fun p => { p with poolsize := v.toNat, popped := 0, poolOpen := true, told := false } else s)
def execFqheadWrite (part : Nat) (v : Word) (s : State) : Host.Outcome State Fault Refusal :=
  .next (if s.mgmt.ready then (s.modPart part fun p => { p with fqhead := v }).fqDrain part else s)

/-- A page that was found due to migrate does (R277). Where it is no longer due or no longer there, or the pool has become empty,
its waiters just probe again. -/
def State.migrate (s : State) (part page : Nat) : State :=
  let key : PageKey := { part, s2 := true, pasid := 0, page }
  match s.merges.find? fun m => m.key == key && m.mig with
  | some m => ((s.migratePage part page m.ctx m.exec m.write).closeMerge key []).retryWords
  | none => s
def execPageMigration (part page : Nat) (s : State) : Host.Outcome State Fault Refusal := .next (s.migrate part page)

end Sys2Proof.Machine
end

