-- ==== Sys2Proof/Machine/Convert.lean ====
section
/-! DEFINITION. Conversion (R116 to R118). -/

namespace Sys2Proof.Machine

open Sys2Proof

/-- CVT of one value (R116). -/
def cvt (w : FA) (a : Nat) : Nat :=
  let sat := w.ctl.getLsbD 0
  if tyFloat w.ty then
    if tyFloat w.sty then cvtFloat (fmOf w.sty) (fmOf w.ty) (rmOf w) (ftzOf w) (a % 2 ^ (fmOf w.sty).width)
    else (fmOf w.ty).roundI (rmOf w) false false (intOf w.sty a) 0
  else if tyFloat w.sty then
    fillTy w.ty (ibits (floatToInt (fmOf w.sty) (w.ctl.toNat / 2 % 4) (tyMin w.ty) (tyMax w.ty)
      (a % 2 ^ (fmOf w.sty).width)) 64)
  else narrow w.ty sat (intOf w.sty a)
def execCvt (w : FA) (s : State) : Host.Outcome State Fault Refusal :=
  alu (.cvt w) w (tyRegs w.ty) (fun s t i => cvt w (s.opnd t i w.sa (tyRegs w.sty))) s

/-- One half of PACK (R117). -/
def packHalf (w : FA) (v : Nat) : Nat :=
  if tyFloat w.ty then cvtFloat fm32 (fmOf w.ty) (rmOf w) (ftzOf w) v
  else if w.ty = b16 then v % 65536
  else narrow w.ty (w.ctl.getLsbD 0) (intOf (if w.ty = i16 then i32 else n32) v) % 65536
def execPack (w : FA) (s : State) : Host.Outcome State Fault Refusal :=
  alu (.pack w) w 1 (fun s t i =>
    let b := if w.sb = 0xF1 ∧ tyFloat w.ty then immFloat fm32 w.sc else s.src t i w.sb w.sc 1
    packHalf w (s.opnd t i w.sa 1) + 65536 * packHalf w b) s

/-- One half of UNPK (R117). -/
def unpkHalf (w : FA) (v : Nat) : Nat :=
  if tyFloat w.ty then cvtFloat (fmOf w.ty) fm32 0 (ftzOf w) v
  else if w.ty = i16 then fillTy i16 v else v
def execUnpk (w : FA) (s : State) : Host.Outcome State Fault Refusal :=
  alu (.unpk w) w 2 (fun s t i =>
    let a := s.opnd t i w.sa 1
    unpkHalf w (a % 65536) + 2 ^ 32 * unpkHalf w (a / 65536 % 65536)) s

/-- QENC of one lane set (R118): the threads of each 32 home lanes are one block. -/
def State.qencSet (s : State) (w : FA) (t : Nat) (set : List Nat) : List (Nat × Nat) :=
  let m := s.team t
  let l := if w.ctl.getLsbD 3 then 7 else 127
  (List.range 4).flatMap fun b =>
    let here := set.filter fun i => m.hlane i / 32 == b
    let (e, ms) := quantBlock l (here.map fun i => (fmOf w.ty).read false (s.ga w t i))
    (here.zip ms).map fun x => (x.1, ibits x.2 8 + 256 * ibits e 8)
def execQenc (w : FA) (s : State) : Host.Outcome State Fault Refusal :=
  simple (.qenc w) w.c (fun s k ex =>
    s.putSets k.team w.dst 1 ((s.laneSets k.team ex).map fun l => s.qencSet w k.team l)) s
def execQdec (w : FA) (s : State) : Host.Outcome State Fault Refusal :=
  alu (.qdec w) w (tyRegs w.ty) (fun s t i =>
    let a := s.opnd t i w.sa 1
    (fmOf w.ty).ofQ (sext a (if w.ctl.getLsbD 3 then 4 else 8)) (sext (a / 256) 8)) s

end Sys2Proof.Machine
end

