-- ==== Sys2Proof/Machine/Platform.lean ====
section
/-! DEFINITION. The module as its host and its board see it: communicator slots (R336 to R338), reset and bring-up (R291,
R358 to R361), registers (R263, R264, R281, R282, R288, R290, R327, R336, R359), CXL.mem and host memory (R171, R280,
R314), attestation and management (R292, R293, R362), temperature and power (R309, R353, R355), errors (R313, R315). -/

namespace Sys2Proof.Machine

open Sys2Proof

/-! ### Communicator slots (R336 to R338) -/

/-- Whether a list of map entries is in order: first ranks rise from 0. -/
def mapOrdered : List (Nat × Nat) → Bool
  | [] => true
  | [_] => true
  | a :: b :: r => decide (a.1 < b.1) && mapOrdered (b :: r)
/-- The communicator that a record describes, where R337 does not refuse it. -/
def State.commRec (s : State) (slot : Nat) : Option Comm :=
  let c := s.recordAt (s.mgmt.commtab + 128 * slot) 16
  let q := dq c
  let ctx := bits (q 0) 13 8
  let nrank := bits (q 1) 19 0 + 1
  let rcnt := bits (q 2) 51 32
  let rbase := bits (q 2) 19 0
  let map := (s.recordAt (q 3) (bits (q 4) 9 0 + 1)).map fun e => e.toNat
  let entries := map.map fun e => (bits e 19 0, bits e 41 32)
  let bad := bits (q 0) 63 48 != 0 || bits (q 0) 31 14 != 0 || bits (q 0) 7 2 != 0 || q 0 % 2 == 0 || bits (q 0) 47 32 == 0 ||
    bits (q 1) 31 20 != 0 || bits (q 2) 63 52 != 0 || bits (q 2) 31 20 != 0 || rcnt == 0 || q 3 % 8 != 0 ||
    q 4 / 1024 != 0 || (c.drop 5).any (fun w => w != 0) || !(s.ctx ctx).valid || (s.ctx ctx).failed.isSome ||
    !Config.ownsPorts (s.ctx ctx).part || decide (nrank < rbase + rcnt) ||
    map.any (fun e => bits e 31 20 != 0 || bits e 63 42 != 0) || (entries.headD (1, 0)).1 != 0 || !mapOrdered entries ||
    !entries.contains (rbase, s.mgmt.chip)
  if bad then none
  else some { slot, id := bits (q 0) 47 32, ctx, pri := bits (q 0) 1 1 == 1, ftag := bits (q 1) 63 32, nrank, rbase, rcnt,
              map := entries, acked := false, joined := [], held := [], sent := [], ranks := [], agree := [], ops := [], cbars := [],
              past := [], told := false, failed := false, joinAt := s.clk }
/-- Whether a communicator command may run now. -/
def State.commFree (s : State) (op slot : Nat) : Bool :=
  s.mgmt.ready && decide (slot < 16) && (!s.mgmt.commBusy || (s.mgmt.commOp == op && s.mgmt.comm == slot))
/-- A communicator command ends with a result. -/
def State.commEnd (s : State) (slot result : Nat) : State :=
  { s with mgmt := { s.mgmt with comm := slot, commOp := 0, commRes := result, commBusy := false } }

/-- Whether a communicator needs a chip that no link reaches (R358). -/
def State.cutOff (s : State) (c : Comm) : Bool := (c.others s.mgmt.chip).any s.mgmt.down.contains
/-- OPEN: a record that spans chips waits for TSYNC. A chip that is not the root sends its JOIN (R339). A communicator that
needs a missing link fails (R349, R358). -/
def State.commOpen (s : State) (slot : Nat) : State :=
  if ¬ s.commFree 1 slot then s
  else if bits (dq (s.recordAt (s.mgmt.commtab + 128 * slot) 5) 4) 9 0 ≠ 0 ∧ ¬ s.mgmt.tsync then
    { s with mgmt := { s.mgmt with comm := slot, commOp := 1, commBusy := true,
                                   commSince := if s.mgmt.commBusy ∧ s.mgmt.commSince ≠ 0 then s.mgmt.commSince else s.clk } }
  else match s.commRec slot with
    | none => s.commEnd slot 1
    | some c =>
      if s.comms.any fun k => k.ctx == c.ctx && k.id == c.id then s.commEnd slot 2
      else if s.comms.any fun k => k.slot == slot then s.commEnd slot 3
      else
        let alone := decide (c.map.length ≤ 1) || s.isRoot c
        let lost := s.cutOff c
        let s := { s with comms := s.comms ++ [{ c with acked := alone }] }
        let s := if alone then s else s.send (.join c.ftag)
        (if lost then s.failComm slot else s).commEnd slot 0
def execCommcmdOpen (slot : Nat) (s : State) : Host.Outcome State Fault Refusal := .next (s.commOpen slot)

/-- Whether a communicator has work outstanding. -/
def State.commWork (s : State) (c : Comm) : Bool :=
  !c.ops.isEmpty || c.ranks.any fun r => r.gone.isNone && s.outstanding r.team r.warp
/-- CLOSE: with work outstanding the communicator fails; the slot is free. -/
def State.commClose (s : State) (slot : Nat) : State :=
  if ¬ s.commFree 2 slot then s
  else
    let s := match s.comm slot with
      | some c => if s.commWork c then s.failComm slot else s
      | none => s
    ({ s with comms := s.comms.filter fun c => c.slot != slot } : State).commEnd slot 0
def execCommcmdClose (slot : Nat) (s : State) : Host.Outcome State Fault Refusal := .next (s.commClose slot)

/-- An OPEN that has waited 1 s for TSYNC ends (R338). -/
def execOpenTimeout (slot : Nat) (s : State) : Host.Outcome State Fault Refusal :=
  .next (if s.mgmt.commBusy ∧ s.mgmt.commOp = 1 ∧ s.mgmt.comm = slot ∧ ¬ s.mgmt.tsync ∧
      s.mgmt.commSince + 1000000000 ≤ s.clk then
    { s.commEnd slot 4 with mgmt := { (s.commEnd slot 4).mgmt with commSince := 0 } } else s)
/-- CLK agrees with the domain; an OPEN that waits for it completes (R338, R357). Before stage 1 completes nothing aligns CLK, and
BOOTSTAT reads 0 (R361). -/
def State.timeSync (s : State) : State :=
 if s.mgmt.stage = 0 then s
 else
  let s := { s with mgmt := { s.mgmt with tsync := true } }
  if s.mgmt.commBusy ∧ s.mgmt.commOp = 1 then
    let s := s.commOpen s.mgmt.comm
    { s with mgmt := { s.mgmt with commSince := 0 } }
  else s
def execTimeSync (s : State) : Host.Outcome State Fault Refusal := .next s.timeSync

/-! ### Reset and bring-up (R358 to R361) -/

/-- Whether a place lies in a scratchpad, or nowhere. -/
def Loc.onCore : Loc → Bool
  | .pad _ _ | .away _ _ => true
  | _ => false
/-- A module reset discards all state but the contents of HBM and bulk memory. What lies outside the module stays as it is:
host memory and the host's translation of it, what the module has sent, and the model's own counters. -/
def State.moduleReset (s : State) : State :=
  { State.reset with mem := s.mem, poison := s.poison.filter (fun l => !l.onCore), hostMem := s.hostMem, hostBad := s.hostBad,
                     out := s.out, agenda := s.agenda, nextId := s.nextId }
def execModuleReset (s : State) : Host.Outcome State Fault Refusal := .next s.moduleReset
def execMreset (s : State) : Host.Outcome State Fault Refusal := .next (if s.mgmt.ready then s.moduleReset else s)

/-- The little-endian number in some bytes of a manifest. -/
def fieldAt (m : List Byte) (at_ n : Nat) : Nat := leValue ((m.drop at_).take n)
/-- Whether an entry of a manifest, 80 bytes, describes an image: its length and its SHA-512 digest (R291). -/
def entryFits (e : List Byte) (image : List Byte) : Bool :=
  fieldAt e 8 8 == image.length && (e.drop 16).take 64 == Config.sha512 image
/-- The ids of Cloper's firmware, the agent firmware and the configuration image. DESIGN CHOICE, log entry 6: the manual gives no
numbers. -/
abbrev imageIds : List Nat := [1, 2, 3]
abbrev confId : Nat := 3
/-- An image by its id. -/
def imageOf (l : List (Nat × List Byte)) (id : Nat) : List Byte := ((l.find? fun i => i.1 == id).map Prod.snd).getD []
/-- The settings of the configuration image that stage 1 has verified (R291, R358). -/
def State.settings (s : State) : BootConf := Config.settings (imageOf s.mgmt.images confId)
/-- What the mask ROM finds (R291, R358): 1 a manifest whose layout or signature is bad, 2 a digest, 3 a security version below
the minimum that the configuration image names, 0 nothing. DESIGN CHOICE, log entry 6: the manual gives no code for a layout that is
not R291's, and none for an image that is missing, of which Cloper's firmware, the agent firmware and the configuration image must be
there; the model gives 1 and 2. -/
def romErr (b : Boot) : Nat :=
  let m := b.manifest
  let n := fieldAt m 8 4
  let entries := (List.range n).map fun k => (m.drop (16 + 80 * k)).take 80
  let image := fun (e : List Byte) => b.images.find? fun i => i.1 == fieldAt e 0 4
  if m.length ≠ 80 + 80 * n ∨ fieldAt m 0 4 ≠ 0x4E594D46 ∨ fieldAt m 4 4 ≠ 1 ∨ (entries.any fun e => fieldAt e 4 4 != 0) ∨
      ¬ Config.signedBy (m.take (16 + 80 * n)) (m.drop (16 + 80 * n)) then 1
  else if (entries.any fun e => match image e with | some i => !entryFits e i.2 | none => true) ∨
      (b.images.any fun i => !entries.any fun e => fieldAt e 0 4 == i.1) ∨
      (imageIds.any fun k => !b.images.any fun i => i.1 == k) then 2
  else if fieldAt m 12 4 < (Config.settings (imageOf b.images confId)).minVersion then 3
  else 0
/-- Whether the settings of a configuration image are in their ranges (R309, R353). -/
def confFits (c : BootConf) : Bool :=
  decide (2400 ≤ c.powerLimit) && decide (c.powerLimit ≤ 3600) && decide (70 ≤ c.threshold) && decide (c.threshold ≤ 105)
/-- The error of a bring-up step: what it finds, or a code of its own with which it fails of itself. -/
def State.bootErr (s : State) (b : Boot) (stage : Nat) : Nat :=
  match stage with
  | 1 => romErr b
  | 2 => if confFits s.settings && b.err != 4 then 0 else 4
  | 3 => if b.err = 5 ∨ b.err = 6 then b.err else 0
  | 4 => if b.err = 7 then 7 else 0
  | _ => 0
/-- The partition blocks that a configuration image sets. -/
def confBlocks (c : BootConf) : List Part :=
  (List.range Config.partitions).map fun p => match c.parts[p]? with
    | some (clusters, ways) => { Part.reset false with clusters := clusters % 2 ^ 24, l2ways := ways % 2 ^ 16 }
    | none => Part.reset (p == 0)
/-- The next step of bring-up succeeds or fails (R358): 1 the images are verified, 2 the configuration image is applied, 3 the
links train and memory is zeroed, 4 the agents start, 5 READY. -/
def State.bringUp (s : State) (b : Boot) : State :=
  let m := s.mgmt
  let n := m.stage + 1
  let err := s.bootErr b n
  if m.err ≠ 0 ∨ 5 ≤ m.stage then s
  else if err ≠ 0 then { s with mgmt := { m with err } }
  else
    let m := { m with stage := n }
    let up := fun (x : Core) => { x with agentUp := true }
    match n with
    | 1 => { s with mgmt := { m with images := b.images } }
    | 2 =>
      let c := s.settings
      { s with mgmt := { m with dfeat := c.dfeat &&& Config.dfeat0, hotAt := c.threshold, watts := c.powerLimit,
                                smbus := c.smbus.getD 0x4E }, parts := confBlocks c }
    | 3 => { s with mgmt := { m with chip := b.chip, down := b.down }, mem := [],
                    poison := s.poison.filter fun l => match l with | .mem _ => false | _ => true }
    | 4 => { s with mgmt := m, cores := s.cores.map up }
    | _ => { s with mgmt := { m with ready := true } }
def execBringUp (boot : Boot) (s : State) : Host.Outcome State Fault Refusal := .next (s.bringUp boot)

/-- BOOTSTAT (R359). -/
def State.bootstat (s : State) : Nat :=
  s.mgmt.err * 2 ^ 24 + s.mgmt.tsync.toNat * 2 ^ 16 + s.mgmt.stage * 2 ^ 8 + s.mgmt.ready.toNat

/-! ### Registers: writes (R263, R264, R281, R282, R288, R290, R327, R336)

Reserved bits of a write are dropped (R7). -/

/-- Whether a partition holds a valid context. -/
def State.partInUse (s : State) (p : Nat) : Bool := s.ctxs.any fun x => x.valid && x.part == p
/-- CTXCMD is written: with an OP the operation is under way. DESIGN CHOICE, log entry 45: a write made while BUSY is 1 changes
nothing, CTX included; R262 says only that its OP is ignored. -/
def State.ctxCmd (s : State) (v : Nat) : State :=
  if s.mgmt.ctxBusy then s
  else
    let op := bits v 9 8
    { s with mgmt := { s.mgmt with ctx := bits v 5 0, ctxOp := op, ctxBusy := op != 0 } }
/-- COMMCMD is written. DESIGN CHOICE, log entry 45: as of CTXCMD, a write made while BUSY is 1 changes nothing, SLOT included. -/
def State.commCmd (s : State) (v : Nat) : State :=
  if s.mgmt.commBusy then s
  else
    let op := bits v 9 8
    let on := op == 1 || op == 2
    { s with mgmt := { s.mgmt with comm := bits v 3 0, commOp := if on then op else 0, commBusy := on, commSince := 0 } }
/-- A word of a partition block is written (R263, R264). -/
def State.partWrite (s : State) (p off : Nat) (v : DWord) : State :=
  let n := v.toNat
  let conf := fun (f : Part → Part) => if s.partInUse p then s else s.modPart p f
  match off with
  | 0x00 => conf fun x => { x with clusters := bits n 39 16, l2ways := bits n 15 0 }
  | 0x08 => conf fun x => { x with s2root := n / 4096 * 4096 }
  | 0x10 => s.modPart p fun x => { x with poolbase := n / 65536 * 65536, poolOpen := false }
  | 0x18 => s.modPart p fun x => { x with poolsize := n, popped := 0, poolOpen := true, told := false }
  | 0x20 => conf fun x => { x with fqbase := n / 4096 * 4096 }
  | 0x28 => conf fun x => { x with fqlog := bits n 4 0 }
  | 0x30 => (s.modPart p fun x => { x with fqhead := v.setWidth 32 }).fqDrain p
  | 0x40 => s.pdAddr p v
  | 0x48 => if bits n 1 1 = 1 then s.refusePage p (bits n 51 32) (bits n 0 0 == 1) else s.supply p (bits n 51 32) (bits n 0 0 == 1)
  | _ => s
/-- A word of an interface block is written (R281). -/
def Iface.write (x : Iface) (off : Nat) (v : DWord) : Iface :=
  let n := v.toNat
  match off with
  | 0x00 =>
    let x := if x.en then x else { x with szlog := bits n 12 8, owner := bits n 3 1 }
    if bits n 0 0 = 1 then x.enable else if x.en then x.disable else x
  | 0x08 => if x.en then x else { x with ring := n / 4096 * 4096 }
  | _ => x
/-- A word of a remap entry is written (R288). -/
def Iface.setRemap (x : Iface) (v : Nat) (desc : Bool) (w : DWord) : Iface :=
  let f := fun (r : Remap) => if desc then { r with pdesc := w } else { r with word := w &&& 0xFFFF1F }
  { x with remap := x.remap.modify v f }
/-- A word of the MSI-X table is written. An entry that is no longer masked sends what is pending. -/
def State.msixWrite (s : State) (k : Nat) (v : DWord) : State :=
  let s := { s with mgmt := { s.mgmt with msix := mset 0 s.mgmt.msix k v } }
  let e := k / 2
  if k % 2 = 1 ∧ bits v.toNat 32 32 = 0 ∧ s.mgmt.pending.getLsbD e then
    ({ s with mgmt := { s.mgmt with pending := s.mgmt.pending &&& ~~~ BitVec.ofNat 64 (2 ^ e) } } : State).emit (.msix e)
  else s
/-- A word of a notify page is written (R282). -/
def State.notifyWrite (s : State) (q off : Nat) (v : DWord) : State :=
  let n := v.toNat
  match off with
  | 0x000 => s.doorbell q (v.setWidth 32)
  | 0x008 => s.modIface q fun x => { x with prio := bits n 1 0 }
  | 0x010 => s.modIface q fun x => { x with errvec := bits n 19 18, timer := max 1 (bits n 17 8), count := bits n 7 0 }
  | 0x018 => if bits n 40 40 = 1 then s.modIface q fun x => { x with err := false } else s
  | _ => s
/-- A register of BAR0 is written. -/
def State.bar0Write (s : State) (off : Nat) (v : DWord) : State :=
  let n := v.toNat
  let mgmt := fun (f : Mgmt → Mgmt) => { s with mgmt := f s.mgmt }
  if off % 8 ≠ 0 then s
  else if 0x10000 ≤ off then
    (if off < 0x10000 + 0x200 * Config.cores ∧ off % 0x200 < 0x80 ∧ off % 0x20 = 0 ∧ bits n 63 63 = 1 then
      s.mcClear ((off - 0x10000) / 0x200) (off % 0x200 / 0x20) else s)
  else if 0x8000 ≤ off then (if off < 0x8400 then s.msixWrite ((off - 0x8000) / 8) v else s)
  else if 0x4000 ≤ off then
    (if off < 0x4000 + 0x10 * 256 then
      s.modIface ((off - 0x4000) / 0x40) fun x => x.setRemap ((off - 0x4000) / 0x10 % 4) (off % 0x10 == 8) v else s)
  else if 0x2000 ≤ off then (if off < 0x3000 then s.modIface ((off - 0x2000) / 0x40) fun x => x.write (off % 0x40) v else s)
  else if 0x1000 ≤ off then (if off < 0x1400 then s.partWrite ((off - 0x1000) / 0x80) (off % 0x80) v else s)
  else match off with
    | 0x20 => if s.ctxs.any Ctx.valid then s else mgmt fun m => { m with drvfeat := m.drvfeat.set 0 (v &&& m.dfeat) }
    | 0x40 => mgmt fun m => { m with ctxtab := n / 8192 * 8192 }
    | 0x48 => s.ctxCmd n
    | 0x50 => s.invReq v
    | 0x58 => s.commCmd n
    | 0x60 => mgmt fun m => { m with commtab := n / 2048 * 2048 }
    | 0x70 => if bits n 0 0 = 1 then s.moduleReset else s
    | _ => s
/-- A write of BAR0 or of a notify page; before READY it is ignored (R360). -/
def execRegisterWrite (bar off : Nat) (v : DWord) (s : State) : Host.Outcome State Fault Refusal :=
  .next (if ¬ s.mgmt.ready then s
    else if bar = 0 then s.bar0Write off v
    else if bar = 2 then s.notifyWrite (off / 4096) (off % 4096) v
    else s)
def execMcBankClear (pcn bank : Nat) (s : State) : Host.Outcome State Fault Refusal :=
  .next (if s.mgmt.ready then s.mcClear pcn bank else s)

/-! ### Registers: reads

A read gives RW and RO fields as they stand; WO fields, reserved bits and what no register holds read as zero (R6, R7). -/

/-- A command register: BUSY, RESULT and its number. -/
def cmdWord (busy : Bool) (result n : Nat) : Nat := busy.toNat * 2 ^ 31 + result * 2 ^ 28 + n
/-- A word of a partition block is read. -/
def Part.read (x : Part) (off : Nat) : Nat :=
  match off with
  | 0x00 => x.clusters * 2 ^ 16 + x.l2ways
  | 0x08 => x.s2root
  | 0x10 => x.poolbase
  | 0x18 => x.poolsize
  | 0x20 => x.fqbase
  | 0x28 => x.fqlog
  | 0x30 => x.fqhead.toNat
  | 0x38 => x.fqtail.toNat
  | _ => 0
/-- A word of an interface block is read. -/
def Iface.read (x : Iface) (off : Nat) : Nat :=
  match off with
  | 0x00 => x.szlog * 2 ^ 8 + x.owner * 2 + x.en.toNat
  | 0x08 => x.ring
  | _ => 0
/-- A word of a notify page is read. -/
def Iface.notify (x : Iface) (off : Nat) : Nat :=
  match off with
  | 0x008 => x.prio
  | 0x010 => x.errvec * 2 ^ 18 + x.timer * 2 ^ 8 + x.count
  | 0x018 => x.errcode * 2 ^ 44 + x.err.toNat * 2 ^ 40 + x.halt.toNat * 2 ^ 32 + x.head
  | 0x020 => x.erridx
  | _ => 0
/-- A management register is read, of those below 0x1000. -/
def State.mgmtRead (s : State) (off : Nat) : Nat :=
  let m := s.mgmt
  match off with
  | 0x00 => m.dfeat.toNat
  | 0x20 | 0x28 | 0x30 | 0x38 => (m.drvfeat.getD ((off - 0x20) / 8) 0).toNat
  | 0x40 => m.ctxtab
  | 0x48 => cmdWord m.ctxBusy m.ctxRes m.ctx
  | 0x50 => s.invOver.toNat
  | 0x58 => cmdWord m.commBusy m.commRes m.comm
  | 0x60 => m.commtab
  | 0x68 => s.bootstat
  | _ => 0
/-- A register of BAR0 is read; those of partitions, interfaces, remap entries, MSI-X and the machine-check banks lie in
ranges of their own. -/
def State.bar0Read (s : State) (off : Nat) : Nat :=
  if off % 8 ≠ 0 then 0
  else if off < 0x1000 then s.mgmtRead off
  else if off < 0x1400 then (s.partOf ((off - 0x1000) / 0x80)).read (off % 0x80)
  else if 0x2000 ≤ off ∧ off < 0x3000 then (s.iface ((off - 0x2000) / 0x40)).read (off % 0x40)
  else if 0x4000 ≤ off ∧ off < 0x5000 then
    let r := (s.iface ((off - 0x4000) / 0x40)).remap.getD ((off - 0x4000) / 0x10 % 4) default
    (if off % 0x10 = 8 then r.pdesc else r.word).toNat
  else if 0x8000 ≤ off ∧ off < 0x8400 then (mget 0 s.mgmt.msix ((off - 0x8000) / 8)).toNat
  else if off = 0x9000 then s.mgmt.pending.toNat
  else if 0x10000 ≤ off ∧ off < 0x10000 + 0x200 * Config.cores ∧ off % 0x200 < 0x80 then
    (((s.core ((off - 0x10000) / 0x200)).mc.getD (off % 0x200 / 0x20) []).getD (off % 0x20 / 8) 0).toNat
  else 0
/-- A register of BAR0 or of a notify page is read; before READY all but BOOTSTAT read as zero (R360). -/
def State.regRead (s : State) (bar off : Nat) : Nat :=
  if bar = 0 then (if s.mgmt.ready ∨ off = 0x68 then s.bar0Read off else 0)
  else if bar = 2 then (s.iface (off / 4096)).notify (off % 4096)
  else 0
/-- The host reads a register. -/
def State.readRegister (s : State) (bar off : Nat) : State := s.emit (.register bar off (BitVec.ofNat 64 (s.regRead bar off)))

/-! ### CXL.mem and host memory (R171, R265, R280, R314, R360) -/

/-- Whether a host access may reach n bytes of device memory. -/
def State.cxlOk (s : State) (pa n : Nat) : Bool := s.mgmt.ready && decide (0 < n) && paMemory (pa + n - 1)
def execCxlMemRead (pa len : Nat) (s : State) : Host.Outcome State Fault Refusal :=
  .next (if s.cxlOk pa len then s.emit (.hostData (s.mem.readN pa len) (s.poisoned (.mem pa) len)) else s.emit .cxlError)
def execCxlMemWrite (pa : Nat) (bytes : List Byte) (s : State) : Host.Outcome State Fault Refusal :=
  .next (if s.cxlOk pa bytes.length then s.homeWrite pa bytes else s.emit .cxlError)
/-- The host's IOMMU begins or ceases to translate a page of a PASID's I/O addresses; a result that is cached stays until the
host invalidates it (R280). -/
def State.hostMap (s : State) (pasid page : Nat) (ok : Bool) : State :=
  let rest := s.hostBad.filter (· != (pasid, page))
  { s with hostBad := if ok then rest else rest ++ [(pasid, page)] }

/-- The CXL.io configuration space answers, whatever the stage of bring-up (R360); what it holds is free, log entry 59. -/
def State.configRead (s : State) (off : Nat) : State :=
  ({ s with nextId := s.nextId + 1 } : State).emit (.config off (Config.configWord off s.nextId))

/-! ### Attestation and management (R292, R293, R360, R362) -/

/-- Whether a request reaches Cloper: on SMBus, at its address (R362). -/
def State.hears (s : State) : Transport → Bool
  | .mctpSmbus a => a == s.mgmt.smbus
  | _ => true

/-- Cloper answers from stage 2 on, on the transport that the request came by. After a stage-1 failure it reports only its ROM
identity, whatever SPDM request asks for it. -/
def State.answer (s : State) (via : Transport) (o : Out) : State :=
  if ¬ s.hears via then s
  else if 2 ≤ s.mgmt.stage then s.emit o
  else if s.mgmt.err ≠ 0 ∧ s.mgmt.stage = 0 then s.emit (.answer via 0 Config.romIdentity)
  else s
/-- SPDM 1.2 and 1.3. -/
def execGetVersion (via : Transport) (s : State) : Host.Outcome State Fault Refusal :=
  .next (s.answer via (.answer via 1 [0x12, 0x13]))
def execGetCapabilities (via : Transport) (s : State) : Host.Outcome State Fault Refusal :=
  .next (s.answer via (.answer via 2 Config.capabilities))
/-- EdDSA Ed25519 for signing and SHA-512 for hashing, and no others. -/
def execNegotiateAlgorithms (via : Transport) (s : State) : Host.Outcome State Fault Refusal :=
  .next (s.answer via (.offer via [.ed25519] [.sha512]))
def execGetDigests (via : Transport) (s : State) : Host.Outcome State Fault Refusal :=
  .next (s.answer via (.answer via 4 (Config.sha512 Config.certificate)))
def execGetCertificate (via : Transport) (offset len : Nat) (s : State) : Host.Outcome State Fault Refusal :=
  .next (s.answer via (.answer via 5 ((Config.certificate.drop offset).take len)))
/-- The nonce is answered with a signature by the identity key. -/
def execChallenge (via : Transport) (nonce : List Byte) (s : State) : Host.Outcome State Fault Refusal :=
  .next (s.answer via (.answer via 6 (Config.sign nonce)))
/-- The image that a measurement is of, as it was loaded. -/
def State.image (s : State) (id : Nat) : List Byte := imageOf s.mgmt.images id
/-- A measurement of R293; measurement 4 is taken at the request. -/
def State.measurement (s : State) (index : Nat) : List Byte :=
  if index = 4 then
    Config.sha512 ((s.mgmt.drvfeat.flatMap fun w => leBytes 8 w.toNat) ++
      s.parts.flatMap fun p => leBytes 8 (p.read 0))
  else if 1 ≤ index ∧ index ≤ 3 then Config.sha512 (s.image index)
  else []
def execGetMeasurements (via : Transport) (index : Nat) (s : State) : Host.Outcome State Fault Refusal :=
  .next (if 2 ≤ s.mgmt.stage ∧ s.hears via then s.emit (.answer via 7 (s.measurement index)) else s)
/-- MCTP comes over CXL and over SMBus; the DOE mailbox carries SPDM alone (R292, R362). -/
def overMctp : Transport → Bool
  | .doe => false
  | _ => true
def execMctpControl (via : Transport) (cmd : BitVec 8) (s : State) : Host.Outcome State Fault Refusal :=
  .next (if 2 ≤ s.mgmt.stage ∧ overMctp via ∧ s.hears via then s.emit (.answer via 8 (Config.mctpAnswer cmd)) else s)
/-- The clock step of a core below 2.0 GHz: its own, and what power costs every core (R353, R355). -/
def State.stepOf (s : State) (c : Nat) : Nat := min 3 ((s.core c).clock + s.mgmt.cut)
/-- A numeric sensor: 0 to 191 the cores, 192 to 208 the other sensors of R355, 209 to 213 the rails, 214 to 217 the dies'
clock steps, as the deepest of a die's cores, 218 BOOTSTAT. DESIGN CHOICE, log entry 6: the numbers are the model's. -/
def State.sensor (s : State) (n : Nat) : Nat :=
  if n < Config.cores then (s.core n).heat
  else if n < 209 then mget 0 s.mgmt.temps n
  else if 214 ≤ n ∧ n ≤ 217 then ((List.range 48).map fun k => s.stepOf (48 * (n - 214) + k)).foldl max 0
  else if n = 218 then s.bootstat
  else Config.sensorReading n s.clk
def execPldmRequest (via : Transport) (sensor : Nat) (s : State) : Host.Outcome State Fault Refusal :=
  .next (if 2 ≤ s.mgmt.stage ∧ sensor ≤ 218 ∧ overMctp via ∧ s.hears via then s.emit (.sensor via sensor (s.sensor sensor)) else s)

/-! ### Temperature and power (R309, R353, R355) -/

/-- The core that a team of a hot core moves to: the coolest of the same device partition whose partition of the same index
has room for it (R309). A team of a context that is switched out of its core takes no room, and stays out: where its context is out
too, or has no team (R308). -/
def State.coolCore (s : State) (t : Nat) : Option Nat :=
  let m := s.team t
  let out := s.isOut t
  let mine := ((List.range m.nWarps).filter fun w => (s.warp t w).resident).map fun w => (t, w)
  let ok := fun (c : Nat) => c != m.core && s.usable (s.devPart m.core) c &&
    s.fits (s.residents c m.part ++ mine) && (!m.padIn || decide (s.padUse c + m.scratch ≤ 512)) &&
    (if out then (s.ctx m.ctx).out.contains c || (s.teamsOn m.ctx c).isEmpty else !(s.ctx m.ctx).out.contains c)
  ((List.range Config.cores).filter ok).foldl (fun (r : Option Nat) c => match r with
    | some b => if (s.core c).heat < (s.core b).heat then some c else some b
    | none => some c) none
/-- An engine move of a bank names the core of its team. -/
def CmdOp.onCore (c : Nat) : CmdOp → CmdOp
  | .acld src bank count _ part => .acld src bank count c part
  | .acst bank vm vn addr stride fmt _ part => .acst bank vm vn addr stride fmt c part
  | op => op
/-- A team moves to another core (R309): a release, its banks and queued commands with it, then an acquire and an ICFENCE,
after which a clause that a thread stands in is fetched again (R170, R310). Its resident warps and its scratchpad go by its save area,
with the parts of the state extension in use (R212, R213, R296), and the stores in flight of the cluster it leaves land, so that it
sees no older value than before (R166). LCID goes along, and its threads' waits for an issue begin anew. -/
def State.moveTeam (s : State) (t c : Nat) : State :=
  let m := s.team t
  let is := List.range m.threads.length
  let n := (s.core c).clauses.getD m.part 0
  let ws := (List.range m.nWarps).filter fun w => (s.warp t w).resident
  let out := s.isOut t
  let s := is.foldl (fun (s : State) (i : Nat) => (s.settleThread t i).settle t i) s
  let s := s.ackAll (s.stores.filter fun x => x.core / 8 == m.core / 8)
  let s := (s.ungroup t is).spillTeam t
  let s := ws.foldl (fun (s : State) (w : Nat) => s.saveWarp t w) s
  let s := if m.padIn then s.padAway t else s
  let mine := (s.seqOf m.core m.part).filter fun q => q.gang.team == t
  let s := s.modSeq m.core m.part fun l => l.filter fun q => q.gang.team != t
  let s := s.modSeq c m.part fun l => l ++ mine
  let s := s.modCore m.core fun x => { x with spins := x.spins.map fun l => l.filter fun d => d.team != t }
  let to_ := fun (d : Cmd) => if d.team = t then { d with op := d.op.onCore c } else d
  let s := { s with cmds := s.cmds.map to_ }
  let on := fun (x : Thread) => { x with refetch := x.mid.isSome, issued := n, readyAt := n }
  let s := s.modTeam t fun m => { m with core := c, stop := false, threads := m.threads.map on }
  let s := if (s.launch m.launch).fuse then s.fuse c else s
  let s := (s.acquire c).icDrop c
  let s := if m.padIn then s.padBack t else s
  let s := ws.foldl (fun (s : State) (w : Nat) => s.loadWarp t w) s
  let s := if out ∧ ¬ (s.ctx m.ctx).out.contains c then s.modCtx m.ctx fun x => { x with out := x.out ++ [c] } else s
  ((s.wakeAlloc m.core m.part).wakeAlloc c m.part).tidy t
/-- Teams of a core that its agent may move. -/
def State.movable (s : State) (core : Nat) : List Nat :=
  (List.range s.teams.length).filter fun t =>
    let m := s.team t
    m.core == core && m.started && !m.retired && !m.agent
/-- A hot core's agent stops the teams that have somewhere to go, at their clauses' ends, and moves those that stand still and
have no store open at a peer (R309). -/
def State.coolDown (s : State) (core : Nat) : State :=
  (s.movable core).foldl (fun (s : State) (t : Nat) =>
    match s.coolCore t with
    | none => s.modTeam t fun m => { m with stop := false }
    | some c =>
      if s.isOut t then s.moveTeam t c
      else if s.notStopped t ∨ ¬ (List.range (s.team t).nWarps).all fun w => s.mayLeave (t, w) then s.modTeam t fun m => { m with stop := true }
      else s.moveTeam t c) s
/-- A core is cool: teams that were stopped to move go on. -/
def State.coolAgain (s : State) (core : Nat) : State :=
  (s.movable core).foldl (fun (s : State) (t : Nat) => s.modTeam t fun m => { m with stop := false }) s
/-- The clock step of a core after a reading: one step down a millisecond at the threshold plus 5 °C and above, one step up in
10 ms below the threshold (R355). -/
def Core.step (x : Core) (hotAt celsius now : Nat) : Core :=
  let x := { x with heat := celsius }
  if hotAt + 5 ≤ celsius ∧ x.clock < 3 ∧ (x.clock = 0 ∨ x.cool + 1000000 ≤ now) then { x with clock := x.clock + 1, cool := now }
  else if celsius < hotAt ∧ 0 < x.clock ∧ x.cool + 10000000 ≤ now then { x with clock := x.clock - 1, cool := now }
  else x
/-- A sensor is read: 0 to 191 the cores, 192 to 208 the stacks and the I/O regions (R355). -/
def State.thermalPoll (s : State) (n celsius : Nat) : State :=
  if n < 209 ∧ 115 ≤ celsius then s.moduleReset
  else if Config.cores ≤ n then { s with mgmt := { s.mgmt with temps := if n < 209 then mset 0 s.mgmt.temps n celsius else s.mgmt.temps } }
  else
    let s := s.modCore n fun x => x.step s.mgmt.hotAt celsius s.clk
    if s.mgmt.hotAt < celsius then s.coolDown n else s.coolAgain n
def execThermalPoll (sensor celsius : Nat) (s : State) : Host.Outcome State Fault Refusal :=
  .next (s.thermalPoll sensor celsius)
/-- The module's power averaged over 1 ms (R353): above the limit it costs every core a clock step, and while it stays below
95 % of the limit they have one back every 10 ms. A core's step is never below 0.5 GHz, whatever power and heat cost it
together. -/
def State.powerLimit (s : State) (watts : Nat) : State :=
  let m := s.mgmt
  if m.watts < watts then { s with mgmt := { m with cut := min 3 (m.cut + 1) }, power := s.clk }
  else if m.watts * 95 ≤ watts * 100 then { s with power := s.clk }
  else if 0 < m.cut ∧ s.power + 10000000 ≤ s.clk then { s with mgmt := { m with cut := m.cut - 1 }, power := s.clk }
  else s
def execPowerLimit (watts : Nat) (s : State) : Host.Outcome State Fault Refusal := .next (s.powerLimit watts)

/-! ### Errors (R313 to R315, R327) -/

/-- A core that logs an error of a die. -/
def dieCore (die : Nat) : Nat := 48 * (die % 4)
/-- A unit detects an error: one that it masks is logged as corrected, and has no other effect; any other is a machine check. -/
def execMachineCheck (core unit : Nat) (syndrome : BitVec 32) (paddr : Option Nat) (uc : Bool) (s : State) :
    Host.Outcome State Fault Refusal :=
  .next (if Config.cores ≤ core then s
    else if uc then s.machineCheck core unit syndrome paddr
    else s.mcLog core unit syndrome paddr false)
/-- Whether a partition of a core has held a ready resident warp and started no clause for 100 ms (R315). -/
def State.hung (s : State) (core : Nat) : Bool :=
  (List.range 4).any fun p => (s.groupsOf core p).any s.ready && decide ((s.core core).issuedAt.getD p 0 + 100000000 ≤ s.clk)
/-- A core's watchdog expires, UNIT 13: a partition hangs, or the agent has missed its heartbeat for 100 ms. -/
def execWatchdog (core : Nat) (missed : Bool) (s : State) : Host.Outcome State Fault Refusal :=
  .next (if core < Config.cores ∧ ¬ (s.core core).halted ∧ (missed ∨ s.hung core) then
    s.machineCheck core 13 (Config.syndrome s.clk) none else s)
/-- The patrol scrub finds an error: a masked one is logged as corrected; data it cannot correct is poison (R314). -/
def State.scrub (s : State) (pa : Nat) (uncorrectable : Bool) : State :=
  if ¬ paMemory pa then s
  else if uncorrectable then s.mark (.mem pa) 1
  else s.mcLog (dieCore (dieOfPa pa)) (unitOf pa) (Config.syndrome pa) (some pa) false
def execPatrolScrub (pa : Nat) (uncorrectable : Bool) (s : State) : Host.Outcome State Fault Refusal :=
  .next (s.scrub pa uncorrectable)
/-- A corrupt flit is retried: masked, and logged as corrected, UNIT 9. -/
def execLinkRetry (port : Nat) (s : State) : Host.Outcome State Fault Refusal :=
  .next (s.mcLog (dieCore (port / 4)) 9 (Config.syndrome port) none false)

end Sys2Proof.Machine
end

