-- ==== Sys2Proof/Machine/Fabric.lean ====
section
/-! DEFINITION. What arrives from the fabric (R334, R335, R339, R343 to R346, R349): peer requests and answers, the agreement
messages, chunks and CBAR, and the loss of a link. -/

namespace Sys2Proof.Machine

open Sys2Proof

/-! ### Peer memory (R265, R334, R335) -/

/-- The local address that a fabric address of this chip names. -/
def localPa (pa : Nat) : Nat := bits pa 40 0
/-- A request of a peer is performed at its home, and answered; poison travels with the data, and an atomic on a poisoned sector
changes nothing (R314). An address that is not memory gets no answer. -/
def State.peerRequest (s : State) (chip tag : Nat) (op : PeerOp) : State :=
  match op with
  | .load addr len =>
    let a := localPa addr
    if len = 0 ∨ ¬ paMemory (a + len - 1) then s
    else
      let (s, bs) := s.homeBytes (.mem a) len
      s.send (.mrsp chip tag bs (s.poisoned (.mem a) len))
  | .store addr bytes bad =>
    let a := localPa addr
    if bytes.isEmpty ∨ ¬ paMemory (a + bytes.length - 1) then s
    else (s.writeLoc noOwner (.mem a) bytes bad).send (.mrsp chip tag [] false)
  | .atom addr wid aop b =>
    let a := localPa addr
    if wid = 0 ∨ ¬ paMemory (a + wid - 1) then s
    else
      let (s, bs) := s.homeBytes (.mem a) wid
      if s.poisoned (.mem a) wid then s.send (.mrsp chip tag bs true)
      else (s.homeWrite a (leBytes wid (atomResult aop (8 * wid) (leValue bs) b))).send (.mrsp chip tag bs false)
def execMreq (chip tag : Nat) (op : PeerOp) (s : State) : Host.Outcome State Fault Refusal :=
  .next (s.peerRequest chip tag op)

/-- The threads that stand at BP-REMOTE for a request's answer go on after their word. -/
def State.answered (s : State) (r : PeerReq) (is : List Nat) : State :=
  match is.filter fun i => (s.thread r.team i).wait == .remoteData r.key with
  | [] => s
  | is => (s.acquire (s.team r.team).core).unblock r.team is true
/-- A result that waits for a peer is written, and its thread goes on. -/
def State.answerValue (s : State) (r : PeerReq) (v : Nat) : State :=
  ((s.fillResult r.team r.tidx r.key v).writeBack r.team r.tidx r.key).answered r [r.tidx]
/-- The requests that one issue's threads wait for together, and the state without them. -/
def State.together (s : State) (r : PeerReq) : List PeerReq × State :=
  let mine := fun (x : PeerReq) => x.team == r.team && x.key == r.key
  (s.peers.filter mine, { s with peers := s.peers.filter fun x => !mine x })
/-- What is known of a request that others of its issue wait with. -/
def PeerRole.known : PeerRole → Bool
  | .store _ _ _ _ _ got => got.isSome
  | .shape _ _ got => got.isSome
  | _ => true
/-- Note what has come for a request. -/
def State.noteGot (s : State) (tag : Nat) (role : PeerRole) : State :=
  { s with peers := s.peers.map fun x => if x.tag = tag then { x with role } else x }
/-- Every scale byte of an issue's typed stores has come: they are made in their order (R176), and their threads go on. -/
def State.answerStores (s : State) (r : PeerReq) : State :=
  let (all, s) := s.together r
  (all.foldl (fun (s : State) (x : PeerReq) => match x.role with
    | .store fmt ty v elem sc (some b) => (typedBytesAt fmt ty v elem sc b).foldl (fun (s : State) (y : Loc × List Byte) =>
        s.storeLoc x.team x.tidx y.1 y.2) s
    | _ => s) s).answered r (all.map PeerReq.tidx)
/-- Every shape record of an issue has come (R189): each home warp's is written, and the threads of the issue go on, those that did
not execute it past it. With one that is no shape nothing is written: its home warp's threads raise SHAPEFMT, and the others are at
the word again. -/
def State.answerShapes (s : State) (r : PeerReq) : State :=
  let (all, s) := s.together r
  let t := r.team
  let recs := all.filterMap fun (x : PeerReq) => match x.role with | .shape w is (some h) => some (w, is, h) | _ => none
  let ran := recs.flatMap fun e => e.2.1
  let here := s.waiting t fun _ v => v == .remoteData r.key
  match (recs.filter fun e => !shapeOk e.2.2).flatMap fun e => e.2.1, (s.thread t (here.headD 0)).mid with
  | [], some (_, p) =>
    let s := recs.foldl (fun (s : State) e => s.modWarp t e.1 fun x => { x with regs := { x.regs with shape := e.2.2 } }) s
    let idle := here.filter fun i => !ran.contains i
    (idle.foldl (fun (s : State) (i : Nat) => s.modThread t i fun x => { x with skip := p + 1 }) s).answered r here
  | is, some (c, p) =>
    (s.wake t here fun x => { x with released := false }).raise t
      { threads := here, raised := is, reps := is.map fun i => (i, { code := fShapefmt }), epc := c.wordAddr p, pos := p, exec := ran }
  | _, none => s
/-- 8 bytes of another chip have come for what asked for them (R335): kept for a walk, an engine or a product, or a word of code for
its core's instruction cache. What has gone stale meanwhile is not kept. Who waited for them tries again. -/
def State.answerData (s : State) (r : PeerReq) (key : PageKey) (stale : Bool) (data : List Byte) (bad : Bool) : State :=
  let s := if stale then s
    else if key.pasid = 2 then
      (if bad then s.consume key.part (.peer r.pa)
       else s.modCore key.part fun x => { x with icache := (r.pa, BitVec.ofNat 64 (leValue data)) :: x.icache })
    else { s with far := s.far ++ [{ key, bytes := data, bad }] }
  (s.wakePages (fun _ k => k == key) []).retryWords
/-- An engine command whose last write at a peer is acknowledged ends, if it waited for that (R160). -/
def State.cmdAcked (s : State) (id : Nat) : State :=
  match s.cmds.find? fun c => c.id == id with
  | some c => if c.todo.isEmpty then s.finishCmd c else s
  | none => s
/-- An answer or an acknowledgement of a peer. Poisoned data is consumed by the core that asked for it, whose thread it is while the
request stands (R314, R316). -/
def State.peerAnswer (s : State) (tag : Nat) (data : List Byte) (bad : Bool) : State :=
  match s.peers.find? fun r => r.tag == tag with
  | none => s
  | some r =>
    let over_ := fun (s : State) => { s with peers := s.peers.filter fun x => x.tag != tag }
    match r.role with
    | .data key stale => (over_ s).answerData r key stale data bad
    | role =>
      if ¬ r.waits then (if r.cmd = 0 then over_ s else (over_ s).cmdAcked r.cmd)
      else if bad then over_ (s.consume (s.team r.team).core (.peer r.pa))
      else match role with
        | .scale none near => (over_ s).answerValue r (r.how.value near (data.headD 0))
        | .scale (some pa) _ => (over_ s).askPeer r.team r.tidx r.key r.how (data.headD 0) pa (.load pa r.how.len) .bytes
        | .store fmt ty v elem sc _ =>
          let s := s.noteGot tag (.store fmt ty v elem sc (some (data.headD 0)))
          if (s.together r).1.all fun x => x.role.known then s.answerStores r else s
        | .shape w is _ =>
          let s := s.noteGot tag (.shape w is (some (BitVec.ofNat 1024 (leValue data))))
          if (s.together r).1.all fun x => x.role.known then s.answerShapes r else s
        | _ => (over_ s).answerValue r (r.how.value data r.scale)
def execMrsp (tag : Nat) (data : List Byte) (bad : Bool) (s : State) : Host.Outcome State Fault Refusal :=
  .next (s.peerAnswer tag data bad)

/-! ### Joining (R339) -/

/-- The open communicator with a fabric tag. -/
def State.commTag (s : State) (ftag : Nat) : Option Comm := s.comms.find? fun c => c.ftag == ftag
/-- Whether a message goes to a chip. -/
def FMsg.to_ (m : FMsg) (chip : Nat) : Bool :=
  match m with
  | .decision _ _ _ _ k | .cbar _ _ _ _ k | .withdrawn _ _ _ k => k == chip
  | _ => false
/-- The root acknowledges a chip's JOIN, and what it holds for that chip flows. -/
def State.joinAt (s : State) (ftag chip : Nat) : State :=
  match s.commTag ftag with
  | none => s.send (.notopen ftag)
  | some c =>
    if ¬ s.isRoot c then s
    else
      let s := s.modComm c.slot fun x =>
        { x with joined := if x.joined.contains chip then x.joined else x.joined ++ [chip],
                 held := x.held.filter fun m => !m.to_ chip }
      let s := s.send (.joinAck ftag chip)
      (c.held.filter fun m => m.to_ chip).foldl (fun (s : State) (m : FMsg) => s.sendTag c true m) s
def execJoin (ftag chip : Nat) (s : State) : Host.Outcome State Fault Refusal := .next (s.joinAt ftag chip)
/-- The chip that a root's message goes to has not joined after all. -/
def Comm.parted (c : Comm) : FMsg → List Nat
  | .decision _ _ _ _ k | .cbar _ _ _ _ k | .withdrawn _ _ _ k => c.joined.filter (· != k)
  | _ => c.joined
/-- A receiver has not opened the tag: of a JOIN, or of a message sent since, which the sender takes back into its queue; the
JOIN goes again (R339). -/
def State.notOpen (s : State) (ftag : Nat) (which : Option Nat) : State :=
  match s.commTag ftag with
  | none => s
  | some c => match which.bind fun n => c.sent[n]?.map fun m => (n, m) with
    | some (n, m) => s.modComm c.slot fun x =>
        { x with acked := x.acked && s.isRoot c, joined := c.parted m, sent := x.sent.eraseIdx n, held := x.held ++ [m] }
    | none => s.modComm c.slot fun x => { x with acked := x.acked && s.isRoot c }
def execNotopen (ftag : Nat) (which : Option Nat) (s : State) : Host.Outcome State Fault Refusal := .next (s.notOpen ftag which)
/-- The JOIN is acknowledged: what was held flows. -/
def State.joinAcked (s : State) (ftag : Nat) : State :=
  match s.commTag ftag with
  | some c =>
    if s.isRoot c ∨ c.acked then s
    else c.held.foldl (fun (s : State) (m : FMsg) => s.sendTag c true m)
      (s.modComm c.slot fun x => { x with acked := true, held := [] })
  | none => s
def execJoinAck (ftag : Nat) (s : State) : Host.Outcome State Fault Refusal := .next (s.joinAcked ftag)
/-- The JOIN goes again 10 µs after the last. -/
def execJoinRetry (ftag : Nat) (s : State) : Host.Outcome State Fault Refusal :=
  .next (match s.commTag ftag with
    | some c =>
      if s.isRoot c ∨ c.acked ∨ s.clk < c.joinAt + 10000 then s
      else (s.modComm c.slot fun x => { x with joinAt := s.clk }).send (.join ftag)
    | none => s)

/-! ### Agreement (R345, R346) -/

/-- A subtree reaches the root. Ranks that have withdrawn are known for every later sequence too, also where this one is decided
already, and at the other chips, which only wait for them in collectives. -/
def State.contribution (s : State) (ftag seq lo hi : Nat) (isAny : Bool) (value : Option Bool) (isPart : Bool) : State :=
  match s.commTag ftag with
  | none => s.send (.notopen ftag)
  | some c =>
    if c.failed ∨ hi ≤ lo ∨ c.nrank < hi ∨ ((¬ s.isRoot c ∨ (c.seqInfo seq).outcome.isSome) ∧ value.isSome) then s
    else
      let s := s.modComm c.slot fun x => x.modSeq seq fun a => { a with parts := a.parts ++ [(lo, hi, isAny, value, isPart)] }
      if ¬ s.isRoot c then s else
      let later := if value.isNone then (c.agree.map Agree.seq).filter fun n => decide (seq < n) else []
      (seq :: later).foldl (fun (s : State) (n : Nat) => s.tryDecide c.slot n) s
def execContribution (ftag seq lo hi : Nat) (any_ : Bool) (value : Option Bool) (partialRanks : Bool) (s : State) :
    Host.Outcome State Fault Refusal := .next (s.contribution ftag seq lo hi any_ value partialRanks)
/-- An abort reaches the root. -/
def execAbortMessage (ftag seq : Nat) (s : State) : Host.Outcome State Fault Refusal :=
  .next (match s.commTag ftag with
    | none => s.send (.notopen ftag)
    | some c => if c.failed ∨ ¬ s.isRoot c then s else s.abortAt c.slot seq)
/-- A decision reaches a chip; LOST says that the communicator has failed elsewhere, also to the root (R349). -/
def State.decision (s : State) (ftag seq : Nat) (outcome : BitVec 3) (isPart : Bool) : State :=
  match s.commTag ftag with
  | none => s.send (.notopen ftag)
  | some c =>
    if c.failed then s
    else if outcome = 4 then s.loseComm c.slot isPart
    else if s.isRoot c ∨ outcome = 0 ∨ 4 < outcome.toNat ∨ (c.seqInfo seq).outcome.isSome then s
    else (s.modComm c.slot fun x => x.modSeq seq fun a => { a with outcome := some (outcome, isPart) }).deliver c.slot seq
def execDecision (ftag seq : Nat) (outcome : BitVec 3) (partialRanks : Bool) (s : State) : Host.Outcome State Fault Refusal :=
  .next (s.decision ftag seq outcome partialRanks)

/-! ### Collectives (R343, R344) and lost links (R349) -/

def execCollectiveChunk (slot k chunk : Nat) (remote : List (Nat × OpSig × List (Byte × Bool))) (s : State) :
    Host.Outcome State Fault Refusal := .next (s.collChunk slot k chunk remote)
/-- A chunk of an operation has waited 50 µs. -/
def execChunkAging (slot k : Nat) (s : State) : Host.Outcome State Fault Refusal :=
  let old := fun (o : CollOp) => if o.k = k then { o with aged := true } else o
  .next (s.modComm slot fun c => { c with ops := c.ops.map old })
/-- Another rank has issued operation k. It fails the communicator where the ranks that this chip knows of issued another
operation, also one that is over here (R341). -/
def State.barArrive (s : State) (slot k rank : Nat) (sig : OpSig) : State :=
  match s.comm slot with
  | none => s
  | some c =>
    if c.failed ∨ c.nrank ≤ rank ∨ (c.rbase ≤ rank ∧ rank < c.rbase + c.rcnt) then s
    else if (c.ops.any fun o => o.k == k && o.sig != sig) || (c.cbars.any fun b => b.1 == k && b.2.2 != sig) ||
        (c.past.any fun b => b.1 == k && b.2 != sig) then s.failComm slot
    else
      let s := s.modComm slot fun x =>
        { x with cbars := if x.cbars.contains (k, rank, sig) then x.cbars else x.cbars ++ [(k, rank, sig)] }
      let close := fun (x : Comm) => if x.past.any (fun b => b.1 == k) && x.remoteBars k
        then { x with past := x.past.filter fun b => b.1 != k, cbars := x.cbars.filter fun b => b.1 != k } else x
      (s.modComm slot close).barTry slot k
def execCbarMessage (slot k rank : Nat) (sig : OpSig) (s : State) : Host.Outcome State Fault Refusal :=
  .next (s.barArrive slot k rank sig)
/-- Links are lost: every communicator that spans a chip now cut off fails, and so does one that is opened later (R358). -/
def State.linkLoss (s : State) (chips : List Nat) : State :=
  let lost := chips.filter fun n => n != s.mgmt.chip && !s.mgmt.down.contains n
  let s := { s with mgmt := { s.mgmt with down := s.mgmt.down ++ lost } }
  (s.comms.filter s.cutOff).foldl (fun (s : State) (c : Comm) => s.failComm c.slot) s
def execLinkLoss (chips : List Nat) (s : State) : Host.Outcome State Fault Refusal := .next (s.linkLoss chips)

end Sys2Proof.Machine
end

