-- ==== Sys2Proof/Machine/Lanes.lean ====
section
/-! DEFINITION. Lane instructions (R103, R123 to R127). -/

namespace Sys2Proof.Machine

open Sys2Proof

/-- Values by lane set: a scalar destination keeps those of the highest-numbered set of each home warp (R41, R207). -/
def State.lastSets (s : State) (t : Nat) (code : BitVec 8) (sets : List (List (Nat × Nat))) : List (Nat × Nat) :=
  if isScalar code then
    sets.flatten.map fun e =>
      let mine := sets.filter fun l => l.any fun f => (s.team t).warpOf f.1 == (s.team t).warpOf e.1
      (e.1, agreed ((mine.getLastD []).map Prod.snd))
  else sets.flatten

/-- The thread of a set at a home lane. -/
def State.atLane (s : State) (t : Nat) (set : List Nat) (l : Int) : Option Nat :=
  set.find? fun i => ((s.team t).hlane i : Int) == l

/-! ### SHFL (R123) -/

/-- The home lane read: modes 0 idx, 1 up, 2 down, 3 xor. -/
def shflLane (mode l b : Nat) : Int :=
  match mode with
  | 0 => b
  | 1 => (l : Int) - b
  | 2 => (l : Int) + b
  | _ => (l ^^^ b : Nat)
/-- SHFL of one lane set: each thread's value and predicate. -/
def State.shflSet (s : State) (w : FA) (t : Nat) (set : List Nat) : List (Nat × Nat × Bool) :=
  set.map fun i =>
    let b := s.src t i w.sb w.sc 1
    match s.atLane t set (shflLane w.ctl10.toNat ((s.team t).hlane i) b) with
    | some j => (i, s.fa w t j, true)
    | none => (i, s.fa w t i, false)
def execShfl (w : FA) (s : State) : Host.Outcome State Fault Refusal :=
  simple (.shfl w) w.c (fun s k ex =>
    let rs := (s.laneSets k.team ex).map fun l => s.shflSet w k.team l
    let s := s.putSets k.team w.dst (tyRegs w.ty) (rs.map fun l => l.map fun r => (r.1, r.2.1))
    rs.flatten.foldl (fun (s : State) (r : Nat × Nat × Bool) => s.putPred k.team r.1 w.ctl42 r.2.2) s) s

/-! ### VOTE (R124) -/

/-- The vote of a thread. -/
def State.vote (s : State) (w : FA) (t i : Nat) : Bool := (s.thread t i).pred w.sc20 != w.sc.getLsbD 3
/-- A mask of the lanes 32g to 32g + 31 of threads. -/
def laneMask (m : Team) (g : Nat) (is : List Nat) : Nat :=
  is.foldl (fun a i => if m.hlane i / 32 = g then a ||| 2 ^ (m.hlane i % 32) else a) 0
/-- VOTE of one lane set: the value of d and the predicate. -/
def State.voteSet (s : State) (w : FA) (t : Nat) (set : List Nat) : Nat × Bool :=
  let vs := set.map (s.vote w t)
  let b := match w.ctl10.toNat with
    | 0 => vs.any id
    | 1 => vs.all id
    | _ => vs.all id || vs.all (!·)
  if w.ctl10 = 3 then (laneMask (s.team t) (w.ctl.extractLsb' 2 2).toNat (set.filter (s.vote w t)), false)
  else (b.toNat, b)
def execVote (w : FA) (s : State) : Host.Outcome State Fault Refusal :=
  simple (.vote w) w.c (fun s k ex =>
    let rs := (s.laneSets k.team ex).map fun l => (l, s.voteSet w k.team l)
    let s := s.putSets k.team w.dst 1 (rs.map fun r => r.1.map fun i => (i, r.2.1))
    if w.ctl10 = 3 then s
    else rs.foldl (fun (s : State) (r : List Nat × Nat × Bool) =>
      r.1.foldl (fun (s : State) (i : Nat) => s.putPred k.team i w.sc64 r.2.2) s) s) s

/-! ### REDUX (R125) -/

/-- A leaf as read. -/
def reduxLeaf (w : FA) (v : Nat) : Nat :=
  if tyFloat w.ty then
    (let f := fmOf w.ty; if f.isNan v then f.nan else f.flush (ftzOf w) v)
  else v % 2 ^ tyBits w.ty
/-- A node. -/
def reduxNode (w : FA) (a b : Nat) : Nat :=
  let f := fmOf w.ty
  match w.sc20.toNat with
  | 0 => if tyFloat w.ty then f.add (rmOf w) (ftzOf w) a b else (a + b) % 2 ^ tyBits w.ty
  | 1 => if tyFloat w.ty then f.minmax false (ftzOf w) a b
    else ibits (min (intOf w.ty a) (intOf w.ty b)) (tyBits w.ty)
  | 2 => if tyFloat w.ty then f.minmax true (ftzOf w) a b
    else ibits (max (intOf w.ty a) (intOf w.ty b)) (tyBits w.ty)
  | 3 => a &&& b
  | 4 => a ||| b
  | _ => a ^^^ b
/-- The canonical tree over 2^n leaves from a lane: an absent subtree passes the other through (R99, R125). -/
def canonTree (f : Nat → Nat → Nat) (leaf : Nat → Option Nat) : Nat → Nat → Option Nat
  | 0, l => leaf l
  | n + 1, l =>
    match canonTree f leaf n l, canonTree f leaf n (l + 2 ^ n) with
    | some a, some b => some (f a b)
    | some a, none => some a
    | none, r => r
/-- REDUX of one lane set. -/
def State.reduxSet (s : State) (w : FA) (t : Nat) (set : List Nat) : Nat :=
  let leaf := fun (l : Nat) => (s.atLane t set l).map fun i => reduxLeaf w (s.fa w t i)
  fillTy w.ty ((canonTree (reduxNode w) leaf 7 0).getD 0)
def execRedux (w : FA) (s : State) : Host.Outcome State Fault Refusal :=
  simple (.redux w) w.c (fun s k ex =>
    let rs := (s.laneSets k.team ex).map fun l => l.map fun i => (i, s.reduxSet w k.team l)
    s.issueResults k w.c w.dst (tyRegs w.ty)
      ((s.lastSets k.team w.dst rs).map fun e => (e.1, some e.2, none))) s

/-! ### MATCH and V2S (R126, R127) -/

/-- MATCH of one lane set: each thread's mask, and whether all hold one value. -/
def State.matchSet (s : State) (w : FA) (t : Nat) (set : List Nat) : List (Nat × Nat) × Bool :=
  (set.map fun i => (i, laneMask (s.team t) w.ctl10.toNat (set.filter fun j => s.fa w t j == s.fa w t i)),
   set.all fun j => s.fa w t j == s.fa w t (set.headD 0))
def execMatchLanes (w : FA) (s : State) : Host.Outcome State Fault Refusal :=
  simple (.matchLanes w) w.c (fun s k ex =>
    let rs := (s.laneSets k.team ex).map fun l => s.matchSet w k.team l
    let same := fun (i : Nat) => rs.any fun r => r.2 && r.1.any fun e => e.1 == i
    s.issueResults k w.c w.dst 1 ((s.lastSets k.team w.dst (rs.map Prod.fst)).map fun e =>
      (e.1, some e.2, some (w.ctl42, same e.1)))) s

/-- V2S of one lane set. -/
def State.v2sSet (s : State) (w : FA) (t : Nat) (set : List Nat) : Nat :=
  let lead := set.headD 0
  match s.atLane t set (s.src t lead w.sb w.sc 1) with
  | some i => s.fa w t i
  | none => s.fa w t lead
def execV2s (w : FA) (s : State) : Host.Outcome State Fault Refusal :=
  simple (.v2s w) w.c (fun s k ex =>
    let rs := (s.laneSets k.team ex).map fun l => l.map fun i => (i, s.v2sSet w k.team l)
    s.issueResults k w.c w.dst (tyRegs w.ty)
      ((s.lastSets k.team w.dst rs).map fun e => (e.1, some e.2, none))) s

end Sys2Proof.Machine
end

