-- ==== Sys2Proof/Machine/Dispatch.lean ====
section
/-! DEFINITION. What each instruction and each step of the machine does: one call for each row of the opcode table. -/

namespace Sys2Proof.Machine

open Sys2Proof

def exec (i : Instr) (s : State) : Host.Outcome State Fault Refusal :=
  match i with
  | .nop cls w => Sys2Proof.Machine.execNop cls w s
  | .add w => Sys2Proof.Machine.execAdd w s
  | .sub w => Sys2Proof.Machine.execSub w s
  | .mul w => Sys2Proof.Machine.execMul w s
  | .mulh w => Sys2Proof.Machine.execMulh w s
  | .mad w => Sys2Proof.Machine.execMad w s
  | .madw w => Sys2Proof.Machine.execMadw w s
  | .addc w => Sys2Proof.Machine.execAddc w s
  | .subb w => Sys2Proof.Machine.execSubb w s
  | .neg w => Sys2Proof.Machine.execNeg w s
  | .abs w => Sys2Proof.Machine.execAbs w s
  | .min w => Sys2Proof.Machine.execMin w s
  | .max w => Sys2Proof.Machine.execMax w s
  | .and w => Sys2Proof.Machine.execAnd w s
  | .or w => Sys2Proof.Machine.execOr w s
  | .xor w => Sys2Proof.Machine.execXor w s
  | .andn w => Sys2Proof.Machine.execAndn w s
  | .not w => Sys2Proof.Machine.execNot w s
  | .shl w => Sys2Proof.Machine.execShl w s
  | .shr w => Sys2Proof.Machine.execShr w s
  | .sar w => Sys2Proof.Machine.execSar w s
  | .rotl w => Sys2Proof.Machine.execRotl w s
  | .fshf w => Sys2Proof.Machine.execFshf w s
  | .popc w => Sys2Proof.Machine.execPopc w s
  | .clz w => Sys2Proof.Machine.execClz w s
  | .ctz w => Sys2Proof.Machine.execCtz w s
  | .brev w => Sys2Proof.Machine.execBrev w s
  | .bfx w => Sys2Proof.Machine.execBfx w s
  | .bfi w => Sys2Proof.Machine.execBfi w s
  | .prmt w => Sys2Proof.Machine.execPrmt w s
  | .lea w => Sys2Proof.Machine.execLea w s
  | .cmp w => Sys2Proof.Machine.execCmp w s
  | .sel w => Sys2Proof.Machine.execSel w s
  | .div w => Sys2Proof.Machine.execDiv w s
  | .rem w => Sys2Proof.Machine.execRem w s
  | .fadd w => Sys2Proof.Machine.execFadd w s
  | .fsub w => Sys2Proof.Machine.execFsub w s
  | .fmul w => Sys2Proof.Machine.execFmul w s
  | .ffma w => Sys2Proof.Machine.execFfma w s
  | .fmin w => Sys2Proof.Machine.execFmin w s
  | .fmax w => Sys2Proof.Machine.execFmax w s
  | .fcmp w => Sys2Proof.Machine.execFcmp w s
  | .fclass w => Sys2Proof.Machine.execFclass w s
  | .fscale w => Sys2Proof.Machine.execFscale w s
  | .frnd w => Sys2Proof.Machine.execFrnd w s
  | .frcp w => Sys2Proof.Machine.execFrcp w s
  | .frsq w => Sys2Proof.Machine.execFrsq w s
  | .fsqrt w => Sys2Proof.Machine.execFsqrt w s
  | .fdiv w => Sys2Proof.Machine.execFdiv w s
  | .fexp2 w => Sys2Proof.Machine.execFexp2 w s
  | .flog2 w => Sys2Proof.Machine.execFlog2 w s
  | .fsin w => Sys2Proof.Machine.execFsin w s
  | .fcos w => Sys2Proof.Machine.execFcos w s
  | .ftanh w => Sys2Proof.Machine.execFtanh w s
  | .fdot2 w => Sys2Proof.Machine.execFdot2 w s
  | .cvt w => Sys2Proof.Machine.execCvt w s
  | .pack w => Sys2Proof.Machine.execPack w s
  | .unpk w => Sys2Proof.Machine.execUnpk w s
  | .qenc w => Sys2Proof.Machine.execQenc w s
  | .qdec w => Sys2Proof.Machine.execQdec w s
  | .mov w => Sys2Proof.Machine.execMov w s
  | .movi w => Sys2Proof.Machine.execMovi w s
  | .movh w => Sys2Proof.Machine.execMovh w s
  | .rds w => Sys2Proof.Machine.execRds w s
  | .wrs w => Sys2Proof.Machine.execWrs w s
  | .shfl w => Sys2Proof.Machine.execShfl w s
  | .vote w => Sys2Proof.Machine.execVote w s
  | .redux w => Sys2Proof.Machine.execRedux w s
  | .matchLanes w => Sys2Proof.Machine.execMatchLanes w s
  | .v2s w => Sys2Proof.Machine.execV2s w s
  | .plop w => Sys2Proof.Machine.execPlop w s
  | .pmovGet w => Sys2Proof.Machine.execPmovGet w s
  | .pmovSet w => Sys2Proof.Machine.execPmovSet w s
  | .ld w => Sys2Proof.Machine.execLd w s
  | .st w => Sys2Proof.Machine.execSt w s
  | .ldnr w => Sys2Proof.Machine.execLdnr w s
  | .lda w => Sys2Proof.Machine.execLda w s
  | .stl w => Sys2Proof.Machine.execStl w s
  | .lds w => Sys2Proof.Machine.execLds w s
  | .sts w => Sys2Proof.Machine.execSts w s
  | .ldt w => Sys2Proof.Machine.execLdt w s
  | .stt w => Sys2Proof.Machine.execStt w s
  | .qst w => Sys2Proof.Machine.execQst w s
  | .atom w => Sys2Proof.Machine.execAtom w s
  | .red w => Sys2Proof.Machine.execRed w s
  | .atoms w => Sys2Proof.Machine.execAtoms w s
  | .fenceAcq w => Sys2Proof.Machine.execFenceAcq w s
  | .fenceRel w => Sys2Proof.Machine.execFenceRel w s
  | .fenceFull w => Sys2Proof.Machine.execFenceFull w s
  | .pref w => Sys2Proof.Machine.execPref w s
  | .pgreq w => Sys2Proof.Machine.execPgreq w s
  | .icfence w => Sys2Proof.Machine.execIcfence w s
  | .shape w => Sys2Proof.Machine.execShape w s
  | .swinit w => Sys2Proof.Machine.execSwinit w s
  | .swwait w => Sys2Proof.Machine.execSwwait w s
  | .seal w => Sys2Proof.Machine.execSeal w s
  | .waitb w => Sys2Proof.Machine.execWaitb w s
  | .jmpi w => Sys2Proof.Machine.execJmpi w s
  | .calli w => Sys2Proof.Machine.execCalli w s
  | .meetset w => Sys2Proof.Machine.execMeetset w s
  | .meetsetR w => Sys2Proof.Machine.execMeetsetR w s
  | .meetsetClr w => Sys2Proof.Machine.execMeetsetClr w s
  | .barArrive w => Sys2Proof.Machine.execBarArrive w s
  | .barWait w => Sys2Proof.Machine.execBarWait w s
  | .barSync w => Sys2Proof.Machine.execBarSync w s
  | .sbarArrive w => Sys2Proof.Machine.execSbarArrive w s
  | .sbarWait w => Sys2Proof.Machine.execSbarWait w s
  | .sbarSync w => Sys2Proof.Machine.execSbarSync w s
  | .watch w => Sys2Proof.Machine.execWatch w s
  | .watchClr w => Sys2Proof.Machine.execWatchClr w s
  | .wait w => Sys2Proof.Machine.execWait w s
  | .yield w => Sys2Proof.Machine.execYield w s
  | .sleep w => Sys2Proof.Machine.execSleep w s
  | .cbr w => Sys2Proof.Machine.execCbr w s
  | .cbsync w => Sys2Proof.Machine.execCbsync w s
  | .cbsyncAbort w => Sys2Proof.Machine.execCbsyncAbort w s
  | .gres w => Sys2Proof.Machine.execGres w s
  | .reca w => Sys2Proof.Machine.execReca w s
  | .recc w => Sys2Proof.Machine.execRecc w s
  | .recf w => Sys2Proof.Machine.execRecf w s
  | .launch w => Sys2Proof.Machine.execLaunch w s
  | .signal w => Sys2Proof.Machine.execSignal w s
  | .trap w => Sys2Proof.Machine.execTrap w s
  | .brk cls rest => Sys2Proof.Machine.execBrk cls rest s
  | .alloc w => Sys2Proof.Machine.execAlloc w s
  | .free w => Sys2Proof.Machine.execFree w s
  | .mma w => Sys2Proof.Machine.execMma w s
  | .acz w => Sys2Proof.Machine.execAcz w s
  | .acrd w => Sys2Proof.Machine.execAcrd w s
  | .acwr w => Sys2Proof.Machine.execAcwr w s
  | .acld w => Sys2Proof.Machine.execAcld w s
  | .acst w => Sys2Proof.Machine.execAcst w s
  | .cpy w => Sys2Proof.Machine.execCpy w s
  | .cpyg w => Sys2Proof.Machine.execCpyg w s
  | .cpys w => Sys2Proof.Machine.execCpys w s
  | .cpyt w => Sys2Proof.Machine.execCpyt w s
  | .walk w => Sys2Proof.Machine.execWalk w s
  | .crdc w => Sys2Proof.Machine.execCrdc w s
  | .calr w => Sys2Proof.Machine.execCalr w s
  | .crsc w => Sys2Proof.Machine.execCrsc w s
  | .calg w => Sys2Proof.Machine.execCalg w s
  | .cbcs w => Sys2Proof.Machine.execCbcs w s
  | .cbar w => Sys2Proof.Machine.execCbar w s
  | .eretDone w => Sys2Proof.Machine.execEretDone w s
  | .eretRetry w => Sys2Proof.Machine.execEretRetry w s
  | .rdcsr w => Sys2Proof.Machine.execRdcsr w s
  | .wrcsr w => Sys2Proof.Machine.execWrcsr w s
  | .tlbinvPage w => Sys2Proof.Machine.execTlbinvPage w s
  | .tlbinvPasid w => Sys2Proof.Machine.execTlbinvPasid w s
  | .tlbinvGpage w => Sys2Proof.Machine.execTlbinvGpage w s
  | .tlbinvIpa w => Sys2Proof.Machine.execTlbinvIpa w s
  | .tlbinvAll w => Sys2Proof.Machine.execTlbinvAll w s
  | .ctxswOut w => Sys2Proof.Machine.execCtxswOut w s
  | .ctxswIn w => Sys2Proof.Machine.execCtxswIn w s
  | .claim w => Sys2Proof.Machine.execClaim w s
  | .claimNode w => Sys2Proof.Machine.execClaimNode w s
  | .mcack w => Sys2Proof.Machine.execMcack w s
  | .halt w => Sys2Proof.Machine.execHalt w s
  | .clauseHeader team num => Sys2Proof.Machine.execClauseHeader team num s
  | .resultWriteback team tidx k => Sys2Proof.Machine.execResultWriteback team tidx k s
  | .storeAcknowledge id => Sys2Proof.Machine.execStoreAcknowledge id s
  | .spuriousWake team warp => Sys2Proof.Machine.execSpuriousWake team warp s
  | .spinDetect team num => Sys2Proof.Machine.execSpinDetect team num s
  | .sleepExpire team tidx => Sys2Proof.Machine.execSleepExpire team tidx s
  | .wtimer team warp => Sys2Proof.Machine.execWtimer team warp s
  | .parkScan part => Sys2Proof.Machine.execParkScan part s
  | .tumblerSwap part => Sys2Proof.Machine.execTumblerSwap part s
  | .checkpointWriteback team warp reg => Sys2Proof.Machine.execCheckpointWriteback team warp reg s
  | .teamRotateOut team => Sys2Proof.Machine.execTeamRotateOut team s
  | .bankSpill part bank => Sys2Proof.Machine.execBankSpill part bank s
  | .kRow id => Sys2Proof.Machine.execKRow id s
  | .copyTransfer id piece => Sys2Proof.Machine.execCopyTransfer id piece s
  | .walkHop id => Sys2Proof.Machine.execWalkHop id s
  | .teamStart launch index core part => Sys2Proof.Machine.execTeamStart launch index core part s
  | .teamRetire team => Sys2Proof.Machine.execTeamRetire team s
  | .workSteal die launch => Sys2Proof.Machine.execWorkSteal die launch s
  | .doserTimer launch node depth => Sys2Proof.Machine.execDoserTimer launch node depth s
  | .pageMigration part page => Sys2Proof.Machine.execPageMigration part page s
  | .interruptTimer q v => Sys2Proof.Machine.execInterruptTimer q v s
  | .packetAging q => Sys2Proof.Machine.execPacketAging q s
  | .doorbell q tail => Sys2Proof.Machine.execDoorbell q tail s
  | .nopPacket q => Sys2Proof.Machine.execNopPacket q s
  | .launchPacket q => Sys2Proof.Machine.execLaunchPacket q s
  | .graphPacket q => Sys2Proof.Machine.execGraphPacket q s
  | .waitPacket q => Sys2Proof.Machine.execWaitPacket q s
  | .waitPacketSatisfied q => Sys2Proof.Machine.execWaitPacketSatisfied q s
  | .signalPacket q => Sys2Proof.Machine.execSignalPacket q s
  | .fetchFence q => Sys2Proof.Machine.execFetchFence q s
  | .ctxcmdCreate ctx => Sys2Proof.Machine.execCtxcmdCreate ctx s
  | .ctxcmdRevoke ctx => Sys2Proof.Machine.execCtxcmdRevoke ctx s
  | .ctxcmdUpdate ctx => Sys2Proof.Machine.execCtxcmdUpdate ctx s
  | .invreq v => Sys2Proof.Machine.execInvreq v s
  | .pdctlSupply part pasid s2 => Sys2Proof.Machine.execPdctlSupply part pasid s2 s
  | .pdctlFail part pasid s2 => Sys2Proof.Machine.execPdctlFail part pasid s2 s
  | .poolbaseWrite part v => Sys2Proof.Machine.execPoolbaseWrite part v s
  | .poolsizeWrite part v => Sys2Proof.Machine.execPoolsizeWrite part v s
  | .fqheadWrite part v => Sys2Proof.Machine.execFqheadWrite part v s
  | .interfaceEnable q => Sys2Proof.Machine.execInterfaceEnable q s
  | .interfaceDisable q => Sys2Proof.Machine.execInterfaceDisable q s
  | .errClear q => Sys2Proof.Machine.execErrClear q s
  | .commcmdOpen slot => Sys2Proof.Machine.execCommcmdOpen slot s
  | .commcmdClose slot => Sys2Proof.Machine.execCommcmdClose slot s
  | .openTimeout slot => Sys2Proof.Machine.execOpenTimeout slot s
  | .timeSync => Sys2Proof.Machine.execTimeSync s
  | .mreset => Sys2Proof.Machine.execMreset s
  | .mcBankClear pcn bank => Sys2Proof.Machine.execMcBankClear pcn bank s
  | .registerWrite bar off v => Sys2Proof.Machine.execRegisterWrite bar off v s
  | .cxlMemRead pa len => Sys2Proof.Machine.execCxlMemRead pa len s
  | .cxlMemWrite pa bytes => Sys2Proof.Machine.execCxlMemWrite pa bytes s
  | .atsInvalidation pasid page => Sys2Proof.Machine.execAtsInvalidation pasid page s
  | .getVersion via => Sys2Proof.Machine.execGetVersion via s
  | .getCapabilities via => Sys2Proof.Machine.execGetCapabilities via s
  | .negotiateAlgorithms via => Sys2Proof.Machine.execNegotiateAlgorithms via s
  | .getDigests via => Sys2Proof.Machine.execGetDigests via s
  | .getCertificate via offset len => Sys2Proof.Machine.execGetCertificate via offset len s
  | .challenge via nonce => Sys2Proof.Machine.execChallenge via nonce s
  | .getMeasurements via index => Sys2Proof.Machine.execGetMeasurements via index s
  | .mctpControl via cmd => Sys2Proof.Machine.execMctpControl via cmd s
  | .pldmRequest via sensor => Sys2Proof.Machine.execPldmRequest via sensor s
  | .mreq chip tag op => Sys2Proof.Machine.execMreq chip tag op s
  | .mrsp tag data bad => Sys2Proof.Machine.execMrsp tag data bad s
  | .join ftag chip => Sys2Proof.Machine.execJoin ftag chip s
  | .notopen ftag which => Sys2Proof.Machine.execNotopen ftag which s
  | .joinAck ftag => Sys2Proof.Machine.execJoinAck ftag s
  | .joinRetry ftag => Sys2Proof.Machine.execJoinRetry ftag s
  | .contribution ftag seq lo hi any value partialRanks => Sys2Proof.Machine.execContribution ftag seq lo hi any value partialRanks s
  | .abortMessage ftag seq => Sys2Proof.Machine.execAbortMessage ftag seq s
  | .decision ftag seq outcome partialRanks => Sys2Proof.Machine.execDecision ftag seq outcome partialRanks s
  | .collectiveChunk slot k chunk remote => Sys2Proof.Machine.execCollectiveChunk slot k chunk remote s
  | .chunkAging slot k => Sys2Proof.Machine.execChunkAging slot k s
  | .linkLoss chips => Sys2Proof.Machine.execLinkLoss chips s
  | .linkRetry port => Sys2Proof.Machine.execLinkRetry port s
  | .thermalPoll sensor celsius => Sys2Proof.Machine.execThermalPoll sensor celsius s
  | .powerLimit watts => Sys2Proof.Machine.execPowerLimit watts s
  | .watchdog core missed => Sys2Proof.Machine.execWatchdog core missed s
  | .patrolScrub pa uncorrectable => Sys2Proof.Machine.execPatrolScrub pa uncorrectable s
  | .machineCheck core unit syndrome paddr uc => Sys2Proof.Machine.execMachineCheck core unit syndrome paddr uc s
  | .bringUp boot => Sys2Proof.Machine.execBringUp boot s
  | .moduleReset => Sys2Proof.Machine.execModuleReset s
  | .watchRegistration team warp => Sys2Proof.Machine.execWatchRegistration team warp s
  | .cbarMessage slot k rank sig => Sys2Proof.Machine.execCbarMessage slot k rank sig s

end Sys2Proof.Machine
end

