-- ==== Sys2Proof/Machine/Sched.lean ====
section
/-! DEFINITION. Which step comes next, and what the steps do that are no row of the opcode table: the passing of time, the
choice of a group and of a partition's turn (R36, R203), the merging of groups (R205), the eviction of copies (R154, R169,
R272), reading ahead (R225), the refused pages of an activity (R276), and what the host does beside its writes of registers
(R171, R264, R280). -/

namespace Sys2Proof.Machine

open Sys2Proof

/-! ### Refused pages (R276) -/

/-- The pages refused to some threads are refused to what they do now. -/
def State.denying (s : State) (t : Nat) (is : List Nat) : State :=
  { s with deny := (s.thread t (is.headD 0)).deny, hit := false }
/-- Where a thread stands, apart from what is refused to it. -/
def Thread.spot (x : Thread) : DWord × Option (DWord × Nat) × Nat := (x.pc, x.mid.map (fun m => (m.1.addr, m.2)), x.level)
/-- Nothing is refused any more to a thread that has left its place. -/
def State.undeny (old : State) (t : Nat) (is : List Nat) (s : State) : State :=
  let clear := fun (s : State) (i : Nat) =>
    if (s.thread t i).deny.isEmpty || (s.thread t i).spot == (old.thread t i).spot then s
    else s.modThread t i fun x => { x with deny := [] }
  { is.foldl clear s with deny := [], hit := false }
/-- The next state of an outcome, changed. -/
def mapNext (f : State → State) : Host.Outcome State Fault Refusal → Host.Outcome State Fault Refusal
  | .next s => .next (f s)
  | .fault r => .fault r
  | .refused r => .refused r

/-! ### The current word -/

/-- A word that decodes to nothing: a breakpoint comparator comes first, then the emulation handler (R57, R312). -/
def State.unknownWord (s : State) (k : Iss) (w : DWord) : State :=
  let c := Common.ofWord w
  let s := s.settleGuard k c
  let cmp := if breaks k.clause.brk k.pc then k.threads.filter fun j => (s.thread k.team j).noBreak != some k.pc else []
  match cmp with
  | _ :: _ => s.raiseAt k (k.report (s.exec1 k c) (cmp.map fun j => (j, { code := fBreak, addr := k.pc.toNat })))
  | [] => if s.guardOpen k c then s.leave k else s.emulate k w none k.threads
/-- What stands at a position of a clause. -/
def Clause.instr (c : Clause) (pos : Nat) : Except NotInstr Instr := lookup c.hdr.cls.toNat (c.word pos)
/-- Run the word that an issue stands at: the instruction that it decodes to. Where a return has left it at a last word that
decodes to nothing, the word is over (R302). -/
def State.runWord (s : State) (k : Iss) : Host.Outcome State Fault Refusal :=
  let r := s.denying k.team k.threads
  let w := k.clause.word k.pos
  mapNext (s.undeny k.team k.threads) (match k.clause.instr k.pos with
    | .ok i => exec i r
    | .error _ => .next (if r.over_ k then r.resume k (Common.ofWord w) goOn else r.unknownWord k w))

/-! ### Steps that are no row of the table -/

/-- Time passes; a core that holds a ready resident warp holds it until now (R224), and a partition that has no group ready to
issue has none until now (R315). -/
def State.elapse (s : State) (ns : Nat) : State :=
  let now := s.clk + ns
  let live := (s.groups.filter s.ready).map fun g => ((s.team g.team).core, (s.team g.team).part)
  let core := fun (c : Nat) (x : Core) =>
    { x with readyAt := if s.busyCore c then now else x.readyAt,
             issuedAt := x.issuedAt.mapIdx fun p v => if live.contains (c, p) then v else now }
  { s with cores := s.cores.mapIdx core, clk := now }
/-- Two groups of a team at one clause header, with no home lane in common, become one (R205), to which no detector is attached
(R218); in handler mode only those of one trap instance, which is of one home warp (R300). -/
def State.mergeGroups (s : State) (t a b : Nat) : State :=
  let m := s.team t
  match s.group t a, s.group t b with
  | some g, some h =>
    let x := s.thread t (g.threads.headD 0)
    let y := s.thread t (h.threads.headD 0)
    let apart := g.threads.all fun i => h.threads.all fun j => m.hlane i != m.hlane j
    let one := x.level == 0 || (g.threads ++ h.threads).all fun i => m.warpOf i == m.warpOf (g.threads.headD 0)
    if a ≠ b ∧ ¬ g.parked ∧ ¬ h.parked ∧ x.mid.isNone ∧ x.place = y.place ∧ apart ∧ one then
      let is := nsort (g.threads ++ h.threads)
      let s := (s.modSpin t a fun _ => none).modSpin t b fun _ => none
      { s with groups := (s.groups.filter fun e => !(e.team == t && e.num == b)).map fun e =>
          if e.team = t ∧ e.num = a then { e with threads := is, issued := max g.issued h.issued } else e }
    else s
  | _, _ => s
/-- The turn goes to a partition; a word that stands there runs. -/
def State.issueAt (s : State) (core part : Nat) : Host.Outcome State Fault Refusal :=
  let s := { s with turn := (core, part) }
  match s.iss with
  | some k => if (s.core core).halted then .next s else s.runWord k
  | none => .next s
/-- Take a step. A word of the opcode table runs only where it stands in memory. -/
def State.move (s : State) (m : Move) : Host.Outcome State Fault Refusal :=
  match m with
  | .event (.clauseHeader t n) =>
    let is := match s.group t n with | some g => g.threads | none => []
    mapNext (s.undeny t is) (exec (.clauseHeader t n) (s.denying t is))
  | .event i => if (encode i).isSome then .next s else exec i s
  | .issue c p => s.issueAt c p
  | .resume t n =>
    let is := match s.group t n with | some g => g.threads | none => []
    .next (s.undeny t is ((s.denying t is).resumeGroup t n))
  | .merge t a b => .next (s.mergeGroups t a b)
  | .elapse ns => .next (s.elapse ns)
  | .evict c line => .next (s.evictLine c line)
  | .codeEvict c line => .next (s.modCore c fun x => { x with icache := x.icache.filter fun e => e.1 / 128 != line })
  | .tlbEvict c page => .next (s.modCore c fun x => { x with tlb := x.tlb.filter fun e => e.page != page })
  | .l2Evict d page => .next { s with l2tlb := s.l2tlb.modify d fun l => l.filter fun e => e.page != page }
  | .readAhead q => .next (s.readAhead q)
  | .hostRead bar off => .next (s.readRegister bar off)
  | .hostWrite pasid a bytes => .next (s.hostPut pasid a bytes)
  | .hostMap pasid page ok => .next (s.hostMap pasid page ok)
  | .configRead off => .next (s.configRead off)
  | .configWrite off _ => .next (s.emit (.configDone off))

/-! ### The order that is taken where the agenda names none (R36 leaves it open)

First what is under way inside the machine, then the words and clauses of the threads, then time. A step is taken only
where it changes something. -/

/-- Live teams of the machine. -/
def State.liveTeams (s : State) : List Nat :=
  (List.range s.teams.length).filter fun t => (s.team t).started && !(s.team t).retired
/-- Results, stores, watches, sleeps and barriers of teams. -/
def State.threadMoves (s : State) : List Move :=
  s.liveTeams.flatMap (fun t =>
    ((List.range (s.team t).threads.length).flatMap fun i =>
      ((s.thread t i).open_.map fun p => Move.event (.resultWriteback t i p.key)) ++
      (match (s.thread t i).wait with | .sleep _ => [Move.event (.sleepExpire t i)] | _ => [])) ++
    ((List.range (s.team t).nWarps).filter fun w => !(s.warp t w).unreg.isEmpty).map fun w => Move.event (.watchRegistration t w)) ++
  s.stores.map fun x => Move.event (.storeAcknowledge x.id)
/-- Commands of the engines and the sequencers. Chunks of a communicator that spans chips come with the other chips' data. -/
def State.engineMoves (s : State) : List Move :=
  (s.cmds.filterMap fun c => match c.op with
    | .walk _ _ _ _ => some (Move.event (.walkHop c.id))
    | .coll slot k _ => if (s.comm slot).all fun x => x.map.all fun e => e.2 == s.mgmt.chip
        then some (Move.event (.collectiveChunk slot k (c.todo.headD 0) [])) else none
    | _ => some (Move.event (.copyTransfer c.id (c.todo.headD 0)))) ++
  (s.cores.flatMap fun x => x.seq.flatMap fun l => l.map fun q => Move.event (.kRow q.id)) ++
  ((s.merges.filter fun m => m.mig).map fun m => Move.event (.pageMigration m.key.part m.key.page)).eraseDups
/-- Packets of a queue. -/
def State.queueMoves (s : State) (q : Nat) : List Move :=
  let x := s.iface q
  (match s.head q with
   | .none => []
   | .fault => [Move.event (.nopPacket q)]
   | .packet ws => match pType ws with
     | 1 => [.event (.launchPacket q)]
     | 2 => [.event (.graphPacket q)]
     | 3 => [.event (.waitPacket q)]
     | 4 => [.event (.signalPacket q)]
     | 5 => [.event (.fetchFence q)]
     | _ => [.event (.nopPacket q)]) ++
  (if x.blocked then [.event (.waitPacketSatisfied q)] else []) ++ [.event (.packetAging q)] ++
  ((List.range 4).filter fun v => (x.starts.getD v none).isSome).map fun v => Move.event (.interruptTimer q v)
/-- A core and a partition for each core: where the fewest teams stand. -/
def State.places (s : State) (cores : List Nat) : List (Nat × Nat) :=
  let load := fun (e : Nat × Nat) =>
    (s.liveTeams.filter fun t => (s.team t).core == e.1 && (s.team t).part == e.2).length
  ((isort (fun (a b : Nat × Nat) => decide (load a ≤ load b)) (cores.flatMap fun c => (List.range 4).map fun p => (c, p)))).take 1
/-- Teams that may start: of claimed spans and nodes, then of the next span of each die; a die with none among its next 64 spans
moves its ticket on. -/
def State.startMoves (s : State) (l : Nat) : List Move :=
  let x := s.launch l
  let part := (s.ctx x.ctx).part
  let starts := fun (i : Nat) (cs : List Nat) => (s.places cs).map fun e => Move.event (.teamStart l i e.1 e.2)
  let near := fun (c : Nat) => ((List.range 8).map (c / 8 * 8 + ·)).filter fun i => s.usable part i
  let onDie := fun (die : Nat) => ((List.range 48).map (48 * die + ·)).filter fun i => s.usable part i
  if x.done then []
  else
    let old := (s.pendingStarts l).flatMap fun e => starts e.1 (near e.2)
    let new := match x.graph with
      | some g =>
        starts 0 (onDie (Config.graphDie (s.graph g).qbase % 4))
      | none => (List.range 4).flatMap fun die => match s.ticketLoc l with
        | (s, .ok line) =>
          let ticket := leValue (s.homeBytes (line.add (8 * die)) 8).2
          (match (x.claimStep die ticket).2 with
           | some k => (match s.someCore l (some (k, die)) with
             | some c => starts (k * x.spanLen) (near c)
             | none => [])
           | none => if ticket < x.nspan then starts (ticket * x.spanLen) (onDie die) else [])
        | _ => starts 0 (onDie die)
    let late := match x.graph with
      | some g => ((s.graph g).slots.map fun e => Move.event (.doserTimer l e.1.node e.1.level)).eraseDups
      | none => []
    old ++ new ++ late ++ (List.range 4).map fun die => Move.event (.workSteal die l)
/-- Parts of cores where teams live. -/
def State.livePlaces (s : State) : List (Nat × Nat) :=
  (s.liveTeams.map fun t => ((s.team t).core, (s.team t).part)).eraseDups
/-- Swaps of the tumbler and the formation tables; an exchange of groups waits until one has been parked for 1,024
clauses. -/
def State.tumblerMoves (s : State) : List Move :=
  s.livePlaces.flatMap (fun e =>
    let n := 4 * e.1 + e.2
    let late := (s.groupsOf e.1 e.2).any fun g => g.parked && (decide (s.tableSize e.1 e.2 < 64) || decide (g.parkedAt + 1024 ≤ s.issueNo))
    let banks := (s.liveTeams.filter fun t => (s.team t).core == e.1 && (s.team t).part == e.2).flatMap fun t =>
      ((s.team t).threads.flatMap fun x => match x.wait with
        | .alloc b k => range b k
        | _ => []) ++
      ((s.team t).latches.filter fun l => s.latchFull l && l.bad.isNone).flatMap fun l => range (bits l.word.toNat 7 4) 4
    Move.event (.tumblerSwap n) :: (if late then [Move.event (.parkScan n)] else []) ++
      (banks.eraseDups).map fun b => Move.event (.bankSpill n b)) ++
  s.liveTeams.flatMap fun t => [Move.event (.teamRotateOut t), Move.event (.teamRetire t)]
/-- When a group's threads last issued: the one that has waited longest counts (R203). -/
def State.lastIssue (s : State) (g : Group) : Nat :=
  let l := g.threads.map fun i => (s.thread g.team i).issued
  l.foldl min (l.headD 0)
/-- Groups that may start or go on, the one with the thread that has waited longest first (R203). -/
def State.groupMoves (s : State) : List Move :=
  (isort (fun (a b : Group) => decide (s.lastIssue a ≤ s.lastIssue b)) s.groups).map fun g =>
    if (s.thread g.team (g.threads.headD 0)).mid.isNone then Move.event (.clauseHeader g.team g.num) else .resume g.team g.num
/-- Hot cores whose agents have stopped a team that now stands still: they move it (R309). -/
def State.heatMoves (s : State) : List Move :=
  (List.range s.cores.length).flatMap fun c =>
    if s.mgmt.hotAt < (s.core c).heat ∧ (s.movable c).any fun t => (s.team t).stop && !s.notStopped t
    then [.event (.thermalPoll c (s.core c).heat)] else []
/-- Words that stand in partitions whose turn it is not. -/
def State.turnMoves (s : State) : List Move :=
  s.livePlaces.filterMap fun e =>
    if ((s.core e.1).issue.getD e.2 none).isSome ∧ s.turn ≠ e then some (.issue e.1 e.2) else none

/-- Interfaces, the one of the highest priority first (R282). -/
def State.queues (s : State) : List Nat :=
  isort (fun (a b : Nat) => decide (s.priority b ≤ s.priority a)) (List.range s.ifaces.length)
/-- The steps that may come next, in order. -/
def State.candidates (s : State) : List Move :=
  s.threadMoves ++ s.engineMoves ++ s.queues.flatMap s.queueMoves ++ (List.range s.launches.length).flatMap s.startMoves ++
  s.tumblerMoves ++ s.heatMoves ++ s.turnMoves ++ s.groupMoves
/-- Whether a step changes the state. -/
def State.changes (s : State) (m : Move) : Bool :=
  match s.move m with
  | .next s' => decide (s' ≠ s)
  | _ => true
/-- The next step. A clause takes at least a nanosecond; with nothing to do, time passes. -/
def State.choose (s : State) : Move :=
  if s.clk < s.issueNo then .elapse (s.issueNo - s.clk)
  else (s.candidates.find? s.changes).getD (.elapse 100)

/-- What comes next: the agenda's head; with none, the current word; with no word standing, the order above. -/
def State.advanceOne (s : State) : Host.Outcome State Fault Refusal :=
  match s.agenda with
  | m :: r => ({ s with agenda := r } : State).move m
  | [] => match s.iss with
    | some k => s.runWord k
    | none => s.move s.choose

/-! ### A machine about to run one word -/

/-- A clause of one word, and as many more as the word looks ahead or skips. -/
def clauseFor (cls : Nat) (w : DWord) : Clause :=
  let c := Common.ofWord w
  let n := c.look.toNat + (if c.nas = 5 then 1 else 0)
  { addr := 0x10000, header := BitVec.ofNat 64 (cls * 2 ^ 60 + n % 16 * 2 ^ 56),
    words := w :: List.replicate (n % 16) 0, brk := [0, 0, 0, 0] }
/-- The clause that a table word stands in: up to 64 bits, a word of a GEN clause; above, bits 63:0 are the header. -/
def tableClause (nbits w : Nat) : Clause :=
  let w := w % 2 ^ nbits
  if nbits ≤ 64 then clauseFor 0 (BitVec.ofNat 64 w)
  else
    let h := BitVec.ofNat 64 w
    { addr := 0x10000, header := h,
      words := (List.range ((Header.ofWord h).cnt.toNat + 1)).map (fun j => BitVec.ofNat 64 (w / 2 ^ (64 * (j + 1)))),
      brk := [0, 0, 0, 0] }
/-- A team of one home warp of width 32 and one thread at the first word of a clause; an agent's in a SYS clause. -/
def teamAt (core part ctx : Nat) (c : Clause) : Team :=
  let th := Thread.start c.addr 192 0 none
  { ctx, launch := 0, node := none, agent := c.hdr.cls == 3, x := 0, y := 0, z := 0, span := 0, rank := 0, spanSize := 1,
    ntid := 1, width := 32, vregs := 24, scratch := 64, reslim := 0, code := c.addr, lcid := core, core, part, nrec := 0,
    recbase := 0, save := 0, visible := 0, pad := [], padIn := true, late := [], bars := List.replicate 16 (BarRec.start false 1),
    spanCnt := List.replicate 16 0, latches := [], threads := [{ th with mid := some (c, 0) }],
    warps := [{ Warp.start [] 0 with resident := true }], nextGroup := 1, started := true, retired := false, stop := false }
/-- The translation of the page that the clause stands in, which may be read, written and fetched. -/
def tlbAt (part pasid : Nat) : Tlb :=
  { part, pasid, page := 1, glob := false, w := true, x := true, p := false, w1 := true, x1 := true, p1 := false, fmt := 0, geom := 0, kind := 0, frame := 1,
    ipa := 1, dirty := true, s1pte := .mem 0, s2pte := .mem 0, s1bits := 16, s2bits := 16 }
/-- The bytes of a clause. -/
def Clause.bytes (c : Clause) : List Byte := leBytes 8 c.header.toNat ++ c.words.flatMap fun w => leBytes 8 w.toNat
/-- The state with a clause at its current word: the word of the current issue, or of a team put there with the page of
its clause. -/
def State.placeWord (s : State) (c : Clause) : State :=
  match s.iss with
  | some k => { k.threads.foldl (fun (s : State) (i : Nat) =>
      s.modThread k.team i fun x => { x with mid := some (c, 0), released := false }) s with agenda := [] }
  | none =>
    let (core, part) := (if s.turn.1 < s.cores.length ∧ s.turn.2 < 4 then s.turn else (0, 0))
    let t := s.teams.length
    let g : Group := { team := t, num := 0, threads := [0], parked := false, issued := 0, parkedAt := 0 }
    let s := { s with turn := (core, part), agenda := [], teams := s.teams ++ [teamAt core part 0 c],
                      groups := s.groups ++ [g], mem := s.mem.writeN 0x10000 c.bytes }
    let page := tlbAt (s.ctx 0).part (s.ctx 0).pasid
    let s := s.modCore core fun x =>
      { x with issue := x.issue.set part (some (t, 0)), halted := false, tlb := page :: x.tlb }
    s.modCtx 0 fun x => { x with valid := true, failed := none }

end Sys2Proof.Machine
end

