-- ==== Sys2Proof/Machine/Step.lean ====
section
/-! DEFINITION. The step, and a machine about to run one given instruction. -/

namespace Sys2Proof.Machine

open Sys2Proof

/-- One step of the machine. -/
def step (s : State) : Host.Outcome State Fault Refusal := s.advanceOne

/-- A machine whose next step runs one instruction, given as decodeTableWord takes it. A program comes to run from
State.reset only through a launch from outside (log entry 12); this stands for that launch and for the fetch of the
clause. -/
def State.withFetchWord (s : State) (nbits w : Nat) : State := s.placeWord (tableClause nbits w)

end Sys2Proof.Machine
end

