-- ==== Sys2Proof/Safety.lean ====
section
/-! DEFINITION. The terms that statements about the machine are made in: what counts as a safe state, when a word stands
at the current issue with its tests passed, and how its step ends. -/

namespace Sys2Proof.Machine

open Sys2Proof

/-- No context has failed and no core is halted by a machine check (R307, R313). -/
def State.safe (s : State) : Bool :=
  s.mem.wf && s.ctxs.all (fun c => c.failed.isNone) && s.cores.all fun c => !c.halted

/-- Memory in its canonical form: device memory and every team's scratchpad. -/
def State.memOk (s : State) : Prop := s.mem.wf = true ∧ ∀ m ∈ s.teams, m.pad.wf = true

/-! ### A word at the current issue -/

/-- The state with the results written that the word's guard waits for (R51). -/
def State.guarded (s : State) (k : Iss) (c : Common) : State := s.settleGuard k c
/-- The threads that execute the word (R38). -/
def State.runs (s : State) (k : Iss) (c : Common) : List Nat := (s.guarded k c).exec1 k c
/-- The state in which the word takes its effect: the results that it waits for are written (R51, R52), and the watches
of its home warps are registered (R237). -/
def State.settled (s : State) (k : Iss) (i : Instr) (c : Common) : State :=
  let s' := (s.guarded k c).settleFor k i c (s.runs k c)
  s'.registerWatches k.team (s'.warpsOf k.team k.threads)
/-- What follows a word's effect: a spin detector notes the word (R218), and its threads leave it by its selector
(R46). -/
def State.after (s : State) (k : Iss) (i : Instr) (c : Common) (ex : List Nat) (j : Jump) : State :=
  (s.spinWord k i c ex).finish k c ex j

/-- Instruction `i` stands at the current issue `k` and none of the tests of R57 turns it away: no comparator matches,
it is an instruction here, or an MMA of which every home warp arrives at a latch, which tests it later (R146), no thread lacks
the right to it, an instruction touches no result of a lookahead window, every result it waits for has come, and it does not close a
speculation window. -/
structure Stands (s : State) (k : Iss) (i : Instr) (c : Common) : Prop where
  issue   : s.iss = some k
  first   : (s.thread k.team (k.threads.headD 0)).released = false
  noBreak : breaks k.clause.brk k.pc = true →
    ∀ j ∈ k.threads, ((s.guarded k c).thread k.team j).noBreak = some k.pc
  guard   : (s.guarded k c).guardOpen k c = false
  valid   : (s.guarded k c).notInstr k i c = false ∨
    (isMma i = true ∧ (s.guarded k c).notInstrFor k i c (s.runs k c) = [])
  rights  : ∀ j ∈ s.runs k c, (s.guarded k c).privFault k.team j i = false
  look    : (s.guarded k c).notInstr k i c = false → ∀ j ∈ s.runs k c, ∀ p ∈ ((s.guarded k c).thread k.team j).pend,
    ¬ (p.clause = k.clause.addr ∧ k.pos ≤ p.last ∧
      touches i ((s.guarded k c).usesOf k.team (((s.guarded k c).team k.team).warpOf j) i) p = true)
  results : ((s.guarded k c).settleFor k i c (s.runs k c)).waitsFor k i c (s.runs k c) = false
  window  : (inWindow i = true ∧ ¬ (c.nas = 7 ∧ k.clause.last k.pos = true)) ∨
    (s.settled k i c).speculating k.team (s.runs k c) = []

/-! ### How a word completes -/

/-- Wherever word `i` stands, `exec` answers the next state in which its effect `f` is done and its executing threads have
left it by their selector. -/
def Completes (i : Instr) (c : Common) (f : State → Iss → List Nat → State) : Prop :=
  ∀ (s : State) (k : Iss), Stands s k i c →
    exec i s = .next ((f (s.settled k i c) k (s.runs k c)).after k i c (s.runs k c) {})
/-- As `Completes`, wherever the settled state, the issue and the executing threads meet `ok` too. -/
def CompletesIf (i : Instr) (c : Common) (ok : State → Iss → List Nat → Prop) (f : State → Iss → List Nat → State) : Prop :=
  ∀ (s : State) (k : Iss), Stands s k i c → ok (s.settled k i c) k (s.runs k c) →
    exec i s = .next ((f (s.settled k i c) k (s.runs k c)).after k i c (s.runs k c) {})
/-- Every lane passes its probe (R173 to R175). -/
def AllPass {α : Type} (ps : List (Nat × Except Probe α)) : Prop := ∀ e ∈ ps, ∃ a, e.2 = .ok a
/-- Wherever word `i` stands, each executing thread's value of `n` registers is written through DST (R101, R41). -/
def GivesValue (i : Instr) (c : Common) (dst : BitVec 8) (n : Nat) (f : State → Nat → Nat → Nat) : Prop :=
  Completes i c fun s k ex => s.putAll k.team dst n (ex.map fun t => (t, f s k.team t))
/-- As `GivesValue`, and each executing thread's condition goes to a predicate. -/
def GivesValueAndPredicate (i : Instr) (c : Common) (dst : BitVec 8) (n : Nat) (pd : BitVec 3)
    (f : State → Nat → Nat → Nat) (g : State → Nat → Nat → Bool) : Prop :=
  Completes i c fun s k ex => ex.foldl (fun (s' : State) (t : Nat) => s'.putPred k.team t pd (g s k.team t))
    (s.putAll k.team dst n (ex.map fun t => (t, f s k.team t)))
/-- Wherever word `i` stands, each executing thread is issued a result of `n` registers that is written later (R50 to
R52); a scalar's is one for each home warp (R41). -/
def IssuesValue (i : Instr) (c : Common) (dst : BitVec 8) (n : Nat) (f : State → Nat → Nat → Nat) : Prop :=
  Completes i c fun s k ex => s.issueResults k c dst n
    ((s.scalarAgree k.team dst (ex.map fun t => (t, f s k.team t))).map fun e => (e.1, some e.2, none))

/-- Every home warp's tests let a matrix command act (R129, R137, R144). -/
def AllReady (ms : List (Nat × Mtx)) : Prop := ∀ e ∈ ms, ∃ d, e.2 = .ready d
/-- As `CompletesIf`, for a SYS word: it issues once the earlier results of its executing threads are written (R317). -/
def SysCompletes (i : Instr) (c : Common) (ok : State → Iss → List Nat → Prop) (f : State → Iss → List Nat → State) : Prop :=
  CompletesIf i c
    (fun s k ex => (∀ j ∈ ex, ((s.settleAll k.team ex).thread k.team j).open_ = []) ∧ ok (s.settleAll k.team ex) k ex)
    fun s k ex => f (s.settleAll k.team ex) k ex

/-! ### What a word leaves as it was -/

/-- What a word writes into registers and predicates when it executes. A long-latency word writes none of them then (R50);
it counts its token (R52). -/
structure Writes where
  c     : Common
  dst   : BitVec 8
  regs  : Nat
  preds : List (BitVec 3)
  long  : Bool := false
/-- What the element-wise words, moves and lane instructions write (R101 to R127); none for words of other families, for
WRS, and for a read of MPROG, which runs products (R142). -/
def valueWrites : Instr → Option Writes
  | .add w | .sub w | .mul w | .mad w | .neg w | .abs w | .min w | .max w | .mulh w | .and w | .or w | .xor w | .andn w
  | .not w | .sel w | .shl w | .shr w | .sar w | .rotl w | .fshf w | .brev w | .bfx w | .bfi w | .fadd w | .fsub w
  | .fmul w | .ffma w | .fmin w | .fmax w | .fscale w | .frnd w | .cvt w | .qdec w | .mov w =>
    some { c := w.c, dst := w.dst, regs := tyRegs w.ty, preds := [] }
  | .rds w => if w.sc = 0x12 then none else some { c := w.c, dst := w.dst, regs := tyRegs w.ty, preds := [] }
  | .madw w | .lea w | .unpk w => some { c := w.c, dst := w.dst, regs := 2, preds := [] }
  | .popc w | .clz w | .ctz w | .prmt w | .fclass w | .fdot2 w | .pack w | .qenc w | .pmovGet w =>
    some { c := w.c, dst := w.dst, regs := 1, preds := [] }
  | .addc w | .subb w => some { c := w.c, dst := w.dst, regs := tyRegs w.ty, preds := [w.sc.extractLsb' 4 3] }
  | .cmp w | .fcmp w => some { c := w.c, dst := w.dst, regs := 1, preds := [w.sc.extractLsb' 0 3] }
  | .plop w => some { c := w.c, dst := 0xF0, regs := 0, preds := [w.dst.extractLsb' 0 3] }
  | .pmovSet w => some { c := w.c, dst := 0xF0, regs := 0,
                         preds := ((List.range 7).filter fun j => w.sc.getLsbD j).map fun j => BitVec.ofNat 3 j }
  | .movi v => some { c := v.c, dst := v.dst, regs := 1, preds := [] }
  | .movh v => some { c := v.c, dst := v.dst, regs := 2, preds := [] }
  | .shfl w => some { c := w.c, dst := w.dst, regs := tyRegs w.ty, preds := [w.ctl42] }
  | .vote w => some { c := w.c, dst := w.dst, regs := 1, preds := if w.ctl10 = 3 then [] else [w.sc64] }
  | .frcp w | .frsq w | .fsqrt w | .fexp2 w | .flog2 w | .fsin w | .fcos w | .ftanh w | .redux w | .matchLanes w | .v2s w =>
    some { c := w.c, dst := 0xF0, regs := 0, preds := [], long := true }
  | _ => none
/-- Every byte but those named keeps its value: of device memory as an engine of any core sees it, of host memory and of
every scratchpad. -/
def BytesKept (s t : State) (named : Loc → Prop) : Prop :=
  (∀ c a, ¬ named (.mem a) → t.engineByte c a = s.engineByte c a) ∧
  (∀ p a, ¬ named (.host p a) → t.hostRead p a = s.hostRead p a) ∧
  ∀ u o, ¬ named (.pad u o) → t.padByte u o = s.padByte u o
/-- The place `l` lies in `n` bytes from `m`. -/
def Within (m : Loc) (n : Nat) (l : Loc) : Prop := ∃ d, d < n ∧ m.add d = l
/-- A team's registers, predicates, windows and warp registers keep their values, but for the token counts (R13, R17). -/
def RegistersKept (s t : State) (u : Nat) : Prop :=
  (∀ j, (t.thread u j).v = (s.thread u j).v ∧ (t.thread u j).p = (s.thread u j).p ∧ (t.thread u j).ew = (s.thread u j).ew ∧
    (t.thread u j).pc = (s.thread u j).pc ∧ (t.thread u j).level = (s.thread u j).level ∧
    (t.thread u j).banks = (s.thread u j).banks) ∧
  ∀ h, { (t.warp u h).regs with tok := [] } = { (s.warp u h).regs with tok := [] }

/-! ### Integers and bits as the manual writes them (R83, R104) -/

/-- An integer reduced modulo 2^n to the range of a TYPE. -/
def wrapInt (ty : BitVec 4) (x : Int) : Int :=
  let n := tyBits ty
  if tySigned ty then (x + 2 ^ (n - 1)) % 2 ^ n - 2 ^ (n - 1) else x % 2 ^ n
/-- An integer clamped to the range of a TYPE. -/
def clampInt (ty : BitVec 4) (x : Int) : Int :=
  let n := tyBits ty
  if tySigned ty then max (-(2 ^ (n - 1))) (min (2 ^ (n - 1) - 1) x) else max 0 (min (2 ^ n - 1) x)
/-- The register bits of an integer result: reduced or clamped, then sign-extended or zero-extended. -/
def intResult (ty : BitVec 4) (sat : Bool) (x : Int) : Nat :=
  ibits (if sat then clampInt ty x else wrapInt ty x) (32 * tyRegs ty)
/-- A number as a bit pattern of a TYPE. -/
def bitsOf (ty : BitVec 4) (v : Nat) : BitVec (tyBits ty) := BitVec.ofNat (tyBits ty) v

end Sys2Proof.Machine
end

