-- ==== Sys2Proof/Certificates/Slice0/Obligations.lean ====
section
/-! DEFINITION. The statements about the machine that are to be proved. `Completes` and its kin (Sys2Proof/Safety.lean) say
that `exec` answers a next state wherever the word stands, and which. -/

open Sys2Proof Sys2Proof.Machine

/-! ### Words that give each thread a value -/

/-- R83, R104: ADD, SUB, MUL, MAD, NEG and ABS give the exact result reduced modulo 2^n, or clamped to the range of TYPE
where CTL[0] is 1; MIN and MAX the smaller or larger value; MULH bits 2n − 1 to n of the exact product; MADW the sum of a
product and a pair modulo 2^64.
What a scalar receives where the threads' results differ is free (log entry 5), here and in every statement of values. -/
def Obligations.IntegerArithmeticGivesExactResult : Prop := ∀ w : FA,
  (GivesValue (.add w) w.c w.dst (tyRegs w.ty) fun s t x => intResult w.ty (w.ctl == 1) (s.ia w t x + s.ib w t x)) ∧
  (GivesValue (.sub w) w.c w.dst (tyRegs w.ty) fun s t x => intResult w.ty (w.ctl == 1) (s.ia w t x - s.ib w t x)) ∧
  (GivesValue (.mul w) w.c w.dst (tyRegs w.ty) fun s t x => intResult w.ty (w.ctl == 1) (s.ia w t x * s.ib w t x)) ∧
  (GivesValue (.mad w) w.c w.dst (tyRegs w.ty) fun s t x =>
    intResult w.ty (w.ctl == 1) (s.ia w t x * s.ib w t x + s.ic w t x)) ∧
  (GivesValue (.neg w) w.c w.dst (tyRegs w.ty) fun s t x => intResult w.ty (w.ctl == 1) (-s.ia w t x)) ∧
  (GivesValue (.abs w) w.c w.dst (tyRegs w.ty) fun s t x =>
    intResult w.ty (w.ctl == 1) (if 0 ≤ s.ia w t x then s.ia w t x else -s.ia w t x)) ∧
  (GivesValue (.min w) w.c w.dst (tyRegs w.ty) fun s t x =>
    intResult w.ty false (if s.ia w t x ≤ s.ib w t x then s.ia w t x else s.ib w t x)) ∧
  (GivesValue (.max w) w.c w.dst (tyRegs w.ty) fun s t x =>
    intResult w.ty false (if s.ia w t x ≤ s.ib w t x then s.ib w t x else s.ia w t x)) ∧
  (GivesValue (.mulh w) w.c w.dst (tyRegs w.ty) fun s t x =>
    (BitVec.ofInt (2 * tyBits w.ty) (s.ia w t x * s.ib w t x)).toNat / 2 ^ tyBits w.ty) ∧
  (GivesValue (.madw w) w.c w.dst 2 fun s t x =>
    (BitVec.ofInt 64 (s.ia w t x * s.ib w t x + (s.opnd t x w.sc 2 : Int))).toNat)

/-- R105: ADDC gives (a + b + carry in) mod 2^n and the carry out; SUBB (a − b − borrow in) mod 2^n and the borrow out;
the carry in is p(PCI) where CIN is 1, else 0. -/
def Obligations.CarryChainsThroughPredicates : Prop := ∀ w : FA,
  let cin := fun (s : State) (t x : Nat) => (w.sc.getLsbD 3 && (s.thread t x).pred (w.sc.extractLsb' 0 3)).toNat
  let n := tyBits w.ty
  (GivesValueAndPredicate (.addc w) w.c w.dst (tyRegs w.ty) (w.sc.extractLsb' 4 3)
    (fun s t x => (s.fa w t x + s.opnd t x w.sb (tyRegs w.ty) + cin s t x) % 2 ^ n)
    (fun s t x => decide (2 ^ n ≤ s.fa w t x + s.opnd t x w.sb (tyRegs w.ty) + cin s t x))) ∧
  (GivesValueAndPredicate (.subb w) w.c w.dst (tyRegs w.ty) (w.sc.extractLsb' 4 3)
    (fun s t x => (((s.fa w t x : Int) - s.opnd t x w.sb (tyRegs w.ty) - cin s t x) % 2 ^ n).toNat)
    (fun s t x => decide ((s.fa w t x : Int) - s.opnd t x w.sb (tyRegs w.ty) - cin s t x < 0)))

/-- R104: AND, OR, XOR, ANDN and NOT act on each bit of a pattern of TYPE's width; SEL gives a where c is not zero, else
b. -/
def Obligations.LogicActsBitwise : Prop := ∀ w : FA,
  let a := fun (s : State) (t x : Nat) => bitsOf w.ty (s.fa w t x)
  let b := fun (s : State) (t x : Nat) => bitsOf w.ty (s.fb w t x)
  (GivesValue (.and w) w.c w.dst (tyRegs w.ty) fun s t x => (a s t x &&& b s t x).toNat) ∧
  (GivesValue (.or w) w.c w.dst (tyRegs w.ty) fun s t x => (a s t x ||| b s t x).toNat) ∧
  (GivesValue (.xor w) w.c w.dst (tyRegs w.ty) fun s t x => (a s t x ^^^ b s t x).toNat) ∧
  (GivesValue (.andn w) w.c w.dst (tyRegs w.ty) fun s t x => (a s t x &&& ~~~ b s t x).toNat) ∧
  (GivesValue (.not w) w.c w.dst (tyRegs w.ty) fun s t x => (~~~ a s t x).toNat) ∧
  (GivesValue (.sel w) w.c w.dst (tyRegs w.ty) fun s t x =>
    (if s.opnd t x w.sc 1 = 0 then b s t x else a s t x).toNat)

/-- R104: SHL, SHR, SAR, ROTL and FSHF shift by b modulo n, where b is one 32-bit register. -/
def Obligations.ShiftsReduceTheirAmount : Prop := ∀ w : FA,
  let a := fun (s : State) (t x : Nat) => bitsOf w.ty (s.fa w t x)
  let n := tyBits w.ty
  (GivesValue (.shl w) w.c w.dst (tyRegs w.ty) fun s t x => (a s t x <<< (s.fb32 w t x % n)).toNat) ∧
  (GivesValue (.shr w) w.c w.dst (tyRegs w.ty) fun s t x => (a s t x >>> (s.fb32 w t x % n)).toNat) ∧
  (GivesValue (.sar w) w.c w.dst (tyRegs w.ty) fun s t x => ((a s t x).sshiftRight (s.fb32 w t x % n)).toNat) ∧
  (GivesValue (.rotl w) w.c w.dst (tyRegs w.ty) fun s t x => ((a s t x).rotateLeft (s.fb32 w t x % n)).toNat) ∧
  (GivesValue (.fshf w) w.c w.dst (tyRegs w.ty) fun s t x =>
    (((bitsOf w.ty (s.fc w t x) ++ a s t x) >>> (s.opnd t x w.sb 1 % n)).setWidth n).toNat)

/-- R104: POPC counts ones, CLZ the zeros above the highest one, CTZ those below the lowest, both n for 0; BREV puts bit
n − 1 − k at bit k. -/
def Obligations.BitCountsAndReversal : Prop := ∀ w : FA,
  let a := fun (s : State) (t x : Nat) => bitsOf w.ty (s.fa w t x)
  let n := tyBits w.ty
  (GivesValue (.popc w) w.c w.dst 1 fun s t x => ((List.range n).filter fun j => (a s t x).getLsbD j).length) ∧
  (GivesValue (.clz w) w.c w.dst 1 fun s t x => (List.range n).findIdx fun j => (a s t x).getMsbD j) ∧
  (GivesValue (.ctz w) w.c w.dst 1 fun s t x => (List.range n).findIdx fun j => (a s t x).getLsbD j) ∧
  (GivesValue (.brev w) w.c w.dst (tyRegs w.ty) fun s t x => (a s t x).reverse.toNat)

/-- R106 to R109: bit j of BFX is bit pos + j of a for j below len, and the field's top bit above it for i types; bit j of
BFI is bit j − pos of a inside the field and bit j of b outside; byte j of PRMT is the byte that nibble j names, or its
sign; LEA is a + (b << sh) modulo 2^64. -/
def Obligations.FieldsBytesAndAddresses : Prop := ∀ w : FA,
  let n := tyBits w.ty
  (GivesValue (.bfx w) w.c w.dst (tyRegs w.ty) fun s t x =>
    let a := bitsOf w.ty (s.fa w t x)
    let b := s.fb32 w t x
    let len := min (b / 256 % 256) n
    let bit := fun (j : Nat) => if b % 256 + j < n then a.getLsbD (b % 256 + j) else tySigned w.ty && a.msb
    (BitVec.ofBoolListLE ((List.range n).map fun j =>
      if j < len then bit j else decide (0 < len) && tySigned w.ty && bit (len - 1))).toNat) ∧
  (GivesValue (.bfi w) w.c w.dst (tyRegs w.ty) fun s t x =>
    let a := bitsOf w.ty (s.fa w t x)
    let b := bitsOf w.ty (s.fb w t x)
    let pos := s.opnd t x w.sc 1 % 256
    let len := s.opnd t x w.sc 1 / 256 % 256
    (BitVec.ofBoolListLE ((List.range n).map fun j =>
      if pos ≤ j ∧ j < pos + len then a.getLsbD (j - pos) else b.getLsbD j)).toNat) ∧
  (GivesValue (.prmt w) w.c w.dst 1 fun s t x =>
    let c := BitVec.ofNat 32 (s.fc w t x)
    let src := BitVec.ofNat 32 (s.fb w t x) ++ BitVec.ofNat 32 (s.fa w t x)
    let byte := fun (j : Nat) =>
      let v : BitVec 8 := src.extractLsb' (8 * (c.extractLsb' (4 * j) 3).toNat) 8
      if c.getLsbD (4 * j + 3) then (if v.msb then (0xFF : BitVec 8) else 0) else v
    (byte 3 ++ byte 2 ++ byte 1 ++ byte 0).toNat) ∧
  (GivesValue (.lea w) w.c w.dst 2 fun s t x =>
    let b := BitVec.ofNat 32 (s.fb32 w t x)
    (BitVec.ofNat 64 (s.opnd t x w.sa 2) +
      ((if w.ty = i32 then b.signExtend 64 else b.setWidth 64) <<< (w.ctl.extractLsb' 1 4).toNat)).toNat)

/-- R110, R113: the condition that COND names over the operands goes to p(PD), and all ones or all zeros to d; FCMP orders
finite and infinite values by value, −0 equal to +0, and is unordered where an operand is NaN. R114: FCLASS sets one bit. -/
def Obligations.ComparisonsWriteMaskAndPredicate : Prop := ∀ w : FA,
  let cond := (w.sc.extractLsb' 3 3).toNat
  let icond := fun (a b : Int) => match cond with
    | 0 => decide (a = b) | 1 => decide (a ≠ b) | 2 => decide (a < b) | 3 => decide (a ≤ b)
    | 4 => decide (a > b) | _ => decide (a ≥ b)
  let f := fmOf w.ty
  let val := fun (v : Nat) => if f.flush (w.ctl.getLsbD 2) v % f.signBit = 0 then (0 : Int) else f.key (f.flush (w.ctl.getLsbD 2) v)
  let nan := fun (v : Nat) => f.isNan (f.flush (w.ctl.getLsbD 2) v)
  let fcond := fun (a b : Nat) => match cond with
    | 0 => !(nan a || nan b) && decide (val a = val b) | 1 => nan a || nan b || decide (val a ≠ val b)
    | 2 => !(nan a || nan b) && decide (val a < val b) | 3 => !(nan a || nan b) && decide (val a ≤ val b)
    | 4 => !(nan a || nan b) && decide (val a > val b) | 5 => !(nan a || nan b) && decide (val a ≥ val b)
    | 6 => nan a || nan b | _ => !(nan a || nan b)
  (GivesValueAndPredicate (.cmp w) w.c w.dst 1 (w.sc.extractLsb' 0 3)
    (fun s t x => if icond (s.ia w t x) (intOf w.ty (s.opnd t x w.sb (tyRegs w.ty))) then 2 ^ 32 - 1 else 0)
    (fun s t x => icond (s.ia w t x) (intOf w.ty (s.opnd t x w.sb (tyRegs w.ty))))) ∧
  (GivesValueAndPredicate (.fcmp w) w.c w.dst 1 (w.sc.extractLsb' 0 3)
    (fun s t x => if fcond (s.ga w t x) (s.gb w t x) then 2 ^ 32 - 1 else 0)
    (fun s t x => fcond (s.ga w t x) (s.gb w t x))) ∧
  (GivesValue (.fclass w) w.c w.dst 1 fun s t x =>
    let e := f.flush (w.ctl.getLsbD 2) (s.ga w t x)
    let neg := decide (f.signBit ≤ e)
    if f.isNan e then (if e % f.signBit < f.inf + 2 ^ (f.mb - 1) then 2 ^ 8 else 2 ^ 9)
    else if e % f.signBit = f.inf then (if neg then 2 ^ 0 else 2 ^ 7)
    else if e % f.signBit = 0 then (if neg then 2 ^ 3 else 2 ^ 4)
    else if e % f.signBit < 2 ^ f.mb then (if neg then 2 ^ 2 else 2 ^ 5)
    else (if neg then 2 ^ 1 else 2 ^ 6))

/-- R112, R113, R115: FADD, FSUB, FMUL, FFMA, FSCALE, FRND and FDOT2 round the exact result once to TYPE (FDOT2 to f32);
FMIN and FMAX order the operands with −0 below +0 and pass over one NaN.
The model's choice: the sign of an exactly zero sum of FDOT2's three terms (log entry 57). -/
def Obligations.FloatArithmeticRoundsOnce : Prop := ∀ w : FA,
  let f := fmOf w.ty
  let rm := w.ctl.toNat % 4
  let ftz := w.ctl.getLsbD 2
  let a := fun (s : State) (t x : Nat) => f.read ftz (s.ga w t x)
  let b := fun (s : State) (t x : Nat) => f.read ftz (s.gb w t x)
  (GivesValue (.fadd w) w.c w.dst (tyRegs w.ty) fun s t x => f.addAll rm ftz [a s t x, b s t x]) ∧
  (GivesValue (.fsub w) w.c w.dst (tyRegs w.ty) fun s t x => f.addAll rm ftz [a s t x, (b s t x).neg]) ∧
  (GivesValue (.fmul w) w.c w.dst (tyRegs w.ty) fun s t x => f.put rm ftz ((a s t x).mul (b s t x))) ∧
  (GivesValue (.ffma w) w.c w.dst (tyRegs w.ty) fun s t x =>
    f.addAll rm ftz [(a s t x).mul (b s t x), f.read ftz (s.gc w t x)]) ∧
  (GivesValue (.fmin w) w.c w.dst (tyRegs w.ty) fun s t x =>
    let a := f.flush ftz (s.ga w t x)
    let b := f.flush ftz (s.gb w t x)
    if f.isNan a && f.isNan b then f.nan else if f.isNan a then b else if f.isNan b then a
    else if f.key a ≤ f.key b then a else b) ∧
  (GivesValue (.fmax w) w.c w.dst (tyRegs w.ty) fun s t x =>
    let a := f.flush ftz (s.ga w t x)
    let b := f.flush ftz (s.gb w t x)
    if f.isNan a && f.isNan b then f.nan else if f.isNan a then b else if f.isNan b then a
    else if f.key a ≤ f.key b then b else a) ∧
  (GivesValue (.fscale w) w.c w.dst (tyRegs w.ty) fun s t x => match a s t x with
    | .fin neg m e => f.round rm ftz neg m (e + (BitVec.ofNat 32 (s.fb32 w t x)).toInt)
    | v => f.put rm ftz v) ∧
  (GivesValue (.frnd w) w.c w.dst (tyRegs w.ty) fun s t x => match a s t x with
    | .fin neg m e => f.round rm ftz neg (integral rm neg m e) 0
    | v => f.put rm ftz v) ∧
  (GivesValue (.fdot2 w) w.c w.dst 1 fun s t x =>
    let half := fun (v j : Nat) => f.read ftz (v / 2 ^ (16 * j) % 2 ^ 16)
    let p := s.opnd t x w.sa 1
    let q := s.opnd t x w.sb 1
    fm32.addAll rm ftz [(half p 0).mul (half q 0), (half p 1).mul (half q 1), fm32.read ftz (s.opnd t x w.sc 1)])

/-- R79, R112: an operation on a NaN, the difference of infinities of one sign and the product of a zero and an infinity
give the canonical NaN; an infinity otherwise stays one. R45, R77, R78, R80: in each format a finite value x is rounded to a value
of its sign: toward zero to the nearest finite one that is not beyond x, away from zero to the nearest that is not short of it, an
infinity where none is finite, and to nearest to a finite one that no other is nearer than, even where two are as near, an infinity
from the largest finite value and half of its last place on; under FTZ a subnormal result is a zero of its sign. -/
def Obligations.NanInfinityAndRoundingRules : Prop := ∀ (f : Fm) (rm : Rm) (ftz : Bool) (a b : Nat),
  (f.read ftz a = .nan → f.add rm ftz a b = f.nan ∧ f.add rm ftz b a = f.nan ∧ f.sub rm ftz a b = f.nan ∧
    f.sub rm ftz b a = f.nan ∧ f.mul rm ftz a b = f.nan ∧ f.mul rm ftz b a = f.nan ∧ f.rnd rm ftz a = f.nan ∧
    f.rcp rm ftz a = f.nan ∧ f.sqrt rm ftz a = f.nan ∧ f.rsq rm ftz a = f.nan ∧ ∀ c, f.fma rm ftz a b c = f.nan ∧
    f.fma rm ftz b a c = f.nan ∧ f.fma rm ftz b c a = f.nan) ∧
  (∀ neg, f.read ftz a = .inf neg → f.read ftz b = .inf neg → f.sub rm ftz a b = f.nan) ∧
  (∀ neg, f.read ftz a = .inf neg → f.read ftz b = .inf (!neg) → f.add rm ftz a b = f.nan) ∧
  (∀ neg zneg e, f.read ftz a = .inf neg → f.read ftz b = .fin zneg 0 e → f.mul rm ftz a b = f.nan) ∧
  (∀ neg bneg m e, f.read ftz a = .inf neg → f.read ftz b = .fin bneg m e →
    f.add rm ftz a b = f.zero neg + f.inf ∧ (m ≠ 0 → f.mul rm ftz a b = f.zero (neg != bneg) + f.inf)) ∧
  (f ∈ [fm32, fm16, fmB16, fm64] → rm < 4 → ∀ (neg : Bool) (m : Nat) (e : Int),
    let x : ℚ := m * 2 ^ e
    let val := fun (v : Nat) => match f.read false v with
      | .fin _ n q => some ((n : ℚ) * 2 ^ q)
      | _ => none
    let r := f.round rm false neg m e
    let outward := rm = 2 ∧ neg = true ∨ rm = 3 ∧ neg = false
    (r < 2 ^ f.width ∧ (decide (f.signBit ≤ r)) = neg ∧ (f.read false r = .inf neg ∨ ∃ y, val r = some y)) ∧
    (rm ≠ 0 → ¬ outward → ∃ y, val r = some y ∧ y ≤ x ∧ ∀ v z, val v = some z → z ≤ x → z ≤ y) ∧
    (outward → (f.read false r = .inf neg ↔ ∀ v z, val v = some z → z < x) ∧
      ∀ y, val r = some y → x ≤ y ∧ ∀ v z, val v = some z → x ≤ z → y ≤ z) ∧
    (rm = 0 →
      (f.read false r = .inf neg ↔ ∃ y, val (f.inf - 1) = some y ∧ y + 2 ^ (f.qmin + 2 ^ f.eb - 4) ≤ x) ∧
      ∀ y, val r = some y → ∀ v z, val v = some z → |y - x| ≤ |z - x| ∧ (|y - x| = |z - x| → z ≠ y → r % 2 = 0)) ∧
    f.round rm true neg m e = if 0 < r % f.signBit ∧ r % f.signBit < 2 ^ f.mb then f.zero neg else r)

/-- R50, R112: FRCP, FRSQ, FSQRT and the five faithfully rounded functions issue a result that is written later.
The neighbour that a faithful function gives is free (log entry 2). -/
def Obligations.LongFloatsIssueTheirResult : Prop := ∀ w : FA,
  let f := fmOf w.ty
  let rm := w.ctl.toNat % 4
  let ftz := w.ctl.getLsbD 2
  let fn := fun (n : Nat) (s : State) (t x : Nat) => f.fn n w.ty ftz (s.ga w t x)
  (IssuesValue (.frcp w) w.c w.dst (tyRegs w.ty) fun s t x => f.rcp rm ftz (s.ga w t x)) ∧
  (IssuesValue (.frsq w) w.c w.dst (tyRegs w.ty) fun s t x => f.rsq rm ftz (s.ga w t x)) ∧
  (IssuesValue (.fsqrt w) w.c w.dst (tyRegs w.ty) fun s t x => f.sqrt rm ftz (s.ga w t x)) ∧
  (IssuesValue (.fexp2 w) w.c w.dst (tyRegs w.ty) (fn 0)) ∧ (IssuesValue (.flog2 w) w.c w.dst (tyRegs w.ty) (fn 1)) ∧
  (IssuesValue (.fsin w) w.c w.dst (tyRegs w.ty) (fn 2)) ∧ (IssuesValue (.fcos w) w.c w.dst (tyRegs w.ty) (fn 3)) ∧
  (IssuesValue (.ftanh w) w.c w.dst (tyRegs w.ty) (fn 4))

/-- R116 to R118: CVT, PACK, UNPK and QDEC give the converted value; QENC quantises the values of each 32 home lanes of a
lane set as one block. -/
def Obligations.ConversionsGiveTheirValue : Prop := ∀ w : FA,
  let sat := w.ctl.getLsbD 0
  let rm := w.ctl.toNat % 4
  let ftz := w.ctl.getLsbD 2
  let half := if tyFloat w.ty then cvtFloat fm32 (fmOf w.ty) rm ftz else if w.ty = b16 then (· % 2 ^ 16)
    else fun (v : Nat) => ibits (if sat then clampInt w.ty (intOf (if w.ty = i16 then i32 else n32) v)
      else wrapInt w.ty (intOf (if w.ty = i16 then i32 else n32) v)) 16
  let wide := if tyFloat w.ty then cvtFloat (fmOf w.ty) fm32 0 ftz else if w.ty = i16 then fun (v : Nat) => ibits (sext v 16) 32 else id
  (GivesValue (.cvt w) w.c w.dst (tyRegs w.ty) fun s t x =>
    let a := s.opnd t x w.sa (tyRegs w.sty)
    let g := fmOf w.sty
    if tyFloat w.ty ∧ tyFloat w.sty then cvtFloat g (fmOf w.ty) rm ftz (a % 2 ^ g.width)
    else if tyFloat w.ty then (fmOf w.ty).roundI rm false false (intOf w.sty a) 0
    else if tyFloat w.sty then
      ibits (floatToInt g (w.ctl.toNat / 2 % 4) (tyMin w.ty) (tyMax w.ty) (a % 2 ^ g.width)) (32 * tyRegs w.ty)
    else intResult w.ty sat (intOf w.sty a)) ∧
  (GivesValue (.pack w) w.c w.dst 1 fun s t x =>
    half (s.opnd t x w.sa 1) +
      2 ^ 16 * half (if w.sb = 0xF1 ∧ tyFloat w.ty then immFloat fm32 w.sc else s.src t x w.sb w.sc 1)) ∧
  (GivesValue (.unpk w) w.c w.dst 2 fun s t x =>
    wide (s.opnd t x w.sa 1 % 2 ^ 16) + 2 ^ 32 * wide (s.opnd t x w.sa 1 / 2 ^ 16 % 2 ^ 16)) ∧
  (GivesValue (.qdec w) w.c w.dst (tyRegs w.ty) fun s t x =>
    let a := s.opnd t x w.sa 1
    let e := sext (a / 2 ^ 8) 8
    if e = -128 then (fmOf w.ty).nan
    else (fmOf w.ty).roundI 0 false false (sext a (if w.ctl.getLsbD 3 then 4 else 8)) e) ∧
  (Completes (.qenc w) w.c fun s k ex =>
    s.putSets k.team w.dst 1 ((s.laneSets k.team ex).map fun set => s.qencSet w k.team set))

/-- R54, R239: NOP and YIELD do nothing but carry a selector or SKIP. R48: a thread that executes SKIP at position i
executes none of the words i + 1 to i + n. -/
def Obligations.NopSkipAndYield : Prop := ∀ (cls : BitVec 2) (w : FN),
  (w.c.nas ≠ 5 → Completes (.nop cls w) w.c fun s _ _ => s) ∧
  (w.c.nas = 5 → Completes (.nop cls w) w.c fun s k ex => ex.foldl (fun (s : State) (t : Nat) =>
    s.modThread k.team t fun x => { x with skip := k.pos + 1 + w.c.look.toNat }) s) ∧
  (∀ (s : State) (t x : Nat) (c : Common) (pos n : Nat), (s.thread t x).skip = n → pos < n →
    s.executes t x c pos = false) ∧
  (Completes (.yield w) w.c fun s _ _ => s)

/-- R119 to R122: MOV copies, MOVI writes its immediate, MOVH puts it in the odd register of a pair whose even one stays;
RDS gives the special register at its width; WRS writes one, once for each home warp; PLOP looks its three predicates up
in a table, pmov.get gives them with p7 true, pmov.set writes those that the mask names.
The model's choice: WRS under TYPE b64 to a 32-bit special register (log entry 57). -/
def Obligations.MovesSpecialsAndPredicates : Prop := ∀ (w : FA) (v : FV),
  (GivesValue (.mov w) w.c w.dst (tyRegs w.ty) fun s t x => s.opnd t x w.sa (tyRegs w.ty)) ∧
  (GivesValue (.movi v) v.c v.dst 1 fun _ _ _ => v.imm.toNat) ∧
  (GivesValue (.movh v) v.c v.dst 2 fun s t x => s.opnd t x v.dst 1 + 2 ^ 32 * v.imm.toNat) ∧
  (w.sc ≠ 0x12 → GivesValue (.rds w) w.c w.dst (tyRegs w.ty) fun s t x =>
    s.special t x w.sc.toNat % 2 ^ (32 * tyRegs w.ty)) ∧
  (∀ (s : State) (k : Iss), Stands s k (.rds w) w.c → w.sc = 0x12 →
    let s' := s.settled k (.rds w) w.c
    ∀ d, s'.drainGangs k.team (s'.warpsOf k.team (s.runs k w.c)) = (d, .clear) →
      exec (.rds w) s = .next ((d.putAll k.team w.dst (tyRegs w.ty) ((s.runs k w.c).map fun x =>
        (x, d.special k.team x 0x12 % 2 ^ (32 * tyRegs w.ty)))).after k (.rds w) w.c (s.runs k w.c) {})) ∧
  (Completes (.wrs w) w.c fun s k ex => (s.warpsOf k.team ex).foldl (fun (s : State) (h : Nat) =>
    let v := s.opnd k.team ((s.ofWarp k.team h ex).headD 0) w.sa (tyRegs w.ty)
    s.modWarp k.team h fun y => { y with regs := y.regs.put w.sc.toNat v }) s) ∧
  (Completes (.plop w) w.c fun s k ex => ex.foldl (fun (s : State) (t : Nat) =>
    let p := (s.thread k.team t).pred
    s.putPred k.team t (w.dst.extractLsb' 0 3) (w.sc.getLsbD (4 * (p (w.sa.extractLsb' 0 3)).toNat +
      2 * (p (w.sb.extractLsb' 0 3)).toNat + (p (w.ctl.extractLsb' 0 3)).toNat))) s) ∧
  (GivesValue (.pmovGet w) w.c w.dst 1 fun s t x =>
    ((List.range 8).map fun j => if (s.thread t x).pred (BitVec.ofNat 3 j) then 2 ^ j else 0).sum) ∧
  (Completes (.pmovSet w) w.c fun s k ex => ex.foldl (fun (s : State) (t : Nat) =>
    let a := BitVec.ofNat 7 (s.opnd k.team t w.sa 1)
    let m := w.sc.extractLsb' 0 7
    s.modThread k.team t fun x => { x with p := (x.p &&& ~~~ m) ||| (a &&& m) }) s)

/-- R123 to R127: SHFL, VOTE, REDUX, MATCH and V2S act on the executing threads of one lane set of one home warp: what
each gives its threads and its predicate. REDUX, MATCH and V2S are long-latency.
The model's choice: b of SHFL is a scalar register or an IMM8, and neither a vector register nor ZERO (log entry 57). -/
def Obligations.LaneInstructionsActOnLaneSets : Prop := ∀ w : FA,
  (Completes (.shfl w) w.c fun s k ex =>
    let rs := (s.laneSets k.team ex).map fun set => set.map fun t =>
      let b := s.src k.team t w.sb w.sc 1
      let l := (s.team k.team).hlane t
      let from_ : Int := match w.ctl10.toNat with | 0 => b | 1 => (l : Int) - b | 2 => (l : Int) + b | _ => (l ^^^ b : Nat)
      match set.find? fun j => ((s.team k.team).hlane j : Int) == from_ with
      | some j => (t, s.fa w k.team j, true)
      | none => (t, s.fa w k.team t, false)
    rs.flatten.foldl (fun (s : State) (r : Nat × Nat × Bool) => s.putPred k.team r.1 w.ctl42 r.2.2)
      (s.putSets k.team w.dst (tyRegs w.ty) (rs.map fun set => set.map fun r => (r.1, r.2.1)))) ∧
  (w.ctl10 ≠ 3 → Completes (.vote w) w.c fun s k ex =>
    let sets := s.laneSets k.team ex
    let val := fun (set : List Nat) => match w.ctl10.toNat with
      | 0 => set.any (s.vote w k.team)
      | 1 => set.all (s.vote w k.team)
      | _ => set.all (s.vote w k.team) || set.all fun t => !s.vote w k.team t
    (sets.map fun set => (set, val set)).foldl (fun (s : State) (r : List Nat × Bool) =>
      r.1.foldl (fun (s : State) (t : Nat) => s.putPred k.team t w.sc64 r.2) s)
      (s.putSets k.team w.dst 1 (sets.map fun set => set.map fun t => (t, (val set).toNat)))) ∧
  (w.ctl10 = 3 → Completes (.vote w) w.c fun s k ex => s.putSets k.team w.dst 1
    ((s.laneSets k.team ex).map fun set => set.map fun t =>
      (t, laneMask (s.team k.team) (w.ctl.extractLsb' 2 2).toNat (set.filter (s.vote w k.team))))) ∧
  (Completes (.redux w) w.c fun s k ex => s.issueResults k w.c w.dst (tyRegs w.ty)
    ((s.lastSets k.team w.dst ((s.laneSets k.team ex).map fun set => set.map fun t => (t, s.reduxSet w k.team set))).map
      fun e => (e.1, some e.2, none))) ∧
  (Completes (.matchLanes w) w.c fun s k ex =>
    let rs := (s.laneSets k.team ex).map fun set => s.matchSet w k.team set
    s.issueResults k w.c w.dst 1 ((s.lastSets k.team w.dst (rs.map Prod.fst)).map fun e =>
      (e.1, some e.2, some (w.ctl42, rs.any fun r => r.2 && r.1.any fun f => f.1 == e.1)))) ∧
  (Completes (.v2s w) w.c fun s k ex => s.issueResults k w.c w.dst (tyRegs w.ty)
    ((s.lastSets k.team w.dst ((s.laneSets k.team ex).map fun set => set.map fun t =>
      let lead := set.headD 0
      (t, match set.find? fun j => ((s.team k.team).hlane j : Int) == s.src k.team lead w.sb w.sc 1 with
        | some j => s.fa w k.team j
        | none => s.fa w k.team lead))).map fun e => (e.1, some e.2, none)))

/-! ### Memory words -/

/-- R178 to R180, R190: where every lane passes its probe and no sector read is poisoned, LD, LDA, LDS, LDNR and LDT
issue the values that their lanes see, to be written later; LDNR gives zero and true to a lane whose page is absent,
LDT zero to a lane out of bounds; LDA, after the thread's earlier synchronising stores, is an acquire.
The bytes of host and peer memory are free (log entries 3 and 7); the model's choices: log entries 19 and 34. -/
def Obligations.LoadsIssueWhatTheirLanesSee : Prop := ∀ w : FM,
  let clean := fun (s : State) (k : Iss) (as : List (Nat × Access)) =>
    ∀ e ∈ places as, s.consumes k.core e.1 e.2 = false
  (CompletesIf (.ld w) w.c
    (fun s k ex => let p := s.probeGlobal k w ex {}; AllPass p.2 ∧ clean p.1 k (passed p.2))
    fun s k ex =>
      let p := s.probeGlobal k w ex {}
      (p.1.fillLanes k (passed p.2) false).loadDone k w.c w.dst (memRegs w) (w.ctl.getLsbD 0) (typeOf w) (passed p.2) []
        (fun _ => none) false) ∧
  (CompletesIf (.lda w) w.c
    (fun s k ex =>
      let p := s.probeGlobal k w ex {}
      AllPass p.2 ∧ (∀ i ∈ ex, p.1.syncOpen k.team i = false) ∧
        ∀ e ∈ places (passed p.2), p.1.takesPoison k.core e.1 e.2 = false)
    fun s k ex =>
      let p := s.probeGlobal k w ex {}
      (p.1.fillLanes k (passed p.2) true).loadDone k w.c w.dst (memRegs w) (w.ctl.getLsbD 0) none (passed p.2) []
        (fun _ => none) true) ∧
  (CompletesIf (.lds w) w.c
    (fun s k ex =>
      let p := s.probePads k ex (fun i => s.padOff w k.team i) (widBytes w.wid)
      AllPass p ∧ clean s k (passed p))
    fun s k ex =>
      let as := passed (s.probePads k ex (fun i => s.padOff w k.team i) (widBytes w.wid))
      (s.fillLanes k as false).loadDone k w.c w.dst (widRegs w.wid) (w.ctl.getLsbD 0) none as [] (fun _ => none) false) ∧
  (CompletesIf (.ldnr w) w.c
    (fun s k ex =>
      let p := s.probeGlobal k w ex { stay := true }
      let near := p.2.filter fun e => !(absentLanes p.2).contains e.1
      AllPass near ∧ clean p.1 k (passed near))
    fun s k ex =>
      let p := s.probeGlobal k w ex { stay := true }
      let out := absentLanes p.2
      let near := p.2.filter fun e => !out.contains e.1
      (p.1.fillLanes k (passed near) false).loadDone k w.c w.dst (memRegs w) (w.ctl.getLsbD 0) (typeOf w) (passed near) out
        (fun i => some (w.pd, out.contains i)) false) ∧
  (CompletesIf (.ldt w) w.c
    (fun s k ex =>
      let p := s.probeTensor k w ex {}
      AllPass p.2 ∧ clean p.1 k (accessing (passed p.2)))
    fun s k ex =>
      let p := s.probeTensor k w ex {}
      let as := accessing (passed p.2)
      (p.1.fillLanes k as false).loadDone k w.c w.dst (widRegs w.wid) false none as (clipped (passed p.2)) (fun _ => none) false)

/-- R178, R179, R181, R190: where every lane passes its probe, ST and STS store the low bytes of DST, a typed ST its
elements, STL its bytes at the home once the thread's earlier stores are acknowledged, QST whole blocks for each home
warp, and STT the bytes of the lanes that are in bounds.
The model's choices: QST at once (log entry 34), stores in flight (log entry 29). -/
def Obligations.StoresWriteTheirBytes : Prop := ∀ w : FM,
  let bytes := fun (s : State) (k : Iss) (regs : Nat) (as : List (Nat × Access)) => as.map fun e =>
    (e.1, e.2, [(e.2.loc, leBytes e.2.size (s.opnd k.team e.1 w.dst regs))])
  (w.wid ≠ 5 → CompletesIf (.st w) w.c (fun s k ex => AllPass (s.probeGlobal k w ex { write := true }).2)
    fun s k ex =>
      let p := s.probeGlobal k w ex { write := true }
      p.1.storeDone k (bytes p.1 k (memRegs w) (passed p.2))) ∧
  (w.wid = 5 → CompletesIf (.st w) w.c
    (fun s k ex =>
      let p := s.probeGlobal k w ex { write := true }
      AllPass p.2 ∧ ∀ e ∈ scalesOf (passed p.2), p.1.consumes k.core e.1 e.2 = false)
    fun s k ex =>
      let p := s.probeGlobal k w ex { write := true }
      ((scalesOf (passed p.2)).foldl (fun (s : State) (m : Loc × Nat) => s.fillLoc k.core m.1 1) p.1).typedStores k w.dst
        (memRegs w) w.mty (passed p.2)) ∧
  (CompletesIf (.sts w) w.c
    (fun s k ex => AllPass (s.probePads k ex (fun i => s.padOff w k.team i) (widBytes w.wid)))
    fun s k ex => s.storeDone k
      (bytes s k (widRegs w.wid) (passed (s.probePads k ex (fun i => s.padOff w k.team i) (widBytes w.wid))))) ∧
  (∀ r, CompletesIf (.stl w) w.c
    (fun s k ex => AllPass (s.probeGlobal k w ex { write := true }).2 ∧
      (s.probeGlobal k w ex { write := true }).1.release k.team ex = some r)
    fun s k ex => (passed (s.probeGlobal k w ex { write := true }).2).foldl (fun (s : State) (e : Nat × Access) =>
      s.storeHome k e.1 e.2.loc (leBytes e.2.size (s.opnd k.team e.1 w.dst (memRegs w)))) r) ∧
  (CompletesIf (.stt w) w.c (fun s k ex => AllPass (s.probeTensor k w ex { write := true }).2)
    fun s k ex =>
      let p := s.probeTensor k w ex { write := true }
      p.1.storeDone k (bytes p.1 k (widRegs w.wid) (accessing (passed p.2)))) ∧
  (CompletesIf (.qst w) w.c (fun s k ex => AllPass (s.probeQst k w ex).2)
    fun s k ex => (s.probeQst k w ex).1.qstDone k w ex (passed (s.probeQst k w ex).2))

/-- R182, R183: where every lane passes its probe and nothing is poisoned, ATOM and ATOMS apply one operation for each lane in
order at the home and issue the values replaced; `.rel` first waits for the thread's stores, `.acq` for its synchronising
ones; RED sends each lane's operation to its home. R156, R167: a RED is applied at its home when it gets there. -/
def Obligations.AtomicsApplyAtTheirHome : Prop := ∀ w : FM,
  let n := widBytes w.wid
  let clean := fun (s : State) (k : Iss) (ls : List (Nat × Loc × Nat)) => ∀ e ∈ ls, s.takesPoison k.core e.2.1 n = false
  (w.ctl.getLsbD 1 = false → CompletesIf (.atom w) w.c
    (fun s k ex => let p := s.probeAtoms k w ex
      AllPass p.2 ∧ (w.ctl.getLsbD 0 = true → ∀ i ∈ ex, p.1.syncOpen k.team i = false) ∧
        clean p.1 k (p.1.atomArgs k w (passed p.2)))
    fun s k ex =>
      let p := s.probeAtoms k w ex
      p.1.atomDone k w.c w.dst w.wid w.aop.toNat (p.1.atomArgs k w (passed p.2)) (w.ctl.getLsbD 0)) ∧
  (w.ctl.getLsbD 1 = true → ∀ r, CompletesIf (.atom w) w.c
    (fun s k ex => let p := s.probeAtoms k w ex
      AllPass p.2 ∧ p.1.release k.team ex = some r ∧ clean r k (r.atomArgs k w (passed p.2)))
    fun s k ex => r.atomDone k w.c w.dst w.wid w.aop.toNat (r.atomArgs k w (passed (s.probeAtoms k w ex).2))
      (w.ctl.getLsbD 0)) ∧
  (CompletesIf (.red w) w.c
    (fun s k ex => let p := s.probeAtoms k w ex; AllPass p.2 ∧ clean p.1 k (p.1.atomArgs k w (passed p.2)))
    fun s k ex =>
      let p := s.probeAtoms k w ex
      (p.1.atomArgs k w (passed p.2)).foldl (fun (s : State) e => s.redLane k.team n w.aop.toNat e) p.1) ∧
  (∀ (s : State) (st : Store) (aop : Nat), st.red = some aop →
    let m := st.bytes.length
    (s.land st).mem = s.mem.writeN st.pa
      (leBytes m (atomResult aop (8 * m) (leValue (s.mem.readN st.pa m)) (leValue st.bytes)))) ∧
  (let ps := fun (s : State) (k : Iss) (ex : List Nat) =>
    s.probePads k ex (fun i => (s.opnd k.team i w.sa 1 : Int) + sext w.off8.toNat 8) n
  CompletesIf (.atoms w) w.c
    (fun s k ex => AllPass (ps s k ex) ∧ clean s k (s.atomArgs k w (passed (ps s k ex))))
    fun s k ex => s.atomDone k w.c w.dst w.wid w.aop.toNat (s.atomArgs k w (passed (ps s k ex))) false)

/-- R182: what each operation leaves at a location of n bits, where x is the operand's low n bits; for cas the operand
holds the comparand and then the new value. fadd rounds the exact sum to nearest, without FTZ, and fmin and fmax act as FMIN and
FMAX (R112, R113). -/
def Obligations.AtomicOperationValues : Prop := ∀ (n old b : Nat), n = 32 ∨ n = 64 → old < 2 ^ n →
  let x := b % 2 ^ n
  let o := BitVec.ofNat n old
  let y := BitVec.ofNat n b
  atomResult 0 n old b = (o + y).toNat ∧
  atomResult 1 n old b = (if y.toInt < o.toInt then y else o).toNat ∧
  atomResult 2 n old b = (if o.toInt < y.toInt then y else o).toNat ∧
  atomResult 3 n old b = min old x ∧ atomResult 4 n old b = max old x ∧
  atomResult 5 n old b = (o &&& y).toNat ∧ atomResult 6 n old b = (o ||| y).toNat ∧
  atomResult 7 n old b = (o ^^^ y).toNat ∧ atomResult 8 n old b = x ∧
  atomResult 9 n old b = (if old = x then b / 2 ^ n % 2 ^ n else old) ∧
  (let f := if n = 32 then fm32 else fm64
    let pick := fun (less : Bool) => if f.isNan old && f.isNan x then f.nan else if f.isNan old then x else if f.isNan x then old
      else if (if less then f.key old ≤ f.key x else f.key x ≤ f.key old) then old else x
    atomResult 10 n old b = f.addAll 0 false [f.read false old, f.read false x] ∧
    atomResult 11 n old b = pick true ∧ atomResult 12 n old b = pick false) ∧
  atomResult 13 n old b = (if x ≤ old then 0 else old + 1)

/-- R184 to R187: a fence waits for the stores it orders and drops the copies it must; PREF brings a lane's sector into L1
where its access would pass and it holds no poison; PGREQ, whose translations need nothing of another chip, asks for each absent
page, and with WT the threads whose page is absent wait for it; ICFENCE empties the core's instruction cache, and what it has asked
other chips for is not kept (R169).
The model's choices: log entries 7, 29, 34 and 57. -/
def Obligations.FencesPrefetchAndPageRequests : Prop := ∀ (w : FM) (v : FN),
  (CompletesIf (.fenceAcq w) w.c (fun s k ex => ∀ i ∈ ex, s.syncOpen k.team i = false)
    fun s k ex => if ex = [] then s else s.acquire k.core) ∧
  (∀ r, CompletesIf (.fenceRel w) w.c (fun s k ex => s.release k.team ex = some r) fun _ _ _ => r) ∧
  (∀ r, CompletesIf (.fenceFull w) w.c (fun s k ex => s.release k.team ex = some r)
    fun _ k ex => if ex = [] then r else r.acquire k.core) ∧
  (Completes (.pref w) w.c fun s k ex => ex.foldl (fun (s : State) (t : Nat) =>
    match s.access k.team t (s.ea w k.team t) 1 1 { stay := true } with
    | (s, .ok a) => if w.ctl = 0 ∧ s.poisoned a.loc 1 = false then s.fillLoc k.core a.loc.sector 32 else s
    | (s, .error _) => s) s) ∧
  (let ps := fun (s : State) (k : Iss) (ex : List Nat) =>
    probeEach (fun (s : State) (t : Nat) => s.access k.team t (s.ea w k.team t) 1 1 { stay := true }) s ex
  CompletesIf (.pgreq w) w.c (fun s k ex => faultReps (ps s k ex).2 = [] ∧ ∀ e ∈ missingPages (ps s k ex).2, e.far = false)
    fun s k ex =>
      let q := (ps s k ex).1.requests k.team (missingPages (ps s k ex).2) false
      if w.ctl.getLsbD 0 then (ps s k ex).2.foldl (fun (s : State) e => match e.2 with
        | .error (.page ks) => s.block k.team e.1 (.page ks)
        | _ => s) q
      else q) ∧
  (Completes (.icfence v) v.c fun s k ex => if ex = [] then s else
    (s.farStale fun y => y.pasid == 2 && y.part == k.core).modCore k.core fun x => { x with icache := [] })

/-! ### Shape records, sync words, batches and waits -/

/-- R188, R189, R191: SHAPE loads the record that a home warp's lead thread names, where it keeps the rules of R188; where one lies
on a peer page, it asks for it, and all the issue's threads wait until every record is there (R335); SWINIT sets TARGET, COUNT 0 and
W3 0 and leaves GEN.
The model's choice: the records of one issue are written together (log entry 34). -/
def Obligations.ShapeAndSyncWordsAreSet : Prop := ∀ w : FM,
  (let lead := fun (s : State) (k : Iss) (ex : List Nat) (v : Nat) => (s.ofWarp k.team v ex).headD 0
  let ps := fun (s : State) (k : Iss) (ex : List Nat) => probeEach (fun (r : State) (v : Nat) =>
    r.access k.team (lead s k ex v) (r.ea w k.team (lead s k ex v)) 128 128 {}) s (s.warpsOf k.team ex)
  let far := fun (s : State) (k : Iss) (ex : List Nat) => (passed (ps s k ex).2).filterMap fun e =>
    match e.2.loc with | .peer pa => some (e.1, pa) | _ => none
  let near := fun (s : State) (k : Iss) (ex : List Nat) => (passed (ps s k ex).2).filter fun e =>
    !(far s k ex).any fun f => f.1 == e.1
  let filled := fun (s : State) (k : Iss) (ex : List Nat) => (near s k ex).foldl
    (fun (s : State) (e : Nat × Access) => s.fillLoc k.core e.2.loc 128) (ps s k ex).1
  let recs := fun (s : State) (k : Iss) (ex : List Nat) => (near s k ex).map fun e =>
    (e.1, BitVec.ofNat 1024 (leValue ((filled s k ex).laneBytes k.team (lead s k ex e.1) e.2.loc 128)))
  CompletesIf (.shape w) w.c
    (fun s k ex => AllPass (ps s k ex).2 ∧
      (∀ e ∈ places (near s k ex), (ps s k ex).1.consumes k.core e.1 e.2 = false) ∧
      ∀ r ∈ recs s k ex, shapeOk r.2 = true)
    fun s k ex =>
      let q := (filled s k ex).spinReads k (((near s k ex).zip (recs s k ex)).map fun e => (e.1.2.loc, 128, e.2.2.toNat))
      if far s k ex = [] then (recs s k ex).foldl (fun (s : State) (r : Nat × BitVec 1024) =>
          s.modWarp k.team r.1 fun x => { x with regs := { x.regs with shape := r.2 } }) q
      else q.askShapes k ex (far s k ex) (recs s k ex)) ∧
  (let ps := fun (s : State) (k : Iss) (ex : List Nat) => s.probePads k ex (fun i => s.padOff w k.team i) 16
  CompletesIf (.swinit w) w.c (fun s k ex => AllPass (ps s k ex))
    fun s k ex => (passed (ps s k ex)).foldl (fun (s : State) (e : Nat × Access) => match e.2.loc with
      | .pad u off => (s.padPut u off (leBytes 4 (s.opnd k.team e.1 w.dst 1) ++ leBytes 4 0)).padPut u (off + 12) (leBytes 4 0)
      | _ => s) s)

/-- R160, R192, R193: SEAL gives the number of the open batch and opens the next, or waits at its word with 15 sealed
batches incomplete; WAITB waits for batches up to n, seals the open one where n names it, and acquires; SWWAIT waits while
a sync word's GEN is the one given, and acquires. R36: when a WAITB's or an SWWAIT's wait is over, its threads go on after
the word, with an acquire.
The model's choices: log entries 27 and 57. -/
def Obligations.BatchAndSyncWaits : Prop := ∀ (w : FA) (v : FM),
  (Completes (.seal w) w.c fun s k ex =>
    let full := ex.filter fun i => decide (15 ≤ s.sealedOpen k.team i)
    let go := ex.filter fun i => !full.contains i
    let s := s.putAll k.team w.dst 1 (go.map fun i => (i, (s.thread k.team i).batch.toNat))
    let s := go.foldl (fun (s : State) (i : Nat) => s.modThread k.team i Thread.seal) s
    full.foldl (fun (s : State) (i : Nat) => s.block k.team i .seal) s) ∧
  (let n := fun (s : State) (k : Iss) (i : Nat) => BitVec.ofNat 32 (s.opnd k.team i w.sa 1)
  CompletesIf (.waitb w) w.c
    (fun s k ex => (∀ i ∈ ex, s.syncOpen k.team i = false) ∧
      (∀ i ∈ ex, s.guardWait k.team ((s.team k.team).warpOf i) (fun c =>
        c.joins.any fun j => j.1 == i && atOrBefore j.2 (n s k i)) = false) ∧
      ∀ i ∈ ex, s.batchesDone k.team i (n s k i) = true → firstFault (s.thread k.team i).faults
        (fun f => atOrBefore f.batch (n s k i)) = none)
    fun s k ex =>
      let wait := (ex.filter fun i => !s.batchesDone k.team i (n s k i)).map fun i => (i, n s k i)
      let go := (ex.filter fun i => s.batchesDone k.team i (n s k i)).map fun i => (i, n s k i)
      let s' := (wait ++ go).foldl (fun (r : State) (e : Nat × Word) => r.modThread k.team e.1 fun x =>
        if atOrBefore x.batch e.2 then x.seal else x) s
      let s' := wait.foldl (fun (r : State) (e : Nat × Word) => r.block k.team e.1 (.waitb e.2)) s'
      if go.isEmpty then s' else s'.acquire k.core) ∧
  (let ps := fun (s : State) (k : Iss) (ex : List Nat) => s.probePads k ex (fun i => s.padOff v k.team i) 16
  let offs := fun (s : State) (k : Iss) (ex : List Nat) => (passed (ps s k ex)).filterMap fun e =>
    match e.2.loc with | .pad _ off => some (e.1, off) | _ => none
  let rd := fun (s : State) (k : Iss) (off j : Nat) => leValue ((s.team k.team).pad.readN (off + 4 * j) 4)
  CompletesIf (.swwait v) v.c
    (fun s k ex => AllPass (ps s k ex) ∧ (∀ i ∈ ex, s.syncOpen k.team i = false) ∧
      (∀ e ∈ offs s k ex, rd s k e.2 3 = 0 ∧
        (s.cmds.any fun c => c.team == k.team && c.warp == (s.team k.team).warpOf e.1 && c.guard.isSome &&
          c.sync == some e.2) = false) ∧
      ∀ e ∈ offs s k ex, firstFault (s.thread k.team e.1).faults (fun f => f.sync == some e.2) = none)
    fun s k ex =>
      let wait := (offs s k ex).filter fun e => rd s k e.2 2 == s.opnd k.team e.1 v.dst 1
      let go := (offs s k ex).filter fun e => !wait.contains e
      let s' := wait.foldl (fun (s' : State) (e : Nat × Nat) =>
        s'.block k.team e.1 (.swwait e.2 (BitVec.ofNat 32 (s.opnd k.team e.1 v.dst 1)))) s
      if go.isEmpty then s' else s'.acquire k.core) ∧
  ∀ (i : Instr) (c : Common) (s : State) (k : Iss), (i = .waitb w ∧ c = w.c) ∨ (i = .swwait v ∧ c = v.c) →
    s.iss = some k → (s.thread k.team (k.threads.headD 0)).released = true →
    (∀ j ∈ k.threads, (s.thread k.team j).due = none) →
    let r := k.threads.foldl (fun (r : State) (j : Nat) => r.modThread k.team j fun x => { x with due := none })
      (s.acquire k.core)
    exec i s = .next (r.finish k c (k.threads.filter fun j => (r.thread k.team j).skip ≤ k.pos) {})

/-! ### Control, barriers, records and agreement -/

/-- R232, R233, R208: JMPI sends each executing thread to the address in its pair SA, CALLI writes the link pair too;
MEETSET sets MEET to its clause's address plus 8 times the signed offset, or to the address in SA, and MTAG to the number
of the issue group; meetset.clr sets MEET to 1 and MTAG to 0. R209, R210: a thread that an earlier meeting left behind belongs to
the meeting set of its new MEET and MTAG. -/
def Obligations.TransfersAndMeetings : Prop := ∀ w : FA,
  let dest := fun (s : State) (k : Iss) (ex : List Nat) =>
    ex.map fun i => (i, BitVec.ofNat 64 (s.opnd k.team i w.sa 2))
  let meet := fun (s : State) (k : Iss) (ex : List Nat) (a : Nat → DWord) (tag : BitVec 16) =>
    ex.foldl (fun (r : State) (i : Nat) =>
      let v := a i
      r.modThread k.team i fun x => { x with meet := v, mtag := tag, alone := false }) s
  let off : BitVec 24 := (w.sa ++ w.sb ++ w.sc).cast (by decide)
  (∀ (s : State) (k : Iss), Stands s k (.jmpi w) w.c → exec (.jmpi w) s =
    .next ((s.settled k (.jmpi w) w.c).after k (.jmpi w) w.c (s.runs k w.c)
      { targets := dest (s.settled k (.jmpi w) w.c) k (s.runs k w.c), link := false })) ∧
  (∀ (s : State) (k : Iss), Stands s k (.calli w) w.c → exec (.calli w) s =
    .next ((s.settled k (.calli w) w.c).after k (.calli w) w.c (s.runs k w.c)
      { targets := dest (s.settled k (.calli w) w.c) k (s.runs k w.c), link := true })) ∧
  (Completes (.meetset w) w.c fun s k ex =>
    meet s k ex (fun _ => k.clause.addr + 8 * off.signExtend 64) (BitVec.ofNat 16 k.num)) ∧
  (Completes (.meetsetR w) w.c fun s k ex =>
    ex.foldl (fun (r : State) (i : Nat) =>
      let v := BitVec.ofNat 64 (s.opnd k.team i w.sa 2)
      r.modThread k.team i fun x => { x with meet := v, mtag := BitVec.ofNat 16 k.num, alone := false }) s) ∧
  (Completes (.meetsetClr w) w.c fun s k ex => meet s k ex (fun _ => 1) 0)

/-- R216, R234, R235: the arrive form counts one arrival of each executing thread, once its stores are acknowledged, and
gives the GEN before it; the wait form waits while GEN is the one given, else it acquires; the sync form arrives, then
waits on the GEN before its arrival. The same holds of span barriers. -/
def Obligations.BarrierFormsArriveAndWait : Prop := ∀ w : FA,
  let id := (w.sc.extractLsb' 0 4).toNat
  let arrive := fun (i : Instr) (span : Bool) => ∀ r, CompletesIf i w.c
    (fun s k ex => s.release k.team ex = some r) fun _ k ex =>
      let a := r.arriveAll span k.team id ex
      a.1.putAll k.team w.dst 1 (a.2.map fun e => (e.1, e.2.toNat))
  let wait := fun (i : Instr) (span : Bool) => CompletesIf i w.c (fun s k ex => ∀ j ∈ ex, s.syncOpen k.team j = false)
    fun s k ex => s.barWaits span k id (ex.map fun j => (j, BitVec.ofNat 32 (s.opnd k.team j w.sa 1)))
  let sync := fun (i : Instr) (span : Bool) => ∀ r, CompletesIf i w.c
    (fun s k ex => s.release k.team ex = some r) fun _ k ex =>
      let a := r.arriveAll span k.team id ex
      a.1.barWaits span k id a.2
  arrive (.barArrive w) false ∧ wait (.barWait w) false ∧ sync (.barSync w) false ∧
  arrive (.sbarArrive w) true ∧ wait (.sbarWait w) true ∧ sync (.sbarSync w) true

/-- R217: an arrival that does not reach EXPECT adds one to ARRIVED and changes nothing else of the record; the one that
reaches it adds one to GEN, clears ARRIVED and WAITING, and releases the record's waiters. R216: the record in the save
area is written with it. The thread keeps the generation that it arrived in, which says whom a generation still awaits (R211). -/
def Obligations.BarrierGenerationCompletes : Prop := ∀ (s : State) (t id i : Nat) (b : BarRec),
  t < s.teams.length → (s.team t).bars[id]? = some b → b.arrived.toNat + 1 < 2 ^ 32 →
  let q := s.modThread t i fun x => { x with came := x.came.filter (fun e => e.1 != id) ++ [(id, b.gen)] }
  (b.arrived.toNat + 1 < b.expect.toNat →
    s.arrive false t id i =
      (q.modTeam t fun m => { m with bars := m.bars.set id { b with arrived := b.arrived + 1 } }).putBar t id) ∧
  (b.expect.toNat ≤ b.arrived.toNat + 1 →
    let r := (q.modTeam t fun m =>
      { m with bars := m.bars.set id { b with gen := b.gen + 1, arrived := 0, waiting := false, waiters := 0 } }).putBar t id
    s.arrive false t id i = r.unblock t (r.waiting t fun _ v => match v with | .bar k _ => k == id | _ => false) true)

/-- R220, R237 to R239: WATCH, whose translations need nothing of another chip, arms the sectors of its executing threads, at most
four for a home warp, of which one that a watch names already adds none; watch.clr empties the set; WAIT goes on where the warp is
already woken or watches nothing, else its threads wait; SLEEP waits for the nanoseconds in SA, and not for 0.
The model's reading: a watch on what is absent (log entry 31). -/
def Obligations.WatchWaitAndSleep : Prop := ∀ (w : FM) (v : FA) (n : FN),
  (let ps := fun (s : State) (k : Iss) (ex : List Nat) =>
    probeEach (fun (s : State) (i : Nat) => s.watchSector w k.team i) s ex
  let names := fun (s : State) (l : Loc) => match l with
    | .away t va => (match s.lookPlace t va with | some p => p.sector | none => l)
    | _ => l
  let set := fun (s : State) (k : Iss) (ex : List Nat) (h : Nat) =>
    (((passed (ps s k ex).2).filter fun e => ((ps s k ex).1.team k.team).warpOf e.1 == h).map Prod.snd).foldl
      (fun (r : List Loc) l => if r.any fun a => names (ps s k ex).1 a == names (ps s k ex).1 l then r else r ++ [l])
      ((ps s k ex).1.warp k.team h).watches
  CompletesIf (.watch w) w.c
    (fun s k ex => faultReps (ps s k ex).2 = [] ∧ (∀ e ∈ missingPages (ps s k ex).2, e.far = false) ∧
      ∀ h ∈ (ps s k ex).1.warpsOf k.team ex, (set s k ex h).length ≤ 4)
    fun s k ex => ((ps s k ex).1.warpsOf k.team ex).foldl (fun (r : State) (h : Nat) =>
      let l := set s k ex h
      l.foldl (fun (r : State) (a : Loc) => r.dropSector k.core (names r a))
        (r.modWarp k.team h fun x =>
          { x with watches := l, wake := false, unreg := x.unreg ++ l.filter fun a => !x.watches.contains a }))
      (ps s k ex).1) ∧
  (Completes (.watchClr w) w.c fun s k ex => (s.warpsOf k.team ex).foldl (fun (s : State) (h : Nat) =>
    s.modWarp k.team h fun x => { x with watches := [], unreg := [] }) s) ∧
  (Completes (.wait n) n.c fun s k ex => (s.warpsOf k.team ex).foldl (fun (s : State) (h : Nat) =>
    if (s.warp k.team h).watches.isEmpty then s
    else if (s.warp k.team h).wake then s.modWarp k.team h fun x => { x with wake := false }
    else (s.ofWarp k.team h ex).foldl (fun (s : State) (i : Nat) => s.block k.team i .watch) s) s) ∧
  (Completes (.sleep v) v.c fun s k ex => ex.foldl (fun (s : State) (i : Nat) =>
    if s.opnd k.team i v.sa 1 = 0 then s else s.block k.team i (.sleep (s.clk + s.opnd k.team i v.sa 1))) s)

/-- R247 to R250: where no home warp is split, unbound or without an abort target, CBR is a release, then the warp's
contribution and its wait or prediction; CBSYNC waits for the warp's outstanding branch; cbsync.abort aborts the warp's next sequence.
The model's choices: log entry 35. -/
def Obligations.AgreementWordsContribute : Prop := ∀ w : FA,
  (∀ r, CompletesIf (.cbr w) w.c (fun s k ex => s.branchFaults k.team ex = [] ∧ s.release k.team ex = some r)
    fun _ k ex => (r.warpsOf k.team ex).foldl (fun (s : State) (h : Nat) => s.branch k w h (s.ofWarp k.team h ex)) r) ∧
  (CompletesIf (.cbsync w) w.c (fun s k ex => s.branchFaults k.team ex = []) fun s k ex =>
    (s.warpsOf k.team ex).foldl (fun (s : State) (h : Nat) => s.syncWarp k.team h (s.ofWarp k.team h ex)) s) ∧
  (CompletesIf (.cbsyncAbort w) w.c (fun s k ex => s.branchFaults k.team ex = []) fun s k ex =>
    (s.warpsOf k.team ex).foldl (fun (s : State) (h : Nat) => s.abortWarp k.team h (s.ofWarp k.team h ex)) s)

/-- R240, R244, R245: GRES resolves a guard slot of each home warp with the scalar in SA; LAUNCH, after a release, appends
each thread's packet and gives its index, or 0xFFFFFFFF where the queue takes none; SIGNAL, after a release, writes SB
and with CTL[0] raises its interrupt.
The model's choice: a queue that is disabled or halted takes no packet (log entry 32). -/
def Obligations.GuardLaunchAndSignal : Prop := ∀ w : FA,
  (Completes (.gres w) w.c fun s k ex => (s.warpsOf k.team ex).foldl (fun (s : State) (h : Nat) =>
    s.resolve k.team h (w.sc.extractLsb' 0 3).toNat (s.opnd k.team ((s.ofWarp k.team h ex).headD 0) w.sa 1 != 0)) s) ∧
  (let q := fun (s : State) (k : Iss) (i : Nat) => s.src k.team i w.sb w.sc 1
  let ps := fun (s : State) (k : Iss) (ex : List Nat) => probeEach (fun (r : State) (i : Nat) =>
    match r.probe16 k.team i (r.opnd k.team i w.sa 2 : Int) 64 64 with
    | (r, .ok l x) =>
      if 64 ≤ q s k i ∨ (r.iface (q s k i)).owner ≠ (r.ctxOf k.team).part then (r, .error (.fault fLaunchq 0 false))
      else (r, .ok ({ loc := l, page := x, scale := none, size := 64 } : Access))
    | (r, p) => (r, .error p)) s ex
  let filled := fun (s r : State) (k : Iss) (ex : List Nat) => (passed (ps s k ex).2).foldl
    (fun (s : State) (e : Nat × Access) => s.fillLoc k.core e.2.loc 64) r
  ∀ r, CompletesIf (.launch w) w.c
    (fun s k ex => AllPass (ps s k ex).2 ∧ (ps s k ex).1.release k.team ex = some r ∧
      ∀ e ∈ places (passed (ps s k ex).2), r.consumes k.core e.1 e.2 = false)
    fun s k ex =>
      let out := (passed (ps s k ex).2).foldl (fun (a : State × List (Nat × Nat)) (e : Nat × Access) =>
        match a.1.append (q s k e.1) (a.1.laneWords k.team e.1 e.2.loc 8) with
        | (s, some n) => (s, a.2 ++ [(e.1, n)])
        | (s, none) => (s, a.2 ++ [(e.1, 0xFFFFFFFF)])) (filled s r k ex, [])
      out.1.putAll k.team w.dst 1 out.2) ∧
  (let ps := fun (s : State) (k : Iss) (ex : List Nat) => probeEach (fun (r : State) (i : Nat) =>
    r.access k.team i (r.opnd k.team i w.sa 2 : Int) 8 8 { write := true, line := true }) s ex
  ∀ r, CompletesIf (.signal w) w.c (fun s k ex => AllPass (ps s k ex).2 ∧ (ps s k ex).1.release k.team ex = some r)
    fun s k ex => (passed (ps s k ex).2).foldl (fun (s : State) (e : Nat × Access) =>
      let s := s.storeHome k e.1 e.2.loc (leBytes 8 (s.opnd k.team e.1 w.sb 2))
      if w.ctl.getLsbD 0 then s.coalesce (s.launch (s.team k.team).launch).iface (w.sc.extractLsb' 0 2).toNat else s) r)

/-- R227, R241 to R243: RECA allocates the lowest free slot of the slice for each thread and gives its address, or waits;
RECC, after a release, commits the records whose addresses SA holds; RECF frees each thread's delivered record.
The model's choice: which die doses a graph is free (log entry 8). -/
def Obligations.RecordsAreAllocatedCommittedAndFreed : Prop := ∀ w : FA,
  (CompletesIf (.reca w) w.c
    (fun s k ex => ∀ i ∈ ex, s.recaCheck k.team (s.opnd k.team i w.sa 1) (s.src k.team i w.sb w.sc 1) = none)
    fun s k ex => (ex.map fun i => (i, s.opnd k.team i w.sa 1, s.src k.team i w.sb w.sc 1)).foldl
      (fun (s : State) (a : Nat × Nat × Nat) => match (s.team k.team).node with
        | none => s
        | some (g, _, _) => match (s.graph g).lowest a.2.1 a.2.2 with
          | none => s.block k.team a.1 (.recq a.2.1 a.2.2)
          | some j =>
            let r : RecSlot := { graph := g, node := a.2.1, level := a.2.2, slot := j }
            ((s.modGraph g fun x => x.setSlot r .allocated).modThread k.team a.1 fun x =>
              { x with recs := x.recs ++ [r] }).putReg k.team a.1 w.dst 2 (((s.graph g).node a.2.1).slotAddr a.2.2 j)) s) ∧
  (∀ r, CompletesIf (.recc w) w.c
    (fun s k ex => (∀ i ∈ ex, (s.recAt k.team i (s.opnd k.team i w.sa 2)).isSome = true) ∧
      s.release k.team ex = some r)
    fun s k ex => (ex.map fun i => (i, s.recAt k.team i (s.opnd k.team i w.sa 2))).foldl
      (fun (s : State) (e : Nat × Option RecSlot) => match e.2 with
        | some x => s.recCommit k.team e.1 x
        | none => s) r) ∧
  (Completes (.recf w) w.c fun s k ex => ex.foldl (fun (s : State) (i : Nat) =>
    match (s.thread k.team i).delivered with
    | some r => (s.modThread k.team i fun x => { x with delivered := none }).freeSlot r
    | none => s) s)

/-! ### Emulated words, software traps and breakpoints -/

/-- R8, R55, R57: the features of DIV, REM and FDIV are not present, so these words enter the emulation handler, for every
active thread, with EMASK the threads that execute them.
The model's reading of the emulation windows: log entry 4. -/
def Obligations.DivisionEntersTheEmulationHandler : Prop := ∀ (w : FA) (i : Instr),
  i = .div w ∨ i = .rem w ∨ i = .fdiv w → ∀ (s : State) (k : Iss), s.iss = some k →
  (s.thread k.team (k.threads.headD 0)).released = false → breaks k.clause.brk k.pc = false →
  (s.guarded k w.c).guardOpen k w.c = false → Common.ofWord (k.clause.word k.pos) = w.c →
  exec i s = .next ((s.guarded k w.c).raiseAt k
    { threads := k.threads, raised := k.threads, epc := k.pc, pos := k.pos, exec := s.runs k w.c,
      reps := (s.runs k w.c).map fun j => (j, { code := 0x22, addr := k.pc.toNat }),
      emu := some { cls := k.clause.hdr.cls.toNat, word := k.clause.word k.pos,
                    edec := edecOf ((s.guarded k w.c).team k.team).vregs k.clause.hdr.cls.toNat (k.clause.word k.pos) (some i),
                    control := controlCase k w.c (some i), instr := some i } })

/-- R246: TRAP raises SOFT, code 1E, with its SC in the record, for each executing thread. R54, R312: BRK raises BREAK,
code 1F, for every active thread, before anything else of it is looked at.
The model's choices: log entries 24 and 39. -/
def Obligations.TrapAndBreakRaise : Prop :=
  (∀ (w : FA) (s : State) (k : Iss), Stands s k (.trap w) w.c → s.runs k w.c ≠ [] →
    exec (.trap w) s = .next ((s.settled k (.trap w) w.c).raiseAt k
      { threads := k.threads, raised := s.runs k w.c, epc := k.pc, pos := k.pos, exec := s.runs k w.c,
        reps := (s.runs k w.c).map fun j => (j, { code := 0x1E, value := w.sc.toNat }) })) ∧
  (∀ (cls : BitVec 2) (rest : BitVec 56) (s : State) (k : Iss), s.iss = some k → k.threads ≠ [] →
    (s.thread k.team (k.threads.headD 0)).released = false →
    exec (.brk cls rest) s = .next (s.raiseAt k
      { threads := k.threads, raised := k.threads, epc := k.pc, pos := k.pos,
        exec := s.exec1 k (Common.ofWord (rest.setWidth 64)),
        reps := k.threads.map fun j => (j, { code := 0x1F, addr := k.pc.toNat }) }))

/-! ### Matrix words -/

/-- R135 to R137, R147 to R149: where the tests of every home warp pass, ALLOC grants the free banks of its range, or waits
where another home warp of the issue has just taken one of them for another gang; FREE returns them, and home warps that name the
gang of an earlier one of the issue come to the word after that (R136); ACZ zeroes them, ACRD
issues the words that its threads' indices name, ACWR writes them, and ACLD and ACST start an engine move; each of them but
ALLOC and FREE is put behind the commands on its banks that are not done.
The model's choices: log entries 33 and 54. -/
def Obligations.BankCommandsAct : Prop := ∀ w : FX,
  let bs := range w.bank (2 ^ w.nlog)
  let after := fun (r : State × List (Nat × Mtx)) (k : Iss) (ex : List Nat) (go : State → Nat → List Nat → Drain → State) =>
    r.2.foldl (fun (s : State) (e : Nat × Mtx) => match e.2 with
      | .ready d => go s e.1 (s.ofWarp k.team e.1 ex) d
      | .wait v => (s.ofWarp k.team e.1 ex).foldl (fun (s : State) (i : Nat) => s.block k.team i v) s
      | _ => s) r.1
  let behind := fun (s : State) (k : Iss) (v : Nat) (op : SeqOp) =>
    ({ s with nextId := s.nextId + 1 } : State).modSeq k.core k.part fun q =>
      q ++ [{ id := s.nextId, gang := s.gangOf k.team v, bank := w.bank, count := 2 ^ w.nlog, op }]
  let index := fun (s : State) (k : Iss) (i : Nat) => s.opnd k.team i w.sa 1 % (4096 * 2 ^ w.nlog)
  let ready := fun (s : State) (k : Iss) (v : Nat) (here : List Nat) => s.mtxReady k v w.bank (2 ^ w.nlog) here
  (CompletesIf (.alloc w) w.c (fun s k ex => AllReady (s.mtxTests k ex fun s v here => s.allocTest k w v here).2)
    fun s k ex => after (s.mtxTests k ex fun s v here => s.allocTest k w v here) k ex fun s v here _ =>
      if s.foreign k.core k.part (s.gangOf k.team v) bs then
        here.foldl (fun (s : State) (i : Nat) => s.block k.team i (.alloc w.bank (2 ^ w.nlog))) s
      else bs.foldl (fun (r : State) (b : Nat) => if (r.bank k.core k.part b).owner.isNone then
        r.modBank k.core k.part b fun _ => { AccBank.reset with owner := some (s.gangOf k.team v) } else r) s) ∧
  (let freed := fun (s : State) (k : Iss) =>
    (bs.foldl (fun (s : State) (j : Nat) => s.modBank k.core k.part j AccBank.freed) s).wakeAlloc k.core k.part
  (CompletesIf (.free w) w.c
    (fun s k ex => s.sameGang k.team ex = [] ∧ AllReady (s.mtxTests k ex fun s v here => s.freeTest k w v here).2)
    fun s k ex => after (s.mtxTests k ex fun s v here => s.freeTest k w v here) k ex fun s _ _ _ => freed s k) ∧
  ∀ (s : State) (k : Iss), Stands s k (.free w) w.c →
    let q := s.settled k (.free w) w.c
    let ex := s.runs k w.c
    let late := q.sameGang k.team ex
    let ms := q.mtxTests k ex fun s v here => if late.contains (here.headD 0) then (s, .ready .clear) else s.freeTest k w v here
    late ≠ [] → AllReady ms.2 →
    let r := after ms k ex fun s _ here _ => if late.contains (here.headD 0) then s else freed s k
    exec (.free w) s = .next (((r.ungroup k.team late).finish (k.without late) w.c (ex.filter fun i => !late.contains i) {}).tidy k.team)) ∧
  (CompletesIf (.acz w) w.c (fun s k ex => AllReady (s.mtxTests k ex fun s v here => ready s k v here).2)
    fun s k ex => after (s.mtxTests k ex fun s v here => ready s k v here) k ex fun s v _ d => match d with
      | .clear => bs.foldl (fun (s : State) (b : Nat) => s.modBank k.core k.part b fun x => { x with words := [] }) s
      | _ => behind s k v .acz) ∧
  (CompletesIf (.acrd w) w.c (fun s k ex => AllReady (s.mtxTests k ex fun s v here => ready s k v here).2)
    fun s k ex => after (s.mtxTests k ex fun s v here => ready s k v here) k ex fun s v here d => match d with
      | .clear => s.issueResults k w.c w.dst (if w.w64 then 2 else 1) (here.map fun i =>
          (i, some (s.accRead k.core k.part w.bank (index s k i) w.w64), none))
      | _ => (here.map fun i => (i, index s k i)).foldl
          (fun (r : State) (e : Nat × Nat) => behind r k v (.acrd k.team e.1 s.nextId e.2 w.w64))
          (s.issueResults k w.c w.dst (if w.w64 then 2 else 1) (here.map fun i => (i, none, none)))) ∧
  (CompletesIf (.acwr w) w.c (fun s k ex => AllReady (s.mtxTests k ex fun s v here => ready s k v here).2)
    fun s k ex => after (s.mtxTests k ex fun s v here => ready s k v here) k ex fun s v here d =>
      let ws := here.flatMap fun i =>
        let n := index s k i
        let x := s.opnd k.team i w.sb (if w.w64 then 2 else 1)
        if w.w64 then [(n / 2 * 2, BitVec.ofNat 32 x), (n / 2 * 2 + 1, BitVec.ofNat 32 (x / 2 ^ 32))]
        else [(n, BitVec.ofNat 32 x)]
      match d with
      | .clear => ws.foldl (fun (s : State) (e : Nat × Word) => s.setAcc k.core k.part w.bank e.1 e.2) s
      | _ => behind s k v (.acwr ws)) ∧
  (CompletesIf (.acld w) w.c (fun s k ex => AllReady (s.mtxTests k ex fun s v here => s.acldTest k w v here).2)
    fun s k ex => after (s.mtxTests k ex fun s v here => s.acldTest k w v here) k ex fun s v here _ =>
      s.startMove k v w.bank (2 ^ w.nlog) here
        (.acld (s.opnd k.team (here.headD 0) w.sa 2) w.bank (2 ^ w.nlog) k.core k.part) (List.range (128 * 2 ^ w.nlog)) .acld) ∧
  (CompletesIf (.acst w) w.c (fun s k ex => AllReady (s.mtxTests k ex fun s v here => s.acstTest k w v here).2)
    fun s k ex => after (s.mtxTests k ex fun s v here => s.acstTest k w v here) k ex fun s v here _ =>
      s.acstGo k w v here)

/-- R147: where every home warp's tests pass with no earlier command on the range, ACZ completes in a state that has +0 in
every word of its range, and in which no bank's faulted state or owner has changed since the tests, nor any bank outside the
range; and an ACZ that was put behind earlier commands does the same to its range when it is done (R129), once the banks of it
that were spilled are back (R138). -/
def Obligations.AczZeroesItsRange : Prop :=
  let zeroed := fun (q z : State) (c p b n : Nat) =>
    (∀ j, j < 4096 * n → z.accWord c p b j = 0) ∧
    (∀ c' p' b', (z.bank c' p' b').fault = (q.bank c' p' b').fault ∧ (z.bank c' p' b').owner = (q.bank c' p' b').owner) ∧
    ∀ c' p' b', ¬ (c' = c ∧ p' = p ∧ b ≤ b' ∧ b' < b + n) → z.bank c' p' b' = q.bank c' p' b'
  (∀ (s : State) (k : Iss) (w : FX), Stands s k (.acz w) w.c → s.runs k w.c ≠ [] →
    (∀ j ∈ s.runs k w.c, (s.team k.team).warpOf j < (s.team k.team).nWarps) →
    let q := (s.settled k (.acz w) w.c).mtxTests k (s.runs k w.c) fun s v here => s.mtxReady k v w.bank (2 ^ w.nlog) here
    (∀ e ∈ q.2, e.2 = .ready .clear) →
    ∃ z, exec (.acz w) s = .next (z.after k (.acz w) w.c (s.runs k w.c) {}) ∧
      zeroed q.1 z k.core k.part w.bank (2 ^ w.nlog)) ∧
  ∀ (s r : State) (c p : Nat) (q : SeqCmd), q.op = .acz → s.bring c p q.gang (range q.bank q.count) = some r →
    (s.seqDo c p q).2 = true ∧ zeroed r (s.seqDo c p q).1 c p q.bank q.count

/-- R132, R133, R140, R145: where every home warp's gang is valid and the first arrival's banks and record pass, MMA is a
release, then each home warp arrives at its gang's latch: the first captures the word, record, VCNT and MPROG; the last
has the product accepted; the others wait.
The model's choices: log entry 33, and log entry 54 for a home warp that has arrived already. -/
def Obligations.MmaArrivesAtItsLatch : Prop := ∀ w : FX,
  let bad := fun (s : State) (k : Iss) => match (Instr.mma w).staticCase with
    | some c => some c
    | none => s.ctxCase k (.mma w) w.c
  ∀ r, CompletesIf (.mma w) w.c
    (fun s k ex =>
      let ws := s.warpsOf k.team ex
      (∀ v ∈ ws, s.gangValid k.team v = true ∧ (s.latch (s.gangOf k.team v) = none →
        (∀ u ∈ ws, u < v → s.gangOf k.team u ≠ s.gangOf k.team v) → bad s k = none →
          s.mmaCheck k w v (s.ofWarp k.team v ex) = none)) ∧
      s.release k.team (ws.flatMap fun v => (s.team k.team).members v) = some r)
    fun s k ex => (s.warpsOf k.team ex).foldl (fun (r : State) (v : Nat) =>
      let here := r.ofWarp k.team v ex
      let g := r.gangOf k.team v
      let x := r.warp k.team v
      let fresh : Latch :=
        { id := r.nextId, gang := g, word := k.clause.word k.pos, pc := k.pc,
          record := (List.range 8).map fun j => x.regs.s.getD (w.sa.toNat - 0xC0 + j) 0, vcnt := x.regs.vcnt,
          mprog := x.regs.mprog, guard := if w.gd = 1 then some (v, w.gs.toNat) else none, bad := bad s k,
          control := controlCase k w.c (some (.mma w)), arrived := [] }
      let r := if (r.latch g).isNone then ({ r with nextId := r.nextId + 1 } : State).modTeam k.team fun m =>
        { m with latches := m.latches ++ [fresh] } else r
      match r.latch g with
      | none => r
      | some l =>
        let bank := bits l.word.toNat 7 4
        if r.latchFull { l with arrived := l.arrived ++ [v] } ∧ l.bad.isNone ∧ r.foreign k.core k.part g (range bank 4) then
          here.foldl (fun (r : State) (i : Nat) => r.block k.team i (.alloc bank 4)) r
        else
          let r := r.arriveLatch g v
          match r.latch g with
          | none => r
          | some l =>
            let stay := if l.bad.isNone then here else r.ofWarp k.team v k.threads
            let held := stay.foldl (fun (r : State) (i : Nat) => r.block k.team i (.gang l.id)) r
            if l.bad.isNone ∧ r.latchFull l then r.accept l else if held.latchFull l then held.enterLatch l else held) r

/-- R94: the dot product of two rows of integers, taken in the three residue channels and recombined, is the exact one, for
every pair of rows of Q8 and of Q4 and for every byte pass of a B16 pair; and a K row leaves the accumulator's value plus
that dot product at the rows' scales, rounded once to f32. -/
def Obligations.ResidueChannelsGiveTheExactDotProduct : Prop := ∀ (xs ys : List Int),
  xs.length = ys.length →
  (xs.length ≤ 128 ∧ (∀ x ∈ xs, -128 ≤ x ∧ x ≤ 127) ∧ (∀ y ∈ ys, -128 ≤ y ∧ y ≤ 127)) ∨
    (xs.length ≤ 256 ∧ (∀ x ∈ xs, -8 ≤ x ∧ x ≤ 7) ∧ (∀ y ∈ ys, -8 ≤ y ∧ y ≤ 7)) ∨
    (xs.length ≤ 64 ∧ (∀ x ∈ xs, -255 ≤ x ∧ x ≤ 255) ∧ (∀ y ∈ ys, -255 ≤ y ∧ y ≤ 255)) →
  let channel := fun (m : Int) => ((xs.zip ys).map fun p => p.1 % m * (p.2 % m)).foldl (fun a b => (a + b) % m) 0
  let y := (channel 255 * 65792 * 128 + channel 256 * 65535 * 255 + channel 257 * 65280 * 129) % 16776960
  let x := if 8388480 ≤ y then y - 16776960 else y
  dot xs ys = x ∧
  ∀ (c : Word) (ea eb : Int), accumulate c { bad := false, xs := xs, e := ea } { bad := false, xs := ys, e := eb } =
    BitVec.ofNat 32 (fm32.addAll 0 false [fm32.read false c.toNat, .fin (decide (x < 0)) x.natAbs (ea + eb)])

/-! ### Engine commands and collectives -/

/-- R195 to R199, R202: where no check of R195 fails, CPY, CPYG, CPYS and WALK start a command for each executing thread
and CPYT for each home warp; a guarded one is held in its slot; a CPY of no bytes starts nothing.
The model's choices: log entries 36 and 37. -/
def Obligations.EngineWordsStartCommands : Prop := ∀ w : FX,
  let guard := if w.gd = 1 then some w.gs.toNat else none
  let sync := fun (s : State) (k : Iss) (i : Nat) => if w.sw then some (s.opnd k.team i w.swreg 1) else none
  let syncOk := fun (s : State) (k : Iss) (i dst n : Nat) =>
    s.syncBad k.team (sync s k i) = false ∧ ((sync s k i).isSome = true → s.inOwn k.team dst n = true)
  let quad := fun (s : State) (k : Iss) (i : Nat) => s.opnd k.team i w.sb 4
  let idx := fun (s : State) (k : Iss) (i : Nat) => quad s k i % 2 ^ 64
  let cnt := fun (s : State) (k : Iss) (i : Nat) => quad s k i / 2 ^ 64 % 2 ^ 32
  let wid := fun (s : State) (k : Iss) (i : Nat) => 2 ^ (quad s k i / 2 ^ 96 % 8)
  let long := fun (s : State) (k : Iss) (i : Nat) => 4096 < cnt s k i ∨ 65536 < cnt s k i * wid s k i ∨ quad s k i / 2 ^ 99 % 2 ^ 29 ≠ 0
  (CompletesIf (.cpy w) w.c
    (fun s k ex => ∀ i ∈ ex, let src := s.opnd k.team i w.sa 2; let dst := s.opnd k.team i w.dst 2
      let n := s.opnd k.team i w.sb 1
      n ≤ 65536 ∧ s.rangeFaults k.team (s.privileged k.team i) [(src, n, 1), (dst, n, 1)] = none ∧
        meets src n dst n = false ∧ syncOk s k i dst n)
    fun s k ex => ex.foldl (fun (r : State) (i : Nat) =>
      let dst := s.opnd k.team i w.dst 2
      let n := s.opnd k.team i w.sb 1
      if n = 0 then r else r.startCmd k guard [i] (.cpy dst (s.opnd k.team i w.sa 2) n) (blocks dst n) (sync s k i)) s) ∧
  (CompletesIf (.cpyg w) w.c
    (fun s k ex => ∀ i ∈ ex, let dst := s.opnd k.team i w.dst 2
      ¬ long s k i ∧ s.rangeFaults k.team (s.privileged k.team i)
        [(dst, cnt s k i * wid s k i, 1), (idx s k i, 4 * cnt s k i, 1)] = none ∧
        syncOk s k i dst (cnt s k i * wid s k i))
    fun s k ex => ex.foldl (fun (r : State) (i : Nat) =>
      let dst := s.opnd k.team i w.dst 2
      r.startCmd k guard [i] (.cpyg dst (s.opnd k.team i w.sa 2) (idx s k i) (cnt s k i) (wid s k i) none)
        (blocks dst (cnt s k i * wid s k i)) (sync s k i)) s) ∧
  (CompletesIf (.cpys w) w.c
    (fun s k ex => ∀ i ∈ ex, let src := s.opnd k.team i w.sa 2
      ¬ long s k i ∧ s.rangeFaults k.team (s.privileged k.team i)
        [(src, cnt s k i * wid s k i, 1), (idx s k i, 4 * cnt s k i, 1)] = none ∧
        syncOk s k i (s.opnd k.team i w.dst 2) (if cnt s k i = 0 then 0 else 1))
    fun s k ex => ex.foldl (fun (r : State) (i : Nat) => r.startCmd k guard [i]
      (.cpys (s.opnd k.team i w.dst 2) (s.opnd k.team i w.sa 2) (idx s k i) (cnt s k i) (wid s k i) none) []
      (sync s k i)) s) ∧
  (CompletesIf (.cpyt w) w.c
    (fun s k ex => ∀ v ∈ s.warpsOf k.team ex, ∃ c, s.cpytPlan w k.team (s.ofWarp k.team v ex) = .ok (some c))
    fun s k ex => (s.warpsOf k.team ex).foldl (fun (r : State) (v : Nat) =>
      match s.cpytPlan w k.team (s.ofWarp k.team v ex) with
      | .ok (some c) => r.startCmd k guard (s.ofWarp k.team v ex) c.1 c.2.1 c.2.2
      | _ => r) s) ∧
  (CompletesIf (.walk w) w.c
    (fun s k ex => ∀ i ∈ ex, checks14 (s.privileged k.team i) (s.opnd k.team i w.sa 2) 32 32 = none)
    fun s k ex => ex.foldl (fun (r : State) (i : Nat) =>
      r.startCmd k guard [i] (.walk (s.opnd k.team i w.sa 2) [] 0 0) [] none) s)

/-- R340 to R344: where every home warp is bound to a communicator, no two of the issue name one rank and no check of R342
fails, a collective, after a release, starts one operation for each home warp.
The model's choices: log entry 38. -/
def Obligations.CollectivesStartOperations : Prop := ∀ w : FX,
  let starts := fun (i : Instr) (op : Nat) => ∀ r, CompletesIf i w.c
    (fun s k ex => (∀ v ∈ s.warpsOf k.team ex, s.collCheck op w k.team v ((s.ofWarp k.team v ex).headD 0) = none ∧
        s.rival k.team (s.warpsOf k.team ex) v = false) ∧ s.release k.team ex = some r)
    fun _ k ex => (r.warpsOf k.team ex).foldl (fun (s : State) (v : Nat) => s.collStart k op w v (s.ofWarp k.team v ex)) r
  starts (.crdc w) 6 ∧ starts (.calr w) 7 ∧ starts (.crsc w) 8 ∧ starts (.calg w) 9 ∧ starts (.cbcs w) 10 ∧
  starts (.cbar w) 11

/-! ### System words -/

/-- R162, R302, R317: with their earlier results written, and after the release of those that it ends, by EKILL or by the EXIT of
the word that they return after, ERET returns its executing threads from their instance, `.done` and `.retry`; the other threads go on in the handler.
The model's choices: log entry 39. -/
def Obligations.EretReturnsFromAnInstance : Prop := ∀ w : FS,
  let returns := fun (i : Instr) (retry : Bool) => ∀ (s : State) (k : Iss) (x : TrapInst) (r : State), Stands s k i w.c →
    let q := (s.settled k i w.c).settleAll k.team (s.runs k w.c)
    let lead := (s.runs k w.c).headD 0
    s.runs k w.c ≠ [] → (∀ j ∈ s.runs k w.c, (q.thread k.team j).open_ = []) →
    q.inst k.team ((q.team k.team).warpOf lead) (q.thread k.team lead).level = some x →
    q.release k.team ((s.runs k w.c).filter fun j => q.returnEnds k.team j x retry) = some r →
    exec i s = .next ((r.eretAll k (s.runs k w.c) x retry).finish
      { k with threads := k.threads.filter fun j => !(s.runs k w.c).contains j } w.c [] {})
  returns (.eretDone w) false ∧ returns (.eretRetry w) true

/-- R296, R302: a return restores the pc, place, SKIP state, MEET, MTAG, predicates, lane set, windows and level that the
entry saved, leaves the registers as the handler left them, and fetches the clause that the thread stands in again.
The model's choices: log entry 39. -/
def Obligations.ReturnRestoresWhatEntrySaved : Prop := ∀ (x : Thread) (vec : DWord) (p6 : Bool) (ew : List DWord),
  let y := x.entered (x.level + 1) vec p6 ew
  y.pc = vec ∧ y.mid = none ∧ y.level = x.level + 1 ∧ y.meet = 1 ∧ y.mtag = 0 ∧ (∀ q, q ≠ 6 → q ≠ 7 → y.pred q = false) ∧
  y.pred 6 = p6 ∧ (x.ew.length = x.level → y.window 0 = ew.getD 0 0) ∧
  ∀ z : Thread, z.level = y.level → z.banks = y.banks → z.ew.length = y.ew.length → z.ew.dropLast = x.ew →
    z.restore.pc = x.pc ∧ z.restore.mid = x.mid ∧ z.restore.skip = x.skip ∧ z.restore.meet = x.meet ∧
    z.restore.mtag = x.mtag ∧ z.restore.p = x.p ∧ z.restore.laneSet = x.laneSet ∧ z.restore.level = x.level ∧
    z.restore.banks = x.banks ∧ z.restore.ew = x.ew ∧ z.restore.refetch = x.mid.isSome ∧ z.restore.v = z.v ∧ z.restore.batch = z.batch

/-- R305: when the vector that a report needs is zero, the context fails with the report's code; the vector is EMUVEC for an
emulation entry and TRAPVEC for any other trap, and for an emulation entry the code is UNDEFINED. -/
def Obligations.ZeroVectorFailsTheContext : Prop := ∀ (s : State) (t w : Nat) (r : Report) (lead : Nat) (rest : List Nat),
  let c := (s.team t).ctx
  s.ofWarp t w r.raised = lead :: rest → (s.warp t w).spec = none → (s.thread t lead).level < 2 →
  s.inst t w ((s.thread t lead).level + 1) = none → (s.ctx c).valid = true → (s.ctx c).failed = none →
  (r.emu.isSome = true → (s.ctx c).emuvec = 0 → ((s.enter t w r).ctx c).failed = some 0x30) ∧
  (∀ e l, r.emu = none → (s.ctx c).trapvec = 0 → (r.reps.filter fun e => (s.team t).warpOf e.1 == w) = e :: l →
    ((s.enter t w r).ctx c).failed = some e.2.code)

/-- R294 to R301, R326, R329: a report enters one instance of a home warp: the fault records are written to the warp's
visible area, the instance names cause, EPC, EDEC, EWORD, EMASK and FRBASE with EKILL and ESKIP zero, and every active
thread of the warp goes to the vector.
The model's choices: log entries 4 and 24. -/
def Obligations.TrapEntryVectorsTheHomeWarp : Prop := ∀ (s q : State) (t w : Nat) (r : Report) (lead : Nat) (rest : List Nat)
    (e : Nat × Rep) (es : List (Nat × Rep)) (ps : List Probe),
  let m := s.team t
  let x := s.ctx m.ctx
  let is := s.ofWarp t w r.threads
  let reps := r.reps.filter fun e => m.warpOf e.1 == w
  let level := (s.thread t lead).level + 1
  let vec := if r.emu.isSome then x.emuvec else x.trapvec
  let base := m.visible + (2 * w + level - 1) * (32 * m.width)
  s.ofWarp t w r.raised = lead :: rest → reps = e :: es → (s.warp t w).spec = none → level ≤ 2 →
  s.inst t w level = none → vec ≠ 0 → (∀ i ∈ is, ((s.settleAll t is).thread t i).open_ = []) →
  (s.settleAll t is).probeAreas m.ctx (reps.map fun e => (base + 32 * m.hlane e.1) % 2 ^ 64) = (q, ps) →
  lowFault ps = none → absentPages ps = [] →
  s.enter t w r =
    let q := (reps.zip ps).foldl (fun (s : State) (e : (Nat × Rep) × Probe) => match e.2 with
      | .ok l _ => (s.writeLoc noOwner l (e.1.2.bytes r.epc) false).dropSector m.core l
      | _ => s) q
    let p6 := fun (y : Thread) => match r.emu.bind Emu.instr with
      | some i => (i.predSources.head?.map y.pred).getD false
      | none => false
    let ews := is.map fun i => (i, match r.emu with | some e => q.ewStart t i e | none => [0, 0, 0, 0])
    let q := q.modWarp t w fun y => { y with insts := y.insts ++ [
      { level, threads := is, cause := if r.emu.isSome then 0x22 else e.2.code, defer := reps.any fun e => e.2.defer,
        hdr := r.hdr, pos := r.pos, epc := r.epc, edec := (r.emu.map Emu.edec).getD 0, eword := (r.emu.map Emu.word).getD 0,
        emask := m.mask (reps.map Prod.fst), ekill := 0, eskip := 0, frbase := BitVec.ofNat 64 base, emu := r.emu.isSome,
        control := (r.emu.map Emu.control).getD false, skipTo := r.skipTo, exec := m.mask r.exec, stop := r.stop,
        gang := r.gang }] }
    ews.foldl (fun (q : State) (v : Nat × List DWord) => q.modThread t v.1 fun y => y.entered level vec (p6 y) v.2) q

/-- R317, R319, R320: once its earlier results are written, RDCSR gives each thread the value of the register that it names,
at 32 or 64 bits, and WRCSR writes it for each executing thread. -/
def Obligations.CsrWordsReadAndWrite : Prop := ∀ w : FS,
  let n := if w.low.getLsbD 0 then 2 else 1
  (SysCompletes (.rdcsr w) w.c (fun _ _ _ => True) fun s k ex => s.putAll k.team w.dst n (ex.map fun i =>
    (i, s.csr k.team i w.idx.toNat (s.opnd k.team i w.sa 1) % 2 ^ (32 * n)))) ∧
  (SysCompletes (.wrcsr w) w.c (fun _ _ _ => True) fun s k ex => ex.foldl (fun (s : State) (i : Nat) =>
    s.setCsr k.team i w.idx.toNat (s.opnd k.team i w.sa n)) s)

/-- R299, R319 to R321, R325: what a write of a CSR leaves to be read: the context's vectors and emulation stack, the halves of
EKILL and ESKIP of the reader's instance, whose other registers and halves stay as they were, WTCMP, SPINN within 2 to 64, RESLIM's five bits, the breakpoint comparators
without their reserved bits. -/
def Obligations.CsrWriteThenRead : Prop := ∀ (s : State) (t i lane v : Nat),
  t < s.teams.length → (s.team t).ctx < s.ctxs.length → v < 2 ^ 64 →
  (∀ idx, idx = 0x000 ∨ idx = 0x001 ∨ idx = 0x002 → (s.setCsr t i idx v).csr t i idx lane = v) ∧
  ((s.team t).warpOf i < (s.team t).warps.length → (s.setCsr t i 0x030 v).csr t i 0x030 lane = v) ∧
  (2 ≤ v % 128 ∧ v % 128 ≤ 64 → (s.setCsr t i 0x031 v).csr t i 0x031 lane = v % 128) ∧
  (¬ (2 ≤ v % 128 ∧ v % 128 ≤ 64) → (s.setCsr t i 0x031 v).csr t i 0x031 lane = s.csr t i 0x031 lane) ∧
  ((s.setCsr t i 0x032 v).csr t i 0x032 lane = v % 32) ∧
  (∀ x idx, s.inst t ((s.team t).warpOf i) (s.thread t i).level = some x → 0x016 ≤ idx → idx ≤ 0x019 →
    (s.setCsr t i idx v).csr t i idx lane = v ∧
    ∀ j, 0x010 ≤ j → j ≤ 0x01B → j ≠ idx → (s.setCsr t i idx v).csr t i j lane = s.csr t i j lane) ∧
  (∀ b, b < 4 → (s.ctx (s.team t).ctx).bkpt.length = 4 →
    (s.setCsr t i (0x060 + b) v).csr t i (0x060 + b) lane = v / 8 * 8 + v % 2)

/-- R270, R322: after a release and once every store in flight has reached its home, TLBINV drops the translations of its
partition that its form names: those below the leaf that holds an address, in its PASID or in every one, all of its PASID,
those below the leaf of an intermediate address, or all; it completes once none of the accesses at peers and held stores is left
that were open when it began.
The model's choices: every store in flight is acknowledged first, and which accesses it waits for (log entry 29). -/
def Obligations.TlbinvDropsTranslations : Prop := ∀ w : FS,
  let part := fun (s : State) (t : Nat) (e : Tlb) => e.part == (s.ctxOf t).part
  let pasid := fun (s : State) (t : Nat) (e : Tlb) => part s t e && e.pasid == (s.ctxOf t).pasid
  let under := fun (e : Tlb) (a : Nat) => e.page * 65536 / 2 ^ e.s1bits == a / 2 ^ e.s1bits
  let drops := fun (i : Instr) (p : State → Nat → Nat → Tlb → Bool) => ∀ r,
    let begun := fun (k : Iss) (ex : List Nat) => ex.filter fun i => (r.thread k.team i).flush.isNone
    let q := fun (k : Iss) (ex : List Nat) => (r.warpsOf k.team (begun k ex)).foldl (fun (s : State) (v : Nat) =>
      (s.ackAll s.stores).tlbDrop (p s k.team (s.opnd k.team ((s.ofWarp k.team v (begun k ex)).headD 0) w.sa 2))) r
    let open_ := fun (s : State) (k : Iss) => (s.openTags (s.ctxOf k.team).part, s.heldStores (s.ctxOf k.team).part)
    let over_ := fun (s : State) (f : List Nat × List (Nat × Nat × Nat)) => (∀ n ∈ f.1, ∀ x ∈ s.peers, x.tag ≠ n) ∧
      ∀ b ∈ f.2, ∀ sp, (s.warp b.1 b.2.1).spec = some sp → sp.seq ≠ b.2.2
    let mark := fun f (k : Iss) (is : List Nat) (s : State) =>
      is.foldl (fun (s : State) (i : Nat) => s.modThread k.team i fun x => { x with flush := f }) s
    SysCompletes i w.c
      (fun s k ex => ex ≠ [] ∧ s.release k.team ex = some r ∧
        ∀ i ∈ ex, over_ (q k ex) ((r.thread k.team i).flush.getD (open_ (q k ex) k)))
      fun _ k ex => mark none k ex (mark (some (open_ (q k ex) k)) k (begun k ex) (q k ex))
  (drops (.tlbinvPage w) fun s t a e => pasid s t e && !e.glob && under e a) ∧
  (drops (.tlbinvPasid w) fun s t _ e => pasid s t e && !e.glob) ∧
  (drops (.tlbinvGpage w) fun s t a e => part s t e && under e a) ∧
  (drops (.tlbinvIpa w) fun s t a e => part s t e && e.ipa * 65536 / 2 ^ e.s2bits == a / 2 ^ e.s2bits) ∧
  (drops (.tlbinvAll w) fun s t _ e => part s t e) ∧
  ∀ (s : State) (p : Tlb → Bool), (∀ c ∈ (s.tlbDrop p).cores, ∀ e ∈ c.tlb, p e = false) ∧
    ∀ l ∈ (s.tlbDrop p).l2tlb, ∀ e ∈ l, p e = false

/-- R308, R323: CTXSW gives 1 for a context that is not valid or of another partition, 3 for a failed one, 2 where it is
already so; else, once its teams stand still, it takes the context's teams out of the core, or brings them back, and
gives 0.
The model's choices: log entry 41. -/
def Obligations.ContextSwitchesOutAndIn : Prop := ∀ w : FS,
  let c := w.idx.toNat % 64
  let status := fun (s : State) (k : Iss) (ex : List Nat) (v : Nat) => s.putAll k.team w.dst 1 (ex.map fun i => (i, v))
  let early := fun (s : State) (k : Iss) (out : Bool) =>
    if (s.ctx c).valid = false ∨ (s.ctx c).part ≠ s.devPart k.core then some 1
    else if (s.ctx c).failed.isSome then some 3
    else if (s.ctx c).out.contains k.core = out then some 2 else none
  let stopped := fun (s : State) (k : Iss) => (s.teamsOn c k.core).foldl (fun (r : State) (t : Nat) =>
    r.modTeam t fun m => { m with stop := true }) s
  (∀ v out i, (out = true ∧ i = Instr.ctxswOut w) ∨ (out = false ∧ i = .ctxswIn w) →
    SysCompletes i w.c (fun s k ex => ex ≠ [] ∧ early s k out = some v) fun s k ex => status s k ex v) ∧
  (SysCompletes (.ctxswOut w) w.c
    (fun s k ex => ex ≠ [] ∧ early s k true = none ∧ ∀ t ∈ s.teamsOn c k.core, (stopped s k).notStill t = false)
    fun s k ex => status (((s.teamsOn c k.core).foldl (fun (r : State) (t : Nat) => r.teamOut t) (stopped s k)).modCtx c
      fun x => { x with out := x.out ++ [k.core] }) k ex 0) ∧
  (SysCompletes (.ctxswIn w) w.c (fun s k ex => ex ≠ [] ∧ early s k false = none)
    fun s k ex =>
      let r := s.modCtx c fun x => { x with out := x.out.filter (· != k.core) }
      status ((r.teamsOn c k.core).foldl (fun (s : State) (t : Nat) => s.teamIn t) r) k ex 0)

/-- R224, R228, R313, R324, R327: CLAIM is one claim of the ticket line that it names, of the next unclaimed team, and
gives its threads the team or all ones; claim.node one claim of the next due node launch of the core's die, no other of which is
deeper; MCACK clears a machine-check bank of its core, and the core is rebuilt and goes on once all are clear; HALT fails a handler's
context with its index as the value, or stops the agent slot.
The model's choices: whose operands CLAIM has (log entry 57); the handle and the die of claim.node are free (log entry 8);
HALT and MCACK (log entry 40). -/
def Obligations.ClaimAcknowledgeAndHalt : Prop := ∀ w : FS,
  let gives := fun (s : State) (k : Iss) (ex : List Nat) (v : Nat) => s.putAll k.team w.dst 2 (ex.map fun i => (i, v))
  (∀ q a, SysCompletes (.claim w) w.c
    (fun s k ex => ex ≠ [] ∧ s.access k.team (ex.headD 0) (s.opnd k.team (ex.headD 0) w.sa 2 : Int) 128 128 { write := true } =
      (q, .ok a))
    fun _ k ex => match q.lineOf a.loc with
      | none => gives q k ex (2 ^ 64 - 1)
      | some l =>
        let c := q.claimAt l a.loc (q.opnd k.team (ex.headD 0) w.sb 1 % 4) (dieOf k.core)
        gives c.1 k ex (c.2.getD (2 ^ 64 - 1))) ∧
  (SysCompletes (.claimNode w) w.c (fun _ _ ex => ex ≠ []) fun s k ex => match s.takeDue (dieOf k.core) with
    | (r, some (g, n, d, rs)) => gives r k ex (Config.nodeHandle g n d (rs.headD 0)).toNat
    | (r, none) => gives r k ex (2 ^ 64 - 1)) ∧
  (∀ s : State, ∀ die, let here := fun (g : Nat) => g < s.graphs.length ∧ Config.graphDie (s.graph g).qbase % 4 = die ∧
      (s.graph g).done = false
    (∀ r g e, s.takeDue die = (r, some (g, e)) → here g ∧ e ∈ (s.graph g).due ∧ (∀ h, here h → ∀ f ∈ (s.graph h).due, f.2.1 ≤ e.2.1) ∧
      r = s.modGraph g fun y => { y with due := y.due.erase e, taken := y.taken ++ [e] }) ∧
    (∀ r, s.takeDue die = (r, none) → r = s ∧ ∀ h, here h → (s.graph h).due = [])) ∧
  (SysCompletes (.mcack w) w.c (fun _ _ ex => ex ≠ []) fun s k _ => s.modCore k.core fun x =>
    let mc := x.mc.set (w.idx.toNat % 4) [0, 0, 0, 0]
    if x.halted = true ∧ (∀ l ∈ mc, (l.getD 0 0).getLsbD 63 = false)
    then { x with mc, halted := false, l1 := [], owned := [], icache := [], tlb := [], issue := Core.reset.issue,
                  banks := Core.reset.banks, spins := Core.reset.spins }
    else { x with mc }) ∧
  (∀ (s : State) (k : Iss) (i : Nat) (r : List Nat), Stands s k (.halt w) w.c →
    let q := (s.settled k (.halt w) w.c).settleAll k.team (s.runs k w.c)
    s.runs k w.c = i :: r → (∀ j ∈ s.runs k w.c, (q.thread k.team j).open_ = []) →
    ((q.team k.team).agent = false → exec (.halt w) s = .next (q.failContext (q.team k.team).ctx 0x36
      { value := w.idx.toNat % 256, epc := k.pc, addr := 0, at_ := some (k.team, i) })) ∧
    ((q.team k.team).agent = true → exec (.halt w) s = .next (((q.modTeam k.team fun m =>
      { m with threads := m.threads.map fun x => { x with wait := .exited } }).modCore k.core fun x =>
        { x with agentUp := false }).leave k)))

/-! ### Events of a core (R33 to R57, R141, R167, R195 to R200, R206 to R224, R311) -/

/-- R33 to R36, R52, R57, R203: a group that may issue, at a header whose tests pass and whose tokens count nothing, takes
its partition's issue slot at the clause's first word, with SKIP cleared, SYS clauses for privileged threads only. R218 to
R220, R237, R239: a spinning loop is declared, a wake without a write and a SLEEP's interval end waits. R311: a due WTIMER
is raised at a header with R328's code 0x20, and WTCMP is cleared for the home warps that take it.
The model's choices: log entries 9, 16, 18 and 58. -/
def Obligations.ClausesStartAndWaitsEnd : Prop := ∀ (s : State) (t num : Nat),
  let pc := fun (g : Group) => (s.thread t (g.threads.headD 0)).pc
  let fetched := fun (g : Group) (q : State) (c : Clause) =>
    s.mayIssue t num = some g ∧ (s.thread t (g.threads.headD 0)).mid = none ∧ s.spinning t num = none ∧
    (∀ i ∈ g.threads, (s.thread t i).meet ≠ pc g) ∧ breaks (s.ctxOf t).bkpt (pc g) = false ∧ (pc g).toNat % 8 = 0 ∧
    s.fetchClause (s.team t).core (s.team t).ctx (s.privileged t (g.threads.headD 0)) (pc g) = (q, .clause c)
  let clear := fun (g : Group) (r : State) (c : Clause) =>
    (∀ w ∈ r.warpsOf t g.threads, ∀ k, k < 8 → c.hdr.wait.getLsbD k = true → (r.warp t w).regs.tok.getD k 0 = 0) ∧
    (c.hdr.cls = 3 → ∀ i ∈ g.threads, r.privileged t i = true)
  let settled := fun (g : Group) (q : State) (c : Clause) => q.settleTokens t (q.warpsOf t g.threads) c.hdr.wait.toNat
  (∀ g q c, fetched g q c → clear g (settled g q c) c → (settled g q c).timersDue t g.threads = [] →
    exec (.clauseHeader t num) s = .next (((g.threads.foldl (fun (r : State) (i : Nat) =>
      r.modThread t i fun x => { x with skip := 0, noBreak := none }) (settled g q c)).spinClause t num (pc g)).take t num g c 0)) ∧
  (∀ g c p, let m := s.team t
    let r := s.take t num g c p
    r.turn = (m.core, m.part) ∧ r.issueNo = s.issueNo + 1 ∧ (∀ i ∈ g.threads, i < m.threads.length →
      (r.thread t i).mid = some (c, p)) ∧ (m.core < s.cores.length → m.part < (s.core m.core).issue.length →
      (r.core m.core).issue.getD m.part none = some (t, num))) ∧
  (∀ g d, s.group t num = some g → s.ready g = true → (s.thread t (g.threads.headD 0)).mid = none →
    s.spinning t num = some d → exec (.spinDetect t num) s =
      .next ((g.threads.foldl (fun (r : State) (i : Nat) => r.block t i (.spin d.armed))
        (s.modSpin t num fun _ => none)).tidy t)) ∧
  (∀ w, exec (.watchRegistration t w) s = .next (s.modWarp t w fun x => { x with unreg := [] })) ∧
  (∀ w, let here := fun (p : Wait → Bool) => ((s.team t).members w).filter fun i => p (s.thread t i).wait
    let watch := here fun v => v == .watch
    let spin := here fun v => match v with | .spin _ => true | _ => false
    let woken := if watch ≠ [] then (s.modWarp t w fun x => { x with wake := false }).unblock t watch true
      else if (s.warp t w).watches = [] then s else s.modWarp t w fun x => { x with wake := true }
    exec (.spuriousWake t w) s = .next (if spin = [] then woken else woken.unblock t spin false)) ∧
  (∀ i n, (s.thread t i).wait = .sleep n → n ≤ s.clk → exec (.sleepExpire t i) s =
    .next (s.unblock t (((s.team t).members ((s.team t).warpOf i)).filter fun j => match (s.thread t j).wait with
      | .sleep n => decide (n ≤ s.clk)
      | _ => false) true)) ∧
  (∀ g q c w, (s.groups.find? fun g => g.team == t && !(s.timersDue t g.threads).isEmpty &&
      (g.threads.any fun i => (s.team t).warpOf i == w) && (s.thread t (g.threads.headD 0)).mid.isNone) = some g → g.num = num →
    fetched g q c → clear g (settled g q c) c → (settled g q c).timersDue t g.threads ≠ [] →
    let s' := settled g q c
    let due := s'.timersDue t g.threads
    let mine := g.threads.filter fun i => due.contains ((s.team t).warpOf i)
    let r := s'.raise t { threads := mine, raised := mine, reps := mine.map fun i => (i, { code := 0x20 }), epc := pc g,
                          hdr := true, exec := mine }
    exec (.wtimer t w) s = .next (due.foldl (fun (r : State) (v : Nat) =>
      if (mine.any fun i => (s.team t).warpOf i == v && decide ((s'.thread t i).level < (r.thread t i).level))
      then r.modWarp t v fun x => { x with wtcmp := 0 } else r) r))

/-- R52, R167, R212: a result is written to its register and predicate, and its token counts down with the last of its issue;
an acknowledged store's bytes, or what a RED leaves, are at the home and no others change; an idle port writes a dirty
register to its save area. R141, R195, R200: a product runs one K row, the engine
moves a block of a copy, a walk makes a hop.
The model's choices: log entries 29 and 36. -/
def Obligations.ResultsStoresAndEnginesComplete : Prop := ∀ s : State,
  (∀ t i key p v, ((s.thread t i).pend.find? fun p => p.key == key && !p.done && p.value.isSome) = some p →
    p.value = some v → exec (.resultWriteback t i key) s = .next (
      let q := s.putReg t i p.dst p.regs v
      let q := match p.pred with | some (k, b) => q.putPred t i k b | none => q
      let q := q.modThread t i fun x => { x with pend := x.pend.map fun q => if q.key = key then { q with done := true } else q }
      match p.token with
      | none => q
      | some k =>
        let m := q.team t
        if (m.members (m.warpOf i)).any fun j => (q.thread t j).pend.any fun r => r.key == key && !r.done then q
        else q.tokAdd t (m.warpOf i) k (· - 1))) ∧
  (∀ st, (s.stores.filter fun y => y.id == st.id) = [st] →
    (∀ y ∈ s.stores, y.id < st.id → s.l1Of y.core y.pa = s.l1Of st.core st.pa → y.pa / 8 ≠ st.pa / 8) →
    let n := st.bytes.length
    let new := match st.red with
      | none => st.bytes
      | some aop => leBytes n (atomResult aop (8 * n) (leValue (s.mem.readN st.pa n)) (leValue st.bytes))
    ∃ r, exec (.storeAcknowledge st.id) s = .next r ∧ (∀ y ∈ r.stores, y.id ≠ st.id) ∧ (s.mem.wf = true →
      ∀ a, r.mem.read a = if st.pa ≤ a ∧ a < st.pa + n then new.getD (a - st.pa) 0 else s.mem.read a)) ∧
  (∀ t w key, (s.warp t w).resident = true → key ∈ (s.team t).regKeys → key ∉ (s.warp t w).clean →
    exec (.checkpointWriteback t w key) s =
      .next ((s.saveReg t w key).modWarp t w fun x => { x with clean := x.clean ++ [key] })) ∧
  (∀ c p q x, c < s.cores.length → p < 4 → q ∈ s.seqOf c p → q.op = .product x →
    (∀ c' p', c' < s.cores.length → p' < 4 → ∀ y ∈ s.seqOf c' p', y.id = q.id → c' = c ∧ p' = p ∧ y = q) →
    x.guard = none → s.isOut q.gang.team = false → (s.core c).halted = false → s.seqBefore c p q.gang (some q.id) q.bank q.count = [] →
    ∀ r, s.runRow c p q x = (r, .row) → exec (.kRow q.id) s = .next r) ∧
  (∀ c dst src n piece, c.op = .cpy dst src n → (s.cmds.find? fun d => d.id == c.id) = some c → s.heldBy c = [] →
    piece ∈ c.todo →
    let ds := inBlock dst n piece
    ∀ r d, s.moveBytes c (fun _ => false) (ds.map fun (a : Nat) => ((a : Int), some ((src + (a - dst) : Nat) : Int))) = .moved r d →
      let q := r.count (d.note none) ds.length (d.todo.all (· == piece))
      exec (.copyTransfer c.id piece) s = .next ((q.1.setCmd q.2).pieceDone q.2 piece)) ∧
  (∀ c desc d h u r v, (s.cmds.find? fun d => d.id == c.id) = some c → s.heldBy c = [] → c.op = .walk desc d h u → d ≠ [] →
    s.walksAhead c < 3072 → let s' := s.settleThread c.team c.lead
    (if walkMode d = 1 then s'.csrHop c.team d h u else s'.chainHop c.team d h u) = .ok (.on r v) → h + 1 < walkHops d →
    exec (.walkHop c.id) s = .next (r.setCmd { c with op := .walk desc d (h + 1) v }))

/-- R138, R206, R211 to R213: the scan gives the longest-parked group a free entry, the tumbler swaps the first runnable
warp in for the candidates that must leave, a team leaves its core, banks are spilled. R22, R28, R150, R215, R217, R223, R224,
R228: a team whose span is claimed and whose parameters, areas and record list are there starts, a node launch that is taken
too; one whose threads have exited retires, an idle die steals a span or takes a due node launch, and a slice's timer delivers
a partial launch.
The model's choices: log entries 20, 23, 42 and 43. -/
def Obligations.TumblerMovesAndTeamsStartAndRetire : Prop := ∀ s : State,
  let placed := fun (l core part : Nat) => let x := s.launch l
    l < s.launches.length ∧ x.done = false ∧ part < 4 ∧ (s.ctx x.ctx).valid = true ∧ (s.ctx x.ctx).failed = none ∧
    s.usable (s.ctx x.ctx).part core = true ∧ (s.ctx x.ctx).out.contains core = false
  let passes := fun (s : State) (l : Nat) (a : Spot) (r : State) (ls : List Loc) (save vis : Nat) (ps : List Probe) =>
    ∃ q, s.probeUnits (fun (s : State) (va : Nat) => s.probeParam a va) a.param 8 8 = (q, .ok ls) ∧
      q.saveSpot (s.launch l).ctx (dArea a.desc) = some save ∧ q.visibleSpot l (q.visibleUnit l) = some vis ∧
      q.probeList (s.launch l).ctx (vis + 64 * dWarps a.desc * dHw a.desc) a.recs.length = (r, ps) ∧
      lowFault ps = none ∧ absentPages ps = [] ∧ ∀ y ∈ ls, r.poisoned y 8 = false
  let opened := fun (l : Nat) (a : Spot) (r : State) (ls : List Loc) (save vis : Nat) (ps : List Probe) =>
    let r := (ps.zip a.recs).foldl (fun (r : State) (e : Probe × RecSlot) => match e.1 with
      | .ok y _ => r.writeLoc noOwner y (leBytes 8 (((r.graph e.2.graph).node e.2.node).slotAddr e.2.level e.2.slot)) false
      | _ => r) r
    let r := if (s.launch l).fuse then r.fuse a.core else r
    let t := r.teams.length
    let room := decide (r.padUse a.core + dScratch a.desc ≤ 512)
    let r := { r with teams := r.teams ++ [a.team (s.launch l).ctx save vis r.clk (paramWords (r.readLocs ls)) room true] }
    let span := r.spanNo t
    let r := if r.spans.any fun y => y.launch == l && y.span == span then r
      else { r with spans := r.spans ++ [{ launch := l, span, teams := a.size, bars := List.replicate 16 (BarRec.start true a.size) }] }
    let r := (((r.openAreas t).acquire a.core).settleIn t).push a (s.launch l).ctx
    let late := if a.node.isSome then (List.range (dNtid a.desc - a.recs.length)).map (a.recs.length + ·) else []
    ((late.foldl (fun (r : State) (i : Nat) => r.exitThread t i) r).tidy t).wakeRemote
  (∀ c p g, p < 4 → pick (fun a b => decide (a.parkedAt < b.parkedAt)) ((s.groupsOf c p).filter Group.parked) = some g →
    let q := s.notReady g.team g.threads
    q.tableSize c p < 64 → let free := fun (h : Group) => if h.team = g.team ∧ h.num = g.num then { h with parked := false } else h
    exec (.parkScan (4 * c + p)) s = .next { q with groups := q.groups.map free }) ∧
  (∀ c p w l, p < 4 → s.padCalled c p = none → ((s.incoming c p).findSome? fun w =>
      (s.leavers (s.residents c p) (s.outgoing c p) w).map fun l => (w, l)) = some (w, l) → (∀ e ∈ l, s.mayLeave e = true) →
    exec (.tumblerSwap (4 * c + p)) s =
      .next ((l.foldl (fun (r : State) (e : Nat × Nat) => r.swapOut e.1 e.2) s).swapIn w.1 w.2)) ∧
  (∀ t, let m := s.team t
    let here := (List.range m.nWarps).filter fun w => (s.warp t w).resident
    m.padIn = true → m.started = true → m.retired = false → m.agent = false →
    (∀ w ∈ here, s.candidate t w = true ∧ s.mayLeave (t, w) = true) →
    (∃ u, u < s.teams.length ∧ u ≠ t ∧ (s.team u).core = m.core ∧ s.needsPad u = true ∧ s.padFits u = false) →
    exec (.teamRotateOut t) s = .next ((here.foldl (fun (r : State) (w : Nat) => r.swapOut t w) s).padAway t)) ∧
  (∀ c p b g t i k n, p < 4 → (s.bank c p b).owner = some g → t < s.teams.length → (s.team t).core = c → (s.team t).part = p →
    i < (s.team t).threads.length → (s.thread t i).wait = .alloc k n → k ≤ b → b < k + n →
    s.gangOf t ((s.team t).warpOf i) ≠ g → (∀ w ∈ g.members, ∀ j ∈ (s.team g.team).members w,
      (s.thread g.team j).wait.blocking = true ∨ (s.thread g.team j).wait = .exited) →
    (∀ q ∈ s.seqOf c p, q.gang = g → heldSlots (q :: s.seqNeeds c p g (some q.id) q.bank q.count) ≠ []) →
    exec (.bankSpill (4 * c + p) b) s = .next (((List.range 16).foldl (fun (r : State) (j : Nat) =>
      if (r.bank c p j).owner = some g then
        { (r.saveBank g.team j (r.bank c p j)).modBank c p j (fun _ => AccBank.reset) with
          spilled := r.spilled ++ [{ gang := g, bank := j, acc := r.bank c p j }] }
      else r) s).wakeAlloc c p)) ∧
  (∀ l index core part r ls save vis, let x := s.launch l
    let k := index / x.spanLen
    let a : Spot := { launch := l, desc := x.desc, param := x.param, coords := x.coords index, span := k,
                      rank := index % x.spanLen, size := x.spanTeams k, core, part, node := none }
    placed l core part → x.graph = none → index < x.size → s.spanTeam l k a.rank = none →
    (∃ die, (x.claimed.find? fun e => e.1 == k) = some (k, die) ∧
      s.clusterFor (s.ctx x.ctx).part die (x.slice k) = some (core / 8)) → passes s l a r ls save vis [] →
    exec (.teamStart l index core part) s = .next (opened l a r ls save vis [])) ∧
  (∀ l index core part r ls save vis g e ps, let x := s.launch l
    let n := (s.graph g).node e.1
    let a : Spot := { launch := l, desc := n.desc, param := (n.desc.getD 1 0).toNat, coords := (e.1, 0, 0), span := 0, rank := 0,
                      size := 1, core, part, node := some (g, e.1, e.2.1, e.2.2) }
    placed l core part → x.graph = some g → (s.graph g).taken[index]? = some e → passes s l a r ls save vis ps →
    exec (.teamStart l index core part) s = .next (opened l a
      (r.modGraph g fun y => { y with taken := y.taken.erase e }) ls save vis ps)) ∧
  (∀ t line r, let m := s.team t
    t < s.teams.length → m.started = true → m.retired = false → m.agent = false → (∀ x ∈ m.threads, x.wait = .exited) →
    s.inFlight t = false → s.unreported t = none → m.node = none → s.ticketLoc m.launch = (r, .ok line) →
    let r := (List.range 16).foldl (fun (s : State) (id : Nat) => s.spanMod t id fun b => { b with expect := b.expect - 1 }) r
    let less := fun (y : SpanRec) => if y.launch = m.launch ∧ y.span = r.spanNo t then { y with teams := y.teams - 1 } else y
    let left := (r.spans.map less).filter fun y => y.teams != 0
    let r := ({ r with spans := left } : State).freeBanks t
    let off := fun (w : Warp) => { w with resident := false }
    exec (.teamRetire t) s = .next (((r.modTeam t fun m => { m with retired := true, padIn := false,
                                                                    warps := m.warps.map off }).countRetired m.launch
      (some line)).wakeRemote)) ∧
  (∀ l die g e, let x := s.launch l
    l < s.launches.length → x.done = false → die < 4 → (s.ctx x.ctx).valid = true → (s.ctx x.ctx).failed = none →
    s.idleDie (s.ctx x.ctx).part die = true → s.slotOn (s.ctx x.ctx).part die = true → x.graph = some g →
    s.dueNode g = some e → exec (.workSteal die l) s = .next (s.modGraph g fun y =>
      { y with due := y.due.erase e, taken := y.taken ++ [e] })) ∧
  (∀ l die r line k, let x := s.launch l
    let from_ := (die + 1) % 4
    l < s.launches.length → x.done = false → die < 4 → (s.ctx x.ctx).valid = true → (s.ctx x.ctx).failed = none →
    s.idleDie (s.ctx x.ctx).part die = true → s.slotOn (s.ctx x.ctx).part die = true → x.graph = none →
    s.ticketLoc l = (r, .ok line) →
    ((r.launch l).claimStep from_ (leValue (r.homeBytes (line.add (8 * from_)) 8).2)).2 = some k →
    r.roomFor l ((r.launch l).spanTeams k) (dArea (r.launch l).desc) = true →
    exec (.workSteal die l) s = .next (r.claimAt l line from_ die).1) ∧
  (∀ l n d g r time no rest, (s.launch l).graph = some g → (s.graph g).committed n d = (r, time, no) :: rest →
    (s.graph g).done = false → time + 1000 * ((s.graph g).node n).timer ≤ s.clk → exec (.doserTimer l n d) s =
    .next (s.modGraph g fun y => y.deliver g n d (y.committed n d).length))

/-! ### Packets, contexts, pages and registers (R225 to R227, R261 to R293) -/

/-- R225 to R227, R281 to R289: a doorbell sets TAIL or halts a ring that overflows; a packet of a named context that has not
failed, and whose fields are well formed, begins in its order and has its effect: NOP completes, LAUNCH and GRAPH are
checked and begin, WAIT holds the queue until its word satisfies it, SIGNAL writes its value, FETCH_FENCE discards what was
read ahead; EN starts or stops a ring, and its timers lapse. The time of a packet's wait counts from the doorbell that
announced it. R277: the ring's page is touched as a packet is read.
The model's choices: log entries 44 and 45. -/
def Obligations.PacketsHaveTheirEffect : Prop := ∀ (s : State) (q : Nat),
  let x := s.iface q
  let read := if x.ahead.any fun e => e.1 == x.head then s else s.ringTouch q x.head false
  let runs := fun (i : Instr) (ty : Nat) (f : State → Packet → State) => ∀ ws c, s.head q = .packet ws → pType ws = ty →
    (pAfter ws = true → x.begun = []) → read.packetCtx q ws = some c → (read.ctx c).failed = none → packetBad ws = false →
    s.outranked q = false →
    exec i s = .next (f read { index := x.head, words := ws, ctx := c, launch := none, status := none })
  (∀ t : Word, s.mgmt.ready = true → x.en = true → x.halt = false →
    ((t.toNat + 2 ^ 32 - x.head) % 2 ^ 32 ≤ 2 ^ x.szlog → exec (.doorbell q t) s = .next (s.modIface q fun y =>
      let n := (t.toNat + 2 ^ 32 - y.tail) % 2 ^ 32
      { y with tail := t.toNat, since := if n = 0 then y.since else y.since ++ [(n, s.clk)] })) ∧
    (2 ^ x.szlog < (t.toNat + 2 ^ 32 - x.head) % 2 ^ 32 → exec (.doorbell q t) s = .next (((s.modIface q fun y =>
      { y with errcode := 2, err := true, erridx := x.head }).modIface q fun y => { y with halt := true }).errorInt q))) ∧
  (runs (.nopPacket q) 0 fun s p => (s.begin_ q p).completeNow q p 1) ∧
  (runs (.launchPacket q) 1 fun s p => s.launchPacket q p) ∧ (runs (.graphPacket q) 2 fun s p => s.graphPacket q p) ∧
  (runs (.waitPacket q) 3 fun s p => ((s.begin_ q p).modIface q fun x => { x with blocked := true }).tryWait q p) ∧
  (∀ p r l e, (x.begun.find? fun p => pType p.words == 3 && p.status.isNone) = some p →
    s.probeCtx p.ctx (p.words.getD 2 0).toNat 8 {} = (r, .ok l e) →
    exec (.waitPacketSatisfied q) s = .next (if waitMet p.words (leValue (r.homeBytes l 8).2)
      then (r.homeBytes l 8).1.completeNow q p 1 else (r.homeBytes l 8).1)) ∧
  (runs (.signalPacket q) 4 fun s p => match s.probeCtx p.ctx (p.words.getD 2 0).toNat 8 { write := true, line := true } with
    | (s, .ok l _) => ((s.writeLoc noOwner l (leBytes 8 (p.words.getD 3 0).toNat) false).begin_ q p).completeNow q p 1
    | (s, .page ks) => (s.requestAll 0 p.ctx ks false true).modIface q fun x => { x with waits := ks }
    | (s, _) => (s.begin_ q p).completeNow q p 2) ∧
  (runs (.fetchFence q) 5 fun s p => ((s.begin_ q p).completeNow q p 1).modIface q fun x => { x with ahead := [] }) ∧
  (∀ p d line r r1 r2 ls, let k := fun (n : Nat) => (p.words.getD n 0).toNat
    s.readFor p.ctx (k 2) 128 16 = (r, .ok d) → descBad d (k 3) = false → r.readFor p.ctx (k 6) 128 16 = (r1, .ok line) →
    r1.probeRange p.ctx (k 6) 8 true 16 = (r2, .ok ls) → (∀ w ∈ line.drop 5, w = 0) →
    (r2.featBad d || ((launchOf q p d).fuse && !r2.enabled 11)) = false →
    r2.sized p.ctx ((launchOf q p d).spanTeams 0) (dArea d) (areaSize (dVisible d false)) (launchOf q p d).poolLen = true →
    s.launchPacket q p = ({ r2 with launches := r2.launches ++ [launchOf q p d] } : State).begin_ q
      { p with launch := some r2.launches.length }) ∧
  (∀ p h r r1 (ns : List NodeRec), let k := fun (n : Nat) => (p.words.getD n 0).toNat
    let n := dq h 0
    let nodes := ns.map NodeRec.node
    let poolLen := bits (k 5) 63 32 * 65536
    s.readFor p.ctx (k 2) 64 8 = (r, .ok h) → 0 < n → n ≤ 256 → dq h 1 % 64 = 0 → dq h 3 % 8 = 0 → (∀ w ∈ h.drop 4, w = 0) →
    r.readNodes p.ctx (k 2) n n = (r1, .ok ns) → (∀ y ∈ ns, y.bad = false) → cyclic nodes = false →
    (nodes.map GNode.bytes).sum ≤ dq h 2 → (∀ y ∈ nodes, r1.featBad y.desc = false) →
    r1.sized p.ctx 1 ((nodes.map fun y => dArea y.desc).foldl max 0)
      (areaSize ((nodes.map fun y => dVisible y.desc true).foldl max 0)) poolLen = true →
    let l := r1.launches.length
    let g := r1.graphs.length
    let made : Launch :=
      { ctx := p.ctx, iface := q, index := p.index, graph := some g, desc := [], param := 0, nx := 0, ny := 0, nz := 0,
        size := 0, nspan := 0, ticket := 0, pool := k 7, poolLen, fuse := false, claimed := [], retired := 0, done := false }
    let built : State :=
      { r1 with launches := r1.launches ++ [made], graphs := r1.graphs ++ [graphOf l g (dq h 1) (dq h 3) r1.clk ns] }
    s.graphPacket q p = (((built.begin_ q
      { p with launch := some l }).dose g).graphCheck g)) ∧
  (s.mgmt.ready = true → exec (.interfaceEnable q) s = .next (s.modIface q fun x => if x.en then x else
      { x with en := true, head := 0, tail := 0, halt := false, ahead := [], since := [], aged := false, waits := [] }) ∧
    exec (.interfaceDisable q) s = .next (s.modIface q fun x =>
      { x with en := false, tail := x.head, ahead := [], since := [], aged := false }) ∧
    exec (.errClear q) s = .next (s.modIface q fun x => { x with err := false })) ∧
  (∀ v t, x.starts.getD v none = some t → t + 1000 * max 1 x.timer ≤ s.clk → exec (.interruptTimer q v) s =
    .next ((s.modIface q fun x => { x with counts := x.counts.set v 0, starts := x.starts.set v none }).interrupt q v)) ∧
  (∀ n c older, 0 < x.used → x.since = (n, c) :: older → c + 100000 ≤ s.clk → exec (.packetAging q) s =
    .next (s.modIface q fun y => { y with aged := true }))

/-- R261, R262, R270, R271, R274 to R277, R280: context commands make, end and update contexts; an invalidation drops its
translations when PDADDR is written; the driver's reply lets the waiters of a page go on, or refuses it to them; the pool
and the fault queue take the driver's writes; a page migrates to the pool's next frame. A walk-window table's page that is
due to migrate does so before the table is read.
The model's choices: log entries 15, 21, 45 and 53. -/
def Obligations.ContextsPagesAndThePool : Prop := ∀ s : State, s.mgmt.ready = true →
  (∀ c, c < s.ctxs.length → s.mgmt.ctxBusy = false →
    let x := s.recordAt (s.mgmt.ctxtab + 128 * c) 16
    let q := fun (n : Nat) => (x.getD n 0).toNat
    let ends := fun (s : State) (r : Nat) => { s with mgmt := { s.mgmt with ctx := c, ctxOp := 0, ctxRes := r, ctxBusy := false } }
    ((∃ k, k < s.ctxs.length ∧ k ≠ c ∧ (s.ctx k).valid = true ∧ (s.ctx k).pasid = q 0 / 2 ^ 32 % 2 ^ 20) →
      exec (.ctxcmdCreate c) s = .next (ends s 2)) ∧
    ((∀ k, k < s.ctxs.length → k ≠ c → (s.ctx k).valid = true → (s.ctx k).pasid ≠ q 0 / 2 ^ 32 % 2 ^ 20) →
      ctxRecBad x = false → s.hasCluster (q 0 / 256 % 8) = true →
      let r := s.ipaTouch (q 0 / 256 % 8) c (q 6) false
      exec (.ctxcmdCreate c) s = .next (ends (r.modCtx c fun _ =>
        { Ctx.reset with valid := true, pasid := q 0 / 2 ^ 32 % 2 ^ 20, part := q 0 / 256 % 8, s1root := q 1, scb := q 2,
                         savebase := q 3, savesize := q 4, wtbase := q 5, wwt := q 6, spwbase := q 7,
                         windows := r.readWindows (q 0 / 256 % 8) (q 0 / 2 ^ 32 % 2 ^ 20) (q 6) }) 0)) ∧
    ((s.ctx c).valid = true → q 6 % 512 = 0 → let r := s.ipaTouch (s.ctx c).part c (q 6) false
      exec (.ctxcmdUpdate c) s = .next (ends (r.modCtx c fun y =>
        { y with scb := q 2, wwt := q 6, windows := r.readWindows y.part y.pasid (q 6) }) 0)) ∧
    ((s.ctx c).valid = true → let r := s.failContext c 0x34 Blame.none
      let d := r.tlbDrop fun e => e.part == (r.ctx c).part && e.pasid == (r.ctx c).pasid && !e.glob
      let comms := r.comms.filter fun k => k.ctx != c
      let ats := r.ats.filter fun e => e.1 != (r.ctx c).pasid
      (∀ y ∈ r.ifaces, ∀ p ∈ y.begun, p.ctx ≠ c) → exec (.ctxcmdRevoke c) s =
        .next (ends (({ d with comms := comms, ats := ats } : State).modCtx c fun y => { y with valid := false, windows := [] }) 0))) ∧
  (∀ v, exec (.invreq v) s =
    .next { s with mgmt := { s.mgmt with inv := some v, invDone := false, invTags := [], invHeld := [] } }) ∧
  (∀ part v w, s.mgmt.inv = some w → w.toNat / 2 ^ 28 % 8 = part →
    (s.pdAddr part v).mgmt.inv = none ∧ (s.pdAddr part v).mgmt.invDone = true ∧
    ∀ c ∈ (s.pdAddr part v).cores, ∀ e ∈ c.tlb, e.part = part →
      (w.toNat / 2 % 2 = 0 → e.page * 65536 / 2 ^ e.s1bits = v.toNat / 2 ^ e.s1bits →
        w.toNat / 4 % 2 = 0 ∧ (e.pasid ≠ w.toNat / 2 ^ 32 % 2 ^ 20 ∨ e.glob = true)) ∧
      (w.toNat / 2 % 2 = 1 → e.ipa * 65536 / 2 ^ e.s2bits ≠ v.toNat / 2 ^ e.s2bits)) ∧
  (∀ pasid page, exec (.atsInvalidation pasid page) s = .next (({ s with ats := s.ats.filter (· != (pasid, page)) } : State).tlbDrop
    fun e => e.kind == 3 && e.pasid == pasid && e.frame == page)) ∧
  (∀ part pasid s2, let key := s.replyKey part pasid s2
    s.asked key = true →
    let clear := fun (c : Cmd) => { c with deny := c.deny.filter fun k => k != key }
    exec (.pdctlSupply part pasid s2) s = .next ((({ s with cmds := s.cmds.map clear } : State).closeMerge key []).retryWords) ∧
    exec (.pdctlFail part pasid s2) s = .next (s.refusePage part pasid s2)) ∧
  (∀ key t i ks, (s.thread t i).wait = .page ks → key ∈ ks → let r := s.closeMerge key [key]
    (r.thread t i).wait = .ready ∧ (r.thread t i).deny = [key]) ∧
  (∀ part (v : DWord) (h : Word),
    exec (.poolbaseWrite part v) s = .next (s.modPart part fun p => { p with poolbase := v.toNat / 65536 * 65536, poolOpen := false }) ∧
    exec (.poolsizeWrite part v) s = .next (s.modPart part fun p =>
      { p with poolsize := v.toNat, popped := 0, poolOpen := true, told := false }) ∧
    exec (.fqheadWrite part h) s = .next ((s.modPart part fun p => { p with fqhead := h }).fqDrain part)) ∧
  (∀ part page m e d pte p ix, (s.merges.find? fun m => m.key == { part, s2 := true, pasid := 0, page } && m.mig) = some m →
    s.stage2 part (page * 65536) = .leaf e d pte p ix → e / 2 ^ 7 % 2 = 1 → (s.partOf part).poolReady = true →
    let old := e / 2 ^ 20 % 2 ^ 36 * 65536
    let new := (s.partOf part).poolbase + 65536 * ((s.partOf part).poolsize - 1 - (s.partOf part).popped)
    let r := (s.modPart part fun p => { p with popped := p.popped + 1 }).copyFrame old new
    let leaf := e - e / 2 ^ 20 % 2 ^ 36 * 2 ^ 20 - e / 2 ^ 8 % 2 ^ 4 * 2 ^ 8 - 2 ^ 7 + new / 65536 * 2 ^ 20
    let r := (r.writeLoc noOwner pte (leBytes 8 leaf) false).tlbDrop fun x => x.part == part && x.ipa == page
    exec (.pageMigration part page) s = .next (((r.fqRecord part (fqWord page 1 true m.exec m.write) (fqWord1 0 m.ctx) old).closeMerge
        { part, s2 := true, pasid := 0, page } []).retryWords))

/-- R171, R263, R264, R281, R282, R288, R327, R336 to R338, R357 to R361: registers take the host's writes, which are ignored
before READY; a host access of device memory reads or writes it; communicator slots open and close; bring-up goes stage by
stage, with the images of a manifest that R291 accepts, and a module reset keeps only device memory. R6, R7, R360: a host's
read gives fields as they stand, and zero for what is written only and before READY.
The model's choices: log entries 11, 13, 46 and 47; the images and their settings, log entry 6; the chip's number, log entry 14;
what a core keeps when the last of its banks is cleared, log entry 40. -/
def Obligations.RegistersSlotsAndBringUp : Prop := ∀ s : State,
  (∀ bar off v, s.mgmt.ready = false → exec (.registerWrite bar off v) s = .next s ∧ exec .mreset s = .next s) ∧
  (s.mgmt.ready = true →
    (∀ off v, exec (.registerWrite 0 off v) s = .next (s.bar0Write off v) ∧
      exec (.registerWrite 2 off v) s = .next (s.notifyWrite (off / 4096) (off % 4096) v)) ∧
    (∀ v : DWord,
      s.bar0Write 0x40 v = { s with mgmt := { s.mgmt with ctxtab := v.toNat / 8192 * 8192 } } ∧
      s.bar0Write 0x60 v = { s with mgmt := { s.mgmt with commtab := v.toNat / 2048 * 2048 } } ∧
      s.bar0Write 0x50 v = { s with mgmt := { s.mgmt with inv := some v, invDone := false, invTags := [], invHeld := [] } } ∧
      ((∀ x ∈ s.ctxs, x.valid = false) → s.bar0Write 0x20 v =
        { s with mgmt := { s.mgmt with drvfeat := s.mgmt.drvfeat.set 0 (v &&& s.mgmt.dfeat) } }) ∧
      (s.mgmt.ctxBusy = false → s.bar0Write 0x48 v = { s with mgmt := { s.mgmt with
        ctx := v.toNat % 64, ctxOp := v.toNat / 256 % 4, ctxBusy := v.toNat / 256 % 4 != 0 } }) ∧
      (v.getLsbD 0 = true → s.bar0Write 0x70 v = s.moduleReset) ∧
      (∀ p, p < 8 → s.partInUse p = false → s.bar0Write (0x1000 + 0x80 * p) v = s.modPart p fun x =>
        { x with clusters := v.toNat / 2 ^ 16 % 2 ^ 24, l2ways := v.toNat % 2 ^ 16 }) ∧
      (∀ p, p < 8 → s.bar0Write (0x1000 + 0x80 * p + 0x40) v = s.pdAddr p v) ∧
      (∀ q, q < 64 → (s.iface q).en = false → s.bar0Write (0x2000 + 0x40 * q + 8) v = s.modIface q fun x =>
        if x.en then x else { x with ring := v.toNat / 4096 * 4096 }) ∧
      (∀ q, s.notifyWrite q 8 v = s.modIface q fun x => { x with prio := v.toNat % 4 })) ∧
    (∀ c b, exec (.mcBankClear c b) s = .next (s.modCore c fun x =>
      let mc := x.mc.set b [0, 0, 0, 0]
      if x.halted = true ∧ (∀ l ∈ mc, (l.getD 0 0).getLsbD 63 = false)
      then { x with mc, halted := false, l1 := [], owned := [], icache := [], tlb := [], issue := Core.reset.issue,
                    banks := Core.reset.banks, spins := Core.reset.spins }
      else { x with mc })) ∧
    (∀ pa n, 0 < n → paMemory (pa + n - 1) = true →
      exec (.cxlMemRead pa n) s = .next { s with out := s.out ++ [.hostData ((List.range n).map fun j => s.mem.read (pa + j)) (s.poisoned (.mem pa) n)] }) ∧
    (∀ pa bytes, bytes ≠ [] → paMemory (pa + bytes.length - 1) = true → ∃ r, exec (.cxlMemWrite pa bytes) s = .next r ∧
      (s.mem.wf = true → ∀ j, j < bytes.length → r.mem.read (pa + j) = bytes.getD j 0)) ∧
    (∀ slot c, slot < 16 → s.mgmt.commBusy = false →
      (((s.recordAt (s.mgmt.commtab + 128 * slot) 5).getD 4 0).toNat % 1024 = 0 ∨ s.mgmt.tsync = true) → s.commRec slot = some c →
      (∀ k ∈ s.comms, ¬ (k.ctx = c.ctx ∧ k.id = c.id) ∧ k.slot ≠ slot) → c.map.length ≤ 1 ∨ s.isRoot c = true → s.cutOff c = false →
      exec (.commcmdOpen slot) s = .next { s with
        comms := s.comms ++ [{ c with acked := true }],
        mgmt := { s.mgmt with comm := slot, commOp := 0, commRes := 0, commBusy := false } }) ∧
    (∀ slot, slot < 16 → s.mgmt.commBusy = false → (∀ c, s.comm slot = some c → s.commWork c = false) →
      exec (.commcmdClose slot) s = .next { s with
        comms := s.comms.filter (fun c => c.slot != slot),
        mgmt := { s.mgmt with comm := slot, commOp := 0, commRes := 0, commBusy := false } }) ∧
    exec .mreset s = .next s.moduleReset) ∧
  (∀ slot, s.mgmt.commBusy = true → s.mgmt.commOp = 1 → s.mgmt.comm = slot → s.mgmt.tsync = false →
    s.mgmt.commSince + 1000000000 ≤ s.clk → exec (.openTimeout slot) s = .next { s with
      mgmt := { s.mgmt with comm := slot, commOp := 0, commRes := 4, commBusy := false, commSince := 0 } }) ∧
  (s.mgmt.stage = 0 → exec .timeSync s = .next s) ∧
  (s.mgmt.stage ≠ 0 → s.mgmt.commBusy = false → exec .timeSync s = .next { s with mgmt := { s.mgmt with tsync := true } }) ∧
  (∃ r, exec .moduleReset s = .next r ∧ r.mem = s.mem ∧ (∀ pa, .mem pa ∈ r.poison ↔ .mem pa ∈ s.poison) ∧ r.hostMem = s.hostMem ∧
    r.teams = [] ∧ r.cores = State.reset.cores ∧ r.ctxs = State.reset.ctxs ∧ r.mgmt = State.reset.mgmt ∧ r.clk = State.reset.clk) ∧
  (∀ b n, s.mgmt.err = 0 → s.mgmt.stage = n → n < 5 → s.bootErr b (n + 1) = 0 → ∃ r, exec (.bringUp b) s = .next r ∧
    r.mgmt.stage = n + 1 ∧ r.mgmt.err = 0 ∧ (n = 0 → r.mgmt.images = b.images) ∧
    (∀ i, n = 1 → (s.mgmt.images.find? fun i => i.1 == 3) = some i → let c := Config.settings i.2
      r.mgmt.dfeat = c.dfeat &&& Config.dfeat0 ∧ r.mgmt.hotAt = c.threshold ∧ r.mgmt.watts = c.powerLimit ∧
      r.mgmt.smbus = c.smbus.getD 0x4E ∧ r.parts = confBlocks c) ∧
    (n = 2 → r.mem = [] ∧ r.mgmt.chip = b.chip ∧ r.mgmt.down = b.down) ∧ (n = 3 → ∀ x ∈ r.cores, x.agentUp = true) ∧
    (n = 4 → r.mgmt.ready = true)) ∧
  (∀ b, s.mgmt.err = 0 → s.mgmt.stage < 5 → s.bootErr b (s.mgmt.stage + 1) ≠ 0 →
    exec (.bringUp b) s = .next { s with mgmt := { s.mgmt with err := s.bootErr b (s.mgmt.stage + 1) } }) ∧
  (∀ b : Boot, let m := b.manifest
    let n := fieldAt m 8 4
    s.bootErr b 1 = 0 → Config.signedBy (m.take (16 + 80 * n)) (m.drop (16 + 80 * n)) = true ∧
      (∀ id ∈ [1, 2, 3], ∃ i ∈ b.images, i.1 = id) ∧
      (∀ i, (b.images.find? fun i => i.1 == 3) = some i → (Config.settings i.2).minVersion ≤ fieldAt m 12 4) ∧
      ∀ k, k < n → let e := (m.drop (16 + 80 * k)).take 80
        ∃ i ∈ b.images, i.1 = fieldAt e 0 4 ∧ fieldAt e 8 8 = i.2.length ∧ (e.drop 16).take 64 = Config.sha512 i.2) ∧
  (∀ off, s.mgmt.ready = false → off ≠ 0x68 → s.regRead 0 off = 0) ∧
  s.regRead 0 0x68 = s.mgmt.err * 2 ^ 24 + s.mgmt.tsync.toNat * 2 ^ 16 + s.mgmt.stage * 2 ^ 8 + s.mgmt.ready.toNat ∧
  (s.mgmt.ready = true → s.regRead 0 0x70 = 0 ∧ s.regRead 0 0x00 = s.mgmt.dfeat.toNat ∧ s.regRead 0 0x40 = s.mgmt.ctxtab ∧
    (∀ p, p < 8 → s.regRead 0 (0x1000 + 0x80 * p) = (s.partOf p).clusters * 2 ^ 16 + (s.partOf p).l2ways ∧
      s.regRead 0 (0x1000 + 0x80 * p + 0x40) = 0 ∧ s.regRead 0 (0x1000 + 0x80 * p + 0x48) = 0)) ∧
  ∀ q, s.regRead 2 (4096 * q) = 0

/-- R334, R335, R339, R343 to R346, R349: a peer's request is performed at its home and answered; an answer fills its result, or
is kept for what asked for it; a JOIN is acknowledged by the root, and what was held flows; a subtree, an abort or a decision is
taken where it may be, and else answered NOTOPEN; a chunk is combined; CBAR messages count, and fail the communicator where
another operation was issued; a lost link fails its communicators. R315: a link's retry is logged.
The model's choices: log entries 7, 14, 22 and 35; of the chunk clauses, log entry 38; of the link's retry, log entries 10 and
40. -/
def Obligations.FabricMessagesAct : Prop := ∀ s : State,
  let sends := fun (s : State) (m : FMsg) => ({ s with out := s.out ++ [.fabric m] } : State)
  (∀ chip tag a n, 0 < n → paMemory (a % 2 ^ 41 + n - 1) = true → let r := s.homeBytes (.mem (a % 2 ^ 41)) n
    exec (.mreq chip tag (.load a n)) s = .next (sends r.1 (.mrsp chip tag r.2 (r.1.poisoned (.mem (a % 2 ^ 41)) n)))) ∧
  (∀ chip tag a bytes bad, bytes ≠ [] → paMemory (a % 2 ^ 41 + bytes.length - 1) = true →
    let r := s.homeWrite (a % 2 ^ 41) bytes
    exec (.mreq chip tag (.store a bytes bad)) s =
      .next (sends (if bad then r.mark (.mem (a % 2 ^ 41)) bytes.length else r) (.mrsp chip tag [] false))) ∧
  (∀ chip tag a wid aop b, 0 < wid → paMemory (a % 2 ^ 41 + wid - 1) = true → let r := s.homeBytes (.mem (a % 2 ^ 41)) wid
    exec (.mreq chip tag (.atom a wid aop b)) s = .next (if r.1.poisoned (.mem (a % 2 ^ 41)) wid then sends r.1 (.mrsp chip tag r.2 true)
      else sends (r.1.homeWrite (a % 2 ^ 41) (leBytes wid (atomResult aop (8 * wid) (leValue r.2) b))) (.mrsp chip tag r.2 false))) ∧
  (∀ tag data bad r, (s.peers.find? fun r => r.tag == tag) = some r →
    let left : State := { s with peers := s.peers.filter fun x => x.tag != tag }
    ((∀ key stale, r.role ≠ .data key stale) → (r.waits = false → r.cmd = 0 → exec (.mrsp tag data bad) s = .next left) ∧
      (r.waits = true → bad = true → let q := s.consume (s.team r.team).core (.peer r.pa)
        exec (.mrsp tag data bad) s = .next { q with peers := q.peers.filter fun x => x.tag != tag })) ∧
    (∀ key, r.role = .data key false → key.pasid ≠ 2 → exec (.mrsp tag data bad) s =
      .next ((({ left with far := left.far ++ [{ key, bytes := data, bad }] } : State).wakePages (fun _ k => k == key) []).retryWords)) ∧
    (r.waits = true → bad = false → r.role = .bytes → exec (.mrsp tag data bad) s = .next (((left.fillResult r.team r.tidx r.key
      (r.how.value data r.scale)).writeBack r.team r.tidx r.key).answered r [r.tidx]))) ∧
  (∀ ftag, (∀ c ∈ s.comms, c.ftag ≠ ftag) → (∀ chip, exec (.join ftag chip) s = .next (sends s (.notopen ftag))) ∧
    (∀ n lo hi a v p, exec (.contribution ftag n lo hi a v p) s = .next (sends s (.notopen ftag))) ∧
    (∀ n, exec (.abortMessage ftag n) s = .next (sends s (.notopen ftag))) ∧
    ∀ n o p, exec (.decision ftag n o p) s = .next (sends s (.notopen ftag))) ∧
  (∀ ftag c, s.commTag ftag = some c →
    (∀ chip, s.isRoot c = true → exec (.join ftag chip) s =
      .next ((c.held.filter fun m => m.to_ chip).foldl (fun (r : State) (m : FMsg) => r.sendTag c true m) (sends (s.modComm c.slot fun x =>
        { x with joined := if x.joined.contains chip then x.joined else x.joined ++ [chip],
                 held := x.held.filter fun m => !m.to_ chip }) (.joinAck ftag chip)))) ∧
    (exec (.notopen ftag none) s = .next (s.modComm c.slot fun x => { x with acked := x.acked && s.isRoot c })) ∧
    (∀ n m, c.sent[n]? = some m → exec (.notopen ftag (some n)) s = .next (s.modComm c.slot fun x =>
      { x with acked := x.acked && s.isRoot c, joined := c.parted m, sent := x.sent.eraseIdx n, held := x.held ++ [m] })) ∧
    (s.isRoot c = false → c.acked = false → exec (.joinAck ftag) s = .next (c.held.foldl
      (fun (r : State) (m : FMsg) => r.sendTag c true m) (s.modComm c.slot fun x => { x with acked := true, held := [] }))) ∧
    (s.isRoot c = false → c.acked = false → c.joinAt + 10000 ≤ s.clk → exec (.joinRetry ftag) s =
      .next (sends (s.modComm c.slot fun x => { x with joinAt := s.clk }) (.join ftag))) ∧
    (∀ n lo hi a v p, c.failed = false → s.isRoot c = true → lo < hi → hi ≤ c.nrank → (c.seqInfo n).outcome = none ∨ v = none →
      let later := if v = none then (c.agree.map Agree.seq).filter fun k => decide (n < k) else []
      exec (.contribution ftag n lo hi a v p) s = .next ((n :: later).foldl (fun (r : State) (k : Nat) => r.tryDecide c.slot k)
        (s.modComm c.slot fun x => x.modSeq n fun e => { e with parts := e.parts ++ [(lo, hi, a, v, p)] }))) ∧
    (∀ n, c.failed = false → s.isRoot c = true → exec (.abortMessage ftag n) s = .next (s.abortAt c.slot n)) ∧
    (∀ n o p, c.failed = false → s.isRoot c = false → o = 1 ∨ o = 2 ∨ o = 3 → (c.seqInfo n).outcome = none →
      exec (.decision ftag n o p) s = .next ((s.modComm c.slot fun x => x.modSeq n fun e =>
        { e with outcome := some (o, p) }).deliver c.slot n)) ∧
    (∀ n p, c.failed = false → exec (.decision ftag n 4 p) s = .next (s.loseComm c.slot p))) ∧
  (∀ slot k n remote c, s.comm slot = some c → c.failed = false → (∀ o ∈ c.ops, o.k = k → ∀ x ∈ remote, x.2.1 = o.sig) →
    c.localReady k = true → (∀ o ∈ c.ops, o.k = k → o.bare = false) →
    let r := (c.ops.filter fun o => o.k == k).foldl (fun (r : State) (o : CollOp) => r.readLeaf slot o) s
    ∀ d, r.comm slot = some d → let here := d.ops.filter fun o => o.k == k
    (∀ o ∈ here, o.bytes.isSome = true) →
    let leaf := fun (o : CollOp) => match o.bytes with
      | some [] => none
      | some l => some (o.rank, (l.drop (65536 * n)).take 65536)
      | none => none
    let far := (remote.filter fun x => decide (x.1 < d.nrank) && !(decide (d.rbase ≤ x.1) && decide (x.1 < d.rbase + d.rcnt))).map
      fun x => (x.1, x.2.2)
    let told := (d.others r.mgmt.chip).foldl (fun (r : State) (_ : Nat) => (here.filter fun o => !o.told.contains n).foldl
      (fun (r : State) (o : CollOp) => match leaf o with
        | some l => r.send (.chunk d.ftag k n l.1 o.sig l.2)
        | none => r) r) r
    let heard := fun (o : CollOp) => if o.k = k ∧ ¬ o.told.contains n then { o with told := o.told ++ [n] } else o
    exec (.collectiveChunk slot k n remote) s = .next (here.foldl (fun (r : State) (o : CollOp) =>
        r.chunkAt slot n (here.filterMap leaf ++ far) o)
      (told.modComm slot fun x => { x with ops := x.ops.map heard }))) ∧
  (∀ slot k n remote c o x, s.comm slot = some c → c.failed = false → o ∈ c.ops → o.k = k → x ∈ remote → x.2.1 ≠ o.sig →
    exec (.collectiveChunk slot k n remote) s = .next (s.failComm slot)) ∧
  (∀ slot k, exec (.chunkAging slot k) s = .next (s.modComm slot fun c =>
    let old := fun (o : CollOp) => if o.k = k then { o with aged := true } else o
    { c with ops := c.ops.map old })) ∧
  (∀ slot k rank sig c, s.comm slot = some c → c.failed = false → rank < c.nrank → rank < c.rbase ∨ c.rbase + c.rcnt ≤ rank →
    ((∃ o ∈ c.ops, o.k = k ∧ o.sig ≠ sig) ∨ (∃ b ∈ c.past, b.1 = k ∧ b.2 ≠ sig) →
      exec (.cbarMessage slot k rank sig) s = .next (s.failComm slot)) ∧
    ((∀ o ∈ c.ops, o.k = k → o.sig = sig) → (∀ b ∈ c.cbars, b.1 = k → b.2.2 = sig) → (∀ b ∈ c.past, b.1 = k → b.2 = sig) →
      exec (.cbarMessage slot k rank sig) s = .next (((s.modComm slot fun x =>
        { x with cbars := if x.cbars.contains (k, rank, sig) then x.cbars else x.cbars ++ [(k, rank, sig)] }).modComm slot fun x =>
          if (x.past.any fun b => b.1 == k) && x.remoteBars k
          then { x with past := x.past.filter fun b => b.1 != k, cbars := x.cbars.filter fun b => b.1 != k } else x).barTry slot k))) ∧
  (∀ chips, let lost := chips.filter fun n => n != s.mgmt.chip && !s.mgmt.down.contains n
    let r := { s with mgmt := { s.mgmt with down := s.mgmt.down ++ lost } }
    exec (.linkLoss chips) s = .next ((r.comms.filter fun c => (c.others r.mgmt.chip).any fun n => r.mgmt.down.contains n).foldl
      (fun (r : State) (c : Comm) => r.failComm c.slot) r)) ∧
  (∀ port, exec (.linkRetry port) s = .next (s.mcLog (48 * (port / 4 % 4)) 9 (Config.syndrome port) none false))

/-- R292, R293, R362: from stage 2 on the module answers attestation and management, on the transport of the request, and on
SMBus at its address. R309, R353, R355: temperature and power move clock steps, and 115 °C resets the module. R313 to R315: an uncorrected error raises a
machine check on its core, which halts it; an error that is masked is logged; the scrub marks what it cannot correct as
poison; a partition that hangs or an agent without a heartbeat lets the watchdog expire.
The model's choices: log entries 6, 10, 40, 46 and 50. -/
def Obligations.ManagementTemperatureAndErrors : Prop := ∀ s : State,
  (2 ≤ s.mgmt.stage → ∀ via, (∀ a, via = .mctpSmbus a → a = s.mgmt.smbus) →
    let answers := fun (i : Instr) (o : Out) => exec i s = .next { s with out := s.out ++ [o] }
    answers (.getVersion via) (.answer via 1 [0x12, 0x13]) ∧ answers (.getCapabilities via) (.answer via 2 Config.capabilities) ∧
    answers (.negotiateAlgorithms via) (.offer via [.ed25519] [.sha512]) ∧
    answers (.getDigests via) (.answer via 4 (Config.sha512 Config.certificate)) ∧
    (∀ a n, answers (.getCertificate via a n) (.answer via 5 ((Config.certificate.drop a).take n))) ∧
    (∀ n, answers (.challenge via n) (.answer via 6 (Config.sign n))) ∧
    (∀ k, 1 ≤ k → k ≤ 3 → answers (.getMeasurements via k) (.answer via 7 (Config.sha512 (s.image k)))) ∧
    (via ≠ .doe → (∀ c, answers (.mctpControl via c) (.answer via 8 (Config.mctpAnswer c))) ∧
      (∀ n, n < 192 → answers (.pldmRequest via n) (.sensor via n (s.core n).heat)) ∧
      (∀ n, 192 ≤ n → n < 209 → answers (.pldmRequest via n) (.sensor via n (mget 0 s.mgmt.temps n))))) ∧
  (∀ n c, n < 209 → 115 ≤ c → exec (.thermalPoll n c) s = .next s.moduleReset) ∧
  (∀ n c, n < 192 → s.mgmt.hotAt + 5 ≤ c → c < 115 → exec (.thermalPoll n c) s = .next ((s.modCore n fun x =>
    if x.clock < 3 ∧ (x.clock = 0 ∨ x.cool + 1000000 ≤ s.clk) then { x with heat := c, clock := x.clock + 1, cool := s.clk }
    else { x with heat := c }).coolDown n)) ∧
  (∀ n c, n < 192 → c < s.mgmt.hotAt → c < 115 → exec (.thermalPoll n c) s = .next ((s.modCore n fun x =>
    if 0 < x.clock ∧ x.cool + 10000000 ≤ s.clk then { x with heat := c, clock := x.clock - 1, cool := s.clk }
    else { x with heat := c }).coolAgain n)) ∧
  (∀ w, s.mgmt.watts < w → exec (.powerLimit w) s =
    .next { s with mgmt := { s.mgmt with cut := min 3 (s.mgmt.cut + 1) }, power := s.clk }) ∧
  (∀ w, w * 100 < s.mgmt.watts * 95 → 0 < s.mgmt.cut → s.power + 10000000 ≤ s.clk → exec (.powerLimit w) s =
    .next { s with mgmt := { s.mgmt with cut := s.mgmt.cut - 1 }, power := s.clk }) ∧
  (∀ c missed, c < 192 → (s.core c).halted = false → missed = true ∨
    (∃ p, p < 4 ∧ (∃ g ∈ s.groupsOf c p, s.ready g = true) ∧ (s.core c).issuedAt.getD p 0 + 100000000 ≤ s.clk) →
    exec (.watchdog c missed) s = .next (s.machineCheck c 13 (Config.syndrome s.clk) none)) ∧
  (∀ c u y a, c < 192 → (∃ r, exec (.machineCheck c u y a true) s = .next r ∧ r = s.machineCheck c u y a ∧
    (c < s.cores.length → (r.core c).halted = true) ∧ (.machineCheck c) ∈ r.out) ∧
    exec (.machineCheck c u y a false) s = .next (s.mcLog c u y a false)) ∧
  (∀ pa, paMemory pa = true → ∃ r, exec (.patrolScrub pa true) s = .next r ∧
    ∀ l, l ∈ r.poison ↔ l ∈ s.poison ∨ ∃ d, d < 32 ∧ l = .mem (pa / 32 * 32 + d)) ∧
  (∀ pa, paMemory pa = true → exec (.patrolScrub pa false) s =
    .next (s.mcLog (dieCore (dieOfPa pa)) (unitOf pa) (Config.syndrome pa) (some pa) false))

/-! ### Decoding, the step, reset and what stays -/

/-- R33, R36, R57: with no agenda and a word at the current issue, a step is `exec` of the instruction that the word decodes
to; the pages refused to its threads are refused to it (R276), which is nothing where none is refused. R8, R56: a word for
which decoding gives no instruction enters the emulation handler, also where the table has its opcode and another case of R56
rejects it; an MMA is tested at its latch (R146). R302: where a return has left a last word that decodes to nothing, it is
over.
The agenda and the marks of refused pages are the model's own (log entries 1 and 15). -/
def Obligations.StepRunsDecodedInstruction : Prop := ∀ (s : State) (k : Iss), s.agenda = [] → s.iss = some k →
  let w := k.clause.word k.pos
  let cls := k.clause.hdr.cls.toNat
  (∀ i, decode cls w = .ok i → step s = match exec i (s.denying k.team k.threads) with
    | .next t => .next (s.undeny k.team k.threads t)
    | .fault r => .fault r
    | .refused r => .refused r) ∧
  ((s.thread k.team (k.threads.headD 0)).deny = [] → s.deny = [] → s.hit = false → s.denying k.team k.threads = s) ∧
  (∀ t : State, (∀ j ∈ k.threads, (t.thread k.team j).deny = []) → t.deny = [] → t.hit = false →
    s.undeny k.team k.threads t = t) ∧
  (let r := s.denying k.team k.threads
    let c := Common.ofWord w
    let found := (lookup cls w).toOption
    (∀ i, decode cls w ≠ .ok i) → (∀ i, found = some i → isMma i = false) → k.threads ≠ [] →
      (s.thread k.team (k.threads.headD 0)).released = false → breaks k.clause.brk k.pc = false →
      (r.guarded k c).guardOpen k c = false →
      step s = .next (s.undeny k.team k.threads ((r.guarded k c).emulate k w found k.threads))) ∧
  ((∀ i, lookup cls w ≠ .ok i) → (s.thread k.team (k.threads.headD 0)).released = true → step s =
    .next (s.undeny k.team k.threads ((s.denying k.team k.threads).resume k (Common.ofWord w) goOn)))

/-- R33, R37, R42, R54, R130, R182, R317: the fields of a header and of words of each class that the manual writes out: a load,
an addition, an atomic, a barrier, MMA, WALK, RDCSR and BRK. -/
def Obligations.WordsDecodeAsWrittenOut : Prop :=
  let c : Common := { nas := 0, look := 0, ts := 0, tok := 0, pneg := 0, pidx := 7 }
  Header.ofWord 0x0100400000000008 = { cls := 0, cnt := 1, wait := 0, bpred := 2, bneg := 0, yh := 0, rsv := 0, target := 8 } ∧
  decode 0 0x70020E0204000208 =
    .ok (.ld { c := { c with look := 1 }, dst := 1, sa := 2, sb := 0, off := 16, wid := 2, ctl := 0 }) ∧
  decode 0 0x01400E080BE20E00 =
    .ok (.add { c := { c with nas := 2 }, dst := 4, sa := 5, sb := 0xF1, sc := 7, ty := 0, ctl := 0 }) ∧
  decode 0 0x7A000E0204080109 = .ok (.atom { c, dst := 1, sa := 2, sb := 4, off := 8, wid := 2, ctl := 1 }) ∧
  decode 0 0xA3000E0600000A01 = .ok (.barArrive { c, dst := 3, sa := 0, sb := 0, sc := 5, ty := 0, ctl := 1 }) ∧
  decode 1 0x03000E0190000142 = .ok (.mma { c, dst := 0, sa := 0xC8, sb := 0, gd := 0, gs := 0, mod := 0x142 }) ∧
  decode 2 0x05000E0004000000 = .ok (.walk { c, dst := 0, sa := 2, sb := 0, gd := 0, gs := 0, mod := 0 }) ∧
  decode 3 0x02000E0800000221 = .ok (.rdcsr { c, dst := 4, sa := 0, sb := 0, idx := 0x011, low := 1 }) ∧
  (∀ cls < 4, decode cls 0xB200000000000000 = .ok (.brk (BitVec.ofNat 2 cls) 0))

/-- R37 to R56: the word of a well-formed instruction decodes to that instruction, with every operand at every value that
its form admits; and the instruction that a word decodes to is encoded by that word. -/
def Obligations.DecodeAndEncodeAgree : Prop :=
  (∀ i cls x, encode i = some (cls, x) → i.wf = true → decode cls x = .ok i) ∧
  ∀ cls x i, decode cls x = .ok i → encode i = some (cls, x) ∧ i.wf = true

/-- R6, R261, R282, R313, R325, R355, R358, R359: after reset every byte of memory reads as zero, there is no team, no
launch, no communicator and nothing in flight, no context is valid and its vectors are zero, no interface is enabled, no
bank of a machine check is in use and no core halted, CLK is 0, and bring-up stands before its first stage.
Memory before bring-up: the model's choice, log entry 13. -/
def Obligations.ResetLeavesTheMachineEmpty : Prop :=
  let s := State.reset
  s.memOk ∧ (∀ a, s.mem.read a = 0) ∧ s.teams = [] ∧ s.launches = [] ∧ s.comms = [] ∧ s.cmds = [] ∧ s.stores = [] ∧
  (∀ c, (s.ctx c).valid = false ∧ (s.ctx c).trapvec = 0 ∧ (s.ctx c).emuvec = 0) ∧
  (∀ q, (s.iface q).en = false) ∧
  (∀ c, (s.core c).halted = false ∧ ∀ b ∈ (s.core c).mc, b = [0, 0, 0, 0]) ∧
  (∀ c p b, (s.bank c p b).owner = none) ∧
  s.clk = 0 ∧ s.mgmt.ready = false ∧ s.mgmt.stage = 0 ∧ s.safe = true

/-- Device memory and every scratchpad keep their canonical form in every step. The form is the model's own (log entry 13);
it says that equal memories are equal data. -/
def Obligations.EveryStepKeepsMemoryCanonical : Prop := ∀ s t : State, s.memOk → step s = .next t → t.memOk

/-- R13, R17, R38, R50, R101: a word of the value families that is not its clause's last, with NAS NEXT, changes no memory,
no context, interface, bank, command or other team; of its own team it changes no register outside its destination, no
predicate but its own, and of threads that do not execute it none. -/
def Obligations.ValueWordsChangeOnlyTheirResults : Prop := ∀ (s t : State) (k : Iss) (i : Instr) (f : Writes),
  valueWrites i = some f → Stands s k i f.c → f.c.nas = 0 → k.clause.last k.pos = false → exec i s = .next t →
  let q := s.settled k i f.c
  let ex := s.runs k f.c
  let u := k.team
  (t.mem = s.mem ∧ t.poison = s.poison ∧ t.hostMem = s.hostMem ∧ t.stores = s.stores ∧ t.peers = s.peers ∧
    t.cmds = s.cmds ∧ t.spilled = s.spilled ∧ t.ctxs = s.ctxs ∧ t.spans = s.spans ∧ t.launches = s.launches ∧
    t.graphs = s.graphs ∧ t.mgmt = s.mgmt ∧ t.parts = s.parts ∧ t.ifaces = s.ifaces ∧ t.comms = s.comms ∧ t.clk = s.clk ∧
    t.out = s.out) ∧
  (∀ c, (t.core c).banks = (s.core c).banks ∧ (t.core c).seq = (s.core c).seq ∧ (t.core c).l1 = (s.core c).l1 ∧
    (t.core c).owned = (s.core c).owned ∧ (t.core c).tlb = (s.core c).tlb ∧ (t.core c).mc = (s.core c).mc ∧ (t.core c).halted = (s.core c).halted) ∧
  (∀ v, v ≠ u → t.team v = s.team v) ∧
  ((t.team u).pad = (s.team u).pad ∧ (t.team u).bars = (s.team u).bars ∧ (t.team u).latches = (s.team u).latches) ∧
  (∀ j, let x := t.thread u j
    let y := q.thread u j
    (j ∉ ex → x.v = y.v ∧ x.p = y.p ∧ x.ew = y.ew) ∧
    (∀ r, (∀ n, opndOf f.dst = .v n → r < n ∨ n + f.regs ≤ r) → x.v[r]? = y.v[r]?) ∧
    (∀ m, m ∉ f.preds → x.pred m = y.pred m) ∧
    ((∀ n, opndOf f.dst ≠ .ew n) → x.ew = y.ew) ∧
    x.pc = y.pc ∧ x.level = y.level ∧ x.banks = y.banks ∧ x.batch = y.batch ∧ x.sealed = y.sealed ∧ x.faults = y.faults ∧
    x.recs = y.recs ∧ x.delivered = y.delivered ∧ (f.long = false → x.pend = y.pend)) ∧
  ∀ h, let x := (t.warp u h).regs
    let y := (q.warp u h).regs
    (∀ r, (∀ n, opndOf f.dst = .s n → r < n ∨ n + f.regs ≤ r) → x.s[r]? = y.s[r]?) ∧
    ({ x with s := [], tok := [] } = { y with s := [], tok := [] }) ∧
    (∀ n, f.long = false ∨ f.c.ts = 0 ∨ n ≠ f.c.tok.toNat → x.tok[n]? = y.tok[n]?)

/-- R176, R178 to R183, R190: a load, store or atomic that passes its probes, is not its clause's last word and has
NAS NEXT changes no byte but those it stores, and those of stores already on their way, which it may make land: for a load
those of the units that it would take from two sources, for the others those of a release and of the bytes at the home. It
changes no register: what it loads is written later (R50). The bytes are as after translation, which may set dirty bits (R269).
The model's choices: log entries 29, 34 and 52. -/
def Obligations.MemoryWordsChangeOnlyTheirBytes : Prop := ∀ (w : FM) (s t : State) (k : Iss),
  w.c.nas = 0 → k.clause.last k.pos = false →
  let ex := s.runs k w.c
  let kept := fun (i : Instr) (ok : State → Prop) (base : State → State) (named : State → Loc → Prop) =>
    Stands s k i w.c → ok (s.settled k i w.c) → exec i s = .next t →
      BytesKept (base (s.settled k i w.c)) t (named (s.settled k i w.c)) ∧
      RegistersKept (s.settled k i w.c) t k.team
  let glob := fun (a : Touch) (q : State) => q.probeGlobal k w ex a
  let load : Touch := {}
  let put : Touch := { write := true }
  let pads := fun (q : State) => q.probePads k ex (fun i => q.padOff w k.team i) (widBytes w.wid)
  let pads8 := fun (q : State) => q.probePads k ex (fun i => (q.opnd k.team i w.sa 1 : Int) + sext w.off8.toNat 8)
    (widBytes w.wid)
  let clean := fun (q : State) (ls : List (Loc × Nat)) => ∀ e ∈ ls, q.consumes k.core e.1 e.2 = false
  let whole := fun (q : State) (ls : List (Loc × Nat)) => ∀ e ∈ ls, q.takesPoison k.core e.1 e.2 = false
  let at_ := fun (as : List (Nat × Access)) (l : Loc) => ∃ e ∈ as, Within e.2.loc e.2.size l
  let sent := fun (q : State) (l : Loc) => ∃ x ∈ q.stores, Within (.mem x.pa) x.bytes.length l
  let typed := fun (p : State) (as : List (Nat × Access)) =>
    let q := (scalesOf as).foldl (fun (s : State) (m : Loc × Nat) => s.fillLoc k.core m.1 1) p
    (as.filter fun e => e.2.farScale.isNone).flatMap fun e => typedBytesAt e.2.fmt w.mty
      (q.opnd k.team e.1 w.dst (memRegs w)) e.2.loc e.2.scale (q.laneScale k.team e.1 e.2)
  let atoms := fun (q : State) => q.probeAtoms k w ex
  let homes := fun (r : State) (as : List (Nat × Access)) => (r.atomArgs k w as).map fun e => (e.2.1, widBytes w.wid)
  let calm := fun (q : State) => ∀ j ∈ ex, q.syncOpen k.team j = false
  let near := fun (q : State) => (glob { stay := true } q).2.filter fun e =>
    !(absentLanes (glob { stay := true } q).2).contains e.1
  kept (.ld w) (fun q => AllPass (glob load q).2 ∧ clean (glob load q).1 (places (passed (glob load q).2)))
    (fun q => (glob load q).1) (fun q => sent (glob load q).1) ∧
  kept (.lda w) (fun q => AllPass (glob load q).2 ∧ calm (glob load q).1 ∧
    whole (glob load q).1 (places (passed (glob load q).2))) (fun q => (glob load q).1) (fun q => sent (glob load q).1) ∧
  kept (.ldnr w) (fun q => AllPass (near q) ∧ clean (glob { stay := true } q).1 (places (passed (near q))))
    (fun q => (glob { stay := true } q).1) (fun q => sent (glob { stay := true } q).1) ∧
  kept (.lds w) (fun q => AllPass (pads q) ∧ clean q (places (passed (pads q)))) id (fun _ _ => False) ∧
  kept (.ldt w) (fun q => AllPass (q.probeTensor k w ex load).2 ∧
    clean (q.probeTensor k w ex load).1 (places (accessing (passed (q.probeTensor k w ex load).2))))
    (fun q => (q.probeTensor k w ex load).1) (fun q => sent (q.probeTensor k w ex load).1) ∧
  (w.wid ≠ 5 → kept (.st w) (fun q => AllPass (glob put q).2) (fun q => (glob put q).1)
    fun q => at_ (passed (glob put q).2)) ∧
  (w.wid = 5 → kept (.st w) (fun q => AllPass (glob put q).2 ∧ clean (glob put q).1 (scalesOf (passed (glob put q).2)))
    (fun q => (glob put q).1)
    fun q l => sent (glob put q).1 l ∨ ∃ x ∈ typed (glob put q).1 (passed (glob put q).2), Within x.1 x.2.length l) ∧
  kept (.sts w) (fun q => AllPass (pads q)) id (fun q => at_ (passed (pads q))) ∧
  kept (.stt w) (fun q => AllPass (q.probeTensor k w ex put).2) (fun q => (q.probeTensor k w ex put).1)
    (fun q => at_ (accessing (passed (q.probeTensor k w ex put).2))) ∧
  kept (.stl w) (fun q => AllPass (glob put q).2 ∧ ((glob put q).1.release k.team ex).isSome = true) (fun q => (glob put q).1)
    (fun q l => at_ (passed (glob put q).2) l ∨ sent (glob put q).1 l) ∧
  kept (.qst w) (fun q => AllPass (q.probeQst k w ex).2) (fun q => (q.probeQst k w ex).1)
    (fun q l => sent (q.probeQst k w ex).1 l ∨ ∃ e ∈ passed (q.probeQst k w ex).2,
      (∃ m, e.2.scale = some m ∧ Within m 1 l) ∨
      ∃ x, e.2.page = some x ∧ Within ((q.probeQst k w ex).1.locOf x
        ((q.ea w k.team e.1).toNat / (32 * 2 ^ x.geom) * (32 * 2 ^ x.geom))) (32 * 2 ^ x.geom) l) ∧
  kept (.red w) (fun q => AllPass (atoms q).2 ∧ whole (atoms q).1 (homes (atoms q).1 (passed (atoms q).2)))
    (fun q => (atoms q).1) (fun q => at_ (passed (atoms q).2)) ∧
  (w.ctl.getLsbD 1 = false → kept (.atom w) (fun q => AllPass (atoms q).2 ∧ (w.ctl.getLsbD 0 = true → calm (atoms q).1) ∧
      whole (atoms q).1 (homes (atoms q).1 (passed (atoms q).2)))
    (fun q => (atoms q).1) (fun q l => at_ (passed (atoms q).2) l ∨ sent (atoms q).1 l)) ∧
  (w.ctl.getLsbD 1 = true → kept (.atom w) (fun q => AllPass (atoms q).2 ∧ ∃ r, (atoms q).1.release k.team ex = some r ∧
      whole r (homes r (passed (atoms q).2)))
    (fun q => (atoms q).1) (fun q l => at_ (passed (atoms q).2) l ∨ sent (atoms q).1 l)) ∧
  kept (.atoms w) (fun q => AllPass (pads8 q) ∧ whole q (homes q (passed (pads8 q)))) id (fun q => at_ (passed (pads8 q)))
end

