-- ==== Sys2Proof/Laws/Encode.lean ====
section
/-! SUPPORT. Each form of an instruction word reads back what it was written from, and its opcode stands in bits 63:56
(R37, R42). -/

namespace Sys2Proof

theorem FA.ofWord_toWord (op : BitVec 8) (x : FA) : FA.ofWord (FA.toWord op x) = x := by
  obtain ⟨⟨a, b, c, d, e, f⟩, g, h, i, j, k, l⟩ := x
  simp only [FA.ofWord, FA.toWord, Common.ofWord, Common.toBits, FA.mk.injEq, Common.mk.injEq]
  refine ⟨⟨?_, ?_, ?_, ?_, ?_, ?_⟩, ?_, ?_, ?_, ?_, ?_, ?_⟩ <;>
    (apply BitVec.eq_of_getLsbD_eq; intro n hn
     simp only [BitVec.getLsbD_extractLsb', BitVec.getLsbD_cast, BitVec.getLsbD_append, hn, decide_true, Bool.true_and]
     repeat (first | rw [if_pos (by omega)] | rw [if_neg (by omega)])
     congr 1; try omega)
theorem FA.op_toWord (op : BitVec 8) (x : FA) : (FA.toWord op x).extractLsb' 56 8 = op := by
  obtain ⟨⟨a, b, c, d, e, f⟩, g, h, i, j, k, l⟩ := x
  simp only [FA.toWord, Common.toBits]
  refine id ?_ <;>
    (apply BitVec.eq_of_getLsbD_eq; intro n hn
     simp only [BitVec.getLsbD_extractLsb', BitVec.getLsbD_cast, BitVec.getLsbD_append, hn, decide_true, Bool.true_and]
     repeat (first | rw [if_pos (by omega)] | rw [if_neg (by omega)])
     congr 1; try omega)

theorem FV.ofWord_toWord (op : BitVec 8) (x : FV) : FV.ofWord (FV.toWord op x) = x := by
  obtain ⟨⟨a, b, c, d, e, f⟩, g, h, i⟩ := x
  simp only [FV.ofWord, FV.toWord, Common.ofWord, Common.toBits, FV.mk.injEq, Common.mk.injEq]
  refine ⟨⟨?_, ?_, ?_, ?_, ?_, ?_⟩, ?_, ?_, ?_⟩ <;>
    (apply BitVec.eq_of_getLsbD_eq; intro n hn
     simp only [BitVec.getLsbD_extractLsb', BitVec.getLsbD_cast, BitVec.getLsbD_append, hn, decide_true, Bool.true_and]
     repeat (first | rw [if_pos (by omega)] | rw [if_neg (by omega)])
     congr 1; try omega)
theorem FV.op_toWord (op : BitVec 8) (x : FV) : (FV.toWord op x).extractLsb' 56 8 = op := by
  obtain ⟨⟨a, b, c, d, e, f⟩, g, h, i⟩ := x
  simp only [FV.toWord, Common.toBits]
  refine id ?_ <;>
    (apply BitVec.eq_of_getLsbD_eq; intro n hn
     simp only [BitVec.getLsbD_extractLsb', BitVec.getLsbD_cast, BitVec.getLsbD_append, hn, decide_true, Bool.true_and]
     repeat (first | rw [if_pos (by omega)] | rw [if_neg (by omega)])
     congr 1; try omega)

theorem FM.ofWord_toWord (op : BitVec 8) (x : FM) : FM.ofWord (FM.toWord op x) = x := by
  obtain ⟨⟨a, b, c, d, e, f⟩, g, h, i, j, k, l⟩ := x
  simp only [FM.ofWord, FM.toWord, Common.ofWord, Common.toBits, FM.mk.injEq, Common.mk.injEq]
  refine ⟨⟨?_, ?_, ?_, ?_, ?_, ?_⟩, ?_, ?_, ?_, ?_, ?_, ?_⟩ <;>
    (apply BitVec.eq_of_getLsbD_eq; intro n hn
     simp only [BitVec.getLsbD_extractLsb', BitVec.getLsbD_cast, BitVec.getLsbD_append, hn, decide_true, Bool.true_and]
     repeat (first | rw [if_pos (by omega)] | rw [if_neg (by omega)])
     congr 1; try omega)
theorem FM.op_toWord (op : BitVec 8) (x : FM) : (FM.toWord op x).extractLsb' 56 8 = op := by
  obtain ⟨⟨a, b, c, d, e, f⟩, g, h, i, j, k, l⟩ := x
  simp only [FM.toWord, Common.toBits]
  refine id ?_ <;>
    (apply BitVec.eq_of_getLsbD_eq; intro n hn
     simp only [BitVec.getLsbD_extractLsb', BitVec.getLsbD_cast, BitVec.getLsbD_append, hn, decide_true, Bool.true_and]
     repeat (first | rw [if_pos (by omega)] | rw [if_neg (by omega)])
     congr 1; try omega)

theorem FX.ofWord_toWord (op : BitVec 8) (x : FX) : FX.ofWord (FX.toWord op x) = x := by
  obtain ⟨⟨a, b, c, d, e, f⟩, g, h, i, j, k, l⟩ := x
  simp only [FX.ofWord, FX.toWord, Common.ofWord, Common.toBits, FX.mk.injEq, Common.mk.injEq]
  refine ⟨⟨?_, ?_, ?_, ?_, ?_, ?_⟩, ?_, ?_, ?_, ?_, ?_, ?_⟩ <;>
    (apply BitVec.eq_of_getLsbD_eq; intro n hn
     simp only [BitVec.getLsbD_extractLsb', BitVec.getLsbD_cast, BitVec.getLsbD_append, hn, decide_true, Bool.true_and]
     repeat (first | rw [if_pos (by omega)] | rw [if_neg (by omega)])
     congr 1; try omega)
theorem FX.op_toWord (op : BitVec 8) (x : FX) : (FX.toWord op x).extractLsb' 56 8 = op := by
  obtain ⟨⟨a, b, c, d, e, f⟩, g, h, i, j, k, l⟩ := x
  simp only [FX.toWord, Common.toBits]
  refine id ?_ <;>
    (apply BitVec.eq_of_getLsbD_eq; intro n hn
     simp only [BitVec.getLsbD_extractLsb', BitVec.getLsbD_cast, BitVec.getLsbD_append, hn, decide_true, Bool.true_and]
     repeat (first | rw [if_pos (by omega)] | rw [if_neg (by omega)])
     congr 1; try omega)

theorem FS.ofWord_toWord (op : BitVec 8) (x : FS) : FS.ofWord (FS.toWord op x) = x := by
  obtain ⟨⟨a, b, c, d, e, f⟩, g, h, i, j, k⟩ := x
  simp only [FS.ofWord, FS.toWord, Common.ofWord, Common.toBits, FS.mk.injEq, Common.mk.injEq]
  refine ⟨⟨?_, ?_, ?_, ?_, ?_, ?_⟩, ?_, ?_, ?_, ?_, ?_⟩ <;>
    (apply BitVec.eq_of_getLsbD_eq; intro n hn
     simp only [BitVec.getLsbD_extractLsb', BitVec.getLsbD_cast, BitVec.getLsbD_append, hn, decide_true, Bool.true_and]
     repeat (first | rw [if_pos (by omega)] | rw [if_neg (by omega)])
     congr 1; try omega)
theorem FS.op_toWord (op : BitVec 8) (x : FS) : (FS.toWord op x).extractLsb' 56 8 = op := by
  obtain ⟨⟨a, b, c, d, e, f⟩, g, h, i, j, k⟩ := x
  simp only [FS.toWord, Common.toBits]
  refine id ?_ <;>
    (apply BitVec.eq_of_getLsbD_eq; intro n hn
     simp only [BitVec.getLsbD_extractLsb', BitVec.getLsbD_cast, BitVec.getLsbD_append, hn, decide_true, Bool.true_and]
     repeat (first | rw [if_pos (by omega)] | rw [if_neg (by omega)])
     congr 1; try omega)

theorem FN.ofWord_toWord (op : BitVec 8) (x : FN) : FN.ofWord (FN.toWord op x) = x := by
  obtain ⟨⟨a, b, c, d, e, f⟩, g⟩ := x
  simp only [FN.ofWord, FN.toWord, Common.ofWord, Common.toBits, FN.mk.injEq, Common.mk.injEq]
  refine ⟨⟨?_, ?_, ?_, ?_, ?_, ?_⟩, ?_⟩ <;>
    (apply BitVec.eq_of_getLsbD_eq; intro n hn
     simp only [BitVec.getLsbD_extractLsb', BitVec.getLsbD_cast, BitVec.getLsbD_append, hn, decide_true, Bool.true_and]
     repeat (first | rw [if_pos (by omega)] | rw [if_neg (by omega)])
     congr 1; try omega)
theorem FN.op_toWord (op : BitVec 8) (x : FN) : (FN.toWord op x).extractLsb' 56 8 = op := by
  obtain ⟨⟨a, b, c, d, e, f⟩, g⟩ := x
  simp only [FN.toWord, Common.toBits]
  refine id ?_ <;>
    (apply BitVec.eq_of_getLsbD_eq; intro n hn
     simp only [BitVec.getLsbD_extractLsb', BitVec.getLsbD_cast, BitVec.getLsbD_append, hn, decide_true, Bool.true_and]
     repeat (first | rw [if_pos (by omega)] | rw [if_neg (by omega)])
     congr 1; try omega)

end Sys2Proof
end

