-- ==== Sys2Proof/Laws/Memory.lean ====
section
/-! SUPPORT. Maps and memory in canonical form: a read after a write, and every operation keeps the form (log entry 13). -/

namespace Sys2Proof.Machine

open Sys2Proof

/-! ### Maps -/

/-- A read of the key just set gives its value. -/
theorem mget_mset_same {β : Type} [DecidableEq β] (d v : β) (m : Map β) (a lo : Nat) (h : mwfFrom d lo m = true) :
    mget d (mset d m a v) a = v := by
  induction m generalizing lo with
  | nil => by_cases hv : v = d <;> simp [mset, mget, hv]
  | cons e r ih =>
    obtain ⟨k, w⟩ := e
    simp only [mwfFrom, Bool.and_eq_true, decide_eq_true_eq] at h
    have hr : ∀ (l : Nat) (r : Map β), mwfFrom d l r = true → a < l → mget d r a = d := by
      intro l r
      induction r generalizing l with
      | nil => intros; rfl
      | cons e r ih =>
        obtain ⟨k, w⟩ := e
        intro hw ha
        simp only [mwfFrom, Bool.and_eq_true, decide_eq_true_eq] at hw
        rw [mget, if_neg (by omega)]
        exact ih (k + 1) hw.2 (by omega)
    simp only [mset]
    split
    · by_cases hv : v = d
      · rw [if_pos hv, mget, if_neg (by omega), hv]
        exact hr (k + 1) r h.2 (by omega)
      · rw [if_neg hv, mget, if_pos rfl]
    · split
      · rename_i _ hak
        subst hak
        by_cases hv : v = d
        · rw [if_pos hv, hv]
          exact hr (a + 1) r h.2 (by omega)
        · rw [if_neg hv, mget, if_pos rfl]
      · rw [mget, if_neg (by omega)]
        exact ih (k + 1) h.2
/-- A read of any other key is unchanged. -/
theorem mget_mset_other {β : Type} [DecidableEq β] (d v : β) (m : Map β) {a b : Nat} (h : b ≠ a) :
    mget d (mset d m a v) b = mget d m b := by
  induction m with
  | nil => by_cases hv : v = d <;> simp [mset, mget, hv, Ne.symm h]
  | cons e r ih =>
    obtain ⟨k, w⟩ := e
    simp only [mset]
    split
    · by_cases hv : v = d <;> simp [hv, mget, Ne.symm h]
    · split
      · rename_i _ hak
        subst hak
        by_cases hv : v = d <;> simp [hv, mget, Ne.symm h]
      · simp only [mget, ih]
/-- A lower bound of the keys may be lowered. -/
theorem mwfFrom_mono {β : Type} [DecidableEq β] {d : β} {m : Map β} {lo lo' : Nat} (h : mwfFrom d lo m = true)
    (hl : lo' ≤ lo) : mwfFrom d lo' m = true := by
  cases m with
  | nil => rfl
  | cons e r =>
    obtain ⟨k, w⟩ := e
    simp only [mwfFrom, Bool.and_eq_true, decide_eq_true_eq] at h ⊢
    exact ⟨⟨by omega, h.1.2⟩, h.2⟩
/-- Setting a key keeps the form. -/
theorem mwfFrom_mset {β : Type} [DecidableEq β] {d : β} {m : Map β} {lo : Nat} (h : mwfFrom d lo m = true) (a : Nat) (v : β)
    (ha : lo ≤ a) : mwfFrom d lo (mset d m a v) = true := by
  induction m generalizing lo with
  | nil => by_cases hv : v = d <;> simp [mset, mwfFrom, hv, ha]
  | cons e r ih =>
    obtain ⟨k, w⟩ := e
    have h' := h
    simp only [mwfFrom, Bool.and_eq_true, decide_eq_true_eq] at h'
    simp only [mset]
    split
    · by_cases hv : v = d
      · rwa [if_pos hv]
      · rw [if_neg hv]
        simp only [mwfFrom, Bool.and_eq_true, decide_eq_true_eq]
        exact ⟨⟨ha, hv⟩, ⟨⟨by omega, h'.1.2⟩, h'.2⟩⟩
    · split
      · rename_i _ hak
        subst hak
        by_cases hv : v = d
        · rw [if_pos hv]
          exact mwfFrom_mono h'.2 (by omega)
        · rw [if_neg hv]
          simp only [mwfFrom, Bool.and_eq_true, decide_eq_true_eq]
          exact ⟨⟨ha, hv⟩, h'.2⟩
      · simp only [mwfFrom, Bool.and_eq_true, decide_eq_true_eq]
        exact ⟨h'.1, ih h'.2 (by omega)⟩
/-- Dropping entries keeps the form. -/
theorem mwfFrom_filter {β : Type} [DecidableEq β] {d : β} {m : Map β} {lo : Nat} (h : mwfFrom d lo m = true)
    (p : Nat × β → Bool) : mwfFrom d lo (m.filter p) = true := by
  induction m generalizing lo with
  | nil => rfl
  | cons e r ih =>
    obtain ⟨k, w⟩ := e
    simp only [mwfFrom, Bool.and_eq_true, decide_eq_true_eq] at h
    rw [List.filter_cons]
    split
    · simp only [mwfFrom, Bool.and_eq_true, decide_eq_true_eq]
      exact ⟨h.1, ih h.2⟩
    · exact mwfFrom_mono (ih h.2) (by omega)

/-! ### Memory -/

@[simp] theorem Memory.wf_nil : Memory.wf [] = true := rfl
theorem Memory.wf_write {m : Memory} (h : m.wf = true) (a : Nat) (b : Byte) : (m.write a b).wf = true :=
  mwfFrom_mset h a b (Nat.zero_le a)
/-- The cells of some bytes before entries that all lie above them. -/
theorem mwfFrom_cellsAt {r : Memory} {lo a : Nat} (bs : List Byte) (ha : lo ≤ a)
    (h : mwfFrom memDefault (a + bs.length) r = true) : mwfFrom memDefault lo (cellsAt a bs ++ r) = true := by
  induction bs generalizing a lo with
  | nil => exact mwfFrom_mono h (by simpa using ha)
  | cons b bs ih =>
    have h' : mwfFrom memDefault (a + 1 + bs.length) r = true := by
      rwa [List.length_cons, show a + (bs.length + 1) = a + 1 + bs.length by omega] at h
    rw [cellsAt]
    split
    · exact ih (by omega) h'
    · next hb =>
      simp only [List.cons_append, mwfFrom, Bool.and_eq_true, decide_eq_true_eq]
      exact ⟨⟨ha, hb⟩, ih (Nat.le_refl _) h'⟩
/-- The entries above some bytes. -/
theorem mwfFrom_above {m : Memory} {lo a : Nat} (n : Nat) (ha : a ≤ lo) (h : mwfFrom memDefault lo m = true) :
    mwfFrom memDefault (a + n) (m.dropWhile fun c => decide (a ≤ c.1) && decide (c.1 < a + n)) = true := by
  induction m generalizing lo with
  | nil => rfl
  | cons e r ih =>
    obtain ⟨k, v⟩ := e
    have h' := h
    simp only [mwfFrom, Bool.and_eq_true, decide_eq_true_eq] at h'
    rw [List.dropWhile_cons]
    split
    · exact ih (by omega) h'.2
    · next hk =>
      simp only [Bool.and_eq_true, decide_eq_true_eq, not_and, Nat.not_lt] at hk
      simp only [mwfFrom, Bool.and_eq_true, decide_eq_true_eq]
      exact ⟨⟨hk (by omega), h'.1.2⟩, h'.2⟩
theorem mwfFrom_writeN {m : Memory} {lo a : Nat} (bs : List Byte) (ha : lo ≤ a) (h : mwfFrom memDefault lo m = true) :
    mwfFrom memDefault lo (m.writeN a bs) = true := by
  induction m generalizing lo with
  | nil => simpa [Memory.writeN] using mwfFrom_cellsAt (r := []) bs ha rfl
  | cons e r ih =>
    obtain ⟨k, v⟩ := e
    have h' := h
    simp only [mwfFrom, Bool.and_eq_true, decide_eq_true_eq] at h'
    rw [Memory.writeN]
    split
    · simp only [mwfFrom, Bool.and_eq_true, decide_eq_true_eq]
      exact ⟨h'.1, ih (by omega) h'.2⟩
    · next hk =>
      refine mwfFrom_cellsAt bs ha (mwfFrom_above (lo := k) bs.length (by omega) ?_)
      simp only [mwfFrom, Bool.and_eq_true, decide_eq_true_eq]
      exact ⟨⟨Nat.le_refl _, h'.1.2⟩, h'.2⟩
theorem Memory.wf_writeN {m : Memory} (h : m.wf = true) (a : Nat) (bs : List Byte) : (m.writeN a bs).wf = true :=
  mwfFrom_writeN bs (Nat.zero_le a) h
theorem Memory.wf_filter {m : Memory} (h : m.wf = true) (p : Host.Cell → Bool) : Memory.wf (m.filter p) = true :=
  mwfFrom_filter h p
/-- A fold of writes keeps the form. -/
theorem Memory.wf_foldl_write {α : Type} {m : Memory} (h : m.wf = true) (l : List α) (f : α → Nat) (g : α → Byte) :
    Memory.wf (l.foldl (fun (m : Memory) e => m.write (f e) (g e)) m) = true := by
  induction l generalizing m with
  | nil => exact h
  | cons e r ih => exact ih (Memory.wf_write h _ _)

/-- So does a fold from the right. -/
theorem Memory.wf_foldr_write {α : Type} {m : Memory} (h : m.wf = true) (l : List α) (f : α → Nat) (g : α → Byte) :
    Memory.wf (l.foldr (fun e (m : Memory) => m.write (f e) (g e)) m) = true := by
  induction l with
  | nil => exact h
  | cons e r ih => exact Memory.wf_write ih _ _
/-- Memory set to zero keeps the form. -/
theorem Memory.wf_clear {m : Memory} (h : m.wf = true) (a n : Nat) : (m.clear a n).wf = true := Memory.wf_filter h _

theorem Memory.read_write_same {m : Memory} (h : m.wf = true) (a : Nat) (b : Byte) : (m.write a b).read a = b :=
  mget_mset_same memDefault b m a 0 h
theorem Memory.read_write_other (m : Memory) (b : Byte) {a c : Nat} (h : c ≠ a) : (m.write a b).read c = m.read c :=
  mget_mset_other memDefault b m h
/-- The cells of some bytes say nothing of other addresses. -/
theorem mget_cells_outside {r : Memory} {a c : Nat} (bs : List Byte) (h : c < a ∨ a + bs.length ≤ c) :
    mget memDefault (cellsAt a bs ++ r) c = mget memDefault r c := by
  induction bs generalizing a with
  | nil => rfl
  | cons b bs ih =>
    simp only [List.length_cons] at h
    rw [cellsAt]
    split
    · exact ih (by omega)
    · rw [List.cons_append, mget, if_neg (by omega), ih (by omega)]
/-- Dropping the entries of a range says nothing of other addresses. -/
theorem mget_above (m : Memory) (n : Nat) {a c : Nat} (h : c < a ∨ a + n ≤ c) :
    mget memDefault (m.dropWhile fun e => decide (a ≤ e.1) && decide (e.1 < a + n)) c = mget memDefault m c := by
  induction m with
  | nil => rfl
  | cons e r ih =>
    obtain ⟨k, v⟩ := e
    rw [List.dropWhile_cons]
    split
    · next hk =>
      simp only [Bool.and_eq_true, decide_eq_true_eq] at hk
      rw [ih, mget, if_neg (by omega)]
    · rfl
/-- What lies above a bound does not say what is read below it. -/
theorem mget_below {m : Memory} {lo c : Nat} (h : mwfFrom memDefault lo m = true) (hc : c < lo) :
    mget memDefault m c = memDefault := by
  induction m generalizing lo with
  | nil => rfl
  | cons e r ih =>
    obtain ⟨k, v⟩ := e
    simp only [mwfFrom, Bool.and_eq_true, decide_eq_true_eq] at h
    rw [mget, if_neg (by omega)]
    exact ih h.2 (by omega)
/-- The cells of some bytes read as they are. -/
theorem mget_cells_inside {r : Memory} {a : Nat} (bs : List Byte) (h : mwfFrom memDefault (a + bs.length) r = true) (d : Nat)
    (hd : d < bs.length) : mget memDefault (cellsAt a bs ++ r) (a + d) = bs[d] := by
  induction bs generalizing a d with
  | nil => simp at hd
  | cons b bs ih =>
    have h' : mwfFrom memDefault (a + 1 + bs.length) r = true := by
      rwa [List.length_cons, show a + (bs.length + 1) = a + 1 + bs.length by omega] at h
    rw [cellsAt]
    cases d with
    | zero =>
      split
      · next hb =>
        rw [mget_cells_outside bs (by omega), mget_below h' (by omega)]
        simp [hb]
      · simp [mget]
    | succ d =>
      have hd' : d < bs.length := by simpa using hd
      split
      · rw [show a + (d + 1) = a + 1 + d by omega, ih h' d hd']; simp
      · rw [List.cons_append, mget, if_neg (by omega), show a + (d + 1) = a + 1 + d by omega, ih h' d hd']; simp
/-- Outside the bytes written, memory reads as before. -/
theorem Memory.read_writeN_outside (m : Memory) (a : Nat) (bs : List Byte) {c : Nat} (h : c < a ∨ a + bs.length ≤ c) :
    (m.writeN a bs).read c = m.read c := by
  induction m with
  | nil => simpa [Memory.writeN, Memory.read] using mget_cells_outside (r := []) bs h
  | cons e r ih =>
    obtain ⟨k, v⟩ := e
    rw [Memory.writeN]
    split
    · simp only [Memory.read, mget] at ih ⊢
      rw [ih]
    · rw [Memory.read, mget_cells_outside bs h, mget_above _ _ h]
      rfl
/-- Inside them, it reads as what was written. -/
theorem Memory.read_writeN_inside {m : Memory} (h : m.wf = true) (a : Nat) (bs : List Byte) (d : Nat) (hd : d < bs.length) :
    (m.writeN a bs).read (a + d) = bs[d] := by
  suffices ∀ lo, mwfFrom memDefault lo m = true → (m.writeN a bs).read (a + d) = bs[d] from this 0 h
  intro lo h
  induction m generalizing lo with
  | nil => simpa [Memory.writeN, Memory.read] using mget_cells_inside (r := []) (a := a) bs rfl d hd
  | cons e r ih =>
    obtain ⟨k, v⟩ := e
    have h' := h
    simp only [mwfFrom, Bool.and_eq_true, decide_eq_true_eq] at h'
    rw [Memory.writeN]
    split
    · have := ih (mwfFrom_mono h'.2 (Nat.zero_le _)) _ h'.2
      simp only [Memory.read, mget] at this ⊢
      rw [if_neg (by omega), this]
    · refine mget_cells_inside bs (mwfFrom_above (lo := k) bs.length (by omega) ?_) d hd
      simp only [mwfFrom, Bool.and_eq_true, decide_eq_true_eq]
      exact ⟨⟨Nat.le_refl _, h'.1.2⟩, h'.2⟩
@[simp] theorem Memory.length_readN (m : Memory) (a n : Nat) : (m.readN a n).length = n := by
  induction n generalizing a with
  | zero => rfl
  | succ n ih => simp [Memory.readN, ih]
theorem Memory.getElem_readN (m : Memory) (a n d : Nat) (hd : d < (m.readN a n).length) : (m.readN a n)[d] = m.read (a + d) := by
  induction n generalizing a d with
  | zero => simp [Memory.readN] at hd
  | succ n ih =>
    cases d with
    | zero => rfl
    | succ d =>
      have hd' : d < (m.readN (a + 1) n).length := by simpa [Memory.readN] using hd
      simpa [Memory.readN, Nat.add_assoc, Nat.add_comm 1 d] using ih (a + 1) d hd'
/-- Bytes just written read back. -/
theorem Memory.readN_writeN {m : Memory} (h : m.wf = true) (a : Nat) (bs : List Byte) :
    (m.writeN a bs).readN a bs.length = bs := by
  apply List.ext_getElem (by simp)
  intro d h1 h2
  rw [Memory.getElem_readN, Memory.read_writeN_inside h a bs d h2]

/-! ### The memories of a state -/

/-- A state with the same memories. -/
theorem State.memOk_of_eq {s t : State} (h : s.memOk) (hm : t.mem = s.mem) (ht : t.teams = s.teams) : t.memOk := by
  unfold State.memOk at *; rwa [hm, ht]
theorem State.memOk_reset : State.reset.memOk := ⟨rfl, by simp [State.reset]⟩
/-- A change of a team that keeps its scratchpad's form. -/
theorem State.memOk_modTeam {s : State} (h : s.memOk) (t : Nat) {f : Team → Team}
    (hf : ∀ m : Team, m.pad.wf = true → (f m).pad.wf = true) : (s.modTeam t f).memOk := by
  refine ⟨h.1, ?_⟩
  intro m hm
  unfold State.modTeam at hm
  obtain ⟨i, hi, rfl⟩ := List.mem_iff_getElem.mp hm
  simp only [List.getElem_modify]
  simp only [List.length_modify] at hi
  split
  · exact hf _ (h.2 _ (List.getElem_mem hi))
  · exact h.2 _ (List.getElem_mem hi)
theorem State.memOk_modThread {s : State} (h : s.memOk) (t i : Nat) (f : Thread → Thread) : (s.modThread t i f).memOk :=
  State.memOk_modTeam h t fun _ h => h
theorem State.memOk_modWarp {s : State} (h : s.memOk) (t w : Nat) (f : Warp → Warp) : (s.modWarp t w f).memOk :=
  State.memOk_modTeam h t fun _ h => h
/-- A fold of steps that each keep the form. -/
theorem State.memOk_foldl {α : Type} {s : State} (h : s.memOk) (l : List α) (f : State → α → State)
    (hf : ∀ (s : State) (a : α), s.memOk → (f s a).memOk) : (l.foldl f s).memOk := by
  induction l generalizing s with
  | nil => exact h
  | cons a r ih => exact ih (hf s a h)

end Sys2Proof.Machine
end

