-- ==== Sys2Proof/Laws/PerInstr.lean ====
section
/-! SUPPORT. For each instruction: the word that encodes it decodes to it again (R37 to R56). -/

namespace Sys2Proof.Laws
namespace Encodes

/-- The word of a well-formed instruction decodes to that instruction; a step of the machine itself has no word. -/
def Statement (i : Instr) : Prop := ∀ cls x, encode i = some (cls, x) → i.wf = true → decode cls x = .ok i

theorem of_lookup {i : Instr} {c : Nat} {y : DWord} (he : encode i = some (c, y))
    (hl : i.wf = true → lookup c y = .ok i) : Statement i := by
  intro cls x h hw
  have h2 := he.symm.trans h
  simp only [Option.some.injEq, Prod.mk.injEq] at h2
  obtain ⟨rfl, rfl⟩ := h2
  have hn : i.staticCase = none := by simpa [Instr.wf] using hw
  simp [decode, hl hw, hn]

theorem no_word {i : Instr} (he : encode i = none) : Statement i := by
  intro cls x h
  simp [he] at h

theorem lookup_gen {op : BitVec 8} {x : DWord} (h : x.extractLsb' 56 8 = op) (hb : op.toNat ≠ 0xB2) :
    lookup 0 x = decodeGen op.toNat x := by
  subst h; unfold lookup; rw [if_neg hb]; rfl
theorem lookup_mtx {op : BitVec 8} {x : DWord} (h : x.extractLsb' 56 8 = op) (hb : op.toNat ≠ 0xB2) :
    lookup 1 x = decodeMtx op.toNat x := by
  subst h; unfold lookup; rw [if_neg hb]; rfl
theorem lookup_eng {op : BitVec 8} {x : DWord} (h : x.extractLsb' 56 8 = op) (hb : op.toNat ≠ 0xB2) :
    lookup 2 x = decodeEng op.toNat x := by
  subst h; unfold lookup; rw [if_neg hb]; rfl
theorem lookup_sys {op : BitVec 8} {x : DWord} (h : x.extractLsb' 56 8 = op) (hb : op.toNat ≠ 0xB2) :
    lookup 3 x = decodeSys op.toNat x := by
  subst h; unfold lookup; rw [if_neg hb]; rfl

theorem field_none {i : Instr} {c : Common} (hc : i.common = some c) (hw : i.wf = true) : i.fieldCase = none := by
  have hn : i.staticCase = none := by simpa [Instr.wf] using hw
  rw [Instr.staticCase, hc] at hn
  cases hf : i.fieldCase with
  | none => rfl
  | some k => simp [hf] at hn

theorem firstCase_all {l : List (Bool × NotInstr)} (h : firstCase l = none) : ∀ p ∈ l, p.1 = true := by
  induction l with
  | nil => simp
  | cons a r ih =>
    obtain ⟨ok, k⟩ := a
    cases ok with
    | false => simp [firstCase] at h
    | true => simpa [firstCase] using ih (by simpa [firstCase] using h)

theorem decGen_63 (x : DWord) : decodeGen (0x63 : BitVec 8).toNat x =
    match (FA.ofWord x).ctl.toNat with
    | 0 => .ok (.pmovGet (FA.ofWord x))
    | 1 => .ok (.pmovSet (FA.ofWord x))
    | _ => .error .value := rfl

theorem decGen_7D (x : DWord) : decodeGen (0x7D : BitVec 8).toNat x =
    match (FM.ofWord x).ctl.toNat with
    | 1 => .ok (.fenceAcq (FM.ofWord x))
    | 2 => .ok (.fenceRel (FM.ofWord x))
    | 3 => .ok (.fenceFull (FM.ofWord x))
    | _ => .error .value := rfl

theorem decGen_A2 (x : DWord) : decodeGen (0xA2 : BitVec 8).toNat x =
    match (FA.ofWord x).ctl.toNat with
    | 0 => .ok (.meetset (FA.ofWord x))
    | 1 => .ok (.meetsetR (FA.ofWord x))
    | 2 => .ok (.meetsetClr (FA.ofWord x))
    | _ => .error .value := rfl

theorem decGen_A3 (x : DWord) : decodeGen (0xA3 : BitVec 8).toNat x =
    match (FA.ofWord x).ctl.toNat with
    | 1 => .ok (.barArrive (FA.ofWord x))
    | 2 => .ok (.barWait (FA.ofWord x))
    | 3 => .ok (.barSync (FA.ofWord x))
    | _ => .error .value := rfl

theorem decGen_A4 (x : DWord) : decodeGen (0xA4 : BitVec 8).toNat x =
    match (FA.ofWord x).ctl.toNat with
    | 1 => .ok (.sbarArrive (FA.ofWord x))
    | 2 => .ok (.sbarWait (FA.ofWord x))
    | 3 => .ok (.sbarSync (FA.ofWord x))
    | _ => .error .value := rfl

theorem decGen_A5 (x : DWord) : decodeGen (0xA5 : BitVec 8).toNat x =
    match (FM.ofWord x).ctl.toNat with
    | 0 => .ok (.watch (FM.ofWord x))
    | 1 => .ok (.watchClr (FM.ofWord x))
    | _ => .error .value := rfl

theorem decGen_AA (x : DWord) : decodeGen (0xAA : BitVec 8).toNat x =
    match (FA.ofWord x).ctl.toNat with
    | 0 => .ok (.cbsync (FA.ofWord x))
    | 1 => .ok (.cbsyncAbort (FA.ofWord x))
    | _ => .error .value := rfl

theorem decSys_01 (x : DWord) : decodeSys (0x01 : BitVec 8).toNat x =
    match (FS.ofWord x).low.toNat with
    | 0 => .ok (.eretDone (FS.ofWord x))
    | 1 => .ok (.eretRetry (FS.ofWord x))
    | _ => .error .value := rfl

theorem decSys_04 (x : DWord) : decodeSys (0x04 : BitVec 8).toNat x =
    match (FS.ofWord x).low.toNat with
    | 0 => .ok (.tlbinvPage (FS.ofWord x))
    | 1 => .ok (.tlbinvPasid (FS.ofWord x))
    | 2 => .ok (.tlbinvGpage (FS.ofWord x))
    | 3 => .ok (.tlbinvIpa (FS.ofWord x))
    | 4 => .ok (.tlbinvAll (FS.ofWord x))
    | _ => .error .value := rfl

theorem decSys_05 (x : DWord) : decodeSys (0x05 : BitVec 8).toNat x =
    match (FS.ofWord x).low.toNat with
    | 0 => .ok (.ctxswOut (FS.ofWord x))
    | 1 => .ok (.ctxswIn (FS.ofWord x))
    | _ => .error .value := rfl

theorem decSys_06 (x : DWord) : decodeSys (0x06 : BitVec 8).toNat x =
    match (FS.ofWord x).low.toNat with
    | 0 => .ok (.claim (FS.ofWord x))
    | 1 => .ok (.claimNode (FS.ofWord x))
    | _ => .error .value := rfl

theorem nop (cls : BitVec 2) (w : FN) : Statement (.nop cls w) := by
  refine of_lookup rfl fun _ => ?_
  have h : ∀ c : BitVec 2, c = 0 ∨ c = 1 ∨ c = 2 ∨ c = 3 := by decide
  rcases h cls with rfl | rfl | rfl | rfl
  · exact (lookup_gen (FN.op_toWord _ _) (by decide)).trans (congrArg (fun z => Except.ok (Instr.nop 0 z)) (FN.ofWord_toWord _ _))
  · exact (lookup_mtx (FN.op_toWord _ _) (by decide)).trans (congrArg (fun z => Except.ok (Instr.nop 1 z)) (FN.ofWord_toWord _ _))
  · exact (lookup_eng (FN.op_toWord _ _) (by decide)).trans (congrArg (fun z => Except.ok (Instr.nop 2 z)) (FN.ofWord_toWord _ _))
  · exact (lookup_sys (FN.op_toWord _ _) (by decide)).trans (congrArg (fun z => Except.ok (Instr.nop 3 z)) (FN.ofWord_toWord _ _))

theorem brk (cls : BitVec 2) (rest : BitVec 56) : Statement (.brk cls rest) := by
  refine of_lookup rfl fun _ => ?_
  have h1 : ((0xB2 : BitVec 8) ++ rest).extractLsb' 56 8 = 0xB2 := by
    apply BitVec.eq_of_getLsbD_eq; intro n hn
    simp only [BitVec.getLsbD_extractLsb', BitVec.getLsbD_append, hn, decide_true, Bool.true_and]
    rw [if_neg (by omega)]; congr 1; omega
  have h2 : ((0xB2 : BitVec 8) ++ rest).extractLsb' 0 56 = rest := by
    apply BitVec.eq_of_getLsbD_eq; intro n hn
    simp only [BitVec.getLsbD_extractLsb', BitVec.getLsbD_append, hn, decide_true, Bool.true_and]
    rw [if_pos (by omega)]; congr 1; omega
  have h3 : cls.toNat < 4 := cls.isLt
  have h4 : BitVec.ofNat 2 cls.toNat = cls := by simp
  change lookup cls.toNat ((0xB2 : BitVec 8) ++ rest) = _
  unfold lookup
  rw [h1]
  change (if cls.toNat < 4 then _ else _) = _
  rw [if_pos h3, h2, h4]

theorem add (w : FA) : Statement (.add w) := of_lookup rfl fun _ =>
  (lookup_gen (FA.op_toWord _ _) (by decide)).trans (congrArg (fun z => Except.ok (Instr.add z)) (FA.ofWord_toWord _ _))

theorem sub (w : FA) : Statement (.sub w) := of_lookup rfl fun _ =>
  (lookup_gen (FA.op_toWord _ _) (by decide)).trans (congrArg (fun z => Except.ok (Instr.sub z)) (FA.ofWord_toWord _ _))

theorem mul (w : FA) : Statement (.mul w) := of_lookup rfl fun _ =>
  (lookup_gen (FA.op_toWord _ _) (by decide)).trans (congrArg (fun z => Except.ok (Instr.mul z)) (FA.ofWord_toWord _ _))

theorem mulh (w : FA) : Statement (.mulh w) := of_lookup rfl fun _ =>
  (lookup_gen (FA.op_toWord _ _) (by decide)).trans (congrArg (fun z => Except.ok (Instr.mulh z)) (FA.ofWord_toWord _ _))

theorem mad (w : FA) : Statement (.mad w) := of_lookup rfl fun _ =>
  (lookup_gen (FA.op_toWord _ _) (by decide)).trans (congrArg (fun z => Except.ok (Instr.mad z)) (FA.ofWord_toWord _ _))

theorem madw (w : FA) : Statement (.madw w) := of_lookup rfl fun _ =>
  (lookup_gen (FA.op_toWord _ _) (by decide)).trans (congrArg (fun z => Except.ok (Instr.madw z)) (FA.ofWord_toWord _ _))

theorem addc (w : FA) : Statement (.addc w) := of_lookup rfl fun _ =>
  (lookup_gen (FA.op_toWord _ _) (by decide)).trans (congrArg (fun z => Except.ok (Instr.addc z)) (FA.ofWord_toWord _ _))

theorem subb (w : FA) : Statement (.subb w) := of_lookup rfl fun _ =>
  (lookup_gen (FA.op_toWord _ _) (by decide)).trans (congrArg (fun z => Except.ok (Instr.subb z)) (FA.ofWord_toWord _ _))

theorem neg (w : FA) : Statement (.neg w) := of_lookup rfl fun _ =>
  (lookup_gen (FA.op_toWord _ _) (by decide)).trans (congrArg (fun z => Except.ok (Instr.neg z)) (FA.ofWord_toWord _ _))

theorem abs (w : FA) : Statement (.abs w) := of_lookup rfl fun _ =>
  (lookup_gen (FA.op_toWord _ _) (by decide)).trans (congrArg (fun z => Except.ok (Instr.abs z)) (FA.ofWord_toWord _ _))

theorem min (w : FA) : Statement (.min w) := of_lookup rfl fun _ =>
  (lookup_gen (FA.op_toWord _ _) (by decide)).trans (congrArg (fun z => Except.ok (Instr.min z)) (FA.ofWord_toWord _ _))

theorem max (w : FA) : Statement (.max w) := of_lookup rfl fun _ =>
  (lookup_gen (FA.op_toWord _ _) (by decide)).trans (congrArg (fun z => Except.ok (Instr.max z)) (FA.ofWord_toWord _ _))

theorem and (w : FA) : Statement (.and w) := of_lookup rfl fun _ =>
  (lookup_gen (FA.op_toWord _ _) (by decide)).trans (congrArg (fun z => Except.ok (Instr.and z)) (FA.ofWord_toWord _ _))

theorem or (w : FA) : Statement (.or w) := of_lookup rfl fun _ =>
  (lookup_gen (FA.op_toWord _ _) (by decide)).trans (congrArg (fun z => Except.ok (Instr.or z)) (FA.ofWord_toWord _ _))

theorem xor (w : FA) : Statement (.xor w) := of_lookup rfl fun _ =>
  (lookup_gen (FA.op_toWord _ _) (by decide)).trans (congrArg (fun z => Except.ok (Instr.xor z)) (FA.ofWord_toWord _ _))

theorem andn (w : FA) : Statement (.andn w) := of_lookup rfl fun _ =>
  (lookup_gen (FA.op_toWord _ _) (by decide)).trans (congrArg (fun z => Except.ok (Instr.andn z)) (FA.ofWord_toWord _ _))

theorem not (w : FA) : Statement (.not w) := of_lookup rfl fun _ =>
  (lookup_gen (FA.op_toWord _ _) (by decide)).trans (congrArg (fun z => Except.ok (Instr.not z)) (FA.ofWord_toWord _ _))

theorem shl (w : FA) : Statement (.shl w) := of_lookup rfl fun _ =>
  (lookup_gen (FA.op_toWord _ _) (by decide)).trans (congrArg (fun z => Except.ok (Instr.shl z)) (FA.ofWord_toWord _ _))

theorem shr (w : FA) : Statement (.shr w) := of_lookup rfl fun _ =>
  (lookup_gen (FA.op_toWord _ _) (by decide)).trans (congrArg (fun z => Except.ok (Instr.shr z)) (FA.ofWord_toWord _ _))

theorem sar (w : FA) : Statement (.sar w) := of_lookup rfl fun _ =>
  (lookup_gen (FA.op_toWord _ _) (by decide)).trans (congrArg (fun z => Except.ok (Instr.sar z)) (FA.ofWord_toWord _ _))

theorem rotl (w : FA) : Statement (.rotl w) := of_lookup rfl fun _ =>
  (lookup_gen (FA.op_toWord _ _) (by decide)).trans (congrArg (fun z => Except.ok (Instr.rotl z)) (FA.ofWord_toWord _ _))

theorem fshf (w : FA) : Statement (.fshf w) := of_lookup rfl fun _ =>
  (lookup_gen (FA.op_toWord _ _) (by decide)).trans (congrArg (fun z => Except.ok (Instr.fshf z)) (FA.ofWord_toWord _ _))

theorem popc (w : FA) : Statement (.popc w) := of_lookup rfl fun _ =>
  (lookup_gen (FA.op_toWord _ _) (by decide)).trans (congrArg (fun z => Except.ok (Instr.popc z)) (FA.ofWord_toWord _ _))

theorem clz (w : FA) : Statement (.clz w) := of_lookup rfl fun _ =>
  (lookup_gen (FA.op_toWord _ _) (by decide)).trans (congrArg (fun z => Except.ok (Instr.clz z)) (FA.ofWord_toWord _ _))

theorem ctz (w : FA) : Statement (.ctz w) := of_lookup rfl fun _ =>
  (lookup_gen (FA.op_toWord _ _) (by decide)).trans (congrArg (fun z => Except.ok (Instr.ctz z)) (FA.ofWord_toWord _ _))

theorem brev (w : FA) : Statement (.brev w) := of_lookup rfl fun _ =>
  (lookup_gen (FA.op_toWord _ _) (by decide)).trans (congrArg (fun z => Except.ok (Instr.brev z)) (FA.ofWord_toWord _ _))

theorem bfx (w : FA) : Statement (.bfx w) := of_lookup rfl fun _ =>
  (lookup_gen (FA.op_toWord _ _) (by decide)).trans (congrArg (fun z => Except.ok (Instr.bfx z)) (FA.ofWord_toWord _ _))

theorem bfi (w : FA) : Statement (.bfi w) := of_lookup rfl fun _ =>
  (lookup_gen (FA.op_toWord _ _) (by decide)).trans (congrArg (fun z => Except.ok (Instr.bfi z)) (FA.ofWord_toWord _ _))

theorem prmt (w : FA) : Statement (.prmt w) := of_lookup rfl fun _ =>
  (lookup_gen (FA.op_toWord _ _) (by decide)).trans (congrArg (fun z => Except.ok (Instr.prmt z)) (FA.ofWord_toWord _ _))

theorem lea (w : FA) : Statement (.lea w) := of_lookup rfl fun _ =>
  (lookup_gen (FA.op_toWord _ _) (by decide)).trans (congrArg (fun z => Except.ok (Instr.lea z)) (FA.ofWord_toWord _ _))

theorem cmp (w : FA) : Statement (.cmp w) := of_lookup rfl fun _ =>
  (lookup_gen (FA.op_toWord _ _) (by decide)).trans (congrArg (fun z => Except.ok (Instr.cmp z)) (FA.ofWord_toWord _ _))

theorem sel (w : FA) : Statement (.sel w) := of_lookup rfl fun _ =>
  (lookup_gen (FA.op_toWord _ _) (by decide)).trans (congrArg (fun z => Except.ok (Instr.sel z)) (FA.ofWord_toWord _ _))

theorem div (w : FA) : Statement (.div w) := of_lookup rfl fun _ =>
  (lookup_gen (FA.op_toWord _ _) (by decide)).trans (congrArg (fun z => Except.ok (Instr.div z)) (FA.ofWord_toWord _ _))

theorem rem (w : FA) : Statement (.rem w) := of_lookup rfl fun _ =>
  (lookup_gen (FA.op_toWord _ _) (by decide)).trans (congrArg (fun z => Except.ok (Instr.rem z)) (FA.ofWord_toWord _ _))

theorem fadd (w : FA) : Statement (.fadd w) := of_lookup rfl fun _ =>
  (lookup_gen (FA.op_toWord _ _) (by decide)).trans (congrArg (fun z => Except.ok (Instr.fadd z)) (FA.ofWord_toWord _ _))

theorem fsub (w : FA) : Statement (.fsub w) := of_lookup rfl fun _ =>
  (lookup_gen (FA.op_toWord _ _) (by decide)).trans (congrArg (fun z => Except.ok (Instr.fsub z)) (FA.ofWord_toWord _ _))

theorem fmul (w : FA) : Statement (.fmul w) := of_lookup rfl fun _ =>
  (lookup_gen (FA.op_toWord _ _) (by decide)).trans (congrArg (fun z => Except.ok (Instr.fmul z)) (FA.ofWord_toWord _ _))

theorem ffma (w : FA) : Statement (.ffma w) := of_lookup rfl fun _ =>
  (lookup_gen (FA.op_toWord _ _) (by decide)).trans (congrArg (fun z => Except.ok (Instr.ffma z)) (FA.ofWord_toWord _ _))

theorem fmin (w : FA) : Statement (.fmin w) := of_lookup rfl fun _ =>
  (lookup_gen (FA.op_toWord _ _) (by decide)).trans (congrArg (fun z => Except.ok (Instr.fmin z)) (FA.ofWord_toWord _ _))

theorem fmax (w : FA) : Statement (.fmax w) := of_lookup rfl fun _ =>
  (lookup_gen (FA.op_toWord _ _) (by decide)).trans (congrArg (fun z => Except.ok (Instr.fmax z)) (FA.ofWord_toWord _ _))

theorem fcmp (w : FA) : Statement (.fcmp w) := of_lookup rfl fun _ =>
  (lookup_gen (FA.op_toWord _ _) (by decide)).trans (congrArg (fun z => Except.ok (Instr.fcmp z)) (FA.ofWord_toWord _ _))

theorem fclass (w : FA) : Statement (.fclass w) := of_lookup rfl fun _ =>
  (lookup_gen (FA.op_toWord _ _) (by decide)).trans (congrArg (fun z => Except.ok (Instr.fclass z)) (FA.ofWord_toWord _ _))

theorem fscale (w : FA) : Statement (.fscale w) := of_lookup rfl fun _ =>
  (lookup_gen (FA.op_toWord _ _) (by decide)).trans (congrArg (fun z => Except.ok (Instr.fscale z)) (FA.ofWord_toWord _ _))

theorem frnd (w : FA) : Statement (.frnd w) := of_lookup rfl fun _ =>
  (lookup_gen (FA.op_toWord _ _) (by decide)).trans (congrArg (fun z => Except.ok (Instr.frnd z)) (FA.ofWord_toWord _ _))

theorem frcp (w : FA) : Statement (.frcp w) := of_lookup rfl fun _ =>
  (lookup_gen (FA.op_toWord _ _) (by decide)).trans (congrArg (fun z => Except.ok (Instr.frcp z)) (FA.ofWord_toWord _ _))

theorem frsq (w : FA) : Statement (.frsq w) := of_lookup rfl fun _ =>
  (lookup_gen (FA.op_toWord _ _) (by decide)).trans (congrArg (fun z => Except.ok (Instr.frsq z)) (FA.ofWord_toWord _ _))

theorem fsqrt (w : FA) : Statement (.fsqrt w) := of_lookup rfl fun _ =>
  (lookup_gen (FA.op_toWord _ _) (by decide)).trans (congrArg (fun z => Except.ok (Instr.fsqrt z)) (FA.ofWord_toWord _ _))

theorem fdiv (w : FA) : Statement (.fdiv w) := of_lookup rfl fun _ =>
  (lookup_gen (FA.op_toWord _ _) (by decide)).trans (congrArg (fun z => Except.ok (Instr.fdiv z)) (FA.ofWord_toWord _ _))

theorem fexp2 (w : FA) : Statement (.fexp2 w) := of_lookup rfl fun _ =>
  (lookup_gen (FA.op_toWord _ _) (by decide)).trans (congrArg (fun z => Except.ok (Instr.fexp2 z)) (FA.ofWord_toWord _ _))

theorem flog2 (w : FA) : Statement (.flog2 w) := of_lookup rfl fun _ =>
  (lookup_gen (FA.op_toWord _ _) (by decide)).trans (congrArg (fun z => Except.ok (Instr.flog2 z)) (FA.ofWord_toWord _ _))

theorem fsin (w : FA) : Statement (.fsin w) := of_lookup rfl fun _ =>
  (lookup_gen (FA.op_toWord _ _) (by decide)).trans (congrArg (fun z => Except.ok (Instr.fsin z)) (FA.ofWord_toWord _ _))

theorem fcos (w : FA) : Statement (.fcos w) := of_lookup rfl fun _ =>
  (lookup_gen (FA.op_toWord _ _) (by decide)).trans (congrArg (fun z => Except.ok (Instr.fcos z)) (FA.ofWord_toWord _ _))

theorem ftanh (w : FA) : Statement (.ftanh w) := of_lookup rfl fun _ =>
  (lookup_gen (FA.op_toWord _ _) (by decide)).trans (congrArg (fun z => Except.ok (Instr.ftanh z)) (FA.ofWord_toWord _ _))

theorem fdot2 (w : FA) : Statement (.fdot2 w) := of_lookup rfl fun _ =>
  (lookup_gen (FA.op_toWord _ _) (by decide)).trans (congrArg (fun z => Except.ok (Instr.fdot2 z)) (FA.ofWord_toWord _ _))

theorem cvt (w : FA) : Statement (.cvt w) := of_lookup rfl fun _ =>
  (lookup_gen (FA.op_toWord _ _) (by decide)).trans (congrArg (fun z => Except.ok (Instr.cvt z)) (FA.ofWord_toWord _ _))

theorem pack (w : FA) : Statement (.pack w) := of_lookup rfl fun _ =>
  (lookup_gen (FA.op_toWord _ _) (by decide)).trans (congrArg (fun z => Except.ok (Instr.pack z)) (FA.ofWord_toWord _ _))

theorem unpk (w : FA) : Statement (.unpk w) := of_lookup rfl fun _ =>
  (lookup_gen (FA.op_toWord _ _) (by decide)).trans (congrArg (fun z => Except.ok (Instr.unpk z)) (FA.ofWord_toWord _ _))

theorem qenc (w : FA) : Statement (.qenc w) := of_lookup rfl fun _ =>
  (lookup_gen (FA.op_toWord _ _) (by decide)).trans (congrArg (fun z => Except.ok (Instr.qenc z)) (FA.ofWord_toWord _ _))

theorem qdec (w : FA) : Statement (.qdec w) := of_lookup rfl fun _ =>
  (lookup_gen (FA.op_toWord _ _) (by decide)).trans (congrArg (fun z => Except.ok (Instr.qdec z)) (FA.ofWord_toWord _ _))

theorem mov (w : FA) : Statement (.mov w) := of_lookup rfl fun _ =>
  (lookup_gen (FA.op_toWord _ _) (by decide)).trans (congrArg (fun z => Except.ok (Instr.mov z)) (FA.ofWord_toWord _ _))

theorem movi (w : FV) : Statement (.movi w) := of_lookup rfl fun _ =>
  (lookup_gen (FV.op_toWord _ _) (by decide)).trans (congrArg (fun z => Except.ok (Instr.movi z)) (FV.ofWord_toWord _ _))

theorem movh (w : FV) : Statement (.movh w) := of_lookup rfl fun _ =>
  (lookup_gen (FV.op_toWord _ _) (by decide)).trans (congrArg (fun z => Except.ok (Instr.movh z)) (FV.ofWord_toWord _ _))

theorem rds (w : FA) : Statement (.rds w) := of_lookup rfl fun _ =>
  (lookup_gen (FA.op_toWord _ _) (by decide)).trans (congrArg (fun z => Except.ok (Instr.rds z)) (FA.ofWord_toWord _ _))

theorem wrs (w : FA) : Statement (.wrs w) := of_lookup rfl fun _ =>
  (lookup_gen (FA.op_toWord _ _) (by decide)).trans (congrArg (fun z => Except.ok (Instr.wrs z)) (FA.ofWord_toWord _ _))

theorem shfl (w : FA) : Statement (.shfl w) := of_lookup rfl fun _ =>
  (lookup_gen (FA.op_toWord _ _) (by decide)).trans (congrArg (fun z => Except.ok (Instr.shfl z)) (FA.ofWord_toWord _ _))

theorem vote (w : FA) : Statement (.vote w) := of_lookup rfl fun _ =>
  (lookup_gen (FA.op_toWord _ _) (by decide)).trans (congrArg (fun z => Except.ok (Instr.vote z)) (FA.ofWord_toWord _ _))

theorem redux (w : FA) : Statement (.redux w) := of_lookup rfl fun _ =>
  (lookup_gen (FA.op_toWord _ _) (by decide)).trans (congrArg (fun z => Except.ok (Instr.redux z)) (FA.ofWord_toWord _ _))

theorem matchLanes (w : FA) : Statement (.matchLanes w) := of_lookup rfl fun _ =>
  (lookup_gen (FA.op_toWord _ _) (by decide)).trans (congrArg (fun z => Except.ok (Instr.matchLanes z)) (FA.ofWord_toWord _ _))

theorem v2s (w : FA) : Statement (.v2s w) := of_lookup rfl fun _ =>
  (lookup_gen (FA.op_toWord _ _) (by decide)).trans (congrArg (fun z => Except.ok (Instr.v2s z)) (FA.ofWord_toWord _ _))

theorem plop (w : FA) : Statement (.plop w) := of_lookup rfl fun _ =>
  (lookup_gen (FA.op_toWord _ _) (by decide)).trans (congrArg (fun z => Except.ok (Instr.plop z)) (FA.ofWord_toWord _ _))

theorem pmovGet (w : FA) : Statement (.pmovGet w) := by
  refine of_lookup rfl fun hw => (lookup_gen (FA.op_toWord _ _) (by decide)).trans ?_
  have hc : w.ctl = 0 := by
    have hf := firstCase_all (field_none (c := w.c) rfl hw)
    simp at hf
    simp [hf]
  rw [decGen_63, FA.ofWord_toWord, hc]; rfl

theorem pmovSet (w : FA) : Statement (.pmovSet w) := by
  refine of_lookup rfl fun hw => (lookup_gen (FA.op_toWord _ _) (by decide)).trans ?_
  have hc : w.ctl = 1 := by
    have hf := firstCase_all (field_none (c := w.c) rfl hw)
    simp at hf
    simp [hf]
  rw [decGen_63, FA.ofWord_toWord, hc]; rfl

theorem ld (w : FM) : Statement (.ld w) := of_lookup rfl fun _ =>
  (lookup_gen (FM.op_toWord _ _) (by decide)).trans (congrArg (fun z => Except.ok (Instr.ld z)) (FM.ofWord_toWord _ _))

theorem st (w : FM) : Statement (.st w) := of_lookup rfl fun _ =>
  (lookup_gen (FM.op_toWord _ _) (by decide)).trans (congrArg (fun z => Except.ok (Instr.st z)) (FM.ofWord_toWord _ _))

theorem ldnr (w : FM) : Statement (.ldnr w) := of_lookup rfl fun _ =>
  (lookup_gen (FM.op_toWord _ _) (by decide)).trans (congrArg (fun z => Except.ok (Instr.ldnr z)) (FM.ofWord_toWord _ _))

theorem lda (w : FM) : Statement (.lda w) := of_lookup rfl fun _ =>
  (lookup_gen (FM.op_toWord _ _) (by decide)).trans (congrArg (fun z => Except.ok (Instr.lda z)) (FM.ofWord_toWord _ _))

theorem stl (w : FM) : Statement (.stl w) := of_lookup rfl fun _ =>
  (lookup_gen (FM.op_toWord _ _) (by decide)).trans (congrArg (fun z => Except.ok (Instr.stl z)) (FM.ofWord_toWord _ _))

theorem lds (w : FM) : Statement (.lds w) := of_lookup rfl fun _ =>
  (lookup_gen (FM.op_toWord _ _) (by decide)).trans (congrArg (fun z => Except.ok (Instr.lds z)) (FM.ofWord_toWord _ _))

theorem sts (w : FM) : Statement (.sts w) := of_lookup rfl fun _ =>
  (lookup_gen (FM.op_toWord _ _) (by decide)).trans (congrArg (fun z => Except.ok (Instr.sts z)) (FM.ofWord_toWord _ _))

theorem ldt (w : FM) : Statement (.ldt w) := of_lookup rfl fun _ =>
  (lookup_gen (FM.op_toWord _ _) (by decide)).trans (congrArg (fun z => Except.ok (Instr.ldt z)) (FM.ofWord_toWord _ _))

theorem stt (w : FM) : Statement (.stt w) := of_lookup rfl fun _ =>
  (lookup_gen (FM.op_toWord _ _) (by decide)).trans (congrArg (fun z => Except.ok (Instr.stt z)) (FM.ofWord_toWord _ _))

theorem qst (w : FM) : Statement (.qst w) := of_lookup rfl fun _ =>
  (lookup_gen (FM.op_toWord _ _) (by decide)).trans (congrArg (fun z => Except.ok (Instr.qst z)) (FM.ofWord_toWord _ _))

theorem atom (w : FM) : Statement (.atom w) := of_lookup rfl fun _ =>
  (lookup_gen (FM.op_toWord _ _) (by decide)).trans (congrArg (fun z => Except.ok (Instr.atom z)) (FM.ofWord_toWord _ _))

theorem red (w : FM) : Statement (.red w) := of_lookup rfl fun _ =>
  (lookup_gen (FM.op_toWord _ _) (by decide)).trans (congrArg (fun z => Except.ok (Instr.red z)) (FM.ofWord_toWord _ _))

theorem atoms (w : FM) : Statement (.atoms w) := of_lookup rfl fun _ =>
  (lookup_gen (FM.op_toWord _ _) (by decide)).trans (congrArg (fun z => Except.ok (Instr.atoms z)) (FM.ofWord_toWord _ _))

theorem fenceAcq (w : FM) : Statement (.fenceAcq w) := by
  refine of_lookup rfl fun hw => (lookup_gen (FM.op_toWord _ _) (by decide)).trans ?_
  have hc : w.ctl = 1 := by
    have hf := firstCase_all (field_none (c := w.c) rfl hw)
    simp at hf
    simp [hf]
  rw [decGen_7D, FM.ofWord_toWord, hc]; rfl

theorem fenceRel (w : FM) : Statement (.fenceRel w) := by
  refine of_lookup rfl fun hw => (lookup_gen (FM.op_toWord _ _) (by decide)).trans ?_
  have hc : w.ctl = 2 := by
    have hf := firstCase_all (field_none (c := w.c) rfl hw)
    simp at hf
    simp [hf]
  rw [decGen_7D, FM.ofWord_toWord, hc]; rfl

theorem fenceFull (w : FM) : Statement (.fenceFull w) := by
  refine of_lookup rfl fun hw => (lookup_gen (FM.op_toWord _ _) (by decide)).trans ?_
  have hc : w.ctl = 3 := by
    have hf := firstCase_all (field_none (c := w.c) rfl hw)
    simp at hf
    simp [hf]
  rw [decGen_7D, FM.ofWord_toWord, hc]; rfl

theorem pref (w : FM) : Statement (.pref w) := of_lookup rfl fun _ =>
  (lookup_gen (FM.op_toWord _ _) (by decide)).trans (congrArg (fun z => Except.ok (Instr.pref z)) (FM.ofWord_toWord _ _))

theorem pgreq (w : FM) : Statement (.pgreq w) := of_lookup rfl fun _ =>
  (lookup_gen (FM.op_toWord _ _) (by decide)).trans (congrArg (fun z => Except.ok (Instr.pgreq z)) (FM.ofWord_toWord _ _))

theorem icfence (w : FN) : Statement (.icfence w) := of_lookup rfl fun _ =>
  (lookup_gen (FN.op_toWord _ _) (by decide)).trans (congrArg (fun z => Except.ok (Instr.icfence z)) (FN.ofWord_toWord _ _))

theorem shape (w : FM) : Statement (.shape w) := of_lookup rfl fun _ =>
  (lookup_gen (FM.op_toWord _ _) (by decide)).trans (congrArg (fun z => Except.ok (Instr.shape z)) (FM.ofWord_toWord _ _))

theorem swinit (w : FM) : Statement (.swinit w) := of_lookup rfl fun _ =>
  (lookup_gen (FM.op_toWord _ _) (by decide)).trans (congrArg (fun z => Except.ok (Instr.swinit z)) (FM.ofWord_toWord _ _))

theorem swwait (w : FM) : Statement (.swwait w) := of_lookup rfl fun _ =>
  (lookup_gen (FM.op_toWord _ _) (by decide)).trans (congrArg (fun z => Except.ok (Instr.swwait z)) (FM.ofWord_toWord _ _))

end Encodes
open Encodes in
theorem Encodes.seal (w : FA) : Statement (.seal w) := of_lookup rfl fun _ =>
  (lookup_gen (FA.op_toWord _ _) (by decide)).trans (congrArg (fun z => Except.ok (Instr.seal z)) (FA.ofWord_toWord _ _))
namespace Encodes

theorem waitb (w : FA) : Statement (.waitb w) := of_lookup rfl fun _ =>
  (lookup_gen (FA.op_toWord _ _) (by decide)).trans (congrArg (fun z => Except.ok (Instr.waitb z)) (FA.ofWord_toWord _ _))

theorem jmpi (w : FA) : Statement (.jmpi w) := of_lookup rfl fun _ =>
  (lookup_gen (FA.op_toWord _ _) (by decide)).trans (congrArg (fun z => Except.ok (Instr.jmpi z)) (FA.ofWord_toWord _ _))

theorem calli (w : FA) : Statement (.calli w) := of_lookup rfl fun _ =>
  (lookup_gen (FA.op_toWord _ _) (by decide)).trans (congrArg (fun z => Except.ok (Instr.calli z)) (FA.ofWord_toWord _ _))

theorem meetset (w : FA) : Statement (.meetset w) := by
  refine of_lookup rfl fun hw => (lookup_gen (FA.op_toWord _ _) (by decide)).trans ?_
  have hc : w.ctl = 0 := by
    have hf := firstCase_all (field_none (c := w.c) rfl hw)
    simp at hf
    simp [hf]
  rw [decGen_A2, FA.ofWord_toWord, hc]; rfl

theorem meetsetR (w : FA) : Statement (.meetsetR w) := by
  refine of_lookup rfl fun hw => (lookup_gen (FA.op_toWord _ _) (by decide)).trans ?_
  have hc : w.ctl = 1 := by
    have hf := firstCase_all (field_none (c := w.c) rfl hw)
    simp at hf
    simp [hf]
  rw [decGen_A2, FA.ofWord_toWord, hc]; rfl

theorem meetsetClr (w : FA) : Statement (.meetsetClr w) := by
  refine of_lookup rfl fun hw => (lookup_gen (FA.op_toWord _ _) (by decide)).trans ?_
  have hc : w.ctl = 2 := by
    have hf := firstCase_all (field_none (c := w.c) rfl hw)
    simp at hf
    simp [hf]
  rw [decGen_A2, FA.ofWord_toWord, hc]; rfl

theorem barArrive (w : FA) : Statement (.barArrive w) := by
  refine of_lookup rfl fun hw => (lookup_gen (FA.op_toWord _ _) (by decide)).trans ?_
  have hc : w.ctl = 1 := by
    have hf := firstCase_all (field_none (c := w.c) rfl hw)
    simp at hf
    simp [hf]
  rw [decGen_A3, FA.ofWord_toWord, hc]; rfl

theorem barWait (w : FA) : Statement (.barWait w) := by
  refine of_lookup rfl fun hw => (lookup_gen (FA.op_toWord _ _) (by decide)).trans ?_
  have hc : w.ctl = 2 := by
    have hf := firstCase_all (field_none (c := w.c) rfl hw)
    simp at hf
    simp [hf]
  rw [decGen_A3, FA.ofWord_toWord, hc]; rfl

theorem barSync (w : FA) : Statement (.barSync w) := by
  refine of_lookup rfl fun hw => (lookup_gen (FA.op_toWord _ _) (by decide)).trans ?_
  have hc : w.ctl = 3 := by
    have hf := firstCase_all (field_none (c := w.c) rfl hw)
    simp at hf
    simp [hf]
  rw [decGen_A3, FA.ofWord_toWord, hc]; rfl

theorem sbarArrive (w : FA) : Statement (.sbarArrive w) := by
  refine of_lookup rfl fun hw => (lookup_gen (FA.op_toWord _ _) (by decide)).trans ?_
  have hc : w.ctl = 1 := by
    have hf := firstCase_all (field_none (c := w.c) rfl hw)
    simp at hf
    simp [hf]
  rw [decGen_A4, FA.ofWord_toWord, hc]; rfl

theorem sbarWait (w : FA) : Statement (.sbarWait w) := by
  refine of_lookup rfl fun hw => (lookup_gen (FA.op_toWord _ _) (by decide)).trans ?_
  have hc : w.ctl = 2 := by
    have hf := firstCase_all (field_none (c := w.c) rfl hw)
    simp at hf
    simp [hf]
  rw [decGen_A4, FA.ofWord_toWord, hc]; rfl

theorem sbarSync (w : FA) : Statement (.sbarSync w) := by
  refine of_lookup rfl fun hw => (lookup_gen (FA.op_toWord _ _) (by decide)).trans ?_
  have hc : w.ctl = 3 := by
    have hf := firstCase_all (field_none (c := w.c) rfl hw)
    simp at hf
    simp [hf]
  rw [decGen_A4, FA.ofWord_toWord, hc]; rfl

theorem watch (w : FM) : Statement (.watch w) := by
  refine of_lookup rfl fun hw => (lookup_gen (FM.op_toWord _ _) (by decide)).trans ?_
  have hc : w.ctl = 0 := by
    have hf := firstCase_all (field_none (c := w.c) rfl hw)
    simp at hf
    simp [hf]
  rw [decGen_A5, FM.ofWord_toWord, hc]; rfl

theorem watchClr (w : FM) : Statement (.watchClr w) := by
  refine of_lookup rfl fun hw => (lookup_gen (FM.op_toWord _ _) (by decide)).trans ?_
  have hc : w.ctl = 1 := by
    have hf := firstCase_all (field_none (c := w.c) rfl hw)
    simp at hf
    simp [hf]
  rw [decGen_A5, FM.ofWord_toWord, hc]; rfl

theorem wait (w : FN) : Statement (.wait w) := of_lookup rfl fun _ =>
  (lookup_gen (FN.op_toWord _ _) (by decide)).trans (congrArg (fun z => Except.ok (Instr.wait z)) (FN.ofWord_toWord _ _))

theorem yield (w : FN) : Statement (.yield w) := of_lookup rfl fun _ =>
  (lookup_gen (FN.op_toWord _ _) (by decide)).trans (congrArg (fun z => Except.ok (Instr.yield z)) (FN.ofWord_toWord _ _))

theorem sleep (w : FA) : Statement (.sleep w) := of_lookup rfl fun _ =>
  (lookup_gen (FA.op_toWord _ _) (by decide)).trans (congrArg (fun z => Except.ok (Instr.sleep z)) (FA.ofWord_toWord _ _))

theorem cbr (w : FA) : Statement (.cbr w) := of_lookup rfl fun _ =>
  (lookup_gen (FA.op_toWord _ _) (by decide)).trans (congrArg (fun z => Except.ok (Instr.cbr z)) (FA.ofWord_toWord _ _))

theorem cbsync (w : FA) : Statement (.cbsync w) := by
  refine of_lookup rfl fun hw => (lookup_gen (FA.op_toWord _ _) (by decide)).trans ?_
  have hc : w.ctl = 0 := by
    have hf := firstCase_all (field_none (c := w.c) rfl hw)
    simp at hf
    simp [hf]
  rw [decGen_AA, FA.ofWord_toWord, hc]; rfl

theorem cbsyncAbort (w : FA) : Statement (.cbsyncAbort w) := by
  refine of_lookup rfl fun hw => (lookup_gen (FA.op_toWord _ _) (by decide)).trans ?_
  have hc : w.ctl = 1 := by
    have hf := firstCase_all (field_none (c := w.c) rfl hw)
    simp at hf
    simp [hf]
  rw [decGen_AA, FA.ofWord_toWord, hc]; rfl

theorem gres (w : FA) : Statement (.gres w) := of_lookup rfl fun _ =>
  (lookup_gen (FA.op_toWord _ _) (by decide)).trans (congrArg (fun z => Except.ok (Instr.gres z)) (FA.ofWord_toWord _ _))

theorem reca (w : FA) : Statement (.reca w) := of_lookup rfl fun _ =>
  (lookup_gen (FA.op_toWord _ _) (by decide)).trans (congrArg (fun z => Except.ok (Instr.reca z)) (FA.ofWord_toWord _ _))

theorem recc (w : FA) : Statement (.recc w) := of_lookup rfl fun _ =>
  (lookup_gen (FA.op_toWord _ _) (by decide)).trans (congrArg (fun z => Except.ok (Instr.recc z)) (FA.ofWord_toWord _ _))

theorem recf (w : FA) : Statement (.recf w) := of_lookup rfl fun _ =>
  (lookup_gen (FA.op_toWord _ _) (by decide)).trans (congrArg (fun z => Except.ok (Instr.recf z)) (FA.ofWord_toWord _ _))

theorem launch (w : FA) : Statement (.launch w) := of_lookup rfl fun _ =>
  (lookup_gen (FA.op_toWord _ _) (by decide)).trans (congrArg (fun z => Except.ok (Instr.launch z)) (FA.ofWord_toWord _ _))

theorem signal (w : FA) : Statement (.signal w) := of_lookup rfl fun _ =>
  (lookup_gen (FA.op_toWord _ _) (by decide)).trans (congrArg (fun z => Except.ok (Instr.signal z)) (FA.ofWord_toWord _ _))

theorem trap (w : FA) : Statement (.trap w) := of_lookup rfl fun _ =>
  (lookup_gen (FA.op_toWord _ _) (by decide)).trans (congrArg (fun z => Except.ok (Instr.trap z)) (FA.ofWord_toWord _ _))

theorem alloc (w : FX) : Statement (.alloc w) := of_lookup rfl fun _ =>
  (lookup_mtx (FX.op_toWord _ _) (by decide)).trans (congrArg (fun z => Except.ok (Instr.alloc z)) (FX.ofWord_toWord _ _))

theorem free (w : FX) : Statement (.free w) := of_lookup rfl fun _ =>
  (lookup_mtx (FX.op_toWord _ _) (by decide)).trans (congrArg (fun z => Except.ok (Instr.free z)) (FX.ofWord_toWord _ _))

theorem mma (w : FX) : Statement (.mma w) := of_lookup rfl fun _ =>
  (lookup_mtx (FX.op_toWord _ _) (by decide)).trans (congrArg (fun z => Except.ok (Instr.mma z)) (FX.ofWord_toWord _ _))

theorem acz (w : FX) : Statement (.acz w) := of_lookup rfl fun _ =>
  (lookup_mtx (FX.op_toWord _ _) (by decide)).trans (congrArg (fun z => Except.ok (Instr.acz z)) (FX.ofWord_toWord _ _))

theorem acrd (w : FX) : Statement (.acrd w) := of_lookup rfl fun _ =>
  (lookup_mtx (FX.op_toWord _ _) (by decide)).trans (congrArg (fun z => Except.ok (Instr.acrd z)) (FX.ofWord_toWord _ _))

theorem acwr (w : FX) : Statement (.acwr w) := of_lookup rfl fun _ =>
  (lookup_mtx (FX.op_toWord _ _) (by decide)).trans (congrArg (fun z => Except.ok (Instr.acwr z)) (FX.ofWord_toWord _ _))

theorem acld (w : FX) : Statement (.acld w) := of_lookup rfl fun _ =>
  (lookup_mtx (FX.op_toWord _ _) (by decide)).trans (congrArg (fun z => Except.ok (Instr.acld z)) (FX.ofWord_toWord _ _))

theorem acst (w : FX) : Statement (.acst w) := of_lookup rfl fun _ =>
  (lookup_mtx (FX.op_toWord _ _) (by decide)).trans (congrArg (fun z => Except.ok (Instr.acst z)) (FX.ofWord_toWord _ _))

theorem cpy (w : FX) : Statement (.cpy w) := of_lookup rfl fun _ =>
  (lookup_eng (FX.op_toWord _ _) (by decide)).trans (congrArg (fun z => Except.ok (Instr.cpy z)) (FX.ofWord_toWord _ _))

theorem cpyg (w : FX) : Statement (.cpyg w) := of_lookup rfl fun _ =>
  (lookup_eng (FX.op_toWord _ _) (by decide)).trans (congrArg (fun z => Except.ok (Instr.cpyg z)) (FX.ofWord_toWord _ _))

theorem cpys (w : FX) : Statement (.cpys w) := of_lookup rfl fun _ =>
  (lookup_eng (FX.op_toWord _ _) (by decide)).trans (congrArg (fun z => Except.ok (Instr.cpys z)) (FX.ofWord_toWord _ _))

theorem cpyt (w : FX) : Statement (.cpyt w) := of_lookup rfl fun _ =>
  (lookup_eng (FX.op_toWord _ _) (by decide)).trans (congrArg (fun z => Except.ok (Instr.cpyt z)) (FX.ofWord_toWord _ _))

theorem walk (w : FX) : Statement (.walk w) := of_lookup rfl fun _ =>
  (lookup_eng (FX.op_toWord _ _) (by decide)).trans (congrArg (fun z => Except.ok (Instr.walk z)) (FX.ofWord_toWord _ _))

theorem crdc (w : FX) : Statement (.crdc w) := of_lookup rfl fun _ =>
  (lookup_eng (FX.op_toWord _ _) (by decide)).trans (congrArg (fun z => Except.ok (Instr.crdc z)) (FX.ofWord_toWord _ _))

theorem calr (w : FX) : Statement (.calr w) := of_lookup rfl fun _ =>
  (lookup_eng (FX.op_toWord _ _) (by decide)).trans (congrArg (fun z => Except.ok (Instr.calr z)) (FX.ofWord_toWord _ _))

theorem crsc (w : FX) : Statement (.crsc w) := of_lookup rfl fun _ =>
  (lookup_eng (FX.op_toWord _ _) (by decide)).trans (congrArg (fun z => Except.ok (Instr.crsc z)) (FX.ofWord_toWord _ _))

theorem calg (w : FX) : Statement (.calg w) := of_lookup rfl fun _ =>
  (lookup_eng (FX.op_toWord _ _) (by decide)).trans (congrArg (fun z => Except.ok (Instr.calg z)) (FX.ofWord_toWord _ _))

theorem cbcs (w : FX) : Statement (.cbcs w) := of_lookup rfl fun _ =>
  (lookup_eng (FX.op_toWord _ _) (by decide)).trans (congrArg (fun z => Except.ok (Instr.cbcs z)) (FX.ofWord_toWord _ _))

theorem cbar (w : FX) : Statement (.cbar w) := of_lookup rfl fun _ =>
  (lookup_eng (FX.op_toWord _ _) (by decide)).trans (congrArg (fun z => Except.ok (Instr.cbar z)) (FX.ofWord_toWord _ _))

theorem eretDone (w : FS) : Statement (.eretDone w) := by
  refine of_lookup rfl fun hw => (lookup_sys (FS.op_toWord _ _) (by decide)).trans ?_
  have hc : w.low = 0 := by
    have hf := firstCase_all (field_none (c := w.c) rfl hw)
    simp at hf
    simp [hf]
  rw [decSys_01, FS.ofWord_toWord, hc]; rfl

theorem eretRetry (w : FS) : Statement (.eretRetry w) := by
  refine of_lookup rfl fun hw => (lookup_sys (FS.op_toWord _ _) (by decide)).trans ?_
  have hc : w.low = 1 := by
    have hf := firstCase_all (field_none (c := w.c) rfl hw)
    simp at hf
    simp [hf]
  rw [decSys_01, FS.ofWord_toWord, hc]; rfl

theorem rdcsr (w : FS) : Statement (.rdcsr w) := of_lookup rfl fun _ =>
  (lookup_sys (FS.op_toWord _ _) (by decide)).trans (congrArg (fun z => Except.ok (Instr.rdcsr z)) (FS.ofWord_toWord _ _))

theorem wrcsr (w : FS) : Statement (.wrcsr w) := of_lookup rfl fun _ =>
  (lookup_sys (FS.op_toWord _ _) (by decide)).trans (congrArg (fun z => Except.ok (Instr.wrcsr z)) (FS.ofWord_toWord _ _))

theorem tlbinvPage (w : FS) : Statement (.tlbinvPage w) := by
  refine of_lookup rfl fun hw => (lookup_sys (FS.op_toWord _ _) (by decide)).trans ?_
  have hc : w.low = 0 := by
    have hf := firstCase_all (field_none (c := w.c) rfl hw)
    simp at hf
    simp [hf]
  rw [decSys_04, FS.ofWord_toWord, hc]; rfl

theorem tlbinvPasid (w : FS) : Statement (.tlbinvPasid w) := by
  refine of_lookup rfl fun hw => (lookup_sys (FS.op_toWord _ _) (by decide)).trans ?_
  have hc : w.low = 1 := by
    have hf := firstCase_all (field_none (c := w.c) rfl hw)
    simp at hf
    simp [hf]
  rw [decSys_04, FS.ofWord_toWord, hc]; rfl

theorem tlbinvGpage (w : FS) : Statement (.tlbinvGpage w) := by
  refine of_lookup rfl fun hw => (lookup_sys (FS.op_toWord _ _) (by decide)).trans ?_
  have hc : w.low = 2 := by
    have hf := firstCase_all (field_none (c := w.c) rfl hw)
    simp at hf
    simp [hf]
  rw [decSys_04, FS.ofWord_toWord, hc]; rfl

theorem tlbinvIpa (w : FS) : Statement (.tlbinvIpa w) := by
  refine of_lookup rfl fun hw => (lookup_sys (FS.op_toWord _ _) (by decide)).trans ?_
  have hc : w.low = 3 := by
    have hf := firstCase_all (field_none (c := w.c) rfl hw)
    simp at hf
    simp [hf]
  rw [decSys_04, FS.ofWord_toWord, hc]; rfl

theorem tlbinvAll (w : FS) : Statement (.tlbinvAll w) := by
  refine of_lookup rfl fun hw => (lookup_sys (FS.op_toWord _ _) (by decide)).trans ?_
  have hc : w.low = 4 := by
    have hf := firstCase_all (field_none (c := w.c) rfl hw)
    simp at hf
    simp [hf]
  rw [decSys_04, FS.ofWord_toWord, hc]; rfl

theorem ctxswOut (w : FS) : Statement (.ctxswOut w) := by
  refine of_lookup rfl fun hw => (lookup_sys (FS.op_toWord _ _) (by decide)).trans ?_
  have hc : w.low = 0 := by
    have hf := firstCase_all (field_none (c := w.c) rfl hw)
    simp at hf
    simp [hf]
  rw [decSys_05, FS.ofWord_toWord, hc]; rfl

theorem ctxswIn (w : FS) : Statement (.ctxswIn w) := by
  refine of_lookup rfl fun hw => (lookup_sys (FS.op_toWord _ _) (by decide)).trans ?_
  have hc : w.low = 1 := by
    have hf := firstCase_all (field_none (c := w.c) rfl hw)
    simp at hf
    simp [hf]
  rw [decSys_05, FS.ofWord_toWord, hc]; rfl

theorem claim (w : FS) : Statement (.claim w) := by
  refine of_lookup rfl fun hw => (lookup_sys (FS.op_toWord _ _) (by decide)).trans ?_
  have hc : w.low = 0 := by
    have hf := firstCase_all (field_none (c := w.c) rfl hw)
    simp at hf
    simp [hf]
  rw [decSys_06, FS.ofWord_toWord, hc]; rfl

theorem claimNode (w : FS) : Statement (.claimNode w) := by
  refine of_lookup rfl fun hw => (lookup_sys (FS.op_toWord _ _) (by decide)).trans ?_
  have hc : w.low = 1 := by
    have hf := firstCase_all (field_none (c := w.c) rfl hw)
    simp at hf
    simp [hf]
  rw [decSys_06, FS.ofWord_toWord, hc]; rfl

theorem mcack (w : FS) : Statement (.mcack w) := of_lookup rfl fun _ =>
  (lookup_sys (FS.op_toWord _ _) (by decide)).trans (congrArg (fun z => Except.ok (Instr.mcack z)) (FS.ofWord_toWord _ _))

theorem halt (w : FS) : Statement (.halt w) := of_lookup rfl fun _ =>
  (lookup_sys (FS.op_toWord _ _) (by decide)).trans (congrArg (fun z => Except.ok (Instr.halt z)) (FS.ofWord_toWord _ _))

theorem clauseHeader (team : Nat) (num : Nat) : Statement (.clauseHeader team num) := no_word rfl

theorem resultWriteback (team : Nat) (tidx : Nat) (k : Nat) : Statement (.resultWriteback team tidx k) := no_word rfl

theorem storeAcknowledge (id : Nat) : Statement (.storeAcknowledge id) := no_word rfl

theorem spuriousWake (team : Nat) (warp : Nat) : Statement (.spuriousWake team warp) := no_word rfl

theorem spinDetect (team : Nat) (num : Nat) : Statement (.spinDetect team num) := no_word rfl

theorem sleepExpire (team : Nat) (tidx : Nat) : Statement (.sleepExpire team tidx) := no_word rfl

theorem wtimer (team : Nat) (warp : Nat) : Statement (.wtimer team warp) := no_word rfl

theorem parkScan (part : Nat) : Statement (.parkScan part) := no_word rfl

theorem tumblerSwap (part : Nat) : Statement (.tumblerSwap part) := no_word rfl

theorem checkpointWriteback (team : Nat) (warp : Nat) (reg : Nat) : Statement (.checkpointWriteback team warp reg) := no_word rfl

theorem teamRotateOut (team : Nat) : Statement (.teamRotateOut team) := no_word rfl

theorem bankSpill (part : Nat) (bank : Nat) : Statement (.bankSpill part bank) := no_word rfl

theorem kRow (id : Nat) : Statement (.kRow id) := no_word rfl

theorem copyTransfer (id : Nat) (piece : Nat) : Statement (.copyTransfer id piece) := no_word rfl

theorem walkHop (id : Nat) : Statement (.walkHop id) := no_word rfl

theorem teamStart (launch : Nat) (index : Nat) (core : Nat) (part : Nat) : Statement (.teamStart launch index core part) := no_word rfl

theorem teamRetire (team : Nat) : Statement (.teamRetire team) := no_word rfl

theorem workSteal (die : Nat) (launch : Nat) : Statement (.workSteal die launch) := no_word rfl

theorem doserTimer (launch : Nat) (node : Nat) (depth : Nat) : Statement (.doserTimer launch node depth) := no_word rfl

theorem pageMigration (part : Nat) (page : Nat) : Statement (.pageMigration part page) := no_word rfl

theorem interruptTimer (q : Nat) (v : Nat) : Statement (.interruptTimer q v) := no_word rfl

theorem packetAging (q : Nat) : Statement (.packetAging q) := no_word rfl

theorem doorbell (q : Nat) (tail : BitVec 32) : Statement (.doorbell q tail) := no_word rfl

theorem nopPacket (q : Nat) : Statement (.nopPacket q) := no_word rfl

theorem launchPacket (q : Nat) : Statement (.launchPacket q) := no_word rfl

theorem graphPacket (q : Nat) : Statement (.graphPacket q) := no_word rfl

theorem waitPacket (q : Nat) : Statement (.waitPacket q) := no_word rfl

theorem waitPacketSatisfied (q : Nat) : Statement (.waitPacketSatisfied q) := no_word rfl

theorem signalPacket (q : Nat) : Statement (.signalPacket q) := no_word rfl

theorem fetchFence (q : Nat) : Statement (.fetchFence q) := no_word rfl

theorem ctxcmdCreate (ctx : Nat) : Statement (.ctxcmdCreate ctx) := no_word rfl

theorem ctxcmdRevoke (ctx : Nat) : Statement (.ctxcmdRevoke ctx) := no_word rfl

theorem ctxcmdUpdate (ctx : Nat) : Statement (.ctxcmdUpdate ctx) := no_word rfl

theorem invreq (v : BitVec 64) : Statement (.invreq v) := no_word rfl

theorem pdctlSupply (part : Nat) (pasid : Nat) (s2 : Bool) : Statement (.pdctlSupply part pasid s2) := no_word rfl

theorem pdctlFail (part : Nat) (pasid : Nat) (s2 : Bool) : Statement (.pdctlFail part pasid s2) := no_word rfl

theorem poolbaseWrite (part : Nat) (v : BitVec 64) : Statement (.poolbaseWrite part v) := no_word rfl

theorem poolsizeWrite (part : Nat) (v : BitVec 64) : Statement (.poolsizeWrite part v) := no_word rfl

theorem fqheadWrite (part : Nat) (v : BitVec 32) : Statement (.fqheadWrite part v) := no_word rfl

theorem interfaceEnable (q : Nat) : Statement (.interfaceEnable q) := no_word rfl

theorem interfaceDisable (q : Nat) : Statement (.interfaceDisable q) := no_word rfl

theorem errClear (q : Nat) : Statement (.errClear q) := no_word rfl

theorem commcmdOpen (slot : Nat) : Statement (.commcmdOpen slot) := no_word rfl

theorem commcmdClose (slot : Nat) : Statement (.commcmdClose slot) := no_word rfl

theorem openTimeout (slot : Nat) : Statement (.openTimeout slot) := no_word rfl

theorem timeSync : Statement (.timeSync) := no_word rfl

theorem mreset : Statement (.mreset) := no_word rfl

theorem mcBankClear (pcn : Nat) (bank : Nat) : Statement (.mcBankClear pcn bank) := no_word rfl

theorem registerWrite (bar : Nat) (off : Nat) (v : BitVec 64) : Statement (.registerWrite bar off v) := no_word rfl

theorem cxlMemRead (pa : Nat) (len : Nat) : Statement (.cxlMemRead pa len) := no_word rfl

theorem cxlMemWrite (pa : Nat) (bytes : List (BitVec 8)) : Statement (.cxlMemWrite pa bytes) := no_word rfl

theorem atsInvalidation (pasid : Nat) (page : Nat) : Statement (.atsInvalidation pasid page) := no_word rfl

theorem getVersion (via : Transport) : Statement (.getVersion via) := no_word rfl

theorem getCapabilities (via : Transport) : Statement (.getCapabilities via) := no_word rfl

theorem negotiateAlgorithms (via : Transport) : Statement (.negotiateAlgorithms via) := no_word rfl

theorem getDigests (via : Transport) : Statement (.getDigests via) := no_word rfl

theorem getCertificate (via : Transport) (offset : Nat) (len : Nat) : Statement (.getCertificate via offset len) := no_word rfl

theorem challenge (via : Transport) (nonce : List (BitVec 8)) : Statement (.challenge via nonce) := no_word rfl

theorem getMeasurements (via : Transport) (index : Nat) : Statement (.getMeasurements via index) := no_word rfl

theorem mctpControl (via : Transport) (cmd : BitVec 8) : Statement (.mctpControl via cmd) := no_word rfl

theorem pldmRequest (via : Transport) (sensor : Nat) : Statement (.pldmRequest via sensor) := no_word rfl

theorem mreq (chip : Nat) (tag : Nat) (op : PeerOp) : Statement (.mreq chip tag op) := no_word rfl

theorem mrsp (tag : Nat) (data : List (BitVec 8)) (bad : Bool) : Statement (.mrsp tag data bad) := no_word rfl

theorem join (ftag : Nat) (chip : Nat) : Statement (.join ftag chip) := no_word rfl

theorem notopen (ftag : Nat) (which : Option Nat) : Statement (.notopen ftag which) := no_word rfl

theorem joinAck (ftag : Nat) : Statement (.joinAck ftag) := no_word rfl

theorem joinRetry (ftag : Nat) : Statement (.joinRetry ftag) := no_word rfl

theorem contribution (ftag : Nat) (seq : Nat) (lo : Nat) (hi : Nat) (any : Bool) (value : Option Bool) (partialRanks : Bool) : Statement (.contribution ftag seq lo hi any value partialRanks) := no_word rfl

theorem abortMessage (ftag : Nat) (seq : Nat) : Statement (.abortMessage ftag seq) := no_word rfl

theorem decision (ftag : Nat) (seq : Nat) (outcome : BitVec 3) (partialRanks : Bool) : Statement (.decision ftag seq outcome partialRanks) := no_word rfl

theorem collectiveChunk (slot : Nat) (k : Nat) (chunk : Nat) (remote : List (Nat × OpSig × List (BitVec 8 × Bool))) : Statement (.collectiveChunk slot k chunk remote) := no_word rfl

theorem chunkAging (slot : Nat) (k : Nat) : Statement (.chunkAging slot k) := no_word rfl

theorem linkLoss (chips : List Nat) : Statement (.linkLoss chips) := no_word rfl

theorem linkRetry (port : Nat) : Statement (.linkRetry port) := no_word rfl

theorem thermalPoll (sensor : Nat) (celsius : Nat) : Statement (.thermalPoll sensor celsius) := no_word rfl

theorem powerLimit (watts : Nat) : Statement (.powerLimit watts) := no_word rfl

theorem watchdog (core : Nat) (missed : Bool) : Statement (.watchdog core missed) := no_word rfl

theorem patrolScrub (pa : Nat) (uncorrectable : Bool) : Statement (.patrolScrub pa uncorrectable) := no_word rfl

theorem machineCheck (core : Nat) (unit : Nat) (syndrome : BitVec 32) (paddr : Option Nat) (uc : Bool) : Statement (.machineCheck core unit syndrome paddr uc) := no_word rfl

theorem bringUp (boot : Boot) : Statement (.bringUp boot) := no_word rfl

theorem moduleReset : Statement (.moduleReset) := no_word rfl

theorem watchRegistration (team : Nat) (warp : Nat) : Statement (.watchRegistration team warp) := no_word rfl

theorem cbarMessage (slot : Nat) (k : Nat) (rank : Nat) (sig : OpSig) : Statement (.cbarMessage slot k rank sig) := no_word rfl

end Encodes
end Sys2Proof.Laws
end

