-- ==== Sys2Proof/Laws/State.lean ====
section
/-! SUPPORT. What each update of the state leaves: one equation for each field, and how the updates of teams, home warps and
threads read back. -/

namespace Sys2Proof.Machine

open Sys2Proof

/-! ### modCore -/

@[simp] theorem State.modCore_turn (s : State) (c : Nat) (f : Core → Core) : (s.modCore c f).turn = s.turn := rfl
@[simp] theorem State.modCore_teams (s : State) (c : Nat) (f : Core → Core) : (s.modCore c f).teams = s.teams := rfl
@[simp] theorem State.modCore_spans (s : State) (c : Nat) (f : Core → Core) : (s.modCore c f).spans = s.spans := rfl
@[simp] theorem State.modCore_groups (s : State) (c : Nat) (f : Core → Core) : (s.modCore c f).groups = s.groups := rfl
@[simp] theorem State.modCore_issueNo (s : State) (c : Nat) (f : Core → Core) : (s.modCore c f).issueNo = s.issueNo := rfl
@[simp] theorem State.modCore_spilled (s : State) (c : Nat) (f : Core → Core) : (s.modCore c f).spilled = s.spilled := rfl
@[simp] theorem State.modCore_cmds (s : State) (c : Nat) (f : Core → Core) : (s.modCore c f).cmds = s.cmds := rfl
@[simp] theorem State.modCore_stores (s : State) (c : Nat) (f : Core → Core) : (s.modCore c f).stores = s.stores := rfl
@[simp] theorem State.modCore_peers (s : State) (c : Nat) (f : Core → Core) : (s.modCore c f).peers = s.peers := rfl
@[simp] theorem State.modCore_far (s : State) (c : Nat) (f : Core → Core) : (s.modCore c f).far = s.far := rfl
@[simp] theorem State.modCore_mem (s : State) (c : Nat) (f : Core → Core) : (s.modCore c f).mem = s.mem := rfl
@[simp] theorem State.modCore_poison (s : State) (c : Nat) (f : Core → Core) : (s.modCore c f).poison = s.poison := rfl
@[simp] theorem State.modCore_hostMem (s : State) (c : Nat) (f : Core → Core) : (s.modCore c f).hostMem = s.hostMem := rfl
@[simp] theorem State.modCore_hostBad (s : State) (c : Nat) (f : Core → Core) : (s.modCore c f).hostBad = s.hostBad := rfl
@[simp] theorem State.modCore_ats (s : State) (c : Nat) (f : Core → Core) : (s.modCore c f).ats = s.ats := rfl
@[simp] theorem State.modCore_l2tlb (s : State) (c : Nat) (f : Core → Core) : (s.modCore c f).l2tlb = s.l2tlb := rfl
@[simp] theorem State.modCore_merges (s : State) (c : Nat) (f : Core → Core) : (s.modCore c f).merges = s.merges := rfl
@[simp] theorem State.modCore_ctxs (s : State) (c : Nat) (f : Core → Core) : (s.modCore c f).ctxs = s.ctxs := rfl
@[simp] theorem State.modCore_launches (s : State) (c : Nat) (f : Core → Core) : (s.modCore c f).launches = s.launches := rfl
@[simp] theorem State.modCore_graphs (s : State) (c : Nat) (f : Core → Core) : (s.modCore c f).graphs = s.graphs := rfl
@[simp] theorem State.modCore_mgmt (s : State) (c : Nat) (f : Core → Core) : (s.modCore c f).mgmt = s.mgmt := rfl
@[simp] theorem State.modCore_parts (s : State) (c : Nat) (f : Core → Core) : (s.modCore c f).parts = s.parts := rfl
@[simp] theorem State.modCore_ifaces (s : State) (c : Nat) (f : Core → Core) : (s.modCore c f).ifaces = s.ifaces := rfl
@[simp] theorem State.modCore_comms (s : State) (c : Nat) (f : Core → Core) : (s.modCore c f).comms = s.comms := rfl
@[simp] theorem State.modCore_clk (s : State) (c : Nat) (f : Core → Core) : (s.modCore c f).clk = s.clk := rfl
@[simp] theorem State.modCore_power (s : State) (c : Nat) (f : Core → Core) : (s.modCore c f).power = s.power := rfl
@[simp] theorem State.modCore_out (s : State) (c : Nat) (f : Core → Core) : (s.modCore c f).out = s.out := rfl
@[simp] theorem State.modCore_agenda (s : State) (c : Nat) (f : Core → Core) : (s.modCore c f).agenda = s.agenda := rfl
@[simp] theorem State.modCore_nextId (s : State) (c : Nat) (f : Core → Core) : (s.modCore c f).nextId = s.nextId := rfl
@[simp] theorem State.modCore_deny (s : State) (c : Nat) (f : Core → Core) : (s.modCore c f).deny = s.deny := rfl
@[simp] theorem State.modCore_hit (s : State) (c : Nat) (f : Core → Core) : (s.modCore c f).hit = s.hit := rfl

/-! ### modCtx -/

@[simp] theorem State.modCtx_turn (s : State) (c : Nat) (f : Ctx → Ctx) : (s.modCtx c f).turn = s.turn := rfl
@[simp] theorem State.modCtx_teams (s : State) (c : Nat) (f : Ctx → Ctx) : (s.modCtx c f).teams = s.teams := rfl
@[simp] theorem State.modCtx_spans (s : State) (c : Nat) (f : Ctx → Ctx) : (s.modCtx c f).spans = s.spans := rfl
@[simp] theorem State.modCtx_groups (s : State) (c : Nat) (f : Ctx → Ctx) : (s.modCtx c f).groups = s.groups := rfl
@[simp] theorem State.modCtx_issueNo (s : State) (c : Nat) (f : Ctx → Ctx) : (s.modCtx c f).issueNo = s.issueNo := rfl
@[simp] theorem State.modCtx_cores (s : State) (c : Nat) (f : Ctx → Ctx) : (s.modCtx c f).cores = s.cores := rfl
@[simp] theorem State.modCtx_spilled (s : State) (c : Nat) (f : Ctx → Ctx) : (s.modCtx c f).spilled = s.spilled := rfl
@[simp] theorem State.modCtx_cmds (s : State) (c : Nat) (f : Ctx → Ctx) : (s.modCtx c f).cmds = s.cmds := rfl
@[simp] theorem State.modCtx_stores (s : State) (c : Nat) (f : Ctx → Ctx) : (s.modCtx c f).stores = s.stores := rfl
@[simp] theorem State.modCtx_peers (s : State) (c : Nat) (f : Ctx → Ctx) : (s.modCtx c f).peers = s.peers := rfl
@[simp] theorem State.modCtx_far (s : State) (c : Nat) (f : Ctx → Ctx) : (s.modCtx c f).far = s.far := rfl
@[simp] theorem State.modCtx_mem (s : State) (c : Nat) (f : Ctx → Ctx) : (s.modCtx c f).mem = s.mem := rfl
@[simp] theorem State.modCtx_poison (s : State) (c : Nat) (f : Ctx → Ctx) : (s.modCtx c f).poison = s.poison := rfl
@[simp] theorem State.modCtx_hostMem (s : State) (c : Nat) (f : Ctx → Ctx) : (s.modCtx c f).hostMem = s.hostMem := rfl
@[simp] theorem State.modCtx_hostBad (s : State) (c : Nat) (f : Ctx → Ctx) : (s.modCtx c f).hostBad = s.hostBad := rfl
@[simp] theorem State.modCtx_ats (s : State) (c : Nat) (f : Ctx → Ctx) : (s.modCtx c f).ats = s.ats := rfl
@[simp] theorem State.modCtx_l2tlb (s : State) (c : Nat) (f : Ctx → Ctx) : (s.modCtx c f).l2tlb = s.l2tlb := rfl
@[simp] theorem State.modCtx_merges (s : State) (c : Nat) (f : Ctx → Ctx) : (s.modCtx c f).merges = s.merges := rfl
@[simp] theorem State.modCtx_launches (s : State) (c : Nat) (f : Ctx → Ctx) : (s.modCtx c f).launches = s.launches := rfl
@[simp] theorem State.modCtx_graphs (s : State) (c : Nat) (f : Ctx → Ctx) : (s.modCtx c f).graphs = s.graphs := rfl
@[simp] theorem State.modCtx_mgmt (s : State) (c : Nat) (f : Ctx → Ctx) : (s.modCtx c f).mgmt = s.mgmt := rfl
@[simp] theorem State.modCtx_parts (s : State) (c : Nat) (f : Ctx → Ctx) : (s.modCtx c f).parts = s.parts := rfl
@[simp] theorem State.modCtx_ifaces (s : State) (c : Nat) (f : Ctx → Ctx) : (s.modCtx c f).ifaces = s.ifaces := rfl
@[simp] theorem State.modCtx_comms (s : State) (c : Nat) (f : Ctx → Ctx) : (s.modCtx c f).comms = s.comms := rfl
@[simp] theorem State.modCtx_clk (s : State) (c : Nat) (f : Ctx → Ctx) : (s.modCtx c f).clk = s.clk := rfl
@[simp] theorem State.modCtx_power (s : State) (c : Nat) (f : Ctx → Ctx) : (s.modCtx c f).power = s.power := rfl
@[simp] theorem State.modCtx_out (s : State) (c : Nat) (f : Ctx → Ctx) : (s.modCtx c f).out = s.out := rfl
@[simp] theorem State.modCtx_agenda (s : State) (c : Nat) (f : Ctx → Ctx) : (s.modCtx c f).agenda = s.agenda := rfl
@[simp] theorem State.modCtx_nextId (s : State) (c : Nat) (f : Ctx → Ctx) : (s.modCtx c f).nextId = s.nextId := rfl
@[simp] theorem State.modCtx_deny (s : State) (c : Nat) (f : Ctx → Ctx) : (s.modCtx c f).deny = s.deny := rfl
@[simp] theorem State.modCtx_hit (s : State) (c : Nat) (f : Ctx → Ctx) : (s.modCtx c f).hit = s.hit := rfl

/-! ### modTeam -/

@[simp] theorem State.modTeam_turn (s : State) (t : Nat) (f : Team → Team) : (s.modTeam t f).turn = s.turn := rfl
@[simp] theorem State.modTeam_spans (s : State) (t : Nat) (f : Team → Team) : (s.modTeam t f).spans = s.spans := rfl
@[simp] theorem State.modTeam_groups (s : State) (t : Nat) (f : Team → Team) : (s.modTeam t f).groups = s.groups := rfl
@[simp] theorem State.modTeam_issueNo (s : State) (t : Nat) (f : Team → Team) : (s.modTeam t f).issueNo = s.issueNo := rfl
@[simp] theorem State.modTeam_cores (s : State) (t : Nat) (f : Team → Team) : (s.modTeam t f).cores = s.cores := rfl
@[simp] theorem State.modTeam_spilled (s : State) (t : Nat) (f : Team → Team) : (s.modTeam t f).spilled = s.spilled := rfl
@[simp] theorem State.modTeam_cmds (s : State) (t : Nat) (f : Team → Team) : (s.modTeam t f).cmds = s.cmds := rfl
@[simp] theorem State.modTeam_stores (s : State) (t : Nat) (f : Team → Team) : (s.modTeam t f).stores = s.stores := rfl
@[simp] theorem State.modTeam_peers (s : State) (t : Nat) (f : Team → Team) : (s.modTeam t f).peers = s.peers := rfl
@[simp] theorem State.modTeam_far (s : State) (t : Nat) (f : Team → Team) : (s.modTeam t f).far = s.far := rfl
@[simp] theorem State.modTeam_mem (s : State) (t : Nat) (f : Team → Team) : (s.modTeam t f).mem = s.mem := rfl
@[simp] theorem State.modTeam_poison (s : State) (t : Nat) (f : Team → Team) : (s.modTeam t f).poison = s.poison := rfl
@[simp] theorem State.modTeam_hostMem (s : State) (t : Nat) (f : Team → Team) : (s.modTeam t f).hostMem = s.hostMem := rfl
@[simp] theorem State.modTeam_hostBad (s : State) (t : Nat) (f : Team → Team) : (s.modTeam t f).hostBad = s.hostBad := rfl
@[simp] theorem State.modTeam_ats (s : State) (t : Nat) (f : Team → Team) : (s.modTeam t f).ats = s.ats := rfl
@[simp] theorem State.modTeam_l2tlb (s : State) (t : Nat) (f : Team → Team) : (s.modTeam t f).l2tlb = s.l2tlb := rfl
@[simp] theorem State.modTeam_merges (s : State) (t : Nat) (f : Team → Team) : (s.modTeam t f).merges = s.merges := rfl
@[simp] theorem State.modTeam_ctxs (s : State) (t : Nat) (f : Team → Team) : (s.modTeam t f).ctxs = s.ctxs := rfl
@[simp] theorem State.modTeam_launches (s : State) (t : Nat) (f : Team → Team) : (s.modTeam t f).launches = s.launches := rfl
@[simp] theorem State.modTeam_graphs (s : State) (t : Nat) (f : Team → Team) : (s.modTeam t f).graphs = s.graphs := rfl
@[simp] theorem State.modTeam_mgmt (s : State) (t : Nat) (f : Team → Team) : (s.modTeam t f).mgmt = s.mgmt := rfl
@[simp] theorem State.modTeam_parts (s : State) (t : Nat) (f : Team → Team) : (s.modTeam t f).parts = s.parts := rfl
@[simp] theorem State.modTeam_ifaces (s : State) (t : Nat) (f : Team → Team) : (s.modTeam t f).ifaces = s.ifaces := rfl
@[simp] theorem State.modTeam_comms (s : State) (t : Nat) (f : Team → Team) : (s.modTeam t f).comms = s.comms := rfl
@[simp] theorem State.modTeam_clk (s : State) (t : Nat) (f : Team → Team) : (s.modTeam t f).clk = s.clk := rfl
@[simp] theorem State.modTeam_power (s : State) (t : Nat) (f : Team → Team) : (s.modTeam t f).power = s.power := rfl
@[simp] theorem State.modTeam_out (s : State) (t : Nat) (f : Team → Team) : (s.modTeam t f).out = s.out := rfl
@[simp] theorem State.modTeam_agenda (s : State) (t : Nat) (f : Team → Team) : (s.modTeam t f).agenda = s.agenda := rfl
@[simp] theorem State.modTeam_nextId (s : State) (t : Nat) (f : Team → Team) : (s.modTeam t f).nextId = s.nextId := rfl
@[simp] theorem State.modTeam_deny (s : State) (t : Nat) (f : Team → Team) : (s.modTeam t f).deny = s.deny := rfl
@[simp] theorem State.modTeam_hit (s : State) (t : Nat) (f : Team → Team) : (s.modTeam t f).hit = s.hit := rfl

/-! ### modThread -/

@[simp] theorem State.modThread_turn (s : State) (t i : Nat) (f : Thread → Thread) : (s.modThread t i f).turn = s.turn := rfl
@[simp] theorem State.modThread_spans (s : State) (t i : Nat) (f : Thread → Thread) : (s.modThread t i f).spans = s.spans := rfl
@[simp] theorem State.modThread_groups (s : State) (t i : Nat) (f : Thread → Thread) : (s.modThread t i f).groups = s.groups := rfl
@[simp] theorem State.modThread_issueNo (s : State) (t i : Nat) (f : Thread → Thread) : (s.modThread t i f).issueNo = s.issueNo := rfl
@[simp] theorem State.modThread_cores (s : State) (t i : Nat) (f : Thread → Thread) : (s.modThread t i f).cores = s.cores := rfl
@[simp] theorem State.modThread_spilled (s : State) (t i : Nat) (f : Thread → Thread) : (s.modThread t i f).spilled = s.spilled := rfl
@[simp] theorem State.modThread_cmds (s : State) (t i : Nat) (f : Thread → Thread) : (s.modThread t i f).cmds = s.cmds := rfl
@[simp] theorem State.modThread_stores (s : State) (t i : Nat) (f : Thread → Thread) : (s.modThread t i f).stores = s.stores := rfl
@[simp] theorem State.modThread_peers (s : State) (t i : Nat) (f : Thread → Thread) : (s.modThread t i f).peers = s.peers := rfl
@[simp] theorem State.modThread_far (s : State) (t i : Nat) (f : Thread → Thread) : (s.modThread t i f).far = s.far := rfl
@[simp] theorem State.modThread_mem (s : State) (t i : Nat) (f : Thread → Thread) : (s.modThread t i f).mem = s.mem := rfl
@[simp] theorem State.modThread_poison (s : State) (t i : Nat) (f : Thread → Thread) : (s.modThread t i f).poison = s.poison := rfl
@[simp] theorem State.modThread_hostMem (s : State) (t i : Nat) (f : Thread → Thread) : (s.modThread t i f).hostMem = s.hostMem := rfl
@[simp] theorem State.modThread_hostBad (s : State) (t i : Nat) (f : Thread → Thread) : (s.modThread t i f).hostBad = s.hostBad := rfl
@[simp] theorem State.modThread_ats (s : State) (t i : Nat) (f : Thread → Thread) : (s.modThread t i f).ats = s.ats := rfl
@[simp] theorem State.modThread_l2tlb (s : State) (t i : Nat) (f : Thread → Thread) : (s.modThread t i f).l2tlb = s.l2tlb := rfl
@[simp] theorem State.modThread_merges (s : State) (t i : Nat) (f : Thread → Thread) : (s.modThread t i f).merges = s.merges := rfl
@[simp] theorem State.modThread_ctxs (s : State) (t i : Nat) (f : Thread → Thread) : (s.modThread t i f).ctxs = s.ctxs := rfl
@[simp] theorem State.modThread_launches (s : State) (t i : Nat) (f : Thread → Thread) : (s.modThread t i f).launches = s.launches := rfl
@[simp] theorem State.modThread_graphs (s : State) (t i : Nat) (f : Thread → Thread) : (s.modThread t i f).graphs = s.graphs := rfl
@[simp] theorem State.modThread_mgmt (s : State) (t i : Nat) (f : Thread → Thread) : (s.modThread t i f).mgmt = s.mgmt := rfl
@[simp] theorem State.modThread_parts (s : State) (t i : Nat) (f : Thread → Thread) : (s.modThread t i f).parts = s.parts := rfl
@[simp] theorem State.modThread_ifaces (s : State) (t i : Nat) (f : Thread → Thread) : (s.modThread t i f).ifaces = s.ifaces := rfl
@[simp] theorem State.modThread_comms (s : State) (t i : Nat) (f : Thread → Thread) : (s.modThread t i f).comms = s.comms := rfl
@[simp] theorem State.modThread_clk (s : State) (t i : Nat) (f : Thread → Thread) : (s.modThread t i f).clk = s.clk := rfl
@[simp] theorem State.modThread_power (s : State) (t i : Nat) (f : Thread → Thread) : (s.modThread t i f).power = s.power := rfl
@[simp] theorem State.modThread_out (s : State) (t i : Nat) (f : Thread → Thread) : (s.modThread t i f).out = s.out := rfl
@[simp] theorem State.modThread_agenda (s : State) (t i : Nat) (f : Thread → Thread) : (s.modThread t i f).agenda = s.agenda := rfl
@[simp] theorem State.modThread_nextId (s : State) (t i : Nat) (f : Thread → Thread) : (s.modThread t i f).nextId = s.nextId := rfl
@[simp] theorem State.modThread_deny (s : State) (t i : Nat) (f : Thread → Thread) : (s.modThread t i f).deny = s.deny := rfl
@[simp] theorem State.modThread_hit (s : State) (t i : Nat) (f : Thread → Thread) : (s.modThread t i f).hit = s.hit := rfl

/-! ### modWarp -/

@[simp] theorem State.modWarp_turn (s : State) (t w : Nat) (f : Warp → Warp) : (s.modWarp t w f).turn = s.turn := rfl
@[simp] theorem State.modWarp_spans (s : State) (t w : Nat) (f : Warp → Warp) : (s.modWarp t w f).spans = s.spans := rfl
@[simp] theorem State.modWarp_groups (s : State) (t w : Nat) (f : Warp → Warp) : (s.modWarp t w f).groups = s.groups := rfl
@[simp] theorem State.modWarp_issueNo (s : State) (t w : Nat) (f : Warp → Warp) : (s.modWarp t w f).issueNo = s.issueNo := rfl
@[simp] theorem State.modWarp_cores (s : State) (t w : Nat) (f : Warp → Warp) : (s.modWarp t w f).cores = s.cores := rfl
@[simp] theorem State.modWarp_spilled (s : State) (t w : Nat) (f : Warp → Warp) : (s.modWarp t w f).spilled = s.spilled := rfl
@[simp] theorem State.modWarp_cmds (s : State) (t w : Nat) (f : Warp → Warp) : (s.modWarp t w f).cmds = s.cmds := rfl
@[simp] theorem State.modWarp_stores (s : State) (t w : Nat) (f : Warp → Warp) : (s.modWarp t w f).stores = s.stores := rfl
@[simp] theorem State.modWarp_peers (s : State) (t w : Nat) (f : Warp → Warp) : (s.modWarp t w f).peers = s.peers := rfl
@[simp] theorem State.modWarp_far (s : State) (t w : Nat) (f : Warp → Warp) : (s.modWarp t w f).far = s.far := rfl
@[simp] theorem State.modWarp_mem (s : State) (t w : Nat) (f : Warp → Warp) : (s.modWarp t w f).mem = s.mem := rfl
@[simp] theorem State.modWarp_poison (s : State) (t w : Nat) (f : Warp → Warp) : (s.modWarp t w f).poison = s.poison := rfl
@[simp] theorem State.modWarp_hostMem (s : State) (t w : Nat) (f : Warp → Warp) : (s.modWarp t w f).hostMem = s.hostMem := rfl
@[simp] theorem State.modWarp_hostBad (s : State) (t w : Nat) (f : Warp → Warp) : (s.modWarp t w f).hostBad = s.hostBad := rfl
@[simp] theorem State.modWarp_ats (s : State) (t w : Nat) (f : Warp → Warp) : (s.modWarp t w f).ats = s.ats := rfl
@[simp] theorem State.modWarp_l2tlb (s : State) (t w : Nat) (f : Warp → Warp) : (s.modWarp t w f).l2tlb = s.l2tlb := rfl
@[simp] theorem State.modWarp_merges (s : State) (t w : Nat) (f : Warp → Warp) : (s.modWarp t w f).merges = s.merges := rfl
@[simp] theorem State.modWarp_ctxs (s : State) (t w : Nat) (f : Warp → Warp) : (s.modWarp t w f).ctxs = s.ctxs := rfl
@[simp] theorem State.modWarp_launches (s : State) (t w : Nat) (f : Warp → Warp) : (s.modWarp t w f).launches = s.launches := rfl
@[simp] theorem State.modWarp_graphs (s : State) (t w : Nat) (f : Warp → Warp) : (s.modWarp t w f).graphs = s.graphs := rfl
@[simp] theorem State.modWarp_mgmt (s : State) (t w : Nat) (f : Warp → Warp) : (s.modWarp t w f).mgmt = s.mgmt := rfl
@[simp] theorem State.modWarp_parts (s : State) (t w : Nat) (f : Warp → Warp) : (s.modWarp t w f).parts = s.parts := rfl
@[simp] theorem State.modWarp_ifaces (s : State) (t w : Nat) (f : Warp → Warp) : (s.modWarp t w f).ifaces = s.ifaces := rfl
@[simp] theorem State.modWarp_comms (s : State) (t w : Nat) (f : Warp → Warp) : (s.modWarp t w f).comms = s.comms := rfl
@[simp] theorem State.modWarp_clk (s : State) (t w : Nat) (f : Warp → Warp) : (s.modWarp t w f).clk = s.clk := rfl
@[simp] theorem State.modWarp_power (s : State) (t w : Nat) (f : Warp → Warp) : (s.modWarp t w f).power = s.power := rfl
@[simp] theorem State.modWarp_out (s : State) (t w : Nat) (f : Warp → Warp) : (s.modWarp t w f).out = s.out := rfl
@[simp] theorem State.modWarp_agenda (s : State) (t w : Nat) (f : Warp → Warp) : (s.modWarp t w f).agenda = s.agenda := rfl
@[simp] theorem State.modWarp_nextId (s : State) (t w : Nat) (f : Warp → Warp) : (s.modWarp t w f).nextId = s.nextId := rfl
@[simp] theorem State.modWarp_deny (s : State) (t w : Nat) (f : Warp → Warp) : (s.modWarp t w f).deny = s.deny := rfl
@[simp] theorem State.modWarp_hit (s : State) (t w : Nat) (f : Warp → Warp) : (s.modWarp t w f).hit = s.hit := rfl

/-! ### modIface -/

@[simp] theorem State.modIface_turn (s : State) (q : Nat) (f : Iface → Iface) : (s.modIface q f).turn = s.turn := rfl
@[simp] theorem State.modIface_teams (s : State) (q : Nat) (f : Iface → Iface) : (s.modIface q f).teams = s.teams := rfl
@[simp] theorem State.modIface_spans (s : State) (q : Nat) (f : Iface → Iface) : (s.modIface q f).spans = s.spans := rfl
@[simp] theorem State.modIface_groups (s : State) (q : Nat) (f : Iface → Iface) : (s.modIface q f).groups = s.groups := rfl
@[simp] theorem State.modIface_issueNo (s : State) (q : Nat) (f : Iface → Iface) : (s.modIface q f).issueNo = s.issueNo := rfl
@[simp] theorem State.modIface_cores (s : State) (q : Nat) (f : Iface → Iface) : (s.modIface q f).cores = s.cores := rfl
@[simp] theorem State.modIface_spilled (s : State) (q : Nat) (f : Iface → Iface) : (s.modIface q f).spilled = s.spilled := rfl
@[simp] theorem State.modIface_cmds (s : State) (q : Nat) (f : Iface → Iface) : (s.modIface q f).cmds = s.cmds := rfl
@[simp] theorem State.modIface_stores (s : State) (q : Nat) (f : Iface → Iface) : (s.modIface q f).stores = s.stores := rfl
@[simp] theorem State.modIface_peers (s : State) (q : Nat) (f : Iface → Iface) : (s.modIface q f).peers = s.peers := rfl
@[simp] theorem State.modIface_far (s : State) (q : Nat) (f : Iface → Iface) : (s.modIface q f).far = s.far := rfl
@[simp] theorem State.modIface_mem (s : State) (q : Nat) (f : Iface → Iface) : (s.modIface q f).mem = s.mem := rfl
@[simp] theorem State.modIface_poison (s : State) (q : Nat) (f : Iface → Iface) : (s.modIface q f).poison = s.poison := rfl
@[simp] theorem State.modIface_hostMem (s : State) (q : Nat) (f : Iface → Iface) : (s.modIface q f).hostMem = s.hostMem := rfl
@[simp] theorem State.modIface_hostBad (s : State) (q : Nat) (f : Iface → Iface) : (s.modIface q f).hostBad = s.hostBad := rfl
@[simp] theorem State.modIface_ats (s : State) (q : Nat) (f : Iface → Iface) : (s.modIface q f).ats = s.ats := rfl
@[simp] theorem State.modIface_l2tlb (s : State) (q : Nat) (f : Iface → Iface) : (s.modIface q f).l2tlb = s.l2tlb := rfl
@[simp] theorem State.modIface_merges (s : State) (q : Nat) (f : Iface → Iface) : (s.modIface q f).merges = s.merges := rfl
@[simp] theorem State.modIface_ctxs (s : State) (q : Nat) (f : Iface → Iface) : (s.modIface q f).ctxs = s.ctxs := rfl
@[simp] theorem State.modIface_launches (s : State) (q : Nat) (f : Iface → Iface) : (s.modIface q f).launches = s.launches := rfl
@[simp] theorem State.modIface_graphs (s : State) (q : Nat) (f : Iface → Iface) : (s.modIface q f).graphs = s.graphs := rfl
@[simp] theorem State.modIface_mgmt (s : State) (q : Nat) (f : Iface → Iface) : (s.modIface q f).mgmt = s.mgmt := rfl
@[simp] theorem State.modIface_parts (s : State) (q : Nat) (f : Iface → Iface) : (s.modIface q f).parts = s.parts := rfl
@[simp] theorem State.modIface_comms (s : State) (q : Nat) (f : Iface → Iface) : (s.modIface q f).comms = s.comms := rfl
@[simp] theorem State.modIface_clk (s : State) (q : Nat) (f : Iface → Iface) : (s.modIface q f).clk = s.clk := rfl
@[simp] theorem State.modIface_power (s : State) (q : Nat) (f : Iface → Iface) : (s.modIface q f).power = s.power := rfl
@[simp] theorem State.modIface_out (s : State) (q : Nat) (f : Iface → Iface) : (s.modIface q f).out = s.out := rfl
@[simp] theorem State.modIface_agenda (s : State) (q : Nat) (f : Iface → Iface) : (s.modIface q f).agenda = s.agenda := rfl
@[simp] theorem State.modIface_nextId (s : State) (q : Nat) (f : Iface → Iface) : (s.modIface q f).nextId = s.nextId := rfl
@[simp] theorem State.modIface_deny (s : State) (q : Nat) (f : Iface → Iface) : (s.modIface q f).deny = s.deny := rfl
@[simp] theorem State.modIface_hit (s : State) (q : Nat) (f : Iface → Iface) : (s.modIface q f).hit = s.hit := rfl

/-! ### modPart -/

@[simp] theorem State.modPart_turn (s : State) (p : Nat) (f : Part → Part) : (s.modPart p f).turn = s.turn := rfl
@[simp] theorem State.modPart_teams (s : State) (p : Nat) (f : Part → Part) : (s.modPart p f).teams = s.teams := rfl
@[simp] theorem State.modPart_spans (s : State) (p : Nat) (f : Part → Part) : (s.modPart p f).spans = s.spans := rfl
@[simp] theorem State.modPart_groups (s : State) (p : Nat) (f : Part → Part) : (s.modPart p f).groups = s.groups := rfl
@[simp] theorem State.modPart_issueNo (s : State) (p : Nat) (f : Part → Part) : (s.modPart p f).issueNo = s.issueNo := rfl
@[simp] theorem State.modPart_cores (s : State) (p : Nat) (f : Part → Part) : (s.modPart p f).cores = s.cores := rfl
@[simp] theorem State.modPart_spilled (s : State) (p : Nat) (f : Part → Part) : (s.modPart p f).spilled = s.spilled := rfl
@[simp] theorem State.modPart_cmds (s : State) (p : Nat) (f : Part → Part) : (s.modPart p f).cmds = s.cmds := rfl
@[simp] theorem State.modPart_stores (s : State) (p : Nat) (f : Part → Part) : (s.modPart p f).stores = s.stores := rfl
@[simp] theorem State.modPart_peers (s : State) (p : Nat) (f : Part → Part) : (s.modPart p f).peers = s.peers := rfl
@[simp] theorem State.modPart_far (s : State) (p : Nat) (f : Part → Part) : (s.modPart p f).far = s.far := rfl
@[simp] theorem State.modPart_mem (s : State) (p : Nat) (f : Part → Part) : (s.modPart p f).mem = s.mem := rfl
@[simp] theorem State.modPart_poison (s : State) (p : Nat) (f : Part → Part) : (s.modPart p f).poison = s.poison := rfl
@[simp] theorem State.modPart_hostMem (s : State) (p : Nat) (f : Part → Part) : (s.modPart p f).hostMem = s.hostMem := rfl
@[simp] theorem State.modPart_hostBad (s : State) (p : Nat) (f : Part → Part) : (s.modPart p f).hostBad = s.hostBad := rfl
@[simp] theorem State.modPart_ats (s : State) (p : Nat) (f : Part → Part) : (s.modPart p f).ats = s.ats := rfl
@[simp] theorem State.modPart_l2tlb (s : State) (p : Nat) (f : Part → Part) : (s.modPart p f).l2tlb = s.l2tlb := rfl
@[simp] theorem State.modPart_merges (s : State) (p : Nat) (f : Part → Part) : (s.modPart p f).merges = s.merges := rfl
@[simp] theorem State.modPart_ctxs (s : State) (p : Nat) (f : Part → Part) : (s.modPart p f).ctxs = s.ctxs := rfl
@[simp] theorem State.modPart_launches (s : State) (p : Nat) (f : Part → Part) : (s.modPart p f).launches = s.launches := rfl
@[simp] theorem State.modPart_graphs (s : State) (p : Nat) (f : Part → Part) : (s.modPart p f).graphs = s.graphs := rfl
@[simp] theorem State.modPart_mgmt (s : State) (p : Nat) (f : Part → Part) : (s.modPart p f).mgmt = s.mgmt := rfl
@[simp] theorem State.modPart_ifaces (s : State) (p : Nat) (f : Part → Part) : (s.modPart p f).ifaces = s.ifaces := rfl
@[simp] theorem State.modPart_comms (s : State) (p : Nat) (f : Part → Part) : (s.modPart p f).comms = s.comms := rfl
@[simp] theorem State.modPart_clk (s : State) (p : Nat) (f : Part → Part) : (s.modPart p f).clk = s.clk := rfl
@[simp] theorem State.modPart_power (s : State) (p : Nat) (f : Part → Part) : (s.modPart p f).power = s.power := rfl
@[simp] theorem State.modPart_out (s : State) (p : Nat) (f : Part → Part) : (s.modPart p f).out = s.out := rfl
@[simp] theorem State.modPart_agenda (s : State) (p : Nat) (f : Part → Part) : (s.modPart p f).agenda = s.agenda := rfl
@[simp] theorem State.modPart_nextId (s : State) (p : Nat) (f : Part → Part) : (s.modPart p f).nextId = s.nextId := rfl
@[simp] theorem State.modPart_deny (s : State) (p : Nat) (f : Part → Part) : (s.modPart p f).deny = s.deny := rfl
@[simp] theorem State.modPart_hit (s : State) (p : Nat) (f : Part → Part) : (s.modPart p f).hit = s.hit := rfl

/-! ### modLaunch -/

@[simp] theorem State.modLaunch_turn (s : State) (l : Nat) (f : Launch → Launch) : (s.modLaunch l f).turn = s.turn := rfl
@[simp] theorem State.modLaunch_teams (s : State) (l : Nat) (f : Launch → Launch) : (s.modLaunch l f).teams = s.teams := rfl
@[simp] theorem State.modLaunch_spans (s : State) (l : Nat) (f : Launch → Launch) : (s.modLaunch l f).spans = s.spans := rfl
@[simp] theorem State.modLaunch_groups (s : State) (l : Nat) (f : Launch → Launch) : (s.modLaunch l f).groups = s.groups := rfl
@[simp] theorem State.modLaunch_issueNo (s : State) (l : Nat) (f : Launch → Launch) : (s.modLaunch l f).issueNo = s.issueNo := rfl
@[simp] theorem State.modLaunch_cores (s : State) (l : Nat) (f : Launch → Launch) : (s.modLaunch l f).cores = s.cores := rfl
@[simp] theorem State.modLaunch_spilled (s : State) (l : Nat) (f : Launch → Launch) : (s.modLaunch l f).spilled = s.spilled := rfl
@[simp] theorem State.modLaunch_cmds (s : State) (l : Nat) (f : Launch → Launch) : (s.modLaunch l f).cmds = s.cmds := rfl
@[simp] theorem State.modLaunch_stores (s : State) (l : Nat) (f : Launch → Launch) : (s.modLaunch l f).stores = s.stores := rfl
@[simp] theorem State.modLaunch_peers (s : State) (l : Nat) (f : Launch → Launch) : (s.modLaunch l f).peers = s.peers := rfl
@[simp] theorem State.modLaunch_far (s : State) (l : Nat) (f : Launch → Launch) : (s.modLaunch l f).far = s.far := rfl
@[simp] theorem State.modLaunch_mem (s : State) (l : Nat) (f : Launch → Launch) : (s.modLaunch l f).mem = s.mem := rfl
@[simp] theorem State.modLaunch_poison (s : State) (l : Nat) (f : Launch → Launch) : (s.modLaunch l f).poison = s.poison := rfl
@[simp] theorem State.modLaunch_hostMem (s : State) (l : Nat) (f : Launch → Launch) : (s.modLaunch l f).hostMem = s.hostMem := rfl
@[simp] theorem State.modLaunch_hostBad (s : State) (l : Nat) (f : Launch → Launch) : (s.modLaunch l f).hostBad = s.hostBad := rfl
@[simp] theorem State.modLaunch_ats (s : State) (l : Nat) (f : Launch → Launch) : (s.modLaunch l f).ats = s.ats := rfl
@[simp] theorem State.modLaunch_l2tlb (s : State) (l : Nat) (f : Launch → Launch) : (s.modLaunch l f).l2tlb = s.l2tlb := rfl
@[simp] theorem State.modLaunch_merges (s : State) (l : Nat) (f : Launch → Launch) : (s.modLaunch l f).merges = s.merges := rfl
@[simp] theorem State.modLaunch_ctxs (s : State) (l : Nat) (f : Launch → Launch) : (s.modLaunch l f).ctxs = s.ctxs := rfl
@[simp] theorem State.modLaunch_graphs (s : State) (l : Nat) (f : Launch → Launch) : (s.modLaunch l f).graphs = s.graphs := rfl
@[simp] theorem State.modLaunch_mgmt (s : State) (l : Nat) (f : Launch → Launch) : (s.modLaunch l f).mgmt = s.mgmt := rfl
@[simp] theorem State.modLaunch_parts (s : State) (l : Nat) (f : Launch → Launch) : (s.modLaunch l f).parts = s.parts := rfl
@[simp] theorem State.modLaunch_ifaces (s : State) (l : Nat) (f : Launch → Launch) : (s.modLaunch l f).ifaces = s.ifaces := rfl
@[simp] theorem State.modLaunch_comms (s : State) (l : Nat) (f : Launch → Launch) : (s.modLaunch l f).comms = s.comms := rfl
@[simp] theorem State.modLaunch_clk (s : State) (l : Nat) (f : Launch → Launch) : (s.modLaunch l f).clk = s.clk := rfl
@[simp] theorem State.modLaunch_power (s : State) (l : Nat) (f : Launch → Launch) : (s.modLaunch l f).power = s.power := rfl
@[simp] theorem State.modLaunch_out (s : State) (l : Nat) (f : Launch → Launch) : (s.modLaunch l f).out = s.out := rfl
@[simp] theorem State.modLaunch_agenda (s : State) (l : Nat) (f : Launch → Launch) : (s.modLaunch l f).agenda = s.agenda := rfl
@[simp] theorem State.modLaunch_nextId (s : State) (l : Nat) (f : Launch → Launch) : (s.modLaunch l f).nextId = s.nextId := rfl
@[simp] theorem State.modLaunch_deny (s : State) (l : Nat) (f : Launch → Launch) : (s.modLaunch l f).deny = s.deny := rfl
@[simp] theorem State.modLaunch_hit (s : State) (l : Nat) (f : Launch → Launch) : (s.modLaunch l f).hit = s.hit := rfl

/-! ### modGraph -/

@[simp] theorem State.modGraph_turn (s : State) (g : Nat) (f : Graph → Graph) : (s.modGraph g f).turn = s.turn := rfl
@[simp] theorem State.modGraph_teams (s : State) (g : Nat) (f : Graph → Graph) : (s.modGraph g f).teams = s.teams := rfl
@[simp] theorem State.modGraph_spans (s : State) (g : Nat) (f : Graph → Graph) : (s.modGraph g f).spans = s.spans := rfl
@[simp] theorem State.modGraph_groups (s : State) (g : Nat) (f : Graph → Graph) : (s.modGraph g f).groups = s.groups := rfl
@[simp] theorem State.modGraph_issueNo (s : State) (g : Nat) (f : Graph → Graph) : (s.modGraph g f).issueNo = s.issueNo := rfl
@[simp] theorem State.modGraph_cores (s : State) (g : Nat) (f : Graph → Graph) : (s.modGraph g f).cores = s.cores := rfl
@[simp] theorem State.modGraph_spilled (s : State) (g : Nat) (f : Graph → Graph) : (s.modGraph g f).spilled = s.spilled := rfl
@[simp] theorem State.modGraph_cmds (s : State) (g : Nat) (f : Graph → Graph) : (s.modGraph g f).cmds = s.cmds := rfl
@[simp] theorem State.modGraph_stores (s : State) (g : Nat) (f : Graph → Graph) : (s.modGraph g f).stores = s.stores := rfl
@[simp] theorem State.modGraph_peers (s : State) (g : Nat) (f : Graph → Graph) : (s.modGraph g f).peers = s.peers := rfl
@[simp] theorem State.modGraph_far (s : State) (g : Nat) (f : Graph → Graph) : (s.modGraph g f).far = s.far := rfl
@[simp] theorem State.modGraph_mem (s : State) (g : Nat) (f : Graph → Graph) : (s.modGraph g f).mem = s.mem := rfl
@[simp] theorem State.modGraph_poison (s : State) (g : Nat) (f : Graph → Graph) : (s.modGraph g f).poison = s.poison := rfl
@[simp] theorem State.modGraph_hostMem (s : State) (g : Nat) (f : Graph → Graph) : (s.modGraph g f).hostMem = s.hostMem := rfl
@[simp] theorem State.modGraph_hostBad (s : State) (g : Nat) (f : Graph → Graph) : (s.modGraph g f).hostBad = s.hostBad := rfl
@[simp] theorem State.modGraph_ats (s : State) (g : Nat) (f : Graph → Graph) : (s.modGraph g f).ats = s.ats := rfl
@[simp] theorem State.modGraph_l2tlb (s : State) (g : Nat) (f : Graph → Graph) : (s.modGraph g f).l2tlb = s.l2tlb := rfl
@[simp] theorem State.modGraph_merges (s : State) (g : Nat) (f : Graph → Graph) : (s.modGraph g f).merges = s.merges := rfl
@[simp] theorem State.modGraph_ctxs (s : State) (g : Nat) (f : Graph → Graph) : (s.modGraph g f).ctxs = s.ctxs := rfl
@[simp] theorem State.modGraph_launches (s : State) (g : Nat) (f : Graph → Graph) : (s.modGraph g f).launches = s.launches := rfl
@[simp] theorem State.modGraph_mgmt (s : State) (g : Nat) (f : Graph → Graph) : (s.modGraph g f).mgmt = s.mgmt := rfl
@[simp] theorem State.modGraph_parts (s : State) (g : Nat) (f : Graph → Graph) : (s.modGraph g f).parts = s.parts := rfl
@[simp] theorem State.modGraph_ifaces (s : State) (g : Nat) (f : Graph → Graph) : (s.modGraph g f).ifaces = s.ifaces := rfl
@[simp] theorem State.modGraph_comms (s : State) (g : Nat) (f : Graph → Graph) : (s.modGraph g f).comms = s.comms := rfl
@[simp] theorem State.modGraph_clk (s : State) (g : Nat) (f : Graph → Graph) : (s.modGraph g f).clk = s.clk := rfl
@[simp] theorem State.modGraph_power (s : State) (g : Nat) (f : Graph → Graph) : (s.modGraph g f).power = s.power := rfl
@[simp] theorem State.modGraph_out (s : State) (g : Nat) (f : Graph → Graph) : (s.modGraph g f).out = s.out := rfl
@[simp] theorem State.modGraph_agenda (s : State) (g : Nat) (f : Graph → Graph) : (s.modGraph g f).agenda = s.agenda := rfl
@[simp] theorem State.modGraph_nextId (s : State) (g : Nat) (f : Graph → Graph) : (s.modGraph g f).nextId = s.nextId := rfl
@[simp] theorem State.modGraph_deny (s : State) (g : Nat) (f : Graph → Graph) : (s.modGraph g f).deny = s.deny := rfl
@[simp] theorem State.modGraph_hit (s : State) (g : Nat) (f : Graph → Graph) : (s.modGraph g f).hit = s.hit := rfl

/-! ### emit -/

@[simp] theorem State.emit_turn (s : State) (o : Out) : (s.emit o).turn = s.turn := rfl
@[simp] theorem State.emit_teams (s : State) (o : Out) : (s.emit o).teams = s.teams := rfl
@[simp] theorem State.emit_spans (s : State) (o : Out) : (s.emit o).spans = s.spans := rfl
@[simp] theorem State.emit_groups (s : State) (o : Out) : (s.emit o).groups = s.groups := rfl
@[simp] theorem State.emit_issueNo (s : State) (o : Out) : (s.emit o).issueNo = s.issueNo := rfl
@[simp] theorem State.emit_cores (s : State) (o : Out) : (s.emit o).cores = s.cores := rfl
@[simp] theorem State.emit_spilled (s : State) (o : Out) : (s.emit o).spilled = s.spilled := rfl
@[simp] theorem State.emit_cmds (s : State) (o : Out) : (s.emit o).cmds = s.cmds := rfl
@[simp] theorem State.emit_stores (s : State) (o : Out) : (s.emit o).stores = s.stores := rfl
@[simp] theorem State.emit_peers (s : State) (o : Out) : (s.emit o).peers = s.peers := rfl
@[simp] theorem State.emit_far (s : State) (o : Out) : (s.emit o).far = s.far := rfl
@[simp] theorem State.emit_mem (s : State) (o : Out) : (s.emit o).mem = s.mem := rfl
@[simp] theorem State.emit_poison (s : State) (o : Out) : (s.emit o).poison = s.poison := rfl
@[simp] theorem State.emit_hostMem (s : State) (o : Out) : (s.emit o).hostMem = s.hostMem := rfl
@[simp] theorem State.emit_hostBad (s : State) (o : Out) : (s.emit o).hostBad = s.hostBad := rfl
@[simp] theorem State.emit_ats (s : State) (o : Out) : (s.emit o).ats = s.ats := rfl
@[simp] theorem State.emit_l2tlb (s : State) (o : Out) : (s.emit o).l2tlb = s.l2tlb := rfl
@[simp] theorem State.emit_merges (s : State) (o : Out) : (s.emit o).merges = s.merges := rfl
@[simp] theorem State.emit_ctxs (s : State) (o : Out) : (s.emit o).ctxs = s.ctxs := rfl
@[simp] theorem State.emit_launches (s : State) (o : Out) : (s.emit o).launches = s.launches := rfl
@[simp] theorem State.emit_graphs (s : State) (o : Out) : (s.emit o).graphs = s.graphs := rfl
@[simp] theorem State.emit_mgmt (s : State) (o : Out) : (s.emit o).mgmt = s.mgmt := rfl
@[simp] theorem State.emit_parts (s : State) (o : Out) : (s.emit o).parts = s.parts := rfl
@[simp] theorem State.emit_ifaces (s : State) (o : Out) : (s.emit o).ifaces = s.ifaces := rfl
@[simp] theorem State.emit_comms (s : State) (o : Out) : (s.emit o).comms = s.comms := rfl
@[simp] theorem State.emit_clk (s : State) (o : Out) : (s.emit o).clk = s.clk := rfl
@[simp] theorem State.emit_power (s : State) (o : Out) : (s.emit o).power = s.power := rfl
@[simp] theorem State.emit_agenda (s : State) (o : Out) : (s.emit o).agenda = s.agenda := rfl
@[simp] theorem State.emit_nextId (s : State) (o : Out) : (s.emit o).nextId = s.nextId := rfl
@[simp] theorem State.emit_deny (s : State) (o : Out) : (s.emit o).deny = s.deny := rfl
@[simp] theorem State.emit_hit (s : State) (o : Out) : (s.emit o).hit = s.hit := rfl

/-! ### ungroup -/

@[simp] theorem State.ungroup_turn (s : State) (t : Nat) (is : List Nat) : (s.ungroup t is).turn = s.turn := rfl
@[simp] theorem State.ungroup_teams (s : State) (t : Nat) (is : List Nat) : (s.ungroup t is).teams = s.teams := rfl
@[simp] theorem State.ungroup_spans (s : State) (t : Nat) (is : List Nat) : (s.ungroup t is).spans = s.spans := rfl
@[simp] theorem State.ungroup_issueNo (s : State) (t : Nat) (is : List Nat) : (s.ungroup t is).issueNo = s.issueNo := rfl
@[simp] theorem State.ungroup_cores (s : State) (t : Nat) (is : List Nat) : (s.ungroup t is).cores = s.cores := rfl
@[simp] theorem State.ungroup_spilled (s : State) (t : Nat) (is : List Nat) : (s.ungroup t is).spilled = s.spilled := rfl
@[simp] theorem State.ungroup_cmds (s : State) (t : Nat) (is : List Nat) : (s.ungroup t is).cmds = s.cmds := rfl
@[simp] theorem State.ungroup_stores (s : State) (t : Nat) (is : List Nat) : (s.ungroup t is).stores = s.stores := rfl
@[simp] theorem State.ungroup_peers (s : State) (t : Nat) (is : List Nat) : (s.ungroup t is).peers = s.peers := rfl
@[simp] theorem State.ungroup_far (s : State) (t : Nat) (is : List Nat) : (s.ungroup t is).far = s.far := rfl
@[simp] theorem State.ungroup_mem (s : State) (t : Nat) (is : List Nat) : (s.ungroup t is).mem = s.mem := rfl
@[simp] theorem State.ungroup_poison (s : State) (t : Nat) (is : List Nat) : (s.ungroup t is).poison = s.poison := rfl
@[simp] theorem State.ungroup_hostMem (s : State) (t : Nat) (is : List Nat) : (s.ungroup t is).hostMem = s.hostMem := rfl
@[simp] theorem State.ungroup_hostBad (s : State) (t : Nat) (is : List Nat) : (s.ungroup t is).hostBad = s.hostBad := rfl
@[simp] theorem State.ungroup_ats (s : State) (t : Nat) (is : List Nat) : (s.ungroup t is).ats = s.ats := rfl
@[simp] theorem State.ungroup_l2tlb (s : State) (t : Nat) (is : List Nat) : (s.ungroup t is).l2tlb = s.l2tlb := rfl
@[simp] theorem State.ungroup_merges (s : State) (t : Nat) (is : List Nat) : (s.ungroup t is).merges = s.merges := rfl
@[simp] theorem State.ungroup_ctxs (s : State) (t : Nat) (is : List Nat) : (s.ungroup t is).ctxs = s.ctxs := rfl
@[simp] theorem State.ungroup_launches (s : State) (t : Nat) (is : List Nat) : (s.ungroup t is).launches = s.launches := rfl
@[simp] theorem State.ungroup_graphs (s : State) (t : Nat) (is : List Nat) : (s.ungroup t is).graphs = s.graphs := rfl
@[simp] theorem State.ungroup_mgmt (s : State) (t : Nat) (is : List Nat) : (s.ungroup t is).mgmt = s.mgmt := rfl
@[simp] theorem State.ungroup_parts (s : State) (t : Nat) (is : List Nat) : (s.ungroup t is).parts = s.parts := rfl
@[simp] theorem State.ungroup_ifaces (s : State) (t : Nat) (is : List Nat) : (s.ungroup t is).ifaces = s.ifaces := rfl
@[simp] theorem State.ungroup_comms (s : State) (t : Nat) (is : List Nat) : (s.ungroup t is).comms = s.comms := rfl
@[simp] theorem State.ungroup_clk (s : State) (t : Nat) (is : List Nat) : (s.ungroup t is).clk = s.clk := rfl
@[simp] theorem State.ungroup_power (s : State) (t : Nat) (is : List Nat) : (s.ungroup t is).power = s.power := rfl
@[simp] theorem State.ungroup_out (s : State) (t : Nat) (is : List Nat) : (s.ungroup t is).out = s.out := rfl
@[simp] theorem State.ungroup_agenda (s : State) (t : Nat) (is : List Nat) : (s.ungroup t is).agenda = s.agenda := rfl
@[simp] theorem State.ungroup_nextId (s : State) (t : Nat) (is : List Nat) : (s.ungroup t is).nextId = s.nextId := rfl
@[simp] theorem State.ungroup_deny (s : State) (t : Nat) (is : List Nat) : (s.ungroup t is).deny = s.deny := rfl
@[simp] theorem State.ungroup_hit (s : State) (t : Nat) (is : List Nat) : (s.ungroup t is).hit = s.hit := rfl

/-! ### modInst -/

@[simp] theorem State.modInst_turn (s : State) (t w l : Nat) (f : TrapInst → TrapInst) : (s.modInst t w l f).turn = s.turn := rfl
@[simp] theorem State.modInst_spans (s : State) (t w l : Nat) (f : TrapInst → TrapInst) : (s.modInst t w l f).spans = s.spans := rfl
@[simp] theorem State.modInst_groups (s : State) (t w l : Nat) (f : TrapInst → TrapInst) : (s.modInst t w l f).groups = s.groups := rfl
@[simp] theorem State.modInst_issueNo (s : State) (t w l : Nat) (f : TrapInst → TrapInst) : (s.modInst t w l f).issueNo = s.issueNo := rfl
@[simp] theorem State.modInst_cores (s : State) (t w l : Nat) (f : TrapInst → TrapInst) : (s.modInst t w l f).cores = s.cores := rfl
@[simp] theorem State.modInst_spilled (s : State) (t w l : Nat) (f : TrapInst → TrapInst) : (s.modInst t w l f).spilled = s.spilled := rfl
@[simp] theorem State.modInst_cmds (s : State) (t w l : Nat) (f : TrapInst → TrapInst) : (s.modInst t w l f).cmds = s.cmds := rfl
@[simp] theorem State.modInst_stores (s : State) (t w l : Nat) (f : TrapInst → TrapInst) : (s.modInst t w l f).stores = s.stores := rfl
@[simp] theorem State.modInst_peers (s : State) (t w l : Nat) (f : TrapInst → TrapInst) : (s.modInst t w l f).peers = s.peers := rfl
@[simp] theorem State.modInst_far (s : State) (t w l : Nat) (f : TrapInst → TrapInst) : (s.modInst t w l f).far = s.far := rfl
@[simp] theorem State.modInst_mem (s : State) (t w l : Nat) (f : TrapInst → TrapInst) : (s.modInst t w l f).mem = s.mem := rfl
@[simp] theorem State.modInst_poison (s : State) (t w l : Nat) (f : TrapInst → TrapInst) : (s.modInst t w l f).poison = s.poison := rfl
@[simp] theorem State.modInst_hostMem (s : State) (t w l : Nat) (f : TrapInst → TrapInst) : (s.modInst t w l f).hostMem = s.hostMem := rfl
@[simp] theorem State.modInst_hostBad (s : State) (t w l : Nat) (f : TrapInst → TrapInst) : (s.modInst t w l f).hostBad = s.hostBad := rfl
@[simp] theorem State.modInst_ats (s : State) (t w l : Nat) (f : TrapInst → TrapInst) : (s.modInst t w l f).ats = s.ats := rfl
@[simp] theorem State.modInst_l2tlb (s : State) (t w l : Nat) (f : TrapInst → TrapInst) : (s.modInst t w l f).l2tlb = s.l2tlb := rfl
@[simp] theorem State.modInst_merges (s : State) (t w l : Nat) (f : TrapInst → TrapInst) : (s.modInst t w l f).merges = s.merges := rfl
@[simp] theorem State.modInst_ctxs (s : State) (t w l : Nat) (f : TrapInst → TrapInst) : (s.modInst t w l f).ctxs = s.ctxs := rfl
@[simp] theorem State.modInst_launches (s : State) (t w l : Nat) (f : TrapInst → TrapInst) : (s.modInst t w l f).launches = s.launches := rfl
@[simp] theorem State.modInst_graphs (s : State) (t w l : Nat) (f : TrapInst → TrapInst) : (s.modInst t w l f).graphs = s.graphs := rfl
@[simp] theorem State.modInst_mgmt (s : State) (t w l : Nat) (f : TrapInst → TrapInst) : (s.modInst t w l f).mgmt = s.mgmt := rfl
@[simp] theorem State.modInst_parts (s : State) (t w l : Nat) (f : TrapInst → TrapInst) : (s.modInst t w l f).parts = s.parts := rfl
@[simp] theorem State.modInst_ifaces (s : State) (t w l : Nat) (f : TrapInst → TrapInst) : (s.modInst t w l f).ifaces = s.ifaces := rfl
@[simp] theorem State.modInst_comms (s : State) (t w l : Nat) (f : TrapInst → TrapInst) : (s.modInst t w l f).comms = s.comms := rfl
@[simp] theorem State.modInst_clk (s : State) (t w l : Nat) (f : TrapInst → TrapInst) : (s.modInst t w l f).clk = s.clk := rfl
@[simp] theorem State.modInst_power (s : State) (t w l : Nat) (f : TrapInst → TrapInst) : (s.modInst t w l f).power = s.power := rfl
@[simp] theorem State.modInst_out (s : State) (t w l : Nat) (f : TrapInst → TrapInst) : (s.modInst t w l f).out = s.out := rfl
@[simp] theorem State.modInst_agenda (s : State) (t w l : Nat) (f : TrapInst → TrapInst) : (s.modInst t w l f).agenda = s.agenda := rfl
@[simp] theorem State.modInst_nextId (s : State) (t w l : Nat) (f : TrapInst → TrapInst) : (s.modInst t w l f).nextId = s.nextId := rfl
@[simp] theorem State.modInst_deny (s : State) (t w l : Nat) (f : TrapInst → TrapInst) : (s.modInst t w l f).deny = s.deny := rfl
@[simp] theorem State.modInst_hit (s : State) (t w l : Nat) (f : TrapInst → TrapInst) : (s.modInst t w l f).hit = s.hit := rfl

/-! ### clearIssue -/

@[simp] theorem State.clearIssue_turn (s : State) (k : Iss) : (s.clearIssue k).turn = s.turn := rfl
@[simp] theorem State.clearIssue_teams (s : State) (k : Iss) : (s.clearIssue k).teams = s.teams := rfl
@[simp] theorem State.clearIssue_spans (s : State) (k : Iss) : (s.clearIssue k).spans = s.spans := rfl
@[simp] theorem State.clearIssue_groups (s : State) (k : Iss) : (s.clearIssue k).groups = s.groups := rfl
@[simp] theorem State.clearIssue_issueNo (s : State) (k : Iss) : (s.clearIssue k).issueNo = s.issueNo := rfl
@[simp] theorem State.clearIssue_spilled (s : State) (k : Iss) : (s.clearIssue k).spilled = s.spilled := rfl
@[simp] theorem State.clearIssue_cmds (s : State) (k : Iss) : (s.clearIssue k).cmds = s.cmds := rfl
@[simp] theorem State.clearIssue_stores (s : State) (k : Iss) : (s.clearIssue k).stores = s.stores := rfl
@[simp] theorem State.clearIssue_peers (s : State) (k : Iss) : (s.clearIssue k).peers = s.peers := rfl
@[simp] theorem State.clearIssue_far (s : State) (k : Iss) : (s.clearIssue k).far = s.far := rfl
@[simp] theorem State.clearIssue_mem (s : State) (k : Iss) : (s.clearIssue k).mem = s.mem := rfl
@[simp] theorem State.clearIssue_poison (s : State) (k : Iss) : (s.clearIssue k).poison = s.poison := rfl
@[simp] theorem State.clearIssue_hostMem (s : State) (k : Iss) : (s.clearIssue k).hostMem = s.hostMem := rfl
@[simp] theorem State.clearIssue_hostBad (s : State) (k : Iss) : (s.clearIssue k).hostBad = s.hostBad := rfl
@[simp] theorem State.clearIssue_ats (s : State) (k : Iss) : (s.clearIssue k).ats = s.ats := rfl
@[simp] theorem State.clearIssue_l2tlb (s : State) (k : Iss) : (s.clearIssue k).l2tlb = s.l2tlb := rfl
@[simp] theorem State.clearIssue_merges (s : State) (k : Iss) : (s.clearIssue k).merges = s.merges := rfl
@[simp] theorem State.clearIssue_ctxs (s : State) (k : Iss) : (s.clearIssue k).ctxs = s.ctxs := rfl
@[simp] theorem State.clearIssue_launches (s : State) (k : Iss) : (s.clearIssue k).launches = s.launches := rfl
@[simp] theorem State.clearIssue_graphs (s : State) (k : Iss) : (s.clearIssue k).graphs = s.graphs := rfl
@[simp] theorem State.clearIssue_mgmt (s : State) (k : Iss) : (s.clearIssue k).mgmt = s.mgmt := rfl
@[simp] theorem State.clearIssue_parts (s : State) (k : Iss) : (s.clearIssue k).parts = s.parts := rfl
@[simp] theorem State.clearIssue_ifaces (s : State) (k : Iss) : (s.clearIssue k).ifaces = s.ifaces := rfl
@[simp] theorem State.clearIssue_comms (s : State) (k : Iss) : (s.clearIssue k).comms = s.comms := rfl
@[simp] theorem State.clearIssue_clk (s : State) (k : Iss) : (s.clearIssue k).clk = s.clk := rfl
@[simp] theorem State.clearIssue_power (s : State) (k : Iss) : (s.clearIssue k).power = s.power := rfl
@[simp] theorem State.clearIssue_out (s : State) (k : Iss) : (s.clearIssue k).out = s.out := rfl
@[simp] theorem State.clearIssue_agenda (s : State) (k : Iss) : (s.clearIssue k).agenda = s.agenda := rfl
@[simp] theorem State.clearIssue_nextId (s : State) (k : Iss) : (s.clearIssue k).nextId = s.nextId := rfl
@[simp] theorem State.clearIssue_deny (s : State) (k : Iss) : (s.clearIssue k).deny = s.deny := rfl
@[simp] theorem State.clearIssue_hit (s : State) (k : Iss) : (s.clearIssue k).hit = s.hit := rfl

/-! ### fresh -/

@[simp] theorem State.fresh_turn (s : State) : s.fresh.2.turn = s.turn := rfl
@[simp] theorem State.fresh_teams (s : State) : s.fresh.2.teams = s.teams := rfl
@[simp] theorem State.fresh_spans (s : State) : s.fresh.2.spans = s.spans := rfl
@[simp] theorem State.fresh_groups (s : State) : s.fresh.2.groups = s.groups := rfl
@[simp] theorem State.fresh_issueNo (s : State) : s.fresh.2.issueNo = s.issueNo := rfl
@[simp] theorem State.fresh_cores (s : State) : s.fresh.2.cores = s.cores := rfl
@[simp] theorem State.fresh_spilled (s : State) : s.fresh.2.spilled = s.spilled := rfl
@[simp] theorem State.fresh_cmds (s : State) : s.fresh.2.cmds = s.cmds := rfl
@[simp] theorem State.fresh_stores (s : State) : s.fresh.2.stores = s.stores := rfl
@[simp] theorem State.fresh_peers (s : State) : s.fresh.2.peers = s.peers := rfl
@[simp] theorem State.fresh_far (s : State) : s.fresh.2.far = s.far := rfl
@[simp] theorem State.fresh_mem (s : State) : s.fresh.2.mem = s.mem := rfl
@[simp] theorem State.fresh_poison (s : State) : s.fresh.2.poison = s.poison := rfl
@[simp] theorem State.fresh_hostMem (s : State) : s.fresh.2.hostMem = s.hostMem := rfl
@[simp] theorem State.fresh_hostBad (s : State) : s.fresh.2.hostBad = s.hostBad := rfl
@[simp] theorem State.fresh_ats (s : State) : s.fresh.2.ats = s.ats := rfl
@[simp] theorem State.fresh_l2tlb (s : State) : s.fresh.2.l2tlb = s.l2tlb := rfl
@[simp] theorem State.fresh_merges (s : State) : s.fresh.2.merges = s.merges := rfl
@[simp] theorem State.fresh_ctxs (s : State) : s.fresh.2.ctxs = s.ctxs := rfl
@[simp] theorem State.fresh_launches (s : State) : s.fresh.2.launches = s.launches := rfl
@[simp] theorem State.fresh_graphs (s : State) : s.fresh.2.graphs = s.graphs := rfl
@[simp] theorem State.fresh_mgmt (s : State) : s.fresh.2.mgmt = s.mgmt := rfl
@[simp] theorem State.fresh_parts (s : State) : s.fresh.2.parts = s.parts := rfl
@[simp] theorem State.fresh_ifaces (s : State) : s.fresh.2.ifaces = s.ifaces := rfl
@[simp] theorem State.fresh_comms (s : State) : s.fresh.2.comms = s.comms := rfl
@[simp] theorem State.fresh_clk (s : State) : s.fresh.2.clk = s.clk := rfl
@[simp] theorem State.fresh_power (s : State) : s.fresh.2.power = s.power := rfl
@[simp] theorem State.fresh_out (s : State) : s.fresh.2.out = s.out := rfl
@[simp] theorem State.fresh_agenda (s : State) : s.fresh.2.agenda = s.agenda := rfl
@[simp] theorem State.fresh_deny (s : State) : s.fresh.2.deny = s.deny := rfl
@[simp] theorem State.fresh_hit (s : State) : s.fresh.2.hit = s.hit := rfl
@[simp] theorem State.fresh_nextId (s : State) : s.fresh.2.nextId = s.nextId + 1 := rfl
@[simp] theorem State.fresh_fst (s : State) : s.fresh.1 = s.nextId := rfl

/-! ### Reading back -/

theorem getD_modify {α : Type} (l : List α) (i j : Nat) (f : α → α) (d : α) :
    (l.modify i f).getD j d = if i = j ∧ j < l.length then f (l.getD j d) else l.getD j d := by
  simp only [List.getD_eq_getElem?_getD, List.getElem?_modify]
  by_cases h : j < l.length
  · by_cases hi : i = j <;> simp [h, hi]
  · simp [h]
theorem State.team_modTeam (s : State) (t u : Nat) (f : Team → Team) :
    (s.modTeam t f).team u = if t = u ∧ u < s.teams.length then f (s.team u) else s.team u := getD_modify _ _ _ _ _
/-- Another team is unchanged. -/
theorem State.team_modTeam_other (s : State) {t u : Nat} (h : t ≠ u) (f : Team → Team) : (s.modTeam t f).team u = s.team u := by
  rw [State.team_modTeam, if_neg (by simp [h])]
@[simp] theorem State.teams_length_modTeam (s : State) (t : Nat) (f : Team → Team) :
    (s.modTeam t f).teams.length = s.teams.length := by simp [State.modTeam]
theorem State.core_modCore (s : State) (c d : Nat) (f : Core → Core) :
    (s.modCore c f).core d = if c = d ∧ d < s.cores.length then f (s.core d) else s.core d := getD_modify _ _ _ _ _
theorem State.ctx_modCtx (s : State) (c d : Nat) (f : Ctx → Ctx) :
    (s.modCtx c f).ctx d = if c = d ∧ d < s.ctxs.length then f (s.ctx d) else s.ctx d := getD_modify _ _ _ _ _
theorem State.iface_modIface (s : State) (q r : Nat) (f : Iface → Iface) :
    (s.modIface q f).iface r = if q = r ∧ r < s.ifaces.length then f (s.iface r) else s.iface r := getD_modify _ _ _ _ _
theorem State.launch_modLaunch (s : State) (l m : Nat) (f : Launch → Launch) :
    (s.modLaunch l f).launch m = if l = m ∧ m < s.launches.length then f (s.launch m) else s.launch m := getD_modify _ _ _ _ _
theorem State.graph_modGraph (s : State) (g h : Nat) (f : Graph → Graph) :
    (s.modGraph g f).graph h = if g = h ∧ h < s.graphs.length then f (s.graph h) else s.graph h := getD_modify _ _ _ _ _
/-- A thread after a change of one. -/
theorem State.thread_modThread (s : State) (t u i j : Nat) (f : Thread → Thread) :
    (s.modThread t i f).thread u j = if t = u ∧ u < s.teams.length ∧ i = j ∧ j < (s.team u).threads.length
      then f (s.thread u j) else s.thread u j := by
  unfold State.thread State.modThread
  rw [State.team_modTeam]
  by_cases h : t = u ∧ u < s.teams.length
  · rw [if_pos h, getD_modify]
    by_cases hi : i = j ∧ j < (s.team u).threads.length
    · rw [if_pos hi, if_pos ⟨h.1, h.2, hi.1, hi.2⟩]
    · rw [if_neg hi, if_neg fun hc => hi hc.2.2]
  · rw [if_neg h, if_neg fun hc => h ⟨hc.1, hc.2.1⟩]
/-- A home warp after a change of one. -/
theorem State.warp_modWarp (s : State) (t u w v : Nat) (f : Warp → Warp) :
    (s.modWarp t w f).warp u v = if t = u ∧ u < s.teams.length ∧ w = v ∧ v < (s.team u).warps.length
      then f (s.warp u v) else s.warp u v := by
  unfold State.warp State.modWarp
  rw [State.team_modTeam]
  by_cases h : t = u ∧ u < s.teams.length
  · rw [if_pos h, getD_modify]
    by_cases hi : w = v ∧ v < (s.team u).warps.length
    · rw [if_pos hi, if_pos ⟨h.1, h.2, hi.1, hi.2⟩]
    · rw [if_neg hi, if_neg fun hc => hi hc.2.2]
  · rw [if_neg h, if_neg fun hc => h ⟨hc.1, hc.2.1⟩]
/-- A change of a team that keeps its threads keeps every thread. -/
theorem State.thread_modTeam_same (s : State) (t u j : Nat) {f : Team → Team} (hf : ∀ m : Team, (f m).threads = m.threads) :
    (s.modTeam t f).thread u j = s.thread u j := by
  unfold State.thread
  rw [State.team_modTeam]
  split
  · rw [hf]
  · rfl
/-- A change of a team that keeps its home warps keeps every home warp. -/
theorem State.warp_modTeam_same (s : State) (t u w : Nat) {f : Team → Team} (hf : ∀ m : Team, (f m).warps = m.warps) :
    (s.modTeam t f).warp u w = s.warp u w := by
  unfold State.warp
  rw [State.team_modTeam]
  split
  · rw [hf]
  · rfl
@[simp] theorem State.thread_modWarp (s : State) (t w u j : Nat) (f : Warp → Warp) :
    (s.modWarp t w f).thread u j = s.thread u j := State.thread_modTeam_same s t u j fun _ => rfl
@[simp] theorem State.warp_modThread (s : State) (t i u w : Nat) (f : Thread → Thread) :
    (s.modThread t i f).warp u w = s.warp u w := State.warp_modTeam_same s t u w fun _ => rfl

@[simp] theorem State.modThread_team_ctx (s : State) (t i u : Nat) (f : Thread → Thread) :
    ((s.modThread t i f).team u).ctx = (s.team u).ctx := by
  unfold State.modThread; rw [State.team_modTeam]; split <;> rfl
@[simp] theorem State.modWarp_team_ctx (s : State) (t w u : Nat) (f : Warp → Warp) :
    ((s.modWarp t w f).team u).ctx = (s.team u).ctx := by
  unfold State.modWarp; rw [State.team_modTeam]; split <;> rfl
@[simp] theorem State.modThread_team_launch (s : State) (t i u : Nat) (f : Thread → Thread) :
    ((s.modThread t i f).team u).launch = (s.team u).launch := by
  unfold State.modThread; rw [State.team_modTeam]; split <;> rfl
@[simp] theorem State.modWarp_team_launch (s : State) (t w u : Nat) (f : Warp → Warp) :
    ((s.modWarp t w f).team u).launch = (s.team u).launch := by
  unfold State.modWarp; rw [State.team_modTeam]; split <;> rfl
@[simp] theorem State.modThread_team_node (s : State) (t i u : Nat) (f : Thread → Thread) :
    ((s.modThread t i f).team u).node = (s.team u).node := by
  unfold State.modThread; rw [State.team_modTeam]; split <;> rfl
@[simp] theorem State.modWarp_team_node (s : State) (t w u : Nat) (f : Warp → Warp) :
    ((s.modWarp t w f).team u).node = (s.team u).node := by
  unfold State.modWarp; rw [State.team_modTeam]; split <;> rfl
@[simp] theorem State.modThread_team_agent (s : State) (t i u : Nat) (f : Thread → Thread) :
    ((s.modThread t i f).team u).agent = (s.team u).agent := by
  unfold State.modThread; rw [State.team_modTeam]; split <;> rfl
@[simp] theorem State.modWarp_team_agent (s : State) (t w u : Nat) (f : Warp → Warp) :
    ((s.modWarp t w f).team u).agent = (s.team u).agent := by
  unfold State.modWarp; rw [State.team_modTeam]; split <;> rfl
@[simp] theorem State.modThread_team_x (s : State) (t i u : Nat) (f : Thread → Thread) :
    ((s.modThread t i f).team u).x = (s.team u).x := by
  unfold State.modThread; rw [State.team_modTeam]; split <;> rfl
@[simp] theorem State.modWarp_team_x (s : State) (t w u : Nat) (f : Warp → Warp) :
    ((s.modWarp t w f).team u).x = (s.team u).x := by
  unfold State.modWarp; rw [State.team_modTeam]; split <;> rfl
@[simp] theorem State.modThread_team_y (s : State) (t i u : Nat) (f : Thread → Thread) :
    ((s.modThread t i f).team u).y = (s.team u).y := by
  unfold State.modThread; rw [State.team_modTeam]; split <;> rfl
@[simp] theorem State.modWarp_team_y (s : State) (t w u : Nat) (f : Warp → Warp) :
    ((s.modWarp t w f).team u).y = (s.team u).y := by
  unfold State.modWarp; rw [State.team_modTeam]; split <;> rfl
@[simp] theorem State.modThread_team_z (s : State) (t i u : Nat) (f : Thread → Thread) :
    ((s.modThread t i f).team u).z = (s.team u).z := by
  unfold State.modThread; rw [State.team_modTeam]; split <;> rfl
@[simp] theorem State.modWarp_team_z (s : State) (t w u : Nat) (f : Warp → Warp) :
    ((s.modWarp t w f).team u).z = (s.team u).z := by
  unfold State.modWarp; rw [State.team_modTeam]; split <;> rfl
@[simp] theorem State.modThread_team_span (s : State) (t i u : Nat) (f : Thread → Thread) :
    ((s.modThread t i f).team u).span = (s.team u).span := by
  unfold State.modThread; rw [State.team_modTeam]; split <;> rfl
@[simp] theorem State.modWarp_team_span (s : State) (t w u : Nat) (f : Warp → Warp) :
    ((s.modWarp t w f).team u).span = (s.team u).span := by
  unfold State.modWarp; rw [State.team_modTeam]; split <;> rfl
@[simp] theorem State.modThread_team_rank (s : State) (t i u : Nat) (f : Thread → Thread) :
    ((s.modThread t i f).team u).rank = (s.team u).rank := by
  unfold State.modThread; rw [State.team_modTeam]; split <;> rfl
@[simp] theorem State.modWarp_team_rank (s : State) (t w u : Nat) (f : Warp → Warp) :
    ((s.modWarp t w f).team u).rank = (s.team u).rank := by
  unfold State.modWarp; rw [State.team_modTeam]; split <;> rfl
@[simp] theorem State.modThread_team_spanSize (s : State) (t i u : Nat) (f : Thread → Thread) :
    ((s.modThread t i f).team u).spanSize = (s.team u).spanSize := by
  unfold State.modThread; rw [State.team_modTeam]; split <;> rfl
@[simp] theorem State.modWarp_team_spanSize (s : State) (t w u : Nat) (f : Warp → Warp) :
    ((s.modWarp t w f).team u).spanSize = (s.team u).spanSize := by
  unfold State.modWarp; rw [State.team_modTeam]; split <;> rfl
@[simp] theorem State.modThread_team_ntid (s : State) (t i u : Nat) (f : Thread → Thread) :
    ((s.modThread t i f).team u).ntid = (s.team u).ntid := by
  unfold State.modThread; rw [State.team_modTeam]; split <;> rfl
@[simp] theorem State.modWarp_team_ntid (s : State) (t w u : Nat) (f : Warp → Warp) :
    ((s.modWarp t w f).team u).ntid = (s.team u).ntid := by
  unfold State.modWarp; rw [State.team_modTeam]; split <;> rfl
@[simp] theorem State.modThread_team_width (s : State) (t i u : Nat) (f : Thread → Thread) :
    ((s.modThread t i f).team u).width = (s.team u).width := by
  unfold State.modThread; rw [State.team_modTeam]; split <;> rfl
@[simp] theorem State.modWarp_team_width (s : State) (t w u : Nat) (f : Warp → Warp) :
    ((s.modWarp t w f).team u).width = (s.team u).width := by
  unfold State.modWarp; rw [State.team_modTeam]; split <;> rfl
@[simp] theorem State.modThread_team_vregs (s : State) (t i u : Nat) (f : Thread → Thread) :
    ((s.modThread t i f).team u).vregs = (s.team u).vregs := by
  unfold State.modThread; rw [State.team_modTeam]; split <;> rfl
@[simp] theorem State.modWarp_team_vregs (s : State) (t w u : Nat) (f : Warp → Warp) :
    ((s.modWarp t w f).team u).vregs = (s.team u).vregs := by
  unfold State.modWarp; rw [State.team_modTeam]; split <;> rfl
@[simp] theorem State.modThread_team_scratch (s : State) (t i u : Nat) (f : Thread → Thread) :
    ((s.modThread t i f).team u).scratch = (s.team u).scratch := by
  unfold State.modThread; rw [State.team_modTeam]; split <;> rfl
@[simp] theorem State.modWarp_team_scratch (s : State) (t w u : Nat) (f : Warp → Warp) :
    ((s.modWarp t w f).team u).scratch = (s.team u).scratch := by
  unfold State.modWarp; rw [State.team_modTeam]; split <;> rfl
@[simp] theorem State.modThread_team_reslim (s : State) (t i u : Nat) (f : Thread → Thread) :
    ((s.modThread t i f).team u).reslim = (s.team u).reslim := by
  unfold State.modThread; rw [State.team_modTeam]; split <;> rfl
@[simp] theorem State.modWarp_team_reslim (s : State) (t w u : Nat) (f : Warp → Warp) :
    ((s.modWarp t w f).team u).reslim = (s.team u).reslim := by
  unfold State.modWarp; rw [State.team_modTeam]; split <;> rfl
@[simp] theorem State.modThread_team_code (s : State) (t i u : Nat) (f : Thread → Thread) :
    ((s.modThread t i f).team u).code = (s.team u).code := by
  unfold State.modThread; rw [State.team_modTeam]; split <;> rfl
@[simp] theorem State.modWarp_team_code (s : State) (t w u : Nat) (f : Warp → Warp) :
    ((s.modWarp t w f).team u).code = (s.team u).code := by
  unfold State.modWarp; rw [State.team_modTeam]; split <;> rfl
@[simp] theorem State.modThread_team_lcid (s : State) (t i u : Nat) (f : Thread → Thread) :
    ((s.modThread t i f).team u).lcid = (s.team u).lcid := by
  unfold State.modThread; rw [State.team_modTeam]; split <;> rfl
@[simp] theorem State.modWarp_team_lcid (s : State) (t w u : Nat) (f : Warp → Warp) :
    ((s.modWarp t w f).team u).lcid = (s.team u).lcid := by
  unfold State.modWarp; rw [State.team_modTeam]; split <;> rfl
@[simp] theorem State.modThread_team_core (s : State) (t i u : Nat) (f : Thread → Thread) :
    ((s.modThread t i f).team u).core = (s.team u).core := by
  unfold State.modThread; rw [State.team_modTeam]; split <;> rfl
@[simp] theorem State.modWarp_team_core (s : State) (t w u : Nat) (f : Warp → Warp) :
    ((s.modWarp t w f).team u).core = (s.team u).core := by
  unfold State.modWarp; rw [State.team_modTeam]; split <;> rfl
@[simp] theorem State.modThread_team_part (s : State) (t i u : Nat) (f : Thread → Thread) :
    ((s.modThread t i f).team u).part = (s.team u).part := by
  unfold State.modThread; rw [State.team_modTeam]; split <;> rfl
@[simp] theorem State.modWarp_team_part (s : State) (t w u : Nat) (f : Warp → Warp) :
    ((s.modWarp t w f).team u).part = (s.team u).part := by
  unfold State.modWarp; rw [State.team_modTeam]; split <;> rfl
@[simp] theorem State.modThread_team_nrec (s : State) (t i u : Nat) (f : Thread → Thread) :
    ((s.modThread t i f).team u).nrec = (s.team u).nrec := by
  unfold State.modThread; rw [State.team_modTeam]; split <;> rfl
@[simp] theorem State.modWarp_team_nrec (s : State) (t w u : Nat) (f : Warp → Warp) :
    ((s.modWarp t w f).team u).nrec = (s.team u).nrec := by
  unfold State.modWarp; rw [State.team_modTeam]; split <;> rfl
@[simp] theorem State.modThread_team_recbase (s : State) (t i u : Nat) (f : Thread → Thread) :
    ((s.modThread t i f).team u).recbase = (s.team u).recbase := by
  unfold State.modThread; rw [State.team_modTeam]; split <;> rfl
@[simp] theorem State.modWarp_team_recbase (s : State) (t w u : Nat) (f : Warp → Warp) :
    ((s.modWarp t w f).team u).recbase = (s.team u).recbase := by
  unfold State.modWarp; rw [State.team_modTeam]; split <;> rfl
@[simp] theorem State.modThread_team_save (s : State) (t i u : Nat) (f : Thread → Thread) :
    ((s.modThread t i f).team u).save = (s.team u).save := by
  unfold State.modThread; rw [State.team_modTeam]; split <;> rfl
@[simp] theorem State.modWarp_team_save (s : State) (t w u : Nat) (f : Warp → Warp) :
    ((s.modWarp t w f).team u).save = (s.team u).save := by
  unfold State.modWarp; rw [State.team_modTeam]; split <;> rfl
@[simp] theorem State.modThread_team_visible (s : State) (t i u : Nat) (f : Thread → Thread) :
    ((s.modThread t i f).team u).visible = (s.team u).visible := by
  unfold State.modThread; rw [State.team_modTeam]; split <;> rfl
@[simp] theorem State.modWarp_team_visible (s : State) (t w u : Nat) (f : Warp → Warp) :
    ((s.modWarp t w f).team u).visible = (s.team u).visible := by
  unfold State.modWarp; rw [State.team_modTeam]; split <;> rfl
@[simp] theorem State.modThread_team_pad (s : State) (t i u : Nat) (f : Thread → Thread) :
    ((s.modThread t i f).team u).pad = (s.team u).pad := by
  unfold State.modThread; rw [State.team_modTeam]; split <;> rfl
@[simp] theorem State.modWarp_team_pad (s : State) (t w u : Nat) (f : Warp → Warp) :
    ((s.modWarp t w f).team u).pad = (s.team u).pad := by
  unfold State.modWarp; rw [State.team_modTeam]; split <;> rfl
@[simp] theorem State.modThread_team_padIn (s : State) (t i u : Nat) (f : Thread → Thread) :
    ((s.modThread t i f).team u).padIn = (s.team u).padIn := by
  unfold State.modThread; rw [State.team_modTeam]; split <;> rfl
@[simp] theorem State.modWarp_team_padIn (s : State) (t w u : Nat) (f : Warp → Warp) :
    ((s.modWarp t w f).team u).padIn = (s.team u).padIn := by
  unfold State.modWarp; rw [State.team_modTeam]; split <;> rfl
@[simp] theorem State.modThread_team_late (s : State) (t i u : Nat) (f : Thread → Thread) :
    ((s.modThread t i f).team u).late = (s.team u).late := by
  unfold State.modThread; rw [State.team_modTeam]; split <;> rfl
@[simp] theorem State.modWarp_team_late (s : State) (t w u : Nat) (f : Warp → Warp) :
    ((s.modWarp t w f).team u).late = (s.team u).late := by
  unfold State.modWarp; rw [State.team_modTeam]; split <;> rfl
@[simp] theorem State.modThread_team_bars (s : State) (t i u : Nat) (f : Thread → Thread) :
    ((s.modThread t i f).team u).bars = (s.team u).bars := by
  unfold State.modThread; rw [State.team_modTeam]; split <;> rfl
@[simp] theorem State.modWarp_team_bars (s : State) (t w u : Nat) (f : Warp → Warp) :
    ((s.modWarp t w f).team u).bars = (s.team u).bars := by
  unfold State.modWarp; rw [State.team_modTeam]; split <;> rfl
@[simp] theorem State.modThread_team_spanCnt (s : State) (t i u : Nat) (f : Thread → Thread) :
    ((s.modThread t i f).team u).spanCnt = (s.team u).spanCnt := by
  unfold State.modThread; rw [State.team_modTeam]; split <;> rfl
@[simp] theorem State.modWarp_team_spanCnt (s : State) (t w u : Nat) (f : Warp → Warp) :
    ((s.modWarp t w f).team u).spanCnt = (s.team u).spanCnt := by
  unfold State.modWarp; rw [State.team_modTeam]; split <;> rfl
@[simp] theorem State.modThread_team_latches (s : State) (t i u : Nat) (f : Thread → Thread) :
    ((s.modThread t i f).team u).latches = (s.team u).latches := by
  unfold State.modThread; rw [State.team_modTeam]; split <;> rfl
@[simp] theorem State.modWarp_team_latches (s : State) (t w u : Nat) (f : Warp → Warp) :
    ((s.modWarp t w f).team u).latches = (s.team u).latches := by
  unfold State.modWarp; rw [State.team_modTeam]; split <;> rfl
@[simp] theorem State.modWarp_team_threads (s : State) (t w u : Nat) (f : Warp → Warp) :
    ((s.modWarp t w f).team u).threads = (s.team u).threads := by
  unfold State.modWarp; rw [State.team_modTeam]; split <;> rfl
@[simp] theorem State.modThread_team_warps (s : State) (t i u : Nat) (f : Thread → Thread) :
    ((s.modThread t i f).team u).warps = (s.team u).warps := by
  unfold State.modThread; rw [State.team_modTeam]; split <;> rfl
@[simp] theorem State.modThread_team_nextGroup (s : State) (t i u : Nat) (f : Thread → Thread) :
    ((s.modThread t i f).team u).nextGroup = (s.team u).nextGroup := by
  unfold State.modThread; rw [State.team_modTeam]; split <;> rfl
@[simp] theorem State.modWarp_team_nextGroup (s : State) (t w u : Nat) (f : Warp → Warp) :
    ((s.modWarp t w f).team u).nextGroup = (s.team u).nextGroup := by
  unfold State.modWarp; rw [State.team_modTeam]; split <;> rfl
@[simp] theorem State.modThread_team_started (s : State) (t i u : Nat) (f : Thread → Thread) :
    ((s.modThread t i f).team u).started = (s.team u).started := by
  unfold State.modThread; rw [State.team_modTeam]; split <;> rfl
@[simp] theorem State.modWarp_team_started (s : State) (t w u : Nat) (f : Warp → Warp) :
    ((s.modWarp t w f).team u).started = (s.team u).started := by
  unfold State.modWarp; rw [State.team_modTeam]; split <;> rfl
@[simp] theorem State.modThread_team_retired (s : State) (t i u : Nat) (f : Thread → Thread) :
    ((s.modThread t i f).team u).retired = (s.team u).retired := by
  unfold State.modThread; rw [State.team_modTeam]; split <;> rfl
@[simp] theorem State.modWarp_team_retired (s : State) (t w u : Nat) (f : Warp → Warp) :
    ((s.modWarp t w f).team u).retired = (s.team u).retired := by
  unfold State.modWarp; rw [State.team_modTeam]; split <;> rfl
@[simp] theorem State.modThread_team_stop (s : State) (t i u : Nat) (f : Thread → Thread) :
    ((s.modThread t i f).team u).stop = (s.team u).stop := by
  unfold State.modThread; rw [State.team_modTeam]; split <;> rfl
@[simp] theorem State.modWarp_team_stop (s : State) (t w u : Nat) (f : Warp → Warp) :
    ((s.modWarp t w f).team u).stop = (s.team u).stop := by
  unfold State.modWarp; rw [State.team_modTeam]; split <;> rfl

end Sys2Proof.Machine
end

