-- ==== Sys2Proof/Laws/Word.lean ====
section
/-! SUPPORT. What the frame of a word does when the word stands at the current issue and its tests pass. -/

namespace Sys2Proof.Machine

open Sys2Proof

/-- The tests before a word let it run in the state `settled`. -/
theorem before_stands {s : State} {k : Iss} {i : Instr} {c : Common} (h : Stands s k i c)
    (hb : isBrk i = false) : s.before k i c = .go (s.settled k i c) k (s.runs k c) := by
  have hcmp : (if breaks k.clause.brk k.pc = true then
      k.threads.filter fun j => ((s.settleGuard k c).thread k.team j).noBreak != some k.pc else []) = [] := by
    split
    · next hx => simpa [State.guarded] using h.noBreak hx
    · rfl
  have hv : (s.settleGuard k c).notInstrFor k i c ((s.settleGuard k c).exec1 k c) = [] := by
    rcases h.valid with hv | hv
    · simp only [State.guarded] at hv; simp [State.notInstrFor, hv]
    · simpa only [State.guarded, State.runs] using hv.2
  have hpriv : ((s.settleGuard k c).exec1 k c).filter (fun j => (s.settleGuard k c).privFault k.team j i) = [] := by
    have := h.rights
    simp only [State.runs, State.guarded] at this
    simpa using this
  have hlook : (if (s.settleGuard k c).notInstr k i c = true then [] else
      ((s.settleGuard k c).exec1 k c).filter (fun j => ((s.settleGuard k c).thread k.team j).pend.any fun p =>
        p.clause == k.clause.addr && decide (k.pos ≤ p.last) &&
          touches i ((s.settleGuard k c).usesOf k.team (((s.settleGuard k c).team k.team).warpOf j) i) p)) = [] := by
    split
    · rfl
    next hn =>
    have := h.look (by simpa [State.guarded] using hn)
    simp only [State.runs, State.guarded] at this
    simp only [List.filter_eq_nil_iff, List.any_eq_true, Bool.and_eq_true, beq_iff_eq, decide_eq_true_eq]
    rintro j hj ⟨p, hp, ⟨h1, h2⟩, h3⟩
    exact this j hj p hp ⟨h1, h2, h3⟩
  have hg : (s.settleGuard k c).guardOpen k c = false := by simpa [State.guarded] using h.guard
  have hr : ((s.settleGuard k c).settleFor k i c ((s.settleGuard k c).exec1 k c)).waitsFor k i c
      ((s.settleGuard k c).exec1 k c) = false := by simpa [State.guarded, State.runs] using h.results
  unfold State.before
  simp only [hb, hcmp, hg, Bool.false_eq_true, if_false, hv, hpriv, hlook, hr]
  have hw := h.window
  simp only [State.settled, State.guarded, State.runs] at hw ⊢
  have he : (if (!inWindow i || (c.nas == 7 && k.clause.last k.pos)) = true then
      ((((s.settleGuard k c).settleFor k i c ((s.settleGuard k c).exec1 k c)).registerWatches k.team
        (((s.settleGuard k c).settleFor k i c ((s.settleGuard k c).exec1 k c)).warpsOf k.team k.threads)).speculating k.team
          ((s.settleGuard k c).exec1 k c)) else []) = [] := by
    rcases hw with ⟨h1, h2⟩ | h1
    · rw [if_neg]
      simpa [h1] using h2
    · split
      · exact h1
      · rfl
  simp only [he]

/-- A word that stands passes every test of R56 that its own bits decide. -/
theorem Stands.static {s : State} {k : Iss} {i : Instr} {c : Common} (h : Stands s k i c) (hm : isMma i = false) :
    i.staticCase = none := by
  rcases h.valid with hv | hv
  · simp only [State.notInstr, Bool.or_eq_false_iff, Option.isSome_eq_false_iff, Option.isNone_iff_eq_none] at hv
    exact hv.1
  · simp [hm] at hv
/-- Its fields hold what R43 to R45 and the opcode accept. -/
theorem Stands.fields {s : State} {k : Iss} {i : Instr} {c d : Common} (h : Stands s k i c) (hm : isMma i = false)
    (hc : i.common = some d) : i.fieldCase = none := by
  have hs := h.static hm
  rw [Instr.staticCase, hc] at hs
  cases hf : i.fieldCase with
  | none => rfl
  | some x => simp [hf] at hs
/-- What it needs of features, clause and mode holds. -/
theorem Stands.context {s : State} {k : Iss} {i : Instr} {c : Common} (h : Stands s k i c) (hm : isMma i = false) :
    (s.guarded k c).ctxCase k i c = none := by
  rcases h.valid with hv | hv
  · simp only [State.notInstr, Bool.or_eq_false_iff, Option.isSome_eq_false_iff, Option.isNone_iff_eq_none] at hv
    exact hv.2
  · simp [hm] at hv

/-- A word that stands takes its effect, then its threads leave it. -/
theorem word_stands {s : State} {k : Iss} {i : Instr} {c : Common} (h : Stands s k i c)
    (hb : isBrk i = false) (after : State → Iss → Res) (body : State → Iss → List Nat → Res) :
    word i c after body s = match body (s.settled k i c) k (s.runs k c) with
      | .done s' j => .next (s'.after k i c (s.runs k c) j)
      | .left s' => .next s'
      | .stall s' => .next (s'.leave k) := by
  unfold word
  simp only [h.issue, State.over_, h.first, before_stands h hb, Bool.false_eq_true, if_false]
  rfl

/-- A word whose effect never waits. -/
theorem simple_stands {s : State} {k : Iss} {i : Instr} {c : Common} (h : Stands s k i c)
    (hb : isBrk i = false) (body : State → Iss → List Nat → State) :
    simple i c body s = .next ((body (s.settled k i c) k (s.runs k c)).after k i c (s.runs k c) {}) := by
  unfold simple
  rw [word_stands h hb]

/-- A word whose wait has ended goes on as that ends, without its effect (R36). -/
theorem word_released {s : State} {k : Iss} {i : Instr} {c : Common} (hi : s.iss = some k)
    (hr : (s.thread k.team (k.threads.headD 0)).released = true) (after : State → Iss → Res)
    (body : State → Iss → List Nat → Res) :
    word i c after body s = .next (s.resume k c after) := by
  unfold word
  simp only [hi, State.over_, hr, if_true]

end Sys2Proof.Machine
end

