-- ==== Sys2Proof/Laws/Results.lean ====
section
/-! SUPPORT. What the shared operations over registers, results and groups can do: writing a register (R39 to R41), writing a
pending result (R50 to R52), settling before a word (R51), and regrouping, meeting and waiting (R205 to R210). -/

namespace Sys2Proof.Machine

open Sys2Proof

/-! ### Everything but the teams, or but the teams and groups, stays -/

/-- Nothing but the teams differs. -/
def State.TeamsOnly (s t : State) : Prop := t = { s with teams := t.teams }
/-- Nothing but the teams and the groups differs. -/
def State.TeamsAndGroups (s t : State) : Prop := t = { s with teams := t.teams, groups := t.groups }

theorem State.TeamsOnly.refl (s : State) : s.TeamsOnly s := rfl
theorem State.TeamsOnly.trans {s t u : State} (h : s.TeamsOnly t) (g : t.TeamsOnly u) : s.TeamsOnly u := by
  unfold State.TeamsOnly at *; rw [g, h]
theorem State.TeamsOnly.weaken {s t : State} (h : s.TeamsOnly t) : s.TeamsAndGroups t := by
  unfold State.TeamsOnly at h; unfold State.TeamsAndGroups; rw [h]
theorem State.TeamsAndGroups.refl (s : State) : s.TeamsAndGroups s := rfl
theorem State.TeamsAndGroups.trans {s t u : State} (h : s.TeamsAndGroups t) (g : t.TeamsAndGroups u) : s.TeamsAndGroups u := by
  unfold State.TeamsAndGroups at *; rw [g, h]
theorem State.TeamsOnly.foldl {α : Type} (l : List α) (f : State → α → State) (hf : ∀ (s : State) (a : α), s.TeamsOnly (f s a)) (s : State) :
    s.TeamsOnly (l.foldl f s) := by
  induction l generalizing s with
  | nil => exact .refl s
  | cons a r ih => exact (hf s a).trans (ih _)
theorem State.TeamsAndGroups.foldl {α : Type} (l : List α) (f : State → α → State) (hf : ∀ (s : State) (a : α), s.TeamsAndGroups (f s a))
    (s : State) : s.TeamsAndGroups (l.foldl f s) := by
  induction l generalizing s with
  | nil => exact .refl s
  | cons a r ih => exact (hf s a).trans (ih _)

theorem State.teamsOnly_modTeam (s : State) (t : Nat) (f : Team → Team) : s.TeamsOnly (s.modTeam t f) := rfl
theorem State.teamsOnly_modThread (s : State) (t i : Nat) (f : Thread → Thread) : s.TeamsOnly (s.modThread t i f) := rfl
theorem State.teamsOnly_modWarp (s : State) (t w : Nat) (f : Warp → Warp) : s.TeamsOnly (s.modWarp t w f) := rfl

/-! ### Registers and predicates -/

/-- A write of registers changes a thread's vector registers, a home warp's scalars, a window of a thread, or nothing; the dirty
bits of the registers written are set. -/
theorem State.putReg_cases (s : State) (t i : Nat) (code : BitVec 8) (n v : Nat) :
    s.putReg t i code n v = s ∨
    (∃ k, opndOf code = .v k ∧
      s.putReg t i code n v =
        (s.modThread t i fun x => { x with v := regsSet x.v k v n }).soil t ((s.team t).warpOf i) k n) ∨
    (∃ k, opndOf code = .s k ∧ s.putReg t i code n v = (s.modWarp t ((s.team t).warpOf i) fun w =>
      { w with regs := { w.regs with s := regsSet w.regs.s k v n } }).soil t ((s.team t).warpOf i) (1000 + k) n) ∨
    (∃ k, opndOf code = .ew k ∧ s.putReg t i code n v = s.modThread t i fun x =>
      { x with ew := x.ew.modify (x.level - 1) fun l => l.set k (BitVec.ofNat 64 (v % 2 ^ (32 * n))) }) := by
  unfold State.putReg
  cases h : opndOf code <;> simp
theorem State.teamsOnly_putReg (s : State) (t i : Nat) (code : BitVec 8) (n v : Nat) :
    s.TeamsOnly (s.putReg t i code n v) := by
  rcases s.putReg_cases t i code n v with h | ⟨k, -, h⟩ | ⟨k, -, h⟩ | ⟨k, -, h⟩ <;> rw [h] <;> rfl
theorem State.teamsOnly_putPred (s : State) (t i : Nat) (k : BitVec 3) (b : Bool) : s.TeamsOnly (s.putPred t i k b) := rfl
theorem State.teamsOnly_putAll (s : State) (t : Nat) (code : BitVec 8) (n : Nat) (vals : List (Nat × Nat)) :
    s.TeamsOnly (s.putAll t code n vals) := by
  unfold State.putAll
  split
  · refine .foldl _ _ (fun s w => ?_) s
    dsimp only
    split
    · exact .refl s
    · exact s.teamsOnly_putReg _ _ _ _ _
  · exact .foldl _ _ (fun s e => s.teamsOnly_putReg _ _ _ _ _) s
theorem State.teamsOnly_putSets (s : State) (t : Nat) (code : BitVec 8) (n : Nat) (sets : List (List (Nat × Nat))) :
    s.TeamsOnly (s.putSets t code n sets) := .foldl _ _ (fun s v => s.teamsOnly_putAll t code n v) s
@[simp] theorem regsSet_length (l : List Word) (k v n : Nat) : (regsSet l k v n).length = l.length := by
  induction n generalizing l k v with
  | zero => rfl
  | succ n ih => simp [regsSet, ih]
/-- Registers outside the range written keep their values. -/
theorem regsSet_outside (l : List Word) (k v n : Nat) {r : Nat} (h : r < k ∨ k + n ≤ r) : (regsSet l k v n)[r]? = l[r]? := by
  induction n generalizing l k v with
  | zero => rfl
  | succ n ih => rw [regsSet, ih _ _ _ (by omega), List.getElem?_set_ne (by omega)]
/-- Registers just written read back as the value. -/
theorem regsVal_regsSet (l : List Word) (k v n : Nat) (h : k + n ≤ l.length) (hv : v < 2 ^ (32 * n)) :
    regsVal (regsSet l k v n) k n = v := by
  induction n generalizing l k v with
  | zero => simp [regsVal] at *; omega
  | succ n ih =>
    have hk : ((regsSet l k v (n + 1)).getD k 0).toNat = v % 2 ^ 32 := by
      rw [List.getD_eq_getElem?_getD, regsSet, regsSet_outside _ _ _ _ (by omega), List.getElem?_set_self (by omega)]
      simp
    have hr := ih (l.set k (BitVec.ofNat 32 v)) (k + 1) (v / 2 ^ 32) (by simp; omega) (by
      rw [show 32 * (n + 1) = 32 + 32 * n by omega, Nat.pow_add] at hv
      exact Nat.div_lt_of_lt_mul hv)
    rw [regsVal, hk]
    rw [show regsSet l k v (n + 1) = regsSet (l.set k (BitVec.ofNat 32 v)) (k + 1) (v / 2 ^ 32) n from rfl, hr]
    omega

/-! ### Pending results -/

theorem State.teamsOnly_writeBack (s : State) (t i key : Nat) : s.TeamsOnly (s.writeBack t i key) := by
  unfold State.writeBack
  split
  · exact .refl s
  · rename_i p _
    obtain ⟨_, _, d, n, v, q, tk, _, _⟩ := p
    have hp := s.teamsOnly_putReg t i d n
    cases v <;> cases q <;> cases tk <;> dsimp only <;> (try split) <;>
    repeat (first
      | exact .refl s
      | exact hp _
      | refine .trans ?_ (State.teamsOnly_modWarp _ _ _ _)
      | refine .trans ?_ (State.teamsOnly_modThread _ _ _ _)
      | refine .trans ?_ (State.teamsOnly_putPred _ _ _ _ _))
theorem State.teamsOnly_settle (s : State) (t i : Nat) : s.TeamsOnly (s.settle t i) :=
  .foldl _ _ (fun s k => s.teamsOnly_writeBack t i k) s
theorem State.teamsOnly_settleAll (s : State) (t : Nat) (is : List Nat) : s.TeamsOnly (s.settleAll t is) :=
  .foldl _ _ (fun s i => s.teamsOnly_settle t i) s
theorem State.teamsOnly_settleGuard (s : State) (k : Iss) (c : Common) : s.TeamsOnly (s.settleGuard k c) :=
  .foldl _ _ (fun s _ => .foldl _ _ (fun s _ => s.teamsOnly_writeBack _ _ _) s) s
theorem State.teamsOnly_settleFor (s : State) (k : Iss) (i : Instr) (c : Common) (ex : List Nat) :
    s.TeamsOnly (s.settleFor k i c ex) :=
  .foldl _ _ (fun s _ => .foldl _ _ (fun s _ => .foldl _ _ (fun s _ => s.teamsOnly_writeBack _ _ _) s) s) s
theorem State.teamsOnly_registerWatches (s : State) (t : Nat) (ws : List Nat) : s.TeamsOnly (s.registerWatches t ws) :=
  .foldl _ _ (fun s _ => s.teamsOnly_modWarp _ _ _) s
/-- What comes before a word's effect changes nothing but teams (R51, R52, R237). -/
theorem State.teamsOnly_settled (s : State) (k : Iss) (i : Instr) (c : Common) : s.TeamsOnly (s.settled k i c) :=
  ((s.teamsOnly_settleGuard k c).trans (State.teamsOnly_settleFor _ _ _ _ _)).trans (State.teamsOnly_registerWatches _ _ _)

/-! ### Groups, meetings and waits -/

theorem State.teamsAndGroups_addGroup (s : State) (t n : Nat) (is : List Nat) : s.TeamsAndGroups (s.addGroup t n is) := rfl
theorem State.teamsAndGroups_ungroup (s : State) (t : Nat) (is : List Nat) : s.TeamsAndGroups (s.ungroup t is) := rfl
theorem State.teamsAndGroups_regroup (s : State) (t : Nat) : s.TeamsAndGroups (s.regroup t) :=
  (State.TeamsOnly.foldl _ _ (fun s _ => s.teamsOnly_modThread _ _ _) s).weaken.trans
    (.foldl _ _ (fun s is => s.teamsAndGroups_addGroup t _ is) _)
/-- Threads that leave their waits change, and their home warps' times; nothing but teams differs. -/
theorem State.teamsOnly_wake (s : State) (t : Nat) (is : List Nat) (f : Thread → Thread) : s.TeamsOnly (s.wake t is f) :=
  (State.TeamsOnly.foldl _ _ (fun s _ => s.teamsOnly_modThread _ _ _) s).trans
    (.foldl _ _ (fun s _ => s.teamsOnly_modWarp _ _ _) _)
theorem State.teamsOnly_meetRelease (s : State) (t i : Nat) : s.TeamsOnly (s.meetRelease t i) :=
  ((State.TeamsOnly.foldl _ _ (fun s _ => s.teamsOnly_modThread _ _ _) s).trans
    (.foldl _ _ (fun s _ => s.teamsOnly_wake _ _ _) _)).trans (.foldl _ _ (fun s _ => s.teamsOnly_modWarp _ _ _) _)
theorem State.teamsAndGroups_tidy (s : State) (t : Nat) : s.TeamsAndGroups (s.tidy t) := by
  refine State.TeamsAndGroups.trans (State.TeamsOnly.weaken (.foldl _ _ (fun s i => ?_) s)) (State.teamsAndGroups_regroup _ t)
  split
  · exact s.teamsOnly_meetRelease t i
  · exact .refl s
theorem State.teamsOnly_noteBlocked (s : State) (t w : Nat) : s.TeamsOnly (s.noteBlocked t w) := by
  unfold State.noteBlocked
  split <;> rfl
theorem State.teamsAndGroups_block (s : State) (t i : Nat) (w : Wait) : s.TeamsAndGroups (s.block t i w) :=
  ((State.teamsOnly_modThread s t i _).weaken.trans (State.teamsAndGroups_ungroup _ _ _)).trans
    (State.teamsOnly_noteBlocked _ _ _).weaken
theorem State.teamsAndGroups_unblock (s : State) (t : Nat) (is : List Nat) (r : Bool) : s.TeamsAndGroups (s.unblock t is r) := by
  exact (s.teamsOnly_wake t is _).weaken.trans (State.teamsAndGroups_tidy _ t)
theorem State.teamsAndGroups_hold (s : State) (t : Nat) (is : List Nat) (w : Wait) (keep : Bool) :
    s.TeamsAndGroups (s.hold t is w keep) :=
  ((State.TeamsOnly.foldl _ _ (fun s _ => s.teamsOnly_modThread _ _ _) s).weaken.trans
    (State.teamsAndGroups_ungroup _ _ _)).trans (State.TeamsOnly.foldl _ _ (fun s _ => s.teamsOnly_noteBlocked _ _) _).weaken
/-- Nothing but the teams, the groups and the cores' spin detectors differs. -/
def State.WakesOnly (s t : State) : Prop :=
  t = { s with teams := t.teams, groups := t.groups, cores := t.cores } ∧
  (t.cores.map fun x => { x with spins := [] }) = s.cores.map fun x => { x with spins := [] }
theorem State.WakesOnly.refl (s : State) : s.WakesOnly s := ⟨rfl, rfl⟩
theorem State.WakesOnly.trans {s t u : State} (h : s.WakesOnly t) (g : t.WakesOnly u) : s.WakesOnly u := by
  refine ⟨?_, g.2.trans h.2⟩
  rw [g.1, h.1]
theorem State.TeamsAndGroups.wakes {s t : State} (h : s.TeamsAndGroups t) : s.WakesOnly t := by
  unfold State.TeamsAndGroups at h
  constructor <;> rw [h]
theorem State.WakesOnly.foldl {α : Type} (l : List α) (f : State → α → State) (hf : ∀ (s : State) (a : α), s.WakesOnly (f s a))
    (s : State) : s.WakesOnly (l.foldl f s) := by
  induction l generalizing s with
  | nil => exact .refl s
  | cons a r ih => exact (hf s a).trans (ih _)
/-- A wake of a sector, or of many, changes nothing but teams, groups and detectors (R219, R220, R238). -/
theorem State.wakesOnly_wakeSector (s : State) (l : Loc) : s.WakesOnly (s.wakeSector l) := by
  refine State.WakesOnly.trans (t := if s.cores.any (fun x => x.spins.any fun d => d.any (s.spinArmed l)) then
      { s with cores := s.cores.map fun x => { x with spins := x.spins.map fun d => d.filter fun d => !s.spinArmed l d } }
    else s) ?_ (State.TeamsAndGroups.wakes (.foldl _ _ (fun s t => ?_) _))
  · split
    · exact ⟨rfl, by simp⟩
    · exact .refl s
  have h : s.TeamsAndGroups ((List.range (s.team t).nWarps).foldl (fun s w =>
      let x := s.warp t w
      if (x.watches.filter fun l => !x.unreg.contains l).any (s.watchNames l) then
        let is := ((s.team t).members w).filter fun i => (s.thread t i).wait == .watch
        if is.isEmpty then s.modWarp t w fun x => { x with wake := true }
        else (s.modWarp t w fun x => { x with wake := false }).unblock t is true
      else s) s) := by
    refine .foldl _ _ (fun s w => ?_) s
    dsimp only
    split
    · split
      · rfl
      · exact (State.teamsOnly_modWarp _ _ _ _).weaken.trans (State.teamsAndGroups_unblock _ _ _ _)
    · exact .refl s
  dsimp only
  split
  · exact h
  · exact h.trans (State.teamsAndGroups_unblock _ _ _ _)
theorem State.wakesOnly_wakeSectors (s : State) (l : List Loc) : s.WakesOnly (s.wakeSectors l) :=
  .foldl _ _ (fun s x => s.wakesOnly_wakeSector x) s
/-- A wake of threads everywhere changes nothing but teams and groups. -/
theorem State.teamsAndGroups_wakeAll (s : State) (r : Bool) (p : State → Nat → Nat → Wait → Bool) :
    s.TeamsAndGroups (s.wakeAll r p) := by
  refine .foldl _ _ (fun s t => ?_) s
  dsimp only
  split
  · exact .refl s
  · exact State.teamsAndGroups_unblock _ _ _ _

/-! ### Integer results (R83) -/

theorem tyInt_cases (ty : BitVec 4) (h : tyInt ty = true) :
    ty = i8 ∨ ty = n8 ∨ ty = i16 ∨ ty = n16 ∨ ty = i32 ∨ ty = n32 ∨ ty = i64 ∨ ty = n64 := by
  revert h; revert ty; decide
/-- A narrowed result is the integer reduced, or clamped, to the range of its TYPE. -/
theorem narrow_eq_intResult (ty : BitVec 4) (sat : Bool) (x : Int) (h : tyInt ty = true) : narrow ty sat x = intResult ty sat x := by
  rcases tyInt_cases ty h with rfl | rfl | rfl | rfl | rfl | rfl | rfl | rfl <;> cases sat <;>
  simp only [narrow, fillTy, intResult, clampInt, wrapInt, ibits, tyMin, tyMax, tySigned, tyBits, tyRegs, i8, n8, i16, n16,
    i32, n32, i64, n64] <;>
  simp <;> (try (split <;> omega)) <;> omega
/-- An element-wise word that stands gives each executing thread its value. -/
theorem alu_stands {s : State} {k : Iss} {i : Instr} {w : FA} (h : Stands s k i w.c) (hb : isBrk i = false) (n : Nat)
    (f : State → Nat → Nat → Nat) :
    alu i w n f s = .next (((s.settled k i w.c).putAll k.team w.dst n ((s.runs k w.c).map fun t =>
      (t, f (s.settled k i w.c) k.team t))).after k i w.c (s.runs k w.c) {}) := by
  unfold alu
  rw [simple_stands h hb]
  rfl

end Sys2Proof.Machine
end

