-- ==== Sys2Proof/Tests/Slice0.lean ====
section
/-! SUPPORT. Tests: for every statement a state and operands that meet its hypotheses; a word of every instruction, decoded;
what is not well formed; and steps of single words. Expected values come from the manual's tables and words, or from its
rules by hand. -/

set_option maxRecDepth 100000
set_option Elab.async false

namespace Sys2Proof.Tests

open Sys2Proof Sys2Proof.Machine

/-! ### A word at the current issue of a small machine -/

/-- The bits of the opcode table's clause whose first word is `w`. -/
def clauseOf (cls : Nat) (w : DWord) : Nat :=
  let c := Common.ofWord w
  cls * 2 ^ 60 + (c.look.toNat + if c.nas = 5 then 1 else 0) * 2 ^ 56 + w.toNat * 2 ^ 64
/-- After reset, the word of `i` at the current issue of a team of one thread, changed by `f`. -/
def place (i : Instr) (f : Team → Team := id) : State := match encode i with
  | some (cls, w) => (State.reset.withFetchWord 128 (clauseOf cls w)).modTeam 0 f
  | none => State.reset
/-- The current issue of that state. -/
def issue (s : State) : Iss := s.iss.getD default
/-- The tests of `Stands`, computed. -/
def standing (s : State) (k : Iss) (i : Instr) (c : Common) : Bool :=
  let ex := s.runs k c
  s.iss == some k && !(s.thread k.team (k.threads.headD 0)).released &&
  (!breaks k.clause.brk k.pc || k.threads.all fun j => ((s.guarded k c).thread k.team j).noBreak == some k.pc) &&
  !(s.guarded k c).guardOpen k c && (!(s.guarded k c).notInstr k i c || (isMma i && ((s.guarded k c).notInstrFor k i c ex).isEmpty)) &&
  (ex.all fun j => !(s.guarded k c).privFault k.team j i) &&
  (ex.all fun j => ((s.guarded k c).thread k.team j).pend.all fun p =>
    !(p.clause == k.clause.addr && decide (k.pos ≤ p.last) &&
      touches i ((s.guarded k c).usesOf k.team (((s.guarded k c).team k.team).warpOf j) i) p)) &&
  !((s.guarded k c).settleFor k i c ex).waitsFor k i c ex &&
  ((inWindow i && !(c.nas == 7 && k.clause.last k.pos)) || ((s.settled k i c).speculating k.team ex).isEmpty)
theorem stands_of {s : State} {k : Iss} {i : Instr} {c : Common} (h : standing s k i c = true) : Stands s k i c := by
  simp only [standing, Bool.and_eq_true, Bool.or_eq_true, Bool.not_eq_true', beq_iff_eq, List.all_eq_true,
    List.isEmpty_iff] at h
  obtain ⟨⟨⟨⟨⟨⟨⟨⟨h1, h2⟩, h3⟩, h4⟩, h5⟩, h6⟩, h7⟩, h8⟩, h9⟩ := h
  refine ⟨h1, h2, ?_, h4, ?_, h6, ?_, h8, ?_⟩
  · intro hb j hj
    rcases h3 with h3 | h3
    · simp [hb] at h3
    · exact h3 j hj
  · exact h5
  · intro _ j hj p hp hc
    have := h7 j hj p hp
    simp [hc.1, hc.2.1, hc.2.2] at this
  · rcases h9 with h9 | h9
    · left; refine ⟨h9.1, ?_⟩; intro hc; have := h9.2; simp [hc.1, hc.2] at this
    · right; exact h9

/-! ### Witnesses: every statement's hypotheses are met -/

/-- The registers of the witnesses: two numbers, an address in v2 and s0, a scratchpad offset in v4, an address of a Q page in v8, a count
in v10. -/
def someV : List Word := [7, 0xFFFFFFF9, 0x10800, 0, 16, 0, 3, 0, 0x20000, 0, 8, 0]
def someS : List Word := [0x10800, 0, 4, 0, 0, 0, 0, 0, 0x10800, 0, 0, 0, 0, 0, 0, 0]
/-- A shape record of one row of four 32-bit elements at 0x10800 (R188). -/
def shape1 : BitVec 1024 := BitVec.ofNat 1024 (0x10800 + (1 + 2 * 2 ^ 6) * 2 ^ 64 + 4 * 2 ^ 128 + 4 * 2 ^ 384)
/-- The word of `i` at the current issue, over those registers, every feature of DFEAT0 enabled, changed by `f`. -/
def here (i : Instr) (f : State → State := id) : State :=
  let s := place i fun m => { m with
    threads := m.threads.map fun (x : Thread) => { x with v := someV ++ x.v.drop someV.length }
    warps := m.warps.map fun (x : Warp) => { x with regs := { x.regs with
      s := someS ++ x.regs.s.drop someS.length, shape := shape1, vcnt := 0x0101 } } }
  let c := fun (x : Ctx) => { x with spwbase := 2 ^ 44, scb := 0xFC00 }
  let q : Tlb := { tlbAt 0 0 with page := 2, frame := 2, ipa := 2, fmt := 1 }
  let tlb := fun (x : Core) => { x with tlb := x.tlb ++ [q] }
  f ((({ s with mgmt := { s.mgmt with drvfeat := [0x3FFC, 0] } } : State).modCtx 0 c).modCore 0 tlb)
/-- Each of the words stands there. -/
def shown (l : List Instr) : Bool := l.all fun i => standing (here i) (issue (here i)) i (i.common.getD default)
theorem stands_all {l : List Instr} (h : shown l = true) :
    ∀ i ∈ l, ∃ s k, Stands s k i (i.common.getD default) := fun i hi =>
  ⟨_, _, stands_of (List.all_eq_true.mp h i hi)⟩
/-- The word `i` stands, and `ok` holds of the settled state, the issue and the executing threads. -/
def found (i : Instr) (ok : State → Iss → List Nat → Bool) (f : State → State := id) : Bool :=
  let s := here i f
  let k := issue s
  let c := i.common.getD default
  standing s k i c && ok (s.settled k i c) k (s.runs k c)
theorem found_of {i : Instr} {ok : State → Iss → List Nat → Bool} {f : State → State} (h : found i ok f = true) :
    ∃ s k, Stands s k i (i.common.getD default) ∧
      ok (s.settled k i (i.common.getD default)) k (s.runs k (i.common.getD default)) = true := by
  simp only [found, Bool.and_eq_true] at h
  exact ⟨_, _, stands_of h.1, h.2⟩
/-- `AllPass`, computed. -/
def passes {α : Type} (ps : List (Nat × Except Probe α)) : Bool := ps.all fun e => match e.2 with | .ok _ => true | .error _ => false
theorem passes_iff {α : Type} (ps : List (Nat × Except Probe α)) : passes ps = true ↔ AllPass ps := by
  simp only [passes, List.all_eq_true, AllPass]
  refine forall₂_congr fun e _ => ?_
  cases e.2 <;> simp
/-- `AllReady`, computed. -/
def ready (ms : List (Nat × Mtx)) : Bool := ms.all fun e => match e.2 with | .ready _ => true | _ => false
theorem ready_iff (ms : List (Nat × Mtx)) : ready ms = true ↔ AllReady ms := by
  simp only [ready, List.all_eq_true, AllReady]
  refine forall₂_congr fun e _ => ?_
  cases e.2 <;> simp

/-- Fields of a word that goes on to the next one and is not guarded. -/
def c0 : Common := { nas := 0, look := 0, ts := 0, tok := 0, pneg := 0, pidx := 7 }
def fa (dst sa sb sc : BitVec 8) (ty : BitVec 4) (ctl : BitVec 5 := 0) : FA := { c := c0, dst, sa, sb, sc, ty, ctl }
def fm (dst sa sb : BitVec 8) (wid : BitVec 3) (ctl : BitVec 2 := 0) (off : BitVec 12 := 0) : FM :=
  { c := c0, dst, sa, sb, off, wid, ctl }
def fx (dst sa sb : BitVec 8) (mod : BitVec 13) : FX := { c := c0, dst, sa, sb, gd := 0, gs := 0, mod }
def fs (dst sa sb : BitVec 8) (idx : BitVec 12) (low : BitVec 5) : FS := { c := c0, dst, sa, sb, idx, low }
def fn : FN := { c := c0, rest := 0 }

theorem witness_IntegerArithmeticGivesExactResult : ∀ i ∈ [Instr.add (fa 6 0 1 0 i32), .sub (fa 6 0 1 0 i32 1), .mul (fa 6 0 2 0 n64),
    .mad (fa 6 0 1 2 i32), .neg (fa 6 0 0 0 i16), .abs (fa 6 1 0 0 i8 1), .min (fa 6 0 1 0 i32), .max (fa 6 0 1 0 n32),
    .mulh (fa 6 0 2 0 i64), .madw (fa 6 0 1 2 n32)],
    ∃ s k, Stands s k i (i.common.getD default) := stands_all (by decide +kernel)
theorem witness_CarryChainsThroughPredicates : ∀ i ∈ [Instr.addc (fa 6 0 1 0x6F n32), .subb (fa 6 0 2 0 n64)],
    ∃ s k, Stands s k i (i.common.getD default) := stands_all (by decide +kernel)
theorem witness_LogicActsBitwise : ∀ i ∈ [Instr.and (fa 6 0 1 0 b32), .or (fa 6 0 0xF1 0x80 b32), .xor (fa 6 0 2 0 b64),
    .andn (fa 6 0 1 0 b16), .not (fa 6 0 0 0 b32), .sel (fa 6 0 1 4 b32)],
    ∃ s k, Stands s k i (i.common.getD default) := stands_all (by decide +kernel)
theorem witness_ShiftsReduceTheirAmount : ∀ i ∈ [Instr.shl (fa 6 0 0xF1 33 n32), .shr (fa 6 0 1 0 n32), .sar (fa 6 0 1 0 i64),
    .rotl (fa 6 0 1 0 b32), .fshf (fa 6 0 1 2 b64)],
    ∃ s k, Stands s k i (i.common.getD default) := stands_all (by decide +kernel)
theorem witness_BitCountsAndReversal : ∀ i ∈ [Instr.popc (fa 6 0 0 0 n64), .clz (fa 6 0 0 0 b32), .ctz (fa 6 3 0 0 b32), .brev (fa 6 0 0 0 b64)],
    ∃ s k, Stands s k i (i.common.getD default) := stands_all (by decide +kernel)
theorem witness_FieldsBytesAndAddresses : ∀ i ∈ [Instr.bfx (fa 6 0 1 0 i32), .bfi (fa 6 0 1 4 b32), .prmt (fa 6 0 1 4 b32),
    .lea (fa 6 2 1 0 i32 0x1E)],
    ∃ s k, Stands s k i (i.common.getD default) := stands_all (by decide +kernel)
theorem witness_ComparisonsWriteMaskAndPredicate : ∀ i ∈ [Instr.cmp (fa 6 0 1 0x2E i32), .fcmp (fa 6 0 1 0x3E f32 4), .fclass (fa 6 0 0 0 f16)],
    ∃ s k, Stands s k i (i.common.getD default) := stands_all (by decide +kernel)
theorem witness_FloatArithmeticRoundsOnce : ∀ i ∈ [Instr.fadd (fa 6 0 1 0 f32 7), .fsub (fa 6 0 1 0 f32), .fmul (fa 6 0 1 0 bf16),
    .ffma (fa 6 0 1 2 f32), .fmin (fa 6 0 1 0 f32), .fmax (fa 6 0 1 0 f32), .fscale (fa 6 0 1 0 f32), .frnd (fa 6 0 0 0 f16),
    .fdot2 (fa 6 0 1 2 f16)],
    ∃ s k, Stands s k i (i.common.getD default) := stands_all (by decide +kernel)
/-- Finite values and infinities, in every mode; the modes that round outward, and those that do not. -/
theorem witness_NanInfinityAndRoundingRules : fm32.read false 0x7FC00000 = .nan ∧ fm32.read false 0xFF800000 = .inf true ∧
    fm32.read false 0x7F800000 = .inf (!true) ∧ fm32.read false 0x80000000 = .fin true 0 (-149) ∧ fm16 ∈ [fm32, fm16, fmB16, fm64] ∧
    (∀ rm ∈ [0, 1, 2, 3], rm < 4) ∧ ((2 : Nat) = 2 ∧ true = true) ∧ ((2 : Nat) ≠ 0 ∧ ¬ (2 = 2 ∧ false = true ∨ 2 = 3 ∧ false = false)) := by
  decide +kernel
theorem witness_LongFloatsIssueTheirResult : ∀ i ∈ [Instr.frcp (fa 6 0 0 0 f32), .frsq (fa 6 0 0 0 f32), .fsqrt (fa 6 0 0 0 f32),
    .fexp2 (fa 6 0 0 0 f32), .flog2 (fa 6 0 0 0 f32), .fsin (fa 6 0 0 0 f16), .fcos (fa 6 0 0 0 bf16), .ftanh (fa 6 0 0 0 f32)],
    ∃ s k, Stands s k i (i.common.getD default) := stands_all (by decide +kernel)
theorem witness_ConversionsGiveTheirValue : ∀ i ∈ [Instr.cvt (fa 6 0 0 4 i32 1), .pack (fa 6 0 1 0 f16), .unpk (fa 6 0 0 0 i16),
    .qdec (fa 6 0 0 0 f32 8), .qenc (fa 6 0 0 0 f32)],
    ∃ s k, Stands s k i (i.common.getD default) := stands_all (by decide +kernel)
theorem witness_NopSkipAndYield : ∀ i ∈ [Instr.nop 0 fn, .nop 3 { fn with c := { c0 with nas := 5, look := 1 } }, .yield fn],
    ∃ s k, Stands s k i (i.common.getD default) := stands_all (by decide +kernel)
theorem witness_MovesSpecialsAndPredicates : ∀ i ∈ [Instr.mov (fa 6 0 0 0 b64), .movi { c := c0, dst := 6, imm := 0xFFFFFFFF, rsv := 0 },
    .movh { c := c0, dst := 6, imm := 0xFFFFFFFF, rsv := 0 }, .rds (fa 6 0 0 0x2A b64), .wrs (fa 0 0xC2 0 0x12 b32),
    .plop (fa 0 1 2 0x80 0 3), .pmovGet (fa 6 0 0 0 b32), .pmovSet (fa 0 0 0 0x7F b32 1)],
    ∃ s k, Stands s k i (i.common.getD default) := stands_all (by decide +kernel)
theorem witness_LaneInstructionsActOnLaneSets : ∀ i ∈ [Instr.shfl (fa 6 0 0xF1 0 b32 0x1C), .vote (fa 0xC6 0 0 0x60 b32 0), .vote (fa 0xC6 0 0 0x70 b32 3),
    .redux (fa 6 0 0 0 f32), .matchLanes (fa 6 0 0 0 b32 0), .v2s (fa 0xC6 0 0xF1 0 b64)],
    ∃ s k, Stands s k i (i.common.getD default) := stands_all (by decide +kernel)
theorem witness_FencesPrefetchAndPageRequests_words : ∀ i ∈ [Instr.fenceAcq (fm 0 0 0 0 1), .pref (fm 0 2 0 0 0), .icfence fn],
    ∃ s k, Stands s k i (i.common.getD default) := stands_all (by decide +kernel)
theorem witness_SealsAndTransfers : ∀ i ∈ [Instr.seal (fa 6 0 0 0 0), .jmpi (fa 0 2 0 0 b64), .calli (fa 0 2 0 0 b64),
    .meetset (fa 0 0xFF 0xFF 0xFF 0), .meetsetR (fa 0 2 0 0 0 1), .meetsetClr (fa 0 0 0 0 0 2)],
    ∃ s k, Stands s k i (i.common.getD default) := stands_all (by decide +kernel)
theorem witness_WatchWaitAndSleep_words : ∀ i ∈ [Instr.watchClr (fm 0 0 0 0 1), .wait fn, .sleep (fa 0 10 0 0 n32), .barWait (fa 0 0 0 15 0 2), .sbarWait (fa 0 0 0 0 0 2)],
    ∃ s k, Stands s k i (i.common.getD default) := stands_all (by decide +kernel)
theorem witness_GuardLaunchAndSignal_words : ∀ i ∈ [Instr.gres (fa 0 0xC2 0 7 0), .recf (fa 0 0 0 0 0), .trap (fa 0 0 0 0xFF 0)],
    ∃ s k, Stands s k i (i.common.getD default) := stands_all (by decide +kernel)

theorem witness_ReadOfMprog : found (.rds (fa 6 0 0 0x12 b32)) (fun s k ex =>
    (s.drainGangs k.team (s.warpsOf k.team ex)).2 == .clear) = true := by decide +kernel

/-! Memory -/

def clean (s : State) (k : Iss) (as : List (Nat × Access)) : Bool := (places as).all fun e => !s.consumes k.core e.1 e.2
def calm (s : State) (k : Iss) (ex : List Nat) : Bool := ex.all fun i => !s.syncOpen k.team i

theorem witness_Loads_ld : found (.ld (fm 4 2 0 4)) (fun s k ex =>
    let p := s.probeGlobal k (fm 4 2 0 4) ex {}
    passes p.2 && clean p.1 k (passed p.2)) = true := by decide +kernel
theorem witness_Loads_lda : found (.lda (fm 6 2 0 3)) (fun s k ex =>
    let p := s.probeGlobal k (fm 6 2 0 3) ex {}
    passes p.2 && calm p.1 k ex && (places (passed p.2)).all fun e => !p.1.takesPoison k.core e.1 e.2) = true := by decide +kernel
theorem witness_Loads_lds : found (.lds (fm 4 4 0 4)) (fun s k ex =>
    let p := s.probePads k ex (fun i => s.padOff (fm 4 4 0 4) k.team i) 16
    passes p && clean s k (passed p)) = true := by decide +kernel
/-- One load of a page that is there and one of a page that is not. -/
theorem witness_Loads_ldnr : (found (.ldnr (fm 6 2 0 2)) (fun s k ex =>
    let p := s.probeGlobal k (fm 6 2 0 2) ex { stay := true }
    let near := p.2.filter fun e => !(absentLanes p.2).contains e.1
    passes near && near.length == 1 && clean p.1 k (passed near))) = true := by decide +kernel
theorem witness_Loads_ldt : found (.ldt (fm 7 6 0 2)) (fun s k ex =>
    let p := s.probeTensor k (fm 7 6 0 2) ex {}
    passes p.2 && clean p.1 k (accessing (passed p.2))) = true := by decide +kernel

theorem witness_Stores_st : ([2, 5].all fun wid => found (.st { fm 6 2 0 wid with ctl := if wid = 5 then 8 else 0 }) (fun s k ex =>
    let p := s.probeGlobal k { fm 6 2 0 wid with ctl := if wid = 5 then 8 else 0 } ex { write := true }
    passes p.2 && (scalesOf (passed p.2)).all fun e => !p.1.consumes k.core e.1 e.2)) = true := by decide +kernel
theorem witness_Stores_sts : found (.sts (fm 6 4 0 3)) (fun s k ex =>
    passes (s.probePads k ex (fun i => s.padOff (fm 6 4 0 3) k.team i) 8)) = true := by decide +kernel
theorem witness_Stores_stl : found (.stl (fm 6 2 0 3)) (fun s k ex =>
    let p := s.probeGlobal k (fm 6 2 0 3) ex { write := true }
    passes p.2 && (p.1.release k.team ex).isSome) = true := by decide +kernel
theorem witness_Stores_stt : found (.stt (fm 7 6 0 2)) (fun s k ex =>
    passes (s.probeTensor k (fm 7 6 0 2) ex { write := true }).2) = true := by decide +kernel
theorem witness_Stores_qst : found (.qst (fm 6 8 4 5)) (fun s k ex =>
    passes (s.probeQst k (fm 6 8 4 5) ex).2) = true := by decide +kernel
def unpoisoned (s : State) (k : Iss) (n : Nat) (ls : List (Nat × Loc × Nat)) : Bool := ls.all fun e => !s.takesPoison k.core e.2.1 n
theorem witness_Atomics_atom : found (.atom (fm 6 2 4 2)) (fun s k ex =>
    let p := s.probeAtoms k (fm 6 2 4 2) ex
    passes p.2 && calm p.1 k ex && unpoisoned p.1 k 4 (p.1.atomArgs k (fm 6 2 4 2) (passed p.2))) = true := by decide +kernel
theorem witness_Atomics_atomRel : found (.atom (fm 6 2 4 3 3 0xDF8)) (fun s k ex =>
    let w := fm 6 2 4 3 3 0xDF8
    let p := s.probeAtoms k w ex
    let r := (p.1.release k.team ex).getD s
    passes p.2 && (p.1.release k.team ex).isSome && unpoisoned r k 8 (r.atomArgs k w (passed p.2))) = true := by decide +kernel
theorem witness_Atomics_red : found (.red (fm 0 2 4 2)) (fun s k ex =>
    let p := s.probeAtoms k (fm 0 2 4 2) ex
    passes p.2 && unpoisoned p.1 k 4 (p.1.atomArgs k (fm 0 2 4 2) (passed p.2))) = true := by decide +kernel
theorem witness_Atomics_atoms : found (.atoms (fm 6 4 4 2 0 0x9F8)) (fun s k ex =>
    let w := fm 6 4 4 2 0 0x9F8
    let ps := s.probePads k ex (fun i => (s.opnd k.team i w.sa 1 : Int) + sext w.off8.toNat 8) 4
    passes ps && unpoisoned s k 4 (s.atomArgs k w (passed ps))) = true := by decide +kernel
theorem witness_AtomicOperationValues : (3 : Nat) < 2 ^ 32 ∧ 2 ^ 64 - 1 < 2 ^ 64 ∧ (32 = 32 ∨ 32 = 64) := by decide
theorem witness_Fences : (found (.fenceAcq (fm 0 0 0 0 1)) calm && found (.fenceRel (fm 0 0 0 0 2)) (fun s k ex => (s.release k.team ex).isSome) &&
    found (.fenceFull (fm 0 0 0 0 3)) (fun s k ex => (s.release k.team ex).isSome) &&
    found (.pgreq (fm 0 2 0 0 1)) (fun s k ex =>
      let ps := probeEach (fun (s : State) (t : Nat) => s.access k.team t (s.ea (fm 0 2 0 0 1) k.team t) 1 1 { stay := true }) s ex
      faultReps ps.2 == [] && (missingPages ps.2).all fun e => !e.far)) = true := by decide +kernel
theorem witness_Pads : (found (.swinit (fm 6 4 0 0)) (fun s k ex =>
      passes (s.probePads k ex (fun i => s.padOff (fm 6 4 0 0) k.team i) 16)) &&
    found (.swwait (fm 6 4 0 0)) (fun s k ex =>
      let ps := s.probePads k ex (fun i => s.padOff (fm 6 4 0 0) k.team i) 16
      passes ps && (ps.length == 1) && calm s k ex && s.cmds.isEmpty && (s.team k.team).pad.isEmpty &&
        ex.all fun i => (s.thread k.team i).faults.isEmpty) &&
    found (.waitb (fa 0 10 0 0 0)) (fun s k ex => calm s k ex && ex.all fun i =>
      let n := BitVec.ofNat 32 (s.opnd k.team i 10 1)
      !s.guardWait k.team ((s.team k.team).warpOf i) (fun c => c.joins.any fun j => j.1 == i && atOrBefore j.2 n) &&
      s.batchesDone k.team i n && (s.thread k.team i).faults.isEmpty)) = true := by decide +kernel
/-- A thread that has left the wait of a WAITB. -/
theorem witness_BatchAndSyncWaits_over : let s := here (.waitb (fa 0 10 0 0 0)) fun s => s.modThread 0 0 fun x => { x with released := true }
    s.iss = some (issue s) ∧ (s.thread 0 ((issue s).threads.headD 0)).released = true ∧
    (∀ j ∈ (issue s).threads, (s.thread 0 j).due = none) ∧ (issue s).team = 0 := by decide +kernel
theorem witness_ShapeAndSyncWordsAreSet : found (.shape (fm 0 0xC8 0 0)) (fun s k ex =>
    let lead := fun (v : Nat) => (s.ofWarp k.team v ex).headD 0
    let ps := probeEach (fun (r : State) (v : Nat) =>
      r.access k.team (lead v) (r.ea (fm 0 0xC8 0 0) k.team (lead v)) 128 128 {}) s (s.warpsOf k.team ex)
    let filled := (passed ps.2).foldl (fun (s : State) (e : Nat × Access) => s.fillLoc k.core e.2.loc 128) ps.1
    passes ps.2 && clean ps.1 k (passed ps.2) && (passed ps.2).all fun e =>
      shapeOk (BitVec.ofNat 1024 (leValue (filled.laneBytes k.team (lead e.1) e.2.loc 128)))) (fun s =>
        { s with mem := s.mem.writeN 0x10800 (leBytes 128 shape1.toNat) }) = true := by decide +kernel
theorem witness_Barriers : ([Instr.barArrive (fa 6 0 0 15 0 1), .barSync (fa 0 0 0 0 0 3), .sbarArrive (fa 0xF0 0 0 5 0 1),
    .sbarSync (fa 0 0 0 5 0 3)].all fun i => found i fun s k ex => calm s k ex && (s.release k.team ex).isSome) = true := by decide +kernel
theorem witness_WatchWaitAndSleep : found (.watch (fm 0 2 0 0)) (fun s k ex =>
    let ps := probeEach (fun (s : State) (i : Nat) => s.watchSector (fm 0 2 0 0) k.team i) s ex
    faultReps ps.2 == [] && ((missingPages ps.2).all fun e => !e.far) && (passed ps.2).length == 1 && (ps.1.warp k.team 0).watches.isEmpty) = true := by decide +kernel

/-! Control, records and agreement -/

/-- A team of a stage graph's node 0, which may send records to node 1; the thread holds the record at 0x10800. -/
def staged (s : State) : State :=
  let n : GNode := { desc := [], recsz := 1, maxdepth := 2, timer := 0, cap := 4, group := 1, succ := [1], base := 0x10800 }
  let g : Graph := { launch := 0, qbase := 0, nodes := [n, n], sig := 0, slots := [], order := 0, due := [], taken := [], done := false }
  let r : RecSlot := { graph := 0, node := 1, level := 0, slot := 0 }
  ({ s with graphs := [g] } : State).modTeam 0 fun m => { m with node := some (0, 0, 0), threads := m.threads.map fun (x : Thread) => { x with recs := [r] } }
/-- Communicator 0 of context 0, open at slot 0 with this chip's one rank. -/
def comm0 : Comm := { slot := 0, id := 0, ctx := 0, pri := false, ftag := 5, nrank := 1, rbase := 0, rcnt := 1, map := [(0, 0)], acked := true, joined := [0], held := [], sent := [], ranks := [], agree := [], ops := [], cbars := [], past := [], told := false, failed := false, joinAt := 0 }
def member (s : State) : State := { s with comms := [comm0] }

theorem witness_AgreementWordsContribute : ([Instr.cbr { fa 0 0 0 0x01 0 with c := { c0 with nas := 2 } }, .cbsync (fa 0 0 0 0 0),
    .cbsyncAbort (fa 0 0 0 0 0 1)].all fun i => found i (fun s k ex =>
      s.branchFaults k.team ex == [] && (s.release k.team ex).isSome) (fun s =>
        (member s).modWarp 0 0 fun x => { x with regs := { x.regs with cbabort := 0x10000 } })) = true := by decide +kernel
theorem witness_Launch : found (.launch (fa 6 2 0xF1 0 n32)) (fun s k ex =>
    let ps := probeEach (fun (r : State) (i : Nat) => match r.probe16 k.team i (r.opnd k.team i 2 2 : Int) 64 64 with
      | (r, .ok l x) => if 64 ≤ s.src k.team i 0xF1 0 1 ∨ (r.iface (s.src k.team i 0xF1 0 1)).owner ≠ (r.ctxOf k.team).part then
          (r, .error (.fault fLaunchq 0 false))
        else (r, .ok ({ loc := l, page := x, scale := none, size := 64 } : Access))
      | (r, p) => (r, .error p)) s ex
    passes ps.2 && (match ps.1.release k.team ex with
      | some r => clean r k (passed ps.2)
      | none => false)) = true := by decide +kernel
theorem witness_Signal : found (.signal (fa 0 2 4 3 b64 1)) (fun s k ex =>
    let ps := probeEach (fun (r : State) (i : Nat) => r.access k.team i (r.opnd k.team i 2 2 : Int) 8 8 { write := true, line := true }) s ex
    passes ps.2 && (ps.1.release k.team ex).isSome) = true := by decide +kernel
theorem witness_RecordsAreAllocatedCommittedAndFreed : (found (.reca (fa 6 0 0xF1 0 n32)) (fun s k ex =>
      ex.all fun i => s.recaCheck k.team 1 (s.src k.team i 0xF1 0 1) == none) (fun s => (staged s).modThread 0 0 fun x =>
        { x with v := 1 :: x.v.drop 1 }) &&
    found (.recc (fa 0 2 0 0 0)) (fun s k ex => (ex.all fun i => (s.recAt k.team i (s.opnd k.team i 2 2)).isSome) &&
      (s.release k.team ex).isSome) staged) = true := by decide +kernel
theorem witness_DivisionEntersTheEmulationHandler : ([(Instr.div (fa 6 0 1 0 i32), fa 6 0 1 0 i32), (.rem (fa 6 0 1 0 n64), fa 6 0 1 0 n64),
    (.fdiv (fa 6 0 1 0 f32), fa 6 0 1 0 f32)].all fun e =>
      let s := here e.1
      let k := issue s
      s.iss == some k && !(s.thread k.team (k.threads.headD 0)).released && !breaks k.clause.brk k.pc &&
      !(s.guarded k e.2.c).guardOpen k e.2.c && Common.ofWord (k.clause.word k.pos) == e.2.c) = true := by decide +kernel
theorem witness_Brk : let s := here (.brk 0 0)
    s.iss = some (issue s) ∧ (issue s).threads ≠ [] ∧
      (s.thread (issue s).team ((issue s).threads.headD 0)).released = false := by decide +kernel

/-! Matrix, engine and collective words -/

def mapThreads (f : Thread → Thread) (m : Team) : Team := { m with threads := m.threads.map f }
def mapWarps (f : Warp → Warp) (m : Team) : Team := { m with warps := m.warps.map f }
/-- The banks of core 0, partition 0 are the gang's of the warp. -/
def owning (s : State) : State := (List.range 16).foldl (fun (s : State) (b : Nat) =>
  s.modBank 0 0 b fun x => { x with owner := some (s.gangOf 0 0) }) s
theorem witness_BankCommandsAct : (found (.alloc (fx 0 0 0 0x02)) (fun s k ex =>
      ready (s.mtxTests k ex fun s v hs => s.allocTest k (fx 0 0 0 0x02) v hs).2) &&
    found (.free (fx 0 0 0 0x02)) (fun s k ex => ready (s.mtxTests k ex fun s v hs => s.freeTest k (fx 0 0 0 0x02) v hs).2)
      owning &&
    ([Instr.acrd (fx 6 10 0 0x104), .acwr (fx 0 10 4 0x80), .acz (fx 0 0 0 4)].all fun i => found i (fun s k ex =>
      ready (s.mtxTests k ex fun s v hs => s.mtxReady k v 0 16 hs).2) owning) &&
    found (.acld (fx 0 0xC8 0 0)) (fun s k ex => ready (s.mtxTests k ex fun s v hs => s.acldTest k (fx 0 0xC8 0 0) v hs).2) owning &&
    found (.acst (fx 0 0xC8 0xC2 0x42)) (fun s k ex => ready (s.mtxTests k ex fun s v hs => s.acstTest k (fx 0 0xC8 0xC2 0x42) v hs).2)
      owning) = true := by decide +kernel
/-- Two home warps of one gang issue a FREE together: the second comes to it after that. -/
theorem witness_BankCommandsAct_free : let w := fx 0 0 0 0x02
    let one := fun (m : Team) => ({ m with width := 1, ntid := 2, threads := m.threads ++ m.threads, warps := m.warps ++ m.warps } : Team)
    let s := here (.free w) fun s =>
      let s := { s with groups := s.groups.map fun (g : Group) => { g with threads := [0, 1] } }.modTeam 0 fun m =>
        mapWarps (fun x => { x with regs := { x.regs with gang := 3 } }) (one m)
      owning s
    let k := issue s
    let q := s.settled k (.free w) w.c
    let ex := s.runs k w.c
    let late := q.sameGang k.team ex
    (standing s k (.free w) w.c && late == [1] &&
      ready (q.mtxTests k ex fun s v hs => if late.contains (hs.headD 0) then (s, .ready .clear) else s.freeTest k w v hs).2) = true := by
  decide +kernel
theorem witness_AczZeroesItsRange : found (.acz (fx 0 0 0 4)) (fun s k ex => ex != [] &&
    (ex.all fun j => (s.team k.team).warpOf j < (s.team k.team).nWarps) &&
    (s.mtxTests k ex fun s v hs => s.mtxReady k v 0 16 hs).2.all fun e => match e.2 with | .ready .clear => true | _ => false)
      owning = true := by decide +kernel
/-- An ACZ behind other commands, of a gang whose banks are all where they were. -/
theorem witness_AczZeroesItsRange_later : let s := owning (here (.acz (fx 0 0 0 4)))
    (s.bring 0 0 (s.gangOf 0 0) (range 0 16)).isSome = true := by decide +kernel
theorem witness_MmaArrivesAtItsLatch : found (.mma (fx 0 0xC8 0 0x142)) (fun s k ex =>
    let w := fx 0 0xC8 0 0x142
    ((s.warpsOf k.team ex).all fun v => s.gangValid k.team v && (s.mmaCheck k w v (s.ofWarp k.team v ex)).isNone) &&
      (s.release k.team ((s.warpsOf k.team ex).flatMap fun v => (s.team k.team).members v)).isSome)
      (fun s => (owning s).modWarp 0 0 fun x => { x with regs := { x.regs with s := x.regs.s.set 11 64 } }) = true := by decide +kernel
theorem witness_ResidueChannels : ([127, -128] : List Int).length ≤ 128 ∧ (∀ x ∈ ([127, -128] : List Int), -128 ≤ x ∧ x ≤ 127) ∧
    (∀ x ∈ ([7, -8] : List Int), -8 ≤ x ∧ x ≤ 7) ∧ ∀ x ∈ ([255, -255] : List Int), -255 ≤ x ∧ x ≤ 255 := by decide
theorem witness_EngineWordsStartCommands : (found (.cpy (fx 8 2 10 0)) (fun s k ex => ex.all fun i =>
      s.opnd k.team i 10 1 == 8 && s.rangeFaults k.team (s.privileged k.team i) [(0x10800, 8, 1), (0x20000, 8, 1)] == none &&
        s.opnd k.team i 2 2 == 0x10800 && s.opnd k.team i 8 2 == 0x20000 && !meets 0x10800 8 0x20000 8 && !s.syncBad k.team none) &&
    ([Instr.cpyg (fx 8 2 4 0), .cpys (fx 8 2 4 0)].all fun i => found i fun s k ex => ex.all fun i =>
      let q := s.opnd k.team i 4 4
      q / 2 ^ 64 % 2 ^ 32 == 3 && q / 2 ^ 96 == 0 && !s.syncBad k.team none &&
      s.rangeFaults k.team (s.privileged k.team i) [(0x20000, 3, 1), (q % 2 ^ 64, 12, 1)] == none &&
      s.rangeFaults k.team (s.privileged k.team i) [(0x10800, 3, 1), (q % 2 ^ 64, 12, 1)] == none) &&
    found (.cpyt (fx 0xC3 0xC3 0 0)) (fun s k ex => (s.warpsOf k.team ex).all fun v =>
      match s.cpytPlan (fx 0xC3 0xC3 0 0) k.team (s.ofWarp k.team v ex) with | .ok (some _) => true | _ => false) &&
    found (.walk (fx 0 2 0 0)) (fun s k ex => ex.all fun i =>
      checks14 (s.privileged k.team i) (s.opnd k.team i 2 2) 32 32 == none)) = true := by decide +kernel
theorem witness_CollectivesStartOperations : ([(Instr.crdc (fx 0 0xC8 0 0), 6), (.calr (fx 0 0xC8 0 0x80), 7), (.crsc (fx 0 0xC8 0 0), 8),
    (.calg (fx 0 0xC8 0 0), 9), (.cbcs (fx 0 0xC8 0 0), 10), (.cbar (fx 0 0 0 0), 11)].all fun e => found e.1 (fun s k ex =>
      ((s.warpsOf k.team ex).all fun v => s.collCheck e.2 (fx 0 0xC8 0 0) k.team v ((s.ofWarp k.team v ex).headD 0) == none &&
        !s.rival k.team (s.warpsOf k.team ex) v) &&
      (s.release k.team ex).isSome) member) = true := by decide +kernel

/-! System words and traps -/

/-- Thread 0 is in the handler of an instance of level 1 of a kernel's team. -/
def handling (s : State) : State :=
  let x : TrapInst := { level := 1, threads := [0], cause := 0x1E, defer := false, hdr := false, pos := 0, epc := 0x10000, edec := 0, eword := 0, emask := 1, ekill := 1, eskip := 0, frbase := 0, emu := false, control := false, skipTo := none, exec := 1, stop := none, gang := none }
  let b : Banked := { pc := 0x10000, mid := none, skip := 0, meet := 1, mtag := 0, alone := false, p := 0, laneSet := 0, looks := [] }
  let one := fun (y : Thread) => ({ y with level := 1, ew := [[0, 0, 0, 0]], banks := [b] } : Thread)
  (s.modWarp 0 0 fun y => { y with insts := [x] }).modTeam 0 fun m => { m with agent := false, threads := m.threads.map one }
/-- The earlier results of the executing threads are written (R317). -/
def still (s : State) (k : Iss) (ex : List Nat) : Bool := ex.all fun j => (((s.settleAll k.team ex).thread k.team j).open_).isEmpty
theorem witness_Eret : ([Instr.eretDone (fs 0 0 0 0 0), .eretRetry (fs 0 0 0 0 1)].all fun i => found i (fun s k ex =>
    let q := s.settleAll k.team ex
    let x := q.inst k.team ((q.team k.team).warpOf (ex.headD 0)) (q.thread k.team (ex.headD 0)).level
    let retry := i != .eretDone (fs 0 0 0 0 0)
    ex == [0] && still s k ex && x.isSome && (q.release k.team (ex.filter fun j => match x with
      | some x => q.returnEnds k.team j x retry | none => false)).isSome) handling) = true := by decide +kernel
theorem witness_Csr : ([Instr.rdcsr (fs 6 0 0 0x011 1), .rdcsr (fs 6 0 0 0x10F 0), .wrcsr (fs 0 0xC8 0 0x002 1)].all fun i =>
    found i still) = true := by decide +kernel
theorem witness_CsrWriteThenRead : let s := here (.trap (fa 0 0 0 0 0))
    0 < s.teams.length ∧ (s.team 0).ctx < s.ctxs.length ∧ 2 ^ 64 - 1 < 2 ^ 64 ∧ (s.team 0).warpOf 0 < (s.team 0).warps.length ∧
    ((handling s).inst 0 ((handling s).team 0 |>.warpOf 0) ((handling s).thread 0 0).level).isSome = true ∧ (0x016 ≤ 0x016 ∧ 0x019 ≤ 0x019) ∧
    (s.ctx (s.team 0).ctx).bkpt.length = 4 ∧ (2 ≤ 64 % 128 ∧ 64 % 128 ≤ 64) ∧ ¬ (2 ≤ 65 % 128 ∧ 65 % 128 ≤ 64) := by decide +kernel
theorem witness_Tlbinv : ([Instr.tlbinvPage (fs 0 0xC8 0 0 0), .tlbinvPasid (fs 0 0 0 0 1), .tlbinvGpage (fs 0 0xC8 0 0 2),
    .tlbinvIpa (fs 0 0xC8 0 0 3), .tlbinvAll (fs 0 0 0 0 4)].all fun i => found i fun s k ex => still s k ex && ex != [] &&
      (s.settleAll k.team ex).peers.isEmpty && ((s.settleAll k.team ex).heldStores ((s.ctxOf k.team).part)).isEmpty &&
      ((s.settleAll k.team ex).release k.team ex).isSome) = true := by decide +kernel
/-- A TLBINV that waited for an answer which has come. -/
theorem witness_Tlbinv_waited : found (.tlbinvAll (fs 0 0 0 0 4)) (fun s k ex => still s k ex && (ex.all fun i =>
    (s.thread k.team i).flush == some ([9], [])) && s.peers.isEmpty && ((s.settleAll k.team ex).release k.team ex).isSome)
    (fun s => s.modThread 0 0 fun x => { x with flush := some ([9], []) }) = true := by decide +kernel
/-- A due node launch of the graph, whose die is a free value (log entry 8). -/
theorem witness_ClaimNode (h : Config.graphDie 0 % 4 = 0) : let g : Graph := { launch := 0, qbase := 0, nodes := [default], sig := 0, slots := [], order := 0, due := [(0, 1, [2])], taken := [], done := false }
    let s : State := { State.reset with graphs := [g] }
    (s.takeDue 0).2 = some (0, 0, 1, [2]) ∧ ({ State.reset with graphs := [{ g with due := [] }] }.takeDue 0).2 = none := by
  simp [State.takeDue, State.dieDue, State.graph, nextDue, h, List.range, List.range.loop]
/-- Context 1 is valid, context 2 failed, and context 3 out of core 0. -/
def contexts (s : State) : State :=
  ((s.modCtx 1 fun x => { x with valid := true }).modCtx 2 fun x => { x with valid := true, failed := some 0x30 }).modCtx 3 fun x =>
    { x with valid := true, out := [0] }
/-- What CTXSW finds before it acts (R323). -/
def early (s : State) (k : Iss) (c : Nat) (out : Bool) : Option Nat :=
  if (s.ctx c).valid = false ∨ (s.ctx c).part ≠ s.devPart k.core then some 1 else if (s.ctx c).failed.isSome then some 3
  else if (s.ctx c).out.contains k.core = out then some 2 else none
theorem witness_ContextSwitchesOutAndIn : ([(63, true, some 1), (2, true, some 3), (3, true, some 2), (1, true, none)].all fun e =>
      found (.ctxswOut (fs 0xC6 0 0 (BitVec.ofNat 12 e.1) 0)) (fun s k ex => still s k ex && ex != [] &&
        early (s.settleAll k.team ex) k e.1 e.2.1 == e.2.2 && (s.teamsOn e.1 k.core).all fun t => !s.notStill t) contexts) &&
    ([(63, false, some 1), (2, false, some 3), (1, false, some 2), (3, false, none)].all fun e =>
      found (.ctxswIn (fs 0xC6 0 0 (BitVec.ofNat 12 e.1) 1)) (fun s k ex => still s k ex && ex != [] &&
        early (s.settleAll k.team ex) k e.1 e.2.1 == e.2.2) contexts) = true := by decide +kernel
theorem witness_ClaimAcknowledgeAndHalt : (found (.claim (fs 0xC6 0xC8 0xC2 0 0)) (fun s k ex => still s k ex &&
      passes (probeEach (fun (s : State) (i : Nat) => s.access k.team i (s.opnd k.team i 0xC8 2 : Int) 128 128 { write := true }) s ex).2 && ex != []) &&
    found (.claimNode (fs 0xC6 0 0 0 1)) (fun s k ex => still s k ex && ex != []) && found (.mcack (fs 0 0 0 3 0)) (fun s k ex => still s k ex && ex != []) &&
    found (.halt (fs 0 0 0 0xFF 0)) (fun s k ex => still s k ex && ex == [0] && (s.team k.team).agent) &&
    found (.halt (fs 0 0 0 0xFF 0)) (fun s k ex => still s k ex && ex == [0] && !(s.team k.team).agent) handling) = true := by
  decide +kernel
/-- The SOFT trap of a TRAP word, with context 0's vectors. -/
def trapped (trapvec emuvec : DWord) : State := (here (.trap (fa 0 0 0 0xFF 0))).modCtx 0 fun x => { x with trapvec, emuvec }
def soft : Report := { threads := [0], raised := [0], reps := [(0, { code := 0x1E, value := 0xFF })], epc := 0x10000 }
theorem witness_ZeroVectorFailsTheContext : let s := trapped 0 0
    s.ofWarp 0 0 soft.raised = 0 :: [] ∧ (s.warp 0 0).spec = none ∧ (s.thread 0 0).level < 2 ∧
    s.inst 0 0 ((s.thread 0 0).level + 1) = none ∧ (s.ctx 0).valid = true ∧ (s.ctx 0).failed = none ∧ (s.ctx 0).emuvec = 0 ∧
    (s.ctx 0).trapvec = 0 ∧ soft.emu = none ∧ (soft.reps.filter fun e => (s.team 0).warpOf e.1 == 0).length = 1 := by decide +kernel
/-- Both stages map the first GiB of context 0 to itself (R266 to R268). -/
def paged (s : State) : State :=
  let put := fun (m : Memory) (e : Nat × Nat) => m.writeN e.1 (leBytes 8 e.2)
  let tables := [(0x1000, 0x20F01), (0x2000, 0x30F01), (0x3000, 0x67), (0x4000, 0x50F01), (0x5000, 0x60F01), (0x6000, 0x67)]
  (({ s with mem := tables.foldl put s.mem } : State).modCtx 0 fun x => { x with s1root := 0x4000 }).modPart 0 fun x => { x with s2root := 0x1000 }
/-- The same with the visible area in the page at 0x10000. -/
def vectored : State := paged ((trapped 0x10400 0).modTeam 0 fun m => { m with visible := 0x10800 })
theorem witness_TrapEntryVectorsTheHomeWarp : let s := vectored
    s.ofWarp 0 0 soft.raised = 0 :: [] ∧ (s.warp 0 0).spec = none ∧ (s.thread 0 0).level + 1 ≤ 2 ∧
    s.inst 0 0 ((s.thread 0 0).level + 1) = none ∧ (s.ctx 0).trapvec ≠ 0 ∧
    (∀ i ∈ s.ofWarp 0 0 soft.threads, ((s.settleAll 0 [0]).thread 0 i).open_ = []) ∧
    (let p := (s.settleAll 0 [0]).probeAreas 0 (soft.reps.map fun e => ((s.team 0).visible + 32 * (s.team 0).hlane e.1) % 2 ^ 64)
    lowFault p.2 = none ∧ absentPages p.2 = [] ∧ p.2.length = 1) := by decide +kernel
theorem witness_ReturnRestoresWhatEntrySaved : let x := Thread.start 0x10000 8 0 none
    let y := x.entered (x.level + 1) 0x10400 true [1, 2, 3, 4]
    x.ew.length = x.level ∧ y.level = y.level ∧ y.ew.dropLast = x.ew := by decide +kernel
theorem witness_Trap : found (.trap (fa 0 0 0 0xFF 0)) (fun _ _ ex => ex != []) = true := by decide +kernel

/-! Events -/

/-- The group of `here` at its header, with nothing issued. -/
def atHeader : State := ((here (.nop 0 fn)).modThread 0 0 fun x => { x with mid := none }).modCore 0 fun x =>
  { x with issue := [none, none, none, none] }
/-- Thread 0 waits, in no group. -/
def waiting (w : Wait) : State :=
  ({ atHeader with groups := [] } : State).modThread 0 0 fun x => { x with wait := w }
theorem witness_ClausesStartAndWaitsEnd_start : let s := atHeader
    s.mayIssue 0 0 = some { team := 0, num := 0, threads := [0], parked := false, issued := 0, parkedAt := 0 } ∧ (s.thread 0 0).mid = none ∧
    s.spinning 0 0 = none ∧ (s.thread 0 0).meet ≠ (s.thread 0 0).pc ∧ breaks (s.ctxOf 0).bkpt (s.thread 0 0).pc = false ∧
    (s.thread 0 0).pc.toNat % 8 = 0 ∧ (match s.fetchClause (s.team 0).core (s.team 0).ctx (s.privileged 0 0) (s.thread 0 0).pc with
      | (q, .clause c) => ((q.settleTokens 0 (q.warpsOf 0 [0]) c.hdr.wait.toNat).timersDue 0 [0]).isEmpty && c.hdr.wait == 0 && c.hdr.cls == 0
      | _ => false) = true := by decide +kernel
theorem witness_ClausesStartAndWaitsEnd_spin : let d : Spin := { team := 0, num := 0, head := 0x10000, clauses := [], writes := [], sectors := [], armed := [.mem 0x10800], reads := [], bad := false, last := none, count := 8 }
    let s := atHeader.modCore 0 fun x => { x with spins := x.spins.set 0 [d] }
    (s.spinning 0 0).isSome = true ∧ (s.thread 0 0).mid = none ∧ (s.group 0 0).any s.ready = true := by decide +kernel
theorem witness_ClausesStartAndWaitsEnd_ends :
    (((waiting (.sleep 0)).thread 0 0).wait = .sleep 0 ∧ 0 ≤ (waiting (.sleep 0)).clk) ∧
    let s := atHeader.modWarp 0 0 fun x => { x with wtime := 2, wtcmp := 1 }
    ((s.groups.find? fun g => g.team == 0 && !(s.timersDue 0 g.threads).isEmpty &&
      (g.threads.any fun i => (s.team 0).warpOf i == 0) && (s.thread 0 (g.threads.headD 0)).mid.isNone).any fun g => g.num == 0 &&
        (s.mayIssue 0 0 == some g) && (s.spinning 0 0).isNone && (s.thread 0 0).meet != (s.thread 0 0).pc &&
        !breaks (s.ctxOf 0).bkpt (s.thread 0 0).pc &&
        (match s.fetchClause (s.team 0).core (s.team 0).ctx (s.privileged 0 0) (s.thread 0 0).pc with
          | (q, .clause c) => c.hdr.wait == 0 && c.hdr.cls == 0 && !((q.settleTokens 0 (q.warpsOf 0 [0]) 0).timersDue 0 [0]).isEmpty
          | _ => false)) = true := by
  decide +kernel

/-- A result, a store, a product, a copy and a walk in flight. -/
def someCmd (op : CmdOp) (todo : List Nat) : Cmd := { id := 5, team := 0, warp := 0, lead := 0, joins := [(0, 1)], pc := 0x10000, priv := false, guard := none, sync := none, op, todo, units := [], deny := [], fault := none }
def someProduct : SeqCmd := { id := 6, gang := { team := 0, val := 0, solo := 0 }, bank := 4, count := 4, op := .product { gang := { team := 0, val := 0, solo := 0 }, bank := 4, fmt := 1, record := [0x20000, 0, 128, 2, 0x20000, 0, 128, 0], vm := 1, vn := 1, row := 0, guard := none } }
theorem witness_Results_writeback : let p : Pend := { key := 3, done := false, dst := 6, regs := 1, value := some 7, pred := some (2, true), token := some 1, clause := 0x10000, last := 1 }
    let s := atHeader.modThread 0 0 fun x => { x with pend := [p] }
    ((s.thread 0 0).pend.find? fun p => p.key == 3 && !p.done && p.value.isSome) = some p ∧ p.value = some 7 := by decide +kernel
theorem witness_Results_store : let st : Store := { id := 4, core := 0, team := 0, tidx := 0, pa := 0x10800, bytes := [1, 2, 3, 4], red := none }
    let s : State := { atHeader with stores := [st] }
    (s.stores.filter fun y => y.id == st.id) = [st] ∧ (∀ y ∈ s.stores, y.id < st.id → s.l1Of y.core y.pa = s.l1Of st.core st.pa →
      y.pa / 8 ≠ st.pa / 8) ∧ s.mem.wf = true ∧ (s.warp 0 0).resident = true ∧ 5 ∈ (s.team 0).regKeys ∧ 5 ∉ (s.warp 0 0).clean := by decide +kernel
theorem witness_Results_row : let s := (owning atHeader).modCore 0 fun x => { x with seq := x.seq.set 0 [someProduct], tlb := x.tlb.map fun (e : Tlb) => { e with geom := if e.fmt = 1 then 2 else 0 } }
    someProduct ∈ s.seqOf 0 0 ∧ (∀ c ∈ List.range s.cores.length, ∀ p ∈ List.range 4, ∀ y ∈ s.seqOf c p, c = 0 ∧ p = 0 ∧ y = someProduct) ∧ s.isOut 0 = false ∧ (s.core 0).halted = false ∧
    s.seqBefore 0 0 someProduct.gang (some 6) 4 4 = [] ∧ (match someProduct.op with
      | .product x => (match (s.runRow 0 0 someProduct x).2 with | .row => true | _ => false)
      | _ => false) = true := by decide +kernel
theorem witness_Results_copy : let c := someCmd (.cpy 0x10900 0x10800 4) (blocks 0x10900 4)
    let s : State := { atHeader with cmds := [c] }
    (s.cmds.find? fun d => d.id == c.id) = some c ∧ s.heldBy c = [] ∧ c.todo ≠ [] ∧
    (∀ piece ∈ c.todo, (match s.moveBytes c (fun _ => false) ((inBlock 0x10900 4 piece).map fun (a : Nat) =>
      ((a : Int), some ((0x10800 + (a - 0x10900) : Nat) : Int))) with | .moved _ _ => true | _ => false) = true) := by decide +kernel
theorem witness_Results_walk : let d := [0x10800, 0x10A00, 0, 2 ^ 36]
    let c := someCmd (.walk 0x10C00 d 0 0x10900) []
    let q : State := { atHeader with cmds := [c], mem := atHeader.mem.writeN 0x10900 (leBytes 8 0x10A00) }
    let s := q.modCtx 0 fun x => { x with windows := [(0x10000, 0x1FFFF, 0x10000, true)] }
    (s.cmds.find? fun d => d.id == c.id) = some c ∧ s.heldBy c = [] ∧ d ≠ [] ∧ walkMode d = 0 ∧ 0 + 1 < walkHops d ∧ s.walksAhead c < 3072 ∧
    (match (s.settleThread c.team c.lead).chainHop 0 d 0 0x10900 with | .ok (.on _ v) => v == 0x10A00 | _ => false) = true := by decide +kernel

/-- A second team beside the first, on core 0 and partition 0, changed by `f`. -/
def two (f : Team → Team) (g : Team → Team := id) : State :=
  { atHeader with teams := [g (atHeader.team 0), f (atHeader.team 0)] }
def someLaunch (graph : Option Nat) : Launch := { ctx := 0, iface := 0, index := 0, graph, desc := List.replicate 16 0, param := 0, nx := 1, ny := 1, nz := 1, size := 1, nspan := 1, ticket := 0x10800, pool := 0x20000, poolLen := 65536, fuse := false, claimed := [], retired := 0, done := false }
def someGraph : Graph := { launch := 0, qbase := 0, nodes := [default], sig := 0, slots := [({ graph := 0, node := 0, level := 0, slot := 2 }, .committed 0 0)], order := 1, due := [(0, 0, [2])], taken := [], done := false }
theorem witness_Tumbler_scanAndSwap : (let s : State := { atHeader with groups := atHeader.groups.map fun (g : Group) => { g with parked := true } }
    (pick (fun a b => decide (a.parkedAt < b.parkedAt)) ((s.groupsOf 0 0).filter Group.parked)).any (fun g =>
      decide ((s.notReady g.team g.threads).tableSize 0 0 < 64)) = true) ∧
    (let s := two (mapWarps fun x => { x with resident := false })
    s.padCalled 0 0 = none ∧ ((s.incoming 0 0).findSome? fun w => (s.leavers (s.residents 0 0) (s.outgoing 0 0) w).map fun l =>
      (w, l)).any (fun e => e.2.all s.mayLeave) = true) := by
  decide +kernel
theorem witness_Tumbler_rotate : let out := fun (m : Team) => { mapWarps (fun x => { x with resident := false }) m with padIn := false }
    let s := two out (fun m => { mapThreads (fun x => { x with wait := .watch }) m with scratch := 512 })
    let m := s.team 0
    m.padIn = true ∧ m.started = true ∧ m.retired = false ∧ m.agent = false ∧ s.candidate 0 0 = true ∧ s.mayLeave (0, 0) = true ∧
    m.nWarps = 1 ∧ (s.team 1).core = m.core ∧ s.needsPad 1 = true ∧ s.padFits 1 = false := by decide +kernel
theorem witness_Tumbler_spill : let g : Gang := { team := 0, val := 0, solo := 0 }
    let q := two (mapThreads fun x => { x with wait := .alloc 4 4 }) (mapThreads fun x => { x with wait := .watch })
    let s := q.modBank 0 0 4 fun x => { x with owner := some g }
    (s.bank 0 0 4).owner = some g ∧ (s.thread 1 0).wait = .alloc 4 4 ∧ (s.team 1).core = 0 ∧ (s.team 1).part = 0 ∧
    s.gangOf 1 ((s.team 1).warpOf 0) ≠ g ∧ (∀ w ∈ g.members, ∀ j ∈ (s.team g.team).members w,
      (s.thread 0 j).wait.blocking = true) ∧ s.seqOf 0 0 = [] := by decide +kernel
/-- A descriptor of one team of one thread at 0x10900: 3 groups of vector registers, 1 KiB of scratchpad. -/
def someDesc : List DWord := [0x10000, 0, 0x100000001A] ++ List.replicate 13 0
/-- What `passes` of the statement asks of a spot of launch l. -/
def startable (s : State) (l : Nat) (a : Spot) : Bool :=
  match s.probeUnits (fun (s : State) (va : Nat) => s.probeParam a va) a.param 8 8 with
  | (q, .ok ls) => match q.saveSpot (s.launch l).ctx (dArea a.desc), q.visibleSpot l (q.visibleUnit l) with
    | some _, some vis =>
      let e := q.probeList (s.launch l).ctx (vis + 64 * dWarps a.desc * dHw a.desc) a.recs.length
      (lowFault e.2).isNone && (absentPages e.2).isEmpty && ls.all fun y => !e.1.poisoned y 8
    | _, _ => false
  | _ => false
/-- A place on core 1 of a launch that is not done, of a context that may run there. -/
def placed (s : State) (l : Nat) : Bool :=
  decide (l < s.launches.length) && !(s.launch l).done && (s.ctx (s.launch l).ctx).valid && (s.ctx (s.launch l).ctx).failed.isNone &&
    s.usable (s.ctx (s.launch l).ctx).part 1 && !(s.ctx (s.launch l).ctx).out.contains 1
theorem witness_Teams_start_grid :
    let x : Launch := { someLaunch none with desc := someDesc, param := 0x10800, claimed := [(0, 0)] }
    let q := (paged ({ atHeader with launches := [someLaunch none, x] } : State)).modCtx 0 fun y => { y with savebase := 0x100000, savesize := 2 ^ 24 }
    let s := q.modCore 1 fun x => { x with agentUp := true }
    let a : Spot := { launch := 1, desc := x.desc, param := x.param, coords := x.coords 0, span := 0, rank := 0, size := x.spanTeams 0, core := 1, part := 0, node := none }
    placed s 1 = true ∧ x.graph = none ∧ 0 < x.size ∧ 0 / x.spanLen = 0 ∧ 0 % x.spanLen = 0 ∧ s.spanTeam 1 0 0 = none ∧
    s.clusterFor (s.ctx x.ctx).part 0 (x.slice 0) = some (1 / 8) ∧ startable s 1 a = true := by decide +kernel
theorem witness_Teams_start_node :
    let x := someLaunch (some 0)
    let n : GNode := { desc := someDesc, recsz := 16, maxdepth := 1, timer := 1, cap := 4, group := 1, succ := [], base := 0x10800 }
    let g : Graph := { someGraph with nodes := [n], due := [], taken := [(0, 0, [2])] }
    let q := (paged ({ atHeader with launches := [x], graphs := [g] } : State)).modCtx 0 fun y => { y with savebase := 0x100000, savesize := 2 ^ 24 }
    let s := q.modCore 1 fun x => { x with agentUp := true }
    let a : Spot := { launch := 0, desc := n.desc, param := (n.desc.getD 1 0).toNat, coords := (0, 0, 0), span := 0, rank := 0, size := 1, core := 1, part := 0, node := some (0, 0, 0, [2]) }
    placed s 0 = true ∧ x.graph = some 0 ∧ (s.graph 0).taken[0]? = some (0, 0, [2]) ∧ startable s 0 a = true := by decide +kernel
theorem witness_Teams_retire : let s := paged ({ waiting .exited with launches := [someLaunch none] } : State)
    let m := s.team 0
    m.started = true ∧ m.retired = false ∧ m.agent = false ∧ (∀ x ∈ m.threads, x.wait = .exited) ∧ s.inFlight 0 = false ∧
    s.unreported 0 = none ∧ m.node = none ∧ (match (s.ticketLoc m.launch).2 with | .ok _ => true | _ => false) = true := by decide +kernel
theorem witness_Teams_steal : let q := ({ atHeader with launches := [someLaunch (some 0)], graphs := [someGraph], clk := 5000 } : State).modCore 48 fun x => { x with agentUp := true }
    let s := q.modCtx 0 fun y => { y with savebase := 0x100000, savesize := 2 ^ 24 }
    (s.launch 0).done = false ∧ (s.ctx 0).valid = true ∧ (s.ctx 0).failed = none ∧ s.idleDie (s.ctx 0).part 1 = true ∧
    s.slotOn (s.ctx 0).part 1 = true ∧ (s.launch 0).graph = some 0 ∧ (s.dueNode 0).isSome = true ∧
    (s.graph 0).committed 0 0 ≠ [] ∧ (s.graph 0).done = false ∧ 0 + 1000 * ((s.graph 0).node 0).timer ≤ s.clk := by decide +kernel
/-- The ticket of die 0 stands at the one span, which nothing has claimed: die 3 steals it. -/
theorem witness_Teams_steal_grid : let q := ({ atHeader with launches := [someLaunch none], clk := 5000 } : State).modCore 144 fun x => { x with agentUp := true }
    let s := (paged q).modCtx 0 fun y => { y with savebase := 0x100000, savesize := 2 ^ 24 }
    let x := s.launch 0
    x.done = false ∧ (s.ctx 0).valid = true ∧ (s.ctx 0).failed = none ∧ s.idleDie (s.ctx 0).part 3 = true ∧ s.slotOn (s.ctx 0).part 3 = true ∧
    x.graph = none ∧ (match s.ticketLoc 0 with
      | (r, .ok line) => match ((r.launch 0).claimStep 0 (leValue (r.homeBytes (line.add 0) 8).2)).2 with
        | some k => r.roomFor 0 ((r.launch 0).spanTeams k) (dArea (r.launch 0).desc)
        | none => false
      | _ => false) = true := by decide +kernel

/-- Interface 0 enabled, with one packet at HEAD that has been read ahead. -/
def queued (ws : List DWord) : State :=
  let s := paged atHeader
  ({ s with mgmt := { s.mgmt with ready := true } } : State).modIface 0 fun x => { x with en := true, halt := false, head := 0, tail := 1, szlog := 4, ahead := [(0, ws)], blocked := false, begun := [] }
def packets : List (List DWord) := [[0, 0, 0, 0, 0, 0, 0, 0],
  [1, 0, 0x10900, 0, 0x100000001, 0x100000001, 0x10A00, 0x20000], [2, 0, 0, 0, 0, 0, 0, 0], [3, 0, 0x10800, 5, 2, 0, 0, 0],
  [4, 0, 0x10800, 5, 0, 0, 0, 0], [5, 0, 0, 0, 0, 0, 0, 0]]
theorem witness_PacketsHaveTheirEffect_heads : (packets.zipIdx.all fun e =>
    let s := queued e.1
    ((s.iface 0).ahead.any fun y => y.1 == (s.iface 0).head) && (match s.head 0 with | .packet ws => ws == e.1 | _ => false) && pType e.1 == e.2 && (s.iface 0).begun.isEmpty &&
    s.packetCtx 0 e.1 == some 0 && (s.ctx 0).failed == none && !packetBad e.1 && !s.outranked 0) = true := by decide +kernel
theorem witness_PacketsHaveTheirEffect_doorbell : let x := (queued []).iface 0
    (queued []).mgmt.ready = true ∧ x.en = true ∧ x.halt = false ∧ ((2 : Word).toNat + 2 ^ 32 - x.head) % 2 ^ 32 ≤ 2 ^ x.szlog ∧
    2 ^ x.szlog < ((17 : Word).toNat + 2 ^ 32 - x.head) % 2 ^ 32 ∧ 0 < x.used := by decide +kernel
theorem witness_PacketsHaveTheirEffect_wait : let p : Packet := { index := 0, words := packets.getD 3 [], ctx := 0, launch := none, status := none }
    let s := (queued []).modIface 0 fun x => { x with begun := [p], starts := [some 0], timer := 0, since := [(1, 0)] }
    let t : State := { s with clk := 100000 }
    ((s.iface 0).begun.find? fun p => pType p.words == 3 && p.status.isNone) = some p ∧
    (match (s.probeCtx 0 0x10800 8 {}).2 with | .ok _ _ => true | _ => false) = true ∧
    (t.iface 0).starts.getD 0 none = some 0 ∧ 0 + 1000 * max 1 (t.iface 0).timer ≤ t.clk ∧
    (t.iface 0).since = [(1, 0)] ∧ 0 + 100000 ≤ t.clk ∧ 0 < (t.iface 0).used := by decide +kernel
theorem witness_PacketsHaveTheirEffect_launch : let ws := packets.getD 1 []
    let p : Packet := { index := 0, words := ws, ctx := 0, launch := none, status := none }
    let q := (queued ws).modCtx 0 fun x => { x with savesize := 2 ^ 30 }
    let s : State := { q with mem := q.mem.writeN 0x10900 (someDesc.flatMap fun w => leBytes 8 w.toNat) }
    (match s.readFor 0 0x10900 128 16 with
      | (r, .ok d) => d == someDesc && !descBad d 0 && (match r.readFor 0 0x10A00 128 16 with
        | (r1, .ok line) => (line.drop 5).all (· == 0) && (match r1.probeRange 0 0x10A00 8 true 16 with
          | (r2, .ok _) => !(r2.featBad d || ((launchOf 0 p d).fuse && !r2.enabled 11)) &&
            r2.sized 0 ((launchOf 0 p d).spanTeams 0) (dArea d) (areaSize (dVisible d false)) (launchOf 0 p d).poolLen
          | _ => false)
        | _ => false)
      | _ => false) = true := by decide +kernel
/-- A graph of one node at 0x10C00: one record of 16 bytes, a team of one thread. -/
theorem witness_PacketsHaveTheirEffect_graph : let ws : List DWord := [2, 0, 0x10C00, 0, 0, 0x0000001000000000, 0, 0x20000]
    let p : Packet := { index := 0, words := ws, ctx := 0, launch := none, status := none }
    let node : List DWord := [0x10900, 1 + 1 * 2 ^ 32 + 1 * 2 ^ 42 + 16 * 2 ^ 48, 0, 0, 0, 0, 0, 0]
    let put := fun (m : Memory) (e : Nat × List DWord) => m.writeN e.1 (e.2.flatMap fun w => leBytes 8 w.toNat)
    let q := (queued ws).modCtx 0 fun x => { x with savesize := 2 ^ 30 }
    let s : State := { q with mem := [(0x10900, someDesc), (0x10C00, [1, 0x11000, 16, 0x11100, 0, 0, 0, 0]), (0x10C40, node)].foldl put q.mem }
    (match s.readFor 0 0x10C00 64 8 with
      | (r, .ok h) => dq h 0 == 1 && dq h 1 % 64 == 0 && dq h 3 % 8 == 0 && (h.drop 4).all (· == 0) && (match r.readNodes 0 0x10C00 1 1 with
        | (r1, .ok ns) => ns.length == 1 && (ns.all fun y => !y.bad) && !cyclic (ns.map NodeRec.node) &&
          decide (((ns.map NodeRec.node).map GNode.bytes).sum ≤ dq h 2) && (ns.all fun y => !r1.featBad y.node.desc) &&
          r1.sized 0 1 (((ns.map NodeRec.node).map fun y => dArea y.desc).foldl max 0)
            (areaSize (((ns.map NodeRec.node).map fun y => dVisible y.desc true).foldl max 0)) (bits (p.words.getD 5 0).toNat 63 32 * 65536)
        | _ => false)
      | _ => false) = true := by decide +kernel

/-- READY, with a context record for each of contexts 1 and 2 at 0x8000; context 1 is valid. -/
def managed : State :=
  let s := paged atHeader
  let words := [1 + 7 * 2 ^ 32, 0x4000, 0, 0, 2 ^ 16, 0, 0, 2 ^ 31]
  let put := fun (m : Memory) (a : Nat) => m.writeN a (words.flatMap fun (w : Nat) => leBytes 8 w)
  ({ s with mem := put (put s.mem 0x8080) 0x8100, mgmt := { s.mgmt with ready := true, ctxtab := 0x8000, commtab := 0xA000 } } : State)
    |>.modCtx 1 fun x => { x with valid := true, pasid := 9 }
theorem witness_ContextsPagesAndThePool_commands : let s := managed
    s.mgmt.ready = true ∧ s.mgmt.ctxBusy = false ∧ (s.ctx 2).valid = false ∧ (s.ctx 1).valid = true ∧
    (let x := s.recordAt (0x8000 + 128 * 2) 16
    ctxRecBad x = false ∧ s.hasCluster ((x.getD 0 0).toNat / 256 % 8) = true ∧ (x.getD 6 0).toNat % 512 = 0 ∧
    (∀ k, k < s.ctxs.length → k ≠ 2 → (s.ctx k).valid = true → (s.ctx k).pasid ≠ (x.getD 0 0).toNat / 2 ^ 32 % 2 ^ 20)) ∧
    (let r := s.failContext 1 0x34 Blame.none
    ∀ y ∈ r.ifaces, ∀ p ∈ y.begun, p.ctx ≠ 1) ∧
    (let s := s.modCtx 1 fun y => { y with pasid := 7 }
    ∃ k, k < s.ctxs.length ∧ k ≠ 2 ∧ (s.ctx k).valid = true ∧ (s.ctx k).pasid =
      ((s.recordAt (0x8000 + 128 * 2) 16).getD 0 0).toNat / 2 ^ 32 % 2 ^ 20) := by
  refine ⟨by decide +kernel, by decide +kernel, by decide +kernel, by decide +kernel, by decide +kernel, by decide +kernel, 1, by decide +kernel⟩
/-- An absent page is asked for, and a thread waits for it. -/
def asking (key : PageKey) (mig : Bool := false) : State :=
  let s := waiting (.page [key])
  { s with merges := [{ die := 0, key, ctx := 0, exec := false, write := true, sent := !mig, mig }], mgmt := { s.mgmt with ready := true } }
theorem witness_ContextsPagesAndThePool_pages : let key : PageKey := { part := 0, s2 := false, pasid := 0, page := 3 }
    let s := (asking key).modPart 0 fun p => { p with pdaddr := 0x30000 }
    s.replyKey 0 0 false = key ∧ s.asked key = true ∧ (s.thread 0 0).wait = .page [key] ∧ key ∈ [key] := by decide +kernel
theorem witness_ContextsPagesAndThePool_inv : let s : State := { asking default with mgmt := { (asking default).mgmt with inv := some 0 } }
    s.mgmt.inv = some 0 ∧ (0 : DWord).toNat / 2 ^ 28 % 8 = 0 ∧ (∃ c ∈ s.cores, ∃ e ∈ c.tlb, e.part = 0 ∧ e.page = (0x10000 : DWord).toNat / 65536) := by
  refine ⟨by decide +kernel, by decide, (asking default).core 0, by decide +kernel, tlbAt 0 0, by decide +kernel⟩
theorem witness_ContextsPagesAndThePool_migrate : let key : PageKey := { part := 0, s2 := true, pasid := 0, page := 0x20 }
    let put := fun (m : Memory) (e : Nat × Nat) => m.writeN e.1 (leBytes 8 e.2)
    let leaf := 0xC00000 * 2 ^ 20 + 1 * 2 ^ 8 + 0xE7
    let q := (asking key true).modPart 0 fun p => { p with s2root := 0x1000, poolbase := 0x40000000, poolsize := 4, popped := 0, poolOpen := true }
    let s : State := { q with mem := [(0x1000, 0x20F01), (0x2000, 0x30F01), (0x3000, 0x40F01), (0x4000 + 8, 0x50F01), (0x5000, leaf)].foldl put q.mem }
    (s.merges.find? fun m => m.key == { part := 0, s2 := true, pasid := 0, page := 0x20 } && m.mig).isSome = true ∧
    (match s.stage2 0 (0x20 * 65536) with | .leaf e _ pte _ _ => e / 2 ^ 7 % 2 == 1 && pte == .mem 0x5000 | _ => false) = true ∧
    (s.partOf 0).poolReady = true ∧ (s.partOf 0).fqRoom = true := by decide +kernel

/-- READY, with no context valid. -/
def idle : State := { State.reset with mgmt := { State.reset.mgmt with ready := true, stage := 5 } }
theorem witness_RegistersSlotsAndBringUp_idle : let s := idle
    State.reset.mgmt.ready = false ∧ s.mgmt.ready = true ∧ (∀ x ∈ s.ctxs, x.valid = false) ∧ s.mgmt.ctxBusy = false ∧
    (1 : DWord).getLsbD 0 = true ∧ s.partInUse 7 = false ∧ (s.iface 63).en = false ∧ paMemory (0x23FFFFFFFFF + 1 - 1) = true ∧
    s.mgmt.commBusy = false ∧ s.comm 15 = none ∧ s.regRead 0 0x68 = 0x501 ∧ State.reset.regRead 0 0 = 0 := by
  decide +kernel
/-- A boot of three empty images, with an error that a stage gives of itself. -/
def someBoot (manifest : List Byte) (err : Nat) : Boot :=
  { manifest, images := [(1, []), (2, []), (3, [])], chip := 2, down := [], err }
/-- A bring-up that has reached a stage with those images. What settings the empty image holds is a free value (log entry 6). -/
def staged_ (n : Nat) : State := { State.reset with mgmt := { State.reset.mgmt with stage := n, images := (someBoot [] 0).images } }
theorem witness_RegistersSlotsAndBringUp_stages (h : confFits (Config.settings []) = true) :
    (∀ n ∈ [1, 2, 3, 4], (staged_ n).mgmt.err = 0 ∧ n < 5 ∧ (staged_ n).bootErr (someBoot [] 0) (n + 1) = 0) ∧
    ((staged_ 1).mgmt.images.find? fun i => i.1 == 3) = some (3, []) ∧
    ∀ e ∈ [(0, 0), (1, 4), (2, 6), (3, 7)], (staged_ e.1).bootErr (someBoot [] e.2) (e.1 + 1) ≠ 0 := by
  have c : (staged_ 1).settings = Config.settings [] := rfl
  simp [State.bootErr, someBoot, c, h]
  decide +kernel
/-- A manifest of those images, all of whose digests are zeros. -/
def someManifest : List Byte := leBytes 4 0x4E594D46 ++ leBytes 4 1 ++ leBytes 4 3 ++ leBytes 4 0 ++
  ([1, 2, 3].flatMap fun id => leBytes 4 id ++ leBytes 4 0 ++ leBytes 8 0 ++ List.replicate 64 0) ++ List.replicate 64 0
/-- Stage 1 passes where the manifest is signed, its digests are right and its version is not too low, of which each is a free
value (log entry 6). -/
theorem witness_RegistersSlotsAndBringUp_rom (h : Config.signedBy (someManifest.take 256) (someManifest.drop 256) = true)
    (d : Config.sha512 [] = List.replicate 64 0) (v : (Config.settings []).minVersion = 0) :
    State.reset.bootErr (someBoot someManifest 0) 1 = 0 := by
  have e : fieldAt someManifest 8 4 = 3 := by decide +kernel
  have fits : ∀ k ∈ List.range 3, entryFits ((someManifest.drop (16 + 80 * k)).take 80) [] = true := by
    intro k hk
    simp only [entryFits, d]
    revert k
    decide +kernel
  have found : ∀ k ∈ List.range 3, ((someBoot someManifest 0).images.find? fun i =>
      i.1 == fieldAt ((someManifest.drop (16 + 80 * k)).take 80) 0 4) = some (k + 1, []) := by decide +kernel
  show romErr (someBoot someManifest 0) = 0
  unfold romErr
  simp only [show (someBoot someManifest 0).manifest = someManifest from rfl, e]
  rw [if_neg, if_neg, if_neg]
  · show ¬ fieldAt someManifest 12 4 < (Config.settings []).minVersion
    rw [v]; exact Nat.not_lt_zero _
  · rintro (x | x)
    · simp only [List.any_map, List.any_eq_true, Function.comp_apply] at x
      obtain ⟨k, hk, x⟩ := x
      rw [found k hk] at x
      simp [fits k hk] at x
    · revert x; decide +kernel
  · rintro (x | x | x | x | x)
    iterate 4 revert x; decide +kernel
    exact x h
theorem witness_RegistersSlotsAndBringUp_timeout : let s : State := { idle with clk := 1000000000, mgmt := { idle.mgmt with commBusy := true, commOp := 1, comm := 3, commSince := 0, tsync := false } }
    s.mgmt.commBusy = true ∧ s.mgmt.commOp = 1 ∧ s.mgmt.comm = 3 ∧ s.mgmt.tsync = false ∧ s.mgmt.commSince + 1000000000 ≤ s.clk := by
  decide +kernel
/-- READY, with the record of a communicator of one rank, on this chip, for slot 0. -/
def opening : State :=
  let put := fun (m : Memory) (e : Nat × Nat) => m.writeN e.1 (leBytes 8 e.2)
  { managed with mem := [(0xA000, 1 + 2 ^ 32), (0xA008, 5 * 2 ^ 32), (0xA010, 2 ^ 32), (0xA018, 0xB000)].foldl put managed.mem }
/-- Whether the context's partition owns the fabric's ports is a free value (log entry 11). -/
theorem witness_RegistersSlotsAndBringUp_open (h : Config.ownsPorts 0 = true) :
    opening.mgmt.commBusy = false ∧ ((opening.recordAt (opening.mgmt.commtab + 128 * 0) 5).getD 4 0).toNat % 1024 = 0 ∧ opening.comms = [] ∧
    ∃ c, opening.commRec 0 = some c ∧ c.map.length ≤ 1 ∧ opening.cutOff c = false := by
  refine ⟨by decide +kernel, by decide +kernel, by decide +kernel, ?_⟩
  have e : (opening.ctx 0).part = 0 := by decide +kernel
  have e2 : bits (dq (opening.recordAt (opening.mgmt.commtab + 128 * 0) 16) 0) 13 8 = 0 := by decide +kernel
  unfold State.commRec
  simp only [e2, e, h]
  refine ⟨_, if_neg (by decide +kernel), by decide +kernel, by decide +kernel⟩

/-- A communicator of two ranks whose other rank is on chip 3; chip 0 is the root unless `root` is 3. -/
def pair (root : Nat) (acked : Bool) : State :=
  let c : Comm := { comm0 with nrank := 2, rbase := if root = 0 then 0 else 1, map := [(0, root), (1, 3 - root)], acked }
  { idle with comms := [c], clk := 10000 }
theorem witness_FabricMessagesAct : paMemory (0x23FFFFFFFFF % 2 ^ 41 + 1 - 1) = true ∧ (∀ c ∈ (pair 0 true).comms, c.ftag ≠ 6) ∧
    (let c := (pair 0 true).comms.headD default
    (pair 0 true).commTag 5 = some c ∧ (pair 0 true).isRoot c = true ∧ c.failed = false ∧ 1 < 2 ∧ 2 ≤ c.nrank ∧ (c.seqInfo 0).outcome = none ∧
    (pair 0 true).comm 0 = some c ∧ 1 < c.nrank ∧ c.rbase + c.rcnt ≤ 1 ∧ (∀ o ∈ c.ops, o.k = 0 → o.bare = true)) ∧
    (let c := (pair 3 false).comms.headD default
    (pair 3 false).commTag 5 = some c ∧ (pair 3 false).isRoot c = false ∧ c.acked = false ∧ c.failed = false ∧ c.joinAt + 10000 ≤ (pair 3 false).clk ∧
    (c.seqInfo 0).outcome = none) ∧
    (∀ waits ∈ [false, true], let r : PeerReq := { tag := 9, pa := 0, team := 0, tidx := 0, key := 1, how := { len := 4, sx := false, ty := none, fmt := 0, upper := 0 }, scale := 0, waits, sync := false, cmd := 0, role := .bytes }
    let s : State := { idle with peers := [r] }
    (s.peers.find? fun r => r.tag == 9) = some r ∧ r.waits = waits ∧ r.cmd = 0 ∧ r.role = .bytes) ∧
    (let r : PeerReq := { tag := 9, pa := 0, team := 2 ^ 64, tidx := 0, key := 0, how := { len := 8, sx := false, ty := none, fmt := 0, upper := 0 }, scale := 0, waits := true, sync := false, cmd := 0, role := .data (farKey 1 5 0) false }
    let s : State := { idle with peers := [r] }
    (s.peers.find? fun r => r.tag == 9) = some r ∧ (farKey 1 5 0).pasid ≠ 2) := by decide +kernel
/-- A CALR of both ranks whose source has been read, and whose messages a NOTOPEN may name. -/
theorem witness_FabricMessagesAct_collectives : let sig : OpSig := { op := 7, ety := 0, rop := 0, count := 1, root := 0 }
    let o : CollOp := { rank := 0, k := 0, sig, src := 0, dst := 0, cmd := 0, bytes := some (List.replicate 4 (0, false)), aged := false, told := [], ended := false }
    let c : Comm := { comm0 with nrank := 2, map := [(0, 0), (1, 3)], ops := [o], sent := [.join 5] }
    let s : State := { idle with comms := [c] }
    s.comm 0 = some c ∧ c.failed = false ∧ c.sent[0]? = some (.join 5) ∧ c.localReady 0 = true ∧ (∀ o ∈ c.ops, o.bare = false) ∧
    (let r := (c.ops.filter fun o => o.k == 0).foldl (fun (r : State) (o : CollOp) => r.readLeaf 0 o) s
    (r.comm 0).any fun d => d.ops.all fun o => o.bytes.isSome) = true ∧
    ({ sig with op := 8 } : OpSig) ≠ o.sig ∧ (∃ b ∈ ({ c with past := [(0, sig)] } : Comm).past, b.1 = 0 ∧ b.2 ≠ { sig with op := 8 }) := by decide +kernel
theorem witness_ManagementTemperatureAndErrors : 2 ≤ idle.mgmt.stage ∧ 115 ≤ 115 ∧ (191 < 192 ∧ idle.mgmt.hotAt + 5 ≤ 114 ∧ 114 < 115) ∧
    Transport.mctpSmbus 0x4E = .mctpSmbus idle.mgmt.smbus ∧ 94 < idle.mgmt.hotAt ∧ idle.mgmt.watts < 3601 ∧ 3419 * 100 < idle.mgmt.watts * 95 ∧ (idle.core 191).halted = false ∧ paMemory 0x23FFFFFFFFF = true ∧ 191 < idle.cores.length ∧ (1 ≤ 3 ∧ 3 ≤ 3) := by decide +kernel

/-! Steps, frames and what every step keeps -/

theorem witness_StepRunsDecodedInstruction : let s := here (.add (fa 6 0 1 0 i32))
    s.agenda = [] ∧ s.iss = some (issue s) ∧ (s.thread 0 0).deny = [] ∧ s.deny = [] ∧ s.hit = false ∧
    (match decode (issue s).clause.hdr.cls.toNat ((issue s).clause.word (issue s).pos) with
      | .ok i => i == .add (fa 6 0 1 0 i32) | _ => false) = true := by decide +kernel
/-- A word that is no instruction stands at the issue (R8): one whose opcode is none, and one that names a field it may not (R56). -/
theorem witness_StepRunsDecodedInstruction_unknown : ([(0xFE000E0000000000, true), (0x58000E0C00020000, false)].all fun (e : DWord × Bool) =>
    let s := State.reset.withFetchWord 128 (clauseOf 0 e.1)
    let k := issue s
    let w := k.clause.word k.pos
    let r := s.denying k.team k.threads
    s.agenda == [] && s.iss == some k && (match decode k.clause.hdr.cls.toNat w with | .ok _ => false | _ => true) &&
    (lookup k.clause.hdr.cls.toNat w).toOption.isNone == e.2 && ((lookup k.clause.hdr.cls.toNat w).toOption.all fun i => !isMma i) &&
    k.threads != [] && !(s.thread k.team (k.threads.headD 0)).released && !breaks k.clause.brk k.pc &&
    !(r.guarded k (Common.ofWord w)).guardOpen k (Common.ofWord w)) = true := by
  decide +kernel
/-- A return has left a thread at such a word. -/
theorem witness_StepRunsDecodedInstruction_over :
    let s : State := (State.reset.withFetchWord 128 (clauseOf 0 0xFE000E0000000000)).modThread 0 0 fun x => { x with released := true }
    s.agenda = [] ∧ s.iss = some (issue s) ∧ (s.thread (issue s).team ((issue s).threads.headD 0)).released = true ∧
    (match lookup (issue s).clause.hdr.cls.toNat ((issue s).clause.word (issue s).pos) with | .ok _ => false | _ => true) = true := by
  decide +kernel
theorem witness_DecodeAndEncodeAgree : (Instr.mma (fx 0 0xC8 0 0x142)).wf = true ∧
    encode (.mma (fx 0 0xC8 0 0x142)) = some (1, 0x03000E0190000142) ∧
    (match decode 1 0x03000E0190000142 with | .ok i => i == .mma (fx 0 0xC8 0 0x142) | _ => false) = true := by decide +kernel
theorem witness_EveryStepKeepsMemoryCanonical : (here (.st (fm 6 2 0 2))).mem.wf = true ∧
    (∀ m ∈ (here (.st (fm 6 2 0 2))).teams, m.pad.wf = true) ∧
    (match step (here (.st (fm 6 2 0 2))) with | .next _ => true | _ => false) = true := by decide +kernel
/-- A clause of two words whose first is `i`, which is therefore not its last. -/
def before (i : Instr) : State :=
  let s := here i
  s.modThread 0 0 fun x => { x with mid := x.mid.map fun (m : Clause × Nat) => ({ m.1 with header := m.1.header ||| 0x0100000000000000, words := m.1.words ++ [0] }, m.2) }
theorem witness_ValueWordsChangeOnlyTheirResults : ([Instr.add (fa 6 0 1 0 i32), .cmp (fa 6 0 1 0x2E i32), .frcp (fa 6 0 0 0 f32)].all fun i =>
    let s := before i
    let k := issue s
    match valueWrites i with
    | some f => standing s k i f.c && f.c.nas == 0 && !k.clause.last k.pos && (match exec i s with | .next _ => true | _ => false)
    | none => false) = true := by decide +kernel
theorem witness_MemoryWordsChangeOnlyTheirBytes : ([Instr.ld (fm 4 2 0 4), .st (fm 6 2 0 2), .atom (fm 6 2 4 2), .stl (fm 6 2 0 3)].all fun i =>
    let s := before i
    let k := issue s
    standing s k i c0 && !k.clause.last k.pos && (match exec i s with | .next _ => true | _ => false)) = true := by decide +kernel

/-! ### Decoding: a word of every instruction, written from the tables of R37, R42 and R53 -/

/-- The word is that instruction, in its class, and the instruction is encoded by the word. -/
def decodes (e : Nat × DWord × Instr) : Bool :=
  (match decode e.1 e.2.1 with | .ok i => i == e.2.2 | .error _ => false) && encode e.2.2 == some (e.1, e.2.1)
/-- Guarded by not p5. -/
def cg : Common := { c0 with pneg := 1, pidx := 5 }
def fag (dst sa sb sc : BitVec 8) (ty : BitVec 4) (ctl : BitVec 5) : FA := { c := cg, dst, sa, sb, sc, ty, ctl }
def fmg (dst sa sb : BitVec 8) (off : BitVec 12) (wid : BitVec 3) (ctl : BitVec 2) : FM := { c := cg, dst, sa, sb, off, wid, ctl }
def fxg (dst sa sb : BitVec 8) (gd : BitVec 1) (gs : BitVec 3) (mod : BitVec 13) : FX := { c := cg, dst, sa, sb, gd, gs, mod }
def fsg (dst sa sb : BitVec 8) (idx : BitVec 12) (low : BitVec 5) : FS := { c := cg, dst, sa, sb, idx, low }
theorem test_decode_1 : ([
    (0, 0x01001A0C09E30A01, .add (fag 6 4 0xF1 0x85 0 1)),
    (0, 0x02001A0C080A0101, .sub (fag 6 4 5 0 8 1)),
    (0, 0x03001A0C08100060, .mul (fag 6 4 8 0 3 0)),
    (0, 0x04001A0C08100040, .mulh (fag 6 4 8 0 2 0)),
    (0, 0x05001A0C080A1220, .mad (fag 6 4 5 9 1 0)),
    (0, 0x06001A0C0A0E1020, .madw (fag 6 5 7 8 1 0)),
    (0, 0x07001A0C080ADE20, .addc (fag 6 4 5 0x6F 1 0)),
    (0, 0x08001A0C0810E060, .subb (fag 6 4 8 0x70 3 0)),
    (0, 0x09001A0C08000141, .neg (fag 6 4 0 0 0xA 1)),
    (0, 0x0A001A0C08000040, .abs (fag 6 4 0 0 2 0)),
    (0, 0x0B001A0C080A0120, .min (fag 6 4 5 0 9 0)),
    (0, 0x0C001A0C080A0000, .max (fag 6 4 5 0 0 0)),
    (0, 0x0D001A0C09E2FF80, .and (fag 6 4 0xF1 0x7F 0xC 0)),
    (0, 0x0E001A0C081001A0, .or (fag 6 4 8 0 0xD 0))].all decodes) = true := by decide +kernel
theorem test_decode_2 : ([
    (0, 0x0F001A0DE5E60180, .xor (fag 6 0xF2 0xF3 0 0xC 0)),
    (0, 0x10001B8D898A0180, .andn (fag 0xC6 0xC4 0xC5 0 0xC 0)),
    (0, 0x11001A0C080001E0, .not (fag 6 4 0 0 0xF 0)),
    (0, 0x12001A0C080A0060, .shl (fag 6 4 5 0 3 0)),
    (0, 0x13001A0C080A0020, .shr (fag 6 4 5 0 1 0)),
    (0, 0x14001A0C080A0040, .sar (fag 6 4 5 0 2 0)),
    (0, 0x15001A0C080A0180, .rotl (fag 6 4 5 0 0xC 0)),
    (0, 0x16001A0C080A11A0, .fshf (fag 6 4 5 8 0xD 0)),
    (0, 0x17001A0C08000060, .popc (fag 6 4 0 0 3 0)),
    (0, 0x18001A0C0A000020, .clz (fag 6 5 0 0 1 0)),
    (0, 0x19001A0E0A000180, .ctz (fag 7 5 0 0 0xC 0)),
    (0, 0x1A001A0C080001A0, .brev (fag 6 4 0 0 0xD 0)),
    (0, 0x1B001A0C080A0040, .bfx (fag 6 4 5 0 2 0)),
    (0, 0x1C001A0C08100BA0, .bfi (fag 6 4 8 5 0xD 0))].all decodes) = true := by decide +kernel
theorem test_decode_3 : ([
    (0, 0x1D001A0C080A0F80, .prmt (fag 6 4 5 7 0xC 0)),
    (0, 0x1E001A0C080A001E, .lea (fag 6 4 5 0 0 0x1E)),
    (0, 0x1F001A0C080A5C00, .cmp (fag 6 4 5 0x2E 0 0)),
    (0, 0x20001A0C080A0FE0, .sel (fag 6 4 5 7 0xF 0)),
    (0, 0x21001A0C080A0020, .div (fag 6 4 5 0 1 0)),
    (0, 0x22001A0C08100040, .rem (fag 6 4 8 0 2 0)),
    (0, 0x30001A0C080A0087, .fadd (fag 6 4 5 0 4 7)),
    (0, 0x31001A0C080A00A1, .fsub (fag 6 4 5 0 5 1)),
    (0, 0x32001A0C081000E2, .fmul (fag 6 4 8 0 7 2)),
    (0, 0x33001A0C080A12C3, .ffma (fag 6 4 5 9 6 3)),
    (0, 0x34001A0C080A0084, .fmin (fag 6 4 5 0 4 4)),
    (0, 0x35001A0C080A0080, .fmax (fag 6 4 5 0 4 0)),
    (0, 0x36001A0C080A7C84, .fcmp (fag 6 4 5 0x3E 4 4)),
    (0, 0x37001A0C080000A4, .fclass (fag 6 4 0 0 5 4))].all decodes) = true := by decide +kernel
theorem test_decode_4 : ([
    (0, 0x38001A0C080A0086, .fscale (fag 6 4 5 0 4 6)),
    (0, 0x39001A0C080000C5, .frnd (fag 6 4 0 0 6 5)),
    (0, 0x3A001A0C08000081, .frcp (fag 6 4 0 0 4 1)),
    (0, 0x3B001A0C080000A2, .frsq (fag 6 4 0 0 5 2)),
    (0, 0x3C001A0C080000E3, .fsqrt (fag 6 4 0 0 7 3)),
    (0, 0x3D001A0C080A0087, .fdiv (fag 6 4 5 0 4 7)),
    (0, 0x3E001A0C08000084, .fexp2 (fag 6 4 0 0 4 4)),
    (0, 0x3F001A0C080000A0, .flog2 (fag 6 4 0 0 5 0)),
    (0, 0x40001A0C0A0000C4, .fsin (fag 6 5 0 0 6 4)),
    (0, 0x41001A0C0A000080, .fcos (fag 6 5 0 0 4 0)),
    (0, 0x42001A0C0E0000A4, .ftanh (fag 6 7 0 0 5 4)),
    (0, 0x43001A0C080A0EC3, .fdot2 (fag 6 4 5 7 6 3)),
    (0, 0x50001A0C08000E03, .cvt (fag 6 4 0 7 0 3)),
    (0, 0x51001A0C080A0101, .pack (fag 6 4 5 0 8 1))].all decodes) = true := by decide +kernel
theorem test_decode_5 : ([
    (0, 0x52001A0C0A0000A4, .unpk (fag 6 5 0 0 5 4)),
    (0, 0x53001A0C080000C8, .qenc (fag 6 4 0 0 6 8)),
    (0, 0x54001A0C0A000088, .qdec (fag 6 5 0 0 4 8)),
    (0, 0x58001A0C080001A0, .mov (fag 6 4 0 0 0xD 0)),
    (0, 0x5B001A0C000037A0, .rds (fag 6 0 0 0x1B 0xD 0)),
    (0, 0x5C001A01880037A0, .wrs (fag 0 0xC4 0 0x1B 0xD 0)),
    (0, 0x5D001A0C09E30BBD, .shfl (fag 6 4 0xF1 0x85 0xD 0x1D)),
    (0, 0x5E001B8C0000E78F, .vote (fag 0xC6 0 0 0x73 0xC 0xF)),
    (0, 0x5F001A0C0A000B80, .redux (fag 6 5 0 5 0xC 0)),
    (0, 0x60001A0C080001BD, .matchLanes (fag 6 4 0 0 0xD 0x1D)),
    (0, 0x61001B8C098A01A0, .v2s (fag 0xC6 4 0xC5 0 0xD 0)),
    (0, 0x62001A0C0A099403, .plop (fag 6 5 4 0xCA 0 3)),
    (0, 0x63001A0C00000180, .pmovGet (fag 6 0 0 0 0xC 0)),
    (0, 0x63001A000A00FF81, .pmovSet (fag 0 5 0 0x7F 0xC 1))].all decodes) = true := by decide +kernel
theorem test_decode_6 : ([
    (0, 0x84001A0C00000000, .seal (fag 6 0 0 0 0 0)),
    (0, 0x85001A000A000000, .waitb (fag 0 5 0 0 0 0)),
    (0, 0xA0001A00080001A0, .jmpi (fag 0 4 0 0 0xD 0)),
    (0, 0xA1001A00100001A0, .calli (fag 0 8 0 0 0xD 0)),
    (0, 0xA2001A01FFE30000, .meetset (fag 0 0xFF 0xF1 0x80 0 0)),
    (0, 0xA2001A0008000001, .meetsetR (fag 0 4 0 0 0 1)),
    (0, 0xA2001A0000000002, .meetsetClr (fag 0 0 0 0 0 2)),
    (0, 0xA3001A0C00001E01, .barArrive (fag 6 0 0 0xF 0 1)),
    (0, 0xA3001A000A001202, .barWait (fag 0 5 0 9 0 2)),
    (0, 0xA3001A0000001803, .barSync (fag 0 0 0 0xC 0 3)),
    (0, 0xA4001A0C00001401, .sbarArrive (fag 6 0 0 0xA 0 1)),
    (0, 0xA4001A018A000C02, .sbarWait (fag 0 0xC5 0 6 0 2)),
    (0, 0xA4001A0000000603, .sbarSync (fag 0 0 0 3 0 3)),
    (0, 0xA8001A000A000020, .sleep (fag 0 5 0 0 1 0))].all decodes) = true := by decide +kernel
theorem test_decode_7 : ([
    (0, 0xA9000E000000CA07, .cbr (fa 0 0 0 0x65 0 7)),
    (0, 0xAA000E0000000000, .cbsync (fa 0 0 0 0 0 0)),
    (0, 0xAA000E0000000001, .cbsyncAbort (fa 0 0 0 0 0 1)),
    (0, 0xAB001A018A000E00, .gres (fag 0 0xC5 0 7 0 0)),
    (0, 0xAC001A0C0BE2FE20, .reca (fag 6 5 0xF1 0x7F 1 0)),
    (0, 0xAD001A0008000000, .recc (fag 0 4 0 0 0 0)),
    (0, 0xAE001A0000000000, .recf (fag 0 0 0 0 0 0)),
    (0, 0xAF001A0C080A0020, .launch (fag 6 4 5 0 1 0)),
    (0, 0xB0001A00081007A1, .signal (fag 0 4 8 3 0xD 1)),
    (0, 0xB1001A0000014A00, .trap (fag 0 0 0 0xA5 0 0)),
    (0, 0x59001A0DBD5B7DDE, .movi { c := cg, dst := 6, imm := 0xDEADBEEF, rsv := 0 }),
    (0, 0x5A001A1100000002, .movh { c := cg, dst := 8, imm := 0x80000001, rsv := 0 }),
    (0, 0x70001A0C0809FF14, .ld (fmg 6 4 4 0xFF8 5 0)),
    (0, 0x71001A100800FE10, .st (fmg 8 4 0 0x7F0 4 0))].all decodes) = true := by decide +kernel
theorem test_decode_8 : ([
    (0, 0x72001A0C08610005, .ldnr (fmg 6 4 0x30 0x800 1 1)),
    (0, 0x73001A0C0801FFE1, .lda (fmg 6 4 0 0xFFF 0 1)),
    (0, 0x74001A0C0800010C, .stl (fmg 6 4 0 8 3 0)),
    (0, 0x75001A0C0A01B008, .lds (fmg 6 5 0 0xD80 2 0)),
    (0, 0x76001A0C0A002460, .sts (fmg 6 5 0 0x123 0 0)),
    (0, 0x77001A0C0A00000C, .ldt (fmg 6 5 0 0 3 0)),
    (0, 0x78001A0E0A000008, .stt (fmg 7 5 0 0 2 0)),
    (0, 0x79001A0C080C0214, .qst (fmg 6 4 6 0x10 5 0)),
    (0, 0x7A001A0C08113F0F, .atom (fmg 6 4 8 0x9F8 3 3)),
    (0, 0x7B001A00080FBF88, .red (fmg 0 4 7 0xDFC 2 0)),
    (0, 0x7C001A0C0A0F0088, .atoms (fmg 6 5 7 0x804 2 0)),
    (0, 0x7D001A0000000001, .fenceAcq (fmg 0 0 0 0 0 1)),
    (0, 0x7D001A0000000002, .fenceRel (fmg 0 0 0 0 0 2)),
    (0, 0x7D001A0000000003, .fenceFull (fmg 0 0 0 0 0 3))].all decodes) = true := by decide +kernel
theorem test_decode_9 : ([
    (0, 0x7E001A0008015781, .pref (fmg 0 4 0 0xABC 0 1)),
    (0, 0x7F001A000800AAA0, .pgreq (fmg 0 4 0 0x555 0 0)),
    (0, 0x81001A0188011000, .shape (fmg 0 0xC4 0 0x880 0 0)),
    (0, 0x82001A0E0A000400, .swinit (fmg 7 5 0 0x20 0 0)),
    (0, 0x83001A0C0A01FC00, .swwait (fmg 6 5 0 0xFE0 0 0)),
    (0, 0xA5001A000800FFE0, .watch (fmg 0 4 0 0x7FF 0 0)),
    (0, 0xA5001A0000000001, .watchClr (fmg 0 0 0 0 0 1)),
    (1, 0x01001A00000000C2, .alloc (fxg 0 0 0 0 0 0xC2)),
    (1, 0x02001A0000000081, .free (fxg 0 0 0 0 0 0x81)),
    (1, 0x03001A019001A2C2, .mma (fxg 0 0xC8 0 1 5 0x2C2)),
    (1, 0x04001A0000000004, .acz (fxg 0 0 0 0 0 4)),
    (1, 0x05001A0C0A000183, .acrd (fxg 6 5 0 0 0 0x183)),
    (1, 0x06001A000A100070, .acwr (fxg 0 5 8 0 0 0x70)),
    (1, 0x07001A01880000F0, .acld (fxg 0 0xC4 0 0 0 0xF0))].all decodes) = true := by decide +kernel
theorem test_decode_10 : ([
    (1, 0x08001A01898E0082, .acst (fxg 0 0xC4 0xC7 0 0 0x82)),
    (2, 0x01001A0C080BD070, .cpy (fxg 6 4 5 1 6 0x1070)),
    (2, 0x02001A0C08100000, .cpyg (fxg 6 4 8 0 0 0)),
    (2, 0x03001A0C08197C50, .cpys (fxg 6 4 0xC 1 3 0x1C50)),
    (2, 0x04001B8B9001F838, .cpyt (fxg 0xC5 0xC8 0 1 7 0x1838)),
    (2, 0x05001A0008014000, .walk (fxg 0 4 0 1 2 0)),
    (2, 0x06001A01A0000D00, .crdc (fxg 0 0xD0 0 0 0 0xD00)),
    (2, 0x07001A0190000800, .calr (fxg 0 0xC8 0 0 0 0x800)),
    (2, 0x08001A0190000080, .crsc (fxg 0 0xC8 0 0 0 0x80)),
    (2, 0x09001A0180000C00, .calg (fxg 0 0xC0 0 0 0 0xC00)),
    (2, 0x0A001A0180000A00, .cbcs (fxg 0 0xC0 0 0 0 0xA00)),
    (2, 0x0B001A0000000000, .cbar (fxg 0 0 0 0 0 0)),
    (3, 0x01001A0000000000, .eretDone (fsg 0 0 0 0 0)),
    (3, 0x01001A0000000001, .eretRetry (fsg 0 0 0 0 1))].all decodes) = true := by decide +kernel
theorem test_decode_11 : ([
    (3, 0x02001A0C0A000400, .rdcsr (fsg 6 5 0 0x20 0)),
    (3, 0x03001A018C000C61, .wrcsr (fsg 0 0xC6 0 0x63 1)),
    (3, 0x04001A0188000000, .tlbinvPage (fsg 0 0xC4 0 0 0)),
    (3, 0x04001A0000000001, .tlbinvPasid (fsg 0 0 0 0 1)),
    (3, 0x04001A0188000002, .tlbinvGpage (fsg 0 0xC4 0 0 2)),
    (3, 0x04001A0188000003, .tlbinvIpa (fsg 0 0xC4 0 0 3)),
    (3, 0x04001A0000000004, .tlbinvAll (fsg 0 0 0 0 4)),
    (3, 0x05001B8C000007E0, .ctxswOut (fsg 0xC6 0 0 0x3F 0)),
    (3, 0x05001B8C00000021, .ctxswIn (fsg 0xC6 0 0 1 1)),
    (3, 0x06001B8D898A0000, .claim (fsg 0xC6 0xC4 0xC5 0 0)),
    (3, 0x06001B8C00000001, .claimNode (fsg 0xC6 0 0 0 1)),
    (3, 0x07001A0000000060, .mcack (fsg 0 0 0 3 0)),
    (3, 0x08001A00000014A0, .halt (fsg 0 0 0 0xA5 0)),
    (0, 0x80001A0000000000, .icfence { c := cg, rest := 0 })].all decodes) = true := by decide +kernel
theorem test_decode_12 : ([
    (0, 0xA6001A0000000000, .wait { c := cg, rest := 0 }),
    (0, 0xA7001A0000000000, .yield { c := cg, rest := 0 }),
    (0, 0x00A60E0000000000, .nop 0 { c := { c0 with nas := 5, look := 3 }, rest := 0 }),
    (1, 0x00A60E0000000000, .nop 1 { c := { c0 with nas := 5, look := 3 }, rest := 0 }),
    (2, 0x00A60E0000000000, .nop 2 { c := { c0 with nas := 5, look := 3 }, rest := 0 }),
    (3, 0x00A60E0000000000, .nop 3 { c := { c0 with nas := 5, look := 3 }, rest := 0 }),
    (0, 0xB2123456789ABCDE, .brk 0 0x123456789ABCDE),
    (1, 0xB2123456789ABCDE, .brk 1 0x123456789ABCDE),
    (2, 0xB2123456789ABCDE, .brk 2 0x123456789ABCDE),
    (3, 0xB2123456789ABCDE, .brk 3 0x123456789ABCDE)].all decodes) = true := by decide +kernel

/-- Words of the manual's own programs and examples (05, 07, 09, 11, 12, 13, 16 to 19). -/
theorem test_decode_words_of_the_manual : ([
    (0, 0x07000E0C04086020, .addc (fa 6 2 4 0x30 n32)), (0, 0x07000E0E060AF620, .addc (fa 7 3 5 0x7B n32)),
    (0, 0x7500020A0201B008, .lds { fm 5 1 0 2 0 0xD80 with c := { c0 with pidx := 1 } }),
    (0, 0x1E000E0D81E60024, .lea (fa 6 0xC0 0xF3 0 n32 4)), (0, 0x5C000E0186002180, .wrs (fa 0 0xC3 0 0x10 b32)),
    (0, 0x1F000FE001E00220, .cmp (fa 0xF0 0 0xF0 1 n32)), (0, 0x12000E03E7E20580, .shl (fa 1 0xF3 0xF1 2 b32)),
    (0, 0x7BE00E0188100008, .red { fm 0 0xC4 8 2 with c := { c0 with nas := 7 } }), (0, 0xA2000E0000001600, .meetset (fa 0 0 0 11 0)),
    (0, 0xA9400E0000004204, .cbr { fa 0 0 0 0x21 0 4 with c := { c0 with nas := 2 } }),
    (0, 0x36400FE0178E4680, .fcmp { fa 0xF0 11 0xC7 0x23 f32 with c := { c0 with nas := 2 } }),
    (0, 0x3D000E178E160080, .fdiv (fa 11 0xC7 11 0 f32)), (0, 0x8500020002000000, .waitb { fa 0 1 0 0 0 with c := { c0 with pidx := 1 } }),
    (0, 0xAB000E018A000400, .gres (fa 0 0xC5 0 2 0)), (0, 0xAC000E098DE20220, .reca (fa 4 0xC6 0xF1 1 n32)),
    (0, 0xAD000E0018000000, .recc (fa 0 12 0 0 0)),
    (1, 0x0800020181840002, .acst { fx 0 0xC0 0xC2 2 with c := { c0 with pidx := 1 } }),
    (2, 0x07000E0190000800, .calr (fx 0 0xC8 0 0x800)), (2, 0x06000E01A0000100, .crdc (fx 0 0xD0 0 0x100)),
    (3, 0x02000F8C00000281, .rdcsr (fs 0xC6 0 0 0x014 1)), (3, 0x03000E018C0002C1, .wrcsr (fs 0 0xC6 0 0x016 1))].all decodes) = true := by
  decide +kernel

/-! ### What is not well formed (R56), a term for each check -/

theorem test_illformed : ([
    (Instr.mov (fa 6 0 1 0 b32), NotInstr.field), (.add (fa 6 0xF4 1 0 i32), .operand), (.add (fa 0xC6 0 1 0 i32), .operand),
    (.add (fa 7 4 8 0 i64), .base), (.ld (fm 5 2 0 3), .base), (.ld (fm 6 2 0 4), .base), (.add (fa 6 0 1 0 f32), .value),
    (.shfl (fa 6 0 0xF0 0 b32 0x1C), .operand), (.fadd (fa 6 0 1 0 f32 8), .value), (.rds (fa 6 0 0 0x09 b32), .value),
    (.ld { fm 6 2 0 2 with c := { c0 with ts := 0, tok := 3 } }, .lookahead), (.add { fa 6 0 1 0 i32 with c := { c0 with look := 1 } }, .lookahead),
    (.nop 0 { fn with c := { c0 with nas := 5 } }, .skip), (.add { fa 6 0 1 0 i32 with c := { c0 with nas := 5 } }, .skip),
    (.add { fa 6 0 1 0 i32 with c := { c0 with nas := 6, pidx := 3 } }, .guardedUni), (.jmpi { fa 0 2 0 0 b64 with c := { c0 with nas := 2 } }, .indirect),
    (.alloc { fx 0 0 0 2 with gd := 1 }, .guardSlot), (.rdcsr { fs 6 0 0 0x011 1 with c := { c0 with nas := 1 } }, .selector)].all fun e =>
    e.1.staticCase == some e.2 && !e.1.wf && (match encode e.1 with
      | some (c, w) => (match decode c w with | .error _ => true | .ok _ => false)
      | none => false)) = true := by decide +kernel
/-- A header with a reserved bit, with a TARGET that its last word does not use, and with an undefined class (R34, R35). -/
theorem test_illformed_header : (Header.ofWord 0x0000000100000000).case12 = some .headerReserved ∧
    (Header.ofWord 0x4000000000000000).case12 = some .undefinedClass ∧ decodeTableWord 128 0x4000000000000000 = none := by decide +kernel

/-! ### One step of a word, with its result worked out from the rule -/

/-- The state after the word. -/
def after (i : Instr) (f : State → State := id) : State := match exec i (here i f) with | .next s => s | _ => default
/-- Register v6 after the word, over v0 and v1. -/
def v6 (i : Instr) (v0 v1 : Word) : Nat :=
  (((after i fun s => s.modThread 0 0 fun x => { x with v := v0 :: v1 :: x.v.drop 2 }).thread 0 0).v.getD 6 0).toNat
/-- The value issued by the word, to be written later. -/
def issued (i : Instr) (v0 v1 : Word) : Option Nat :=
  ((((after i fun s => s.modThread 0 0 fun x => { x with v := v0 :: v1 :: x.v.drop 2 }).thread 0 0).pend.head?).bind Pend.value)
theorem test_integer_results : v6 (.add (fa 6 0 1 0 i32)) 7 0xFFFFFFF9 = 0 ∧ v6 (.add (fa 6 0 1 0 i32 1)) 0x7FFFFFFF 1 = 0x7FFFFFFF ∧
    v6 (.sub (fa 6 0 1 0 n32 1)) 1 2 = 0 ∧ v6 (.mulh (fa 6 0 1 0 n32)) 7 0xFFFFFFF9 = 6 ∧ v6 (.mulh (fa 6 0 1 0 i32)) 7 0xFFFFFFF9 = 0xFFFFFFFF ∧
    v6 (.neg (fa 6 0 0 0 i8)) 0x80 0 = 0xFFFFFF80 ∧ v6 (.abs (fa 6 0 0 0 i16 1)) 0x8000 0 = 0x7FFF ∧ v6 (.min (fa 6 0 1 0 i32)) 1 0xFFFFFFFF = 0xFFFFFFFF ∧
    v6 (.max (fa 6 0 1 0 n32)) 1 0xFFFFFFFF = 0xFFFFFFFF := by decide +kernel
theorem test_bit_results : v6 (.shl (fa 6 0 0xF1 33 n32)) 7 0 = 14 ∧ v6 (.sar (fa 6 0 1 0 i32)) 0x80000000 31 = 0xFFFFFFFF ∧
    v6 (.rotl (fa 6 0 1 0 b32)) 0x80000001 4 = 0x18 ∧ v6 (.clz (fa 6 0 0 0 n32)) 0 0 = 32 ∧ v6 (.ctz (fa 6 0 0 0 n32)) 8 0 = 3 ∧
    v6 (.popc (fa 6 0 0 0 b32)) 0xF0F0 0 = 8 ∧ v6 (.brev (fa 6 0 0 0 b32)) 1 0 = 0x80000000 ∧ v6 (.bfx (fa 6 0 1 0 i32)) 0x000000F0 0x0404 = 0xFFFFFFFF ∧
    v6 (.bfx (fa 6 0 1 0 n32)) 0x000000F0 0x0404 = 0xF ∧ v6 (.prmt (fa 6 0 1 4 b32)) 0x44332211 0x88776655 = 0x11112211 ∧
    v6 (.andn (fa 6 0 1 0 b32)) 0xFF 0x0F = 0xF0 := by decide +kernel
theorem test_float_results : v6 (.fadd (fa 6 0 1 0 f32)) 0x3F800000 0x33800000 = 0x3F800000 ∧ v6 (.fadd (fa 6 0 1 0 f32 3)) 0x3F800000 0x33800000 = 0x3F800001 ∧
    v6 (.fsub (fa 6 0 1 0 f32)) 0x7F800000 0x7F800000 = 0x7FC00000 ∧ v6 (.fmul (fa 6 0 1 0 f32)) 0x40000000 0x40400000 = 0x40C00000 ∧
    v6 (.fmin (fa 6 0 1 0 f32)) 0 0x80000000 = 0x80000000 ∧ v6 (.fmax (fa 6 0 1 0 f32)) 0x7FC00000 0x3F800000 = 0x3F800000 ∧
    v6 (.fclass (fa 6 0 0 0 f32)) 0xFF800000 0 = 1 ∧ v6 (.fcmp (fa 6 0 1 0x02 f32)) 0x80000000 0 = 0xFFFFFFFF ∧
    v6 (.cvt (fa 6 0 0 0 f32)) 7 0 = 0x40E00000 ∧ v6 (.cvt (fa 6 0 0 4 i32 1)) 0xC0200000 0 = 0xFFFFFFFE := by decide +kernel
theorem test_long_results : issued (.frcp (fa 6 0 0 0 f32)) 0x40000000 0 = some 0x3F000000 ∧ issued (.fsqrt (fa 6 0 0 0 f32)) 0x40800000 0 = some 0x40000000 ∧
    issued (.redux (fa 6 0 0 0 i32)) 41 0 = some 41 := by decide +kernel
theorem test_predicate_results : ((after (.cmp (fa 6 0 1 0x12 i32))).thread 0 0).pred 2 = false ∧ ((after (.cmp (fa 6 1 0 0x12 i32))).thread 0 0).pred 2 = true ∧
    ((after (.addc (fa 6 1 1 0x50 n32))).thread 0 0).pred 5 = true ∧ ((after (.pmovSet (fa 0 0 0 0x03 b32 1))).thread 0 0).p = 3 := by decide +kernel
theorem test_moves : v6 (.movi { c := c0, dst := 6, imm := 0xDEADBEEF, rsv := 0 }) 0 0 = 0xDEADBEEF ∧
    (((after (.movh { c := c0, dst := 6, imm := 5, rsv := 0 })).thread 0 0).v.getD 7 0 = 5) ∧ v6 (.mov (fa 6 1 0 0 b32)) 1 2 = 2 ∧
    v6 (.add (fa 0xF0 0 1 0 i32)) 7 7 = 3 ∧ (((after (.wrs (fa 0 0xC2 0 0x19 b32))).warp 0 0).regs.crank = 4) := by decide +kernel
/-- The store is in flight, its bytes the low four of v6, and is read by its own core at once (R166). -/
theorem test_store : (after (.st (fm 6 2 0 2 0 4))).stores.map (fun x => (x.pa, x.bytes)) = [(0x10804, [3, 0, 0, 0])] ∧
    (after (.sts (fm 6 4 0 2))).padByte 0 16 = 3 := by decide +kernel
/-- A load of the word before it, with sign extension of a byte. -/
theorem test_load : ((((after (.ld (fm 6 2 0 0 1)) fun s => { s with mem := s.mem.writeN 0x10800 [0x80] }).thread 0 0).pend.head?).bind Pend.value) =
    some 0xFFFFFF80 ∧ ((((after (.ld (fm 6 2 0 3)) fun s => { s with mem := s.mem.writeN 0x10800 [1, 2, 3, 4, 5, 6, 7, 8] }).thread 0 0).pend.head?).bind Pend.value) =
    some 0x0807060504030201 := by decide +kernel
theorem test_atomic : let s := after (.atom (fm 6 2 4 2)) fun s => { s with mem := s.mem.writeN 0x10800 [0xF5, 0xFF, 0xFF, 0xFF] }
    s.mem.readN 0x10800 4 = [5, 0, 0, 0] ∧ (((s.thread 0 0).pend.head?).bind Pend.value) = some 0xFFFFFFF5 := by decide +kernel
theorem test_control : ((after (.jmpi (fa 0 2 0 0 b64))).thread 0 0).pc = 0x10800 ∧ ((after (.nop 0 fn)).thread 0 0).pc = 0x10010 ∧
    ((after (.nop 0 { fn with c := { c0 with nas := 7 } })).thread 0 0).wait = .exited ∧
    ((after (.meetset (fa 0 0xFF 0xFF 0xFF 0))).thread 0 0).meet = 0xFFF8 ∧ ((after (.barSync (fa 0 0 0 0 0 3))).team 0).bars.getD 0 default =
      { (BarRec.start false 1) with gen := 1 } := by decide +kernel
theorem test_matrix : ((after (.alloc (fx 0 0 0 0x02))).bank 0 0 3).owner = some { team := 0, val := 0, solo := 0 } ∧
    ((after (.alloc (fx 0 0 0 0x02))).bank 0 0 4).owner = none ∧ (after (.acwr (fx 0 4 6 0)) owning).accWord 0 0 0 16 = 3 := by decide +kernel
/-- The entry goes to TRAPVEC in an instance of level 1, whose cause is SOFT and whose EPC is the word's address. -/
theorem test_trap : let s := (match exec (.trap (fa 0 0 0 0xFF 0)) vectored with | .next s => s | _ => default)
    (s.thread 0 0).pc = 0x10400 ∧ (s.thread 0 0).level = 1 ∧ ((s.warp 0 0).insts.map fun x => (x.cause, x.epc, x.frbase)) = [(0x1E, 0x10008, 0x10800)] := by
  decide +kernel
/-- ERET.done goes on behind the word that trapped, and the thread leaves its level. -/
theorem test_return : let s := after (.eretRetry (fs 0 0 0 0 1)) handling
    (s.thread 0 0).pc = 0x10000 ∧ (s.thread 0 0).level = 0 ∧ (s.warp 0 0).insts = [] := by decide +kernel
theorem test_csr : ((after (.wrcsr (fs 0 0xC8 0 0x000 1))).ctx 0).trapvec = 0x10800 ∧ ((after (.mcack (fs 0 0 0 3 0))).core 0).mc.getD 3 [] = [0, 0, 0, 0] := by
  decide +kernel
end Sys2Proof.Tests
end

section
/-! Proofs about the whole machine: the features that are absent, the host's registers, slots, bring-up and reset. -/

namespace Sys2Proof.Machine

open Sys2Proof

/-! ### Words whose feature is absent (R55, R57) -/

/-- An issue has a thread (R205). -/
theorem threads_ne_nil_of_iss {s : State} {k : Iss} (h : s.iss = some k) : k.threads ≠ [] := by
  unfold State.iss at h
  dsimp only at h
  split at h
  · cases h
  · split at h
    · cases h
    · split at h
      · cases h
      · rename_i hg
        split at h
        · cases h
        · cases h
          simp [hg]

/-- A feature that Virlin does not implement is never enabled (R30). -/
theorem State.enabled_of_not_implemented (s : State) {f : Nat} (hf : Config.dfeat0.getLsbD f = false) :
    s.enabled f = false := by
  rw [State.enabled, hf, Bool.false_and, Bool.false_and]

/-- A word whose feature is not enabled is not an instruction (R56). -/
theorem State.notInstr_of_feature_absent {s : State} {i : Instr} {f : Nat} (hf : i.feature = some f)
    (he : s.enabled f = false) (k : Iss) (c : Common) : s.notInstr k i c = true := by
  simp [State.notInstr, State.ctxCase, firstCase, hf, he]

/-- The executing threads are among the active ones. -/
theorem State.exec1_filter_threads (s : State) (k : Iss) (c : Common) :
    (s.exec1 k c).filter k.threads.contains = s.exec1 k c := by
  simp only [List.filter_eq_self, List.contains_iff_mem]
  exact fun _ hj => List.mem_of_mem_filter hj

/-- Where no comparator matches, a word that is not an instruction and is no MMA enters the emulation handler for every active
thread (R57). -/
theorem before_notInstr {s : State} {k : Iss} {i : Instr} {c : Common} (ht : k.threads ≠ [])
    (hk : breaks k.clause.brk k.pc = false) (hg : (s.guarded k c).guardOpen k c = false) (hb : isBrk i = false)
    (hm : isMma i = false) (hn : (s.guarded k c).notInstr k i c = true) :
    s.before k i c = .out ((s.guarded k c).emulate k (k.clause.word k.pos) (some i) k.threads) := by
  obtain ⟨j, js, hj⟩ := List.exists_cons_of_ne_nil ht
  simp only [State.guarded] at hg hn ⊢
  have hall : (s.settleGuard k c).notInstrFor k i c ((s.settleGuard k c).exec1 k c) = j :: js := by
    simp [State.notInstrFor, hn, hm, hj]
  unfold State.before
  simp only [hb, hk, hg, hall, Bool.false_eq_true, if_false, hj]

/-- A word whose feature is absent enters the emulation handler for every active thread, with EMASK the threads that execute it
(R55, R57, R326). -/
theorem emulated_of_feature_absent {s : State} {k : Iss} {i : Instr} {c : Common} {f : Nat} (hf : i.feature = some f)
    (hd : Config.dfeat0.getLsbD f = false) (hb : isBrk i = false) (hm : isMma i = false) (hi : s.iss = some k)
    (hr : (s.thread k.team (k.threads.headD 0)).released = false) (hk : breaks k.clause.brk k.pc = false)
    (hg : (s.guarded k c).guardOpen k c = false) (hw : Common.ofWord (k.clause.word k.pos) = c) :
    emulated i c s = .next ((s.guarded k c).raiseAt k
      { threads := k.threads, raised := k.threads, epc := k.pc, pos := k.pos, exec := s.runs k c,
        reps := (s.runs k c).map fun j => (j, { code := 0x22, addr := k.pc.toNat }),
        emu := some { cls := k.clause.hdr.cls.toNat, word := k.clause.word k.pos,
                      edec := edecOf ((s.guarded k c).team k.team).vregs k.clause.hdr.cls.toNat (k.clause.word k.pos) (some i),
                      control := controlCase k c (some i), instr := some i } }) := by
  have hn := State.notInstr_of_feature_absent hf ((s.guarded k c).enabled_of_not_implemented hd) k c
  unfold emulated word
  simp only [hi, State.over_, hr, before_notInstr (threads_ne_nil_of_iss hi) hk hg hb hm hn, Bool.false_eq_true, if_false]
  simp only [State.emulate, hw, State.exec1_filter_threads, State.runs]

/-! ### Bytes written at the home (R156, R167, R171) -/

@[simp] theorem State.unpoison_mem (s : State) (l : Loc) (n : Nat) : (s.unpoison l n).mem = s.mem := by
  unfold State.unpoison; split <;> rfl
@[simp] theorem State.wakeSectors_mem (s : State) (l : List Loc) : (s.wakeSectors l).mem = s.mem := by
  rw [(s.wakesOnly_wakeSectors l).1]
@[simp] theorem State.disown_mem (s : State) (keep : Option Nat) (pa n : Nat) : (s.disown keep pa n).mem = s.mem := rfl
@[simp] theorem State.homePut_mem (s : State) (pa : Nat) (bytes : List Byte) :
    (s.homePut pa bytes).mem = s.mem.writeN pa bytes := by
  simp [State.homePut]

/-- A store or a RED that lands keeps memory in its canonical form (R167). -/
theorem State.land_mem_wf {s : State} (h : s.mem.wf = true) (st : Store) : (s.land st).mem.wf = true := by
  unfold State.land
  dsimp only
  split <;> simpa using Memory.wf_writeN h _ _
theorem State.ackStore_mem_wf {s : State} (h : s.mem.wf = true) (st : Store) : (s.ackStore st).mem.wf = true :=
  List.foldlRecOn (motive := fun s : State => s.mem.wf = true) _ _ h fun _ h x _ => State.land_mem_wf h x
theorem State.settleBytes_mem_wf {s : State} (h : s.mem.wf = true) (pa n : Nat) : (s.settleBytes pa n).mem.wf = true :=
  List.foldlRecOn (motive := fun s : State => s.mem.wf = true) _ _ h fun _ h x _ => State.ackStore_mem_wf h x

/-- Bytes written at the home read back (R156). -/
theorem State.read_homeWrite {s : State} (h : s.mem.wf = true) (pa : Nat) (bytes : List Byte) (j : Nat) (hj : j < bytes.length) :
    (s.homeWrite pa bytes).mem.read (pa + j) = bytes.getD j 0 := by
  rw [State.homeWrite, State.homePut_mem, State.disown_mem,
    Memory.read_writeN_inside (State.settleBytes_mem_wf h _ _) _ _ _ hj, List.getD_eq_getElem _ _ hj]

/-- A read of n bytes gives each of them. -/
theorem Memory.readN_eq_map (m : Memory) (a n : Nat) : m.readN a n = (List.range n).map fun j => m.read (a + j) := by
  apply List.ext_getElem (by simp)
  intro d h1 h2
  simp [Memory.getElem_readN]

/-! ### Addresses of registers -/

theorem State.bar0Write_part (s : State) {p off : Nat} (v : DWord) (hp : p < 8) (ho : off < 0x80) (h8 : off % 8 = 0) :
    s.bar0Write (0x1000 + 0x80 * p + off) v = s.partWrite p off v := by
  unfold State.bar0Write
  dsimp only
  rw [if_neg (by omega), if_neg (by omega), if_neg (by omega), if_neg (by omega), if_neg (by omega), if_pos (by omega),
    if_pos (by omega), show (0x1000 + 0x80 * p + off - 0x1000) / 0x80 = p by omega,
    show (0x1000 + 0x80 * p + off) % 0x80 = off by omega]
theorem State.bar0Write_iface (s : State) {q off : Nat} (v : DWord) (hq : q < 64) (ho : off < 0x40) (h8 : off % 8 = 0) :
    s.bar0Write (0x2000 + 0x40 * q + off) v = s.modIface q fun x => x.write off v := by
  unfold State.bar0Write
  dsimp only
  rw [if_neg (by omega), if_neg (by omega), if_neg (by omega), if_neg (by omega), if_pos (by omega), if_pos (by omega),
    show (0x2000 + 0x40 * q + off - 0x2000) / 0x40 = q by omega, show (0x2000 + 0x40 * q + off) % 0x40 = off by omega]
theorem State.bar0Read_part (s : State) {p off : Nat} (hp : p < 8) (ho : off < 0x80) (h8 : off % 8 = 0) :
    s.bar0Read (0x1000 + 0x80 * p + off) = (s.partOf p).read off := by
  unfold State.bar0Read
  rw [if_neg (by omega), if_neg (by omega), if_pos (by omega), show (0x1000 + 0x80 * p + off - 0x1000) / 0x80 = p by omega,
    show (0x1000 + 0x80 * p + off) % 0x80 = off by omega]

/-! ### What a write of a register does -/

theorem execRegisterWrite_before_ready {s : State} (h : s.mgmt.ready = false) (bar off : Nat) (v : DWord) :
    exec (.registerWrite bar off v) s = .next s := by
  change execRegisterWrite bar off v s = _
  simp [execRegisterWrite, h]
theorem execMreset_eq (s : State) : exec .mreset s = .next (if s.mgmt.ready then s.moduleReset else s) := rfl
theorem execRegisterWrite_bar0 {s : State} (h : s.mgmt.ready = true) (off : Nat) (v : DWord) :
    exec (.registerWrite 0 off v) s = .next (s.bar0Write off v) := by
  change execRegisterWrite 0 off v s = _
  simp [execRegisterWrite, h]
theorem execRegisterWrite_bar2 {s : State} (h : s.mgmt.ready = true) (off : Nat) (v : DWord) :
    exec (.registerWrite 2 off v) s = .next (s.notifyWrite (off / 4096) (off % 4096) v) := by
  change execRegisterWrite 2 off v s = _
  simp [execRegisterWrite, h]

theorem State.bar0Write_ctxtab (s : State) (v : DWord) : s.bar0Write 0x40 v =
    { s with mgmt := { s.mgmt with ctxtab := v.toNat / 8192 * 8192 } } := rfl
theorem State.bar0Write_commtab (s : State) (v : DWord) : s.bar0Write 0x60 v =
    { s with mgmt := { s.mgmt with commtab := v.toNat / 2048 * 2048 } } := rfl
theorem State.bar0Write_invreq {s : State} (h : s.mgmt.ready = true) (v : DWord) : s.bar0Write 0x50 v =
    { s with mgmt := { s.mgmt with inv := some v, invDone := false, invTags := [], invHeld := [] } } := by
  change s.invReq v = _
  rw [State.invReq, if_pos h]
theorem State.bar0Write_drvfeat {s : State} (h : ∀ x ∈ s.ctxs, x.valid = false) (v : DWord) : s.bar0Write 0x20 v =
    { s with mgmt := { s.mgmt with drvfeat := s.mgmt.drvfeat.set 0 (v &&& s.mgmt.dfeat) } } := by
  have hn : ¬ s.ctxs.any Ctx.valid = true := by simpa using h
  change (if s.ctxs.any Ctx.valid = true then _ else _) = _
  rw [if_neg hn]
theorem State.bar0Write_ctxcmd {s : State} (h : s.mgmt.ctxBusy = false) (v : DWord) : s.bar0Write 0x48 v =
    { s with mgmt := { s.mgmt with
      ctx := v.toNat % 64, ctxOp := v.toNat / 256 % 4, ctxBusy := v.toNat / 256 % 4 != 0 } } := by
  change s.ctxCmd v.toNat = _
  simp [State.ctxCmd, h, bits]
theorem State.bar0Write_mreset (s : State) {v : DWord} (h : v.getLsbD 0 = true) : s.bar0Write 0x70 v = s.moduleReset := by
  have hb : bits v.toNat 0 0 = 1 := by
    simpa [bits, BitVec.getLsbD, Nat.testBit_zero] using h
  change (if bits v.toNat 0 0 = 1 then s.moduleReset else s) = _
  rw [if_pos hb]
theorem State.partWrite_conf {s : State} {p : Nat} (h : s.partInUse p = false) (v : DWord) : s.partWrite p 0 v =
    s.modPart p fun x => { x with clusters := v.toNat / 2 ^ 16 % 2 ^ 24, l2ways := v.toNat % 2 ^ 16 } := by
  change (if s.partInUse p = true then s else _) = _
  rw [h]
  simp [bits]
theorem State.notifyWrite_prio (s : State) (q : Nat) (v : DWord) :
    s.notifyWrite q 8 v = s.modIface q fun x => { x with prio := v.toNat % 4 } := by
  change s.modIface q (fun x => { x with prio := bits v.toNat 1 0 }) = _
  simp [bits]

/-! ### Banks, host accesses and commands -/

theorem exec_mcBankClear {s : State} (h : s.mgmt.ready = true) (c b : Nat) :
    exec (.mcBankClear c b) s = .next (s.modCore c fun x =>
      let mc := x.mc.set b [0, 0, 0, 0]
      if x.halted = true ∧ (∀ l ∈ mc, (l.getD 0 0).getLsbD 63 = false)
      then { x with mc, halted := false, l1 := [], owned := [], icache := [], tlb := [], issue := Core.reset.issue,
                    banks := Core.reset.banks, spins := Core.reset.spins }
      else { x with mc }) := by
  change execMcBankClear c b s = _
  rw [execMcBankClear, if_pos h, State.mcClear]
  congr 2
  funext x
  have hany : (¬ (x.mc.set b [0, 0, 0, 0]).any (fun l => (l.getD 0 0).getLsbD 63) = true) ↔
      ∀ l ∈ x.mc.set b [0, 0, 0, 0], (l.getD 0 0).getLsbD 63 = false := by
    simp only [List.any_eq_true, not_exists, not_and, Bool.not_eq_true]
  simp only [hany]
  rfl

theorem State.cxlOk_of_ready {s : State} (h : s.mgmt.ready = true) {pa n : Nat} (hn : 0 < n)
    (hp : paMemory (pa + n - 1) = true) : s.cxlOk pa n = true := by
  simp [State.cxlOk, h, hn, hp]
theorem exec_cxlMemRead {s : State} (h : s.mgmt.ready = true) {pa n : Nat} (hn : 0 < n)
    (hp : paMemory (pa + n - 1) = true) : exec (.cxlMemRead pa n) s =
      .next (s.emit (.hostData (s.mem.readN pa n) (s.poisoned (.mem pa) n))) := by
  change execCxlMemRead pa n s = _
  rw [execCxlMemRead, if_pos (State.cxlOk_of_ready h hn hp)]
theorem exec_cxlMemWrite {s : State} (h : s.mgmt.ready = true) {pa : Nat} {bytes : List Byte} (hn : bytes ≠ [])
    (hp : paMemory (pa + bytes.length - 1) = true) : exec (.cxlMemWrite pa bytes) s = .next (s.homeWrite pa bytes) := by
  change execCxlMemWrite pa bytes s = _
  rw [execCxlMemWrite, if_pos (State.cxlOk_of_ready h (List.length_pos_of_ne_nil hn) hp)]

theorem State.commFree_of_idle {s : State} (h : s.mgmt.ready = true) (hb : s.mgmt.commBusy = false) (op : Nat) {slot : Nat}
    (hs : slot < 16) : s.commFree op slot = true := by
  simp [State.commFree, h, hb, hs]
/-- OPEN of a record that R337 does not refuse, at the root or on one chip, with its links up (R337 to R339). -/
theorem State.commOpen_succeeds {s : State} {slot : Nat} {c : Comm} (hf : s.commFree 1 slot = true)
    (hw : ((s.recordAt (s.mgmt.commtab + 128 * slot) 5).getD 4 0).toNat % 1024 = 0 ∨ s.mgmt.tsync = true)
    (hc : s.commRec slot = some c) (hn : ∀ k ∈ s.comms, ¬ (k.ctx = c.ctx ∧ k.id = c.id) ∧ k.slot ≠ slot)
    (ha : c.map.length ≤ 1 ∨ s.isRoot c = true) (hl : s.cutOff c = false) :
    s.commOpen slot = { s with
      comms := s.comms ++ [{ c with acked := true }],
      mgmt := { s.mgmt with comm := slot, commOp := 0, commRes := 0, commBusy := false } } := by
  have hwait : ¬ (bits (dq (s.recordAt (s.mgmt.commtab + 128 * slot) 5) 4) 9 0 ≠ 0 ∧ ¬ s.mgmt.tsync = true) := by
    rintro ⟨h0, h1⟩
    rcases hw with h | h
    · exact h0 (by simpa [bits, dq] using h)
    · exact h1 h
  have hid : ¬ s.comms.any (fun k => k.ctx == c.ctx && k.id == c.id) = true := by
    simp only [List.any_eq_true, Bool.and_eq_true, beq_iff_eq, not_exists, not_and]
    exact fun k hk hx hi => (hn k hk).1 ⟨hx, hi⟩
  have hslot : ¬ s.comms.any (fun k => k.slot == slot) = true := by
    simp only [List.any_eq_true, beq_iff_eq, not_exists, not_and]
    exact fun k hk => (hn k hk).2
  have halone : (decide (c.map.length ≤ 1) || s.isRoot c) = true := by simpa using ha
  unfold State.commOpen
  simp only [hf, hwait, hc, hid, hslot, halone, hl, not_true_eq_false, Bool.false_eq_true, if_false, if_true]
  rfl
/-- CLOSE of a slot without work outstanding (R338). -/
theorem State.commClose_idle {s : State} {slot : Nat} (hf : s.commFree 2 slot = true)
    (hw : ∀ c, s.comm slot = some c → s.commWork c = false) : s.commClose slot = { s with
      comms := s.comms.filter (fun c => c.slot != slot),
      mgmt := { s.mgmt with comm := slot, commOp := 0, commRes := 0, commBusy := false } } := by
  unfold State.commClose
  cases hc : s.comm slot with
  | none => simp only [hf, not_true_eq_false, if_false]; rfl
  | some c => simp only [hf, hw c hc, not_true_eq_false, if_false, Bool.false_eq_true]; rfl
theorem exec_openTimeout {s : State} {slot : Nat} (hb : s.mgmt.commBusy = true) (ho : s.mgmt.commOp = 1)
    (hs : s.mgmt.comm = slot) (ht : s.mgmt.tsync = false) (hc : s.mgmt.commSince + 1000000000 ≤ s.clk) :
    exec (.openTimeout slot) s = .next { s with
      mgmt := { s.mgmt with comm := slot, commOp := 0, commRes := 4, commBusy := false, commSince := 0 } } := by
  change execOpenTimeout slot s = _
  rw [execOpenTimeout, if_pos ⟨hb, ho, hs, by simp [ht], hc⟩]
  rfl
theorem State.timeSync_before_stage1 {s : State} (h : s.mgmt.stage = 0) : s.timeSync = s := by
  simp [State.timeSync, h]
theorem State.timeSync_idle {s : State} (h : s.mgmt.stage ≠ 0) (hb : s.mgmt.commBusy = false) :
    s.timeSync = { s with mgmt := { s.mgmt with tsync := true } } := by
  simp [State.timeSync, h, hb]

/-! ### Reset and bring-up -/

/-- A module reset keeps the poison of device memory (R314, R357). -/
theorem State.mem_poison_moduleReset (s : State) (pa : Nat) :
    .mem pa ∈ s.moduleReset.poison ↔ .mem pa ∈ s.poison := by
  simp [State.moduleReset, Loc.onCore]

theorem imageOf_of_find? {l : List (Nat × List Byte)} {id : Nat} {i : Nat × List Byte}
    (h : (l.find? fun i => i.1 == id) = some i) : imageOf l id = i.2 := by
  simp [imageOf, h]

/-- A manifest and images that the mask ROM accepts (R291): it is signed, each entry has its image with its length and digest, the
three images are there, and the security version is not below the minimum. -/
structure Accepted (b : Boot) : Prop where
  signed  : Config.signedBy (b.manifest.take (16 + 80 * fieldAt b.manifest 8 4))
    (b.manifest.drop (16 + 80 * fieldAt b.manifest 8 4)) = true
  fits    : ∀ k, k < fieldAt b.manifest 8 4 → let e := (b.manifest.drop (16 + 80 * k)).take 80
    ∃ i, (b.images.find? fun i => i.1 == fieldAt e 0 4) = some i ∧ entryFits e i.2 = true
  present : ∀ id ∈ imageIds, ∃ i ∈ b.images, i.1 = id
  version : (Config.settings (imageOf b.images confId)).minVersion ≤ fieldAt b.manifest 12 4

theorem accepted_of_romErr {b : Boot} (h : romErr b = 0) : Accepted b := by
  unfold romErr at h
  dsimp only at h
  split at h
  · cases h
  next hlayout =>
  split at h
  · cases h
  next himages =>
  split at h
  · cases h
  next hversion =>
  simp only [not_or, not_not] at hlayout himages
  obtain ⟨-, -, -, -, hsigned⟩ := hlayout
  obtain ⟨hentries, -, hids⟩ := himages
  refine ⟨hsigned, ?_, ?_, Nat.le_of_not_lt hversion⟩
  · intro k hk e
    have he : ¬ (match b.images.find? fun i => i.1 == fieldAt e 0 4 with
        | some i => !entryFits e i.2
        | none => true) = true := fun hbad =>
      hentries (List.any_eq_true.mpr ⟨e, List.mem_map.mpr ⟨k, List.mem_range.mpr hk, rfl⟩, hbad⟩)
    cases hf : b.images.find? fun i => i.1 == fieldAt e 0 4 with
    | none => simp [hf] at he
    | some i => exact ⟨i, rfl, by simpa [hf] using he⟩
  · simpa using hids

section
variable {s : State} {b : Boot} (he : s.mgmt.err = 0)
include he

/-- A stage that fails leaves its code in BOOTSTAT, and nothing else changes (R358, R359). -/
theorem State.bringUp_fails (hs : s.mgmt.stage < 5) (hb : s.bootErr b (s.mgmt.stage + 1) ≠ 0) :
    s.bringUp b = { s with mgmt := { s.mgmt with err := s.bootErr b (s.mgmt.stage + 1) } } := by
  unfold State.bringUp
  dsimp only
  rw [if_neg (by omega), if_pos hb]
theorem State.bringUp_stage1 (hs : s.mgmt.stage = 0) (hb : s.bootErr b 1 = 0) :
    s.bringUp b = { s with mgmt := { s.mgmt with stage := 1, images := b.images } } := by
  simp [State.bringUp, he, hs, hb]
theorem State.bringUp_stage2 (hs : s.mgmt.stage = 1) (hb : s.bootErr b 2 = 0) :
    s.bringUp b = { s with
      mgmt := { s.mgmt with stage := 2, dfeat := s.settings.dfeat &&& Config.dfeat0, hotAt := s.settings.threshold,
                            watts := s.settings.powerLimit, smbus := s.settings.smbus.getD 0x4E },
      parts := confBlocks s.settings } := by
  simp [State.bringUp, he, hs, hb]
theorem State.bringUp_stage3 (hs : s.mgmt.stage = 2) (hb : s.bootErr b 3 = 0) :
    s.bringUp b = { s with
      mgmt := { s.mgmt with stage := 3, chip := b.chip, down := b.down }, mem := [],
      poison := s.poison.filter fun l => match l with | .mem _ => false | _ => true } := by
  simp [State.bringUp, he, hs, hb] <;> rfl
theorem State.bringUp_stage4 (hs : s.mgmt.stage = 3) (hb : s.bootErr b 4 = 0) :
    s.bringUp b = { s with
      mgmt := { s.mgmt with stage := 4 }, cores := s.cores.map fun x => { x with agentUp := true } } := by
  simp [State.bringUp, he, hs, hb]
theorem State.bringUp_stage5 (hs : s.mgmt.stage = 4) (hb : s.bootErr b 5 = 0) :
    s.bringUp b = { s with mgmt := { s.mgmt with stage := 5, ready := true } } := by
  simp [State.bringUp, he, hs, hb]
end

/-- Where stage n + 1 succeeds, bring-up stands at it, with what that stage does done (R358 to R361). -/
theorem State.bringUp_succeeds {s : State} {b : Boot} {n : Nat} (he : s.mgmt.err = 0) (hs : s.mgmt.stage = n) (hn : n < 5)
    (hb : s.bootErr b (n + 1) = 0) : let r := s.bringUp b
    r.mgmt.stage = n + 1 ∧ r.mgmt.err = 0 ∧ (n = 0 → r.mgmt.images = b.images) ∧
    (∀ i, n = 1 → (s.mgmt.images.find? fun i => i.1 == 3) = some i → let c := Config.settings i.2
      r.mgmt.dfeat = c.dfeat &&& Config.dfeat0 ∧ r.mgmt.hotAt = c.threshold ∧ r.mgmt.watts = c.powerLimit ∧
      r.mgmt.smbus = c.smbus.getD 0x4E ∧ r.parts = confBlocks c) ∧
    (n = 2 → r.mem = [] ∧ r.mgmt.chip = b.chip ∧ r.mgmt.down = b.down) ∧ (n = 3 → ∀ x ∈ r.cores, x.agentUp = true) ∧
    (n = 4 → r.mgmt.ready = true) := by
  match n with
  | 0 => simp [State.bringUp_stage1 he hs hb, he]
  | 1 =>
    have hset : ∀ i, (s.mgmt.images.find? fun i => i.1 == 3) = some i → s.settings = Config.settings i.2 := fun i hi => by
      rw [State.settings, imageOf_of_find? hi]
    simp +contextual [State.bringUp_stage2 he hs hb, he, hset]
  | 2 => simp [State.bringUp_stage3 he hs hb, he]
  | 3 => simp [State.bringUp_stage4 he hs hb, he]
  | 4 => simp [State.bringUp_stage5 he hs hb, he]

/-! ### Registers: reads -/

theorem State.regRead_before_ready {s : State} (h : s.mgmt.ready = false) {off : Nat} (ho : off ≠ 0x68) :
    s.regRead 0 off = 0 := by
  simp [State.regRead, h, ho]
theorem State.regRead_bar0 {s : State} (h : s.mgmt.ready = true) (off : Nat) : s.regRead 0 off = s.bar0Read off := by
  simp [State.regRead, h]
theorem State.regRead_bootstat (s : State) : s.regRead 0 0x68 = s.bootstat := by
  simp [State.regRead, State.bar0Read, State.mgmtRead]
/-- The doorbell of a notify page is written only (R282). -/
theorem State.regRead_doorbell (s : State) (q : Nat) : s.regRead 2 (4096 * q) = 0 := by
  simp [State.regRead, Iface.notify]

/-! ### Reset (R6, R357 to R361): each indexed part is one of the equal parts of reset, or the default past their end -/

theorem getD_replicate_cases {α : Type} (n c : Nat) (a d : α) :
    (List.replicate n a).getD c d = a ∨ (List.replicate n a).getD c d = d := by
  rcases Nat.lt_or_ge c n with h | h
  · exact .inl (List.getD_replicate _ h)
  · exact .inr (List.getD_eq_default _ _ (by simpa using h))
theorem State.reset_core_cases (c : Nat) : State.reset.core c = Core.reset ∨ State.reset.core c = default :=
  getD_replicate_cases _ _ _ _
theorem State.reset_ctx_cases (c : Nat) : State.reset.ctx c = Ctx.reset ∨ State.reset.ctx c = default :=
  getD_replicate_cases _ _ _ _
theorem State.reset_iface_cases (q : Nat) : State.reset.iface q = Iface.reset ∨ State.reset.iface q = default :=
  getD_replicate_cases _ _ _ _
theorem Core.reset_banks_cases (p : Nat) :
    Core.reset.banks.getD p [] = List.replicate 16 AccBank.reset ∨ Core.reset.banks.getD p [] = [] :=
  getD_replicate_cases _ _ _ _

theorem State.reset_ctx (c : Nat) : (State.reset.ctx c).valid = false ∧ (State.reset.ctx c).trapvec = 0 ∧
    (State.reset.ctx c).emuvec = 0 := by
  rcases State.reset_ctx_cases c with h | h <;> rw [h] <;> exact ⟨rfl, rfl, rfl⟩
theorem State.reset_iface (q : Nat) : (State.reset.iface q).en = false := by
  rcases State.reset_iface_cases q with h | h <;> rw [h] <;> rfl
theorem State.reset_core (c : Nat) : (State.reset.core c).halted = false ∧ ∀ b ∈ (State.reset.core c).mc, b = [0, 0, 0, 0] := by
  rcases State.reset_core_cases c with h | h <;> rw [h]
  · exact ⟨rfl, fun _ hb => List.eq_of_mem_replicate hb⟩
  · exact ⟨rfl, fun _ hb => nomatch hb⟩
theorem State.reset_bank (c p b : Nat) : (State.reset.bank c p b).owner = none := by
  rw [State.bank]
  rcases State.reset_core_cases c with h | h <;> rw [h]
  · rcases Core.reset_banks_cases p with hp | hp <;> rw [hp]
    · rcases getD_replicate_cases 16 b AccBank.reset AccBank.reset with hb | hb <;> rw [hb] <;> rfl
    · rfl
  · rfl

/-! ### The obligations -/

/-- Settles O29: the feature bits of the three words, 0 and 1, are not among those that Virlin implements. -/
theorem divisionEntersTheEmulationHandler : Obligations.DivisionEntersTheEmulationHandler := by
  unfold Obligations.DivisionEntersTheEmulationHandler
  rintro w i (rfl | rfl | rfl) s k hi hr hk hg hw
  · exact emulated_of_feature_absent (f := 0) rfl (by decide) rfl rfl hi hr hk hg hw
  · exact emulated_of_feature_absent (f := 0) rfl (by decide) rfl rfl hi hr hk hg hw
  · exact emulated_of_feature_absent (f := 1) rfl (by decide) rfl rfl hi hr hk hg hw

/-- Settles O51: a rule for each register, slot, stage and host access, and the bytes of a host's write read back because the stores
that land before it keep memory in its canonical form. -/
theorem registersSlotsAndBringUp : Obligations.RegistersSlotsAndBringUp := by
  unfold Obligations.RegistersSlotsAndBringUp
  intro s
  refine ⟨fun bar off v h => ⟨execRegisterWrite_before_ready h bar off v, by simp [execMreset_eq, h]⟩, fun h => ⟨?_, ?_, ?_, ?_, ?_,
    ?_, ?_, ?_⟩, ?_, ?_, ?_, ?_, ?_, ?_, ?_, ?_, ?_, ?_, ?_⟩
  · exact fun off v => ⟨execRegisterWrite_bar0 h off v, execRegisterWrite_bar2 h off v⟩
  · intro v
    refine ⟨s.bar0Write_ctxtab v, s.bar0Write_commtab v, State.bar0Write_invreq h v, fun hx => State.bar0Write_drvfeat hx v,
      fun hb => State.bar0Write_ctxcmd hb v, s.bar0Write_mreset, fun p hp hu => ?_, fun p hp => ?_, fun q hq _ => ?_,
      fun q => s.notifyWrite_prio q v⟩
    · exact (s.bar0Write_part v hp (off := 0) (by omega) rfl).trans (State.partWrite_conf hu v)
    · exact s.bar0Write_part v hp (by omega) rfl
    · exact s.bar0Write_iface v hq (by omega) rfl
  · exact exec_mcBankClear h
  · intro pa n hn hp
    rw [exec_cxlMemRead h hn hp, Memory.readN_eq_map]
    rfl
  · exact fun pa bytes hn hp => ⟨_, exec_cxlMemWrite h hn hp, fun hwf => State.read_homeWrite hwf pa bytes⟩
  · exact fun slot c hs hb hw hc hn ha hl =>
      congrArg Host.Outcome.next (State.commOpen_succeeds (State.commFree_of_idle h hb 1 hs) hw hc hn ha hl)
  · exact fun slot hs hb hw => congrArg Host.Outcome.next (State.commClose_idle (State.commFree_of_idle h hb 2 hs) hw)
  · rw [execMreset_eq, if_pos h]
  · exact fun slot hb ho hs ht hc => exec_openTimeout hb ho hs ht hc
  · exact fun h => congrArg Host.Outcome.next (State.timeSync_before_stage1 h)
  · exact fun h hb => congrArg Host.Outcome.next (State.timeSync_idle h hb)
  · exact ⟨_, rfl, rfl, s.mem_poison_moduleReset, rfl, rfl, rfl, rfl, rfl, rfl⟩
  · exact fun b n he hs hn hb => ⟨_, rfl, State.bringUp_succeeds he hs hn hb⟩
  · exact fun b he hs hb => congrArg Host.Outcome.next (State.bringUp_fails he hs hb)
  · intro b m n hb
    obtain ⟨hsigned, hfits, hpresent, hversion⟩ := accepted_of_romErr hb
    refine ⟨hsigned, hpresent, fun i hi => ?_, fun k hk => ?_⟩
    · rwa [imageOf_of_find? hi] at hversion
    · obtain ⟨i, hi, hfit⟩ := hfits k hk
      obtain ⟨hlength, hdigest⟩ := by simpa [entryFits] using hfit
      exact ⟨i, List.mem_of_find?_eq_some hi, by simpa using List.find?_some hi, hlength, hdigest⟩
  · exact fun off h ho => State.regRead_before_ready h ho
  · exact s.regRead_bootstat
  · intro h
    simp only [State.regRead_bar0 h]
    refine ⟨rfl, rfl, rfl, fun p hp => ⟨?_, ?_, ?_⟩⟩
    · exact s.bar0Read_part hp (off := 0) (by omega) rfl
    · exact s.bar0Read_part hp (by omega) rfl
    · exact s.bar0Read_part hp (by omega) rfl
  · exact s.regRead_doorbell

/-- Settles O57: the fields by themselves, and the indexed parts by the lemmas on reset. -/
theorem resetLeavesTheMachineEmpty : Obligations.ResetLeavesTheMachineEmpty := by
  unfold Obligations.ResetLeavesTheMachineEmpty
  intro s
  refine ⟨State.memOk_reset, fun _ => rfl, rfl, rfl, rfl, rfl, rfl, State.reset_ctx, State.reset_iface, State.reset_core,
    State.reset_bank, rfl, rfl, rfl, ?_⟩
  simp [s, State.safe, State.reset, Core.reset, Ctx.reset]

end Sys2Proof.Machine
end

section
/-! How the tumbler moves, how teams start, retire and are stolen. -/

namespace Sys2Proof.Machine

open Sys2Proof

/-! ### The tumbler -/

theorem partCore_of_lt (c : Nat) {p : Nat} (hp : p < 4) : partCore (4 * c + p) = c := by
  unfold partCore; omega
theorem partIdx_of_lt (c : Nat) {p : Nat} (hp : p < 4) : partIdx (4 * c + p) = p := by
  unfold partIdx; omega

@[simp] theorem State.tableSize_modThread (s : State) (t i c p : Nat) (f : Thread → Thread) :
    (s.modThread t i f).tableSize c p = s.tableSize c p := by
  simp [State.tableSize]
/-- Threads whose wait begins anew keep their groups' entries. -/
theorem State.tableSize_notReady (s : State) (t : Nat) (is : List Nat) (c p : Nat) :
    (s.notReady t is).tableSize c p = s.tableSize c p :=
  List.foldlRecOn (motive := fun q : State => q.tableSize c p = s.tableSize c p) is _ rfl fun _ h i _ => by
    rw [State.tableSize_modThread, h]

/-- The longest-parked group takes a free entry (R206). -/
theorem State.parkScan_of_room {s : State} {c p : Nat} {g : Group}
    (hg : pick (fun a b => decide (a.parkedAt < b.parkedAt)) ((s.groupsOf c p).filter Group.parked) = some g)
    (hroom : (s.notReady g.team g.threads).tableSize c p < 64) :
    s.parkScan c p = { s.notReady g.team g.threads with groups := (s.notReady g.team g.threads).groups.map fun h =>
      if h.team = g.team ∧ h.num = g.num then { h with parked := false } else h } := by
  rw [State.tableSize_notReady] at hroom
  simp [State.parkScan, hg, hroom]

/-- The first runnable warp that fits when some candidates leave comes in for them (R211, R212). -/
theorem State.tumble_of_swap {s : State} {c p : Nat} {w : Nat × Nat} {l : List (Nat × Nat)} (hpad : s.padCalled c p = none)
    (hw : ((s.incoming c p).findSome? fun w =>
      (s.leavers (s.residents c p) (s.outgoing c p) w).map fun l => (w, l)) = some (w, l))
    (hl : ∀ e ∈ l, s.mayLeave e = true) :
    s.tumble c p = (l.foldl (fun (r : State) (e : Nat × Nat) => r.swapOut e.1 e.2) s).swapIn w.1 w.2 := by
  simp [State.tumble, hpad, hw, List.all_eq_true.mpr hl]

/-- A team of which no warp must stay leaves for the scratchpad that another team of its core needs (R213). -/
theorem State.rotateOut_of_needed {s : State} {t u : Nat} (hin : (s.team t).padIn = true) (hstart : (s.team t).started = true)
    (hretired : (s.team t).retired = false) (hagent : (s.team t).agent = false)
    (hleave : ∀ w ∈ (List.range (s.team t).nWarps).filter fun w => (s.warp t w).resident,
      s.candidate t w = true ∧ s.mayLeave (t, w) = true)
    (hu : u < s.teams.length) (hne : u ≠ t) (hcore : (s.team u).core = (s.team t).core) (hneeds : s.needsPad u = true)
    (hfits : s.padFits u = false) :
    s.rotateOut t = (((List.range (s.team t).nWarps).filter fun w => (s.warp t w).resident).foldl
      (fun (r : State) (w : Nat) => r.swapOut t w) s).padAway t := by
  have hneed : ((List.range s.teams.length).any fun u =>
      u != t && (s.team u).core == (s.team t).core && s.needsPad u && !s.padFits u) = true :=
    List.any_eq_true.mpr ⟨u, List.mem_range.mpr hu, by simp [hne, hcore, hneeds, hfits]⟩
  have hall : (((List.range (s.team t).nWarps).filter fun w => (s.warp t w).resident).all fun w =>
      s.candidate t w && s.mayLeave (t, w)) = true :=
    List.all_eq_true.mpr fun w hw => by simp [hleave w hw]
  unfold State.rotateOut
  exact if_pos ⟨hneed, hall, hin, hstart, by simp [hretired], by simp [hagent]⟩

/-- Every bank of one gang is spilled, each from the partition as it then stands (R138). -/
theorem State.spillBanks_gang (s : State) (c p : Nat) (g : Gang) :
    s.spillBanks c p (fun h => h == g) = ((List.range 16).foldl (fun (r : State) (j : Nat) =>
      if (r.bank c p j).owner = some g then
        { (r.saveBank g.team j (r.bank c p j)).modBank c p j (fun _ => AccBank.reset) with
          spilled := r.spilled ++ [{ gang := g, bank := j, acc := r.bank c p j }] }
      else r) s).wakeAlloc c p := by
  unfold State.spillBanks
  congr 2
  funext r j
  cases ho : (r.bank c p j).owner with
  | none => simp
  | some h =>
    by_cases hg : h = g
    · subst hg; simp [State.spillBank]
    · simp [hg]

/-- The banks of a gang that stands still are spilled for an ALLOC of another gang (R138). -/
theorem State.bankSpill_of_asked {s : State} {c p b t i k n : Nat} {g : Gang} (howner : (s.bank c p b).owner = some g)
    (ht : t < s.teams.length) (hcore : (s.team t).core = c) (hpart : (s.team t).part = p) (hi : i < (s.team t).threads.length)
    (hwait : (s.thread t i).wait = .alloc k n) (hk : k ≤ b) (hn : b < k + n) (hg : s.gangOf t ((s.team t).warpOf i) ≠ g)
    (hstill : s.gangStill g = true)
    (hheld : ∀ q ∈ s.seqOf c p, q.gang = g → heldSlots (q :: s.seqNeeds c p g (some q.id) q.bank q.count) ≠ []) :
    s.bankSpill c p b = s.spillBanks c p fun h => h == g := by
  unfold State.bankSpill
  simp only [howner]
  refine if_pos ⟨?_, hstill, ?_⟩
  · refine List.any_eq_true.mpr ⟨t, List.mem_range.mpr ht, ?_⟩
    have halloc : ((List.range (s.team t).threads.length).any fun i => match (s.thread t i).wait with
        | .alloc k n => decide (k ≤ b) && decide (b < k + n) && s.gangOf t ((s.team t).warpOf i) != g
        | _ => false) = true :=
      List.any_eq_true.mpr ⟨i, List.mem_range.mpr hi, by simp [hwait, hk, hn, hg]⟩
    simp only [hcore, hpart, beq_self_eq_true, Bool.true_and]
    exact Bool.or_eq_true_iff.mpr (.inl halloc)
  · refine List.all_eq_true.mpr fun q hq => ?_
    obtain ⟨hmem, hgang⟩ := List.mem_filter.mp hq
    simpa using hheld q hmem (by simpa using hgang)
theorem State.gangStill_of_members {s : State} {g : Gang} (h : ∀ w ∈ g.members, ∀ j ∈ (s.team g.team).members w,
    (s.thread g.team j).wait.blocking = true ∨ (s.thread g.team j).wait = .exited) : s.gangStill g = true := by
  simp only [State.gangStill, Bool.or_eq_true, List.all_eq_true, beq_iff_eq]
  exact .inr h

/-! ### A team starts -/

/-- What happens once parameters, areas and record list are there: the record list is written, the team and its span's record are
added, its warps come in, and threads without a record exit (R22, R28, R215, R217). -/
def State.openTeam (r : State) (x : Launch) (a : Spot) (ls : List Loc) (save vis : Nat) (ps : List Probe) : State :=
  let r := (ps.zip a.recs).foldl (fun (r : State) (e : Probe × RecSlot) => match e.1 with
    | .ok y _ => r.writeLoc noOwner y (leBytes 8 (((r.graph e.2.graph).node e.2.node).slotAddr e.2.level e.2.slot)) false
    | _ => r) r
  let r := if x.fuse then r.fuse a.core else r
  let t := r.teams.length
  let room := decide (r.padUse a.core + dScratch a.desc ≤ 512)
  let r := { r with teams := r.teams ++ [a.team x.ctx save vis r.clk (paramWords (r.readLocs ls)) room true] }
  let span := r.spanNo t
  let r := if r.spans.any fun y => y.launch == a.launch && y.span == span then r
    else { r with spans := r.spans ++ [{ launch := a.launch, span, teams := a.size, bars := List.replicate 16 (BarRec.start true a.size) }] }
  let r := (((r.openAreas t).acquire a.core).settleIn t).push a x.ctx
  let late := if a.node.isSome then (List.range (dNtid a.desc - a.recs.length)).map (a.recs.length + ·) else []
  ((late.foldl (fun (r : State) (i : Nat) => r.exitThread t i) r).tidy t).wakeRemote

/-- A team starts where its parameters, areas and record list are there and none of its parameters is poisoned. -/
theorem State.startAt_of_ready {s q r : State} {a : Spot} {ls : List Loc} {save vis : Nat} {ps : List Probe} (began : State → State)
    (hparam : s.probeUnits (fun (s : State) (va : Nat) => s.probeParam a va) a.param 8 8 = (q, .ok ls))
    (hsave : q.saveSpot (s.launch a.launch).ctx (dArea a.desc) = some save)
    (hvis : q.visibleSpot a.launch (q.visibleUnit a.launch) = some vis)
    (hlist : q.probeList (s.launch a.launch).ctx (vis + 64 * dWarps a.desc * dHw a.desc) a.recs.length = (r, ps))
    (hfault : lowFault ps = none) (hpages : absentPages ps = []) (hpoison : ∀ y ∈ ls, r.poisoned y 8 = false) :
    s.startAt a began = (began r).openTeam (s.launch a.launch) a ls save vis ps := by
  have hclean : (ls.find? fun l => r.poisoned l 8) = none := List.find?_eq_none.mpr fun y hy => by simp [hpoison y hy]
  unfold State.startAt
  simp only [hparam, hsave, hvis, hlist, hfault, hpages, hclean]
  rfl

/-- A launch that is not done, of a context that may run on the core (R22, R307, R308). -/
structure State.MayStart (s : State) (l core part : Nat) : Prop where
  launch : l < s.launches.length
  going  : (s.launch l).done = false
  inCore : part < 4
  valid  : (s.ctx (s.launch l).ctx).valid = true
  alive  : (s.ctx (s.launch l).ctx).failed = none
  usable : s.usable (s.ctx (s.launch l).ctx).part core = true
  here   : (s.ctx (s.launch l).ctx).out.contains core = false

theorem State.teamStart_grid {s : State} {l core part : Nat} (h : s.MayStart l core part) (hgraph : (s.launch l).graph = none)
    (index : Nat) : s.teamStart l index core part = s.startGrid l index core part := by
  simp only [State.teamStart, Nat.not_le.mpr h.launch, h.going, Nat.not_le.mpr h.inCore, h.valid, h.alive, h.usable, h.here, hgraph,
    Option.isSome_none, not_true_eq_false, Bool.false_eq_true, or_self, if_false]
theorem State.teamStart_node {s : State} {l core part g : Nat} (h : s.MayStart l core part) (hgraph : (s.launch l).graph = some g)
    (index : Nat) : s.teamStart l index core part = s.startNode l g index core part := by
  simp only [State.teamStart, Nat.not_le.mpr h.launch, h.going, Nat.not_le.mpr h.inCore, h.valid, h.alive, h.usable, h.here, hgraph,
    Option.isSome_none, not_true_eq_false, Bool.false_eq_true, or_self, if_false]

/-- The spot of a team of a grid (R20, R21). -/
abbrev Launch.spot (x : Launch) (l index core part : Nat) : Spot :=
  { launch := l, desc := x.desc, param := x.param, coords := x.coords index, span := index / x.spanLen, rank := index % x.spanLen,
    size := x.spanTeams (index / x.spanLen), core, part, node := none }

/-- A team of a claimed span is started on the cluster that the span is placed in (R224). -/
theorem State.startGrid_of_claimed {s : State} {l index core part die : Nat} (hindex : index < (s.launch l).size)
    (hnew : s.spanTeam l (index / (s.launch l).spanLen) (index % (s.launch l).spanLen) = none)
    (hclaimed : ((s.launch l).claimed.find? fun e => e.1 == index / (s.launch l).spanLen) =
      some (index / (s.launch l).spanLen, die))
    (hcluster : s.clusterFor (s.ctx (s.launch l).ctx).part die ((s.launch l).slice (index / (s.launch l).spanLen)) =
      some (core / 8)) :
    s.startGrid l index core part = s.startAt ((s.launch l).spot l index core part) id := by
  have hany : ((s.launch l).claimed.any fun e => e.1 == index / (s.launch l).spanLen) = true :=
    List.any_eq_true.mpr ⟨_, List.mem_of_find?_eq_some hclaimed, by simp⟩
  unfold State.startGrid
  simp [Nat.not_le.mpr hindex, hnew, hany, hclaimed, hcluster]

/-- A node launch that is taken is started (R228). -/
theorem State.startNode_of_taken {s : State} {l g index core part : Nat} {e : Nat × Nat × List Nat}
    (htaken : (s.graph g).taken[index]? = some e) :
    s.startNode l g index core part = s.startAt
      { launch := l, desc := ((s.graph g).node e.1).desc, param := dq ((s.graph g).node e.1).desc 1, coords := (e.1, 0, 0),
        span := 0, rank := 0, size := 1, core, part, node := some (g, e.1, e.2.1, e.2.2) }
      fun s => s.modGraph g fun y => { y with taken := y.taken.erase e } := by
  unfold State.startNode
  simp [htaken]

/-! ### A team retires, a die steals, a slice's timer lapses -/

/-- A team of a grid without a fault to report retires once its threads have exited and its work is done (R150, R217, R223). -/
theorem State.teamRetire_of_exited {s r : State} {t : Nat} {line : Loc} (ht : t < s.teams.length)
    (hstart : (s.team t).started = true) (hretired : (s.team t).retired = false) (hagent : (s.team t).agent = false)
    (hexited : ∀ x ∈ (s.team t).threads, x.wait = .exited) (hflight : s.inFlight t = false) (hfault : s.unreported t = none)
    (hnode : (s.team t).node = none) (hline : s.ticketLoc (s.team t).launch = (r, .ok line)) :
    let q := (List.range 16).foldl (fun (s : State) (id : Nat) => s.spanMod t id fun b => { b with expect := b.expect - 1 }) r
    let less := fun (y : SpanRec) => if y.launch = (s.team t).launch ∧ y.span = q.spanNo t then { y with teams := y.teams - 1 } else y
    s.teamRetire t = ((((({ q with spans := (q.spans.map less).filter fun y => y.teams != 0 } : State).freeBanks t).modTeam t fun m =>
      { m with retired := true, padIn := false, warps := m.warps.map fun (w : Warp) => { w with resident := false } }).countRetired
        (s.team t).launch (some line)).wakeRemote) := by
  have hout : ((s.team t).threads.all fun x => x.wait == .exited) = true :=
    List.all_eq_true.mpr fun x hx => by simp [hexited x hx]
  intro q less
  unfold State.teamRetire
  simp only [Nat.not_le.mpr ht, hstart, hretired, hagent, hout, hflight, hfault, hnode, hline, Option.isSome_none, not_true_eq_false,
    Bool.false_eq_true, or_self, if_false]
  rfl

/-- A die with a free slot and no ready warp, of a context that runs, for a launch that is not done (R224). -/
structure State.MaySteal (s : State) (die l : Nat) : Prop where
  launch : l < s.launches.length
  going  : (s.launch l).done = false
  onChip : die < 4
  valid  : (s.ctx (s.launch l).ctx).valid = true
  alive  : (s.ctx (s.launch l).ctx).failed = none
  idle   : s.idleDie (s.ctx (s.launch l).ctx).part die = true
  slot   : s.slotOn (s.ctx (s.launch l).ctx).part die = true

/-- Such a die takes a due node launch (R228). -/
theorem State.steal_node {s : State} {die l g : Nat} {e : Nat × Nat × List Nat} (h : s.MaySteal die l)
    (hgraph : (s.launch l).graph = some g) (hdue : s.dueNode g = some e) : s.steal die l = s.claimDue g e := by
  unfold State.steal
  simp [Nat.not_le.mpr h.launch, h.going, Nat.not_le.mpr h.onChip, h.valid, h.alive, h.idle, h.slot, hgraph, hdue]
/-- Such a die takes the step of R224 with the next die's ticket, where the areas have room for the span that it yields. -/
theorem State.steal_span {s r : State} {die l k : Nat} {line : Loc} (h : s.MaySteal die l) (hgraph : (s.launch l).graph = none)
    (hline : s.ticketLoc l = (r, .ok line))
    (hclaim : ((r.launch l).claimStep ((die + 1) % 4) (leValue (r.homeBytes (line.add (8 * ((die + 1) % 4))) 8).2)).2 = some k)
    (hroom : r.roomFor l ((r.launch l).spanTeams k) (dArea (r.launch l).desc) = true) :
    s.steal die l = (r.claimAt l line ((die + 1) % 4) die).1 := by
  unfold State.steal
  simp [Nat.not_le.mpr h.launch, h.going, Nat.not_le.mpr h.onChip, h.valid, h.alive, h.idle, h.slot, hgraph, hline, State.stealFrom,
    hclaim, hroom]

/-- A slice whose oldest record has waited out its node's timer delivers what it holds (R228). -/
theorem State.doserTimer_of_lapsed {s : State} {l n d g : Nat} {e : Nat × Nat × Nat} {rest : List (Nat × Nat × Nat)}
    (hgraph : (s.launch l).graph = some g) (hold : (s.graph g).committed n d = e :: rest)
    (hgoing : (s.graph g).done = false) (htime : e.2.1 + 1000 * ((s.graph g).node n).timer ≤ s.clk) :
    s.doserTimer l n d = s.modGraph g fun y => y.deliver g n d (y.committed n d).length := by
  unfold State.doserTimer
  simp [hgraph, hold, hgoing, htime]

/-! ### The obligation -/

/-- Settles O48: each clause is the lemma of its step. -/
theorem tumblerMovesAndTeamsStartAndRetire : Obligations.TumblerMovesAndTeamsStartAndRetire := by
  unfold Obligations.TumblerMovesAndTeamsStartAndRetire
  intro s placed passes opened
  refine ⟨?scan, ?swap, ?rotate, ?spill, ?grid, ?node, ?retire, ?due, ?span, ?timer⟩
  case scan =>
    intro c p g hp hg q hroom free
    refine congrArg Host.Outcome.next ?_
    rw [partCore_of_lt c hp, partIdx_of_lt c hp]
    exact State.parkScan_of_room hg hroom
  case swap =>
    intro c p w l hp hpad hw hl
    refine congrArg Host.Outcome.next ?_
    rw [partCore_of_lt c hp, partIdx_of_lt c hp]
    exact State.tumble_of_swap hpad hw hl
  case rotate =>
    rintro t m here hin hstart hretired hagent hleave ⟨u, hu, hne, hcore, hneeds, hfits⟩
    exact congrArg Host.Outcome.next
      (State.rotateOut_of_needed hin hstart hretired hagent hleave hu hne hcore hneeds hfits)
  case spill =>
    intro c p b g t i k n hp howner ht hcore hpart hi hwait hk hn hg hstill hheld
    refine congrArg Host.Outcome.next ?_
    rw [partCore_of_lt c hp, partIdx_of_lt c hp, State.bankSpill_of_asked howner ht hcore hpart hi hwait hk hn hg
      (State.gangStill_of_members hstill) hheld]
    exact s.spillBanks_gang c p g
  case grid =>
    rintro l index core part r ls save vis x k a ⟨hl, hgoing, hpart, hvalid, halive, husable, hhere⟩ hgraph hindex hnew
      ⟨die, hclaimed, hcluster⟩ ⟨q, hparam, hsave, hvis, hlist, hfault, hpages, hpoison⟩
    refine congrArg Host.Outcome.next ?_
    calc s.teamStart l index core part
      _ = s.startGrid l index core part :=
        State.teamStart_grid ⟨hl, hgoing, hpart, hvalid, halive, husable, hhere⟩ hgraph index
      _ = s.startAt a id := State.startGrid_of_claimed hindex hnew hclaimed hcluster
      _ = r.openTeam x a ls save vis [] := State.startAt_of_ready id hparam hsave hvis hlist hfault hpages hpoison
  case node =>
    rintro l index core part r ls save vis g e ps x n a ⟨hl, hgoing, hpart, hvalid, halive, husable, hhere⟩ hgraph htaken
      ⟨q, hparam, hsave, hvis, hlist, hfault, hpages, hpoison⟩
    refine congrArg Host.Outcome.next ?_
    calc s.teamStart l index core part
      _ = s.startNode l g index core part :=
        State.teamStart_node ⟨hl, hgoing, hpart, hvalid, halive, husable, hhere⟩ hgraph index
      _ = s.startAt a fun s => s.modGraph g fun y => { y with taken := y.taken.erase e } := State.startNode_of_taken htaken
      _ = (r.modGraph g fun y => { y with taken := y.taken.erase e }).openTeam x a ls save vis ps :=
        State.startAt_of_ready _ hparam hsave hvis hlist hfault hpages hpoison
  case retire =>
    intro t line r m ht hstart hretired hagent hexited hflight hfault hnode hline
    exact congrArg Host.Outcome.next
      (State.teamRetire_of_exited ht hstart hretired hagent hexited hflight hfault hnode hline)
  case due =>
    intro l die g e x hl hgoing hdie hvalid halive hidle hslot hgraph hdue
    exact congrArg Host.Outcome.next (State.steal_node ⟨hl, hgoing, hdie, hvalid, halive, hidle, hslot⟩ hgraph hdue)
  case span =>
    intro l die r line k x from_ hl hgoing hdie hvalid halive hidle hslot hgraph hline hclaim hroom
    exact congrArg Host.Outcome.next
      (State.steal_span ⟨hl, hgoing, hdie, hvalid, halive, hidle, hslot⟩ hgraph hline hclaim hroom)
  case timer =>
    intro l n d g r time no rest hgraph hold hgoing htime
    exact congrArg Host.Outcome.next (State.doserTimer_of_lapsed hgraph hold hgoing htime)

end Sys2Proof.Machine
end

section
/-! The frame of the value words fails where the threads of the issuing group do not all stand at the word: leaving it then
releases every meeting of the team that is due. -/

namespace Sys2Proof.Machine

open Sys2Proof

/-! ### A state in which a value word ends a meeting (R205, R209, R210) -/

/-- MOVI v6, 7, unguarded and with NAS NEXT (R119). -/
def moveSeven : FV := { c := { nas := 0, look := 0, ts := 0, tok := 0, pneg := 0, pidx := 7 }, dst := 6, imm := 7, rsv := 0 }
/-- A clause of that word and one more, as fetched with a value of the breakpoint comparators (R312). -/
def moveClause (brk : DWord) : Clause :=
  { addr := 0x10000, header := 0x0100000000000000, words := [FV.toWord 0x59 moveSeven, 0], brk := [brk, 0, 0, 0] }
/-- A thread that waits, with MEET at 0x10040 outside its handlers. -/
def heldAt (w : Wait) : Thread := { Thread.start 0x10040 192 0 none with meet := 0x10040, wait := w }
/-- Threads 0 and 1 stand at the first word of the clause, in copies fetched before and after BKPT was written. Thread 2 is held
at 0x10040; thread 3, interrupted on the way there, stands in its handler at BP-WATCH, so the meeting is due. -/
def dueThreads : List Thread :=
  let at_ := fun (brk : DWord) => { Thread.start 0x10000 192 0 none with mid := some (moveClause brk, 0) }
  let b : Banked := { pc := 0x10040, mid := none, skip := 0, meet := 0x10040, mtag := 0, alone := false, p := 0, laneSet := 0, looks := [] }
  [at_ 0, at_ 0x20001, heldAt .meet,
   { heldAt .watch with pc := 0x18000, meet := 1, level := 1, banks := [b], ew := [[0, 0, 0, 0]] }]
/-- A team of these threads after reset, its first two the group at the current issue. -/
def meetingDue : State :=
  let s := (State.reset.placeWord (moveClause 0)).modTeam 0 fun m => { m with ntid := 4, threads := dueThreads }
  { s with groups := s.groups.map fun g => { g with threads := [0, 1] } }
/-- Its current issue. -/
def dueIssue : Iss :=
  { core := 0, part := 0, team := 0, num := 0, threads := [0, 1], clause := moveClause 0, pos := 0 }

/-- The word stands there. -/
theorem stands_meetingDue : Stands meetingDue dueIssue (.movi moveSeven) moveSeven.c where
  issue := by decide +kernel
  first := by decide +kernel
  noBreak := by decide +kernel
  guard := by decide +kernel
  valid := by decide +kernel
  rights := by decide +kernel
  look := by decide +kernel
  results := by decide +kernel
  window := by decide +kernel

/-- Before the word's effect the meeting that thread 3 was interrupted in has not left it behind. -/
theorem settled_meetingDue_banks :
    ((meetingDue.settled dueIssue (.movi moveSeven) moveSeven.c).thread 0 3).banks.map Banked.alone = [false] := by
  decide +kernel
/-- The word runs, and leaves thread 3 behind. -/
theorem exec_meetingDue_banks : ∃ t, exec (.movi moveSeven) meetingDue = .next t ∧
    (t.thread 0 3).banks.map Banked.alone = [true] := by
  have h : (match exec (.movi moveSeven) meetingDue with
      | .next t => (t.thread 0 3).banks.map Banked.alone == [true]
      | _ => false) = true := by decide +kernel
  split at h
  · next t ht => exact ⟨t, ht, by simpa using h⟩
  · cases h

/-- Refutes O59: MOVI v6 at a group of two threads that stand there in unlike copies of one clause, which R205 does not tell
apart. Thread 1 does not leave the word with thread 0, so the word's end regroups the team and releases the meeting that is due; this
sets the `alone` that thread 3's trap has banked, and the statement says that no thread's `banks` change. -/
theorem not_valueWordsChangeOnlyTheirResults : ¬ Obligations.ValueWordsChangeOnlyTheirResults := by
  unfold Obligations.ValueWordsChangeOnlyTheirResults
  intro h
  obtain ⟨t, ht, halone⟩ := exec_meetingDue_banks
  obtain ⟨-, -, -, -, hthreads, -⟩ :=
    h meetingDue t dueIssue (.movi moveSeven) _ rfl stands_meetingDue rfl (by decide +kernel) ht
  obtain ⟨-, -, -, -, -, -, hbanks, -⟩ := hthreads 3
  have hsame := congrArg (List.map Banked.alone) hbanks
  rw [show dueIssue.team = 0 from rfl, halone] at hsame
  exact absurd (hsame.trans settled_meetingDue_banks) (by decide)

end Sys2Proof.Machine
end

section
/-! Decoding and encoding agree: a word is written again from the fields that are read from it. -/

namespace Sys2Proof

open Laws

/-! ### Words from their fields (R37, R42) -/

/-- A word is written again from its opcode and the fields read from it, and from no other opcode. -/
@[simp] theorem FA.toWord_ofWord (op : BitVec 8) (w : DWord) :
    FA.toWord op (FA.ofWord w) = w ↔ (w.extractLsb' 56 8).toNat = op.toNat := by
  rw [BitVec.toNat_inj]
  refine ⟨fun h => h ▸ FA.op_toWord op (FA.ofWord w), ?_⟩
  rintro rfl
  simp only [FA.toWord, FA.ofWord, Common.toBits, Common.ofWord, BitVec.cast_eq]
  simp (disch := decide) only [BitVec.extractLsb'_append_extractLsb'_eq_extractLsb']
  simp
@[simp] theorem FA.ofWord_c (w : DWord) : (FA.ofWord w).c = Common.ofWord w := rfl

/-- A word is written again from its opcode and the fields read from it, and from no other opcode. -/
@[simp] theorem FV.toWord_ofWord (op : BitVec 8) (w : DWord) :
    FV.toWord op (FV.ofWord w) = w ↔ (w.extractLsb' 56 8).toNat = op.toNat := by
  rw [BitVec.toNat_inj]
  refine ⟨fun h => h ▸ FV.op_toWord op (FV.ofWord w), ?_⟩
  rintro rfl
  simp only [FV.toWord, FV.ofWord, Common.toBits, Common.ofWord, BitVec.cast_eq]
  simp (disch := decide) only [BitVec.extractLsb'_append_extractLsb'_eq_extractLsb']
  simp
@[simp] theorem FV.ofWord_c (w : DWord) : (FV.ofWord w).c = Common.ofWord w := rfl

/-- A word is written again from its opcode and the fields read from it, and from no other opcode. -/
@[simp] theorem FM.toWord_ofWord (op : BitVec 8) (w : DWord) :
    FM.toWord op (FM.ofWord w) = w ↔ (w.extractLsb' 56 8).toNat = op.toNat := by
  rw [BitVec.toNat_inj]
  refine ⟨fun h => h ▸ FM.op_toWord op (FM.ofWord w), ?_⟩
  rintro rfl
  simp only [FM.toWord, FM.ofWord, Common.toBits, Common.ofWord, BitVec.cast_eq]
  simp (disch := decide) only [BitVec.extractLsb'_append_extractLsb'_eq_extractLsb']
  simp
@[simp] theorem FM.ofWord_c (w : DWord) : (FM.ofWord w).c = Common.ofWord w := rfl

/-- A word is written again from its opcode and the fields read from it, and from no other opcode. -/
@[simp] theorem FX.toWord_ofWord (op : BitVec 8) (w : DWord) :
    FX.toWord op (FX.ofWord w) = w ↔ (w.extractLsb' 56 8).toNat = op.toNat := by
  rw [BitVec.toNat_inj]
  refine ⟨fun h => h ▸ FX.op_toWord op (FX.ofWord w), ?_⟩
  rintro rfl
  simp only [FX.toWord, FX.ofWord, Common.toBits, Common.ofWord, BitVec.cast_eq]
  simp (disch := decide) only [BitVec.extractLsb'_append_extractLsb'_eq_extractLsb']
  simp
@[simp] theorem FX.ofWord_c (w : DWord) : (FX.ofWord w).c = Common.ofWord w := rfl

/-- A word is written again from its opcode and the fields read from it, and from no other opcode. -/
@[simp] theorem FS.toWord_ofWord (op : BitVec 8) (w : DWord) :
    FS.toWord op (FS.ofWord w) = w ↔ (w.extractLsb' 56 8).toNat = op.toNat := by
  rw [BitVec.toNat_inj]
  refine ⟨fun h => h ▸ FS.op_toWord op (FS.ofWord w), ?_⟩
  rintro rfl
  simp only [FS.toWord, FS.ofWord, Common.toBits, Common.ofWord, BitVec.cast_eq]
  simp (disch := decide) only [BitVec.extractLsb'_append_extractLsb'_eq_extractLsb']
  simp
@[simp] theorem FS.ofWord_c (w : DWord) : (FS.ofWord w).c = Common.ofWord w := rfl

/-- A word is written again from its opcode and the fields read from it, and from no other opcode. -/
@[simp] theorem FN.toWord_ofWord (op : BitVec 8) (w : DWord) :
    FN.toWord op (FN.ofWord w) = w ↔ (w.extractLsb' 56 8).toNat = op.toNat := by
  rw [BitVec.toNat_inj]
  refine ⟨fun h => h ▸ FN.op_toWord op (FN.ofWord w), ?_⟩
  rintro rfl
  simp only [FN.toWord, FN.ofWord, Common.toBits, Common.ofWord, BitVec.cast_eq]
  simp (disch := decide) only [BitVec.extractLsb'_append_extractLsb'_eq_extractLsb']
  simp
@[simp] theorem FN.ofWord_c (w : DWord) : (FN.ofWord w).c = Common.ofWord w := rfl

/-! ### What a word is looked up as is encoded by the word (R53, R54)

Each arm of an opcode map gives the instruction whose encoder writes that opcode before the fields that were read. -/

theorem encode_of_decodeGen {w : DWord} {i : Instr} (h : decodeGen (w.extractLsb' 56 8).toNat w = .ok i) :
    encode i = some (0, w) ∧ i.common = some (Common.ofWord w) := by
  unfold decodeGen at h
  dsimp only at h
  repeat' split at h
  all_goals cases h
  all_goals simp [encode, Instr.common, *]

theorem encode_of_decodeMtx {w : DWord} {i : Instr} (h : decodeMtx (w.extractLsb' 56 8).toNat w = .ok i) :
    encode i = some (1, w) ∧ i.common = some (Common.ofWord w) := by
  unfold decodeMtx at h
  repeat' split at h
  all_goals cases h
  all_goals simp [encode, Instr.common, *]

theorem encode_of_decodeEng {w : DWord} {i : Instr} (h : decodeEng (w.extractLsb' 56 8).toNat w = .ok i) :
    encode i = some (2, w) ∧ i.common = some (Common.ofWord w) := by
  unfold decodeEng at h
  repeat' split at h
  all_goals cases h
  all_goals simp [encode, Instr.common, *]

theorem encode_of_decodeSys {w : DWord} {i : Instr} (h : decodeSys (w.extractLsb' 56 8).toNat w = .ok i) :
    encode i = some (3, w) ∧ i.common = some (Common.ofWord w) := by
  unfold decodeSys at h
  dsimp only at h
  repeat' split at h
  all_goals cases h
  all_goals simp [encode, Instr.common, *]

/-- BRK holds every bit below its opcode (R54). -/
theorem encode_brk {cls : Nat} {w : DWord} (hcls : cls < 4) (hop : (w.extractLsb' 56 8).toNat = 0xB2) :
    encode (.brk (BitVec.ofNat 2 cls) (w.extractLsb' 0 56)) = some (cls, w) := by
  have hop : w.extractLsb' 56 8 = 0xB2 := BitVec.eq_of_toNat_eq hop
  simp only [encode, BitVec.toNat_ofNat, Nat.mod_eq_of_lt hcls, BitVec.cast_eq, ← hop]
  simp (disch := decide) only [BitVec.extractLsb'_append_extractLsb'_eq_extractLsb']
  simp

/-- What a word is looked up as is BRK, or an instruction with the fields of the word above its operands; the word encodes it. -/
theorem encode_of_lookup {cls : Nat} {w : DWord} {i : Instr} (h : lookup cls w = .ok i) :
    encode i = some (cls, w) ∧ (Machine.isBrk i = true ∨ i.common = some (Common.ofWord w)) := by
  unfold lookup at h
  dsimp only at h
  split at h
  next hop =>
    split at h
    next hcls =>
      cases h
      exact ⟨encode_brk hcls hop, .inl rfl⟩
    next => cases h
  next =>
    split at h
    · exact (encode_of_decodeGen h).imp_right .inr
    · exact (encode_of_decodeMtx h).imp_right .inr
    · exact (encode_of_decodeEng h).imp_right .inr
    · exact (encode_of_decodeSys h).imp_right .inr
    · cases h

/-! ### Both directions (R37 to R56) -/

/-- The word of a well-formed instruction decodes to that instruction; a step of the machine itself has no word (R37 to R56). -/
theorem decode_of_encode (i : Instr) : Encodes.Statement i := by
  match i with
  | .nop cls w => exact Encodes.nop cls w | .brk cls rest => exact Encodes.brk cls rest | .add w => exact Encodes.add w
  | .sub w => exact Encodes.sub w | .mul w => exact Encodes.mul w | .mulh w => exact Encodes.mulh w
  | .mad w => exact Encodes.mad w | .madw w => exact Encodes.madw w | .addc w => exact Encodes.addc w
  | .subb w => exact Encodes.subb w | .neg w => exact Encodes.neg w | .abs w => exact Encodes.abs w
  | .min w => exact Encodes.min w | .max w => exact Encodes.max w | .and w => exact Encodes.and w | .or w => exact Encodes.or w
  | .xor w => exact Encodes.xor w | .andn w => exact Encodes.andn w | .not w => exact Encodes.not w
  | .shl w => exact Encodes.shl w | .shr w => exact Encodes.shr w | .sar w => exact Encodes.sar w
  | .rotl w => exact Encodes.rotl w | .fshf w => exact Encodes.fshf w | .popc w => exact Encodes.popc w
  | .clz w => exact Encodes.clz w | .ctz w => exact Encodes.ctz w | .brev w => exact Encodes.brev w
  | .bfx w => exact Encodes.bfx w | .bfi w => exact Encodes.bfi w | .prmt w => exact Encodes.prmt w
  | .lea w => exact Encodes.lea w | .cmp w => exact Encodes.cmp w | .sel w => exact Encodes.sel w
  | .div w => exact Encodes.div w | .rem w => exact Encodes.rem w | .fadd w => exact Encodes.fadd w
  | .fsub w => exact Encodes.fsub w | .fmul w => exact Encodes.fmul w | .ffma w => exact Encodes.ffma w
  | .fmin w => exact Encodes.fmin w | .fmax w => exact Encodes.fmax w | .fcmp w => exact Encodes.fcmp w
  | .fclass w => exact Encodes.fclass w | .fscale w => exact Encodes.fscale w | .frnd w => exact Encodes.frnd w
  | .frcp w => exact Encodes.frcp w | .frsq w => exact Encodes.frsq w | .fsqrt w => exact Encodes.fsqrt w
  | .fdiv w => exact Encodes.fdiv w | .fexp2 w => exact Encodes.fexp2 w | .flog2 w => exact Encodes.flog2 w
  | .fsin w => exact Encodes.fsin w | .fcos w => exact Encodes.fcos w | .ftanh w => exact Encodes.ftanh w
  | .fdot2 w => exact Encodes.fdot2 w | .cvt w => exact Encodes.cvt w | .pack w => exact Encodes.pack w
  | .unpk w => exact Encodes.unpk w | .qenc w => exact Encodes.qenc w | .qdec w => exact Encodes.qdec w
  | .mov w => exact Encodes.mov w | .movi w => exact Encodes.movi w | .movh w => exact Encodes.movh w
  | .rds w => exact Encodes.rds w | .wrs w => exact Encodes.wrs w | .shfl w => exact Encodes.shfl w
  | .vote w => exact Encodes.vote w | .redux w => exact Encodes.redux w | .matchLanes w => exact Encodes.matchLanes w
  | .v2s w => exact Encodes.v2s w | .plop w => exact Encodes.plop w | .pmovGet w => exact Encodes.pmovGet w
  | .pmovSet w => exact Encodes.pmovSet w | .ld w => exact Encodes.ld w | .st w => exact Encodes.st w
  | .ldnr w => exact Encodes.ldnr w | .lda w => exact Encodes.lda w | .stl w => exact Encodes.stl w
  | .lds w => exact Encodes.lds w | .sts w => exact Encodes.sts w | .ldt w => exact Encodes.ldt w
  | .stt w => exact Encodes.stt w | .qst w => exact Encodes.qst w | .atom w => exact Encodes.atom w
  | .red w => exact Encodes.red w | .atoms w => exact Encodes.atoms w | .fenceAcq w => exact Encodes.fenceAcq w
  | .fenceRel w => exact Encodes.fenceRel w | .fenceFull w => exact Encodes.fenceFull w | .pref w => exact Encodes.pref w
  | .pgreq w => exact Encodes.pgreq w | .icfence w => exact Encodes.icfence w | .shape w => exact Encodes.shape w
  | .swinit w => exact Encodes.swinit w | .swwait w => exact Encodes.swwait w | .seal w => exact Encodes.seal w
  | .waitb w => exact Encodes.waitb w | .jmpi w => exact Encodes.jmpi w | .calli w => exact Encodes.calli w
  | .meetset w => exact Encodes.meetset w | .meetsetR w => exact Encodes.meetsetR w
  | .meetsetClr w => exact Encodes.meetsetClr w | .barArrive w => exact Encodes.barArrive w
  | .barWait w => exact Encodes.barWait w | .barSync w => exact Encodes.barSync w | .sbarArrive w => exact Encodes.sbarArrive w
  | .sbarWait w => exact Encodes.sbarWait w | .sbarSync w => exact Encodes.sbarSync w | .watch w => exact Encodes.watch w
  | .watchClr w => exact Encodes.watchClr w | .wait w => exact Encodes.wait w | .yield w => exact Encodes.yield w
  | .sleep w => exact Encodes.sleep w | .cbr w => exact Encodes.cbr w | .cbsync w => exact Encodes.cbsync w
  | .cbsyncAbort w => exact Encodes.cbsyncAbort w | .gres w => exact Encodes.gres w | .reca w => exact Encodes.reca w
  | .recc w => exact Encodes.recc w | .recf w => exact Encodes.recf w | .launch w => exact Encodes.launch w
  | .signal w => exact Encodes.signal w | .trap w => exact Encodes.trap w | .alloc w => exact Encodes.alloc w
  | .free w => exact Encodes.free w | .mma w => exact Encodes.mma w | .acz w => exact Encodes.acz w
  | .acrd w => exact Encodes.acrd w | .acwr w => exact Encodes.acwr w | .acld w => exact Encodes.acld w
  | .acst w => exact Encodes.acst w | .cpy w => exact Encodes.cpy w | .cpyg w => exact Encodes.cpyg w
  | .cpys w => exact Encodes.cpys w | .cpyt w => exact Encodes.cpyt w | .walk w => exact Encodes.walk w
  | .crdc w => exact Encodes.crdc w | .calr w => exact Encodes.calr w | .crsc w => exact Encodes.crsc w
  | .calg w => exact Encodes.calg w | .cbcs w => exact Encodes.cbcs w | .cbar w => exact Encodes.cbar w
  | .eretDone w => exact Encodes.eretDone w | .eretRetry w => exact Encodes.eretRetry w | .rdcsr w => exact Encodes.rdcsr w
  | .wrcsr w => exact Encodes.wrcsr w | .tlbinvPage w => exact Encodes.tlbinvPage w
  | .tlbinvPasid w => exact Encodes.tlbinvPasid w | .tlbinvGpage w => exact Encodes.tlbinvGpage w
  | .tlbinvIpa w => exact Encodes.tlbinvIpa w | .tlbinvAll w => exact Encodes.tlbinvAll w
  | .ctxswOut w => exact Encodes.ctxswOut w | .ctxswIn w => exact Encodes.ctxswIn w | .claim w => exact Encodes.claim w
  | .claimNode w => exact Encodes.claimNode w | .mcack w => exact Encodes.mcack w | .halt w => exact Encodes.halt w
  | .clauseHeader .. | .resultWriteback .. | .storeAcknowledge .. | .spuriousWake .. | .spinDetect .. | .sleepExpire ..
  | .wtimer .. | .parkScan .. | .tumblerSwap .. | .checkpointWriteback .. | .teamRotateOut .. | .bankSpill .. | .kRow ..
  | .copyTransfer .. | .walkHop .. | .teamStart .. | .teamRetire .. | .workSteal .. | .doserTimer .. | .pageMigration ..
  | .interruptTimer .. | .packetAging .. | .doorbell .. | .nopPacket .. | .launchPacket .. | .graphPacket .. | .waitPacket ..
  | .waitPacketSatisfied .. | .signalPacket .. | .fetchFence .. | .ctxcmdCreate .. | .ctxcmdRevoke .. | .ctxcmdUpdate ..
  | .invreq .. | .pdctlSupply .. | .pdctlFail .. | .poolbaseWrite .. | .poolsizeWrite .. | .fqheadWrite .. | .interfaceEnable ..
  | .interfaceDisable .. | .errClear .. | .commcmdOpen .. | .commcmdClose .. | .openTimeout .. | .timeSync | .mreset
  | .mcBankClear .. | .registerWrite .. | .cxlMemRead .. | .cxlMemWrite .. | .atsInvalidation .. | .getVersion ..
  | .getCapabilities .. | .negotiateAlgorithms .. | .getDigests .. | .getCertificate .. | .challenge .. | .getMeasurements ..
  | .mctpControl .. | .pldmRequest .. | .mreq .. | .mrsp .. | .join .. | .notopen .. | .joinAck .. | .joinRetry ..
  | .contribution .. | .abortMessage .. | .decision .. | .chunkAging .. | .linkLoss .. | .linkRetry .. | .thermalPoll ..
  | .powerLimit .. | .watchdog .. | .patrolScrub .. | .machineCheck .. | .bringUp .. | .moduleReset | .watchRegistration ..
  | .cbarMessage .. | .collectiveChunk .. => exact Encodes.no_word rfl

/-- What `decode` answers is what the word is looked up as, and passes the tests of R56. -/
theorem decode_ok_iff {cls : Nat} {w : DWord} {i : Instr} :
    decode cls w = .ok i ↔ lookup cls w = .ok i ∧ i.staticCase = none := by
  unfold decode
  cases lookup cls w with
  | error k => simp
  | ok j =>
    simp only [Except.ok.injEq]
    constructor
    · intro h
      split at h
      · cases h
      next hs => cases h; exact ⟨rfl, hs⟩
    · rintro ⟨rfl, hs⟩
      rw [hs]

/-- Settles O56: forth by the lemma of each instruction, and back by the arms of the opcode maps. -/
theorem decodeAndEncodeAgree : Obligations.DecodeAndEncodeAgree := by
  unfold Obligations.DecodeAndEncodeAgree
  refine ⟨decode_of_encode, fun cls x i h => ?_⟩
  obtain ⟨hl, hs⟩ := decode_ok_iff.mp h
  exact ⟨(encode_of_lookup hl).1, by rw [Instr.wf, hs]; rfl⟩

end Sys2Proof
end

section
/-! The step runs the instruction that the current word decodes to; NOP, YIELD and the long float instructions complete. -/

namespace Sys2Proof.Machine

open Sys2Proof

/-! ### A step at a word (R33, R36, R57) -/

/-- What an instruction with a word does stands in the frame of a word. -/
theorem exec_eq_word {i : Instr} {c : Common} (hc : i.common = some c) (s : State) :
    ∃ after body, exec i s = word i c after body s := by
  cases i
  all_goals cases hc
  all_goals simp only [exec, simple, alu, aluPred, arith, bitwise, falu, longAlu, emulated,
    execNop, execAdd, execSub, execMul, execMulh, execMad, execMadw, execAddc, execSubb, execNeg, execAbs, execMin, execMax,
    execAnd, execOr, execXor, execAndn, execNot, execShl, execShr, execSar, execRotl, execFshf, execPopc, execClz, execCtz,
    execBrev, execBfx, execBfi, execPrmt, execLea, execCmp, execSel, execDiv, execRem, execFadd, execFsub, execFmul,
    execFfma, execFmin, execFmax, execFcmp, execFclass, execFscale, execFrnd, execFrcp, execFrsq, execFsqrt, execFdiv,
    execFexp2, execFlog2, execFsin, execFcos, execFtanh, execFdot2, execCvt, execPack, execUnpk, execQenc, execQdec, execMov,
    execMovi, execMovh, execRds, execWrs, execShfl, execVote, execRedux, execMatchLanes, execV2s, execPlop, execPmovGet,
    execPmovSet, execLd, execSt, execLdnr, execLda, execStl, execLds, execSts, execLdt, execStt, execQst, execAtom, execRed,
    execAtoms, execFenceAcq, execFenceRel, execFenceFull, execPref, execPgreq, execIcfence, execShape, execSwinit,
    execSwwait, execSeal, execWaitb, execJmpi, execCalli, execMeetset, execMeetsetR, execMeetsetClr, execBarArrive,
    execBarWait, execBarSync, execSbarArrive, execSbarWait, execSbarSync, execWatch, execWatchClr, execWait, execYield,
    execSleep, execCbr, execCbsync, execCbsyncAbort, execGres, execReca, execRecc, execRecf, execLaunch, execSignal,
    execTrap, execAlloc, execFree, execMma, execAcz, execAcrd, execAcwr, execAcld, execAcst, execCpy, execCpyg,
    execCpys, execCpyt, execWalk, execCrdc, execCalr, execCrsc, execCalg, execCbcs, execCbar, execEretDone, execEretRetry,
    execRdcsr, execWrcsr, execTlbinvPage, execTlbinvPasid, execTlbinvGpage, execTlbinvIpa, execTlbinvAll, execCtxswOut,
    execCtxswIn, execClaim, execClaimNode, execMcack, execHalt]
  all_goals exact ⟨_, _, rfl⟩

/-- BRK, which has no fields above its rest, is never tested (R54). -/
theorem staticCase_of_isBrk {i : Instr} (h : isBrk i = true) : i.staticCase = none := by
  unfold isBrk at h
  split at h
  · rfl
  · cases h
theorem isBrk_of_common {i : Instr} {c : Common} (h : i.common = some c) : isBrk i = false := by
  unfold isBrk
  split
  · cases h
  · rfl

/-- A word that R56 turns away by its own bits, and is no MMA, enters the emulation handler (R57). -/
theorem exec_not_instruction {s : State} {k : Iss} {i : Instr} {c : Common} (hc : i.common = some c) (hb : isBrk i = false)
    (hm : isMma i = false) (hs : i.staticCase ≠ none) (hi : s.iss = some k)
    (hr : (s.thread k.team (k.threads.headD 0)).released = false) (hk : breaks k.clause.brk k.pc = false)
    (hg : (s.guarded k c).guardOpen k c = false) :
    exec i s = .next ((s.guarded k c).emulate k (k.clause.word k.pos) (some i) k.threads) := by
  obtain ⟨after, body, he⟩ := exec_eq_word hc s
  have hn : (s.guarded k c).notInstr k i c = true := by simp [State.notInstr, Option.isSome_iff_ne_none, hs]
  rw [he, word]
  simp only [hi, State.over_, hr, before_notInstr (threads_ne_nil_of_iss hi) hk hg hb hm hn, Bool.false_eq_true, if_false]

/-- With no agenda, a step runs the word at the current issue. -/
theorem step_at_word {s : State} {k : Iss} (ha : s.agenda = []) (hi : s.iss = some k) : step s = s.runWord k := by
  simp only [step, State.advanceOne, ha, hi]

/-- The current word runs as what it is looked up as (R36). -/
theorem State.runWord_of_lookup {s : State} {k : Iss} {i : Instr}
    (hl : lookup k.clause.hdr.cls.toNat (k.clause.word k.pos) = .ok i) :
    s.runWord k = mapNext (s.undeny k.team k.threads) (exec i (s.denying k.team k.threads)) := by
  simp only [State.runWord, Clause.instr, hl]

/-- A word looked up as nothing is over where a return has left it, and is otherwise unknown (R57, R302). -/
theorem State.runWord_of_no_lookup {s : State} {k : Iss}
    (hl : ∀ i, lookup k.clause.hdr.cls.toNat (k.clause.word k.pos) ≠ .ok i) :
    s.runWord k = .next (s.undeny k.team k.threads (if (s.thread k.team (k.threads.headD 0)).released = true
      then (s.denying k.team k.threads).resume k (Common.ofWord (k.clause.word k.pos)) goOn
      else (s.denying k.team k.threads).unknownWord k (k.clause.word k.pos))) := by
  unfold State.runWord Clause.instr
  cases h : lookup k.clause.hdr.cls.toNat (k.clause.word k.pos) with
  | error e => rfl
  | ok i => exact absurd h (hl i)

/-- What is refused to threads bears on neither the issue nor the threads. -/
@[simp] theorem State.iss_denying (s : State) (t : Nat) (is : List Nat) : (s.denying t is).iss = s.iss := rfl
@[simp] theorem State.thread_denying (s : State) (t u j : Nat) (is : List Nat) : (s.denying t is).thread u j = s.thread u j := rfl

/-- Where nothing is refused, nothing is carried over. -/
theorem State.denying_of_none {s : State} {t : Nat} {is : List Nat} (hd : (s.thread t (is.headD 0)).deny = []) (h : s.deny = [])
    (hh : s.hit = false) : s.denying t is = s := by
  rw [State.denying, hd, ← h, ← hh]

/-- A fold whose every step leaves its start as it is ends there. -/
theorem foldl_eq_self {α β : Type} {f : α → β → α} {a : α} {l : List β} (h : ∀ b ∈ l, f a b = a) : l.foldl f a = a :=
  List.foldlRecOn (motive := (· = a)) l f rfl fun _ hb c hc => hb ▸ h c hc
/-- Where nothing is refused to threads, nothing is taken back. -/
theorem State.undeny_of_none {s r : State} {t : Nat} {is : List Nat} (hd : ∀ j ∈ is, (r.thread t j).deny = [])
    (h : r.deny = []) (hh : r.hit = false) : s.undeny t is r = r := by
  calc s.undeny t is r
    _ = { r with deny := [], hit := false } := congrArg (fun q : State => { q with deny := [], hit := false })
      (foldl_eq_self (by
        intro j hj
        exact if_pos (by simp [hd j hj])))
    _ = r := by rw [← h, ← hh]

/-- A word that is looked up as nothing enters the emulation handler where no comparator matches (R57). -/
theorem State.unknownWord_emulates {s : State} {k : Iss} {w : DWord} (hk : breaks k.clause.brk k.pc = false)
    (hg : (s.guarded k (Common.ofWord w)).guardOpen k (Common.ofWord w) = false) :
    s.unknownWord k w = (s.guarded k (Common.ofWord w)).emulate k w none k.threads := by
  simp only [State.guarded] at hg ⊢
  simp only [State.unknownWord, hk, hg, Bool.false_eq_true, if_false]

/-- Settles O54: the step is the frame of the word, whose tests turn a word away that R56 rejects. -/
theorem stepRunsDecodedInstruction : Obligations.StepRunsDecodedInstruction := by
  unfold Obligations.StepRunsDecodedInstruction
  intro s k ha hi w cls
  rw [step_at_word ha hi]
  refine ⟨?decoded, State.denying_of_none, fun t => State.undeny_of_none, ?emulated, ?ended⟩
  case decoded =>
    intro i hd
    rw [State.runWord_of_lookup (decode_ok_iff.mp hd).1]
    rfl
  case emulated =>
    intro r c found hnot hmma hne hr hk hg
    cases hl : lookup cls w with
    | error e =>
      have hfound : found = none := congrArg Except.toOption hl
      rw [State.runWord_of_no_lookup (by rw [hl]; simp), if_neg (Bool.eq_false_iff.mp hr), hfound,
        ← State.unknownWord_emulates hk hg]
    | ok i =>
      have hfound : found = some i := congrArg Except.toOption hl
      have hs : i.staticCase ≠ none := fun h => hnot i (decode_ok_iff.mpr ⟨hl, h⟩)
      rcases (encode_of_lookup hl).2 with hb | hc
      · exact absurd (staticCase_of_isBrk hb) hs
      · rw [State.runWord_of_lookup hl, hfound,
          exec_not_instruction (s := s.denying k.team k.threads) hc (isBrk_of_common hc) (hmma i hfound) hs hi hr hk hg]
        rfl
  case ended =>
    intro hnot hr
    rw [State.runWord_of_no_lookup hnot, if_pos hr]

/-! ### Long float instructions, NOP, SKIP and YIELD (R48, R50, R54, R112, R239) -/

/-- A long-latency word that stands issues each executing thread its result (R50 to R52). -/
theorem longAlu_issues {i : Instr} {w : FA} {n : Nat} {f : State → Nat → Nat → Nat} (he : exec i = longAlu i w n f)
    (hb : isBrk i = false) : IssuesValue i w.c w.dst n f := by
  intro s k h
  rw [he]
  exact simple_stands h hb _

/-- Settles O10: each of the eight is a long-latency word, and `longAlu_issues` says what these do. -/
theorem longFloatsIssueTheirResult : Obligations.LongFloatsIssueTheirResult := by
  unfold Obligations.LongFloatsIssueTheirResult
  intro w f rm ftz fn
  exact ⟨longAlu_issues rfl rfl, longAlu_issues rfl rfl, longAlu_issues rfl rfl, longAlu_issues rfl rfl,
    longAlu_issues rfl rfl, longAlu_issues rfl rfl, longAlu_issues rfl rfl, longAlu_issues rfl rfl⟩

/-- A thread executes no word that SKIP passes over (R48). -/
theorem State.executes_of_skip {s : State} {t x pos n : Nat} (c : Common) (hs : (s.thread t x).skip = n) (hp : pos < n) :
    s.executes t x c pos = false := by
  simp [State.executes, hs, hp]

/-- Settles O12: NOP and YIELD are words whose effect never waits. -/
theorem nopSkipAndYield : Obligations.NopSkipAndYield := by
  unfold Obligations.NopSkipAndYield
  intro cls w
  refine ⟨?nop, ?skip, ?covered, ?yield⟩
  case nop =>
    intro hn s k h
    refine (simple_stands h rfl _).trans ?_
    rw [if_neg hn]
  case skip =>
    intro hn s k h
    refine (simple_stands h rfl _).trans ?_
    rw [if_pos hn]
  case covered => exact fun s t x c pos n hs hp => State.executes_of_skip c hs hp
  case yield => exact fun s k h => simple_stands h rfl _

/-- Settles O55: the decoder evaluated at the words. -/
theorem wordsDecodeAsWrittenOut : Obligations.WordsDecodeAsWrittenOut := by
  unfold Obligations.WordsDecodeAsWrittenOut
  decide

end Sys2Proof.Machine
end

section
/-! Clauses start at headers whose tests pass; spins are declared, and waits end. -/

namespace Sys2Proof.Machine

open Sys2Proof

/-! ### Home warps of a list of threads (R14, R17) -/

/-- Each team keeps the home warps that its threads belong to. -/
def State.SameWarps (s r : State) : Prop := ∀ u, (r.team u).width = (s.team u).width ∧ (r.team u).nWarps = (s.team u).nWarps

theorem State.SameWarps.refl (s : State) : s.SameWarps s := fun _ => ⟨rfl, rfl⟩
theorem State.SameWarps.trans {s r q : State} (h : s.SameWarps r) (g : r.SameWarps q) : s.SameWarps q :=
  fun u => ⟨(g u).1.trans (h u).1, (g u).2.trans (h u).2⟩
theorem State.SameWarps.foldl {α : Type} (l : List α) (f : State → α → State) (hf : ∀ (s : State) (a : α), s.SameWarps (f s a))
    (s : State) : s.SameWarps (l.foldl f s) :=
  List.foldlRecOn (motive := s.SameWarps) l f (.refl s) fun r hr a _ => hr.trans (hf r a)
theorem State.SameWarps.modTeam (s : State) (t : Nat) {f : Team → Team}
    (hf : ∀ m : Team, (f m).width = m.width ∧ (f m).nWarps = m.nWarps) : s.SameWarps (s.modTeam t f) := by
  intro u
  rw [State.team_modTeam]
  split
  · exact hf _
  · exact ⟨rfl, rfl⟩
theorem State.SameWarps.modThread (s : State) (t i : Nat) (f : Thread → Thread) : s.SameWarps (s.modThread t i f) :=
  .modTeam s t fun _ => ⟨rfl, rfl⟩
theorem State.SameWarps.modWarp (s : State) (t w : Nat) (f : Warp → Warp) : s.SameWarps (s.modWarp t w f) :=
  .modTeam s t fun _ => ⟨rfl, by simp [Team.nWarps]⟩
theorem State.SameWarps.putReg (s : State) (t i : Nat) (code : BitVec 8) (n v : Nat) : s.SameWarps (s.putReg t i code n v) := by
  rcases s.putReg_cases t i code n v with h | ⟨k, -, h⟩ | ⟨k, -, h⟩ | ⟨k, -, h⟩ <;> rw [h]
  · exact .refl s
  · exact (State.SameWarps.modThread _ _ _ _).trans (.modWarp _ _ _ _)
  · exact (State.SameWarps.modWarp _ _ _ _).trans (.modWarp _ _ _ _)
  · exact .modThread _ _ _ _
/-- What a change of the thread's registers, predicates and results and of home warps keeps, the writing of a result keeps. -/
theorem State.writeBack_keeps {P : State → Prop} {s : State} (t i key : Nat) (hs : P s)
    (hreg : ∀ q code n v, P q → P (q.putReg t i code n v)) (hthread : ∀ q f, P q → P (q.modThread t i f))
    (hwarp : ∀ q w f, P q → P (q.modWarp t w f)) : P (s.writeBack t i key) := by
  unfold State.writeBack
  split
  · exact hs
  next p _ =>
    have hpred : ∀ q k b, P q → P (q.putPred t i k b) := fun q k b h => hthread q _ h
    have htok : ∀ q w k f, P q → P (q.tokAdd t w k f) := fun q w k f h => hwarp q w _ h
    cases p.value <;> cases p.pred <;> cases p.token <;> dsimp only <;> try split
    all_goals apply_rules [htok, hthread, hpred, hreg]
theorem State.SameWarps.writeBack (s : State) (t i key : Nat) : s.SameWarps (s.writeBack t i key) :=
  State.writeBack_keeps t i key (.refl s) (fun q _ _ _ h => h.trans (.putReg q _ _ _ _ _))
    (fun q f h => h.trans (.modThread q _ _ f)) fun q w f h => h.trans (.modWarp q _ w f)
theorem State.SameWarps.settleTokens (s : State) (t : Nat) (ws : List Nat) (mask : Nat) :
    s.SameWarps (s.settleTokens t ws mask) :=
  .foldl _ _ (fun s _ => .foldl _ _ (fun s _ => .foldl _ _ (fun s _ => .writeBack s _ _ _) s) s) s
/-- The home warps of a list of threads are then the same. -/
theorem State.SameWarps.warpsOf {s r : State} (h : s.SameWarps r) (t : Nat) (is : List Nat) : r.warpsOf t is = s.warpsOf t is := by
  simp only [State.warpsOf, Team.warpOf, (h t).1, (h t).2]

/-! ### Threads after a change of each of a list -/

theorem State.team_lt_of_thread {s : State} {t i : Nat} (h : i < (s.team t).threads.length) : t < s.teams.length := by
  by_contra hn
  rw [State.team, List.getD_eq_default _ _ (not_lt.mp hn)] at h
  exact Nat.not_lt_zero _ h
@[simp] theorem State.threads_length_modThread (s : State) (t i u : Nat) (f : Thread → Thread) :
    ((s.modThread t i f).team u).threads.length = (s.team u).threads.length := by
  unfold State.modThread
  rw [State.team_modTeam]
  split
  · exact List.length_modify ..
  · rfl
/-- A thread of the list is as the change leaves threads. -/
theorem State.thread_foldl_modThread {P : Thread → Prop} {f : Thread → Thread} (hf : ∀ x, P (f x)) {l : List Nat} {t i : Nat}
    (hi : i ∈ l) (s : State) (hlen : i < (s.team t).threads.length) :
    P ((l.foldl (fun (s : State) (j : Nat) => s.modThread t j f) s).thread t i) := by
  have hstep : ∀ (q : State) (j : Nat), P (q.thread t i) → P ((q.modThread t j f).thread t i) := by
    intro q j hq
    rw [State.thread_modThread]
    split
    · exact hf _
    · exact hq
  induction l generalizing s with
  | nil => cases hi
  | cons j l ih =>
    rw [List.foldl_cons]
    rcases List.mem_cons.mp hi with rfl | hi
    · refine List.foldlRecOn (motive := fun q : State => P (q.thread t i)) l _ ?_ fun q hq j _ => hstep q j hq
      rw [State.thread_modThread, if_pos ⟨rfl, State.team_lt_of_thread hlen, rfl, hlen⟩]
      exact hf _
    · exact ih hi _ (by rwa [State.threads_length_modThread])

/-! ### Clause headers (R33 to R36, R52, R57) -/

/-- A group that may issue stands at a header, is not spinning, meets nobody and breaks nowhere there, and its clause is
fetched. -/
structure State.Fetched (s : State) (t num : Nat) (g : Group) (q : State) (c : Clause) : Prop where
  may   : s.mayIssue t num = some g
  mid   : (s.thread t (g.threads.headD 0)).mid = none
  spin  : s.spinning t num = none
  meet  : ∀ i ∈ g.threads, (s.thread t i).meet ≠ (s.thread t (g.threads.headD 0)).pc
  brk   : breaks (s.ctxOf t).bkpt (s.thread t (g.threads.headD 0)).pc = false
  whole : (s.thread t (g.threads.headD 0)).pc.toNat % 8 = 0
  fetch : s.fetchClause (s.team t).core (s.team t).ctx (s.privileged t (g.threads.headD 0))
    (s.thread t (g.threads.headD 0)).pc = (q, .clause c)

/-- Nothing holds the clause then: no token of its mask counts, and a SYS clause is for privileged threads alone. -/
structure State.Clear (r : State) (t : Nat) (g : Group) (c : Clause) : Prop where
  tokens : ∀ w ∈ r.warpsOf t g.threads, ∀ k, k < 8 → c.hdr.wait.getLsbD k = true → (r.warp t w).regs.tok.getD k 0 = 0
  rights : c.hdr.cls = 3 → ∀ i ∈ g.threads, r.privileged t i = true

theorem State.Fetched.meet_nil {s q : State} {t num : Nat} {g : Group} {c : Clause} (h : s.Fetched t num g q c) :
    (g.threads.filter fun i => (s.thread t i).meet == (s.thread t (g.threads.headD 0)).pc) = [] := by
  simpa using h.meet
theorem State.Clear.user_nil {r : State} {t : Nat} {g : Group} {c : Clause} (h : r.Clear t g c) :
    (if c.hdr.cls = 3 then g.threads.filter fun i => !r.privileged t i else []) = [] := by
  split
  next hcls => simpa using h.rights hcls
  next => rfl
/-- The fetch of a group's clause answers the clause. -/
theorem State.fetchFor_clause {s q : State} {t : Nat} {is : List Nat} {pc : DWord} {c : Clause} (keep : Bool)
    (hpc : pc.toNat % 8 = 0)
    (h : s.fetchClause (s.team t).core (s.team t).ctx (s.privileged t (is.headD 0)) pc = (q, .clause c)) :
    s.fetchFor t is pc keep = (q, some c) := by
  simp only [State.fetchFor, hpc, ne_eq, not_true_eq_false, if_false, h]

/-- The state in which a fetched clause has had the results written that hold its tokens (R52). -/
def State.tokensSettled (q : State) (t : Nat) (g : Group) (c : Clause) : State :=
  q.settleTokens t (q.warpsOf t g.threads) c.hdr.wait.toNat
/-- No token of a clause's mask counts anything where nothing holds the clause (R52). -/
theorem State.tokensOpen_of_clear {q : State} {t : Nat} {g : Group} {c : Clause} (h : (q.tokensSettled t g c).Clear t g c) :
    (q.tokensSettled t g c).tokensOpen t (q.warpsOf t g.threads) c.hdr.wait.toNat = false := by
  have hws : (q.tokensSettled t g c).warpsOf t g.threads = q.warpsOf t g.threads :=
    (State.SameWarps.settleTokens q t (q.warpsOf t g.threads) c.hdr.wait.toNat).warpsOf t g.threads
  have hzero := h.tokens
  rw [hws] at hzero
  simp only [State.tokensOpen, List.any_eq_false, List.any_eq_true, List.mem_range, Bool.and_eq_true, decide_eq_true_eq,
    not_exists, not_and]
  intro w hw k hk hmask
  rw [hzero w hw k hk hmask]
  exact lt_irrefl 0

/-- A clause that nothing holds, and at whose header no timer is due, starts (R33, R36, R57). -/
theorem State.clauseHeader_starts {s q : State} {t num : Nat} {g : Group} {c : Clause} (h : s.Fetched t num g q c)
    (hc : (q.tokensSettled t g c).Clear t g c) (hd : (q.tokensSettled t g c).timersDue t g.threads = []) :
    s.clauseHeader t num = ((g.threads.foldl (fun (r : State) (i : Nat) =>
      r.modThread t i fun x => { x with skip := 0, noBreak := none }) (q.tokensSettled t g c)).spinClause t num
        (s.thread t (g.threads.headD 0)).pc).take t num g c 0 := by
  have hopen := State.tokensOpen_of_clear hc
  have huser := hc.user_nil
  unfold State.tokensSettled at hd huser hopen
  unfold State.clauseHeader
  simp only [h.may, h.mid, h.spin, h.meet_nil, h.brk, State.fetchFor_clause false h.whole h.fetch, hopen, huser, hd,
    Option.isSome_none, Bool.false_eq_true, if_false] <;> rfl

/-- Home warps whose timers are due at the header of such a clause take WTIMER, and those that enter clear WTCMP (R311). -/
theorem State.clauseHeader_timer {s q : State} {t num : Nat} {g : Group} {c : Clause} (h : s.Fetched t num g q c)
    (hc : (q.tokensSettled t g c).Clear t g c) (hd : (q.tokensSettled t g c).timersDue t g.threads ≠ []) :
    let s' := q.tokensSettled t g c
    let due := s'.timersDue t g.threads
    let mine := g.threads.filter fun i => due.contains ((s.team t).warpOf i)
    let r := s'.raise t (headerReport mine (s.thread t (g.threads.headD 0)).pc { code := fWtimer } none none)
    s.clauseHeader t num = due.foldl (fun (r : State) (v : Nat) =>
      if (mine.any fun i => (s.team t).warpOf i == v && decide ((s'.thread t i).level < (r.thread t i).level))
      then r.modWarp t v fun x => { x with wtcmp := 0 } else r) r := by
  have hopen := State.tokensOpen_of_clear hc
  have huser := hc.user_nil
  obtain ⟨v, vs, hd⟩ := List.exists_cons_of_ne_nil hd
  dsimp only
  rw [hd]
  unfold State.tokensSettled at hd huser hopen
  unfold State.clauseHeader
  simp only [h.may, h.mid, h.spin, h.meet_nil, h.brk, State.fetchFor_clause false h.whole h.fetch, hopen, huser, hd,
    Option.isSome_none, Bool.false_eq_true, if_false] <;> rfl

/-! ### A clause at the issue slot (R36, R203) -/

theorem State.thread_foldl_modWarp {f : Warp → Warp} (s : State) (t u i : Nat) (l : List Nat) :
    (l.foldl (fun (s : State) (w : Nat) => s.modWarp t w f) s).thread u i = s.thread u i :=
  List.foldlRecOn (motive := fun q : State => q.thread u i = s.thread u i) l _ rfl
    fun q hq w _ => (q.thread_modWarp t w u i f).trans hq

/-- The threads of a group that takes the slot stand at the clause's position. -/
theorem State.take_thread {s : State} {t : Nat} (num : Nat) {g : Group} (c : Clause) (p : Nat) {i : Nat} (hi : i ∈ g.threads)
    (hlen : i < (s.team t).threads.length) : ((s.take t num g c p).thread t i).mid = some (c, p) := by
  refine (congrArg Thread.mid (State.thread_foldl_modWarp _ t t i _)).trans ?_
  exact State.thread_foldl_modThread (P := fun x => x.mid = some (c, p)) (fun _ => rfl) hi s hlen

/-- The group is then what its partition issues. -/
theorem State.take_issue {s : State} (t num : Nat) (g : Group) (c : Clause) (p : Nat) (hc : (s.team t).core < s.cores.length)
    (hp : (s.team t).part < (s.core (s.team t).core).issue.length) :
    ((s.take t num g c p).core (s.team t).core).issue.getD (s.team t).part none = some (t, num) := by
  have key : ∀ (r : State) (f : Core → Core), s.TeamsOnly r →
      (f (s.core (s.team t).core)).issue = (s.core (s.team t).core).issue.set (s.team t).part (some (t, num)) →
      ((r.modCore (s.team t).core f).core (s.team t).core).issue.getD (s.team t).part none = some (t, num) := by
    intro r f hr hf
    rw [hr, State.core_modCore, if_pos ⟨rfl, hc⟩]
    refine (congrArg (List.getD · _ none) hf).trans ?_
    simp [List.getD_eq_getElem?_getD, hp]
  exact key _ _ ((State.TeamsOnly.foldl _ _ (fun s i => s.teamsOnly_modThread t i _) s).trans
    (.foldl _ _ (fun s w => s.teamsOnly_modWarp t w _) _)) rfl

/-! ### Spins and wakes (R218 to R220, R239) -/

/-- The loop of a ready group at a header is declared spinning (R218). -/
theorem spinDetect_declares {s : State} {t num : Nat} {g : Group} {d : Spin} (hg : s.group t num = some g)
    (hr : s.ready g = true) (hm : (s.thread t (g.threads.headD 0)).mid = none) (hs : s.spinning t num = some d) :
    exec (.spinDetect t num) s = .next ((g.threads.foldl (fun (r : State) (i : Nat) => r.block t i (.spin d.armed))
      (s.modSpin t num fun _ => none)).tidy t) := by
  simp only [exec, execSpinDetect, hg, hr, hm, Option.isNone_none, and_self, if_true, State.spinDetect, hs]

/-- Threads of a home warp whose waits meet a test. -/
def State.waitingIn (s : State) (t w : Nat) (p : Wait → Bool) : List Nat :=
  ((s.team t).members w).filter fun i => p (s.thread t i).wait

/-- A wake without a write ends the waits of those that watch, or stays for the next WAIT, and ends those that spin (R219, R220). -/
theorem State.spurious_wakes (s : State) (t w : Nat) :
    let watch := s.waitingIn t w fun v => v == .watch
    let spin := s.waitingIn t w fun v => match v with | .spin _ => true | _ => false
    let woken := if watch ≠ [] then (s.modWarp t w fun x => { x with wake := false }).unblock t watch true
      else if (s.warp t w).watches = [] then s else s.modWarp t w fun x => { x with wake := true }
    s.spurious t w = if spin = [] then woken else woken.unblock t spin false := by
  intro watch spin woken
  have hwoken : woken = match watch with
      | _ :: _ => (s.modWarp t w fun x => { x with wake := false }).unblock t watch true
      | [] => if (s.warp t w).watches.isEmpty then s else s.modWarp t w fun x => { x with wake := true } := by
    cases h : watch <;> simp [woken, h, List.isEmpty_iff]
  calc s.spurious t w
    _ = if spin.isEmpty then woken else woken.unblock t spin false := by rw [hwoken]; rfl
    _ = if spin = [] then woken else woken.unblock t spin false := by simp only [List.isEmpty_iff]

/-- Threads of the home warp whose interval has passed go on together (R239). -/
theorem State.sleepOver_of_passed {s : State} {t i n : Nat} (hw : (s.thread t i).wait = .sleep n) (hn : n ≤ s.clk) :
    s.sleepOver t i = s.unblock t (s.waitingIn t ((s.team t).warpOf i) fun v => match v with
      | .sleep n => decide (n ≤ s.clk)
      | _ => false) true := by
  unfold State.sleepOver
  simp only [hw, hn, decide_true, if_true] <;> rfl

/-! ### The obligation -/

/-- Settles O46: a header's tests in the order of R57, then the effect of each step that ends a wait. -/
theorem clausesStartAndWaitsEnd : Obligations.ClausesStartAndWaitsEnd := by
  unfold Obligations.ClausesStartAndWaitsEnd
  intro s t num pc fetched clear settled
  refine ⟨?starts, ?takes, ?spins, fun w => rfl, ?wakes, ?sleeps, ?timer⟩
  case starts =>
    rintro g q c ⟨hmay, hmid, hspin, hmeet, hbrk, hpc, hfetch⟩ ⟨htok, hpriv⟩ hdue
    exact congrArg Host.Outcome.next
      (State.clauseHeader_starts ⟨hmay, hmid, hspin, hmeet, hbrk, hpc, hfetch⟩ ⟨htok, hpriv⟩ hdue)
  case takes =>
    intro g c p m r
    exact ⟨rfl, rfl, fun i hi hlen => State.take_thread num c p hi hlen, State.take_issue t num g c p⟩
  case spins => exact fun g d => spinDetect_declares
  case wakes => exact fun w => congrArg Host.Outcome.next (s.spurious_wakes t w)
  case sleeps => exact fun i n hw hn => congrArg Host.Outcome.next (State.sleepOver_of_passed hw hn)
  case timer =>
    rintro g q c w hg rfl ⟨hmay, hmid, hspin, hmeet, hbrk, hpc, hfetch⟩ ⟨htok, hpriv⟩ hdue
    refine congrArg Host.Outcome.next ?_
    simp only [hg]
    exact (State.clauseHeader_timer ⟨hmay, hmid, hspin, hmeet, hbrk, hpc, hfetch⟩ ⟨htok, hpriv⟩ hdue)

end Sys2Proof.Machine
end

section
/-! Results are written, stores reach their homes, and the engines and the sequencer go on. -/

namespace Sys2Proof.Machine

open Sys2Proof

/-! ### A result (R52) -/

/-- A pending result that has its value is written (R52). -/
theorem State.writeBack_of_value {s : State} {t i key : Nat} {p : Pend} {v : Nat}
    (hp : ((s.thread t i).pend.find? fun p => p.key == key && !p.done && p.value.isSome) = some p) (hv : p.value = some v) :
    s.writeBack t i key =
      let q := s.putReg t i p.dst p.regs v
      let q := match p.pred with | some (k, b) => q.putPred t i k b | none => q
      let q := q.modThread t i fun x => { x with pend := x.pend.map fun q => if q.key = key then { q with done := true } else q }
      match p.token with
      | none => q
      | some k =>
        let m := q.team t
        if (m.members (m.warpOf i)).any fun j => (q.thread t j).pend.any fun r => r.key == key && !r.done then q
        else q.tokAdd t (m.warpOf i) k (· - 1) := by
  unfold State.writeBack
  simp only [hp, hv] <;> rfl

/-! ### A store or a RED that lands (R167) -/

/-- The bytes that a store, or what a RED leaves, puts at its home (R156, R182). -/
def State.landed (s : State) (st : Store) : List Byte := match st.red with
  | none => st.bytes
  | some aop => leBytes st.bytes.length
      (atomResult aop (8 * st.bytes.length) (leValue (s.mem.readN st.pa st.bytes.length)) (leValue st.bytes))

theorem leBytes_length (n v : Nat) : (leBytes n v).length = n := by
  induction n generalizing v with
  | zero => rfl
  | succ n ih => simp [leBytes, ih]
@[simp] theorem State.landed_length (s : State) (st : Store) : (s.landed st).length = st.bytes.length := by
  unfold State.landed
  split
  · rfl
  · exact leBytes_length _ _

@[simp] theorem State.homePut_stores (s : State) (pa : Nat) (bytes : List Byte) : (s.homePut pa bytes).stores = s.stores := by
  unfold State.homePut State.unpoison
  rw [(State.wakesOnly_wakeSectors _ _).1]
  split <;> rfl
@[simp] theorem State.disown_stores (s : State) (keep : Option Nat) (pa n : Nat) : (s.disown keep pa n).stores = s.stores := rfl

/-- A store that lands leaves the list of those on their way. -/
theorem State.land_stores (s : State) (st : Store) : (s.land st).stores = s.stores.filter fun x => x.id != st.id := by
  unfold State.land
  dsimp only
  split <;> simp
/-- Its bytes are then at the home. -/
theorem State.land_mem (s : State) (st : Store) : (s.land st).mem = s.mem.writeN st.pa (s.landed st) := by
  unfold State.land State.landed
  dsimp only
  split
  next aop h => simp [h]
  next h => simp [h]

/-- Bytes written read back, and others as before. -/
theorem Memory.read_writeN {m : Memory} (h : m.wf = true) (a : Nat) (bs : List Byte) (c : Nat) :
    (m.writeN a bs).read c = if a ≤ c ∧ c < a + bs.length then bs.getD (c - a) 0 else m.read c := by
  split
  next hin =>
    obtain ⟨d, rfl⟩ := Nat.exists_eq_add_of_le hin.1
    have hd : d < bs.length := by omega
    rw [Memory.read_writeN_inside h a bs d hd, Nat.add_sub_cancel_left, List.getD_eq_getElem _ _ hd]
  next hout => exact Memory.read_writeN_outside m a bs (by omega)

/-- The bytes of an 8-byte unit lie in one L1 (R155, R161). -/
theorem State.l1Of_unit (s : State) (c pa : Nat) : s.l1Of c (8 * (pa / 8)) = s.l1Of c pa := by
  have h : ∀ k, 8 * (pa / 8) / 2 ^ (k + 3) = pa / 2 ^ (k + 3) := by
    intro k
    rw [Nat.pow_add, Nat.mul_comm (2 ^ k), ← Nat.div_div_eq_div_mul, ← Nat.div_div_eq_div_mul]
    norm_num
  simp only [State.l1Of, l1Slice, h 4, h 7, h 10]

/-- An acknowledged store lands alone where no older store of its L1 is on its way to its unit (R166, R167). -/
theorem State.storeAck_lands {s : State} {st : Store} (hid : (s.stores.filter fun y => y.id == st.id) = [st])
    (hold : ∀ y ∈ s.stores, y.id < st.id → s.l1Of y.core y.pa = s.l1Of st.core st.pa → y.pa / 8 ≠ st.pa / 8) :
    s.storeAck st.id = s.land st := by
  have hfind : (s.stores.find? fun x => x.id == st.id) = some st := by rw [← List.head?_filter, hid]; rfl
  have hmine : (s.stores.filter fun x => s.inUnit st.core (st.pa / 8) x && decide (x.id ≤ st.id)) = [st] := by
    rw [← hid]
    refine List.filter_congr fun y hy => Bool.eq_iff_iff.mpr ?_
    simp only [State.inUnit, State.l1Of_unit, Bool.and_eq_true, beq_iff_eq, decide_eq_true_eq]
    constructor
    · rintro ⟨⟨hunit, hl1⟩, hle⟩
      by_contra hne
      exact hold y hy (lt_of_le_of_ne hle hne) hl1 hunit
    · intro he
      have hy : y ∈ s.stores.filter fun y => y.id == st.id := List.mem_filter.mpr ⟨hy, by simp [he]⟩
      rw [hid, List.mem_singleton] at hy
      subst hy
      exact ⟨⟨rfl, rfl⟩, le_refl _⟩
  simp only [State.storeAck, hfind, State.ackStore, hmine, List.foldl_cons, List.foldl_nil]

/-! ### A dirty register (R212) -/

/-- A dirty register of a resident home warp goes to its save area and is clean. -/
theorem State.writeDirty_saves {s : State} {t w key : Nat} (hr : (s.warp t w).resident = true) (hk : key ∈ (s.team t).regKeys)
    (hc : key ∉ (s.warp t w).clean) :
    s.writeDirty t w key = (s.saveReg t w key).modWarp t w fun x => { x with clean := x.clean ++ [key] } := by
  unfold State.writeDirty
  simp only [hr, List.contains_iff_mem, hk, hc, not_false_eq_true, and_self, if_true]

/-! ### A product's K row (R141) -/

/-- A search that some element answers, and that every element that answers it answers alike, gives that answer. -/
theorem findSome?_eq_of_unique {α β : Type} {f : α → Option β} {l : List α} {a : α} {b : β} (ha : a ∈ l) (hb : f a = some b)
    (hu : ∀ x ∈ l, ∀ y, f x = some y → y = b) : l.findSome? f = some b := by
  cases h : l.findSome? f with
  | none => rw [List.findSome?_eq_none_iff.mp h a ha] at hb; cases hb
  | some y =>
    obtain ⟨x, hx, hy⟩ := List.exists_of_findSome?_eq_some h
    rw [hu x hx y hy]

/-- A command of a sequencer is found at its place by its number, where no other has the number. -/
theorem State.seqPlace_of_unique {s : State} {c p : Nat} {q : SeqCmd} (hc : c < s.cores.length) (hp : p < 4)
    (hq : q ∈ s.seqOf c p)
    (hu : ∀ c' p', c' < s.cores.length → p' < 4 → ∀ y ∈ s.seqOf c' p', y.id = q.id → c' = c ∧ p' = p ∧ y = q) :
    (((List.range s.cores.length).flatMap fun c => (List.range 4).map fun p => (c, p)).findSome? fun e =>
      ((s.seqOf e.1 e.2).find? fun y => y.id == q.id).map fun y => (e, y)) = some ((c, p), q) := by
  have hfound : ∀ c' p' y, c' < s.cores.length → p' < 4 → ((s.seqOf c' p').find? fun y => y.id == q.id) = some y →
      c' = c ∧ p' = p ∧ y = q := fun c' p' y hc' hp' hy =>
    hu c' p' hc' hp' y (List.mem_of_find?_eq_some hy) (by simpa using List.find?_some hy)
  refine findSome?_eq_of_unique (a := (c, p)) (by simp [hc, hp]) ?_ ?_
  · cases h : (s.seqOf c p).find? fun y => y.id == q.id with
    | none => simpa using List.find?_eq_none.mp h q hq
    | some y => rw [(hfound c p y hc hp h).2.2]; rfl
  · rintro ⟨c', p'⟩ hx e he
    obtain ⟨y, hy, rfl⟩ := Option.map_eq_some_iff.mp he
    have hx : c' < s.cores.length ∧ p' < 4 := by simpa using hx
    obtain ⟨rfl, rfl, rfl⟩ := hfound c' p' y hx.1 hx.2 hy
    rfl

/-- A product that nothing stands before runs its next row (R141). -/
theorem State.kRow_runs {s r : State} {c p : Nat} {q : SeqCmd} {x : Product} (hc : c < s.cores.length) (hp : p < 4)
    (hq : q ∈ s.seqOf c p) (hx : q.op = .product x)
    (hu : ∀ c' p', c' < s.cores.length → p' < 4 → ∀ y ∈ s.seqOf c' p', y.id = q.id → c' = c ∧ p' = p ∧ y = q)
    (hguard : x.guard = none) (hout : s.isOut q.gang.team = false) (hhalt : (s.core c).halted = false)
    (hbefore : s.seqBefore c p q.gang (some q.id) q.bank q.count = []) (hrow : s.runRow c p q x = (r, .row)) :
    s.kRow q.id = r := by
  unfold State.kRow
  simp only [State.seqPlace_of_unique hc hp hq hu, hx, hguard, hout, hhalt, hbefore, hrow, Option.isSome_none, List.isEmpty_nil,
    not_true_eq_false, Bool.false_eq_true, or_self, if_false]

/-! ### Engines (R195, R200) -/

/-- The engine moves a block of a copy, and counts its bytes (R159, R195). -/
theorem copyTransfer_moves {s r : State} {c d : Cmd} {dst src n piece : Nat} (hop : c.op = .cpy dst src n)
    (hc : (s.cmds.find? fun d => d.id == c.id) = some c) (hheld : s.heldBy c = []) (hp : piece ∈ c.todo)
    (hm : s.moveBytes c (fun _ => false) ((inBlock dst n piece).map fun (a : Nat) =>
      ((a : Int), some ((src + (a - dst) : Nat) : Int))) = .moved r d) :
    exec (.copyTransfer c.id piece) s =
      let q := r.count (d.note none) (inBlock dst n piece).length (d.todo.all (· == piece))
      .next ((q.1.setCmd q.2).pieceDone q.2 piece) := by
  simp only [exec, execCopyTransfer, hc, hheld, List.isEmpty_nil, if_true, State.transfer, hop, List.contains_iff_mem, hp,
    not_true_eq_false, if_false, hm]

/-- A walk that is not at its last hop makes one and goes on from where it leads (R200). -/
theorem walkHop_goes {s r : State} {c : Cmd} {desc h u v : Nat} {d : List Nat}
    (hc : (s.cmds.find? fun d => d.id == c.id) = some c) (hheld : s.heldBy c = []) (hop : c.op = .walk desc d h u) (hd : d ≠ [])
    (hahead : s.walksAhead c < 3072)
    (hhop : (if walkMode d = 1 then (s.settleThread c.team c.lead).csrHop c.team d h u
      else (s.settleThread c.team c.lead).chainHop c.team d h u) = .ok (.on r v)) (hlast : h + 1 < walkHops d) :
    exec (.walkHop c.id) s = .next (r.setCmd { c with op := .walk desc d (h + 1) v }) := by
  obtain ⟨w, ws, rfl⟩ := List.exists_cons_of_ne_nil hd
  simp only [exec, execWalkHop, hc, hheld, List.isEmpty_nil, if_true, State.hop, Nat.not_le.mpr hahead, if_false, hop, hhop,
    Nat.not_le.mpr hlast]

/-! ### The obligation -/

/-- Settles O47: each clause is the lemma of its step. -/
theorem resultsStoresAndEnginesComplete : Obligations.ResultsStoresAndEnginesComplete := by
  unfold Obligations.ResultsStoresAndEnginesComplete
  intro s
  refine ⟨?result, ?store, ?dirty, ?row, ?copy, ?walk⟩
  case result =>
    intro t i key p v hp hv
    exact congrArg Host.Outcome.next (State.writeBack_of_value hp hv)
  case store =>
    intro st hid hold n new
    refine ⟨s.land st, congrArg Host.Outcome.next (State.storeAck_lands hid hold), ?_, fun hwf a => ?_⟩
    · simp [State.land_stores]
    · rw [State.land_mem, Memory.read_writeN hwf, State.landed_length]
      rfl
  case dirty =>
    intro t w key hres hkey hclean
    exact congrArg Host.Outcome.next (State.writeDirty_saves hres hkey hclean)
  case row =>
    intro c p q x hc hp hq hx hu hguard hout hhalt hbefore r hrow
    exact congrArg Host.Outcome.next (State.kRow_runs hc hp hq hx hu hguard hout hhalt hbefore hrow)
  case copy =>
    intro c dst src n piece hop hc hheld hp ds r d hm
    exact copyTransfer_moves hop hc hheld hp hm
  case walk =>
    intro c desc d h u r v hc hheld hop hd hahead s' hhop hlast
    exact walkHop_goes hc hheld hop hd hahead hhop hlast

end Sys2Proof.Machine
end

section
/-! Words whose result is an exact integer: what the arithmetic words give each thread. -/

namespace Sys2Proof.Machine

open Sys2Proof

/-! ### Integer words (R83, R104) -/

/-- A word that stands meets its tests of TYPE and CTL (R56). -/
theorem Stands.typed {s : State} {k : Iss} {i : Instr} {c d : Common} {ty ctl : Bool} (h : Stands s k i c)
    (hm : isMma i = false) (hc : i.common = some d) (hf : i.fieldCase = aCase ty ctl) : ty = true ∧ ctl = true := by
  have hcase : aCase ty ctl = none := hf.symm.trans (h.fields hm hc)
  have hall := Laws.Encodes.firstCase_all hcase
  exact ⟨hall (ty, .value) (by simp), hall (ctl, .value) (by simp)⟩

/-- A signed TYPE is an integer TYPE. -/
theorem tyInt_of_tySigned {ty : BitVec 4} (h : tySigned ty = true) : tyInt ty = true := by
  revert h; revert ty; decide

/-- Where CTL is 0 or 1, it is 1 where its bit 0 is set (R45). -/
theorem ctl_bit0_of_ctlSat {w : FA} (h : ctlSat w = true) : w.ctl.getLsbD 0 = (w.ctl == 1) := by
  have hle : w.ctl.toNat ≤ 1 := by simpa [ctlSat] using h
  have hcases : w.ctl = 0 ∨ w.ctl = 1 := by bv_omega
  rcases hcases with h | h <;> rw [h] <;> rfl

theorem ctl_bit0_of_ctl0 {w : FA} (h : ctl0 w = true) : w.ctl.getLsbD 0 = false := by
  have hctl : w.ctl = 0 := by simpa [ctl0] using h
  rw [hctl]; rfl

/-- An element-wise word gives each thread its function's value, in whatever way that is written of a word that stands. -/
theorem alu_gives {i : Instr} {w : FA} {n : Nat} {g : State → Nat → Nat → Nat} (f : State → Nat → Nat → Nat)
    (he : ∀ s, exec i s = alu i w n f s) (hb : isBrk i = false) (hfg : ∀ s k, Stands s k i w.c → f = g) : GivesValue i w.c w.dst n g := by
  intro s k h
  rw [he, alu_stands h hb, hfg s k h]

/-- A word whose result is an exact integer gives it narrowed or clamped to TYPE (R83), where its tests take an integer TYPE and
let bit 0 of CTL alone say which. -/
theorem arith_gives {i : Instr} {w : FA} {ty ctl sat : Bool} {g : State → Nat → Nat → Int} (f : State → Nat → Nat → Int)
    (he : ∀ s, exec i s = arith i w f s) (hm : isMma i = false) (hc : i.common = some w.c)
    (hcase : i.fieldCase = aCase ty ctl) (hty : ty = true → tyInt w.ty = true)
    (hsat : ctl = true → w.ctl.getLsbD 0 = sat) (hfg : ∀ s t x, f s t x = g s t x) :
    GivesValue i w.c w.dst (tyRegs w.ty) fun s t x => intResult w.ty sat (g s t x) := by
  refine alu_gives _ he (isBrk_of_common hc) fun s k h => ?_
  obtain ⟨hT, hC⟩ := h.typed hm hc hcase
  funext s t x
  rw [narrow_eq_intResult _ _ _ (hty hT), hsat hC, hfg]

/-- The high half of 2n bits of an integer (R104). -/
theorem ibits_ediv_eq (n : Nat) (p : Int) : ibits (p / 2 ^ n) n = (BitVec.ofInt (2 * n) p).toNat / 2 ^ n := by
  have hsplit : p % 2 ^ (2 * n) / 2 ^ n = p / 2 ^ n % 2 ^ n := by
    have hpos : (2 : Int) ^ n ≠ 0 := by positivity
    rw [two_mul, pow_add, Int.emod_def, sub_eq_add_neg, mul_assoc, ← mul_neg, Int.add_mul_ediv_left _ _ hpos,
      ← Int.ediv_ediv_of_nonneg (by positivity), Int.emod_def, sub_eq_add_neg]
  have hnonneg : 0 ≤ p % 2 ^ (2 * n) := Int.emod_nonneg _ (by positivity)
  apply Int.ofNat_inj.mp
  rw [ibits, ← hsplit, BitVec.toNat_ofInt]
  push_cast
  rw [Int.toNat_of_nonneg hnonneg, Int.toNat_of_nonneg (by positivity)]

/-- No bits are filled above a result of 32 bits or more (R83). -/
theorem fillTy_ibits_of_tyWide {ty : BitVec 4} (h : tyWide ty = true) (p : Int) :
    fillTy ty (ibits p (tyBits ty)) = ibits p (tyBits ty) := by
  have hn : ¬ tyBits ty < 32 := by revert h; revert ty; decide
  have hlt : ibits p (tyBits ty) < 2 ^ tyBits ty := by
    rw [ibits, Int.toNat_lt (Int.emod_nonneg _ (by positivity))]
    exact_mod_cast Int.emod_lt_of_pos p (by positivity)
  simp only [fillTy, hn, false_and, if_false, Nat.mod_eq_of_lt hlt]

/-- Settles O1: the words but MULH and MADW give an exact integer narrowed or clamped (`arith_gives`); those two keep the high half
and the low 64 bits of one. -/
theorem integerArithmeticGivesExactResult : Obligations.IntegerArithmeticGivesExactResult := by
  unfold Obligations.IntegerArithmeticGivesExactResult
  intro w
  have hint {i : Instr} (f : State → Nat → Nat → Int) (he : ∀ s, exec i s = arith i w f s) (hm : isMma i = false)
      (hc : i.common = some w.c) (hcase : i.fieldCase = aCase (tyInt w.ty) (ctlSat w)) :
      GivesValue i w.c w.dst (tyRegs w.ty) fun s t x => intResult w.ty (w.ctl == 1) (f s t x) :=
    arith_gives f he hm hc hcase id ctl_bit0_of_ctlSat fun _ _ _ => rfl
  refine ⟨hint (fun s t x => s.ia w t x + s.ib w t x) (fun _ => rfl) rfl rfl rfl,
    hint (fun s t x => s.ia w t x - s.ib w t x) (fun _ => rfl) rfl rfl rfl,
    hint (fun s t x => s.ia w t x * s.ib w t x) (fun _ => rfl) rfl rfl rfl,
    hint (fun s t x => s.ia w t x * s.ib w t x + s.ic w t x) (fun _ => rfl) rfl rfl rfl,
    hint (fun s t x => -s.ia w t x) (fun _ => rfl) rfl rfl rfl, ?abs, ?min, ?max, ?mulh, ?madw⟩
  case abs =>
    refine arith_gives (fun s t x => ((s.ia w t x).natAbs : Int)) (fun _ => rfl) rfl rfl rfl tyInt_of_tySigned
      ctl_bit0_of_ctlSat fun s t x => ?_
    split <;> omega
  case min =>
    exact arith_gives (fun s t x => min (s.ia w t x) (s.ib w t x)) (fun _ => rfl) rfl rfl rfl id ctl_bit0_of_ctl0
      fun s t x => min_def _ _
  case max =>
    exact arith_gives (fun s t x => max (s.ia w t x) (s.ib w t x)) (fun _ => rfl) rfl rfl rfl id ctl_bit0_of_ctl0
      fun s t x => max_def _ _
  case mulh =>
    refine alu_gives (fun s t x => fillTy w.ty (ibits (s.ia w t x * s.ib w t x / 2 ^ tyBits w.ty) (tyBits w.ty)))
      (fun _ => rfl) rfl fun s k h => ?_
    obtain ⟨hty, -⟩ := h.typed rfl rfl rfl
    funext s t x
    rw [fillTy_ibits_of_tyWide hty, ibits_ediv_eq]
  case madw =>
    refine alu_gives (fun s t x => ibits (s.ia w t x * s.ib w t x + (s.opnd t x w.sc 2 : Nat)) 64)
      (fun _ => rfl) rfl fun s k h => ?_
    funext s t x
    rw [BitVec.toNat_ofInt]
    rfl

end Sys2Proof.Machine
end

section
/-! Exact sums of products: the three residue channels of R94 recover a dot product that lies in their range. -/

namespace Sys2Proof.Machine

open Sys2Proof

/-! ### A channel holds the dot product's residue (R94) -/

/-- Additions reduced one by one reduce the sum. -/
theorem foldl_add_emod (m : Int) (l : List Int) (a : Int) :
    (l.foldl (fun a b => (a + b) % m) (a % m)) = (a + l.sum) % m := by
  induction l generalizing a with
  | nil => simp
  | cons b l ih => rw [List.foldl_cons, Int.emod_add_emod, ih, List.sum_cons, add_assoc]

/-- Products of residues sum to the dot product's residue. -/
theorem sum_emod_mul_emod (m : Int) (xs ys : List Int) :
    (((xs.zip ys).map fun p => p.1 % m * (p.2 % m)).sum) % m = dot xs ys % m := by
  induction xs generalizing ys with
  | nil => simp [dot]
  | cons x xs ih =>
    cases ys with
    | nil => simp [dot]
    | cons y ys =>
      rw [List.zip_cons_cons, List.map_cons, List.sum_cons, dot, Int.add_emod, ih, ← Int.mul_emod, ← Int.add_emod]

theorem channel_eq_dot_emod (m : Int) (xs ys : List Int) :
    (((xs.zip ys).map fun p => p.1 % m * (p.2 % m)).foldl (fun a b => (a + b) % m) 0) = dot xs ys % m := by
  have h := foldl_add_emod m ((xs.zip ys).map fun p => p.1 % m * (p.2 % m)) 0
  rwa [Int.zero_emod, zero_add, sum_emod_mul_emod] at h

/-! ### The range of a dot product -/

/-- A dot product of n elements up to b in magnitude is at most n times b². -/
theorem abs_dot_le {b : Int} {xs : List Int} (ys : List Int) (hx : ∀ x ∈ xs, |x| ≤ b) (hy : ∀ y ∈ ys, |y| ≤ b) :
    |dot xs ys| ≤ xs.length * (b * b) := by
  induction xs generalizing ys with
  | nil => simp [dot]
  | cons x xs ih =>
    cases ys with
    | nil => simpa only [dot, abs_zero] using mul_nonneg (Int.natCast_nonneg (x :: xs).length) (mul_self_nonneg b)
    | cons y ys =>
      obtain ⟨hx0, hxs⟩ := List.forall_mem_cons.mp hx
      obtain ⟨hy0, hys⟩ := List.forall_mem_cons.mp hy
      have hb : 0 ≤ b := (abs_nonneg x).trans hx0
      calc |dot (x :: xs) (y :: ys)|
        _ ≤ |x * y| + |dot xs ys| := abs_add_le _ _
        _ = |x| * |y| + |dot xs ys| := by rw [abs_mul]
        _ ≤ b * b + xs.length * (b * b) := add_le_add (mul_le_mul hx0 hy0 (abs_nonneg y) hb) (ih ys hxs hys)
        _ = (x :: xs).length * (b * b) := by push_cast [List.length_cons]; ring

/-- As `abs_dot_le`, for rows of at most n elements. -/
theorem abs_dot_le_of_length {b : Int} {n : Nat} {xs : List Int} (ys : List Int) (hn : xs.length ≤ n)
    (hx : ∀ x ∈ xs, |x| ≤ b) (hy : ∀ y ∈ ys, |y| ≤ b) : |dot xs ys| ≤ n * (b * b) :=
  (abs_dot_le ys hx hy).trans (mul_le_mul_of_nonneg_right (Int.ofNat_le.mpr hn) (mul_self_nonneg b))

/-- The rows of R94 keep the dot product in the range that the channels tell apart. -/
theorem abs_dot_lt_of_rows {xs ys : List Int}
    (h : (xs.length ≤ 128 ∧ (∀ x ∈ xs, -128 ≤ x ∧ x ≤ 127) ∧ (∀ y ∈ ys, -128 ≤ y ∧ y ≤ 127)) ∨
      (xs.length ≤ 256 ∧ (∀ x ∈ xs, -8 ≤ x ∧ x ≤ 7) ∧ (∀ y ∈ ys, -8 ≤ y ∧ y ≤ 7)) ∨
      (xs.length ≤ 64 ∧ (∀ x ∈ xs, -255 ≤ x ∧ x ≤ 255) ∧ (∀ y ∈ ys, -255 ≤ y ∧ y ≤ 255))) :
    |dot xs ys| < 8388480 := by
  have hin {l : List Int} {lo hi b : Int} (hl : ∀ x ∈ l, lo ≤ x ∧ x ≤ hi) (hlo : -b ≤ lo) (hhi : hi ≤ b) :
      ∀ x ∈ l, |x| ≤ b :=
    fun x hx => abs_le.mpr ⟨hlo.trans (hl x hx).1, (hl x hx).2.trans hhi⟩
  rcases h with ⟨hn, hx, hy⟩ | ⟨hn, hx, hy⟩ | ⟨hn, hx, hy⟩
  · exact (abs_dot_le_of_length (b := 128) ys hn (hin hx (by decide) (by decide)) (hin hy (by decide) (by decide))).trans_lt
      (by decide)
  · exact (abs_dot_le_of_length (b := 8) ys hn (hin hx (by decide) (by decide)) (hin hy (by decide) (by decide))).trans_lt
      (by decide)
  · exact (abs_dot_le_of_length (b := 255) ys hn (hin hx (by decide) (by decide)) (hin hy (by decide) (by decide))).trans_lt
      (by decide)

/-! ### Recombination (R94) -/

/-- The weights of R94 add residues to 255, 256 and 257 up to the residue to their product. -/
theorem residues_recombine (d : Int) :
    (d % 255 * 65792 * 128 + d % 256 * 65535 * 255 + d % 257 * 65280 * 129) % 16776960 = d % 16776960 := by
  omega

/-- Half of the product's residues stand for negative integers. -/
theorem centered_emod {d : Int} (h : |d| < 8388480) :
    (if 8388480 ≤ d % 16776960 then d % 16776960 - 16776960 else d % 16776960) = d := by
  rw [abs_lt] at h
  split <;> omega

/-- Settles O34: each channel holds the dot product's residue, and their recombination is exact in the range of the rows. -/
theorem residueChannelsGiveTheExactDotProduct : Obligations.ResidueChannelsGiveTheExactDotProduct := by
  unfold Obligations.ResidueChannelsGiveTheExactDotProduct
  intro xs ys _ hrows channel y x
  have hx : x = dot xs ys := by
    have hy : y = dot xs ys % 16776960 := by
      simp only [y, channel, channel_eq_dot_emod, residues_recombine]
    simp only [x, hy, centered_emod (abs_dot_lt_of_rows hrows)]
  rw [hx]
  exact ⟨rfl, fun c ea eb => rfl⟩

end Sys2Proof.Machine
end

section
/-! NaN and infinity in float arithmetic, and rounding: the result of one rounding lies beside the exact value, on the side that the
mode asks for. -/

namespace Sys2Proof.Machine

open Sys2Proof

/-! ### NaN and infinities (R79, R112) -/

@[simp] theorem FVal.mul_nan (v : FVal) : v.mul .nan = .nan := by cases v <;> rfl
@[simp] theorem FVal.nan_mul (v : FVal) : FVal.nan.mul v = .nan := by cases v <;> rfl
@[simp] theorem FVal.neg_nan : FVal.nan.neg = .nan := rfl

theorem Fm.addAll_of_nan (f : Fm) (rm : Rm) (ftz : Bool) {vs : List FVal} (h : .nan ∈ vs) : f.addAll rm ftz vs = f.nan := by
  have hany : vs.any (· == .nan) = true := List.any_eq_true.mpr ⟨.nan, h, by decide⟩
  simp only [Fm.addAll, hany, Bool.true_or, if_true]

/-- Infinities of both signs have no sum. -/
theorem Fm.addAll_of_infs (f : Fm) (rm : Rm) (ftz : Bool) {vs : List FVal} (hpos : .inf false ∈ vs) (hneg : .inf true ∈ vs) :
    f.addAll rm ftz vs = f.nan := by
  have hp : vs.any (· == .inf false) = true := List.any_eq_true.mpr ⟨_, hpos, by decide⟩
  have hn : vs.any (· == .inf true) = true := List.any_eq_true.mpr ⟨_, hneg, by decide⟩
  simp only [Fm.addAll, hp, hn, Bool.and_true, Bool.or_true, if_true]

/-- An infinity and a finite value sum to the infinity. -/
theorem Fm.addAll_inf_fin (f : Fm) (rm : Rm) (ftz neg bneg : Bool) (m : Nat) (e : Int) :
    f.addAll rm ftz [.inf neg, .fin bneg m e] = f.zero neg + f.inf := by
  cases neg <;> simp [Fm.addAll, Fm.zero]

section
variable {f : Fm} {rm : Rm} {ftz : Bool} {a : Nat} (h : f.read ftz a = .nan)
include h

/-- An operation on a NaN gives the canonical NaN. -/
theorem Fm.operations_of_nan (b : Nat) : f.add rm ftz a b = f.nan ∧ f.add rm ftz b a = f.nan ∧ f.sub rm ftz a b = f.nan ∧
    f.sub rm ftz b a = f.nan ∧ f.mul rm ftz a b = f.nan ∧ f.mul rm ftz b a = f.nan ∧ f.rnd rm ftz a = f.nan ∧
    f.rcp rm ftz a = f.nan ∧ f.sqrt rm ftz a = f.nan ∧ f.rsq rm ftz a = f.nan := by
  exact ⟨f.addAll_of_nan _ _ (by simp [h]), f.addAll_of_nan _ _ (by simp [h]), f.addAll_of_nan _ _ (by simp [h]),
    f.addAll_of_nan _ _ (by simp [h]), by simp [Fm.mul, h, Fm.put], by simp [Fm.mul, h, Fm.put], by simp [Fm.rnd, h, Fm.put],
    by simp [Fm.rcp, h], by simp [Fm.sqrt, h], by simp [Fm.rsq, h]⟩
theorem Fm.fma_of_nan (b c : Nat) : f.fma rm ftz a b c = f.nan ∧ f.fma rm ftz b a c = f.nan ∧ f.fma rm ftz b c a = f.nan :=
  ⟨f.addAll_of_nan _ _ (by simp [h]), f.addAll_of_nan _ _ (by simp [h]), f.addAll_of_nan _ _ (by simp [h])⟩

end

/-! ### The magnitudes of a format, in the order of their bits (R77) -/

/-- What the bits of a magnitude stand for: `c` counts from zero in the order of the magnitudes, and goes on past the largest
finite one as if the exponent field were wider. -/
def Fm.mag (f : Fm) (c : Nat) : ℚ :=
  if c < 2 ^ f.mb then c * 2 ^ f.qmin else (2 ^ f.mb + c % 2 ^ f.mb : Nat) * 2 ^ (f.qmin + (c / 2 ^ f.mb - 1 : Nat))

/-- Every magnitude has a significand below 2^(mb + 1), and one of at least 2^mb unless its exponent is the lowest. -/
theorem Fm.exists_significand (f : Fm) (c : Nat) :
    ∃ k n, c = k * 2 ^ f.mb + n ∧ n < 2 ^ (f.mb + 1) ∧ (k = 0 ∨ 2 ^ f.mb ≤ n) := by
  have hsplit := Nat.div_add_mod' c (2 ^ f.mb)
  have hlt := Nat.mod_lt c (Nat.two_pow_pos f.mb)
  rw [pow_succ]
  rcases Nat.eq_zero_or_pos (c / 2 ^ f.mb) with h0 | hpos
  · exact ⟨0, c % 2 ^ f.mb, by simpa [h0] using hsplit.symm, by omega, .inl rfl⟩
  · obtain ⟨k, hk⟩ := Nat.exists_eq_add_of_lt hpos
    refine ⟨k, 2 ^ f.mb + c % 2 ^ f.mb, ?_, by omega, .inr (by omega)⟩
    rw [hk, zero_add, Nat.succ_mul] at hsplit
    omega

/-- A significand at an exponent gives the magnitude; a significand that reaches 2^(mb + 1) carries into the exponent. -/
theorem Fm.mag_significand (f : Fm) {k n : Nat} (hn : n ≤ 2 ^ (f.mb + 1)) (hk : k = 0 ∨ 2 ^ f.mb ≤ n) :
    f.mag (k * 2 ^ f.mb + n) = n * 2 ^ (f.qmin + k) := by
  have hpos := Nat.two_pow_pos f.mb
  rcases Nat.lt_or_ge n (2 ^ f.mb) with hlt | hge
  · obtain rfl : k = 0 := hk.resolve_right (by omega)
    simp [Fm.mag, hlt]
  rcases Nat.lt_or_ge n (2 ^ (f.mb + 1)) with hlt | htop
  · have hval : k * 2 ^ f.mb + n = (n - 2 ^ f.mb) + 2 ^ f.mb * (k + 1) := by rw [mul_add, mul_comm]; omega
    have hrest : n - 2 ^ f.mb < 2 ^ f.mb := by rw [pow_succ] at hlt; omega
    have hbig : ¬ k * 2 ^ f.mb + n < 2 ^ f.mb := by omega
    rw [Fm.mag, if_neg hbig, hval, Nat.add_mul_mod_self_left, Nat.add_mul_div_left _ _ hpos, Nat.mod_eq_of_lt hrest,
      Nat.div_eq_of_lt hrest, show 2 ^ f.mb + (n - 2 ^ f.mb) = n by omega, show 0 + (k + 1) - 1 = k by omega]
  · obtain rfl : n = 2 ^ (f.mb + 1) := le_antisymm hn htop
    have hval : k * 2 ^ f.mb + 2 ^ (f.mb + 1) = 2 ^ f.mb * (k + 2) := by ring
    have hbig : ¬ 2 ^ f.mb * (k + 2) < 2 ^ f.mb := by nlinarith
    rw [hval, Fm.mag, if_neg hbig, Nat.mul_mod_right, Nat.mul_div_cancel_left _ hpos, show k + 2 - 1 = k + 1 by omega]
    push_cast
    rw [← add_assoc, zpow_add_one₀ two_ne_zero, pow_succ]
    ring

@[simp] theorem Fm.mag_zero (f : Fm) : f.mag 0 = 0 := by simp [Fm.mag]

theorem Fm.mag_strictMono (f : Fm) : StrictMono f.mag := by
  refine strictMono_nat_of_lt_succ fun c => ?_
  obtain ⟨k, n, rfl, hn, hk⟩ := f.exists_significand c
  rw [add_assoc, f.mag_significand hn.le hk, f.mag_significand hn (hk.imp_right fun h => by omega)]
  push_cast
  exact mul_lt_mul_of_pos_right (lt_add_one _) (by positivity)

/-! ### What the bits of a value hold (R77) -/

/-- The magnitude that a read value has, if it is finite. -/
def FVal.magnitude : FVal → Option ℚ
  | .fin _ n q => some (n * 2 ^ q)
  | _ => none

theorem Fm.fields_eq (f : Fm) (v : Nat) :
    f.fields v = (v / f.signBit % 2 == 1, v % f.signBit / 2 ^ f.mb, v % f.signBit % 2 ^ f.mb) := by
  have hsign : f.signBit = 2 ^ f.mb * 2 ^ f.eb := by rw [Fm.signBit, pow_add, mul_comm]
  rw [Fm.fields, hsign, Nat.mod_mul_right_div_self, Nat.mod_mul_right_mod]

theorem Fm.top_pos (f : Fm) (heb : 1 ≤ f.eb) : 0 < f.top := Nat.sub_pos_of_lt (Nat.one_lt_two_pow (by omega))
theorem Fm.inf_pos (f : Fm) (heb : 1 ≤ f.eb) : 0 < f.inf := Nat.mul_pos (f.top_pos heb) (Nat.two_pow_pos _)
theorem Fm.inf_lt_signBit (f : Fm) : f.inf < f.signBit := by
  rw [Fm.inf, Fm.top, Fm.signBit, pow_add]
  exact Nat.mul_lt_mul_of_pos_right (by have := Nat.two_pow_pos f.eb; omega) (Nat.two_pow_pos _)

/-- A magnitude is below that of infinity where its exponent field is not the largest. -/
theorem Fm.lt_inf_iff (f : Fm) (c : Nat) : c < f.inf ↔ c / 2 ^ f.mb < f.top :=
  (Nat.div_lt_iff_lt_mul (Nat.two_pow_pos _)).symm

/-- The bits of the magnitude say whether a value is finite, and which; an infinity has those of `Fm.inf` and a sign. -/
theorem Fm.read_cases (f : Fm) (v : Nat) :
    (v % f.signBit < f.inf ∧ (f.read false v).magnitude = some (f.mag (v % f.signBit))) ∨
    (v % f.signBit = f.inf ∧ f.read false v = .inf (v / f.signBit % 2 == 1)) ∨
    (f.inf < v % f.signBit ∧ f.read false v = .nan) := by
  simp only [Fm.read, f.fields_eq]
  set c := v % f.signBit
  have hpos := Nat.two_pow_pos f.mb
  have hsplit := Nat.div_add_mod' c (2 ^ f.mb)
  have htop : c / 2 ^ f.mb ≤ f.top := by
    have hlt : c < 2 ^ f.eb * 2 ^ f.mb := by
      rw [← pow_add]
      exact Nat.mod_lt _ (Nat.two_pow_pos _)
    have := (Nat.div_lt_iff_lt_mul hpos).mpr hlt
    rw [Fm.top]
    omega
  rcases htop.lt_or_eq with hlt | heq
  · refine .inl ⟨(f.lt_inf_iff c).mpr hlt, ?_⟩
    rw [if_neg hlt.ne]
    rcases Nat.eq_zero_or_pos (c / 2 ^ f.mb) with h0 | he
    · have hsub : c < 2 ^ f.mb := (Nat.div_eq_zero_iff_lt hpos).mp h0
      simp [h0, FVal.magnitude, Fm.mag, hsub, Nat.mod_eq_of_lt hsub]
    · have hnorm : ¬ c < 2 ^ f.mb := fun h => he.ne' (Nat.div_eq_of_lt h)
      rw [if_neg he.ne', FVal.magnitude, Fm.mag, if_neg hnorm, Nat.cast_sub he, Nat.cast_one]
  · rw [if_pos heq]
    rw [heq] at hsplit
    rcases Nat.eq_zero_or_pos (c % 2 ^ f.mb) with h0 | hm
    · exact .inr (.inl ⟨by rw [Fm.inf]; omega, if_pos h0⟩)
    · exact .inr (.inr ⟨by rw [Fm.inf]; omega, if_neg hm.ne'⟩)

theorem Fm.magnitude_eq_some_iff (f : Fm) (v : Nat) (z : ℚ) :
    (f.read false v).magnitude = some z ↔ v % f.signBit < f.inf ∧ f.mag (v % f.signBit) = z := by
  rcases f.read_cases v with ⟨hc, hr⟩ | ⟨hc, hr⟩ | ⟨hc, hr⟩
  · rw [hr, Option.some_inj, and_iff_right hc]
  · simp [hr, hc, FVal.magnitude]
  · simp [hr, hc.not_gt, FVal.magnitude]

theorem Fm.read_eq_inf_iff (f : Fm) (v : Nat) (neg : Bool) :
    f.read false v = .inf neg ↔ v % f.signBit = f.inf ∧ (v / f.signBit % 2 == 1) = neg := by
  rcases f.read_cases v with ⟨hc, hr⟩ | ⟨hc, hr⟩ | ⟨hc, hr⟩
  · have hfin : f.read false v ≠ .inf neg := fun h => by rw [h] at hr; cases hr
    simp [hfin, hc.ne]
  · rw [hr, FVal.inf.injEq, and_iff_right hc]
  · simp [hr, hc.ne']

/-! A magnitude below the sign bit, with a sign. -/

section
variable {f : Fm} {c : Nat} (hc : c < f.signBit) (neg : Bool)
include hc

theorem Fm.zero_add_mod_signBit : (f.zero neg + c) % f.signBit = c := by
  cases neg <;> simp [Fm.zero, Nat.mod_eq_of_lt hc]
theorem Fm.zero_add_sign : ((f.zero neg + c) / f.signBit % 2 == 1) = neg := by
  have hpos : 0 < f.signBit := by omega
  cases neg <;> simp [Fm.zero, Nat.div_eq_of_lt hc, Nat.add_div_left _ hpos]
theorem Fm.signBit_le_zero_add : decide (f.signBit ≤ f.zero neg + c) = neg := by
  cases neg <;> simp [Fm.zero, hc]
theorem Fm.zero_add_lt : f.zero neg + c < 2 ^ f.width := by
  have hwidth : 2 ^ f.width = f.signBit + f.signBit := by rw [Fm.width, Fm.signBit, add_assoc, pow_add]; omega
  cases neg <;> simp only [Fm.zero, hwidth, if_true, Bool.false_eq_true, if_false] <;> omega

end

theorem Fm.zero_add_mod_two (f : Fm) (hmb : 1 ≤ f.mb) (neg : Bool) (c : Nat) : (f.zero neg + c) % 2 = c % 2 := by
  have heven : f.signBit % 2 = 0 := Nat.mod_eq_zero_of_dvd (dvd_pow_self 2 (by omega))
  cases neg <;> simp only [Fm.zero, if_true, Bool.false_eq_true, if_false] <;> omega

/-! ### One rounding (R45, R78) -/

/-- Whether a value `x` between the neighbours `lo` and `hi` goes up in a mode: `odd` says that `lo` has an odd last bit. -/
def goesUp (rm : Rm) (neg odd : Bool) (lo x hi : ℚ) : Bool :=
  match rm with
  | 0 => decide (lo + hi < 2 * x) || (decide (lo + hi = 2 * x) && odd)
  | 1 => false
  | 2 => neg && decide (lo < x)
  | _ => !neg && decide (lo < x)

/-- A value that is the lower neighbour stays. -/
theorem goesUp_self (rm : Rm) (neg odd : Bool) {lo hi : ℚ} (h : lo < hi) : goesUp rm neg odd lo lo hi = false := by
  have h2 : 2 * lo < lo + hi := by linarith
  unfold goesUp
  split <;> simp [h2.not_gt, h2.ne']

/-- The magnitude that a mode takes for `x` between the magnitudes `c` and `c + 1`. -/
def Fm.stepFrom (f : Fm) (rm : Rm) (neg : Bool) (c : Nat) (x : ℚ) : Nat :=
  c + (goesUp rm neg (c % 2 == 1) (f.mag c) x (f.mag (c + 1))).toNat

/-- Dropped bits decide as the exact value does between its neighbours. -/
theorem roundUp_eq_goesUp (rm : Rm) (neg odd : Bool) {n r k : Nat} {u lo x hi : ℚ} (hu : 0 < u) (hlo : lo = (n * k : Nat) * u)
    (hx : x = (n * k + r : Nat) * u) (hhi : hi = ((n + 1) * k : Nat) * u) : roundUp rm neg odd r k = goesUp rm neg odd lo x hi := by
  have hsum : lo + hi = (2 * (n * k) + k : Nat) * u := by rw [hlo, hhi]; push_cast; ring
  have htwo : 2 * x = (2 * (n * k) + 2 * r : Nat) * u := by rw [hx]; push_cast; ring
  have habove : lo < x ↔ r ≠ 0 := by
    rw [hlo, hx, mul_lt_mul_iff_left₀ hu, Nat.cast_lt]
    omega
  have hmid : lo + hi < 2 * x ↔ k < 2 * r := by
    rw [hsum, htwo, mul_lt_mul_iff_left₀ hu, Nat.cast_lt]
    omega
  have htie : lo + hi = 2 * x ↔ 2 * r = k := by
    rw [hsum, htwo, mul_left_inj' hu.ne', Nat.cast_inj]
    omega
  unfold roundUp goesUp
  split <;> rw [Bool.eq_iff_iff] <;> simp [habove, hmid, htie]

/-- The exponent of the last place that a finite value keeps. -/
def Fm.quantum (f : Fm) (a : Nat) (e : Int) : Int := max (e + (Nat.log2 a + 1) - (f.mb + 1)) f.qmin
/-- The significand below a value, in units of its last place. -/
def Fm.significand (f : Fm) (a : Nat) (e : Int) : Nat :=
  if f.quantum a e ≤ e then a * 2 ^ (e - f.quantum a e).toNat else a / 2 ^ (f.quantum a e - e).toNat

/-- The significand after the rounding, in the same units. -/
def Fm.rounded (f : Fm) (rm : Rm) (neg : Bool) (a : Nat) (e : Int) : Nat :=
  if f.quantum a e ≤ e then a * 2 ^ (e - f.quantum a e).toNat else roundShift rm neg a (f.quantum a e - e).toNat

/-- A value fits below 2^(mb + 1) last places, and reaches 2^mb of them unless they are the lowest. -/
theorem Fm.quantum_bounds (f : Fm) {a : Nat} (ha : a ≠ 0) (e : Int) :
    (a : ℚ) * 2 ^ e < (2 ^ (f.mb + 1) : Nat) * 2 ^ f.quantum a e ∧
    (f.quantum a e = f.qmin ∨ ((2 ^ f.mb : Nat) : ℚ) * 2 ^ f.quantum a e ≤ a * 2 ^ e) := by
  have hpow (k : Nat) (j : Int) : ((2 ^ k : Nat) : ℚ) * 2 ^ j = 2 ^ (k + j) := by
    rw [zpow_add₀ two_ne_zero, zpow_natCast, Nat.cast_pow, Nat.cast_two]
  constructor
  · calc (a : ℚ) * 2 ^ e
      _ < (2 ^ (Nat.log2 a + 1) : Nat) * 2 ^ e := by gcongr; exact Nat.lt_log2_self
      _ = 2 ^ ((Nat.log2 a + 1 : Nat) + e) := hpow _ _
      _ ≤ 2 ^ ((f.mb + 1 : Nat) + f.quantum a e) := zpow_le_zpow_right₀ one_le_two (by rw [Fm.quantum]; omega)
      _ = _ := (hpow _ _).symm
  · refine or_iff_not_imp_left.mpr fun hq => ?_
    calc ((2 ^ f.mb : Nat) : ℚ) * 2 ^ f.quantum a e
      _ = 2 ^ (f.mb + f.quantum a e) := hpow _ _
      _ = 2 ^ (Nat.log2 a + e) := by congr 1; rw [Fm.quantum] at hq ⊢; omega
      _ = (2 ^ Nat.log2 a : Nat) * 2 ^ e := (hpow _ _).symm
      _ ≤ a * 2 ^ e := by gcongr; exact Nat.log2_self_le ha

theorem Fm.qmin_le_quantum (f : Fm) (a : Nat) (e : Int) : f.qmin ≤ f.quantum a e := le_max_right _ _

/-- A higher power of two counts units of a lower one. -/
theorem zpow_eq_of_le {e q : Int} (h : e ≤ q) : (2 : ℚ) ^ q = (2 ^ (q - e).toNat : Nat) * 2 ^ e := by
  rw [Nat.cast_pow, Nat.cast_two, ← zpow_natCast, ← zpow_add₀ two_ne_zero]
  congr 1
  omega

/-- A value whose unit is not below the last place is kept whole. -/
theorem Fm.significand_exact (f : Fm) (a : Nat) {e : Int} (h : f.quantum a e ≤ e) :
    (f.significand a e : ℚ) * 2 ^ f.quantum a e = a * 2 ^ e := by
  rw [Fm.significand, if_pos h, Nat.cast_mul, mul_assoc, ← zpow_eq_of_le h]

/-- Otherwise the bits below the last place are dropped. -/
theorem Fm.significand_dropped (f : Fm) (a : Nat) {e : Int} (h : e < f.quantum a e) :
    let k := 2 ^ (f.quantum a e - e).toNat
    f.significand a e = a / k ∧ f.significand a e * k + a % k = a ∧ ∀ n : Nat, (n : ℚ) * 2 ^ f.quantum a e = (n * k : Nat) * 2 ^ e := by
  intro k
  have hs : f.significand a e = a / k := if_neg h.not_ge
  refine ⟨hs, by rw [hs, Nat.div_add_mod'], fun n => ?_⟩
  rw [zpow_eq_of_le h.le, ← mul_assoc, Nat.cast_mul]

/-- The value lies in the last place above its significand. -/
theorem Fm.significand_bounds (f : Fm) (a : Nat) (e : Int) :
    (f.significand a e : ℚ) * 2 ^ f.quantum a e ≤ a * 2 ^ e ∧ (a : ℚ) * 2 ^ e < (f.significand a e + 1 : Nat) * 2 ^ f.quantum a e := by
  rcases le_or_gt (f.quantum a e) e with h | h
  · rw [← f.significand_exact a h]
    exact ⟨le_rfl, by gcongr; exact Nat.lt_succ_self _⟩
  · obtain ⟨-, ha, hunit⟩ := f.significand_dropped a h
    have hr := Nat.mod_lt a (Nat.two_pow_pos (f.quantum a e - e).toNat)
    rw [hunit, hunit]
    constructor <;> gcongr
    · omega
    · rw [Nat.succ_mul]; omega

/-- The significand goes up as the exact value does between its neighbours. -/
theorem Fm.rounded_significand (f : Fm) (rm : Rm) (neg : Bool) (a : Nat) (e : Int) :
    f.rounded rm neg a e =
      f.significand a e + (goesUp rm neg (f.significand a e % 2 == 1) (f.significand a e * 2 ^ f.quantum a e) (a * 2 ^ e)
        ((f.significand a e + 1 : Nat) * 2 ^ f.quantum a e)).toNat := by
  rcases le_or_gt (f.quantum a e) e with h | h
  · have hlt := (f.significand_bounds a e).2
    rw [← f.significand_exact a h] at hlt ⊢
    rw [goesUp_self _ _ _ hlt, Fm.rounded, if_pos h, Fm.significand, if_pos h, Bool.toNat_false, add_zero]
  · obtain ⟨hs, ha, hunit⟩ := f.significand_dropped a h
    rw [Fm.rounded, if_neg h.not_ge, roundShift, hunit, hunit, ← roundUp_eq_goesUp (r := a % 2 ^ (f.quantum a e - e).toNat)
      (u := 2 ^ e) rm neg _ (by positivity) rfl (by rw [ha]) rfl, hs]
    cases roundUp rm neg _ _ _ <;> rfl

/-- The modes in which a value past the largest finite one becomes an infinity: to nearest and outward (R78). -/
def overflowsToInf (rm : Rm) (neg : Bool) : Bool := rm == 0 || (rm == 2 && neg) || (rm == 3 && !neg)

/-- A magnitude kept in the range of the format: past the largest finite one it is infinity where the mode goes outward or to
nearest, and under FTZ a subnormal one is zero (R78, R80). -/
def Fm.bounded (f : Fm) (rm : Rm) (ftz neg : Bool) (c : Nat) : Nat :=
  if f.inf ≤ c then (if overflowsToInf rm neg then f.inf else f.inf - 1)
  else if ftz ∧ c < 2 ^ f.mb then 0 else c

/-- The bits of a significand below 2^(mb + 1) at the exponent of its last place. -/
def Fm.pack (f : Fm) (rm : Rm) (ftz neg : Bool) (n : Nat) (q : Int) : Nat :=
  let x := if n < 2 ^ f.mb then 0 else (q - f.qmin).toNat + 1
  if f.top ≤ x then f.zero neg + (if overflowsToInf rm neg then f.inf else f.inf - 1)
  else if x = 0 then (if ftz ∨ n = 0 then f.zero neg else f.zero neg + n)
  else f.zero neg + x * 2 ^ f.mb + (n - 2 ^ f.mb)

theorem Fm.round_zero (f : Fm) (rm : Rm) (ftz neg : Bool) (e : Int) : f.round rm ftz neg 0 e = f.zero neg := rfl

/-- A rounding packs the rounded significand, after a carry out of it at the next exponent. -/
theorem Fm.round_eq_pack (f : Fm) (rm : Rm) (ftz neg : Bool) {a n : Nat} {e : Int} (ha : a ≠ 0)
    (hn : f.rounded rm neg a e = n) :
    f.round rm ftz neg a e = if n = 2 ^ (f.mb + 1) then f.pack rm ftz neg (2 ^ f.mb) (f.quantum a e + 1)
      else f.pack rm ftz neg n (f.quantum a e) := by
  rw [← hn]
  exact (if_neg ha).trans (apply_ite (fun p : Nat × Int => f.pack rm ftz neg p.1 p.2) _ _ _)

/-- A significand at an exponent is the magnitude that they count up to. -/
theorem Fm.pack_eq_bounded (f : Fm) (heb : 1 ≤ f.eb) (rm : Rm) (ftz neg : Bool) {n k : Nat} (hlt : n < 2 ^ (f.mb + 1))
    (hk : k = 0 ∨ 2 ^ f.mb ≤ n) :
    f.pack rm ftz neg n (f.qmin + k) = f.zero neg + f.bounded rm ftz neg (k * 2 ^ f.mb + n) := by
  have hpos := Nat.two_pow_pos f.mb
  rcases Nat.lt_or_ge n (2 ^ f.mb) with hsub | hnorm
  · obtain rfl : k = 0 := hk.resolve_right (by omega)
    have htop : ¬ f.top ≤ 0 := (f.top_pos heb).not_ge
    have hfin : ¬ f.inf ≤ n := by
      rw [not_le, f.lt_inf_iff, Nat.div_eq_of_lt hsub]
      omega
    simp only [Fm.pack, Fm.bounded, hsub, htop, hfin, zero_mul, zero_add, and_true, if_true, if_false]
    split_ifs <;> simp_all
  · have hval : k * 2 ^ f.mb + n = (k + 1) * 2 ^ f.mb + (n - 2 ^ f.mb) := by rw [Nat.succ_mul]; omega
    have hdiv : (k * 2 ^ f.mb + n) / 2 ^ f.mb = k + 1 := by
      rw [pow_succ] at hlt
      rw [hval, mul_comm, Nat.mul_add_div hpos, Nat.div_eq_of_lt (by omega), add_zero]
    have hinf : f.inf ≤ k * 2 ^ f.mb + n ↔ f.top ≤ k + 1 := by
      rw [← not_lt, f.lt_inf_iff, hdiv, not_lt]
    have hbig : ¬ k * 2 ^ f.mb + n < 2 ^ f.mb := by omega
    simp only [Fm.pack, Fm.bounded, hnorm.not_gt, if_false, add_sub_cancel_left, Int.toNat_natCast,
      Nat.succ_ne_zero, hval]
    split_ifs <;> omega

/-- A rounded significand, with a carry or without, is the magnitude that it counts up to. -/
theorem Fm.round_eq_bounded (f : Fm) (heb : 1 ≤ f.eb) (rm : Rm) (ftz neg : Bool) {a n k : Nat} {e : Int} (ha : a ≠ 0)
    (hn : f.rounded rm neg a e = n)
    (hq : f.quantum a e = f.qmin + k) (hle : n ≤ 2 ^ (f.mb + 1)) (hk : k = 0 ∨ 2 ^ f.mb ≤ n) :
    f.round rm ftz neg a e = f.zero neg + f.bounded rm ftz neg (k * 2 ^ f.mb + n) := by
  rw [f.round_eq_pack rm ftz neg ha hn, hq]
  split
  · next htop =>
    have hval : k * 2 ^ f.mb + n = (k + 1) * 2 ^ f.mb + 2 ^ f.mb := by rw [htop, pow_succ]; ring
    rw [hval, ← f.pack_eq_bounded heb rm ftz neg (by rw [pow_succ]; have := Nat.two_pow_pos f.mb; omega) (.inr le_rfl), add_assoc,
      Nat.cast_succ]
  · next hlt => exact f.pack_eq_bounded heb rm ftz neg (by omega) hk

/-- A rounding takes the magnitude below the exact value, or goes up to the next. -/
theorem Fm.exists_neighbours (f : Fm) (heb : 1 ≤ f.eb) (hmb : 1 ≤ f.mb) (a : Nat) (e : Int) :
    ∃ c, f.mag c ≤ a * 2 ^ e ∧ (a : ℚ) * 2 ^ e < f.mag (c + 1) ∧ ∀ rm ftz neg, f.round rm ftz neg a e =
      f.zero neg + f.bounded rm ftz neg (f.stepFrom rm neg c (a * 2 ^ e)) := by
  rcases eq_or_ne a 0 with rfl | ha
  · have hlt : f.mag 0 < f.mag (0 + 1) := f.mag_strictMono Nat.zero_lt_one
    have hzero : ((0 : Nat) : ℚ) * 2 ^ e = f.mag 0 := by simp
    refine ⟨0, hzero.ge, by rwa [hzero], fun rm ftz neg => ?_⟩
    rw [hzero, Fm.stepFrom, goesUp_self _ _ _ hlt, f.round_zero]
    simp [Fm.bounded, (f.inf_pos heb).ne']
  obtain ⟨k, hq⟩ : ∃ k : Nat, f.quantum a e = f.qmin + k := Int.le.dest (f.qmin_le_quantum a e) |>.imp fun _ h => h.symm
  obtain ⟨hmax, hmin⟩ := f.quantum_bounds ha e
  obtain ⟨hlo, hhi⟩ := f.significand_bounds a e
  have hrounded := fun rm neg => f.rounded_significand rm neg a e
  set n := f.significand a e
  have hn : n < 2 ^ (f.mb + 1) := by
    have := hlo.trans_lt hmax
    rwa [mul_lt_mul_iff_left₀ (by positivity), Nat.cast_lt] at this
  have hk : k = 0 ∨ 2 ^ f.mb ≤ n := by
    refine hmin.imp (fun h => by omega) fun h => ?_
    have := h.trans_lt hhi
    rw [mul_lt_mul_iff_left₀ (by positivity), Nat.cast_lt] at this
    omega
  have hmag : f.mag (k * 2 ^ f.mb + n) = n * 2 ^ f.quantum a e := by rw [f.mag_significand hn.le hk, hq]
  have hnext : f.mag (k * 2 ^ f.mb + n + 1) = (n + 1 : Nat) * 2 ^ f.quantum a e := by
    rw [add_assoc, f.mag_significand hn (hk.imp_right fun h => by omega), hq]
  have hodd : (k * 2 ^ f.mb + n) % 2 = n % 2 := by
    have heven : 2 ^ f.mb % 2 = 0 := Nat.mod_eq_zero_of_dvd (dvd_pow_self 2 (by omega))
    simp [Nat.add_mod, Nat.mul_mod, heven]
  refine ⟨k * 2 ^ f.mb + n, by rwa [hmag], by rwa [hnext], fun rm ftz neg => ?_⟩
  rw [Fm.stepFrom, hmag, hnext, hodd, add_assoc]
  have hup := Bool.toNat_le (goesUp rm neg (n % 2 == 1) (n * 2 ^ f.quantum a e) (a * 2 ^ e) ((n + 1 : Nat) * 2 ^ f.quantum a e))
  exact f.round_eq_bounded heb rm ftz neg ha (hrounded rm neg) hq (by omega) (by omega)

/-! ### What each mode gives (R45, R78) -/

/-- What holds of every finite magnitude of the format holds of the magnitudes below infinity. -/
theorem Fm.forall_magnitude_iff (f : Fm) (P : ℚ → Prop) :
    (∀ v z, (f.read false v).magnitude = some z → P z) ↔ ∀ d < f.inf, P (f.mag d) := by
  simp only [f.magnitude_eq_some_iff]
  constructor
  · intro h d hd
    have hmod := Nat.mod_eq_of_lt (hd.trans f.inf_lt_signBit)
    exact h d _ ⟨by rwa [hmod], by rw [hmod]⟩
  · rintro h v z ⟨hv, rfl⟩
    exact h _ hv

section
variable {f : Fm} {c : Nat} (hc : c ≤ f.inf) (neg : Bool)
include hc

theorem Fm.magnitude_zero_add (z : ℚ) : (f.read false (f.zero neg + c)).magnitude = some z ↔ c < f.inf ∧ f.mag c = z := by
  rw [f.magnitude_eq_some_iff, Fm.zero_add_mod_signBit (hc.trans_lt f.inf_lt_signBit)]
theorem Fm.read_zero_add_eq_inf : f.read false (f.zero neg + c) = .inf neg ↔ c = f.inf := by
  have hlt := hc.trans_lt f.inf_lt_signBit
  rw [f.read_eq_inf_iff, Fm.zero_add_mod_signBit hlt, Fm.zero_add_sign hlt, and_iff_left rfl]
theorem Fm.zero_add_inf_or_finite : f.read false (f.zero neg + c) = .inf neg ∨
    ∃ y, (f.read false (f.zero neg + c)).magnitude = some y := by
  rw [Fm.read_zero_add_eq_inf hc]
  exact hc.eq_or_lt.imp_right fun h => ⟨f.mag c, (Fm.magnitude_zero_add hc neg _).mpr ⟨h, rfl⟩⟩

end

theorem Fm.bounded_le_inf (f : Fm) (rm : Rm) (ftz neg : Bool) (c : Nat) : f.bounded rm ftz neg c ≤ f.inf := by
  unfold Fm.bounded
  split_ifs <;> omega

/-- FTZ takes what is subnormal after the rounding to zero (R78). -/
theorem Fm.bounded_ftz (f : Fm) (heb : 2 ≤ f.eb) (rm : Rm) (neg : Bool) (c : Nat) : f.bounded rm true neg c =
    if 0 < f.bounded rm false neg c ∧ f.bounded rm false neg c < 2 ^ f.mb then 0 else f.bounded rm false neg c := by
  have hpos := Nat.two_pow_pos f.mb
  have hinf : 2 ^ f.mb < f.inf := by
    have htop : 2 ^ 2 ≤ 2 ^ f.eb := Nat.pow_le_pow_right (by omega) heb
    have := Nat.mul_le_mul_right (2 ^ f.mb) (show 2 ≤ f.top by rw [Fm.top]; omega)
    rw [Fm.inf]
    omega
  unfold Fm.bounded
  split_ifs <;> simp_all <;> omega

/-- A mode that goes outward or to nearest gives infinity past the largest finite magnitude. -/
theorem Fm.bounded_eq_min_inf (f : Fm) {rm : Rm} {neg : Bool} (h : overflowsToInf rm neg = true) (c : Nat) :
    f.bounded rm false neg c = min c f.inf := by
  rw [Fm.bounded, if_pos h]
  rcases le_or_gt f.inf c with hc | hc
  · rw [if_pos hc, min_eq_right hc]
  · rw [if_neg hc.not_ge, if_neg (by simp), min_eq_left hc.le]

/-- The other modes give the largest finite magnitude there. -/
theorem Fm.bounded_eq_min_largest (f : Fm) {rm : Rm} {neg : Bool} (h : overflowsToInf rm neg = false)
    (c : Nat) : f.bounded rm false neg c = min c (f.inf - 1) := by
  simp only [Fm.bounded, h, Bool.false_eq_true, if_false]
  rcases le_or_gt f.inf c with hc | hc
  · rw [if_pos hc, min_eq_right (by omega)]
  · rw [if_neg hc.not_ge, if_neg (by simp), min_eq_left (by omega)]

/-- A magnitude up to `x` is one up to the neighbour below `x`. -/
theorem Fm.mag_le_iff (f : Fm) {c : Nat} {x : ℚ} (hlo : f.mag c ≤ x) (hhi : x < f.mag (c + 1)) (d : Nat) : f.mag d ≤ x ↔ d ≤ c :=
  ⟨fun h => Nat.lt_succ_iff.mp (f.mag_strictMono.lt_iff_lt.mp (h.trans_lt hhi)),
    fun h => (f.mag_strictMono.monotone h).trans hlo⟩

theorem goesUp_nearest_iff (neg odd : Bool) (lo x hi : ℚ) :
    goesUp 0 neg odd lo x hi = true ↔ lo + hi < 2 * x ∨ (lo + hi = 2 * x ∧ odd = true) := by
  simp [goesUp]

/-- Of two neighbours of `x`, no value outside them is nearer to `x` than the one that the nearest mode takes; one as near is a tie,
which leaves an even last bit. -/
theorem nearest_neighbour {neg : Bool} {c : Nat} {lo x hi y z : ℚ} (hlo : lo ≤ x) (hhi : x < hi) (hz : z ≤ lo ∨ hi ≤ z)
    (hy : y = if goesUp 0 neg (c % 2 == 1) lo x hi = true then hi else lo) :
    |y - x| ≤ |z - x| ∧ (|y - x| = |z - x| → z ≠ y → (c + (goesUp 0 neg (c % 2 == 1) lo x hi).toNat) % 2 = 0) := by
  have hup := goesUp_nearest_iff neg (c % 2 == 1) lo x hi
  rw [beq_iff_eq] at hup
  have hfar : |z - x| = x - z ∧ z ≤ lo ∨ |z - x| = z - x ∧ hi ≤ z :=
    hz.imp (fun h => ⟨abs_sub_comm z x ▸ abs_of_nonneg (by linarith), h⟩) fun h => ⟨abs_of_nonneg (by linarith), h⟩
  cases hg : goesUp 0 neg (c % 2 == 1) lo x hi with
  | true =>
    have hge : lo + hi < 2 * x ∨ lo + hi = 2 * x ∧ c % 2 = 1 := hup.mp hg
    have hle : lo + hi ≤ 2 * x := hge.elim le_of_lt fun h => h.1.le
    obtain rfl : y = hi := hy.trans (if_pos hg)
    rw [abs_of_nonneg (by linarith : (0 : ℚ) ≤ y - x)]
    rcases hfar with ⟨habs, hz⟩ | ⟨habs, hz⟩ <;> rw [habs]
    · refine ⟨by linarith, fun heq _ => ?_⟩
      have hodd := (hge.resolve_left (by linarith)).2
      simp only [Bool.toNat_true]
      omega
    · exact ⟨by linarith, fun heq hne => absurd (by linarith) hne⟩
  | false =>
    rw [hg, Bool.false_eq_true, false_iff, not_or, not_lt, not_and] at hup
    obtain ⟨hge, htie⟩ := hup
    obtain rfl : y = lo := hy.trans (if_neg (by rw [hg]; decide))
    rw [abs_sub_comm, abs_of_nonneg (by linarith : (0 : ℚ) ≤ x - y)]
    rcases hfar with ⟨habs, hz⟩ | ⟨habs, hz⟩ <;> rw [habs]
    · exact ⟨by linarith, fun heq hne => absurd (by linarith) hne⟩
    · refine ⟨by linarith, fun heq _ => ?_⟩
      have heven := htie (by linarith)
      simp only [Bool.toNat_false]
      omega

/-- The largest finite magnitude and half of its last place reach halfway to infinity's. -/
theorem Fm.two_mul_overflow_threshold (f : Fm) (heb : 2 ≤ f.eb) :
    2 * (f.mag (f.inf - 1) + 2 ^ (f.qmin + 2 ^ f.eb - 4)) = f.mag (f.inf - 1) + f.mag f.inf := by
  have hpos := Nat.two_pow_pos f.mb
  have hfour : 2 ^ 2 ≤ 2 ^ f.eb := Nat.pow_le_pow_right (by omega) heb
  have hinf : f.inf = (f.top - 2) * 2 ^ f.mb + 2 ^ (f.mb + 1) := by
    rw [Fm.inf, pow_succ, mul_comm (2 ^ f.mb) 2, ← add_mul, Nat.sub_add_cancel (by rw [Fm.top]; omega)]
  have hlast : f.inf - 1 = (f.top - 2) * 2 ^ f.mb + (2 ^ (f.mb + 1) - 1) := by
    rw [hinf]
    have := Nat.two_pow_pos (f.mb + 1)
    omega
  have hexp : (2 : ℚ) ^ (f.qmin + (f.top - 2 : Nat)) = 2 ^ (f.qmin + 2 ^ f.eb - 4) * 2 := by
    rw [← zpow_add_one₀ two_ne_zero, Fm.top]
    congr 1
    push_cast [Nat.cast_sub (show 2 ≤ 2 ^ f.eb - 1 by omega), Nat.cast_sub (show 1 ≤ 2 ^ f.eb by omega)]
    ring
  rw [hlast, f.mag_significand (Nat.sub_le _ _) (.inr (by rw [pow_succ]; omega)), hinf,
    f.mag_significand le_rfl (.inr (by rw [pow_succ]; omega)), hexp, Nat.cast_sub (Nat.two_pow_pos _)]
  push_cast
  ring

section
variable {f : Fm} {c : Nat} {x : ℚ} (hlo : f.mag c ≤ x) (hhi : x < f.mag (c + 1))
include hlo hhi

/-- Toward zero: the nearest finite magnitude that is not beyond the exact value. -/
theorem Fm.toward_zero {rm : Nat} {neg : Bool} (heb : 1 ≤ f.eb) (hrm : rm < 4) (h0 : rm ≠ 0)
    (hout : ¬ (rm = 2 ∧ neg = true ∨ rm = 3 ∧ neg = false)) :
    let r := f.zero neg + f.bounded rm false neg (f.stepFrom rm neg c x)
    ∃ y, (f.read false r).magnitude = some y ∧ y ≤ x ∧ ∀ v z, (f.read false v).magnitude = some z → z ≤ x → z ≤ y := by
  have hpos := f.inf_pos heb
  have hstays : f.stepFrom rm neg c x = c ∧ overflowsToInf rm neg = false := by
    have hcases : rm = 1 ∨ rm = 2 ∧ neg = false ∨ rm = 3 ∧ neg = true := by cases neg <;> simp at hout ⊢ <;> omega
    rcases hcases with rfl | ⟨rfl, rfl⟩ | ⟨rfl, rfl⟩ <;> exact ⟨rfl, rfl⟩
  obtain ⟨hstep, hmode⟩ := hstays
  rw [hstep, f.bounded_eq_min_largest hmode]
  refine ⟨f.mag (min c (f.inf - 1)), (Fm.magnitude_zero_add (by omega) neg _).mpr ⟨by omega, rfl⟩,
    (f.mag_le_iff hlo hhi _).mpr (min_le_left _ _), (f.forall_magnitude_iff _).mpr fun d hd hle => ?_⟩
  exact f.mag_strictMono.monotone (le_min ((f.mag_le_iff hlo hhi d).mp hle) (by omega))

/-- Away from zero: the nearest magnitude that is not short of the exact value. -/
theorem Fm.away_from_zero {rm : Rm} {neg : Bool} (hout : rm = 2 ∧ neg = true ∨ rm = 3 ∧ neg = false) :
    let r := f.zero neg + f.bounded rm false neg (f.stepFrom rm neg c x)
    (f.read false r = .inf neg ↔ ∀ v z, (f.read false v).magnitude = some z → z < x) ∧
      ∀ y, (f.read false r).magnitude = some y → x ≤ y ∧ ∀ v z, (f.read false v).magnitude = some z → x ≤ z → y ≤ z := by
  have hup : f.stepFrom rm neg c x = c + (decide (f.mag c < x)).toNat := by
    rcases hout with ⟨rfl, rfl⟩ | ⟨rfl, rfl⟩ <;> simp [Fm.stepFrom, goesUp]
  have hmode : overflowsToInf rm neg = true := by
    rcases hout with ⟨rfl, rfl⟩ | ⟨rfl, rfl⟩ <;> rfl
  have hleast (d : Nat) : x ≤ f.mag d ↔ c + (decide (f.mag c < x)).toNat ≤ d := by
    rcases hlo.eq_or_lt with heq | hlt
    · rw [← heq, f.mag_strictMono.le_iff_le]
      simp
    · rw [decide_eq_true hlt]
      exact ⟨fun h => not_le.mp fun hd => (((f.mag_strictMono.monotone hd).trans_lt hlt).not_ge h),
        fun h => hhi.le.trans (f.mag_strictMono.monotone h)⟩
  intro r
  obtain ⟨k, hk⟩ : ∃ k, f.stepFrom rm neg c x = k := ⟨_, rfl⟩
  have hr : r = f.zero neg + min k f.inf := by simp only [r, f.bounded_eq_min_inf hmode, hk]
  rw [← hup, hk] at hleast
  rw [hr]
  constructor
  · rw [Fm.read_zero_add_eq_inf (min_le_right _ _), min_eq_right_iff, f.forall_magnitude_iff (· < x)]
    exact ⟨fun h d hd => not_le.mp fun hx => ((hleast d).mp hx).not_gt (hd.trans_le h),
      fun h => not_lt.mp fun hlt => (h k hlt).not_ge ((hleast k).mpr le_rfl)⟩
  · intro y hy
    obtain ⟨hlt, rfl⟩ := (Fm.magnitude_zero_add (min_le_right _ _) neg _).mp hy
    rw [min_eq_left (by omega)]
    exact ⟨(hleast k).mpr le_rfl, (f.forall_magnitude_iff _).mpr fun d _ hx => f.mag_strictMono.monotone ((hleast d).mp hx)⟩

/-- To nearest, a value overflows from halfway between the largest finite magnitude and infinity's (R78). -/
theorem Fm.nearest_overflows_iff {neg : Bool} (heb : 1 ≤ f.eb) (hmb : 1 ≤ f.mb) :
    f.inf ≤ f.stepFrom 0 neg c x ↔ f.mag (f.inf - 1) + f.mag f.inf ≤ 2 * x := by
  have hpos := f.inf_pos heb
  have heven : f.inf % 2 = 0 := Nat.mod_eq_zero_of_dvd ((dvd_pow_self 2 (by omega)).mul_left f.top)
  have hlast : f.mag (f.inf - 1) < f.mag f.inf := f.mag_strictMono (by omega)
  have hup := goesUp_nearest_iff neg (c % 2 == 1) (f.mag c) x (f.mag (c + 1))
  unfold Fm.stepFrom
  rcases lt_trichotomy c (f.inf - 1) with hlt | heq | hgt
  · have hle := Bool.toNat_le (goesUp 0 neg (c % 2 == 1) (f.mag c) x (f.mag (c + 1)))
    have hmag : f.mag (c + 1) ≤ f.mag (f.inf - 1) := f.mag_strictMono.monotone (by omega)
    exact iff_of_false (by omega) (by linarith)
  · have hodd : (c % 2 == 1) = true := by rw [beq_iff_eq]; omega
    have hinf : c + 1 = f.inf := by omega
    rw [hodd, hinf, and_iff_left rfl, ← le_iff_lt_or_eq] at hup
    rw [hodd, hinf, ← heq, ← hup]
    cases goesUp 0 neg true (f.mag c) x (f.mag f.inf) <;> simp <;> omega
  · have hmag : f.mag f.inf ≤ f.mag c := f.mag_strictMono.monotone (by omega)
    exact iff_of_true (by omega) (by linarith)

/-- To nearest: infinity from half a last place past the largest finite magnitude, and else a magnitude that no other is nearer than. -/
theorem Fm.to_nearest {neg : Bool} (heb : 2 ≤ f.eb) (hmb : 1 ≤ f.mb) :
    let r := f.zero neg + f.bounded 0 false neg (f.stepFrom 0 neg c x)
    (f.read false r = .inf neg ↔ ∃ y, (f.read false (f.inf - 1)).magnitude = some y ∧ y + 2 ^ (f.qmin + 2 ^ f.eb - 4) ≤ x) ∧
      ∀ y, (f.read false r).magnitude = some y → ∀ v z, (f.read false v).magnitude = some z →
        |y - x| ≤ |z - x| ∧ (|y - x| = |z - x| → z ≠ y → r % 2 = 0) := by
  have hpos := f.inf_pos (by omega)
  have hover := Fm.nearest_overflows_iff (neg := neg) hlo hhi (by omega) hmb
  have hnear := fun d hd => nearest_neighbour (neg := neg) (c := c) (y := f.mag (f.stepFrom 0 neg c x)) (z := f.mag d) hlo hhi hd
    (by unfold Fm.stepFrom; cases goesUp 0 neg (c % 2 == 1) (f.mag c) x (f.mag (c + 1)) <;> rfl)
  rw [← Fm.stepFrom] at hnear
  intro r
  obtain ⟨k, hk⟩ : ∃ k, f.stepFrom 0 neg c x = k := ⟨_, rfl⟩
  have hr : r = f.zero neg + min k f.inf := by simp only [r, f.bounded_eq_min_inf (rm := 0) rfl, hk]
  rw [hk] at hover hnear
  rw [hr]
  constructor
  · have hlast : (f.read false (f.inf - 1)).magnitude = some (f.mag (f.inf - 1)) := by
      have hmod := Nat.mod_eq_of_lt (f.inf_lt_signBit.trans_le' (Nat.sub_le f.inf 1))
      rw [f.magnitude_eq_some_iff, hmod]
      exact ⟨by omega, rfl⟩
    have hhalf := f.two_mul_overflow_threshold heb
    rw [Fm.read_zero_add_eq_inf (min_le_right _ _), min_eq_right_iff, hover, hlast]
    simp only [Option.some_inj, exists_eq_left']
    constructor <;> intro h <;> linarith
  · intro y hy
    obtain ⟨hlt, rfl⟩ := (Fm.magnitude_zero_add (min_le_right _ _) neg _).mp hy
    rw [f.zero_add_mod_two hmb, min_eq_left (by omega)]
    refine (f.forall_magnitude_iff _).mpr fun d _ => hnear d ?_
    exact (le_or_gt d c).imp (fun h => f.mag_strictMono.monotone h) fun h => f.mag_strictMono.monotone h

end

/-- Settles O9: the operations by the cases of their operands, and rounding by the neighbours of the exact value. -/
theorem nanInfinityAndRoundingRules : Obligations.NanInfinityAndRoundingRules := by
  unfold Obligations.NanInfinityAndRoundingRules
  intro f rm ftz a b
  refine ⟨?nan, ?difference, ?sum, ?product, ?infinity, ?rounding⟩
  case nan =>
    intro h
    obtain ⟨hadd, hadd', hsub, hsub', hmul, hmul', hrnd, hrcp, hsqrt, hrsq⟩ := Fm.operations_of_nan (rm := rm) h b
    exact ⟨hadd, hadd', hsub, hsub', hmul, hmul', hrnd, hrcp, hsqrt, hrsq, Fm.fma_of_nan h b⟩
  case difference =>
    intro neg ha hb
    cases neg <;> exact f.addAll_of_infs _ _ (by simp [ha, hb, FVal.neg]) (by simp [ha, hb, FVal.neg])
  case sum =>
    intro neg ha hb
    cases neg <;> exact f.addAll_of_infs _ _ (by simp [ha, hb]) (by simp [ha, hb])
  case product =>
    intro neg zneg e ha hb
    simp [Fm.mul, ha, hb, FVal.mul, Fm.put]
  case infinity =>
    intro neg bneg m e ha hb
    refine ⟨by rw [Fm.add, ha, hb, f.addAll_inf_fin], fun hm => ?_⟩
    simp [Fm.mul, ha, hb, FVal.mul, Fm.put, hm]
  case rounding =>
    intro hf hrm neg m e x val r outward
    have hsizes : 2 ≤ f.eb ∧ 1 ≤ f.mb := by
      have hall : ∀ f ∈ [fm32, fm16, fmB16, fm64], 2 ≤ f.eb ∧ 1 ≤ f.mb := by decide
      exact hall f hf
    obtain ⟨heb, hmb⟩ := hsizes
    have hval : val = fun v => (f.read false v).magnitude := by
      funext v
      simp only [val]
      cases f.read false v <;> rfl
    obtain ⟨c, hlo, hhi, hround⟩ := f.exists_neighbours (by omega) hmb m e
    have hle := f.bounded_le_inf rm false neg (f.stepFrom rm neg c x)
    have hlt := hle.trans_lt f.inf_lt_signBit
    have hr : r = _ := hround rm false neg
    rw [hval, hr]
    refine ⟨⟨Fm.zero_add_lt hlt neg, Fm.signBit_le_zero_add hlt neg, Fm.zero_add_inf_or_finite hle neg⟩,
      fun h0 hout => Fm.toward_zero hlo hhi (by omega) hrm h0 hout, Fm.away_from_zero hlo hhi, ?nearest, ?flushed⟩
    case nearest =>
      rintro rfl
      exact Fm.to_nearest hlo hhi heb hmb
    case flushed =>
      rw [hround, f.bounded_ftz heb, Fm.zero_add_mod_signBit hlt]
      split_ifs <;> rfl

end Sys2Proof.Machine
end

section
/-! Words whose result is a bit pattern of TYPE's width: what the logic words, the counts, the reversal and the field words give each
thread. -/

namespace Sys2Proof.Machine

open Sys2Proof

/-! ### Bit patterns of a TYPE (R83, R104) -/

@[simp] theorem toNat_bitsOf (ty : BitVec 4) (v : Nat) : (bitsOf ty v).toNat = v % 2 ^ tyBits ty := BitVec.toNat_ofNat _ _

/-- A bit of a number's pattern is the number's bit. -/
theorem getLsbD_bitsOf (ty : BitVec 4) (v j : Nat) : (bitsOf ty v).getLsbD j = (decide (j < tyBits ty) && v.testBit j) :=
  BitVec.getLsbD_ofNat _ _ _

/-- The types whose results fill no register bits above them with a sign: bit patterns, and those of 32 bits or more (R83). -/
def Unfilled (ty : BitVec 4) : Prop := tyBits ty < 32 → tySigned ty = false

theorem unfilled_of_tyBit {ty : BitVec 4} (h : tyBit ty = true) : Unfilled ty := by
  unfold Unfilled; revert h; revert ty; decide
theorem unfilled_of_tyB {ty : BitVec 4} (h : tyB ty = true) : Unfilled ty := by
  unfold Unfilled; revert h; revert ty; decide
theorem unfilled_of_tyWide {ty : BitVec 4} (h : tyWide ty = true) : Unfilled ty := by
  unfold Unfilled; revert h; revert ty; decide

/-- Of such a type a result's register bits are its pattern. -/
theorem fillTy_eq_bitsOf {ty : BitVec 4} (h : Unfilled ty) (v : Nat) : fillTy ty v = (bitsOf ty v).toNat := by
  rw [toNat_bitsOf, fillTy]
  refine if_neg fun ⟨hn, hs, _⟩ => ?_
  rw [h hn] at hs
  exact absurd hs (by decide)

/-- A word whose result is a bit pattern gives each thread the pattern of its function's value, where its test of TYPE takes types
that fill no register bits. -/
theorem bitwise_gives {i : Instr} {w : FA} {ty ctl : Bool} {g : State → Nat → Nat → BitVec (tyBits w.ty)}
    (f : State → Nat → Nat → Nat) (he : ∀ s, exec i s = bitwise i w f s) (hm : isMma i = false) (hc : i.common = some w.c)
    (hcase : i.fieldCase = aCase ty ctl) (hty : ty = true → Unfilled w.ty)
    (hfg : ∀ s t x, bitsOf w.ty (f s t x) = g s t x) :
    GivesValue i w.c w.dst (tyRegs w.ty) fun s t x => (g s t x).toNat := by
  refine alu_gives _ he (isBrk_of_common hc) fun s k h => ?_
  obtain ⟨hT, -⟩ := h.typed hm hc hcase
  funext s t x
  rw [fillTy_eq_bitsOf (hty hT), hfg]

/-! ### Logic words (R104) -/

theorem tyBits_le (ty : BitVec 4) : tyBits ty ≤ 32 * tyRegs ty := by
  revert ty; decide

/-- The complement of a value's register bits is the complement of its pattern. -/
theorem bitsOf_notBits (ty : BitVec 4) (v : Nat) : bitsOf ty (notBits (32 * tyRegs ty) v) = ~~~ bitsOf ty v := by
  refine BitVec.eq_of_getLsbD_eq fun j hj => ?_
  have hreg : j < 32 * tyRegs ty := hj.trans_le (tyBits_le ty)
  rw [BitVec.getLsbD_not, getLsbD_bitsOf, getLsbD_bitsOf, notBits, Nat.sub_sub, Nat.add_comm 1,
    Nat.testBit_two_pow_sub_succ (Nat.mod_lt _ (Nat.two_pow_pos _)), Nat.testBit_mod_two_pow]
  simp [hj, hreg]

/-- Settles O3: each word's function acts on the bits of its operands, and bit patterns fill no register bits above them. -/
theorem logicActsBitwise : Obligations.LogicActsBitwise := by
  unfold Obligations.LogicActsBitwise
  intro w a b
  have hlogic {i : Instr} {g : State → Nat → Nat → BitVec (tyBits w.ty)} (f : State → Nat → Nat → Nat)
      (he : ∀ s, exec i s = bitwise i w f s) (hm : isMma i = false) (hc : i.common = some w.c)
      (hcase : i.fieldCase = aCase (tyBit w.ty) (ctl0 w)) (hfg : ∀ s t x, bitsOf w.ty (f s t x) = g s t x) :
      GivesValue i w.c w.dst (tyRegs w.ty) fun s t x => (g s t x).toNat :=
    bitwise_gives f he hm hc hcase unfilled_of_tyBit hfg
  refine ⟨?and, ?or, ?xor, ?andn, ?not, ?sel⟩
  case and => exact hlogic (fun s t x => s.fa w t x &&& s.fb w t x) (fun _ => rfl) rfl rfl rfl fun _ _ _ => BitVec.ofNat_and
  case or => exact hlogic (fun s t x => s.fa w t x ||| s.fb w t x) (fun _ => rfl) rfl rfl rfl fun _ _ _ => BitVec.ofNat_or
  case xor => exact hlogic (fun s t x => s.fa w t x ^^^ s.fb w t x) (fun _ => rfl) rfl rfl rfl fun _ _ _ => BitVec.ofNat_xor
  case andn =>
    refine hlogic (fun s t x => s.fa w t x &&& notBits (32 * tyRegs w.ty) (s.fb w t x)) (fun _ => rfl) rfl rfl rfl fun s t x => ?_
    rw [← bitsOf_notBits]
    exact BitVec.ofNat_and
  case not =>
    exact hlogic (fun s t x => notBits (32 * tyRegs w.ty) (s.fa w t x)) (fun _ => rfl) rfl rfl rfl fun _ _ _ => bitsOf_notBits _ _
  case sel =>
    refine hlogic (fun s t x => if s.opnd t x w.sc 1 ≠ 0 then s.fa w t x else s.fb w t x) (fun _ => rfl) rfl rfl rfl fun s t x => ?_
    rw [apply_ite (bitsOf w.ty), ite_not]

/-! ### Counts and the reversal (R104) -/

/-- A bit of a number's pattern, counted from the lowest or from the highest, is a bit of the number. -/
theorem getLsbD_bitsOf_of_lt {ty : BitVec 4} {j : Nat} (hj : j < tyBits ty) (v : Nat) : (bitsOf ty v).getLsbD j = v.testBit j := by
  rw [getLsbD_bitsOf, decide_eq_true hj, Bool.true_and]
theorem getMsbD_bitsOf_of_lt {ty : BitVec 4} {j : Nat} (hj : j < tyBits ty) (v : Nat) :
    (bitsOf ty v).getMsbD j = v.testBit (tyBits ty - 1 - j) := by
  rw [BitVec.getMsbD, decide_eq_true hj, Bool.true_and, getLsbD_bitsOf_of_lt (by omega)]

theorem popBits_eq_length_filter (v n : Nat) : popBits v n = ((List.range n).filter v.testBit).length := by
  induction n with
  | zero => rfl
  | succ n ih =>
    rw [popBits, ih, List.range_succ, List.filter_append, List.length_append, add_comm]
    cases h : v.testBit n <;> simp [h]

theorem clzBits_eq_findIdx (v n : Nat) : clzBits v n = (List.range n).findIdx fun j => v.testBit (n - 1 - j) := by
  induction n with
  | zero => rfl
  | succ n ih =>
    rw [clzBits, ih, List.range_succ_eq_map, List.findIdx_cons, List.findIdx_map]
    cases h : v.testBit n <;> simp [h, Function.comp_def, Nat.sub_sub, add_comm]

theorem ctzBits_eq_findIdx (v n : Nat) : ctzBits v n = (List.range n).findIdx v.testBit := by
  induction n generalizing v with
  | zero => rfl
  | succ n ih =>
    rw [ctzBits, ih, List.range_succ_eq_map, List.findIdx_cons, List.findIdx_map, Nat.testBit_zero]
    rcases Nat.mod_two_eq_zero_or_one v with h | h <;> simp [h, Function.comp_def, Nat.testBit_add_one, add_comm]

theorem revBits_lt (v n : Nat) : revBits v n < 2 ^ n := by
  induction n generalizing v with
  | zero => exact Nat.one_pos
  | succ n ih =>
    have hrest := ih (v / 2)
    rw [revBits, pow_succ]
    split <;> omega

/-- Bit n − 1 − j of a number stands at bit j of its reversal. -/
theorem testBit_revBits (v : Nat) {n j : Nat} (hj : j < n) : (revBits v n).testBit j = v.testBit (n - 1 - j) := by
  induction n generalizing v with
  | zero => exact absurd hj (Nat.not_lt_zero j)
  | succ n ih =>
    have hfirst : (if v.testBit 0 then 2 ^ n else 0) = 2 ^ n * (v.testBit 0).toNat := by cases v.testBit 0 <;> simp
    rw [revBits, hfirst, Nat.testBit_two_pow_mul_add _ (revBits_lt _ _)]
    split
    next h => rw [ih _ h, ← Nat.testBit_add_one, show n - 1 - j + 1 = n + 1 - 1 - j by omega]
    next h =>
      have htop : j = n := by omega
      rw [htop, Nat.sub_self, Nat.testBit_bool_toNat, Nat.add_sub_cancel, Nat.sub_self]
      simp

theorem bitsOf_revBits (ty : BitVec 4) (v : Nat) : bitsOf ty (revBits v (tyBits ty)) = (bitsOf ty v).reverse := by
  refine BitVec.eq_of_getLsbD_eq fun j hj => ?_
  rw [BitVec.getLsbD_reverse, getMsbD_bitsOf_of_lt hj, getLsbD_bitsOf_of_lt hj, testBit_revBits v hj]

/-- What holds of the same indices below n is first met at the same one. -/
theorem findIdx_range_congr {n : Nat} {p q : Nat → Bool} (h : ∀ j < n, p j = q j) :
    (List.range n).findIdx p = (List.range n).findIdx q := by
  have hmap : (List.range n).map p = (List.range n).map q := List.map_congr_left fun j hj => h j (List.mem_range.mp hj)
  calc (List.range n).findIdx p
    _ = ((List.range n).map p).findIdx id := (List.findIdx_map _ p id).symm
    _ = ((List.range n).map q).findIdx id := by rw [hmap]
    _ = (List.range n).findIdx q := List.findIdx_map _ q id

/-- Settles O5: the counts by recursion over the bits, and the reversal bit by bit. -/
theorem bitCountsAndReversal : Obligations.BitCountsAndReversal := by
  unfold Obligations.BitCountsAndReversal
  intro w a n
  refine ⟨?popc, ?clz, ?ctz, ?brev⟩
  case popc =>
    refine alu_gives (fun s t x => popBits (s.fa w t x) n) (fun _ => rfl) rfl fun _ _ _ => ?_
    funext s t x
    rw [popBits_eq_length_filter]
    exact congrArg List.length (List.filter_congr fun j hj => (getLsbD_bitsOf_of_lt (List.mem_range.mp hj) _).symm)
  case clz =>
    refine alu_gives (fun s t x => clzBits (s.fa w t x) n) (fun _ => rfl) rfl fun _ _ _ => ?_
    funext s t x
    rw [clzBits_eq_findIdx]
    exact findIdx_range_congr fun j hj => (getMsbD_bitsOf_of_lt hj _).symm
  case ctz =>
    refine alu_gives (fun s t x => ctzBits (s.fa w t x) n) (fun _ => rfl) rfl fun _ _ _ => ?_
    funext s t x
    rw [ctzBits_eq_findIdx]
    exact findIdx_range_congr fun j hj => (getLsbD_bitsOf_of_lt hj _).symm
  case brev =>
    exact bitwise_gives (fun s t x => revBits (s.fa w t x) n) (fun _ => rfl) rfl rfl rfl unfilled_of_tyB
      fun s t x => bitsOf_revBits _ _

/-! ### Fields (R106, R107) -/

/-- A list of the bits of a pattern is the pattern. -/
theorem toNat_ofBoolListLE_range {n : Nat} {p : Nat → Bool} (x : BitVec n) (h : ∀ j < n, x.getLsbD j = p j) :
    (BitVec.ofBoolListLE ((List.range n).map p)).toNat = x.toNat := by
  refine Nat.eq_of_testBit_eq fun j => ?_
  rw [BitVec.testBit_toNat, BitVec.testBit_toNat, BitVec.getLsbD_ofBoolListLE]
  by_cases hj : j < n
  · rw [h j hj]
    simp [hj]
  · rw [BitVec.getLsbD_of_ge _ _ (Nat.le_of_not_lt hj)]
    simp [hj]

/-- As `bitwise_gives`, the bits named one by one. -/
theorem bitwise_gives_bits {i : Instr} {w : FA} {ty ctl : Bool} {p : State → Nat → Nat → Nat → Bool}
    (f : State → Nat → Nat → Nat) (he : ∀ s, exec i s = bitwise i w f s) (hm : isMma i = false) (hc : i.common = some w.c)
    (hcase : i.fieldCase = aCase ty ctl) (hty : ty = true → Unfilled w.ty)
    (hfp : ∀ s t x, ∀ j < tyBits w.ty, (bitsOf w.ty (f s t x)).getLsbD j = p s t x j) :
    GivesValue i w.c w.dst (tyRegs w.ty) fun s t x => (BitVec.ofBoolListLE ((List.range (tyBits w.ty)).map (p s t x))).toNat := by
  have hlist : (fun s t x => (BitVec.ofBoolListLE ((List.range (tyBits w.ty)).map (p s t x))).toNat) =
      fun s t x => (bitsOf w.ty (f s t x)).toNat := by
    funext s t x
    exact toNat_ofBoolListLE_range _ (hfp s t x)
  rw [hlist]
  exact bitwise_gives f he hm hc hcase hty fun _ _ _ => rfl

theorem ibits_eq_toNat_ofInt (x : Int) (n : Nat) : ibits x n = (BitVec.ofInt n x).toNat := by
  rw [BitVec.toNat_ofInt]; rfl

theorem sext_eq_toInt (v b : Nat) : sext v b = (BitVec.ofNat b v).toInt := by
  rw [BitVec.toInt_eq_toNat_cond, BitVec.toNat_ofNat, sext]
  cases b with
  | zero => simp [Nat.mod_one]
  | succ b =>
    rw [pow_succ, Nat.add_sub_cancel]
    push_cast
    split <;> split <;> omega

theorem tyBits_pos (ty : BitVec 4) : 0 < tyBits ty := by
  revert ty; decide

/-- The integer of a TYPE is its pattern's, signed or not. -/
theorem intOf_eq_bitsOf (ty : BitVec 4) (v : Nat) :
    intOf ty v = if tySigned ty then (bitsOf ty v).toInt else ((bitsOf ty v).toNat : Int) := by
  obtain ⟨n, hn⟩ := Nat.exists_eq_succ_of_ne_zero (tyBits_pos ty).ne'
  rw [BitVec.toInt_eq_toNat_cond, toNat_bitsOf, intOf, hn, Nat.succ_sub_one, Nat.succ_eq_add_one, pow_succ]
  generalize v % (2 ^ n * 2) = u
  have hpow : ((2 ^ n * 2 : Nat) : Int) = 2 ^ n * 2 := by push_cast; rfl
  cases tySigned ty with
  | false => simp
  | true =>
    simp only [true_and, if_true]
    split <;> split <;> omega

/-- A pattern shifted down, with copies of its sign coming in for i types. -/
def shiftedDown (ty : BitVec 4) (x : BitVec (tyBits ty)) (pos : Nat) : BitVec (tyBits ty) :=
  if tySigned ty then x.sshiftRight pos else x >>> pos

theorem getLsbD_shiftedDown (ty : BitVec 4) (x : BitVec (tyBits ty)) (pos : Nat) {j : Nat} (hj : j < tyBits ty) :
    (shiftedDown ty x pos).getLsbD j = if pos + j < tyBits ty then x.getLsbD (pos + j) else tySigned ty && x.msb := by
  rw [shiftedDown]
  cases tySigned ty with
  | true =>
    rw [if_pos rfl, BitVec.getLsbD_sshiftRight, Bool.true_and]
    simp [hj]
  | false =>
    rw [if_neg Bool.false_ne_true, BitVec.getLsbD_ushiftRight]
    split
    · rfl
    · next h => simpa using BitVec.getLsbD_of_ge x _ (Nat.le_of_not_lt h)

/-- The low bits of an integer divided by a power of two are those of its pattern shifted down. -/
theorem ibits_intOf_div (ty : BitVec 4) (v pos : Nat) {len : Nat} (h : len ≤ tyBits ty) :
    ibits (intOf ty v / 2 ^ pos) len = ((shiftedDown ty (bitsOf ty v) pos).setWidth len).toNat := by
  have hpow : (2 : Int) ^ pos = ((2 ^ pos : Nat) : Int) := by push_cast; rfl
  rw [ibits_eq_toNat_ofInt, intOf_eq_bitsOf, shiftedDown, hpow]
  cases tySigned ty with
  | true =>
    rw [if_pos rfl, if_pos rfl, ← Int.shiftRight_eq_div_pow, ← BitVec.toInt_sshiftRight,
      ← BitVec.signExtend_eq_setWidth_of_le _ h, BitVec.signExtend]
  | false =>
    rw [if_neg Bool.false_ne_true, if_neg Bool.false_ne_true, ← Int.natCast_ediv, BitVec.ofInt_natCast, ← Nat.shiftRight_eq_div_pow,
      ← BitVec.toNat_ushiftRight, BitVec.ofNat_toNat]

/-- BFX gives the bits of its field, then the field's top bit for i types (R106). -/
theorem getLsbD_bfx (ty : BitVec 4) (a b : Nat) {j : Nat} (hj : j < tyBits ty) :
    (bitsOf ty (bfx ty a b)).getLsbD j =
      let x := shiftedDown ty (bitsOf ty a) (b % 256)
      let len := min (b / 256 % 256) (tyBits ty)
      if j < len then x.getLsbD j else decide (0 < len) && tySigned ty && x.getLsbD (len - 1) := by
  have hle : min (b / 256 % 256) (tyBits ty) ≤ tyBits ty := min_le_right _ _
  rw [getLsbD_bitsOf_of_lt hj]
  simp only [bfx]
  generalize min (b / 256 % 256) (tyBits ty) = len at hle ⊢
  rw [ibits_intOf_div ty a _ hle, sext_eq_toInt, ibits_eq_toNat_ofInt, BitVec.ofNat_toNat, BitVec.setWidth_eq]
  generalize shiftedDown ty (bitsOf ty a) (b % 256) = x
  by_cases h0 : len = 0
  · simp [h0]
  cases tySigned ty with
  | true =>
    rw [if_neg h0, if_pos rfl, BitVec.testBit_toNat, ← BitVec.signExtend, BitVec.getLsbD_signExtend, BitVec.msb_setWidth]
    split
    next h => rw [BitVec.getLsbD_setWidth]; simp [hj, h]
    next h => simp [hj]
  | false =>
    rw [if_neg h0, if_neg Bool.false_ne_true, BitVec.testBit_toNat, BitVec.getLsbD_setWidth]
    split
    next h => simp [h]
    next h => simp [h]

/-- BFI gives the low bits of a inside its field and those of b outside (R107). -/
theorem getLsbD_bfi (ty : BitVec 4) (a b c : Nat) {j : Nat} (hj : j < tyBits ty) :
    (bitsOf ty (bfi (tyBits ty) a b c)).getLsbD j =
      if c % 256 ≤ j ∧ j < c % 256 + c / 256 % 256 then (bitsOf ty a).getLsbD (j - c % 256) else (bitsOf ty b).getLsbD j := by
  rw [getLsbD_bitsOf_of_lt hj, getLsbD_bitsOf_of_lt hj, getLsbD_bitsOf_of_lt ((Nat.sub_le _ _).trans_lt hj)]
  simp only [bfi]
  generalize c % 256 = pos, c / 256 % 256 = len
  split
  next h => rw [if_neg (by omega)]
  next h =>
    push Not at h
    obtain ⟨hlen, hpos⟩ := h
    generalize hhi : min (pos + len) (tyBits ty) = hi
    have hle : pos ≤ hi := by omega
    have hmid : 2 ^ pos * (a % 2 ^ (hi - pos)) + b % 2 ^ pos < 2 ^ hi := by
      have hlow : b % 2 ^ pos < 2 ^ pos := Nat.mod_lt _ (Nat.two_pow_pos _)
      have hfield : a % 2 ^ (hi - pos) < 2 ^ (hi - pos) := Nat.mod_lt _ (Nat.two_pow_pos _)
      calc 2 ^ pos * (a % 2 ^ (hi - pos)) + b % 2 ^ pos
        _ < 2 ^ pos * (a % 2 ^ (hi - pos) + 1) := by rw [mul_add_one]; exact Nat.add_lt_add_left hlow _
        _ ≤ 2 ^ pos * 2 ^ (hi - pos) := Nat.mul_le_mul_left _ hfield
        _ = 2 ^ hi := by rw [← pow_add, Nat.add_sub_cancel' hle]
    rw [add_assoc, mul_comm _ (2 ^ hi), mul_comm _ (2 ^ pos), Nat.testBit_two_pow_mul_add _ hmid,
      Nat.testBit_two_pow_mul_add _ (Nat.mod_lt _ (Nat.two_pow_pos pos)), Nat.testBit_mod_two_pow, Nat.testBit_mod_two_pow,
      Nat.testBit_div_two_pow]
    by_cases hfield : pos ≤ j ∧ j < pos + len
    · have hinside : j - pos < hi - pos := by omega
      rw [if_pos hfield, if_pos (by omega), if_neg (by omega), decide_eq_true hinside, Bool.true_and]
    · rw [if_neg hfield]
      by_cases hbelow : j < pos
      · rw [if_pos (by omega), if_pos hbelow, decide_eq_true hbelow, Bool.true_and]
      · rw [if_neg (by omega), Nat.sub_add_cancel (by omega)]

/-! ### Bytes and addresses (R108, R109) -/

theorem toNat_append_eq {m n : Nat} (x : BitVec m) (y : BitVec n) : (x ++ y).toNat = x.toNat * 2 ^ n + y.toNat := by
  rw [BitVec.toNat_append, ← Nat.shiftLeft_add_eq_or_of_lt y.isLt, Nat.shiftLeft_eq]

/-- Byte k of a register pair. -/
def pairByte (a b k : Nat) : Nat := (if k < 4 then a / 256 ^ k else b / 256 ^ (k - 4)) % 256

theorem toNat_extractLsb'_pair (a b : Nat) {k : Nat} (hk : k < 8) :
    ((BitVec.ofNat 32 b ++ BitVec.ofNat 32 a).extractLsb' (8 * k) 8).toNat = pairByte a b k := by
  rw [BitVec.extractLsb'_toNat, toNat_append_eq, BitVec.toNat_ofNat, BitVec.toNat_ofNat, Nat.shiftRight_eq_div_pow, pairByte]
  interval_cases k <;> simp <;> omega

/-- The byte that nibble k of c names, or copies of its sign (R108). -/
def pickedByte (a b c : BitVec 32) (k : Nat) : BitVec 8 :=
  let v : BitVec 8 := (b ++ a).extractLsb' (8 * (c.extractLsb' (4 * k) 3).toNat) 8
  if c.getLsbD (4 * k + 3) then (if v.msb then (0xFF : BitVec 8) else 0) else v

/-- The same byte as the model computes it. -/
def prmtByte (a b c k : Nat) : Nat :=
  let v := pairByte a b (c / 16 ^ k % 16 % 8)
  if c / 16 ^ k % 16 < 8 then v else if v < 128 then 0 else 255
theorem prmt_eq_prmtBytes (a b c : Nat) : prmt a b c =
    prmtByte a b c 0 + 256 * prmtByte a b c 1 + 65536 * prmtByte a b c 2 + 16777216 * prmtByte a b c 3 := rfl

theorem toNat_pickedByte (a b c : Nat) {k : Nat} (hk : k < 4) :
    (pickedByte (BitVec.ofNat 32 a) (BitVec.ofNat 32 b) (BitVec.ofNat 32 c) k).toNat = prmtByte a b c k := by
  have hsel : ((BitVec.ofNat 32 c).extractLsb' (4 * k) 3).toNat = c / 16 ^ k % 16 % 8 := by
    rw [BitVec.extractLsb'_toNat, BitVec.toNat_ofNat, Nat.shiftRight_eq_div_pow]
    interval_cases k <;> simp <;> omega
  have hsign : (BitVec.ofNat 32 c).getLsbD (4 * k + 3) = decide (8 ≤ c / 16 ^ k % 16) := by
    rw [BitVec.getLsbD_ofNat, Nat.testBit_eq_decide_div_mod_eq]
    interval_cases k <;> simp <;> omega
  rw [pickedByte, hsel, hsign, prmtByte, ← toNat_extractLsb'_pair a b (Nat.mod_lt _ (by decide))]
  generalize c / 16 ^ k % 16 = x
  generalize BitVec.extractLsb' (8 * (x % 8)) 8 (BitVec.ofNat 32 b ++ BitVec.ofNat 32 a) = v
  have hmsb : v.msb = decide (128 ≤ v.toNat) := BitVec.msb_eq_decide v
  rcases Nat.lt_or_ge x 8 with hx | hx
  · simp [hx, Nat.not_le_of_lt hx]
  · rcases Nat.lt_or_ge v.toNat 128 with hv | hv
    · simp [hmsb, hx, Nat.not_lt_of_le hx, hv, Nat.not_le_of_lt hv]
    · simp [hmsb, hx, Nat.not_lt_of_le hx, hv, Nat.not_lt_of_le hv]

/-- PRMT gives the four bytes that it picks. -/
theorem prmt_eq_pickedBytes (a b c : Nat) :
    let byte := pickedByte (BitVec.ofNat 32 a) (BitVec.ofNat 32 b) (BitVec.ofNat 32 c)
    prmt a b c = (byte 3 ++ byte 2 ++ byte 1 ++ byte 0).toNat := by
  intro byte
  simp only [toNat_append_eq, byte, toNat_pickedByte, Nat.reduceLT, prmt_eq_prmtBytes]
  omega

/-- LEA adds the shifted offset to the base modulo 2^64 (R109). -/
theorem ibits_lea (ty : BitVec 4) (a b : Nat) (ctl : BitVec 5) (h : ty = i32 ∨ ty = n32) :
    ibits ((a : Int) + intOf ty b * 2 ^ (ctl.toNat / 2)) 64 =
      (BitVec.ofNat 64 a + ((if ty = i32 then (BitVec.ofNat 32 b).signExtend 64 else (BitVec.ofNat 32 b).setWidth 64) <<<
        (ctl.extractLsb' 1 4).toNat)).toNat := by
  have hsh : (ctl.extractLsb' 1 4).toNat = ctl.toNat / 2 := by
    rw [BitVec.extractLsb'_toNat, Nat.shiftRight_eq_div_pow]
    omega
  have hoff : BitVec.ofInt 64 (intOf ty b) = if ty = i32 then (BitVec.ofNat 32 b).signExtend 64 else (BitVec.ofNat 32 b).setWidth 64 := by
    rw [intOf_eq_bitsOf]
    rcases h with rfl | rfl
    · rfl
    · exact (BitVec.ofInt_natCast _ _).trans (BitVec.ofNat_toNat _ _)
  have hpow : BitVec.ofInt 64 (2 ^ (ctl.toNat / 2)) = BitVec.twoPow 64 (ctl.toNat / 2) := by
    refine BitVec.eq_of_toNat_eq ?_
    rw [BitVec.toNat_twoPow, BitVec.toNat_ofInt]
    exact Int.toNat_natCast _
  rw [ibits_eq_toNat_ofInt, BitVec.ofInt_add, BitVec.ofInt_mul, hoff, hsh, BitVec.shiftLeft_eq_mul_twoPow, hpow,
    BitVec.ofInt_natCast]

/-- Settles O6: BFX and BFI bit by bit, PRMT byte by byte, and LEA as a sum modulo 2^64. -/
theorem fieldsBytesAndAddresses : Obligations.FieldsBytesAndAddresses := by
  unfold Obligations.FieldsBytesAndAddresses
  intro w n
  refine ⟨?bfx, ?bfi, ?prmt, ?lea⟩
  case bfx =>
    refine bitwise_gives_bits (fun s t x => bfx w.ty (s.fa w t x) (s.fb32 w t x)) (fun _ => rfl) rfl rfl rfl unfilled_of_tyWide
      fun s t x j hj => ?_
    have htop : min (s.fb32 w t x / 256 % 256) n - 1 < n := by
      have hpos : 0 < n := tyBits_pos w.ty
      omega
    rw [getLsbD_bfx _ _ _ hj]
    dsimp only
    rw [getLsbD_shiftedDown _ _ _ hj, getLsbD_shiftedDown _ _ _ htop]
  case bfi =>
    exact bitwise_gives_bits (fun s t x => bfi n (s.fa w t x) (s.fb w t x) (s.opnd t x w.sc 1)) (fun _ => rfl) rfl rfl rfl
      unfilled_of_tyB fun s t x j hj => getLsbD_bfi _ _ _ _ hj
  case prmt =>
    exact alu_gives (fun s t x => prmt (s.fa w t x) (s.fb w t x) (s.fc w t x)) (fun _ => rfl) rfl fun _ _ _ => by
      funext s t x
      exact prmt_eq_pickedBytes _ _ _
  case lea =>
    refine alu_gives (fun s t x => ibits ((s.opnd t x w.sa 2 : Nat) + intOf w.ty (s.fb32 w t x) * 2 ^ (w.ctl.toNat / 2)) 64)
      (fun _ => rfl) rfl fun s k h => ?_
    obtain ⟨hty, -⟩ := h.typed rfl rfl rfl
    funext s t x
    exact ibits_lea _ _ _ _ (by simpa using hty)

end Sys2Proof.Machine
end

section
/-! Words that compare or classify, and short float words: what they give each thread. -/

namespace Sys2Proof.Machine

open Sys2Proof

/-! ### Conditions (R110, R113, R114) -/

/-- A word with a predicate gives each thread its function's value and condition. -/
theorem aluPred_gives {i : Instr} {w : FA} {n : Nat} {pd : BitVec 3} {v : State → Nat → Nat → Nat} {p : State → Nat → Nat → Bool}
    (f : State → Nat → Nat → Nat × Bool) (he : ∀ s, exec i s = aluPred i w n pd f s) (hb : isBrk i = false)
    (hf : ∀ s t x, f s t x = (v s t x, p s t x)) : GivesValueAndPredicate i w.c w.dst n pd v p := by
  intro s k h
  rw [he, aluPred, simple_stands h hb]
  simp only [hf, List.map_map, List.foldl_map]
  rfl

/-- A condition with its mask, in whatever way the condition is written. -/
theorem mask_and_condition {p q : Bool} (h : p = q) : (maskOf p, p) = (if q then 2 ^ 32 - 1 else 0, q) := by
  rw [h]; rfl

/-- CMP's conditions as R110 lists them. -/
theorem intCond_eq (c : Nat) (a b : Int) : intCond c a b = match c with
    | 0 => decide (a = b) | 1 => decide (a ≠ b) | 2 => decide (a < b) | 3 => decide (a ≤ b)
    | 4 => decide (a > b) | _ => decide (a ≥ b) := by
  unfold intCond
  split <;> simp [beq_eq_decide, bne]

/-- The value by which FCMP orders bits: the two zeros are one value (R113). -/
def Fm.orderOf (f : Fm) (v : Nat) : Int := if v % f.signBit = 0 then 0 else f.key v

/-- FCMP's conditions as R113 lists them. -/
theorem floatCond_eq (f : Fm) (ftz : Bool) (c a b : Nat) :
    let val := fun (v : Nat) => f.orderOf (f.flush ftz v)
    let nan := fun (v : Nat) => f.isNan (f.flush ftz v)
    c < 8 → floatCond f ftz c a b = match c with
    | 0 => !(nan a || nan b) && decide (val a = val b) | 1 => nan a || nan b || decide (val a ≠ val b)
    | 2 => !(nan a || nan b) && decide (val a < val b) | 3 => !(nan a || nan b) && decide (val a ≤ val b)
    | 4 => !(nan a || nan b) && decide (val a > val b) | 5 => !(nan a || nan b) && decide (val a ≥ val b)
    | 6 => nan a || nan b | _ => !(nan a || nan b) := by
  intro val nan hc
  have hord {n : Nat} {p : Bool} (h : intCond n (val a) (val b) = p) :
      (!(nan a || nan b) && intCond n (val a) (val b)) = (!(nan a || nan b) && p) := by rw [h]
  match c, hc with
  | 0, _ => exact hord (intCond_eq 0 _ _)
  | 1, _ =>
    have hne : (val a != val b) = decide (val a ≠ val b) := by rw [bne, beq_eq_decide, decide_not]
    exact congrArg (nan a || nan b || ·) hne
  | 2, _ => exact hord (intCond_eq 2 _ _)
  | 3, _ => exact hord (intCond_eq 3 _ _)
  | 4, _ => exact hord (intCond_eq 4 _ _)
  | 5, _ => exact hord (intCond_eq 5 _ _)
  | 6, _ => rfl
  | 7, _ => rfl

/-- A value as its operation reads it fits its format. -/
theorem Fm.flush_lt (f : Fm) (ftz : Bool) (v : Nat) : f.flush ftz v < 2 * f.signBit := by
  have hwidth : 2 ^ f.width = 2 * f.signBit := by rw [Fm.width, Fm.signBit, add_assoc, Nat.pow_add, pow_one]
  have hpos : 0 < f.signBit := Nat.two_pow_pos _
  simp only [Fm.flush, Fm.zero]
  split
  · split <;> omega
  · rw [hwidth]
    exact Nat.mod_lt _ (by omega)

theorem Fm.sign_eq_decide {f : Fm} {v : Nat} (h : v < 2 * f.signBit) : (v / f.signBit % 2 == 1) = decide (f.signBit ≤ v) := by
  rcases Nat.lt_or_ge v f.signBit with hv | hv
  · simp [Nat.div_eq_of_lt hv, hv]
  · have hone : v / f.signBit = 1 := Nat.div_eq_of_lt_le (by omega) (by omega)
    simp [hone, hv]

/-- FCLASS's classes by the bits of the magnitude (R114). -/
theorem two_pow_classOf (f : Fm) (ftz : Bool) (v : Nat) :
    let e := f.flush ftz v
    let neg := decide (f.signBit ≤ e)
    2 ^ classOf f ftz v =
      if f.isNan e then (if e % f.signBit < f.inf + 2 ^ (f.mb - 1) then 2 ^ 8 else 2 ^ 9)
      else if e % f.signBit = f.inf then (if neg then 2 ^ 0 else 2 ^ 7)
      else if e % f.signBit = 0 then (if neg then 2 ^ 3 else 2 ^ 4)
      else if e % f.signBit < 2 ^ f.mb then (if neg then 2 ^ 2 else 2 ^ 5)
      else (if neg then 2 ^ 1 else 2 ^ 6) := by
  intro e neg
  have hneg : (e / f.signBit % 2 == 1) = neg := Fm.sign_eq_decide (f.flush_lt ftz v)
  have hpos : 0 < 2 ^ f.mb := Nat.two_pow_pos _
  have hsplit := Nat.div_add_mod' (e % f.signBit) (2 ^ f.mb)
  have hm : e % f.signBit % 2 ^ f.mb < 2 ^ f.mb := Nat.mod_lt _ hpos
  have hquot (h : e % f.signBit = f.inf) : e % f.signBit / 2 ^ f.mb = f.top := by rw [h, Fm.inf, Nat.mul_div_cancel _ hpos]
  simp only [classOf, Fm.isNan, f.fields_eq, show f.flush ftz v = e from rfl, hneg, Bool.and_eq_true, beq_iff_eq, bne_iff_ne]
  generalize e % f.signBit = c at *
  generalize c / 2 ^ f.mb = x at *
  generalize c % 2 ^ f.mb = m at *
  have hinf : f.inf = f.top * 2 ^ f.mb := rfl
  by_cases htop : x = f.top
  · rw [htop] at hsplit
    rcases Nat.eq_zero_or_pos m with h0 | hm0
    · have hc : c = f.inf := by omega
      simp [htop, h0, hc, pow_ite]
    · rcases Nat.lt_or_ge m (2 ^ (f.mb - 1)) with hq | hq
      · have hlt : c < f.inf + 2 ^ (f.mb - 1) := by omega
        simp [htop, hm0.ne', hlt, Nat.not_le_of_lt hq]
      · have hge : ¬ c < f.inf + 2 ^ (f.mb - 1) := by omega
        simp [htop, hm0.ne', hge, hq]
  · have hc : c ≠ f.inf := fun h => htop (hquot h)
    rcases Nat.eq_zero_or_pos x with rfl | hx
    · obtain rfl : m = c := by rw [← hsplit, zero_mul, zero_add]
      simp [htop, hc, hm, pow_ite]
    · have hlow : 2 ^ f.mb ≤ x * 2 ^ f.mb := Nat.le_mul_of_pos_left _ hx
      have hc0 : c ≠ 0 := by omega
      have hnorm : ¬ c < 2 ^ f.mb := by omega
      simp [htop, hx.ne', hc, hc0, hnorm, pow_ite]

/-- Settles O7: each condition is the one that its number names, and FCLASS's bit follows from the magnitude and the sign. -/
theorem comparisonsWriteMaskAndPredicate : Obligations.ComparisonsWriteMaskAndPredicate := by
  unfold Obligations.ComparisonsWriteMaskAndPredicate
  intro w cond icond f val nan fcond
  refine ⟨?cmp, ?fcmp, ?fclass⟩
  case cmp =>
    exact aluPred_gives (fun s t x =>
        let r := intCond cond (s.ia w t x) (intOf w.ty (s.opnd t x w.sb (tyRegs w.ty)))
        (maskOf r, r)) (fun _ => rfl) rfl fun s t x => mask_and_condition (intCond_eq _ _ _)
  case fcmp =>
    exact aluPred_gives (fun s t x =>
        let r := floatCond f (ftzOf w) cond (s.ga w t x) (s.gb w t x)
        (maskOf r, r)) (fun _ => rfl) rfl fun s t x => mask_and_condition (floatCond_eq f _ _ _ _ (BitVec.isLt _))
  case fclass =>
    refine alu_gives (fun s t x => 2 ^ classOf f (ftzOf w) (s.ga w t x)) (fun _ => rfl) rfl fun _ _ _ => ?_
    funext s t x
    exact two_pow_classOf f _ _

/-! ### Short float words (R112, R113, R115) -/

/-- FMIN and FMAX as R113 words them: one NaN is passed over, and of two values the one that is not above, or not below, is taken. -/
theorem Fm.minmax_eq (f : Fm) (isMax ftz : Bool) (a b : Nat) :
    f.minmax isMax ftz a b =
      let a := f.flush ftz a
      let b := f.flush ftz b
      if f.isNan a && f.isNan b then f.nan else if f.isNan a then b else if f.isNan b then a
      else if f.key a ≤ f.key b then (if isMax then b else a) else (if isMax then a else b) := by
  simp only [Fm.minmax]
  generalize f.flush ftz a = a
  generalize f.flush ftz b = b
  cases f.isNan a with
  | true => cases f.isNan b <;> rfl
  | false =>
    cases f.isNan b with
    | true => rfl
    | false => cases isMax <;> by_cases hk : f.key a ≤ f.key b <;> simp [hk]

/-- Settles O8: each is the model's function of the operands as the format reads them. -/
theorem floatArithmeticRoundsOnce : Obligations.FloatArithmeticRoundsOnce := by
  unfold Obligations.FloatArithmeticRoundsOnce
  intro w f rm ftz a b
  refine ⟨?fadd, ?fsub, ?fmul, ?ffma, ?fmin, ?fmax, ?fscale, ?frnd, ?fdot2⟩
  case fadd => exact alu_gives (fun s t x => f.add rm ftz (s.ga w t x) (s.gb w t x)) (fun _ => rfl) rfl fun _ _ _ => rfl
  case fsub => exact alu_gives (fun s t x => f.sub rm ftz (s.ga w t x) (s.gb w t x)) (fun _ => rfl) rfl fun _ _ _ => rfl
  case fmul => exact alu_gives (fun s t x => f.mul rm ftz (s.ga w t x) (s.gb w t x)) (fun _ => rfl) rfl fun _ _ _ => rfl
  case ffma => exact alu_gives (fun s t x => f.fma rm ftz (s.ga w t x) (s.gb w t x) (s.gc w t x)) (fun _ => rfl) rfl fun _ _ _ => rfl
  case fmin =>
    refine alu_gives (fun s t x => f.minmax false ftz (s.ga w t x) (s.gb w t x)) (fun _ => rfl) rfl fun _ _ _ => ?_
    funext s t x
    exact Fm.minmax_eq f false ftz _ _
  case fmax =>
    refine alu_gives (fun s t x => f.minmax true ftz (s.ga w t x) (s.gb w t x)) (fun _ => rfl) rfl fun _ _ _ => ?_
    funext s t x
    exact Fm.minmax_eq f true ftz _ _
  case fscale =>
    refine alu_gives (fun s t x => f.scale rm ftz (s.ga w t x) (sext (s.fb32 w t x) 32)) (fun _ => rfl) rfl fun _ _ _ => ?_
    funext s t x
    rw [sext_eq_toInt]
    rfl
  case frnd => exact alu_gives (fun s t x => f.rnd rm ftz (s.ga w t x)) (fun _ => rfl) rfl fun _ _ _ => rfl
  case fdot2 =>
    refine alu_gives (fun s t x => dot2 f rm ftz (s.opnd t x w.sa 1) (s.opnd t x w.sb 1) (s.opnd t x w.sc 1)) (fun _ => rfl) rfl
      fun _ _ _ => ?_
    funext s t x
    simp only [dot2, Nat.mul_zero, Nat.mul_one, Nat.pow_zero, Nat.div_one, Nat.reducePow]

end Sys2Proof.Machine
end

section
/-! Conversions, moves and lane words: what they give each thread, and what they write besides. -/

namespace Sys2Proof.Machine

open Sys2Proof

/-! ### Conversions (R116 to R118) -/

/-- The low bits of an integer's bits are its bits at the lower width. -/
theorem ibits_mod_two_pow {m n : Nat} (h : m ≤ n) (x : Int) : ibits x n % 2 ^ m = ibits x m := by
  have hnonneg : 0 ≤ x % 2 ^ n := Int.emod_nonneg _ (by positivity)
  have hnonneg' : 0 ≤ x % 2 ^ m := Int.emod_nonneg _ (by positivity)
  apply Int.ofNat_inj.mp
  rw [ibits, ibits]
  push_cast
  rw [Int.toNat_of_nonneg hnonneg, Int.toNat_of_nonneg hnonneg', Int.emod_emod_of_dvd _ (pow_dvd_pow 2 h)]

theorem tyBits_le_64 (ty : BitVec 4) : tyBits ty ≤ 64 := by
  revert ty; decide

/-- The range of a TYPE holds zero. -/
theorem tyMin_le_zero (ty : BitVec 4) : tyMin ty ≤ 0 := by revert ty; decide
theorem zero_le_tyMax (ty : BitVec 4) : 0 ≤ tyMax ty := by revert ty; decide

/-- An integer in the range of a TYPE is not reduced. -/
theorem wrapInt_of_range {ty : BitVec 4} {x : Int} (hlo : tyMin ty ≤ x) (hhi : x ≤ tyMax ty) : wrapInt ty x = x := by
  obtain ⟨n, hn⟩ := Nat.exists_eq_succ_of_ne_zero (tyBits_pos ty).ne'
  rw [tyMin, hn, Nat.succ_sub_one] at hlo
  rw [tyMax, hn, Nat.succ_sub_one] at hhi
  rw [wrapInt]
  simp only [hn, Nat.succ_sub_one]
  have hpow : (2 : Int) ^ (n + 1) = 2 * 2 ^ n := by rw [pow_succ, mul_comm]
  cases hs : tySigned ty with
  | true =>
    simp only [hs, if_true] at hlo hhi ⊢
    rw [Int.emod_eq_of_lt (by omega) (by rw [Nat.succ_eq_add_one]; omega)]
    omega
  | false =>
    simp only [hs, Bool.false_eq_true, if_false] at hlo hhi ⊢
    exact Int.emod_eq_of_lt hlo (by omega)

/-- A float as an integer lies in the range asked for, which holds zero (R116). -/
theorem floatToInt_bounds (g : Fm) (rm : Rm) {lo hi : Int} (hlo : lo ≤ 0) (hhi : 0 ≤ hi) (a : Nat) :
    lo ≤ floatToInt g rm lo hi a ∧ floatToInt g rm lo hi a ≤ hi := by
  unfold floatToInt
  split
  · exact ⟨hlo, hhi⟩
  · split <;> omega
  · dsimp only
    omega

/-- An integer in the range of an integer TYPE has the register bits of its 64-bit form. -/
theorem fillTy_ibits_of_range {ty : BitVec 4} (hty : tyInt ty = true) {x : Int} (hlo : tyMin ty ≤ x) (hhi : x ≤ tyMax ty) :
    fillTy ty (ibits x 64) = ibits x (32 * tyRegs ty) := by
  calc fillTy ty (ibits x 64)
    _ = fillTy ty (ibits x (tyBits ty)) := by
      simp only [fillTy, ibits_mod_two_pow (tyBits_le_64 ty), ibits_mod_two_pow le_rfl]
    _ = narrow ty false x := rfl
    _ = ibits (wrapInt ty x) (32 * tyRegs ty) := narrow_eq_intResult ty false x hty
    _ = ibits x (32 * tyRegs ty) := by rw [wrapInt_of_range hlo hhi]

/-- CVT of a value, where its TYPE is an integer or float type (R116). -/
theorem cvt_eq {w : FA} (hty : tyFloat w.ty = false → tyInt w.ty = true) (a : Nat) :
    let g := fmOf w.sty
    cvt w a =
      if tyFloat w.ty ∧ tyFloat w.sty then cvtFloat g (fmOf w.ty) (w.ctl.toNat % 4) (w.ctl.getLsbD 2) (a % 2 ^ g.width)
      else if tyFloat w.ty then (fmOf w.ty).roundI (w.ctl.toNat % 4) false false (intOf w.sty a) 0
      else if tyFloat w.sty then
        ibits (floatToInt g (w.ctl.toNat / 2 % 4) (tyMin w.ty) (tyMax w.ty) (a % 2 ^ g.width)) (32 * tyRegs w.ty)
      else intResult w.ty (w.ctl.getLsbD 0) (intOf w.sty a) := by
  intro g
  unfold cvt
  cases hf : tyFloat w.ty with
  | true => cases tyFloat w.sty <;> rfl
  | false =>
    cases tyFloat w.sty with
    | true =>
      obtain ⟨hlo, hhi⟩ := floatToInt_bounds g (w.ctl.toNat / 2 % 4) (tyMin_le_zero w.ty) (zero_le_tyMax w.ty) (a % 2 ^ g.width)
      exact fillTy_ibits_of_range (hty hf) hlo hhi
    | false => exact narrow_eq_intResult _ _ _ (hty hf)

/-- The 16 bits of a narrowed integer. -/
theorem narrow_mod (ty : BitVec 4) (sat : Bool) (x : Int) (h : tyInt ty = true) :
    narrow ty sat x % 2 ^ 16 = ibits (if sat then clampInt ty x else wrapInt ty x) 16 := by
  have hregs : 16 ≤ 32 * tyRegs ty := by revert ty; decide
  rw [narrow_eq_intResult ty sat x h, intResult, ibits_mod_two_pow hregs]

theorem fillTy_i16 (v : Nat) : fillTy i16 v = ibits (sext v 16) 32 := by
  simp only [fillTy, ibits, sext, tyBits, tySigned]
  simp
  split <;> split <;> omega

/-- Of the types of PACK, those that are no float and no pattern are integer types (R117). -/
theorem tyInt_of_packed {ty : BitVec 4} (h : (ty = f16 || ty = bf16 || ty = i16 || ty = n16 || ty = b16) = true) :
    tyFloat ty = false → ty ≠ b16 → tyInt ty = true := by
  revert h; revert ty; decide

/-- A half of PACK (R117). -/
theorem packHalf_eq {w : FA} (hty : tyFloat w.ty = false → w.ty ≠ b16 → tyInt w.ty = true) :
    packHalf w =
      if tyFloat w.ty then cvtFloat fm32 (fmOf w.ty) (w.ctl.toNat % 4) (w.ctl.getLsbD 2) else if w.ty = b16 then (· % 2 ^ 16)
      else fun (v : Nat) => ibits (if w.ctl.getLsbD 0 then clampInt w.ty (intOf (if w.ty = i16 then i32 else n32) v)
        else wrapInt w.ty (intOf (if w.ty = i16 then i32 else n32) v)) 16 := by
  funext v
  unfold packHalf
  cases hf : tyFloat w.ty with
  | true => rfl
  | false =>
    by_cases hb : w.ty = b16
    · simp only [hb, if_true, Bool.false_eq_true, if_false]
      rfl
    · simp only [hb, Bool.false_eq_true, if_false]
      exact narrow_mod _ _ _ (hty hf hb)

/-- A half of UNPK (R117). -/
theorem unpkHalf_eq (w : FA) :
    unpkHalf w = if tyFloat w.ty then cvtFloat (fmOf w.ty) fm32 0 (w.ctl.getLsbD 2)
      else if w.ty = i16 then fun (v : Nat) => ibits (sext v 16) 32 else id := by
  funext v
  unfold unpkHalf
  cases tyFloat w.ty with
  | true => rfl
  | false =>
    by_cases hi : w.ty = i16
    · simp only [hi, if_true, Bool.false_eq_true, if_false]
      exact fillTy_i16 v
    · simp only [hi, Bool.false_eq_true, if_false, id]

/-- Settles O11: a converted integer is narrowed or clamped to its TYPE, and a float's lies in the TYPE's range. -/
theorem conversionsGiveTheirValue : Obligations.ConversionsGiveTheirValue := by
  unfold Obligations.ConversionsGiveTheirValue
  intro w sat rm ftz half wide
  refine ⟨?cvt, ?pack, ?unpk, ?qdec, fun s k h => simple_stands h rfl _⟩
  case cvt =>
    refine alu_gives (fun s t x => cvt w (s.opnd t x w.sa (tyRegs w.sty))) (fun _ => rfl) rfl fun s k h => ?_
    have hty : (tyInt w.ty || tyFloat w.ty) = true :=
      Laws.Encodes.firstCase_all (h.fields rfl rfl) (_, .value) List.mem_cons_self
    funext s t x
    exact cvt_eq (fun hf => by simpa [hf] using hty) _
  case pack =>
    refine alu_gives (fun s t x => packHalf w (s.opnd t x w.sa 1) + 65536 * packHalf w
      (if w.sb = 0xF1 ∧ tyFloat w.ty then immFloat fm32 w.sc else s.src t x w.sb w.sc 1)) (fun _ => rfl) rfl fun s k h => ?_
    obtain ⟨hty, -⟩ := h.typed rfl rfl rfl
    funext s t x
    rw [packHalf_eq (tyInt_of_packed hty)]
    rfl
  case unpk =>
    refine alu_gives (fun s t x => unpkHalf w (s.opnd t x w.sa 1 % 65536) + 2 ^ 32 * unpkHalf w (s.opnd t x w.sa 1 / 65536 % 65536))
      (fun _ => rfl) rfl fun _ _ _ => ?_
    rw [unpkHalf_eq]
    rfl
  case qdec =>
    exact alu_gives (fun s t x => (fmOf w.ty).ofQ (sext (s.opnd t x w.sa 1) (if w.ctl.getLsbD 3 then 4 else 8))
      (sext (s.opnd t x w.sa 1 / 256) 8)) (fun _ => rfl) rfl fun _ _ _ => rfl

/-! ### Moves, special registers and predicates (R119 to R122) -/

/-- pmov.get gives the eight predicates of a thread as bits, p7 true (R122). -/
theorem predicates_eq_sum (x : Thread) :
    128 + x.p.toNat = ((List.range 8).map fun j => if x.pred (BitVec.ofNat 3 j) then 2 ^ j else 0).sum := by
  have hbits : ∀ p : BitVec 7, 128 + p.toNat = ((List.range 8).map fun j =>
      if (if BitVec.ofNat 3 j = 7 then true else p.getLsbD (BitVec.ofNat 3 j).toNat) then 2 ^ j else 0).sum := by decide
  exact hbits x.p

/-- Settles O13: words whose effect never waits, and RDS, which for MPROG waits for its gangs. -/
theorem movesSpecialsAndPredicates : Obligations.MovesSpecialsAndPredicates := by
  unfold Obligations.MovesSpecialsAndPredicates
  intro w v
  refine ⟨?mov, fun s k h => simple_stands h rfl _, fun s k h => simple_stands h rfl _, ?rds, ?mprog,
    fun s k h => simple_stands h rfl _, fun s k h => simple_stands h rfl _, ?get, fun s k h => simple_stands h rfl _⟩
  case mov => exact alu_gives (fun s t x => s.fa w t x) (fun _ => rfl) rfl fun _ _ _ => rfl
  case rds =>
    intro hsc s k h
    have hidx : w.sc.toNat ≠ 0x12 := fun h => hsc (BitVec.eq_of_toNat_eq h)
    refine (word_stands h rfl _ _).trans ?_
    simp only [hidx, if_false]
    rfl
  case mprog =>
    intro s k h hsc s' d hd
    have hidx : w.sc.toNat = 0x12 := congrArg BitVec.toNat hsc
    refine (word_stands h rfl _ _).trans ?_
    simp only [hidx, if_true]
    rw [show s.settled k (.rds w) w.c = s' from rfl, hd]
    rfl
  case get =>
    intro s k h
    refine (simple_stands h rfl _).trans ?_
    simp only [predicates_eq_sum]
    rfl

/-! ### Lane words (R123 to R127) -/

/-- What VOTE says of a lane set: whether any, whether every, or whether every vote is the same (R124). -/
def State.voteOf (s : State) (w : FA) (t : Nat) (set : List Nat) : Bool :=
  match w.ctl10.toNat with
  | 0 => set.any (s.vote w t)
  | 1 => set.all (s.vote w t)
  | _ => set.all (s.vote w t) || set.all fun j => !s.vote w t j

theorem State.voteSet_eq (s : State) {w : FA} (hb : w.ctl10 ≠ 3) (t : Nat) (set : List Nat) :
    s.voteSet w t set = ((s.voteOf w t set).toNat, s.voteOf w t set) := by
  unfold State.voteSet
  simp only [hb, if_false, List.any_map, List.all_map]
  rfl

/-- Settles O14: words whose effect never waits; of VOTE, the votes of each set. -/
theorem laneInstructionsActOnLaneSets : Obligations.LaneInstructionsActOnLaneSets := by
  unfold Obligations.LaneInstructionsActOnLaneSets
  intro w
  refine ⟨fun s k h => simple_stands h rfl _, ?vote, ?ballot, fun s k h => simple_stands h rfl _,
    fun s k h => simple_stands h rfl _, fun s k h => simple_stands h rfl _⟩
  case vote =>
    intro hb s k h
    refine (simple_stands h rfl _).trans ?_
    simp only [hb, if_false, State.voteSet_eq _ hb, List.map_map, List.foldl_map]
    rfl
  case ballot =>
    intro hb s k h
    refine (simple_stands h rfl _).trans ?_
    simp only [hb, if_true, State.voteSet, List.map_map]
    rfl

end Sys2Proof.Machine
end

section
/-! SUBB and SHR where a thread's number does not fit 32 bits: TIDX then reads a value wider than TYPE, on which the model and the
statements differ. Any other operand of n registers holds 32n bits. -/

namespace Sys2Proof.Machine

open Sys2Proof

/-! ### A team with a thread beyond 2^32 -/

/-- Fields of a word that goes on to the next one and is not guarded. -/
def plainWord : Common := { nas := 0, look := 0, ts := 0, tok := 0, pneg := 0, pidx := 7 }
/-- SUBB v0, ZERO, TIDX under n32: no borrow in, the borrow out to p7. -/
def subbTidx : FA := { c := plainWord, dst := 0, sa := 0xF0, sb := 0xF3, sc := 0x70, ty := n32, ctl := 0 }
/-- SHR v0, TIDX, 2 under n32. -/
def shrTidx : FA := { c := plainWord, dst := 0, sa := 0xF3, sb := 0xF1, sc := 2, ty := n32, ctl := 0 }

/-- A clause of a word and one more. -/
def twoWords (w : DWord) : Clause := { addr := 0x10000, header := 0x0100000000000000, words := [w, 0], brk := [0, 0, 0, 0] }
theorem last_twoWords (w : DWord) : (twoWords w).last 0 = false := by
  have hcnt : (Header.ofWord 0x0100000000000000).cnt.toNat = 1 := by decide
  rw [Clause.last, show (twoWords w).cnt = 1 from hcnt]
  rfl
/-- A thread of one vector register that has exited. -/
def exitedThread : Thread := { Thread.start 0x10000 1 0 none with wait := .exited }
/-- A thread of one vector register at the first word of a clause. -/
def readyThread (c : Clause) : Thread := { Thread.start 0x10000 1 0 none with mid := some (c, 0) }
/-- After reset, a team of n + 1 threads in one home warp: the last stands at the first word of a clause, the others have exited. -/
def crowd (n : Nat) (c : Clause) : State :=
  { State.reset.modCore 0 fun x => { x with issue := x.issue.set 0 (some (0, 0)) } with
    teams := [{ teamAt 0 0 0 c with ntid := n + 1, width := n + 1, threads := List.replicate n exitedThread ++ [readyThread c] }]
    groups := [{ team := 0, num := 0, threads := [n], parked := false, issued := 0, parkedAt := 0 }] }
/-- Its current issue. -/
def crowdIssue (n : Nat) (c : Clause) : Iss :=
  { core := 0, part := 0, team := 0, num := 0, threads := [n], clause := c, pos := 0 }

section
variable (n : Nat) (c : Clause)

theorem threads_crowd : ((crowd n c).team 0).threads = List.replicate n exitedThread ++ [readyThread c] := rfl
theorem thread_crowd_last : (crowd n c).thread 0 n = readyThread c := by
  rw [State.thread, threads_crowd]
  simp
theorem pend_crowd (j : Nat) : ((crowd n c).thread 0 j).pend = [] := by
  rw [State.thread, threads_crowd]
  simp only [List.getD_eq_getElem?_getD, List.getElem?_append, List.getElem?_replicate, List.length_replicate]
  split
  · rfl
  · cases j - n <;> rfl
theorem iss_crowd : (crowd n c).iss = some (crowdIssue n c) := by
  have hissue : ((crowd n c).core 0).issue.getD 0 none = some (0, 0) := rfl
  have hgroup : ∃ g, (crowd n c).group 0 0 = some g ∧ g.threads = [n] := ⟨_, rfl, rfl⟩
  obtain ⟨g, hg, hthreads⟩ := hgroup
  have hturn : (crowd n c).turn = (0, 0) := rfl
  simp only [State.iss, hturn, hissue, hg, hthreads, thread_crowd_last]
  rfl

end

/-! ### A word where no result is pending (R50, R51) -/

section
variable {s : State} {k : Iss} (hp : ∀ j, (s.thread k.team j).pend = [])
include hp

theorem State.open_of_no_pend (j : Nat) : (s.thread k.team j).open_ = [] := by rw [Thread.open_, hp]; rfl
theorem State.settleGuard_of_no_pend (c : Common) : s.settleGuard k c = s :=
  foldl_eq_self fun j _ => by rw [State.open_of_no_pend hp]; rfl
theorem State.guardOpen_of_no_pend (c : Common) : s.guardOpen k c = false := by
  simp [State.guardOpen, State.open_of_no_pend hp]
theorem State.settleFor_of_no_pend (i : Instr) (c : Common) (ex : List Nat) : s.settleFor k i c ex = s :=
  foldl_eq_self fun w _ => foldl_eq_self fun j _ => by rw [State.open_of_no_pend hp]; rfl
theorem State.waitsFor_of_no_pend (i : Instr) {c : Common} (hc : c.ts = 0) (ex : List Nat) : s.waitsFor k i c ex = false := by
  simp [State.waitsFor, State.open_of_no_pend hp, hc]

/-- A word that is an instruction, that any thread may execute and that a speculation window may hold stands at an issue whose wait has not
ended, where no comparator matches and nothing is pending. -/
theorem stands_of_no_pend {i : Instr} {c : Common} (hi : s.iss = some k) (hr : (s.thread k.team (k.threads.headD 0)).released = false)
    (hb : breaks k.clause.brk k.pc = false) (hv : s.notInstr k i c = false) (hpriv : ∀ j, s.privFault k.team j i = false)
    (hc : c.ts = 0) (hn : c.nas ≠ 7) (hw : inWindow i = true) : Stands s k i c := by
  have hg : s.guarded k c = s := State.settleGuard_of_no_pend hp c
  have hf : s.settleFor k i c (s.runs k c) = s := State.settleFor_of_no_pend hp i c _
  refine ⟨hi, hr, fun h => ?_, ?_, .inl ?_, fun j _ => ?_, fun _ j _ p hpend => ?_, ?_, .inl ⟨hw, fun h => hn h.1⟩⟩
  · exact absurd (hb.symm.trans h) Bool.false_ne_true
  · rw [hg]; exact State.guardOpen_of_no_pend hp c
  · rw [hg]; exact hv
  · rw [hg]; exact hpriv j
  · rw [hg, hp] at hpend
    cases hpend
  · rw [hg, hf]; exact State.waitsFor_of_no_pend hp i hc _
end

/-- A write of p7 is discarded (R13). -/
theorem State.putPred_seven (s : State) (t i : Nat) (b : Bool) : s.putPred t i 7 b = s := by
  have hthreads : (fun m : Team => { m with threads := m.threads.modify i fun x => x.setPred 7 b }) = id :=
    funext fun m => congrArg (fun l => { m with threads := l }) (List.modify_id i m.threads)
  rw [State.putPred, State.modThread, hthreads, State.modTeam, List.modify_id]

/-- A word that is not its clause's last leaves the registers of its threads alone, where all of them go on. -/
theorem State.v_after {r : State} {k : Iss} {i : Instr} {c : Common} {ex : List Nat} (hspin : r.spin k.team k.num = none)
    (hlast : k.clause.last k.pos = false) (hne : k.threads ≠ [])
    (hlive : ∀ j ∈ k.threads, (r.thread k.team j).wait = .ready ∧ (r.thread k.team j).mid = some (k.clause, k.pos) ∧
      (r.warp k.team ((r.team k.team).warpOf j)).resident = true) (t j : Nat) :
    ((r.after k i c ex {}).thread t j).v = (r.thread t j).v := by
  have hall : (k.threads.filter fun i =>
      let x := r.thread k.team i
      x.wait == .ready && x.mid == some (k.clause, k.pos) && (r.warp k.team ((r.team k.team).warpOf i)).resident) = k.threads := by
    refine List.filter_eq_self.mpr fun j hj => ?_
    obtain ⟨hw, hm, hr⟩ := hlive j hj
    simp [hw, hm, hr]
  unfold State.after State.finish State.spinWord
  have hsome : k.threads.isEmpty = false := by simpa using hne
  simp only [hspin, hlast, hall, hsome, Bool.not_false, if_true, Bool.false_eq_true, if_false]
  refine List.foldlRecOn (motive := fun q : State => (q.thread t j).v = (r.thread t j).v) k.threads _ rfl fun q hq w _ => ?_
  rw [State.thread_modThread]
  split
  · exact hq
  · exact hq

/-! ### The words there -/

section
variable (n : Nat) (c : Clause)

theorem runs_crowd : (crowd n c).runs (crowdIssue n c) plainWord = [n] := by
  have hg : (crowd n c).guarded (crowdIssue n c) plainWord = crowd n c := State.settleGuard_of_no_pend (pend_crowd n c) _
  have hexec : (crowd n c).executes 0 n plainWord 0 = true := by
    rw [State.executes, thread_crowd_last]; rfl
  rw [State.runs, hg, State.exec1]
  exact List.filter_cons_of_pos hexec

/-- Both words are instructions there: they name v0 and no other register. -/
theorem notInstr_crowd (w : DWord) {i : Instr} (hi : i = .subb subbTidx ∨ i = .shr shrTidx) :
    (crowd n (twoWords w)).notInstr (crowdIssue n (twoWords w)) i plainWord = false := by
  have hlevel : ((crowd n (twoWords w)).thread 0 n).level = 0 := by rw [thread_crowd_last]; rfl
  have hstatic : i.staticCase = none := by rcases hi with rfl | rfl <;> decide
  rw [State.notInstr, hstatic]
  delta State.ctxCase
  dsimp only [crowdIssue, List.headD_cons]
  rw [hlevel]
  rcases hi with rfl | rfl <;> rfl

theorem stands_crowd (w : DWord) {i : Instr} (hi : i = .subb subbTidx ∨ i = .shr shrTidx) :
    Stands (crowd n (twoWords w)) (crowdIssue n (twoWords w)) i plainWord := by
  have hreleased : ((crowd n (twoWords w)).thread 0 n).released = false := by rw [thread_crowd_last]; rfl
  have hpriv (j : Nat) : (crowd n (twoWords w)).privFault 0 j i = false := by rcases hi with rfl | rfl <;> rfl
  have hwindow : inWindow i = true := by rcases hi with rfl | rfl <;> rfl
  exact stands_of_no_pend (pend_crowd n _) (iss_crowd n _) hreleased rfl (notInstr_crowd n w hi) hpriv rfl (by decide) hwindow

theorem settled_crowd (i : Instr) : (crowd n c).settled (crowdIssue n c) i plainWord = crowd n c := by
  have hp := pend_crowd n c
  have hg : (crowd n c).guarded (crowdIssue n c) plainWord = crowd n c := State.settleGuard_of_no_pend (k := crowdIssue n c) hp _
  have hf (ex : List Nat) : (crowd n c).settleFor (crowdIssue n c) i plainWord ex = crowd n c :=
    State.settleFor_of_no_pend (k := crowdIssue n c) hp i _ ex
  have hw (ws : List Nat) : (crowd n c).registerWatches 0 ws = crowd n c :=
    foldl_eq_self fun w _ => by
      cases w with
      | zero => rfl
      | succ w => simp [State.modWarp, State.modTeam, crowd, teamAt]
  rw [State.settled, hg, hf]
  exact hw _

/-- Of a value written to v0 there, the low 32 bits are in v0 after the word. -/
theorem v_crowd_written (i : Instr) (w : DWord) (v : Nat) :
    ((((crowd n (twoWords w)).putAll 0 0 1 [(n, v)]).after (crowdIssue n (twoWords w)) i plainWord [n] {}).thread 0 n).v =
      [BitVec.ofNat 32 v] := by
  have hput : (crowd n (twoWords w)).putAll 0 0 1 [(n, v)] =
      ((crowd n (twoWords w)).modThread 0 n fun x => { x with v := regsSet x.v 0 v 1 }).soil 0
        (((crowd n (twoWords w)).team 0).warpOf n) 0 1 := rfl
  set r := (crowd n (twoWords w)).putAll 0 0 1 [(n, v)]
  have hthread : r.thread 0 n = { readyThread (twoWords w) with v := [BitVec.ofNat 32 v] } := by
    have hlen : n < ((crowd n (twoWords w)).team 0).threads.length := by simp [threads_crowd]
    calc r.thread 0 n
      _ = ((crowd n (twoWords w)).modThread 0 n fun x => { x with v := regsSet x.v 0 v 1 }).thread 0 n := by
        rw [hput, State.soil, State.thread_modWarp]
      _ = { readyThread (twoWords w) with v := [BitVec.ofNat 32 v] } := by
        rw [State.thread_modThread, if_pos ⟨rfl, Nat.one_pos, rfl, hlen⟩, thread_crowd_last]
        rfl
  have hresident : (r.warp 0 ((r.team 0).warpOf n)).resident = true := by
    have hwarp : (r.team 0).warpOf n = 0 := Nat.div_eq_of_lt (Nat.lt_succ_self n)
    rw [hwarp, hput, State.soil, State.warp_modWarp, State.warp_modThread]
    split <;> rfl
  have hspin : r.spin 0 0 = none := rfl
  have hlive : ∀ j ∈ [n], (r.thread 0 j).wait = .ready ∧ (r.thread 0 j).mid = some (twoWords w, 0) ∧
      (r.warp 0 ((r.team 0).warpOf j)).resident = true := by
    intro j hj
    obtain rfl := List.mem_singleton.mp hj
    rw [hthread]
    exact ⟨rfl, rfl, hresident⟩
  rw [State.v_after (k := crowdIssue n (twoWords w)) hspin (last_twoWords w) (List.cons_ne_nil _ _) hlive, hthread]

/-- Two effects of a word that completes with both write one value there. -/
theorem written_unique (w : DWord) {i : Instr} (hi : i = .subb subbTidx ∨ i = .shr shrTidx) {f g : State → Iss → List Nat → State}
    (hf : Completes i plainWord f) (hg : Completes i plainWord g) {a b : Nat}
    (ha : f (crowd n (twoWords w)) (crowdIssue n (twoWords w)) [n] = (crowd n (twoWords w)).putAll 0 0 1 [(n, a)])
    (hb : g (crowd n (twoWords w)) (crowdIssue n (twoWords w)) [n] = (crowd n (twoWords w)).putAll 0 0 1 [(n, b)]) :
    BitVec.ofNat 32 a = BitVec.ofNat 32 b := by
  have hstands := stands_crowd n w hi
  have hnext := (hf _ _ hstands).symm.trans (hg _ _ hstands)
  rw [settled_crowd, runs_crowd, ha, hb] at hnext
  have hv := congrArg (fun r : State => (r.thread 0 n).v) (Host.Outcome.next.inj hnext)
  rw [v_crowd_written, v_crowd_written] at hv
  exact (List.cons.inj hv).1

/-- SHR there: what the statement gives and what the model gives. -/
theorem shr_crowd_eq {f g : State → Nat → Nat → Nat} (hf : GivesValue (.shr shrTidx) plainWord 0 1 f)
    (hg : GivesValue (.shr shrTidx) plainWord 0 1 g) :
    BitVec.ofNat 32 (f (crowd n (twoWords (FA.toWord 0x13 shrTidx))) 0 n) =
      BitVec.ofNat 32 (g (crowd n (twoWords (FA.toWord 0x13 shrTidx))) 0 n) :=
  written_unique n _ (.inr rfl) hf hg rfl rfl

/-- SUBB there, whose borrow goes to p7 and is discarded. -/
theorem subb_crowd_eq {f g : State → Nat → Nat → Nat} {p q : State → Nat → Nat → Bool}
    (hf : GivesValueAndPredicate (.subb subbTidx) plainWord 0 1 7 f p)
    (hg : GivesValueAndPredicate (.subb subbTidx) plainWord 0 1 7 g q) :
    BitVec.ofNat 32 (f (crowd n (twoWords (FA.toWord 0x08 subbTidx))) 0 n) =
      BitVec.ofNat 32 (g (crowd n (twoWords (FA.toWord 0x08 subbTidx))) 0 n) :=
  written_unique n _ (.inl rfl) hf hg (State.putPred_seven _ _ _ _) (State.putPred_seven _ _ _ _)

end

/-! ### The refutations -/

/-- SHR as the model computes it: the number that is read, divided, then cut to TYPE's width. -/
theorem shr_gives (w : FA) : GivesValue (.shr w) w.c w.dst (tyRegs w.ty) fun s t x =>
    fillTy w.ty (s.fa w t x / 2 ^ (s.fb32 w t x % tyBits w.ty)) :=
  alu_gives (fun s t x => fillTy w.ty (s.fa w t x / 2 ^ (s.fb32 w t x % tyBits w.ty))) (fun _ => rfl) rfl fun _ _ _ => rfl

/-- SUBB as the model computes it. -/
theorem subb_gives (w : FA) :
    let r := fun (s : State) (t x : Nat) => borrowOf (tyBits w.ty) (s.fa w t x) (s.opnd t x w.sb (tyRegs w.ty))
      (w.sc.getLsbD 3 && (s.thread t x).pred w.sc20).toNat
    GivesValueAndPredicate (.subb w) w.c w.dst (tyRegs w.ty) w.sc64 (fun s t x => (r s t x).1) fun s t x => (r s t x).2 :=
  aluPred_gives (fun s t x => borrowOf (tyBits w.ty) (s.fa w t x) (s.opnd t x w.sb (tyRegs w.ty))
    (w.sc.getLsbD 3 && (s.thread t x).pred w.sc20).toNat) (fun _ => rfl) rfl fun _ _ _ => rfl

/-- Refutes O4: SHR v0, TIDX, 2 under n32 in thread 2^33 + 1, since nothing bounds the threads of a team where a word stands. The
statement shifts the low 32 bits of TIDX, which gives 0; the model shifts the number, and bit 33 of it comes to bit 31. -/
theorem not_shiftsReduceTheirAmount : ¬ Obligations.ShiftsReduceTheirAmount := by
  unfold Obligations.ShiftsReduceTheirAmount
  intro h
  obtain ⟨-, hsaid, -⟩ := h shrTidx
  have hsame (n : Nat) := shr_crowd_eq n hsaid (shr_gives shrTidx)
  have ha (s : State) (t x : Nat) : s.fa shrTidx t x = x := rfl
  have hb (s : State) (t x : Nat) : s.fb32 shrTidx t x = 2 := rfl
  simp only [ha, hb] at hsame
  exact absurd (hsame (2 ^ 33 + 1)) (by decide)

/-- Refutes O2: SUBB v0, ZERO, TIDX under n32 in thread 2^33 + 1, since nothing bounds the threads of a team where a word stands. The
statement gives -1 modulo 2^32; the model subtracts from 2^33, which is less than TIDX, and its difference of natural numbers is 0. -/
theorem not_carryChainsThroughPredicates : ¬ Obligations.CarryChainsThroughPredicates := by
  unfold Obligations.CarryChainsThroughPredicates
  intro h
  obtain ⟨-, hsaid⟩ := h subbTidx
  have hsame (n : Nat) := subb_crowd_eq n hsaid (subb_gives subbTidx)
  have ha (s : State) (t x : Nat) : s.fa subbTidx t x = 0 := rfl
  have hb (s : State) (t x n : Nat) : s.opnd t x subbTidx.sb n = x := rfl
  have hcin (x : Thread) : (subbTidx.sc.getLsbD 3 && x.pred (subbTidx.sc.extractLsb' 0 3)).toNat = 0 := rfl
  simp only [ha, hb, FA.sc20, hcin] at hsame
  exact absurd (hsame (2 ^ 33 + 1)) (by decide)

end Sys2Proof.Machine
end

section
/-! Commands on accumulator banks and arrivals at a latch: how the words of a home warp's gang complete. -/

namespace Sys2Proof.Machine

open Sys2Proof

/-! ### Banks after a change (R134) -/

/-- ACZ's change of one bank: its words are +0, its owner and its fault stay (R147). -/
def AccBank.emptied (x : AccBank) : AccBank := { x with words := [] }
@[simp] theorem AccBank.emptied_words (x : AccBank) : x.emptied.words = [] := rfl
@[simp] theorem AccBank.emptied_owner (x : AccBank) : x.emptied.owner = x.owner := rfl
@[simp] theorem AccBank.emptied_fault (x : AccBank) : x.emptied.fault = x.fault := rfl
@[simp] theorem AccBank.emptied_emptied (x : AccBank) : x.emptied.emptied = x.emptied := rfl

/-- An entry of a list after a change that leaves the default, which every entry past the end reads as, as it is. -/
theorem getD_modify_of_fixed {α : Type} (l : List α) (i j : Nat) {f : α → α} {d : α} (hf : f d = d) :
    (l.modify i f).getD j d = if i = j then f (l.getD j d) else l.getD j d := by
  rw [getD_modify]
  by_cases hj : j < l.length
  · simp only [hj, and_true]
  · simp only [hj, and_false, List.getD_eq_default _ _ (not_lt.mp hj), hf, ite_self]
/-- A bank after a change that leaves the reset bank, which every absent bank reads as, as it is. -/
theorem State.bank_modBank {f : AccBank → AccBank} (hf : f AccBank.reset = AccBank.reset) (s : State) (c p b c' p' b' : Nat) :
    (s.modBank c p b f).bank c' p' b' = if c = c' ∧ p = p' ∧ b = b' then f (s.bank c' p' b') else s.bank c' p' b' := by
  have hbank (l : List AccBank) :
      (l.modify b f).getD b' AccBank.reset = if b = b' then f (l.getD b' AccBank.reset) else l.getD b' AccBank.reset :=
    getD_modify_of_fixed _ _ _ hf
  have hpart (l : List (List AccBank)) :
      (l.modify p fun l => l.modify b f).getD p' [] = if p = p' then (l.getD p' []).modify b f else l.getD p' [] :=
    getD_modify_of_fixed (f := fun l : List AccBank => l.modify b f) _ _ _ (List.modify_nil f b)
  have hcore : ((s.modBank c p b f).core c').banks =
      if c = c' then (s.core c').banks.modify p fun l => l.modify b f else (s.core c').banks := by
    unfold State.modBank
    rw [State.core_modCore]
    by_cases hc : c' < s.cores.length
    · simp only [hc, and_true, apply_ite Core.banks]
    · have habsent : (s.core c').banks = [] := congrArg Core.banks (List.getD_eq_default _ _ (not_lt.mp hc))
      simp only [hc, and_false, if_false, habsent, List.modify_nil, ite_self]
  unfold State.bank
  rw [hcore]
  by_cases hc : c = c'
  · rw [if_pos hc, hpart]
    by_cases hp : p = p'
    · rw [if_pos hp, hbank]
      simp only [hc, hp, true_and]
    · simp only [hp, if_false, false_and, and_false]
  · simp only [hc, if_false, false_and]

/-- The banks of a list with +0 in every word (R147). -/
def State.emptyBanks (s : State) (c p : Nat) (bs : List Nat) : State :=
  bs.foldl (fun (s : State) (b : Nat) => s.modBank c p b AccBank.emptied) s
theorem State.bank_emptyBanks (s : State) (c p : Nat) (bs : List Nat) (c' p' b' : Nat) :
    (s.emptyBanks c p bs).bank c' p' b' =
      if c = c' ∧ p = p' ∧ b' ∈ bs then (s.bank c' p' b').emptied else s.bank c' p' b' := by
  induction bs generalizing s with
  | nil => simp [State.emptyBanks]
  | cons b bs ih =>
    have hcons : s.emptyBanks c p (b :: bs) = (s.modBank c p b AccBank.emptied).emptyBanks c p bs := rfl
    rw [hcons, ih, State.bank_modBank rfl]
    by_cases hcp : c = c' ∧ p = p'
    · by_cases hb : b = b'
      · simp [hcp, hb]
      · simp [hcp, hb, Ne.symm hb]
    · simp only [← and_assoc, hcp, false_and, if_false]
theorem mem_range {b n j : Nat} : j ∈ range b n ↔ b ≤ j ∧ j < b + n := by
  simp only [range, List.mem_map, List.mem_range]
  constructor
  · rintro ⟨i, hi, rfl⟩
    omega
  · rintro ⟨hb, hn⟩
    exact ⟨j - b, by omega, by omega⟩
/-- A product or a command that leaves the sequencer leaves the banks as they are (R129). -/
@[simp] theorem State.bank_dropSeq (s : State) (c p id c' p' b' : Nat) :
    (s.dropSeq c p id).bank c' p' b' = s.bank c' p' b' := by
  unfold State.dropSeq State.modSeq State.bank
  rw [State.core_modCore]
  split <;> rfl

/-- From `q` to `z`, every word of a range has become +0 and no fault or owner of a bank has changed, nor any bank outside the
range (R147). -/
def ZeroedRange (q z : State) (c p b n : Nat) : Prop :=
  (∀ j, j < 4096 * n → z.accWord c p b j = 0) ∧
  (∀ c' p' b', (z.bank c' p' b').fault = (q.bank c' p' b').fault ∧ (z.bank c' p' b').owner = (q.bank c' p' b').owner) ∧
  ∀ c' p' b', ¬ (c' = c ∧ p' = p ∧ b ≤ b' ∧ b' < b + n) → z.bank c' p' b' = q.bank c' p' b'
/-- What holds of the banks of an emptied range is what R147 says. -/
theorem ZeroedRange.of_bank {q z : State} {c p b n : Nat}
    (h : ∀ c' p' b', z.bank c' p' b' = (q.emptyBanks c p (range b n)).bank c' p' b') : ZeroedRange q z c p b n := by
  simp only [State.bank_emptyBanks, mem_range] at h
  refine ⟨fun j hj => ?words, fun c' p' b' => ?kept, fun c' p' b' hout => ?outside⟩
  case words =>
    have hbank : b ≤ b + j / 4096 ∧ b + j / 4096 < b + n := by omega
    rw [State.accWord, h, if_pos ⟨rfl, rfl, hbank⟩, AccBank.emptied_words]
    rfl
  case kept =>
    rw [h]
    split <;> simp
  case outside =>
    rw [h, if_neg]
    rintro ⟨rfl, rfl, hin⟩
    exact hout ⟨rfl, rfl, hin⟩
/-- Emptying a range again, once for each of some home warps, changes no bank. -/
theorem State.bank_emptyBanks_foldl {α : Type} (l : List α) (q : State) (c p : Nat) (bs : List Nat) (c' p' b' : Nat) :
    (l.foldl (fun (s : State) (_ : α) => s.emptyBanks c p bs) (q.emptyBanks c p bs)).bank c' p' b' =
      (q.emptyBanks c p bs).bank c' p' b' := by
  refine List.foldlRecOn (motive := fun r : State => r.bank c' p' b' = (q.emptyBanks c p bs).bank c' p' b') l _ rfl
    fun r hr _ _ => ?_
  rw [State.bank_emptyBanks, hr, State.bank_emptyBanks]
  split <;> simp

/-! ### Commands of home warps whose tests pass (R128, R129) -/

/-- Where every home warp may act, none of them has a report, has met poison or cannot act yet. -/
theorem AllReady.no_poison {ms : List (Nat × Mtx)} (h : AllReady ms) : mtxPoison ms = none := by
  refine List.findSome?_eq_none_iff.mpr fun e he => ?_
  obtain ⟨d, hd⟩ := h e he
  rw [hd]
theorem AllReady.no_trap {ms : List (Nat × Mtx)} (h : AllReady ms) : mtxTrap ms = none := by
  refine List.findSome?_eq_none_iff.mpr fun e he => ?_
  obtain ⟨d, hd⟩ := h e he
  rw [hd]
theorem AllReady.no_stall {ms : List (Nat × Mtx)} (h : AllReady ms) : mtxStalls ms = false := by
  refine List.any_eq_false.mpr fun e he => ?_
  obtain ⟨d, hd⟩ := h e he
  rw [hd]
  exact Bool.false_ne_true

/-- Where every home warp may act, the command acts for each. -/
theorem State.mtxAll_of_ready {s : State} {k : Iss} {ex : List Nat} {test : State → Nat → List Nat → State × Mtx}
    {go : State → Nat → List Nat → Drain → State} (h : AllReady (s.mtxTests k ex test).2) :
    s.mtxAll k ex test go = .ok ((s.mtxTests k ex test).1.mtxActs k ex (s.mtxTests k ex test).2 go) := by
  simp only [State.mtxAll, h.no_poison, h.no_trap, h.no_stall, Bool.false_eq_true, if_false]
/-- Each home warp of the issue has its test. -/
theorem State.mtxTests_warps (s : State) (k : Iss) (ex : List Nat) (test : State → Nat → List Nat → State × Mtx) :
    (s.mtxTests k ex test).2.map Prod.fst = s.warpsOf k.team ex := by
  have hfold (l : List Nat) (r : State × List (Nat × Mtx)) :
      (l.foldl (fun (r : State × List (Nat × Mtx)) (v : Nat) =>
        ((test r.1 v (s.ofWarp k.team v ex)).1, r.2 ++ [(v, (test r.1 v (s.ofWarp k.team v ex)).2)])) r).2.map Prod.fst =
        r.2.map Prod.fst ++ l := by
    induction l generalizing r with
    | nil => simp
    | cons v l ih => simp [ih]
  exact hfold _ _

/-- A matrix command that stands completes where its home warps' tests let it act, with what it does for each of them. -/
theorem mtx_completes_as {i : Instr} {c : Common} {test : Iss → State → Nat → List Nat → State × Mtx}
    {go f : Iss → State → Nat → List Nat → Drain → State} (hb : isBrk i = false)
    (he : exec i = word i c goOn fun s k ex => s.mtxAll k ex (test k) (go k))
    (hgo : ∀ k s v here d, go k s v here d = f k s v here d) :
    CompletesIf i c (fun s k ex => AllReady (s.mtxTests k ex (test k)).2)
      fun s k ex => (s.mtxTests k ex (test k)).1.mtxActs k ex (s.mtxTests k ex (test k)).2 (f k) := by
  obtain rfl : go = f := by
    funext k s v here d
    exact hgo k s v here d
  intro s k h hready
  rw [he, word_stands h hb, State.mtxAll_of_ready hready]
/-- As `mtx_completes_as`, with what the model does for each home warp. -/
theorem mtx_completes {i : Instr} {c : Common} {test : Iss → State → Nat → List Nat → State × Mtx}
    {go : Iss → State → Nat → List Nat → Drain → State} (hb : isBrk i = false)
    (he : exec i = word i c goOn fun s k ex => s.mtxAll k ex (test k) (go k)) :
    CompletesIf i c (fun s k ex => AllReady (s.mtxTests k ex (test k)).2)
      fun s k ex => (s.mtxTests k ex (test k)).1.mtxActs k ex (s.mtxTests k ex (test k)).2 (go k) :=
  mtx_completes_as hb he fun _ _ _ _ _ => rfl

/-- Home warps that wait stand at the word, and those that may act do, in their order (R128). -/
theorem State.mtxActs_eq (s : State) (k : Iss) (ex : List Nat) (ms : List (Nat × Mtx))
    (go : State → Nat → List Nat → Drain → State) :
    s.mtxActs k ex ms go = ms.foldl (fun (s : State) (e : Nat × Mtx) => match e.2 with
      | .ready d => go s e.1 (s.ofWarp k.team e.1 ex) d
      | .wait v => (s.ofWarp k.team e.1 ex).foldl (fun (s : State) (i : Nat) => s.block k.team i v) s
      | _ => s) s := by
  refine List.foldl_ext _ _ _ fun r e _ => ?_
  cases e.2 <;> rfl

/-! ### The bank commands (R135, R136, R148) -/

/-- The test of FREE for each home warp of an issue. The home warps of late threads come to the word later, and pass here (R136). -/
def freeTestOf (k : Iss) (w : FX) (late : List Nat) : State → Nat → List Nat → State × Mtx :=
  fun s v here => if late.contains (here.headD 0) then (s, .ready .clear) else s.freeTest k w v here
/-- What FREE does for each home warp that is not late. -/
def freeGoOf (k : Iss) (w : FX) (late : List Nat) : State → Nat → List Nat → Drain → State :=
  fun s _ here _ => if late.contains (here.headD 0) then s else s.freeRange k w

/-- FREE where the tests let it act: the range is free, and home warps that name the gang of an earlier one of the issue stay at
the word (R136). -/
theorem exec_free_of_ready {s : State} {k : Iss} {w : FX} {late : List Nat} (h : Stands s k (.free w) w.c)
    (hlate : (s.settled k (.free w) w.c).sameGang k.team (s.runs k w.c) = late)
    (hready : AllReady ((s.settled k (.free w) w.c).mtxTests k (s.runs k w.c) (freeTestOf k w late)).2) :
    let ms := (s.settled k (.free w) w.c).mtxTests k (s.runs k w.c) (freeTestOf k w late)
    let r := ms.1.mtxActs k (s.runs k w.c) ms.2 (freeGoOf k w late)
    exec (.free w) s = .next (if late = [] then r.after k (.free w) w.c (s.runs k w.c) {}
      else ((r.ungroup k.team late).finish (k.without late) w.c ((s.runs k w.c).filter fun i => !late.contains i) {}).tidy
        k.team) := by
  have hall := State.mtxAll_of_ready (go := freeGoOf k w late) hready
  change execFree w s = _
  unfold execFree
  rw [word_stands h rfl]
  unfold freeTestOf freeGoOf at hall
  simp only [hlate, hall]
  cases late <;> rfl

/-- ACRD with nothing before it issues the words that it reads now (R148). -/
theorem State.acrdGo_clear (s : State) (k : Iss) (w : FX) (v : Nat) (here : List Nat) : s.acrdGo k w v here .clear =
    s.issueResults k w.c w.dst (if w.w64 then 2 else 1) (here.map fun i =>
      (i, some (s.accRead k.core k.part w.bank (s.accIndex w k.team i) w.w64), none)) := by
  simp [State.acrdGo, Function.comp_def]
/-- ACRD behind other commands issues results without a value, and a command for each of its threads (R129, R148). -/
theorem State.acrdGo_behind {s : State} (k : Iss) (w : FX) (v : Nat) (here : List Nat) {d : Drain} (hd : d ≠ .clear) :
    s.acrdGo k w v here d = (here.map fun i => (i, s.accIndex w k.team i)).foldl (fun (r : State) (e : Nat × Nat) =>
        r.enqueue k (r.gangOf k.team v) w.bank (bankCount w) (.acrd k.team e.1 s.nextId e.2 w.w64))
      (s.issueResults k w.c w.dst (if w.w64 then 2 else 1) (here.map fun i => (i, none, none))) := by
  simp [State.acrdGo, Function.comp_def]

/-- Settles O31: each command is a matrix word whose tests let it act, and FREE is `exec_free_of_ready`. -/
theorem bankCommandsAct : Obligations.BankCommandsAct := by
  unfold Obligations.BankCommandsAct
  intro w bs after behind index ready
  have hafter (r : State × List (Nat × Mtx)) (k : Iss) (ex : List Nat) (go : State → Nat → List Nat → Drain → State) :
      after r k ex go = r.1.mtxActs k ex r.2 go := (State.mtxActs_eq _ _ _ _ _).symm
  simp only [hafter]
  refine ⟨?alloc, ⟨?free, ?late⟩, ?acz, ?acrd, ?acwr, ?acld, ?acst⟩
  case alloc => exact mtx_completes rfl rfl
  case free =>
    rintro s k h ⟨hlate, hready⟩
    exact (exec_free_of_ready h hlate hready).trans (congrArg Host.Outcome.next (if_pos rfl))
  case late =>
    intro s k h hlate hready
    exact (exec_free_of_ready h rfl hready).trans (congrArg Host.Outcome.next (if_neg hlate))
  case acz => exact mtx_completes rfl rfl
  case acrd =>
    refine mtx_completes_as rfl rfl fun k s v here d => ?_
    cases d with
    | clear => exact State.acrdGo_clear s k w v here
    | _ => exact State.acrdGo_behind k w v here nofun
  case acwr => exact mtx_completes rfl rfl
  case acld => exact mtx_completes rfl rfl
  case acst => exact mtx_completes rfl rfl

/-! ### ACZ (R147) -/

/-- What comes before a word's effect keeps the home warps of every team (R51, R52, R237). -/
theorem State.SameWarps.settled (s : State) (k : Iss) (i : Instr) (c : Common) : s.SameWarps (s.settled k i c) := by
  have hguard : s.SameWarps (s.settleGuard k c) := .foldl _ _ (fun s _ => .foldl _ _ (fun s _ => .writeBack s _ _ _) s) s
  have hfor (q : State) : q.SameWarps (q.settleFor k i c (s.runs k c)) :=
    .foldl _ _ (fun s _ => .foldl _ _ (fun s _ => .foldl _ _ (fun s _ => .writeBack s _ _ _) s) s) q
  have hwatch (q : State) (t : Nat) (ws : List Nat) : q.SameWarps (q.registerWatches t ws) :=
    .foldl _ _ (fun s _ => .modWarp s _ _ _) q
  exact (hguard.trans (hfor _)).trans (hwatch _ _ _)
/-- Threads whose home warps the team has belong to some home warp. -/
theorem State.warpsOf_ne_nil {s : State} {t : Nat} {is : List Nat} (hne : is ≠ [])
    (hin : ∀ j ∈ is, (s.team t).warpOf j < (s.team t).nWarps) : s.warpsOf t is ≠ [] := by
  obtain ⟨j, js, rfl⟩ := List.exists_cons_of_ne_nil hne
  have hj : j ∈ j :: js := List.mem_cons_self
  have hmem : (s.team t).warpOf j ∈ s.warpsOf t (j :: js) :=
    List.mem_filter.mpr ⟨List.mem_range.mpr (hin j hj), List.any_eq_true.mpr ⟨j, hj, beq_self_eq_true _⟩⟩
  exact List.ne_nil_of_mem hmem

/-- Where no command stands before any home warp's ACZ, the range is emptied for each of them. -/
theorem State.aczActs_clear (s : State) (k : Iss) (w : FX) (ex : List Nat) {ms : List (Nat × Mtx)}
    (hms : ∀ e ∈ ms, e.2 = .ready .clear) : s.mtxActs k ex ms (fun s v _ d => s.aczGo k w v d) =
      ms.foldl (fun (s : State) (_ : Nat × Mtx) => s.emptyBanks k.core k.part (range w.bank (bankCount w))) s := by
  refine List.foldl_ext _ _ _ fun r e he => ?_
  rw [hms e he]
  rfl
/-- ACZ of at least one home warp zeroes its range (R147). -/
theorem State.aczActs_zeroes (s : State) (k : Iss) (w : FX) (ex : List Nat) {ms : List (Nat × Mtx)}
    (hms : ∀ e ∈ ms, e.2 = .ready .clear) (hne : ms ≠ []) :
    ZeroedRange s (s.mtxActs k ex ms fun s v _ d => s.aczGo k w v d) k.core k.part w.bank (bankCount w) := by
  rw [State.aczActs_clear s k w ex hms]
  obtain ⟨e, ms, rfl⟩ := List.exists_cons_of_ne_nil hne
  exact .of_bank fun c' p' b' => State.bank_emptyBanks_foldl ms s k.core k.part _ c' p' b'
/-- A queued ACZ whose banks are back empties its range and leaves the sequencer (R129, R138). -/
theorem State.seqDo_acz {s r : State} {c p : Nat} {q : SeqCmd} (hop : q.op = .acz)
    (hr : s.bring c p q.gang (range q.bank q.count) = some r) :
    s.seqDo c p q = ((r.emptyBanks c p (range q.bank q.count)).dropSeq c p q.id, true) := by
  simp only [State.seqDo, hr, hop]
  rfl

/-- ACZ completes where its home warps' tests let it act. -/
theorem acz_completes (w : FX) : CompletesIf (.acz w) w.c
    (fun s k ex => AllReady (s.mtxTests k ex fun s v here => s.mtxReady k v w.bank (bankCount w) here).2)
    fun s k ex =>
      let ms := s.mtxTests k ex fun s v here => s.mtxReady k v w.bank (bankCount w) here
      ms.1.mtxActs k ex ms.2 fun s v _ d => s.aczGo k w v d :=
  mtx_completes rfl rfl

/-- Settles O32: ACZ acts for at least one home warp, and each empties the range. -/
theorem aczZeroesItsRange : Obligations.AczZeroesItsRange := by
  unfold Obligations.AczZeroesItsRange
  refine ⟨fun s k w h hne hin hclear => ?now, fun s r c p q hop hr => ?later⟩
  case now =>
    have hready : AllReady ((s.settled k (.acz w) w.c).mtxTests k (s.runs k w.c) fun s v here =>
        s.mtxReady k v w.bank (bankCount w) here).2 := fun e he => ⟨.clear, hclear e he⟩
    have hwarps : (s.settled k (.acz w) w.c).warpsOf k.team (s.runs k w.c) ≠ [] := by
      rw [(State.SameWarps.settled s k (.acz w) w.c).warpsOf]
      exact State.warpsOf_ne_nil hne hin
    rw [← State.mtxTests_warps (test := fun s v here => s.mtxReady k v w.bank (bankCount w) here)] at hwarps
    exact ⟨_, acz_completes w s k h hready,
      State.aczActs_zeroes _ k w _ hclear fun hnil => hwarps (congrArg (List.map Prod.fst) hnil)⟩
  case later =>
    rw [State.seqDo_acz hop hr]
    exact ⟨rfl, ZeroedRange.of_bank fun c' p' b' => State.bank_dropSeq _ c p q.id c' p' b'⟩

/-! ### MMA (R132, R133, R145) -/

/-- Why an MMA's word is not an instruction where it stands, if it is not (R146). -/
def State.mmaBad (s : State) (k : Iss) (w : FX) : Option NotInstr := match (Instr.mma w).staticCase with
  | some c => some c
  | none => s.ctxCase k (.mma w) w.c
/-- What turns a home warp's MMA away before anything arrives: its gang is not valid, or it is the gang's first arrival and its
banks or its record do not pass (R131, R137, R140). -/
def State.mmaTest (s : State) (k : Iss) (w : FX) (ex : List Nat) (v : Nat) : Option Mtx :=
  let first := (s.latch (s.gangOf k.team v)).isNone &&
    !((s.warpsOf k.team ex).any fun u => decide (u < v) && s.gangOf k.team u == s.gangOf k.team v)
  if ¬ s.gangValid k.team v then some (codeFor (s.ofWarp k.team v ex) fMtxgang)
  else if first ∧ (s.mmaBad k w).isNone then s.mmaCheck k w v (s.ofWarp k.team v ex)
  else none
theorem State.mmaTest_eq_none {s : State} {k : Iss} {w : FX} {ex : List Nat} {v : Nat} (hvalid : s.gangValid k.team v = true)
    (hfirst : s.latch (s.gangOf k.team v) = none →
      (∀ u ∈ s.warpsOf k.team ex, u < v → s.gangOf k.team u ≠ s.gangOf k.team v) → s.mmaBad k w = none →
        s.mmaCheck k w v (s.ofWarp k.team v ex) = none) : s.mmaTest k w ex v = none := by
  unfold State.mmaTest
  rw [if_neg (by simpa using hvalid)]
  split
  next h =>
    simp only [Bool.and_eq_true, Option.isNone_iff_eq_none, Bool.not_eq_true', List.any_eq_false, decide_eq_true_eq, beq_iff_eq,
      not_and] at h
    obtain ⟨⟨hlatch, hearlier⟩, hbad⟩ := h
    exact hfirst hlatch hearlier hbad
  next => rfl

/-- MMA where no home warp is turned away: it is a release, then each home warp arrives in turn (R132, R133). -/
theorem mma_completes (w : FX) (r : State) : CompletesIf (.mma w) w.c
    (fun s k ex => (∀ v ∈ s.warpsOf k.team ex, s.mmaTest k w ex v = none) ∧
      s.release k.team ((s.warpsOf k.team ex).flatMap fun v => (s.team k.team).members v) = some r)
    fun s k ex => (s.warpsOf k.team ex).foldl (fun (r : State) (v : Nat) =>
      r.mmaArrive k w (s.mmaBad k w) v (r.ofWarp k.team v ex)) r := by
  rintro s k h ⟨htest, hrelease⟩
  have hnone := List.findSome?_eq_none_iff.mpr htest
  have hword : exec (.mma w) = word (.mma w) w.c (fun s k => .left (s.finish k w.c (s.exec1 k w.c) {})) fun s k ex =>
      match (s.warpsOf k.team ex).findSome? (s.mmaTest k w ex) with
      | some (.trap reps stop) => .left (s.raiseAt k { (k.report ex reps) with stop })
      | _ => s.releasing k.team ((s.warpsOf k.team ex).flatMap fun v => (s.team k.team).members v) fun r =>
          .ok ((s.warpsOf k.team ex).foldl (fun (r : State) (v : Nat) =>
            r.mmaArrive k w (s.mmaBad k w) v (r.ofWarp k.team v ex)) r) := rfl
  rw [hword, word_stands h rfl]
  simp only [hnone, State.releasing, hrelease]

/-- Settles O33: no home warp's test turns MMA away, and after the release each home warp arrives in turn. -/
theorem mmaArrivesAtItsLatch : Obligations.MmaArrivesAtItsLatch := by
  unfold Obligations.MmaArrivesAtItsLatch
  rintro w bad r s k h ⟨hpass, hrelease⟩
  refine mma_completes w r s k h ⟨fun v hv => ?_, hrelease⟩
  obtain ⟨hvalid, hfirst⟩ := hpass v hv
  exact State.mmaTest_eq_none hvalid hfirst

end Sys2Proof.Machine
end

section
/-! Words whose lanes all pass their probes, and threads that enter waits: what an operand then reads. -/

namespace Sys2Proof.Machine

open Sys2Proof

/-! ### Probes that all pass (R174, R175) -/

section
variable {α : Type} {ps : List (Nat × Except Probe α)} (h : AllPass ps)
include h

theorem faultReps_of_allPass : faultReps ps = [] := by
  refine List.filterMap_eq_nil_iff.mpr fun e he => ?_
  obtain ⟨a, ha⟩ := h e he
  simp only [ha]
theorem missingPages_of_allPass : missingPages ps = [] := by
  refine congrArg List.eraseDups (List.flatMap_eq_nil_iff.mpr fun e he => ?_)
  obtain ⟨a, ha⟩ := h e he
  simp only [ha]

/-- Where every lane passes, the access performs. -/
theorem State.onProbes_of_allPass (s : State) (k : Iss) (ex : List Nat) (write : Bool) (go : State → List (Nat × α) → Res) :
    s.onProbes k ex ps write go = go s (passed ps) := by
  unfold State.onProbes
  simp only [faultReps_of_allPass h, missingPages_of_allPass h]
  split
  case h_1 i u hfound =>
    obtain ⟨a, ha⟩ := h _ (List.mem_of_find?_eq_some hfound)
    cases ha
  case h_2 => rfl

end

/-- Where no synchronising store of the threads is open, a word does not wait for one (R165). -/
theorem State.syncing_of_calm {s : State} {t : Nat} {is : List Nat} (h : ∀ i ∈ is, s.syncOpen t i = false) (go : State → Res) :
    s.syncing t is go = go s := by
  have hany : is.any (s.syncOpen t) = false := List.any_eq_false.mpr fun i hi => by simp [h i hi]
  rw [State.syncing, hany]
  rfl

/-! ### Operands and waits (R36, R39) -/

/-- An operand reads registers, windows and the level of its thread, scalars of its home warp, and the width of its team. -/
theorem State.opnd_congr {s r : State} {t i : Nat} (hv : (r.thread t i).v = (s.thread t i).v)
    (hew : (r.thread t i).ew = (s.thread t i).ew) (hlevel : (r.thread t i).level = (s.thread t i).level)
    (hregs : ∀ w, (r.warp t w).regs = (s.warp t w).regs) (hwidth : (r.team t).width = (s.team t).width) (code : BitVec 8)
    (n : Nat) : r.opnd t i code n = s.opnd t i code n := by
  simp only [State.opnd, Thread.window, Team.warpOf, Team.hlane, hv, hew, hlevel, hregs, hwidth]

theorem State.opnd_modThread {f : Thread → Thread} (hf : ∀ x, (f x).v = x.v ∧ (f x).ew = x.ew ∧ (f x).level = x.level)
    (s : State) (t j u i : Nat) (code : BitVec 8) (n : Nat) : (s.modThread t j f).opnd u i code n = s.opnd u i code n := by
  have hthread : ((s.modThread t j f).thread u i).v = (s.thread u i).v ∧
      ((s.modThread t j f).thread u i).ew = (s.thread u i).ew ∧
      ((s.modThread t j f).thread u i).level = (s.thread u i).level := by
    rw [State.thread_modThread]
    split
    · exact hf _
    · exact ⟨rfl, rfl, rfl⟩
  obtain ⟨hv, hew, hlevel⟩ := hthread
  exact State.opnd_congr hv hew hlevel (fun w => by rw [State.warp_modThread]) (State.modThread_team_width ..) code n
theorem State.opnd_modWarp {f : Warp → Warp} (hf : ∀ x, (f x).regs = x.regs) (s : State) (t w u i : Nat) (code : BitVec 8)
    (n : Nat) : (s.modWarp t w f).opnd u i code n = s.opnd u i code n := by
  have hregs (v : Nat) : ((s.modWarp t w f).warp u v).regs = (s.warp u v).regs := by
    rw [State.warp_modWarp]
    split
    · exact hf _
    · rfl
  exact State.opnd_congr (by rw [State.thread_modWarp]) (by rw [State.thread_modWarp]) (by rw [State.thread_modWarp]) hregs
    (State.modWarp_team_width ..) code n
theorem State.opnd_noteBlocked (s : State) (t w u i : Nat) (code : BitVec 8) (n : Nat) :
    (s.noteBlocked t w).opnd u i code n = s.opnd u i code n := by
  unfold State.noteBlocked
  split
  · exact State.opnd_modWarp (by exact fun _ => rfl) s t w u i code n
  · rfl
theorem State.opnd_ungroup (s : State) (t : Nat) (is : List Nat) (u i : Nat) (code : BitVec 8) (n : Nat) :
    (s.ungroup t is).opnd u i code n = s.opnd u i code n := rfl
/-- A thread that enters a wait leaves every operand as it was. -/
@[simp] theorem State.opnd_block (s : State) (t j : Nat) (v : Wait) (u i : Nat) (code : BitVec 8) (n : Nat) :
    (s.block t j v).opnd u i code n = s.opnd u i code n := by
  unfold State.block
  rw [State.opnd_noteBlocked, State.opnd_ungroup]
  exact State.opnd_modThread (by exact fun _ => ⟨rfl, rfl, rfl⟩) s t j u i code n

/-- Threads that enter waits one after another wait as the first state says, where no entry changes what it says. -/
theorem State.foldl_block_of_kept {α : Type} {t : Nat} {who : α → Nat} {w : State → α → Wait}
    (hw : ∀ s j v a, w (s.block t j v) a = w s a) (l : List α) (s : State) :
    l.foldl (fun (r : State) (a : α) => r.block t (who a) (w r a)) s =
      l.foldl (fun (r : State) (a : α) => r.block t (who a) (w s a)) s := by
  suffices hany : ∀ r : State, (∀ a, w r a = w s a) → l.foldl (fun (r : State) (a : α) => r.block t (who a) (w r a)) r =
      l.foldl (fun (r : State) (a : α) => r.block t (who a) (w s a)) r from hany s fun _ => rfl
  induction l with
  | nil => exact fun _ _ => rfl
  | cons a l ih =>
    intro r hr
    rw [List.foldl_cons, List.foldl_cons, hr a]
    exact ih _ fun b => (hw r _ _ b).trans (hr b)

end Sys2Proof.Machine
end

section
/-! SEAL, WAITB and SWWAIT: how they complete, and what follows a wait of theirs that has ended. -/

namespace Sys2Proof.Machine

open Sys2Proof

/-- SEAL completes where it stands: it gives the numbers of the open batches, or the threads wait at it. -/
theorem seal_completes (w : FA) : Completes (.seal w) w.c fun s k ex =>
    let full := ex.filter fun i => decide (15 ≤ s.sealedOpen k.team i)
    let go := ex.filter fun i => !full.contains i
    let s := s.putAll k.team w.dst 1 (go.map fun i => (i, (s.thread k.team i).batch.toNat))
    let s := go.foldl (fun (s : State) (i : Nat) => s.modThread k.team i Thread.seal) s
    full.foldl (fun (s : State) (i : Nat) => s.block k.team i .seal) s := by
  intro s k h
  have hword : exec (.seal w) s = execSeal w s := rfl
  rw [hword, execSeal, word_stands h rfl]

/-! ### A wait that has ended (R36, R160, R192) -/

/-- Where no thread of an issue has found a fault, the end of its wait is an acquire. -/
theorem State.waitOver_of_no_due {s : State} {k : Iss} (h : ∀ j ∈ k.threads, (s.thread k.team j).due = none) :
    s.waitOver k = .ok (k.threads.foldl (fun (r : State) (j : Nat) => r.modThread k.team j fun x => { x with due := none })
      (s.acquire k.core)) := by
  have hfaults : (k.threads.filterMap fun i => (s.thread k.team i).due.map fun f => (i, f)) = [] :=
    List.filterMap_eq_nil_iff.mpr fun j hj => by rw [h j hj]; rfl
  unfold State.waitOver
  simp only [hfaults, List.isEmpty_nil, if_true]

/-- A word whose threads acquire once their wait is over goes on after that. -/
theorem word_waitOver {s : State} {k : Iss} {i : Instr} {c : Common} (hi : s.iss = some k)
    (hr : (s.thread k.team (k.threads.headD 0)).released = true) (hdue : ∀ j ∈ k.threads, (s.thread k.team j).due = none)
    (body : State → Iss → List Nat → Res) :
    let r := k.threads.foldl (fun (r : State) (j : Nat) => r.modThread k.team j fun x => { x with due := none })
      (s.acquire k.core)
    word i c State.waitOver body s = .next (r.finish k c (k.threads.filter fun j => (r.thread k.team j).skip ≤ k.pos) {}) := by
  rw [word_released hi hr, State.resume, State.waitOver_of_no_due hdue]

/-! ### Waits that begin (R160, R192, R193) -/

/-- WAITB where none of its commands is held by a guard and no covered fault is pending: open batches that the wait covers are
sealed, threads whose batches are not done wait, and the others acquire. -/
theorem waitb_completes (w : FA) :
    let n := fun (s : State) (k : Iss) (i : Nat) => BitVec.ofNat 32 (s.opnd k.team i w.sa 1)
    CompletesIf (.waitb w) w.c
    (fun s k ex => (∀ i ∈ ex, s.syncOpen k.team i = false) ∧
      (∀ i ∈ ex, s.guardWait k.team ((s.team k.team).warpOf i) (fun c =>
        c.joins.any fun j => j.1 == i && atOrBefore j.2 (n s k i)) = false) ∧
      ∀ i ∈ ex, s.batchesDone k.team i (n s k i) = true → (s.thread k.team i).batchFault (n s k i) = none)
    fun s k ex =>
      let wait := (ex.filter fun i => !s.batchesDone k.team i (n s k i)).map fun i => (i, n s k i)
      let go := (ex.filter fun i => s.batchesDone k.team i (n s k i)).map fun i => (i, n s k i)
      let s' := (wait ++ go).foldl (fun (r : State) (e : Nat × Word) => r.modThread k.team e.1 fun x =>
        if atOrBefore x.batch e.2 then x.seal else x) s
      let s' := wait.foldl (fun (r : State) (e : Nat × Word) => r.block k.team e.1 (.waitb e.2)) s'
      if go.isEmpty then s' else s'.acquire k.core := by
  rintro n s k h ⟨hcalm, hguard, hfault⟩
  have hexec : exec (.waitb w) s = execWaitb w s := rfl
  rw [hexec, execWaitb, word_stands h rfl]
  generalize s.settled k (.waitb w) w.c = q at *
  generalize s.runs k w.c = ex at *
  have hheld : (ex.filter fun i => q.guardWait k.team ((q.team k.team).warpOf i) fun c =>
      c.joins.any fun j => j.1 == i && atOrBefore j.2 (n q k i)) = [] :=
    List.filter_eq_nil_iff.mpr fun i hi => by rw [hguard i hi]; exact Bool.false_ne_true
  have hfaults : (((ex.filter fun i => q.batchesDone k.team i (n q k i)).map fun i => (i, n q k i)).filterMap fun e =>
      ((q.thread k.team e.1).batchFault e.2).map fun f => (e.1, f)) = [] := by
    refine List.filterMap_eq_nil_iff.mpr fun e he => ?_
    obtain ⟨i, hi, rfl⟩ := List.mem_map.mp he
    obtain ⟨hrun, hdone⟩ := List.mem_filter.mp hi
    rw [hfault i hrun hdone]
    rfl
  simp only [State.syncing_of_calm hcalm, hheld, hfaults, n]

/-- Threads that enter an SWWAIT one after another wait on the generations that the first state gives. -/
theorem State.foldl_block_swwait (s : State) (t : Nat) (code : BitVec 8) (l : List (Nat × Nat)) :
    l.foldl (fun (r : State) (e : Nat × Nat) => r.block t e.1 (.swwait e.2 (BitVec.ofNat 32 (r.opnd t e.1 code 1)))) s =
      l.foldl (fun (r : State) (e : Nat × Nat) => r.block t e.1 (.swwait e.2 (BitVec.ofNat 32 (s.opnd t e.1 code 1)))) s :=
  State.foldl_block_of_kept (w := fun r (e : Nat × Nat) => .swwait e.2 (BitVec.ofNat 32 (r.opnd t e.1 code 1)))
    (by intro r j v e; simp only [State.opnd_block]) l s

/-- SWWAIT where each sync word is one, no held command of the home warp names it and no fault of it is pending: threads whose
GEN is still the one given wait, and the others acquire. -/
theorem swwait_completes (v : FM) :
    let ps := fun (s : State) (k : Iss) (ex : List Nat) => s.probePads k ex (fun i => s.padOff v k.team i) 16
    let offs := fun (s : State) (k : Iss) (ex : List Nat) => (passed (ps s k ex)).filterMap fun e =>
      match e.2.loc with | .pad _ off => some (e.1, off) | _ => none
    let rd := fun (s : State) (k : Iss) (off j : Nat) => leValue ((s.team k.team).pad.readN (off + 4 * j) 4)
    CompletesIf (.swwait v) v.c
      (fun s k ex => AllPass (ps s k ex) ∧ (∀ i ∈ ex, s.syncOpen k.team i = false) ∧
        (∀ e ∈ offs s k ex, rd s k e.2 3 = 0 ∧
          (s.cmds.any fun c => c.team == k.team && c.warp == (s.team k.team).warpOf e.1 && c.guard.isSome &&
            c.sync == some e.2) = false) ∧
        ∀ e ∈ offs s k ex, (s.thread k.team e.1).swFault e.2 = none)
      fun s k ex =>
        let wait := (offs s k ex).filter fun e => rd s k e.2 2 == s.opnd k.team e.1 v.dst 1
        let go := (offs s k ex).filter fun e => !wait.contains e
        let s' := wait.foldl (fun (s' : State) (e : Nat × Nat) =>
          s'.block k.team e.1 (.swwait e.2 (BitVec.ofNat 32 (s.opnd k.team e.1 v.dst 1)))) s
        if go.isEmpty then s' else s'.acquire k.core := by
  rintro ps offs rd s k h ⟨hpass, hcalm, hword, hfault⟩
  have hexec : exec (.swwait v) s = execSwwait v s := rfl
  rw [hexec, execSwwait, word_stands h rfl]
  generalize s.settled k (.swwait v) v.c = q at *
  generalize s.runs k v.c = ex at *
  have hpads : AllPass (q.probePads k ex (fun i => q.padOff v k.team i) 16) := hpass
  simp only [State.onProbes_of_allPass hpads, State.syncing_of_calm hcalm, State.foldl_block_swwait]
  generalize hl : List.filterMap _ (passed (q.probePads _ _ _ _)) = l
  have hoffs : offs q k ex = l := hl
  rw [hoffs] at hword hfault ⊢
  have hbad : (l.filterMap fun e => if rd q k e.2 3 ≠ 0 then some (e.1, ({ code := fSwfmt } : Rep))
      else if q.cmds.any fun c => c.team == k.team && c.warp == (q.team k.team).warpOf e.1 && c.guard.isSome &&
        c.sync == some e.2
      then some (e.1, { code := fGuardwait }) else none) = [] := by
    refine List.filterMap_eq_nil_iff.mpr fun e he => ?_
    obtain ⟨hw3, hheld⟩ := hword e he
    rw [if_neg (not_not.mpr hw3), hheld]
    rfl
  have hfaults (p : Nat × Nat → Bool) : ((l.filter p).filterMap fun e =>
      ((q.thread k.team e.1).swFault e.2).map fun f => (e.1, f)) = [] := by
    refine List.filterMap_eq_nil_iff.mpr fun e he => ?_
    rw [hfault e (List.mem_filter.mp he).1]
    rfl
  simp only [rd] at hbad
  simp only [hbad, hfaults, rd]

/-- Settles O21: the three words complete as `seal_completes`, `waitb_completes` and `swwait_completes` say, and a wait that
has ended goes on as `word_waitOver` says. -/
theorem batchAndSyncWaits : Obligations.BatchAndSyncWaits := by
  unfold Obligations.BatchAndSyncWaits
  intro w v
  refine ⟨seal_completes w, waitb_completes w, swwait_completes v, ?ended⟩
  case ended =>
    rintro i c s k (⟨rfl, rfl⟩ | ⟨rfl, rfl⟩) hi hr hdue
    · exact word_waitOver hi hr hdue _
    · exact word_waitOver hi hr hdue _

end Sys2Proof.Machine
end

section
/-! ERET: its threads return from the handler once what comes before the return is done. -/

namespace Sys2Proof.Machine

open Sys2Proof

/-- ERET where the earlier results are written and the threads that it ends have released their stores: its executing threads
return, and the others go on in the handler (R162, R302, R317). -/
theorem eret_returns {i : Instr} {w : FS} {retry : Bool} (he : ∀ s, exec i s = eret i w retry s) (hb : isBrk i = false)
    {s r : State} {k : Iss} {x : TrapInst} (h : Stands s k i w.c) :
    let ex := s.runs k w.c
    let q := (s.settled k i w.c).settleAll k.team ex
    ex ≠ [] → (∀ j ∈ ex, (q.thread k.team j).open_ = []) →
    q.inst k.team ((q.team k.team).warpOf (ex.headD 0)) (q.thread k.team (ex.headD 0)).level = some x →
    q.release k.team (ex.filter fun j => q.returnEnds k.team j x retry) = some r →
    exec i s = .next ((r.eretAll k ex x retry).finish (k.without ex) w.c [] {}) := by
  rw [he, eret, word_stands h hb]
  dsimp only
  generalize s.runs k w.c = ex
  generalize (s.settled k i w.c).settleAll k.team ex = q
  intro hne hopen hinst hrelease
  have hclosed : (ex.any fun j => !(q.thread k.team j).open_.isEmpty) = false :=
    List.any_eq_false.mpr fun j hj => by simp [hopen j hj]
  obtain ⟨j, js, rfl⟩ := List.exists_cons_of_ne_nil hne
  simp only [hinst, hclosed, State.releasing, hrelease, Bool.false_eq_true, if_false]

/-- Settles O37: both forms are `eret`, which `eret_returns` describes. -/
theorem eretReturnsFromAnInstance : Obligations.EretReturnsFromAnInstance := by
  unfold Obligations.EretReturnsFromAnInstance
  intro w returns
  exact ⟨fun s k x r h hne hopen hinst hrelease => eret_returns (fun _ => rfl) rfl h hne hopen hinst hrelease,
    fun s k x r h hne hopen hinst hrelease => eret_returns (fun _ => rfl) rfl h hne hopen hinst hrelease⟩

end Sys2Proof.Machine
end

section
/-! Loads, stores, atomics, fences, page requests, shape records and sync words: how each completes where its lanes pass their
probes. -/

namespace Sys2Proof.Machine

open Sys2Proof

/-! ### Waits that a word does not make (R165, R167, R314) -/

/-- Where none of the places is poisoned by the test, a word performs (R314). -/
theorem State.onPoison_of_clean {s : State} {k : Iss} {test : Loc → Nat → Bool} {ls : List (Loc × Nat)}
    (h : ∀ e ∈ ls, test e.1 e.2 = false) (go : Res) : s.onPoison k test ls go = go := by
  have hfind : (ls.find? fun e => test e.1 e.2) = none := List.find?_eq_none.mpr fun e he => by simp [h e he]
  rw [State.onPoison, hfind]
/-- Once a release is done, a word goes on in the state that it leaves (R167). -/
theorem State.releasing_of_release {s r : State} {t : Nat} {is : List Nat} (h : s.release t is = some r) (go : State → Res) :
    s.releasing t is go = go r := by
  rw [State.releasing, h]

/-- A word whose body takes its effect where it stands completes. -/
theorem completesIf_of_body {i : Instr} {c : Common} {after : State → Iss → Res} {body : State → Iss → List Nat → Res}
    (he : ∀ s, exec i s = word i c after body s) (hb : isBrk i = false) {ok : State → Iss → List Nat → Prop}
    {f : State → Iss → List Nat → State} (hbody : ∀ s k ex, ok s k ex → body s k ex = .ok (f s k ex)) :
    CompletesIf i c ok f := by
  intro s k h hok
  rw [he, word_stands h hb, hbody _ _ _ hok]

/-! ### Loads (R178 to R180, R190) -/

/-- Loads none of whose places is poisoned for them issue what their lanes see. -/
theorem loadLanes_of_clean {s : State} {k : Iss} {as : List (Nat × Access)} {acq : Bool}
    (h : ∀ e ∈ places as, (if acq then s.takesPoison k.core else s.consumes k.core) e.1 e.2 = false) (c : Common)
    (code : BitVec 8) (regs : Nat) (sx : Bool) (ty : Option (BitVec 4)) (zeros : List Nat)
    (pred : Nat → Option (BitVec 3 × Bool)) :
    s.loadLanes k c code regs sx ty as zeros pred acq =
      .ok ((s.fillLanes k as acq).loadDone k c code regs sx ty as zeros pred acq) :=
  State.onPoison_of_clean h _

/-- Settles O15: each word's probes pass and its places are clean, so that `loadLanes` issues the values. -/
theorem loadsIssueWhatTheirLanesSee : Obligations.LoadsIssueWhatTheirLanesSee := by
  unfold Obligations.LoadsIssueWhatTheirLanesSee
  intro w clean
  refine ⟨?ld, ?lda, ?lds, ?ldnr, ?ldt⟩
  case ld =>
    refine completesIf_of_body (fun _ => rfl) rfl ?_
    rintro s k ex ⟨hpass, hclean⟩
    dsimp only
    rw [State.onProbes_of_allPass hpass, loadLanes_of_clean (acq := false) hclean]
  case lda =>
    refine completesIf_of_body (fun _ => rfl) rfl ?_
    rintro s k ex ⟨hpass, hcalm, hclean⟩
    dsimp only
    rw [State.onProbes_of_allPass hpass, State.syncing_of_calm hcalm, loadLanes_of_clean (acq := true) hclean]
  case lds =>
    refine completesIf_of_body (fun _ => rfl) rfl ?_
    rintro s k ex ⟨hpass, hclean⟩
    dsimp only
    rw [State.onProbes_of_allPass hpass, loadLanes_of_clean (acq := false) hclean]
  case ldnr =>
    refine completesIf_of_body (fun _ => rfl) rfl ?_
    rintro s k ex ⟨hpass, hclean⟩
    dsimp only
    rw [State.onProbes_of_allPass hpass, loadLanes_of_clean (acq := false) hclean]
  case ldt =>
    refine completesIf_of_body (fun _ => rfl) rfl ?_
    rintro s k ex ⟨hpass, hclean⟩
    dsimp only
    rw [State.onProbes_of_allPass hpass, loadLanes_of_clean (acq := false) hclean]

/-! ### Stores (R178, R179, R181, R190) -/

/-- Settles O16: each word's probes pass, so that its stores are performed. -/
theorem storesWriteTheirBytes : Obligations.StoresWriteTheirBytes := by
  unfold Obligations.StoresWriteTheirBytes
  intro w bytes
  refine ⟨?st, ?typed, ?sts, ?stl, ?stt, ?qst⟩
  case st =>
    intro hwid
    refine completesIf_of_body (fun _ => rfl) rfl fun s k ex hpass => ?_
    dsimp only
    rw [State.onProbes_of_allPass hpass, if_neg hwid]
    rfl
  case typed =>
    intro hwid
    refine completesIf_of_body (fun _ => rfl) rfl ?_
    rintro s k ex ⟨hpass, hclean⟩
    dsimp only
    rw [State.onProbes_of_allPass hpass, if_pos hwid, State.onPoison_of_clean hclean]
  case sts =>
    refine completesIf_of_body (fun _ => rfl) rfl fun s k ex hpass => ?_
    dsimp only
    rw [State.onProbes_of_allPass hpass]
    rfl
  case stl =>
    intro r
    refine completesIf_of_body (fun _ => rfl) rfl ?_
    rintro s k ex ⟨hpass, hrel⟩
    dsimp only
    rw [State.onProbes_of_allPass hpass, State.releasing_of_release hrel]
  case stt =>
    refine completesIf_of_body (fun _ => rfl) rfl fun s k ex hpass => ?_
    dsimp only
    rw [State.onProbes_of_allPass hpass]
    rfl
  case qst =>
    refine completesIf_of_body (fun _ => rfl) rfl fun s k ex hpass => ?_
    dsimp only
    rw [State.onProbes_of_allPass hpass]

/-! ### Atomics (R156, R167, R182, R183) -/

/-- The places of atomics are clean where each location is. -/
theorem State.onPoison_of_clean_atoms {s : State} {k : Iss} {n : Nat} {ls : List (Nat × Loc × Nat)}
    (h : ∀ e ∈ ls, s.takesPoison k.core e.2.1 n = false) (go : Res) :
    s.onPoison k (s.takesPoison k.core) (ls.map fun e => (e.2.1, n)) go = go :=
  State.onPoison_of_clean (List.forall_mem_map.mpr h) go
/-- Atomics none of whose locations is poisoned apply their operations and issue the values replaced. -/
theorem State.atomLanes_of_clean {s : State} {k : Iss} {wid : BitVec 3} {ls : List (Nat × Loc × Nat)}
    (h : ∀ e ∈ ls, s.takesPoison k.core e.2.1 (widBytes wid) = false) (c : Common) (code : BitVec 8) (aop : Nat) (acq : Bool) :
    s.atomLanes k c code wid aop ls acq = .ok (s.atomDone k c code wid aop ls acq) :=
  State.onPoison_of_clean_atoms h _

/-- Settles O17: each word's probes pass and its locations are clean, so that `atomLanes` applies the operations after the waits of
`.rel` and `.acq`; a RED that lands leaves the result that `State.landed` gives. -/
theorem atomicsApplyAtTheirHome : Obligations.AtomicsApplyAtTheirHome := by
  unfold Obligations.AtomicsApplyAtTheirHome
  intro w n clean
  refine ⟨?atom, ?rel, ?red, ?land, ?atoms⟩
  case atom =>
    intro hrel
    refine completesIf_of_body (fun _ => rfl) rfl ?_
    rintro s k ex ⟨hpass, hcalm, hclean⟩
    dsimp only
    rw [State.onProbes_of_allPass hpass, if_neg (Bool.eq_false_iff.mp hrel)]
    split
    next hacq => rw [State.syncing_of_calm (hcalm hacq), State.atomLanes_of_clean hclean]
    next => rw [State.atomLanes_of_clean hclean]
  case rel =>
    intro hrel r
    refine completesIf_of_body (fun _ => rfl) rfl ?_
    rintro s k ex ⟨hpass, hr, hclean⟩
    dsimp only
    rw [State.onProbes_of_allPass hpass, if_pos hrel, State.releasing_of_release hr, State.atomLanes_of_clean hclean]
  case red =>
    refine completesIf_of_body (fun _ => rfl) rfl ?_
    rintro s k ex ⟨hpass, hclean⟩
    dsimp only
    rw [State.onProbes_of_allPass hpass]
    exact State.onPoison_of_clean_atoms hclean _
  case land =>
    intro s st aop hred
    rw [State.land_mem, State.landed, hred]
  case atoms =>
    refine completesIf_of_body (fun _ => rfl) rfl ?_
    rintro s k ex ⟨hpass, hclean⟩
    dsimp only
    rw [State.onProbes_of_allPass hpass, State.atomLanes_of_clean hclean]

/-! ### Fences, prefetch, page requests and code (R184 to R187) -/

/-- Where no absent page is on another chip, a word does not wait for one (R335). -/
theorem State.awaitFar_of_near {α : Type} {s : State} {k : Iss} {ps : List (Nat × Except Probe α)}
    (h : ∀ e ∈ missingPages ps, e.far = false) (go : State → Res) : s.awaitFar k ps go = go s := by
  have hfar : (missingPages ps).filter PageKey.far = [] := List.filter_eq_nil_iff.mpr fun e he => by simp [h e he]
  rw [State.awaitFar, hfar]

/-- Settles O19: the waits of each word are over, so that its effect is taken. -/
theorem fencesPrefetchAndPageRequests : Obligations.FencesPrefetchAndPageRequests := by
  unfold Obligations.FencesPrefetchAndPageRequests
  intro w v
  refine ⟨?acq, ?rel, ?full, ?pref, ?pgreq, ?icfence⟩
  case acq =>
    refine completesIf_of_body (fun _ => rfl) rfl fun s k ex hcalm => ?_
    rw [State.syncing_of_calm hcalm]
    simp only [List.isEmpty_iff]
  case rel =>
    intro r
    refine completesIf_of_body (fun _ => rfl) rfl fun s k ex hr => ?_
    exact State.releasing_of_release hr _
  case full =>
    intro r
    refine completesIf_of_body (fun _ => rfl) rfl fun s k ex hr => ?_
    rw [State.releasing_of_release hr]
    simp only [List.isEmpty_iff]
  case pref =>
    intro s k h
    have hexec : exec (.pref w) s = execPref w s := rfl
    rw [hexec, execPref, simple_stands h rfl]
    simp only [Bool.not_eq_true]
  case pgreq =>
    refine completesIf_of_body (fun _ => rfl) rfl ?_
    rintro s k ex ⟨hfaults, hnear⟩
    dsimp only
    simp only [hfaults]
    rw [State.awaitFar_of_near hnear]
    split <;> rfl
  case icfence =>
    intro s k h
    have hexec : exec (.icfence v) s = execIcfence v s := rfl
    rw [hexec, execIcfence, simple_stands h rfl]
    simp only [List.isEmpty_iff, State.icDrop]

/-! ### Shape records and sync words (R188, R189, R191) -/

/-- What holds of each home warp's probe holds of it given to each of the warp's threads. -/
theorem allPass_flatMap {α : Type} {ps : List (Nat × Except Probe α)} (h : AllPass ps) (f : Nat → List Nat) :
    AllPass (ps.flatMap fun e => (f e.1).map fun i => (i, e.2)) := by
  intro e he
  obtain ⟨p, hp, hi⟩ := List.mem_flatMap.mp he
  obtain ⟨i, -, rfl⟩ := List.mem_map.mp hi
  exact h p hp

/-- Settles O20: the lead threads' probes pass, their records are clean and keep the rules, so that they are written or asked for;
SWINIT's probes pass, so that each word is set. -/
theorem shapeAndSyncWordsAreSet : Obligations.ShapeAndSyncWordsAreSet := by
  unfold Obligations.ShapeAndSyncWordsAreSet
  intro w
  refine ⟨?shape, ?swinit⟩
  case shape =>
    intro lead ps far near filled recs
    refine completesIf_of_body (fun _ => rfl) rfl ?_
    rintro s k ex ⟨hpass, hclean, hrules⟩
    have hall := allPass_flatMap hpass fun v => (ps s k ex).1.ofWarp k.team v ex
    have hbad : ((recs s k ex).filter fun r => !shapeOk r.2) = [] := List.filter_eq_nil_iff.mpr fun r hr => by simp [hrules r hr]
    dsimp only
    rw [State.onProbes_of_allPass hall]
    rw [State.onPoison_of_clean hclean]
    dsimp only [recs, filled, near, far, ps, lead] at hbad ⊢
    simp only [hbad, List.isEmpty_iff]
  case swinit =>
    refine completesIf_of_body (fun _ => rfl) rfl fun s k ex hpass => ?_
    dsimp only
    rw [State.onProbes_of_allPass hpass]
    rfl

end Sys2Proof.Machine
end

section
/-! Engine words, which start their commands where no check refuses them; and what each atomic operation leaves. -/

namespace Sys2Proof.Machine

open Sys2Proof

/-! ### Engine words (R195 to R199, R202) -/

/-- What a command that no check refuses does at issue: it starts, or there is nothing to start (R196). -/
def State.startPlanned (s : State) (k : Iss) (guard : Option Nat) (joins : List Nat) :
    Option (CmdOp × List Nat × Option Nat) → State
  | some (op, todo, sync) => s.startCmd k guard joins op todo sync
  | none => s

/-- An engine word none of whose plans fails starts them in order. -/
theorem engineWord_completes {i : Instr} {w : FX} {units : State → Iss → List Nat → List (List Nat)}
    {plan : State → Iss → List Nat → Plan} (he : ∀ s, exec i s = engineWord i w units plan s) (hb : isBrk i = false)
    {ok : State → Iss → List Nat → Prop} (go : State → Iss → List Nat → Option (CmdOp × List Nat × Option Nat))
    (hplan : ∀ s k ex, ok s k ex → ∀ u ∈ units s k ex, plan s k u = .ok (go s k u)) :
    CompletesIf i w.c ok fun s k ex => (units s k ex).foldl (fun (r : State) (u : List Nat) =>
      r.startPlanned k (guardOf w) u (go s k u)) s := by
  intro s k h hok
  rw [he, engineWord, word_stands h hb]
  have hplans := hplan _ _ _ hok
  generalize s.settled k i w.c = q at *
  generalize s.runs k w.c = ex at *
  have hus : ((units q k ex).map fun u => (u, plan q k u)) = (units q k ex).map fun u => (u, .ok (go q k u)) :=
    List.map_congr_left fun u hu => by rw [hplans u hu]
  have hnone : (units q k ex).flatMap (fun _ => ([] : List (Nat × Rep))) = [] := List.flatMap_eq_nil_iff.mpr fun _ _ => rfl
  simp only [hus, List.flatMap_map, List.foldl_map, hnone]
  congr 3
  funext r u
  cases go q k u <;> rfl

/-- As `engineWord_completes`, for a word that starts a command for each executing thread. -/
theorem engineWord_eachThread {i : Instr} {w : FX} {plan : State → Iss → List Nat → Plan}
    (he : ∀ s, exec i s = engineWord i w eachThread plan s) (hb : isBrk i = false)
    {ok : State → Iss → List Nat → Prop} {f : State → Iss → State → Nat → State}
    (go : State → Iss → Nat → Option (CmdOp × List Nat × Option Nat))
    (hplan : ∀ s k ex, ok s k ex → ∀ j ∈ ex, plan s k [j] = .ok (go s k j))
    (hf : ∀ s k r j, r.startPlanned k (guardOf w) [j] (go s k j) = f s k r j) :
    CompletesIf i w.c ok fun s k ex => ex.foldl (f s k) s := by
  have h := engineWord_completes he hb (fun s k u => go s k (u.headD 0)) fun s k ex hok u hu => by
    obtain ⟨j, hj, rfl⟩ := List.mem_map.mp hu
    exact hplan s k ex hok j hj
  simpa only [eachThread, List.foldl_map, List.headD_cons, hf] using h

/-- The checks that the copies share pass where each of them does (R195). -/
theorem State.copyPlan_of_checks {s : State} {t i : Nat} {long : Bool} {ranges : List (Nat × Nat × Nat)} {cross : Bool}
    {sync : Option Nat} {own : Bool} (hlong : long = false)
    (hrange : s.rangeFaults t (s.privileged t i) ranges = none) (hcross : cross = false)
    (hsync : s.syncBad t sync = false ∧ (sync.isSome = true → own = true))
    (go : Option (CmdOp × List Nat × Option Nat)) :
    s.copyPlan t i long ranges cross sync own go = .ok go := by
  obtain ⟨hword, hown⟩ := hsync
  have hrefused : ¬ (s.syncBad t sync = true ∨ sync.isSome = true ∧ ¬ own = true) := by
    rintro (hbad | ⟨hsome, hout⟩)
    · rw [hword] at hbad; cases hbad
    · exact hout (hown hsome)
  simp only [State.copyPlan, hlong, hrange, hcross, hrefused, Bool.false_eq_true, if_false]

/-- The fields of the quad of CPYG and CPYS, and what refuses it (R196). -/
theorem quadOf_eq (q : Nat) : quadOf q = (q % 2 ^ 64, q / 2 ^ 64 % 2 ^ 32, 2 ^ (q / 2 ^ 96 % 8),
    decide (4096 < q / 2 ^ 64 % 2 ^ 32 ∨ 65536 < q / 2 ^ 64 % 2 ^ 32 * 2 ^ (q / 2 ^ 96 % 8) ∨ q / 2 ^ 99 % 2 ^ 29 ≠ 0)) := by
  simp only [quadOf, bits, Bool.decide_or, Bool.or_assoc, bne, ← Bool.beq_eq_decide_eq, decide_not]
  rfl

/-- Settles O35: each word's plans pass the checks of R195, so that `engineWord_completes` starts them. -/
theorem engineWordsStartCommands : Obligations.EngineWordsStartCommands := by
  unfold Obligations.EngineWordsStartCommands
  intro w guard sync syncOk quad idx cnt wid long
  refine ⟨?cpy, ?cpyg, ?cpys, ?cpyt, ?walk⟩
  case cpy =>
    refine engineWord_eachThread (fun _ => rfl) rfl (fun s k i =>
      let n := s.opnd k.team i w.sb 1
      if n = 0 then none
      else some (.cpy (s.opnd k.team i w.dst 2) (s.opnd k.team i w.sa 2) n, blocks (s.opnd k.team i w.dst 2) n, sync s k i))
      (fun s k ex hok i hi => ?_) fun s k r i => ?_
    · obtain ⟨hlen, hrange, hcross, hsync⟩ := hok i hi
      exact State.copyPlan_of_checks (by simpa using hlen) hrange hcross hsync _
    · dsimp only
      split <;> rfl
  case cpyg =>
    refine engineWord_eachThread (fun _ => rfl) rfl (fun s k i => some
      (.cpyg (s.opnd k.team i w.dst 2) (s.opnd k.team i w.sa 2) (idx s k i) (cnt s k i) (wid s k i) none,
        blocks (s.opnd k.team i w.dst 2) (cnt s k i * wid s k i), sync s k i))
      (fun s k ex hok i hi => ?_) fun s k r i => rfl
    obtain ⟨hlong, hrange, hsync⟩ := hok i hi
    simp only [quadOf_eq]
    exact State.copyPlan_of_checks (decide_eq_false hlong) hrange rfl hsync _
  case cpys =>
    refine engineWord_eachThread (fun _ => rfl) rfl (fun s k i => some
      (.cpys (s.opnd k.team i w.dst 2) (s.opnd k.team i w.sa 2) (idx s k i) (cnt s k i) (wid s k i) none, [], sync s k i))
      (fun s k ex hok i hi => ?_) fun s k r i => rfl
    obtain ⟨hlong, hrange, hsync⟩ := hok i hi
    simp only [quadOf_eq]
    exact State.copyPlan_of_checks (decide_eq_false hlong) hrange rfl hsync _
  case cpyt =>
    have h := engineWord_completes (i := .cpyt w) (units := eachWarp) (plan := fun s k u => s.cpytPlan w k.team u)
      (fun _ => rfl) rfl
      (ok := fun s k ex => ∀ v ∈ s.warpsOf k.team ex, ∃ c, s.cpytPlan w k.team (s.ofWarp k.team v ex) = .ok (some c))
      (fun s k u => (s.cpytPlan w k.team u).toOption.join) fun s k ex hok u hu => by
        obtain ⟨v, hv, rfl⟩ := List.mem_map.mp hu
        obtain ⟨c, hc⟩ := hok v hv
        rw [hc]
        rfl
    intro s k hs hok
    refine (h s k hs hok).trans ?_
    generalize s.settled k (.cpyt w) w.c = q
    simp only [eachWarp, List.foldl_map]
    congr 3
    funext r v
    rcases q.cpytPlan w k.team (q.ofWarp k.team v (s.runs k w.c)) with _ | _ | c <;> rfl
  case walk =>
    refine engineWord_eachThread (fun _ => rfl) rfl (fun s k i => some (.walk (s.opnd k.team i w.sa 2) [] 0 0, [], none))
      (fun s k ex hok i hi => ?_) fun s k r i => rfl
    simp only [List.headD_cons, hok i hi]

/-! ### Atomic operations (R182) -/

theorem Fm.two_pow_width (f : Fm) : 2 ^ f.width = 2 * f.signBit := by
  rw [Fm.width, Fm.signBit, Nat.add_assoc, Nat.pow_add, Nat.pow_one]
/-- The order of a value's bits, by its sign bit. -/
theorem Fm.key_eq {f : Fm} {v : Nat} (hv : v < 2 ^ f.width) :
    f.key v = if f.signBit ≤ v then -((v - f.signBit : Nat) : Int) - 1 else (v : Int) := by
  rw [f.two_pow_width] at hv
  have hsign := Fm.sign_eq_decide hv
  rcases Nat.lt_or_ge v f.signBit with hlt | hge
  · simp [Fm.key, Nat.mod_eq_of_lt hlt, Nat.div_eq_of_lt hlt, hlt.not_ge]
  · have hmod : v % f.signBit = v - f.signBit := by rw [Nat.mod_eq_sub_mod hge, Nat.mod_eq_of_lt (by omega)]
    have hone : v / f.signBit % 2 = 1 := by simpa [hge] using hsign
    rw [Fm.key, hmod, if_pos hone, if_pos hge]
/-- The order of the bits of a format tells its values apart (R113). -/
theorem Fm.key_injective {f : Fm} {a b : Nat} (ha : a < 2 ^ f.width) (hb : b < 2 ^ f.width) (h : f.key a = f.key b) : a = b := by
  rw [Fm.key_eq ha, Fm.key_eq hb] at h
  split at h <;> split at h <;> omega

/-- A value that fits its format is not changed where FTZ is off. -/
theorem Fm.flush_false {f : Fm} {v : Nat} (hv : v < 2 ^ f.width) : f.flush false v = v := by
  simp only [Fm.flush, Bool.false_eq_true, false_and, if_false]
  exact Nat.mod_eq_of_lt hv

/-- FMIN of two values of a format that fit it: the one that is not above the other (R113). -/
theorem Fm.min_eq {f : Fm} {a b : Nat} (ha : a < 2 ^ f.width) (hb : b < 2 ^ f.width) :
    f.minmax false false a b = if f.isNan a && f.isNan b then f.nan else if f.isNan a then b else if f.isNan b then a
      else if f.key a ≤ f.key b then a else b := by
  simp only [Fm.minmax_eq, Fm.flush_false ha, Fm.flush_false hb, Bool.false_eq_true, if_false]
/-- FMAX of two: the one that is not below the other. Values of one key are the same bits. -/
theorem Fm.max_eq {f : Fm} {a b : Nat} (ha : a < 2 ^ f.width) (hb : b < 2 ^ f.width) :
    f.minmax true false a b = if f.isNan a && f.isNan b then f.nan else if f.isNan a then b else if f.isNan b then a
      else if f.key b ≤ f.key a then a else b := by
  have hkey : (if f.key a ≤ f.key b then b else a) = if f.key b ≤ f.key a then a else b := by
    rcases lt_trichotomy (f.key a) (f.key b) with h | h | h
    · rw [if_pos h.le, if_neg h.not_ge]
    · rw [Fm.key_injective ha hb h, ite_self]
    · rw [if_neg h.not_ge, if_pos h.le]
  simp only [Fm.minmax_eq, Fm.flush_false ha, Fm.flush_false hb, if_true, hkey]

/-- Settles O18: the integer operations are those of bit vectors, and the float ones those of the format of n bits. -/
theorem atomicOperationValues : Obligations.AtomicOperationValues := by
  unfold Obligations.AtomicOperationValues
  intro n old b hn hold x o y
  have hx : x < 2 ^ n := Nat.mod_lt _ (Nat.two_pow_pos n)
  have ho : o.toNat = old := by rw [BitVec.toNat_ofNat, Nat.mod_eq_of_lt hold]
  have hy : y.toNat = x := BitVec.toNat_ofNat _ _
  have hsy : sext x n = y.toInt := by rw [sext_eq_toInt, ← hy, BitVec.ofNat_toNat, BitVec.setWidth_eq]
  have hso : sext old n = o.toInt := sext_eq_toInt _ _
  have hf : (if n = 64 then fm64 else fm32) = if n = 32 then fm32 else fm64 := by rcases hn with rfl | rfl <;> rfl
  have hwidth : (if n = 32 then fm32 else fm64).width = n := by rcases hn with rfl | rfl <;> rfl
  have hold' : old < 2 ^ (if n = 32 then fm32 else fm64).width := by rwa [hwidth]
  have hx' : x < 2 ^ (if n = 32 then fm32 else fm64).width := by rwa [hwidth]
  refine ⟨?add, ?min, ?max, rfl, rfl, ?and, ?or, ?xor, rfl, rfl, ⟨?fadd, ?fmin, ?fmax⟩, ?inc⟩
  case add => rw [BitVec.toNat_add, ho, hy]; rfl
  case min =>
    rw [apply_ite BitVec.toNat, ho, hy, ← hsy, ← hso]
    simp only [atomResult, decide_eq_true_eq]
    rfl
  case max =>
    rw [apply_ite BitVec.toNat, ho, hy, ← hsy, ← hso]
    simp only [atomResult, decide_eq_true_eq]
    rfl
  case and => rw [BitVec.toNat_and, ho, hy]; rfl
  case or => rw [BitVec.toNat_or, ho, hy]; rfl
  case xor => rw [BitVec.toNat_xor, ho, hy]; rfl
  case fadd => rw [← hf]; rfl
  case fmin => exact (congrArg (fun f : Fm => f.minmax false false old x) hf).trans (Fm.min_eq hold' hx')
  case fmax => exact (congrArg (fun f : Fm => f.minmax true false old x) hf).trans (Fm.max_eq hold' hx')
  case inc =>
    show (if x ≤ old then 0 else (old + 1) % 2 ^ n) = _
    split
    · rfl
    · exact Nat.mod_eq_of_lt (by omega)

end Sys2Proof.Machine
end

section
/-! The frame of the memory words fails where a load waits for a peer: its thread's wait can end a meeting that the thread was
interrupted on the way to. -/

namespace Sys2Proof.Machine

open Sys2Proof

/-! ### A load in a handler whose wait ends a meeting (R209, R210, R335) -/

/-- LD v6, [v2 + 0] of 32 bits, unguarded and with NAS NEXT (R178). -/
def peerLoad : FM := { c := plainWord, dst := 6, sa := 2, sb := 0, off := 0, wid := 2, ctl := 0 }
/-- The clause that it stands in, with one more word after it. -/
def peerClause : Clause := twoWords (FM.toWord 0x70 peerLoad)
/-- The translation of page 2, which lies on chip 1. -/
def peerPage : Tlb := { tlbAt 0 0 with page := 2, kind := 2, frame := 2 ^ 35 + 2 ^ 25 }
/-- A thread at the load in its handler, interrupted on the way to a meeting at 0x10040; v2 and v3 hold an address of page 2. -/
def handlerThread : Thread :=
  let b : Banked := { pc := 0x10040, mid := none, skip := 0, meet := 0x10040, mtag := 0, alone := false, p := 0, laneSet := 0,
                      looks := [] }
  { Thread.start 0x10000 192 0 none with
    mid := some (peerClause, 0), meet := 1, level := 1, banks := [b], ew := [[0, 0, 0, 0]]
    v := (List.replicate 192 0).set 2 0x20000 }
/-- A team of that thread and of one held at 0x10040, after reset. -/
def meetingAwaited : State :=
  let s := (State.reset.placeWord peerClause).modTeam 0 fun m => { m with ntid := 2, threads := [handlerThread, heldAt .meet] }
  let s := s.modWarp 0 0 fun x => { x with insts := [{ (default : TrapInst) with level := 1, threads := [0] }] }
  (s.modCore 0 fun x => { x with tlb := peerPage :: x.tlb }).modCtx 0 fun x => { x with spwbase := 2 ^ 44 }
/-- Its current issue. -/
def awaitedIssue : Iss :=
  { core := 0, part := 0, team := 0, num := 0, threads := [0], clause := peerClause, pos := 0 }

/-- The load stands there. -/
theorem stands_meetingAwaited : Stands meetingAwaited awaitedIssue (.ld peerLoad) peerLoad.c where
  issue := by decide +kernel
  first := by decide +kernel
  noBreak := by decide +kernel
  guard := by decide +kernel
  valid := by decide +kernel
  rights := by decide +kernel
  look := by decide +kernel
  results := by decide +kernel
  window := by decide +kernel

/-- Lanes that all end in an access pass. -/
theorem allPass_of_isOk {α : Type} {ps : List (Nat × Except Probe α)} (h : (ps.all fun e => e.2.isOk) = true) : AllPass ps := by
  rintro ⟨i, r⟩ he
  cases r with
  | ok a => exact ⟨a, rfl⟩
  | error p => exact absurd (List.all_eq_true.mp h _ he) Bool.false_ne_true
/-- Its lane passes its probe. -/
theorem allPass_meetingAwaited :
    AllPass ((meetingAwaited.settled awaitedIssue (.ld peerLoad) peerLoad.c).probeGlobal awaitedIssue peerLoad
      (meetingAwaited.runs awaitedIssue peerLoad.c) {}).2 :=
  allPass_of_isOk (by decide +kernel)
/-- Nothing is poisoned there. -/
theorem clean_meetingAwaited :
    let p := (meetingAwaited.settled awaitedIssue (.ld peerLoad) peerLoad.c).probeGlobal awaitedIssue peerLoad
      (meetingAwaited.runs awaitedIssue peerLoad.c) {}
    ∀ e ∈ places (passed p.2), p.1.consumes awaitedIssue.core e.1 e.2 = false := by
  decide +kernel

/-- Before the load's effect the meeting has not left its thread behind. -/
theorem settled_meetingAwaited_banks :
    ((meetingAwaited.settled awaitedIssue (.ld peerLoad) peerLoad.c).thread 0 0).banks.map Banked.alone = [false] := by
  decide +kernel
/-- The load runs, and its thread, which waits for the peer's answer, is left behind. -/
theorem exec_meetingAwaited_banks : ∃ t, exec (.ld peerLoad) meetingAwaited = .next t ∧
    (t.thread 0 0).banks.map Banked.alone = [true] := by
  have h : (match exec (.ld peerLoad) meetingAwaited with
      | .next t => (t.thread 0 0).banks.map Banked.alone == [true]
      | _ => false) = true := by decide +kernel
  split at h
  · next t ht => exact ⟨t, ht, by simpa using h⟩
  · cases h

/-- Refutes O60: LD v6, [v2] of a peer page, by a thread in its trap handler. The thread waits at BP-REMOTE for the answer (R335),
and with that every thread of the meeting that it was interrupted on the way to is held or at another blocking point; the meeting is
released and leaves it behind (R210). This sets the `alone` that its trap has banked, and the statement says that no thread's
`banks` change. -/
theorem not_memoryWordsChangeOnlyTheirBytes : ¬ Obligations.MemoryWordsChangeOnlyTheirBytes := by
  unfold Obligations.MemoryWordsChangeOnlyTheirBytes
  intro h
  obtain ⟨t, ht, halone⟩ := exec_meetingAwaited_banks
  obtain ⟨hld, -⟩ := h peerLoad meetingAwaited t awaitedIssue rfl (last_twoWords _)
  obtain ⟨-, hthreads, -⟩ := hld stands_meetingAwaited ⟨allPass_meetingAwaited, clean_meetingAwaited⟩ ht
  obtain ⟨-, -, -, -, -, hbanks⟩ := hthreads 0
  have hsame := congrArg (List.map Banked.alone) hbanks
  rw [show awaitedIssue.team = 0 from rfl, halone] at hsame
  exact absurd (hsame.trans settled_meetingAwaited_banks) (by decide)

end Sys2Proof.Machine
end

section
/-! Barriers, watches, sleeps and records: how the words complete, and what an arrival does to its record. -/

namespace Sys2Proof.Machine

open Sys2Proof

/-! ### Barrier words (R216, R234, R235) -/

/-- The arrive form, once the stores of its threads are acknowledged, gives each the generation before its arrival. -/
theorem barArrive_completes {i : Instr} {w : FA} {span : Bool} (he : ∀ s, exec i s = barArrive i w span s)
    (hb : isBrk i = false) (r : State) : CompletesIf i w.c (fun s k ex => s.release k.team ex = some r) fun _ k ex =>
      let a := r.arriveAll span k.team (barId w) ex
      a.1.putAll k.team w.dst 1 (a.2.map fun e => (e.1, e.2.toNat)) :=
  completesIf_of_body he hb fun _ _ _ hr => State.releasing_of_release hr _

/-- The wait form, where no synchronising store of its threads is open, waits or acquires as the generation says. -/
theorem barWait_completes {i : Instr} {w : FA} {span : Bool} (he : ∀ s, exec i s = barWait i w span s)
    (hb : isBrk i = false) : CompletesIf i w.c (fun s k ex => ∀ j ∈ ex, s.syncOpen k.team j = false) fun s k ex =>
      s.barWaits span k (barId w) (ex.map fun j => (j, BitVec.ofNat 32 (s.opnd k.team j w.sa 1))) :=
  completesIf_of_body he hb fun _ _ _ hcalm => State.syncing_of_calm hcalm _

/-- The sync form is the arrive form, then the wait on the generations that it gives. -/
theorem barSync_completes {i : Instr} {w : FA} {span : Bool} (he : ∀ s, exec i s = barSync i w span s)
    (hb : isBrk i = false) (r : State) : CompletesIf i w.c (fun s k ex => s.release k.team ex = some r) fun _ k ex =>
      let a := r.arriveAll span k.team (barId w) ex
      a.1.barWaits span k (barId w) a.2 :=
  completesIf_of_body he hb fun _ _ _ hr => State.releasing_of_release hr _

/-- Settles O23: each form is the same for team and span records. -/
theorem barrierFormsArriveAndWait : Obligations.BarrierFormsArriveAndWait := by
  unfold Obligations.BarrierFormsArriveAndWait
  intro w id arrive wait sync
  exact ⟨barArrive_completes (fun _ => rfl) rfl, barWait_completes (fun _ => rfl) rfl, barSync_completes (fun _ => rfl) rfl,
    barArrive_completes (fun _ => rfl) rfl, barWait_completes (fun _ => rfl) rfl, barSync_completes (fun _ => rfl) rfl⟩

/-! ### An arrival (R211, R216, R217) -/

/-- A change of an entry of a list is given by what it does to that entry as it is. -/
theorem modify_congr_of_getD {α : Type} [Inhabited α] {l : List α} {i : Nat} {f g : α → α}
    (h : f (l.getD i default) = g (l.getD i default)) : l.modify i f = l.modify i g := by
  rw [List.getD_eq_getElem?_getD] at h
  rw [List.modify_eq_set, List.modify_eq_set, h]
/-- Changes of one team one after another are one change. -/
theorem State.modTeam_modTeam (s : State) (t : Nat) (f g : Team → Team) :
    (s.modTeam t f).modTeam t g = s.modTeam t fun m => g (f m) := by
  simp only [State.modTeam, List.modify_modify_eq]
  rfl

/-- A change of a team is given by what it does to that team as it is. -/
theorem State.modTeam_congr {s : State} {t : Nat} {f g : Team → Team} (h : f (s.team t) = g (s.team t)) :
    s.modTeam t f = s.modTeam t g := by
  rw [State.modTeam, State.modTeam, modify_congr_of_getD h]

/-- A record of a team's barriers set, and written to its place in the save area (R216). -/
def State.setBar (s : State) (t id : Nat) (x : BarRec) : State :=
  (s.modTeam t fun m => { m with bars := m.bars.set id x }).putBar t id
/-- The waiters of a team's barrier record go on (R217). -/
def State.passBar (s : State) (t id : Nat) : State :=
  s.unblock t (s.waiting t fun _ w => match w with | .bar k _ => k == id | _ => false) true

/-- A change of a barrier record of a team that is there: the record is as changed, or its generation completes where that fills
it (R217). -/
theorem State.barMod_eq {s : State} {t id : Nat} {b : BarRec} (ht : t < s.teams.length) (hb : (s.team t).bars[id]? = some b)
    (f : BarRec → BarRec) :
    s.barMod t id f = if (f b).full then (s.setBar t id (f b).close).passBar t id else s.setBar t id (f b) := by
  obtain ⟨hlen, -⟩ := List.getElem?_eq_some_iff.mp hb
  have hmod (g : BarRec → BarRec) : (s.team t).bars.modify id g = (s.team t).bars.set id (g b) := by
    rw [List.modify_eq_set, hb]
    rfl
  have hone : s.modTeam t (fun m => { m with bars := m.bars.modify id f }) =
      s.modTeam t fun m => { m with bars := m.bars.set id (f b) } :=
    State.modTeam_congr (by simp only [hmod])
  have htwo : (s.modTeam t fun m => { m with bars := m.bars.modify id f }).modTeam t
      (fun m => { m with bars := m.bars.modify id BarRec.close }) =
      s.modTeam t fun m => { m with bars := m.bars.set id (f b).close } := by
    rw [State.modTeam_modTeam]
    refine State.modTeam_congr ?_
    simp only [List.modify_modify_eq, hmod (BarRec.close ∘ f), Function.comp_apply]
  have hrec : ((s.modTeam t fun m => { m with bars := m.bars.modify id f }).team t).bars.getD id default = f b := by
    rw [State.team_modTeam, if_pos ⟨rfl, ht⟩]
    dsimp only
    rw [getD_modify, if_pos ⟨rfl, hlen⟩, List.getD_eq_getElem?_getD, hb]
    rfl
  unfold State.barMod
  cases hfull : (f b).full
  · simp only [hrec, hfull, Bool.false_eq_true, if_false]
    rw [hone]
    rfl
  · simp only [hrec, hfull, htwo, if_true]
    rfl

/-- One more arrival fills a record where it reaches EXPECT (R217). -/
theorem BarRec.full_arrived {b : BarRec} (h : b.arrived.toNat + 1 < 2 ^ 32) :
    ({ b with arrived := b.arrived + 1 } : BarRec).full = decide (b.expect.toNat ≤ b.arrived.toNat + 1) := by
  have hnext : (b.arrived + 1).toNat = b.arrived.toNat + 1 := by
    rw [BitVec.toNat_add]
    exact Nat.mod_eq_of_lt h
  simp only [BarRec.full, hnext, Nat.succ_pos, decide_true, Bool.and_true]

/-- A thread's arrival at a team's record notes the generation in its mark (R211) and changes the record. -/
theorem State.arrive_team {s : State} {t id : Nat} {b : BarRec} (hb : (s.team t).bars[id]? = some b) (i : Nat) :
    s.arrive false t id i =
      (s.modThread t i fun x => { x with came := x.came.filter (fun e => e.1 != id) ++ [(id, b.gen)] }).barMod t id
        fun b => { b with arrived := b.arrived + 1 } := by
  have hgen : s.barGen false t id = b.gen := by
    simp only [State.barGen, Bool.false_eq_true, if_false, List.getD_eq_getElem?_getD, hb, Option.getD_some]
  simp only [State.arrive, hgen, Bool.false_eq_true, if_false]

/-- Settles O24: an arrival is a change of its record, which it fills or not. -/
theorem barrierGenerationCompletes : Obligations.BarrierGenerationCompletes := by
  unfold Obligations.BarrierGenerationCompletes
  intro s t id i b ht hb hlt q
  have hq : (q.team t).bars[id]? = some b := by rw [State.modThread_team_bars, hb]
  have hin : t < q.teams.length := (State.teams_length_modTeam ..).symm ▸ ht
  rw [State.arrive_team hb, State.barMod_eq hin hq, BarRec.full_arrived hlt]
  constructor
  · intro hbelow
    rw [if_neg (by simpa using hbelow)]
    rfl
  · intro hreached
    rw [if_pos (decide_eq_true hreached)]
    rfl

/-! ### Watches and sleeps (R220, R237 to R239) -/

/-- As `completesIf_of_body`, for a word that takes its effect wherever it stands. -/
theorem completes_of_body {i : Instr} {c : Common} {after : State → Iss → Res} {body : State → Iss → List Nat → Res}
    (he : ∀ s, exec i s = word i c after body s) (hb : isBrk i = false) {f : State → Iss → List Nat → State}
    (hbody : ∀ s k ex, body s k ex = .ok (f s k ex)) : Completes i c f := by
  intro s k h
  rw [he, word_stands h hb, hbody]

/-- What WATCH's probes of the sectors that its threads name leave and find. -/
def State.watchProbes (s : State) (w : FM) (t : Nat) (ex : List Nat) : State × List (Nat × Except Probe Loc) :=
  probeEach (fun (r : State) (i : Nat) => r.watchSector w t i) s ex
/-- The sectors that a home warp watches after a WATCH whose probes are done (R237). -/
def State.watchSet (s : State) (t : Nat) (ps : List (Nat × Except Probe Loc)) (h : Nat) : List Loc :=
  s.addWatches (s.warp t h).watches (((passed ps).filter fun e => (s.team t).warpOf e.1 == h).map Prod.snd)
/-- A home warp watches a list of sectors, which leave the L1 (R220, R237). -/
def State.armWatches (s : State) (core t h : Nat) (l : List Loc) : State :=
  l.foldl (fun (r : State) (a : Loc) => r.dropSector core (r.watched a))
    (s.modWarp t h fun x =>
      { x with watches := l, wake := false, unreg := x.unreg ++ l.filter fun a => !x.watches.contains a })

/-- WATCH, where no lane faults and none waits for another chip, arms the sectors of its threads, of which no home warp gets more
than four. -/
theorem watch_completes (w : FM) : CompletesIf (.watch w) w.c
    (fun s k ex => faultReps (s.watchProbes w k.team ex).2 = [] ∧
      (∀ e ∈ missingPages (s.watchProbes w k.team ex).2, e.far = false) ∧
      ∀ h ∈ (s.watchProbes w k.team ex).1.warpsOf k.team ex,
        ((s.watchProbes w k.team ex).1.watchSet k.team (s.watchProbes w k.team ex).2 h).length ≤ 4)
    fun s k ex => ((s.watchProbes w k.team ex).1.warpsOf k.team ex).foldl (fun (r : State) (h : Nat) =>
      r.armWatches k.core k.team h ((s.watchProbes w k.team ex).1.watchSet k.team (s.watchProbes w k.team ex).2 h))
      (s.watchProbes w k.team ex).1 := by
  refine completesIf_of_body (fun _ => rfl) rfl ?_
  rintro s k ex ⟨hfaults, hnear, hfour⟩
  have hover := List.filter_eq_nil_iff.mpr fun h hh => (decide_eq_true_iff.not.mpr (Nat.not_lt.mpr (hfour h hh)) :)
  unfold State.watchSet at hover
  unfold State.watchProbes at *
  dsimp only
  rw [hfaults]
  dsimp only
  rw [State.awaitFar_of_near hnear]
  rw [hover]
  rfl

/-- Settles O25: WATCH is `watch_completes`, and the other three take their effect wherever they stand. -/
theorem watchWaitAndSleep : Obligations.WatchWaitAndSleep := by
  unfold Obligations.WatchWaitAndSleep
  intro w v n
  refine ⟨?watch, ?clr, ?wait, ?sleep⟩
  case watch =>
    intro ps names set
    have hnames : names = State.watched := by
      funext r l
      cases l <;> rfl
    have hset (s : State) (k : Iss) (ex : List Nat) (h : Nat) : set s k ex h =
        (s.watchProbes w k.team ex).1.watchSet k.team (s.watchProbes w k.team ex).2 h := by
      simp only [set, hnames]
      rfl
    simp only [hset, hnames]
    exact watch_completes w
  case clr => exact fun s k h => simple_stands h rfl _
  case wait => exact completes_of_body (fun _ => rfl) rfl fun _ _ _ => rfl
  case sleep => exact completes_of_body (fun _ => rfl) rfl fun _ _ _ => rfl

/-! ### Records (R227, R241 to R243) -/

/-- RECA, where each thread's node and level pass, allocates a slot for each thread in turn, or the thread waits. -/
theorem reca_completes (w : FA) : CompletesIf (.reca w) w.c
    (fun s k ex => ∀ i ∈ ex, s.recaCheck k.team (s.opnd k.team i w.sa 1) (s.src k.team i w.sb w.sc 1) = none)
    fun s k ex => (ex.map fun i => (i, s.opnd k.team i w.sa 1, s.src k.team i w.sb w.sc 1)).foldl
      (fun (s : State) (a : Nat × Nat × Nat) => s.recAlloc w k.team a.1 a.2.1 a.2.2) s := by
  refine completesIf_of_body (fun _ => rfl) rfl fun s k ex hcheck => ?_
  have hbad : ((ex.map fun i => (i, s.opnd k.team i w.sa 1, s.src k.team i w.sb w.sc 1)).filterMap
      fun (a : Nat × Nat × Nat) => (s.recaCheck k.team a.2.1 a.2.2).map fun c => (a.1, ({ code := c } : Rep))) = [] := by
    refine List.filterMap_eq_nil_iff.mpr fun a ha => ?_
    obtain ⟨i, hi, rfl⟩ := List.mem_map.mp ha
    rw [hcheck i hi]
    rfl
  dsimp only
  rw [hbad]

/-- RECC, where each thread has an allocated record at its address, commits them in turn once the release is done. -/
theorem recc_completes (w : FA) (r : State) : CompletesIf (.recc w) w.c
    (fun s k ex => (∀ i ∈ ex, (s.recAt k.team i (s.opnd k.team i w.sa 2)).isSome = true) ∧ s.release k.team ex = some r)
    fun s k ex => (ex.map fun i => (i, s.recAt k.team i (s.opnd k.team i w.sa 2))).foldl
      (fun (s : State) (e : Nat × Option RecSlot) => match e.2 with
        | some x => s.recCommit k.team e.1 x
        | none => s) r := by
  refine completesIf_of_body (fun _ => rfl) rfl ?_
  rintro s k ex ⟨hrecs, hrel⟩
  have hbad : ((ex.map fun i => (i, s.recAt k.team i (s.opnd k.team i w.sa 2))).filter fun r => r.2.isNone) = [] := by
    refine List.filter_eq_nil_iff.mpr fun e he => ?_
    obtain ⟨i, hi, rfl⟩ := List.mem_map.mp he
    simp [Option.isSome_iff_ne_none.mp (hrecs i hi)]
  dsimp only
  rw [hbad]
  exact State.releasing_of_release hrel _

/-- Settles O28: RECA and RECC pass their checks, and RECF never waits. -/
theorem recordsAreAllocatedCommittedAndFreed : Obligations.RecordsAreAllocatedCommittedAndFreed := by
  unfold Obligations.RecordsAreAllocatedCommittedAndFreed
  intro w
  exact ⟨reca_completes w, recc_completes w, fun s k h => simple_stands h rfl _⟩

end Sys2Proof.Machine
end

section
/-! CLAIM, MCACK and HALT: how they complete, and which due node launch a die takes. -/

namespace Sys2Proof.Machine

open Sys2Proof

/-! ### SYS words (R317) -/

/-- Where the earlier results of its threads are written, a SYS word takes its effect in the state with these settled. -/
theorem sysWord_body {s : State} {k : Iss} {ex : List Nat} (h : ∀ j ∈ ex, ((s.settleAll k.team ex).thread k.team j).open_ = [])
    (go : Res) : (if ex.any fun j => !((s.settleAll k.team ex).thread k.team j).open_.isEmpty then .stall (s.settleAll k.team ex)
      else go) = go := by
  rw [if_neg]
  simpa using h

/-- A SYS word whose body takes its effect where it stands completes. -/
theorem sysCompletes_of_body {i : Instr} {w : FS} {body : State → Iss → List Nat → Res}
    (he : ∀ s, exec i s = sysWord i w body s) (hb : isBrk i = false) {ok : State → Iss → List Nat → Prop}
    {f : State → Iss → List Nat → State} (hbody : ∀ s k ex, ok s k ex → body s k ex = .ok (f s k ex)) :
    SysCompletes i w.c ok f := by
  refine completesIf_of_body he hb ?_
  rintro s k ex ⟨hopen, hok⟩
  exact (sysWord_body hopen _).trans (hbody _ _ _ hok)

/-! ### The due node launch of a die (R228, R324) -/

/-- Of a list's first launch and the one that is next of the rest, the next is one that is not shallower than either. -/
theorem nextDue_cons (a : Nat × Nat × List Nat) (l : List (Nat × Nat × List Nat)) :
    ∃ e, nextDue (a :: l) = some e ∧ (e = a ∨ nextDue l = some e) ∧ a.2.1 ≤ e.2.1 ∧
      ∀ f, nextDue l = some f → f.2.1 ≤ e.2.1 := by
  rw [nextDue]
  cases hl : nextDue l with
  | none => exact ⟨a, rfl, .inl rfl, le_rfl, fun f hf => nomatch hf⟩
  | some b =>
    dsimp only
    split
    · refine ⟨b, rfl, .inr rfl, by omega, ?_⟩
      rintro f ⟨⟩
      rfl
    · refine ⟨a, rfl, .inl rfl, le_rfl, ?_⟩
      rintro f ⟨⟩
      omega
/-- Where none is taken next, none is due. -/
theorem nextDue_eq_none {l : List (Nat × Nat × List Nat)} (h : nextDue l = none) : l = [] := by
  cases l with
  | nil => rfl
  | cons a l =>
    obtain ⟨b, hb, -⟩ := nextDue_cons a l
    cases hb.symm.trans h
/-- The launch that is taken next is a due one, and none is deeper. -/
theorem nextDue_eq_some {l : List (Nat × Nat × List Nat)} {e : Nat × Nat × List Nat} (h : nextDue l = some e) :
    e ∈ l ∧ ∀ f ∈ l, f.2.1 ≤ e.2.1 := by
  induction l generalizing e with
  | nil => cases h
  | cons a l ih =>
    obtain ⟨b, hb, hfrom, hfirst, hrest⟩ := nextDue_cons a l
    obtain rfl : b = e := Option.some.inj (hb.symm.trans h)
    refine ⟨List.mem_cons.mpr (hfrom.imp_right fun hl => (ih hl).1), List.forall_mem_cons.mpr ⟨hfirst, fun f hf => ?_⟩⟩
    cases hl : nextDue l with
    | none => rw [nextDue_eq_none hl] at hf; cases hf
    | some g => exact ((ih hl).2 f hf).trans (hrest g hl)

/-- What the search for a die's next due launch keeps of the one that it has found and another: the deeper, then the lower node. -/
def deeperDue (r : Option (Nat × Nat × Nat × List Nat)) (e : Nat × Nat × Nat × List Nat) :
    Option (Nat × Nat × Nat × List Nat) :=
  match r with
  | none => some e
  | some f => if f.2.2.1 < e.2.2.1 ∨ (f.2.2.1 = e.2.2.1 ∧ e.2.1 < f.2.1) then some e else some f
/-- It keeps one of the two, and one that is not shallower than either. -/
theorem deeperDue_eq (r : Option (Nat × Nat × Nat × List Nat)) (e : Nat × Nat × Nat × List Nat) :
    ∃ f, deeperDue r e = some f ∧ (f = e ∨ r = some f) ∧ e.2.2.1 ≤ f.2.2.1 ∧ ∀ g, r = some g → g.2.2.1 ≤ f.2.2.1 := by
  cases r with
  | none => exact ⟨e, rfl, .inl rfl, le_rfl, fun f hf => nomatch hf⟩
  | some b =>
    unfold deeperDue
    dsimp only
    split
    · refine ⟨e, rfl, .inl rfl, le_rfl, ?_⟩
      rintro g ⟨⟩
      omega
    · refine ⟨b, rfl, .inr rfl, by omega, ?_⟩
      rintro g ⟨⟩
      rfl
/-- Over a list, it keeps one of them, and none is deeper. -/
theorem foldl_deeperDue (l : List (Nat × Nat × Nat × List Nat)) (r : Option (Nat × Nat × Nat × List Nat)) :
    (l.foldl deeperDue r = none → r = none ∧ l = []) ∧
    ∀ e, l.foldl deeperDue r = some e →
      (r = some e ∨ e ∈ l) ∧ (∀ g, r = some g → g.2.2.1 ≤ e.2.2.1) ∧ ∀ f ∈ l, f.2.2.1 ≤ e.2.2.1 := by
  induction l generalizing r with
  | nil =>
    refine ⟨fun h => ⟨h, rfl⟩, fun e h => ⟨.inl h, fun g hg => ?_, fun f hf => nomatch hf⟩⟩
    obtain rfl : g = e := Option.some.inj (hg.symm.trans h)
    rfl
  | cons a l ih =>
    obtain ⟨f, hf, hfrom, hfirst, hold⟩ := deeperDue_eq r a
    obtain ⟨hnone, hsome⟩ := ih (deeperDue r a)
    rw [List.foldl_cons]
    refine ⟨fun h => ?_, fun e he => ?_⟩
    · cases (hnone h).1.symm.trans hf
    · obtain ⟨hmem, hkept, hrest⟩ := hsome e he
      have hfe := hkept f hf
      refine ⟨?_, fun g hg => (hold g hg).trans hfe, List.forall_mem_cons.mpr ⟨hfirst.trans hfe, hrest⟩⟩
      rcases hmem with hmem | hmem
      · obtain rfl : f = e := Option.some.inj (hf.symm.trans hmem)
        rcases hfrom with rfl | hr
        · exact .inr List.mem_cons_self
        · exact .inl hr
      · exact .inr (List.mem_cons_of_mem _ hmem)

/-- A graph whose node launches a die's doser gives out (R228). -/
def State.DosedAt (s : State) (die g : Nat) : Prop :=
  g < s.graphs.length ∧ Config.graphDie (s.graph g).qbase % 4 = die ∧ (s.graph g).done = false
/-- The next due launch of each graph of a die, with the graph. -/
def State.dueAt (s : State) (die : Nat) : List (Nat × Nat × Nat × List Nat) :=
  ((List.range s.graphs.length).filter fun g => Config.graphDie (s.graph g).qbase % 4 == die && !(s.graph g).done).filterMap
    fun g => (nextDue (s.graph g).due).map fun e => (g, e)
theorem State.mem_dueAt {s : State} {die g : Nat} {e : Nat × Nat × List Nat} :
    (g, e) ∈ s.dueAt die ↔ s.DosedAt die g ∧ nextDue (s.graph g).due = some e := by
  simp only [State.dueAt, State.DosedAt, List.mem_filterMap, List.mem_filter, List.mem_range, Bool.and_eq_true, beq_iff_eq,
    Bool.not_eq_true', Option.map_eq_some_iff, Prod.mk.injEq]
  constructor
  · rintro ⟨_, hg, _, he, rfl, rfl⟩
    exact ⟨hg, he⟩
  · rintro ⟨hg, he⟩
    exact ⟨g, hg, e, he, rfl, rfl⟩
theorem State.dieDue_eq (s : State) (die : Nat) : s.dieDue die = (s.dueAt die).foldl deeperDue none := rfl

/-- A die's next due launch is one of a graph that its doser gives out, and none of such a graph is deeper. -/
theorem State.dieDue_eq_some {s : State} {die g : Nat} {e : Nat × Nat × List Nat} (h : s.dieDue die = some (g, e)) :
    s.DosedAt die g ∧ e ∈ (s.graph g).due ∧ ∀ d, s.DosedAt die d → ∀ f ∈ (s.graph d).due, f.2.1 ≤ e.2.1 := by
  rw [State.dieDue_eq] at h
  obtain ⟨hmem, -, hdeep⟩ := (foldl_deeperDue _ _).2 _ h
  obtain ⟨hg, he⟩ := State.mem_dueAt.mp (hmem.resolve_left fun hc => nomatch hc)
  refine ⟨hg, (nextDue_eq_some he).1, fun d hd f hf => ?_⟩
  cases hnext : nextDue (s.graph d).due with
  | none => rw [nextDue_eq_none hnext] at hf; cases hf
  | some x => exact ((nextDue_eq_some hnext).2 f hf).trans (hdeep _ (State.mem_dueAt.mpr ⟨hd, hnext⟩))
/-- Where a die has no next due launch, no graph that its doser gives out has one. -/
theorem State.due_eq_nil_of_dieDue {s : State} {die d : Nat} (h : s.dieDue die = none) (hd : s.DosedAt die d) :
    (s.graph d).due = [] := by
  rw [State.dieDue_eq] at h
  cases hnext : nextDue (s.graph d).due with
  | none => exact nextDue_eq_none hnext
  | some x =>
    have hmem := State.mem_dueAt.mpr ⟨hd, hnext⟩
    rw [((foldl_deeperDue _ _).1 h).2] at hmem
    cases hmem

/-! ### CLAIM, MCACK and HALT (R224, R228, R313, R324, R327) -/

/-- CLAIM, where its first thread's ticket line may be written, is one claim of the line, whose answer every thread is given. -/
theorem claim_completes (w : FS) (q : State) (a : Access) : SysCompletes (.claim w) w.c
    (fun s k ex => ex ≠ [] ∧ s.access k.team (ex.headD 0) (s.opnd k.team (ex.headD 0) w.sa 2 : Int) 128 128 { write := true } =
      (q, .ok a))
    fun _ k ex => match q.lineOf a.loc with
      | none => q.putAll k.team w.dst 2 (ex.map fun i => (i, 2 ^ 64 - 1))
      | some l =>
        let c := q.claimAt l a.loc (q.opnd k.team (ex.headD 0) w.sb 1 % 4) (dieOf k.core)
        c.1.putAll k.team w.dst 2 (ex.map fun i => (i, c.2.getD (2 ^ 64 - 1))) := by
  have hexec (s : State) : exec (.claim w) s = execClaim w s := rfl
  refine sysCompletes_of_body hexec rfl ?_
  rintro s k ex ⟨hne, hacc⟩
  obtain ⟨i, is, rfl⟩ := List.exists_cons_of_ne_nil hne
  rw [List.headD_cons] at hacc
  have hprobe : probeEach (fun (s : State) (i : Nat) => s.access k.team i (s.opnd k.team i w.sa 2 : Int) 128 128
      { write := true }) s [i] = (q, [(i, .ok a)]) := by
    simp only [probeEach, hacc]
  have hpass : AllPass [(i, (.ok a : Except Probe Access))] := List.forall_mem_singleton.mpr ⟨a, rfl⟩
  dsimp only
  rw [hprobe]
  dsimp only
  rw [State.onProbes_of_allPass hpass]
  show (match q.lineOf a.loc with | none => _ | some l => _) = _
  cases q.lineOf a.loc <;> rfl

/-- CLAIM of a node launch takes the die's next due one, whose handle every thread is given. -/
theorem claimNode_completes (w : FS) : SysCompletes (.claimNode w) w.c (fun _ _ ex => ex ≠ []) fun s k ex =>
    match s.takeDue (dieOf k.core) with
    | (r, some (g, n, d, rs)) => r.putAll k.team w.dst 2 (ex.map fun i => (i, (Config.nodeHandle g n d (rs.headD 0)).toNat))
    | (r, none) => r.putAll k.team w.dst 2 (ex.map fun i => (i, 2 ^ 64 - 1)) := by
  have hexec (s : State) : exec (.claimNode w) s = execClaimNode w s := rfl
  refine sysCompletes_of_body hexec rfl fun s k ex hne => ?_
  obtain ⟨i, is, rfl⟩ := List.exists_cons_of_ne_nil hne
  dsimp only
  rcases s.takeDue (dieOf k.core) with ⟨r, _ | ⟨g, n, d, rs⟩⟩ <;> rfl

/-- A core whose bank is cleared goes on, rebuilt, where it was halted and no bank of it holds an error (R313, R327). -/
theorem State.mcClear_eq (s : State) (c b : Nat) : s.mcClear c b = s.modCore c fun x =>
    let mc := x.mc.set b [0, 0, 0, 0]
    if x.halted = true ∧ (∀ l ∈ mc, (l.getD 0 0).getLsbD 63 = false)
    then { x with mc, halted := false, l1 := [], owned := [], icache := [], tlb := [], issue := Core.reset.issue,
                  banks := Core.reset.banks, spins := Core.reset.spins }
    else { x with mc } := by
  simp only [State.mcClear, List.any_eq_true, not_exists, not_and, Bool.not_eq_true]
  rfl

/-- HALT where the earlier results of its threads are written: the context of a handler fails, or the agent slot's team stops. -/
theorem exec_halt {w : FS} {s : State} {k : Iss} {i : Nat} {r : List Nat} (h : Stands s k (.halt w) w.c)
    (hex : s.runs k w.c = i :: r) :
    let q := (s.settled k (.halt w) w.c).settleAll k.team (s.runs k w.c)
    (∀ j ∈ s.runs k w.c, (q.thread k.team j).open_ = []) →
    exec (.halt w) s = .next (if (q.team k.team).agent then
        ((q.modTeam k.team fun m => { m with threads := m.threads.map fun x => { x with wait := .exited } }).modCore k.core
          fun x => { x with agentUp := false }).leave k
      else q.failContext (q.team k.team).ctx cHalt
        { value := w.idx.toNat % 256, epc := k.pc, addr := 0, at_ := some (k.team, i) }) := by
  have hexec : exec (.halt w) s = execHalt w s := rfl
  rw [hexec, execHalt, sysWord, word_stands h rfl]
  dsimp only
  generalize s.runs k w.c = ex at hex ⊢
  subst hex
  intro hopen
  rw [sysWord_body hopen]
  dsimp only
  by_cases hagent : (((s.settled k (.halt w) w.c).settleAll k.team (i :: r)).team k.team).agent = true
  · simp only [if_pos hagent]
  · simp only [if_neg hagent]

/-- Settles O45: each word takes its effect once the earlier results are written, and of the due launches of a die's graphs the next
is the deepest. -/
theorem claimAcknowledgeAndHalt : Obligations.ClaimAcknowledgeAndHalt := by
  unfold Obligations.ClaimAcknowledgeAndHalt
  intro w gives
  refine ⟨claim_completes w, claimNode_completes w, ?due, ?mcack, ?halt⟩
  case due =>
    intro s die here
    constructor
    · intro r g e h
      rw [State.takeDue] at h
      split at h
      · cases h
      · next hdue =>
        cases h
        obtain ⟨hg, he, hdeep⟩ := State.dieDue_eq_some hdue
        exact ⟨hg, he, hdeep, rfl⟩
    · intro r h
      rw [State.takeDue] at h
      split at h
      · next hdue =>
        cases h
        exact ⟨rfl, fun d hd => State.due_eq_nil_of_dieDue hdue hd⟩
      · cases h
  case mcack =>
    have hexec (s : State) : exec (.mcack w) s = execMcack w s := rfl
    refine sysCompletes_of_body hexec rfl fun s k ex hne => ?_
    obtain ⟨i, is, rfl⟩ := List.exists_cons_of_ne_nil hne
    exact congrArg Res.ok (State.mcClear_eq s k.core _)
  case halt =>
    intro s k i r h q hex hopen
    have hhalt := exec_halt h hex hopen
    exact ⟨fun hagent => by rw [hhalt, hagent]; rfl, fun hagent => by rw [hhalt, hagent]; rfl⟩

end Sys2Proof.Machine
end

section
/-! Doorbells and packets: how a ring takes them, and what a packet does that its interface serves. -/

namespace Sys2Proof.Machine

open Sys2Proof

/-! ### The interface (R281 to R283, R289) -/

/-- A change of an interface is given by what it does to that interface as it is. -/
theorem State.modIface_congr {s : State} {q : Nat} {f g : Iface → Iface} (h : f (s.iface q) = g (s.iface q)) :
    s.modIface q f = s.modIface q g := by
  rw [State.modIface, State.modIface, modify_congr_of_getD h]

/-- A doorbell at a ring that is enabled and not halted sets TAIL, or halts the ring where that overflows it. -/
theorem State.doorbell_eq {s : State} {q : Nat} (hready : s.mgmt.ready = true) (hen : (s.iface q).en = true)
    (hhalt : (s.iface q).halt = false) (t : Word) :
    s.doorbell q t = if 2 ^ (s.iface q).szlog < (t.toNat + 2 ^ 32 - (s.iface q).head) % 2 ^ 32 then s.haltIface q 2
      else s.modIface q fun y => y.announce t.toNat s.clk := by
  simp only [State.doorbell, hready, hen, hhalt, Bool.false_eq_true, not_true_eq_false, or_self, if_false]

/-- A coalescing timer that has lapsed raises its vector's interrupt (R289). -/
theorem State.intTimer_of_lapsed {s : State} {q v t : Nat} (hstart : (s.iface q).starts.getD v none = some t)
    (hlapsed : t + 1000 * max 1 (s.iface q).timer ≤ s.clk) : s.intTimer q v = s.coalesceFire q v := by
  rw [State.intTimer, hstart]
  exact if_pos hlapsed

/-- A packet that has waited 100 µs since its doorbell ages (R282). -/
theorem State.age_of_old {s : State} {q n c : Nat} {older : List (Nat × Nat)} (hused : 0 < (s.iface q).used)
    (hsince : (s.iface q).since = (n, c) :: older) (hold : c + 100000 ≤ s.clk) :
    s.modIface q (fun x => if 0 < x.used ∧ x.old s.clk then { x with aged := true } else x) =
      s.modIface q fun x => { x with aged := true } := by
  have haged : (s.iface q).old s.clk = true := by
    rw [Iface.old, hsince]
    exact decide_eq_true hold
  exact State.modIface_congr (if_pos ⟨hused, haged⟩)

/-! ### Serving a packet (R277, R284, R286, R287) -/

/-- The state once the packet at HEAD is read: one that is read ahead is not read again (R225, R277). -/
def State.readHead (s : State) (q : Nat) : State :=
  if (s.iface q).ahead.any fun e => e.1 == (s.iface q).head then s else s.ringTouch q (s.iface q).head false

/-- The packet at HEAD, where its type is one of the event's, it may begin, its context is named and has not failed, its fields are
well formed, and no interface is served first, has its effect. -/
theorem State.onPacket_runs {s : State} {q c : Nat} {ws : List DWord} {types : Nat → Bool} (run : State → Packet → State)
    (hhead : s.head q = .packet ws) (htype : types (pType ws) = true) (hafter : pAfter ws = true → (s.iface q).begun = [])
    (hctx : (s.readHead q).packetCtx q ws = some c) (halive : ((s.readHead q).ctx c).failed = none)
    (hgood : packetBad ws = false) (hfirst : s.outranked q = false) :
    s.onPacket q types run =
      run (s.readHead q) { index := (s.iface q).head, words := ws, ctx := c, launch := none, status := none } := by
  have hbegin : ¬ (¬ types (pType ws) = true ∨ pAfter ws = true ∧ ¬ (s.iface q).begun.isEmpty = true) := by
    rintro (hno | ⟨ha, hb⟩)
    · exact hno htype
    · exact hb (by rw [hafter ha]; rfl)
  unfold State.readHead at *
  simp only [State.onPacket, hfirst, State.servePacket, hhead, hbegin, hctx, halive, hgood, Option.isSome_none,
    Bool.false_eq_true, if_false]

/-- The WAIT that holds a queue, where its word can be read, completes where the word satisfies it (R284). -/
theorem State.waitAgain_of_read {s r : State} {q : Nat} {p : Packet} {l : Loc} {e : Option Tlb}
    (hwait : ((s.iface q).begun.find? fun p => pType p.words == 3 && p.status.isNone) = some p)
    (hread : s.probeCtx p.ctx (dq p.words 2) 8 {} = (r, .ok l e)) :
    s.waitAgain q = if waitMet p.words (leValue (r.homeBytes l 8).2) then (r.homeBytes l 8).1.completeNow q p stDone
      else (r.homeBytes l 8).1 := by
  simp only [State.waitAgain, hwait, State.tryWait, hread]

/-! ### LAUNCH and GRAPH (R26, R27, R30, R215, R223, R226, R227) -/

/-- A LAUNCH whose descriptor and ticket line can be read and pass every check begins. -/
theorem State.launchPacket_begins {s r r1 r2 : State} {q : Nat} {p : Packet} {d line : List DWord} {ls : List Loc}
    (hdesc : s.readFor p.ctx (dq p.words 2) 128 16 = (r, .ok d)) (hgood : descBad d (dq p.words 3) = false)
    (hline : r.readFor p.ctx (dq p.words 6) 128 16 = (r1, .ok line))
    (hstore : r1.probeRange p.ctx (dq p.words 6) 8 true 16 = (r2, .ok ls)) (hzero : ∀ w ∈ line.drop 5, w = 0)
    (hfeat : (r2.featBad d || ((launchOf q p d).fuse && !r2.enabled 11)) = false)
    (hsize : r2.sized p.ctx ((launchOf q p d).spanTeams 0) (dArea d) (areaSize (dVisible d false)) (launchOf q p d).poolLen =
      true) :
    s.launchPacket q p = ({ r2 with launches := r2.launches ++ [launchOf q p d] } : State).begin_ q
      { p with launch := some r2.launches.length } := by
  have hany : ((line.drop 5).any fun w => w != 0) = false := List.any_eq_false.mpr fun w hw => by simp [hzero w hw]
  simp only [State.launchPacket, hdesc, hgood, hline, hstore, hany, hfeat, hsize, Bool.false_eq_true, not_true_eq_false, if_false]

/-- What a GRAPH packet records of its launch (R226). -/
def graphLaunch (q : Nat) (p : Packet) (g : Nat) : Launch :=
  { ctx := p.ctx, iface := q, index := p.index, graph := some g, desc := [], param := 0, nx := 0, ny := 0, nz := 0,
    size := 0, nspan := 0, ticket := 0, pool := dq p.words 7, poolLen := bits (dq p.words 5) 63 32 * 65536, fuse := false,
    claimed := [], retired := 0, done := false }
/-- A GRAPH whose object can be read begins with its records committed, and its doser runs (R227, R228). -/
def State.beginGraph (s : State) (q : Nat) (p : Packet) (h : List DWord) (ns : List NodeRec) : State :=
  let l := s.launches.length
  let g := s.graphs.length
  let built : State := { s with launches := s.launches ++ [graphLaunch q p g],
                                graphs := s.graphs ++ [graphOf l g (dq h 1) (dq h 3) s.clk ns] }
  ((built.begin_ q { p with launch := some l }).dose g).graphCheck g

/-- A graph object's header that is well formed: the number of its nodes, the alignment of its queues and its signal, and nothing
more (R226). -/
structure GraphHead (h : List DWord) : Prop where
  any     : 0 < dq h 0
  few     : dq h 0 ≤ 256
  queues  : dq h 1 % 64 = 0
  signal  : dq h 3 % 8 = 0
  nothing : ∀ w ∈ h.drop 4, w = 0

/-- A GRAPH whose object and descriptors can be read and pass every check begins. -/
theorem State.graphPacket_begins {s r r1 : State} {q : Nat} {p : Packet} {h : List DWord} {ns : List NodeRec}
    (hobj : s.readFor p.ctx (dq p.words 2) 64 8 = (r, .ok h)) (hhead : GraphHead h)
    (hnodes : r.readNodes p.ctx (dq p.words 2) (dq h 0) (dq h 0) = (r1, .ok ns)) (hgood : ∀ y ∈ ns, y.bad = false)
    (hacyclic : cyclic (ns.map NodeRec.node) = false) (hroom : ((ns.map NodeRec.node).map GNode.bytes).sum ≤ dq h 2)
    (hfeat : ∀ y ∈ ns.map NodeRec.node, r1.featBad y.desc = false)
    (hsize : r1.sized p.ctx 1 (((ns.map NodeRec.node).map fun y => dArea y.desc).foldl max 0)
      (areaSize (((ns.map NodeRec.node).map fun y => dVisible y.desc true).foldl max 0))
      (bits (dq p.words 5) 63 32 * 65536) = true) :
    s.graphPacket q p = r1.beginGraph q p h ns := by
  have hcount : bits (dq h 0) 8 0 = dq h 0 := by
    rw [bits, pow_zero, Nat.div_one]
    exact Nat.mod_eq_of_lt (Nat.lt_of_le_of_lt hhead.few (by decide))
  have hform : ¬ (dq h 0 / 512 ≠ 0 ∨ dq h 0 = 0 ∨ 256 < dq h 0 ∨ dq h 1 % 64 ≠ 0 ∨ dq h 3 % 8 ≠ 0 ∨
      ((h.drop 4).any fun w => w != 0) = true) := by
    have hrest : ((h.drop 4).any fun w => w != 0) = false :=
      List.any_eq_false.mpr fun w hw => by simp [hhead.nothing w hw]
    have hpos := hhead.any
    have hfew := hhead.few
    simp only [hrest, hhead.queues, hhead.signal, Bool.false_eq_true, ne_eq, not_true_eq_false, or_false]
    omega
  have hbad : ns.any NodeRec.bad = false := List.any_eq_false.mpr fun y hy => by simp [hgood y hy]
  have hfeats : ((ns.map NodeRec.node).any fun y => r1.featBad y.desc) = false :=
    List.any_eq_false.mpr fun y hy => by simp [hfeat y hy]
  simp only [State.graphPacket, hobj, hcount, hform, hnodes, hbad, hacyclic, Nat.not_lt.mpr hroom, hfeats, hsize, decide_false,
    Bool.or_self, Bool.false_eq_true, not_true_eq_false, if_false]
  rfl

/-- Settles O49: a packet whose type is the event's is served by `State.onPacket_runs`; LAUNCH and GRAPH begin where their checks
pass. -/
theorem packetsHaveTheirEffect : Obligations.PacketsHaveTheirEffect := by
  unfold Obligations.PacketsHaveTheirEffect
  intro s q x read runs
  have hruns {i : Instr} {ty : Nat} {types : Nat → Bool} (run : State → Packet → State)
      (he : exec i s = .next (s.onPacket q types run)) (hty : types ty = true) : runs i ty run := by
    intro ws c hhead htype hafter hctx halive hgood hfirst
    rw [he, State.onPacket_runs run hhead (htype.symm ▸ hty) hafter hctx halive hgood hfirst]
    rfl
  refine ⟨?doorbell, ?nop, ?launched, ?graphed, ?wait, ?again, ?signal, ?fence, ?launch, ?graph, ?enable, ?timer, ?aging⟩
  case nop => exact hruns (types := fun ty => ty == 0 || decide (5 < ty)) (fun s p => s.beginEnd q p stDone) rfl rfl
  case launched => exact hruns (types := (· == 1)) (fun s p => s.launchPacket q p) rfl rfl
  case graphed => exact hruns (types := (· == 2)) (fun s p => s.graphPacket q p) rfl rfl
  case wait =>
    exact hruns (types := (· == 3))
      (fun s p => ((s.begin_ q p).modIface q fun x => { x with blocked := true }).tryWait q p) rfl rfl
  case fence =>
    exact hruns (types := (· == 5)) (fun s p => (s.beginEnd q p stDone).modIface q fun x => { x with ahead := [] }) rfl rfl
  case doorbell =>
    intro t hready hen hhalt
    have hbell : exec (.doorbell q t) s = .next (s.doorbell q t) := rfl
    rw [hbell, State.doorbell_eq hready hen hhalt]
    exact ⟨fun hfits => by rw [if_neg (Nat.not_lt.mpr hfits)]; rfl, fun hover => by rw [if_pos hover]; rfl⟩
  case again =>
    intro p r l e hwait hread
    exact congrArg Host.Outcome.next (State.waitAgain_of_read hwait hread)
  case signal => exact hruns (types := (· == 4)) (fun s p => s.signalPacket q p) rfl rfl
  case launch =>
    intro p d line r r1 r2 ls k hdesc hgood hline hstore hzero hfeat hsize
    exact State.launchPacket_begins hdesc hgood hline hstore hzero hfeat hsize
  case graph =>
    intro p h r r1 ns k n nodes poolLen hobj hany hfew hqueues hsignal hnothing hnodes hgood hacyclic hroom hfeat hsize
    have hhead : GraphHead h := ⟨hany, hfew, hqueues, hsignal, hnothing⟩
    exact State.graphPacket_begins hobj hhead hnodes hgood hacyclic hroom hfeat hsize
  case enable =>
    intro hready
    exact ⟨congrArg Host.Outcome.next (if_pos hready), congrArg Host.Outcome.next (if_pos hready),
      congrArg Host.Outcome.next (if_pos hready)⟩
  case timer =>
    intro v t hstart hlapsed
    exact congrArg Host.Outcome.next (State.intTimer_of_lapsed hstart hlapsed)
  case aging =>
    intro n c older hused hsince hold
    exact congrArg Host.Outcome.next (State.age_of_old hused hsince hold)

end Sys2Proof.Machine
end

section
/-! Transfers, meetings, the collective branch, guards, LAUNCH, SIGNAL, TRAP and BRK: how the words complete, and what the two that
trap report. -/

namespace Sys2Proof.Machine

open Sys2Proof

/-! ### Transfers and meetings (R208 to R210, R232, R233) -/

/-- Settles O22: JMPI and CALLI end with the targets that their threads' pairs hold, and the MEETSET forms set MEET and MTAG of each
executing thread; none of the five waits. -/
theorem transfersAndMeetings : Obligations.TransfersAndMeetings := by
  unfold Obligations.TransfersAndMeetings
  intro w dest meet off
  refine ⟨?jmpi, ?calli, ?meetset, ?meetsetR, ?meetsetClr⟩
  case jmpi =>
    intro s k h
    have hexec : exec (.jmpi w) s = execJmpi w s := rfl
    rw [hexec, execJmpi, word_stands h rfl]
    rfl
  case calli =>
    intro s k h
    have hexec : exec (.calli w) s = execCalli w s := rfl
    rw [hexec, execCalli, word_stands h rfl]
    rfl
  case meetset => exact fun s k h => simple_stands h rfl _
  case meetsetR => exact fun s k h => simple_stands h rfl _
  case meetsetClr => exact fun s k h => simple_stands h rfl _

/-! ### The collective branch (R247 to R250) -/

/-- Settles O26: no home warp fails the checks that the three words share, and the release that CBR makes first is done. -/
theorem agreementWordsContribute : Obligations.AgreementWordsContribute := by
  unfold Obligations.AgreementWordsContribute
  intro w
  refine ⟨?cbr, ?cbsync, ?abort⟩
  case cbr =>
    intro r
    refine completesIf_of_body (fun _ => rfl) rfl ?_
    rintro s k ex ⟨hchecks, hrel⟩
    rw [hchecks]
    exact State.releasing_of_release hrel _
  case cbsync =>
    refine completesIf_of_body (fun _ => rfl) rfl fun s k ex hchecks => ?_
    rw [hchecks]
  case abort =>
    refine completesIf_of_body (fun _ => rfl) rfl fun s k ex hchecks => ?_
    rw [hchecks]

/-! ### GRES, LAUNCH and SIGNAL (R240, R244, R245) -/

/-- Settles O27: GRES never waits; where LAUNCH's and SIGNAL's lanes pass their probes, the release is done and no packet's place is
poisoned, the packets are appended and the words written. -/
theorem guardLaunchAndSignal : Obligations.GuardLaunchAndSignal := by
  unfold Obligations.GuardLaunchAndSignal
  intro w
  refine ⟨?gres, ?launch, ?signal⟩
  case gres => exact fun s k h => simple_stands h rfl _
  case launch =>
    intro q ps filled r
    refine completesIf_of_body (fun _ => rfl) rfl ?_
    rintro s k ex ⟨hpass, hrel, hclean⟩
    refine (State.onProbes_of_allPass hpass ..).trans ?_
    refine (State.releasing_of_release hrel _).trans ?_
    exact State.onPoison_of_clean hclean _
  case signal =>
    intro ps r
    refine completesIf_of_body (fun _ => rfl) rfl ?_
    rintro s k ex ⟨hpass, hrel⟩
    refine (State.onProbes_of_allPass hpass ..).trans ?_
    exact State.releasing_of_release hrel _

/-! ### Software traps and breakpoints (R54, R246, R312) -/

/-- A report whose records give each of some threads its own is raised for those threads. -/
theorem Iss.report_map (k : Iss) (ex is : List Nat) (rep : Nat → Rep) :
    k.report ex (is.map fun j => (j, rep j)) =
      { threads := k.threads, raised := is, epc := k.pc, pos := k.pos, exec := ex, reps := is.map fun j => (j, rep j) } := by
  have hraised : (is.map fun j => (j, rep j)).map Prod.fst = is := by
    rw [List.map_map]
    exact List.map_id is
  rw [Iss.report, hraised]

/-- TRAP, where a thread executes it, traps for its executing threads with its SC in their records. -/
theorem exec_trap {w : FA} {s : State} {k : Iss} (h : Stands s k (.trap w) w.c) (hex : s.runs k w.c ≠ []) :
    exec (.trap w) s = .next ((s.settled k (.trap w) w.c).raiseAt k
      (k.report (s.runs k w.c) ((s.runs k w.c).map fun j => (j, { code := fSoft, value := w.sc.toNat })))) := by
  have hexec : exec (.trap w) s = execTrap w s := rfl
  rw [hexec, execTrap, word_stands h rfl]
  obtain ⟨i, is, hrun⟩ := List.exists_cons_of_ne_nil hex
  rw [hrun]
  rfl

/-- BRK stops before its guard and its own tests, for every active thread. -/
theorem before_brk {s : State} {k : Iss} {cls : BitVec 2} {rest : BitVec 56} (ht : k.threads ≠ []) (c : Common) :
    s.before k (.brk cls rest) c = .out (s.raiseAt k
      (k.report (s.exec1 k c) (k.threads.map fun j => (j, { code := fBreak, addr := k.pc.toNat })))) := by
  obtain ⟨i, is, hthreads⟩ := List.exists_cons_of_ne_nil ht
  unfold State.before
  simp only [isBrk, if_true, hthreads]

/-- Settles O30: TRAP's own trap, and BRK's stop among the tests before a word. -/
theorem trapAndBreakRaise : Obligations.TrapAndBreakRaise := by
  unfold Obligations.TrapAndBreakRaise
  constructor
  · intro w s k h hex
    rw [exec_trap h hex, Iss.report_map]
  · intro cls rest s k hi ht hr
    have hexec : exec (.brk cls rest) s = execBrk cls rest s := rfl
    rw [hexec, execBrk, simple, word, hi]
    simp only [State.over_, hr, Bool.false_eq_true, if_false, before_brk ht, Iss.report_map]

end Sys2Proof.Machine
end

section
/-! Threads that wake and meet: what each keeps. TLBINV: how it completes, and what it drops. -/

namespace Sys2Proof.Machine

open Sys2Proof

/-! ### What a thread keeps where meetings end (R209, R210) -/

/-- A thread's refused pages and its TLBINV stay, and it waits as before, but that a held one may be ready. -/
def Thread.MeetsOn (x y : Thread) : Prop :=
  y.flush = x.flush ∧ y.deny = x.deny ∧ (y.wait = x.wait ∨ (x.wait = .meet ∧ y.wait = .ready))
/-- Every thread is the same but for the ends of meetings. -/
def State.MeetsOn (s r : State) : Prop := ∀ u j, (s.thread u j).MeetsOn (r.thread u j)

theorem Thread.MeetsOn.refl (x : Thread) : x.MeetsOn x := ⟨rfl, rfl, .inl rfl⟩
theorem Thread.MeetsOn.trans {x y z : Thread} (h : x.MeetsOn y) (g : y.MeetsOn z) : x.MeetsOn z := by
  obtain ⟨hflush, hdeny, hwait⟩ := h
  obtain ⟨gflush, gdeny, gwait⟩ := g
  refine ⟨gflush.trans hflush, gdeny.trans hdeny, ?_⟩
  rcases gwait with gwait | ⟨gmeet, gready⟩
  · rwa [gwait]
  · rcases hwait with hwait | ⟨-, hready⟩
    · exact .inr ⟨hwait.symm.trans gmeet, gready⟩
    · rw [hready] at gmeet
      cases gmeet
theorem State.MeetsOn.refl (s : State) : s.MeetsOn s := fun _ _ => .refl _
theorem State.MeetsOn.trans {s r q : State} (h : s.MeetsOn r) (g : r.MeetsOn q) : s.MeetsOn q :=
  fun u j => (h u j).trans (g u j)
theorem State.MeetsOn.foldl {α : Type} (l : List α) (f : State → α → State) (hf : ∀ (s : State) (a : α), s.MeetsOn (f s a))
    (s : State) : s.MeetsOn (l.foldl f s) :=
  List.foldlRecOn (motive := s.MeetsOn) l f (.refl s) fun r hr a _ => hr.trans (hf r a)
theorem State.MeetsOn.of_thread {s r : State} (h : ∀ u j, r.thread u j = s.thread u j) : s.MeetsOn r :=
  fun u j => h u j ▸ .refl _
theorem State.MeetsOn.modThread (s : State) (t i : Nat) {f : Thread → Thread} (hf : ∀ x : Thread, x.MeetsOn (f x)) :
    s.MeetsOn (s.modThread t i f) := by
  intro u j
  rw [State.thread_modThread]
  split
  · exact hf _
  · exact .refl _
theorem State.MeetsOn.modWarp (s : State) (t w : Nat) (f : Warp → Warp) : s.MeetsOn (s.modWarp t w f) :=
  .of_thread fun u j => State.thread_modWarp s t w u j f
/-- A thread that was held at the start may be made ready. -/
theorem State.MeetsOn.ready {s r : State} (h : s.MeetsOn r) {t i : Nat} (hi : (s.thread t i).wait = .meet)
    {f : Thread → Thread} (hf : ∀ x, (f x).flush = x.flush ∧ (f x).deny = x.deny ∧ (f x).wait = .ready) :
    s.MeetsOn (r.modThread t i f) := by
  intro u j
  rw [State.thread_modThread]
  split
  next hc =>
    obtain ⟨rfl, -, rfl, -⟩ := hc
    obtain ⟨hflush, hdeny, -⟩ := h t i
    obtain ⟨fflush, fdeny, fwait⟩ := hf (r.thread t i)
    exact ⟨fflush.trans hflush, fdeny.trans hdeny, .inr ⟨hi, fwait⟩⟩
  next => exact h u j
theorem Thread.MeetsOn.leftBehind (x : Thread) (level : Nat) : x.MeetsOn (x.leftBehind level) := by
  unfold Thread.leftBehind
  split <;> exact ⟨rfl, rfl, .inl rfl⟩

/-- A wake of threads that were held at the start. -/
theorem State.MeetsOn.wake {s r : State} (h : s.MeetsOn r) {t : Nat} {is : List Nat}
    (his : ∀ i ∈ is, (s.thread t i).wait = .meet) {f : Thread → Thread}
    (hf : ∀ x, (f x).flush = x.flush ∧ (f x).deny = x.deny) : s.MeetsOn (r.wake t is f) := by
  unfold State.wake
  refine State.MeetsOn.trans ?_ (.foldl _ _ (fun q w => .modWarp q t w _) _)
  refine List.foldlRecOn (motive := s.MeetsOn) is _ h fun q hq i hi => ?_
  exact hq.ready (his i hi) fun x => ⟨(hf x).1, (hf x).2, rfl⟩
theorem State.MeetsOn.meetRelease (s : State) (t i : Nat) : s.MeetsOn (s.meetRelease t i) := by
  unfold State.meetRelease
  simp only [List.partition_eq_filter_filter]
  refine State.MeetsOn.trans ?_ (.foldl _ _ (fun q w => .modWarp q t w _) _)
  refine List.foldlRecOn (motive := s.MeetsOn) _ _ ?_ fun q hq w _ => hq.wake ?_ fun _ => ⟨rfl, rfl⟩
  · exact .foldl _ _ (fun q j => .modThread q t j fun x => .leftBehind x _) s
  · intro j hj
    have hheld := (List.mem_filter.mp (List.mem_filter.mp hj).1).2
    simp only [Bool.and_eq_true, beq_iff_eq] at hheld
    exact hheld.1
theorem State.MeetsOn.regroup (s : State) (t : Nat) : s.MeetsOn (s.regroup t) := by
  refine State.MeetsOn.trans (.foldl _ _ (fun q j => .modThread q t j fun x => ?_) s)
    (.foldl _ _ (fun q is => .of_thread fun u j => ?_) _)
  · exact ⟨rfl, rfl, .inl rfl⟩
  · exact State.thread_modTeam_same q t u j fun _ => rfl
/-- The end of a team's meetings, and its ready threads' groups. -/
theorem State.MeetsOn.tidy (s : State) (t : Nat) : s.MeetsOn (s.tidy t) := by
  refine State.MeetsOn.trans (.foldl _ _ (fun q i => ?_) s) (.regroup _ t)
  split
  · exact .meetRelease q t i
  · exact .refl q

/-! ### What a TLBINV waits for stays where stores land (R167, R270) -/

/-- Every thread keeps what its TLBINV waits for. -/
def State.KeepsFlush (s r : State) : Prop := ∀ u j, (r.thread u j).flush = (s.thread u j).flush

theorem State.KeepsFlush.refl (s : State) : s.KeepsFlush s := fun _ _ => rfl
theorem State.KeepsFlush.trans {s r q : State} (h : s.KeepsFlush r) (g : r.KeepsFlush q) : s.KeepsFlush q :=
  fun u j => (g u j).trans (h u j)
theorem State.KeepsFlush.foldl {α : Type} (l : List α) (f : State → α → State)
    (hf : ∀ (s : State) (a : α), s.KeepsFlush (f s a)) (s : State) : s.KeepsFlush (l.foldl f s) :=
  List.foldlRecOn (motive := s.KeepsFlush) l f (.refl s) fun r hr a _ => hr.trans (hf r a)
theorem State.KeepsFlush.of_teams {s r : State} (h : r.teams = s.teams) : s.KeepsFlush r := fun u j => by
  simp only [State.thread, State.team, h]
theorem State.MeetsOn.keepsFlush {s r : State} (h : s.MeetsOn r) : s.KeepsFlush r := fun u j => (h u j).1
theorem State.KeepsFlush.modThread (s : State) (t i : Nat) {f : Thread → Thread} (hf : ∀ x, (f x).flush = x.flush) :
    s.KeepsFlush (s.modThread t i f) := by
  intro u j
  rw [State.thread_modThread]
  split
  · exact hf _
  · rfl
theorem State.KeepsFlush.modWarp (s : State) (t w : Nat) (f : Warp → Warp) : s.KeepsFlush (s.modWarp t w f) :=
  (State.MeetsOn.modWarp s t w f).keepsFlush
theorem State.KeepsFlush.unblock (s : State) (t : Nat) (is : List Nat) (b : Bool) : s.KeepsFlush (s.unblock t is b) := by
  refine State.KeepsFlush.trans ?_ (State.MeetsOn.tidy _ t).keepsFlush
  refine State.KeepsFlush.trans (.foldl _ _ (fun q i => .modThread q t i fun _ => ?_) s)
    (.foldl _ _ (fun q w => .modWarp q t w _) _)
  rfl
theorem State.KeepsFlush.wakeSector (s : State) (l : Loc) : s.KeepsFlush (s.wakeSector l) := by
  unfold State.wakeSector
  refine State.KeepsFlush.trans (?_ : s.KeepsFlush (if _ then _ else s)) (.foldl _ _ (fun q t => ?_) _)
  · split
    · exact .of_teams rfl
    · exact .refl s
  · have hspins (r : State) (is : List Nat) : r.KeepsFlush (if is.isEmpty then r else r.unblock t is false) := by
      split
      · exact .refl r
      · exact .unblock r t is false
    refine State.KeepsFlush.trans (State.KeepsFlush.foldl (List.range (q.team t).nWarps) _ (fun q w => ?_) q) (hspins _ _)
    dsimp only
    split
    · split
      · exact .modWarp q t w _
      · exact (State.KeepsFlush.modWarp q t w _).trans (.unblock _ t _ true)
    · exact .refl q
theorem State.KeepsFlush.homePut (s : State) (pa : Nat) (bytes : List Byte) : s.KeepsFlush (s.homePut pa bytes) := by
  refine State.KeepsFlush.trans (.of_teams ?_) (.foldl _ _ (fun q l => .wakeSector q l) _)
  unfold State.unpoison
  split <;> rfl
theorem State.KeepsFlush.land (s : State) (st : Store) : s.KeepsFlush (s.land st) := by
  unfold State.land
  dsimp only
  split
  · exact State.KeepsFlush.trans (.of_teams rfl) (.homePut _ _ _)
  · exact State.KeepsFlush.trans (.of_teams rfl) (.homePut _ _ _)
theorem State.KeepsFlush.ackAll (s : State) (l : List Store) : s.KeepsFlush (s.ackAll l) :=
  .foldl _ _ (fun q _ => .foldl _ _ (fun q st => .land q st) q) s
@[simp] theorem State.teams_tlbDrop (s : State) (p : Tlb → Bool) : (s.tlbDrop p).teams = s.teams := rfl
theorem State.KeepsFlush.invalidate (s : State) (p : Tlb → Bool) : s.KeepsFlush (s.invalidate p) :=
  (State.KeepsFlush.ackAll s s.stores).trans (.of_teams (State.teams_tlbDrop _ p))

/-! ### TLBINV (R270, R322) -/

/-- No cached translation that the test names is left. -/
theorem State.tlb_tlbDrop {s : State} {p : Tlb → Bool} {c : Core} (hc : c ∈ (s.tlbDrop p).cores) {e : Tlb} (he : e ∈ c.tlb) :
    p e = false := by
  obtain ⟨x, -, rfl⟩ := List.mem_map.mp hc
  simpa using (List.mem_filter.mp he).2
theorem State.l2tlb_tlbDrop {s : State} {p : Tlb → Bool} {l : List Tlb} (hl : l ∈ (s.tlbDrop p).l2tlb) {e : Tlb} (he : e ∈ l) :
    p e = false := by
  obtain ⟨x, -, rfl⟩ := List.mem_map.mp hl
  simpa using (List.mem_filter.mp he).2

/-- What an invalidation waits for is over where no access of those is at a peer, and no branch of those is still open. -/
theorem State.outlived_iff (s : State) (tags : List Nat) (held : List (Nat × Nat × Nat)) : s.outlived tags held = true ↔
    (∀ n ∈ tags, ∀ x ∈ s.peers, x.tag ≠ n) ∧ ∀ b ∈ held, ∀ sp, (s.warp b.1 b.2.1).spec = some sp → sp.seq ≠ b.2.2 := by
  rw [State.outlived, Bool.and_eq_true, List.all_eq_true, List.all_eq_true]
  refine and_congr (by simp) (forall₂_congr fun b _ => ?_)
  cases (s.warp b.1 b.2.1).spec <;> simp

/-- Threads are marked with what their TLBINV waits for, or with none. -/
def State.markFlush (s : State) (t : Nat) (f : Option (List Nat × List (Nat × Nat × Nat))) (is : List Nat) : State :=
  is.foldl (fun (s : State) (i : Nat) => s.modThread t i fun x => { x with flush := f }) s
@[simp] theorem State.outlived_modThread (s : State) (t i : Nat) (f : Thread → Thread) (tags : List Nat)
    (held : List (Nat × Nat × Nat)) : (s.modThread t i f).outlived tags held = s.outlived tags held := by
  simp only [State.outlived, State.modThread_peers, State.warp_modThread]
@[simp] theorem State.outlived_markFlush (s : State) (t : Nat) (f : Option (List Nat × List (Nat × Nat × Nat))) (is : List Nat)
    (tags : List Nat) (held : List (Nat × Nat × Nat)) : (s.markFlush t f is).outlived tags held = s.outlived tags held :=
  List.foldlRecOn (motive := fun q : State => q.outlived tags held = s.outlived tags held) is _ rfl
    fun q hq i _ => (q.outlived_modThread t i _ tags held).trans hq
/-- A thread outside the list keeps its mark. -/
theorem State.flush_markFlush_other (s : State) {t i : Nat} (f : Option (List Nat × List (Nat × Nat × Nat))) {is : List Nat}
    (hi : i ∉ is) : ((s.markFlush t f is).thread t i).flush = (s.thread t i).flush := by
  refine List.foldlRecOn (motive := fun q : State => (q.thread t i).flush = (s.thread t i).flush) is _ rfl fun q hq j hj => ?_
  rw [State.thread_modThread, if_neg]
  · exact hq
  · rintro ⟨-, -, rfl, -⟩
    exact hi hj
/-- A thread has the mark afterwards or keeps its own. -/
theorem State.flush_markFlush (s : State) (t i : Nat) (f : Option (List Nat × List (Nat × Nat × Nat))) (is : List Nat) :
    ((s.markFlush t f is).thread t i).flush = (s.thread t i).flush ∨ ((s.markFlush t f is).thread t i).flush = f := by
  refine List.foldlRecOn (motive := fun q : State => (q.thread t i).flush = (s.thread t i).flush ∨ (q.thread t i).flush = f)
    is _ (.inl rfl) fun q hq j _ => ?_
  rw [State.thread_modThread]
  split
  · exact .inr rfl
  · exact hq

/-- The threads of a TLBINV for which it begins: those of which none waits already. -/
def State.begun (r : State) (k : Iss) (ex : List Nat) : List Nat := ex.filter fun i => (r.thread k.team i).flush.isNone
/-- The state in which it has begun: for each home warp, the stores on their way have landed and the translations that its test names
are dropped. -/
def State.invalidated (r : State) (k : Iss) (w : FS) (p : State → Nat → Nat → Tlb → Bool) (ex : List Nat) : State :=
  (r.warpsOf k.team (r.begun k ex)).foldl (fun (s : State) (v : Nat) =>
    s.invalidate (p s k.team (s.opnd k.team ((s.ofWarp k.team v (r.begun k ex)).headD 0) w.sa 2))) r
/-- What it waits for: the accesses and held stores of the partition that are open then. -/
def State.openWork (s : State) (t : Nat) : List Nat × List (Nat × Nat × Nat) :=
  (s.openTags (s.ctxOf t).part, s.heldStores (s.ctxOf t).part)

theorem State.KeepsFlush.invalidated (r : State) (k : Iss) (w : FS) (p : State → Nat → Nat → Tlb → Bool) (ex : List Nat) :
    r.KeepsFlush (r.invalidated k w p ex) := by
  unfold State.invalidated
  exact .foldl _ _ (fun q _ => .invalidate q _) r

/-- The test on which a TLBINV goes on holds where what each thread waits for is over: what it had been marked with, or what is open
where the TLBINV begins for it. -/
theorem State.flushed_of_outlived {r : State} {k : Iss} {w : FS} {p : State → Nat → Nat → Tlb → Bool} {ex : List Nat}
    {o : List Nat × List (Nat × Nat × Nat)} {i : Nat}
    (h : (r.invalidated k w p ex).outlived ((r.thread k.team i).flush.getD o).1 ((r.thread k.team i).flush.getD o).2 = true) :
    let s := (r.invalidated k w p ex).markFlush k.team (some o) (r.begun k ex)
    (match (s.thread k.team i).flush with | some f => s.outlived f.1 f.2 | none => true) = true := by
  have hkept := State.KeepsFlush.invalidated r k w p ex k.team i
  dsimp only
  simp only [State.outlived_markFlush]
  cases hflush : (r.thread k.team i).flush with
  | some f =>
    have hout : i ∉ r.begun k ex := fun hc => by simpa [hflush] using (List.mem_filter.mp hc).2
    rw [State.flush_markFlush_other _ _ hout, hkept, hflush]
    rwa [hflush] at h
  | none =>
    rw [hflush] at h
    rcases (r.invalidated k w p ex).flush_markFlush k.team i (some o) (r.begun k ex) with hmark | hmark
    · rw [hmark, hkept, hflush]
    · rw [hmark]
      exact h

/-- A TLBINV whose release is done completes where, for each thread, what it waits for is over. -/
theorem tlbinv_completes {i : Instr} {w : FS} {p : State → Nat → Nat → Tlb → Bool} (he : ∀ s, exec i s = tlbinv i w p s)
    (hb : isBrk i = false) (r : State) : SysCompletes i w.c
      (fun s k ex => ex ≠ [] ∧ s.release k.team ex = some r ∧ ∀ j ∈ ex,
        let q := r.invalidated k w p ex
        let f := (r.thread k.team j).flush.getD (q.openWork k.team)
        (∀ n ∈ f.1, ∀ x ∈ q.peers, x.tag ≠ n) ∧ ∀ b ∈ f.2, ∀ sp, (q.warp b.1 b.2.1).spec = some sp → sp.seq ≠ b.2.2)
      fun _ k ex => let q := r.invalidated k w p ex
        (q.markFlush k.team (some (q.openWork k.team)) (r.begun k ex)).markFlush k.team none ex := by
  refine sysCompletes_of_body he hb ?_
  rintro s k ex ⟨hne, hrel, hover⟩
  obtain ⟨j, js, rfl⟩ := List.exists_cons_of_ne_nil hne
  dsimp only
  rw [State.releasing_of_release hrel]
  refine if_pos (List.all_eq_true.mpr fun i hi => ?_)
  exact State.flushed_of_outlived ((State.outlived_iff _ _ _).mpr (hover i hi))

/-- Settles O43: the five forms are one word with five tests, and a translation that a test names is in no TLB afterwards. -/
theorem tlbinvDropsTranslations : Obligations.TlbinvDropsTranslations := by
  unfold Obligations.TlbinvDropsTranslations
  intro w
  refine ⟨?page, ?pasid, ?gpage, ?ipa, ?all, ?dropped⟩
  case page =>
    exact tlbinv_completes (i := .tlbinvPage w) (p := fun s t a e =>
      (s.partPasid t e).1 && (s.partPasid t e).2 && !e.glob && e.s1Holds a) (fun _ => rfl) rfl
  case pasid =>
    exact tlbinv_completes (i := .tlbinvPasid w) (p := fun s t _ e =>
      (s.partPasid t e).1 && (s.partPasid t e).2 && !e.glob) (fun _ => rfl) rfl
  case gpage =>
    exact tlbinv_completes (i := .tlbinvGpage w) (p := fun s t a e => (s.partPasid t e).1 && e.s1Holds a) (fun _ => rfl) rfl
  case ipa =>
    exact tlbinv_completes (i := .tlbinvIpa w) (p := fun s t a e => (s.partPasid t e).1 && e.s2Holds a) (fun _ => rfl) rfl
  case all => exact tlbinv_completes (i := .tlbinvAll w) (p := fun s t _ e => (s.partPasid t e).1) (fun _ => rfl) rfl
  case dropped => exact fun s p => ⟨fun c hc e he => State.tlb_tlbDrop hc he, fun l hl e he => State.l2tlb_tlbDrop hl he⟩

end Sys2Proof.Machine
end

section
/-! Context commands, invalidations, page replies, the pool and migration: what each leaves. -/

namespace Sys2Proof.Machine

open Sys2Proof

/-! ### Context commands (R261, R262, R271) -/

/-- After READY a context command runs where none is under way. -/
theorem State.cmdFree_of_idle {s : State} {c : Nat} (hready : s.mgmt.ready = true) (hc : c < s.ctxs.length)
    (hbusy : s.mgmt.ctxBusy = false) (op : Nat) : s.cmdFree op c = true := by
  simp [State.cmdFree, hready, hc, hbusy]
/-- The record that a context command reads. -/
def State.ctxRecord (s : State) (c : Nat) : List DWord := s.recordAt (s.mgmt.ctxtab + 128 * c) 16

/-- CREATE gives 2 where another valid context has the record's PASID. -/
theorem State.ctxCreate_of_taken {s : State} {c : Nat} (hfree : s.cmdFree 1 c = true)
    (htaken : ∃ k, k < s.ctxs.length ∧ k ≠ c ∧ (s.ctx k).valid = true ∧ (s.ctx k).pasid = bits (dq (s.ctxRecord c) 0) 51 32) :
    s.ctxCreate c = s.cmdEnd c 2 := by
  obtain ⟨k, hk, hkc, hvalid, hpasid⟩ := htaken
  rw [State.ctxCreate, if_neg (not_not_intro hfree)]
  refine if_pos (List.any_eq_true.mpr ⟨k, List.mem_range.mpr hk, ?_⟩)
  rw [bne_iff_ne.mpr hkc, hvalid]
  exact beq_iff_eq.mpr hpasid
/-- Where none has, a good record makes the context. -/
theorem State.ctxCreate_of_good {s : State} {c : Nat} (hfree : s.cmdFree 1 c = true)
    (hnone : ∀ k, k < s.ctxs.length → k ≠ c → (s.ctx k).valid = true → (s.ctx k).pasid ≠ bits (dq (s.ctxRecord c) 0) 51 32)
    (hgood : ctxRecBad (s.ctxRecord c) = false) (hpart : s.hasCluster (bits (dq (s.ctxRecord c) 0) 10 8) = true) :
    let x := s.ctxRecord c
    let part := bits (dq x 0) 10 8
    let pasid := bits (dq x 0) 51 32
    let r := s.ipaTouch part c (dq x 6) false
    s.ctxCreate c = (r.modCtx c fun _ =>
      { Ctx.reset with valid := true, pasid, part, s1root := dq x 1, scb := dq x 2, savebase := dq x 3, savesize := dq x 4,
                       wtbase := dq x 5, wwt := dq x 6, spwbase := dq x 7,
                       windows := r.readWindows part pasid (dq x 6) }).cmdEnd c 0 := by
  have hfresh : ¬ ((List.range s.ctxs.length).any fun k =>
      k != c && (s.ctx k).valid && (s.ctx k).pasid == bits (dq (s.ctxRecord c) 0) 51 32) = true := by
    simpa using hnone
  rw [State.ctxCreate, if_neg (not_not_intro hfree)]
  refine (if_neg hfresh).trans (if_neg ?_)
  show ¬ (ctxRecBad (s.ctxRecord c) || !s.hasCluster (bits (dq (s.ctxRecord c) 0) 10 8)) = true
  rw [hgood, hpart]
  decide
/-- UPDATE of a valid context reads SCB and WWT of its record. -/
theorem State.ctxUpdate_of_valid {s : State} {c : Nat} (hfree : s.cmdFree 3 c = true) (hvalid : (s.ctx c).valid = true)
    (halign : dq (s.ctxRecord c) 6 % 512 = 0) :
    let x := s.ctxRecord c
    let r := s.ipaTouch (s.ctx c).part c (dq x 6) false
    s.ctxUpdate c = (r.modCtx c fun y =>
      { y with scb := dq x 2, wwt := dq x 6, windows := r.readWindows y.part y.pasid (dq x 6) }).cmdEnd c 0 := by
  rw [State.ctxUpdate, if_neg (not_not_intro hfree)]
  exact if_neg (not_or.mpr ⟨not_not_intro hvalid, not_not_intro halign⟩)
/-- REVOKE of a valid context, once it has failed and no packet of its is open, takes its translations, its slots and its ATS
results. -/
theorem State.ctxRevoke_of_complete {s : State} {c : Nat} (hfree : s.cmdFree 2 c = true) (hvalid : (s.ctx c).valid = true)
    (hdone : ∀ y ∈ (s.failContext c cRevoked Blame.none).ifaces, ∀ p ∈ y.begun, p.ctx ≠ c) :
    let r := s.failContext c cRevoked Blame.none
    let d := r.tlbDrop fun e => e.part == (r.ctx c).part && e.pasid == (r.ctx c).pasid && !e.glob
    s.ctxRevoke c = (({ d with comms := r.comms.filter (fun k => k.ctx != c),
                               ats := r.ats.filter fun e => e.1 != (r.ctx c).pasid } : State).modCtx c fun y =>
      { y with valid := false, windows := [] }).cmdEnd c 0 := by
  rw [State.ctxRevoke, if_neg (not_not_intro hfree), if_neg (not_not_intro hvalid)]
  exact if_neg (by simpa using hdone)

/-! ### Invalidation (R270) -/

/-- A translation of the partition that an invalidation leaves: of another leaf, or, where the request names a PASID, of another one
or global. -/
theorem of_invHits_eq_false {v addr : Nat} {e : Tlb} (h : invHits v addr e = false) (hpart : e.part = bits v 30 28) :
    (bits v 1 1 = 0 → e.s1Holds addr = true → bits v 2 2 = 0 ∧ (e.pasid ≠ bits v 51 32 ∨ e.glob = true)) ∧
    (bits v 1 1 = 1 → e.s2Holds addr = false) := by
  have hbit : bits v 2 2 < 2 := Nat.mod_lt _ (by decide)
  rw [invHits, hpart, beq_self_eq_true, Bool.true_and] at h
  constructor
  · intro hstage hholds
    rw [if_neg (by omega), hholds, Bool.true_and] at h
    simp only [Bool.or_eq_false_iff, beq_eq_false_iff_ne, Bool.and_eq_false_iff, Bool.not_eq_false'] at h
    exact ⟨by omega, h.2⟩
  · intro hstage
    rwa [if_pos hstage] at h
/-- A write of PDADDR does the invalidation that waits for it in the partition. -/
theorem State.pdAddr_of_inv {s : State} {part : Nat} {w : DWord} (hinv : s.mgmt.inv = some w) (hpart : bits w.toNat 30 28 = part)
    (v : DWord) :
    let q := (s.modPart part fun p => { p with pdaddr := v.toNat }).invalidate (invHits w.toNat v.toNat)
    s.pdAddr part v = { q with mgmt := { q.mgmt with inv := none, invDone := true, invTags := q.openTags part,
                                                     invHeld := q.heldStores part } } := by
  have hmgmt : (s.modPart part fun p => { p with pdaddr := v.toNat }).mgmt.inv = some w := hinv
  simp only [State.pdAddr, hmgmt]
  exact if_pos hpart

/-! ### Threads that wait for pages (R273, R274, R276) -/

theorem State.foldl_since_thread (l : List Nat) (s : State) (t u j : Nat) :
    (l.foldl (fun (s : State) (w : Nat) => s.modWarp t w fun x => { x with since := s.clk }) s).thread u j = s.thread u j :=
  List.foldlRecOn (motive := fun q : State => q.thread u j = s.thread u j) l _ rfl
    fun q hq w _ => (q.thread_modWarp t w u j _).trans hq
/-- A wake leaves the threads that it does not name. -/
theorem State.thread_wake_other {s : State} {t u j : Nat} {is : List Nat} (h : t = u → j ∉ is) (f : Thread → Thread) :
    (s.wake t is f).thread u j = s.thread u j := by
  refine (State.foldl_since_thread _ _ t u j).trans ?_
  refine List.foldlRecOn (motive := fun q : State => q.thread u j = s.thread u j) is _ rfl fun q hq i hi => ?_
  rw [State.thread_modThread, if_neg]
  · exact hq
  · rintro ⟨htu, -, rfl, -⟩
    exact h htu hi
/-- A thread that a wake names once is changed once, and ready. -/
theorem State.thread_wake {s : State} {t j : Nat} {is : List Nat} (hnodup : is.Nodup) (hj : j ∈ is)
    (hlen : j < (s.team t).threads.length) (f : Thread → Thread) :
    (s.wake t is f).thread t j = { f (s.thread t j) with wait := .ready } := by
  refine (State.foldl_since_thread _ _ t t j).trans ?_
  induction is generalizing s with
  | nil => cases hj
  | cons i is ih =>
    obtain ⟨hi, hrest⟩ := List.nodup_cons.mp hnodup
    rw [List.foldl_cons]
    rcases List.mem_cons.mp hj with rfl | hj
    · refine List.foldlRecOn (motive := fun q : State => q.thread t j = { f (s.thread t j) with wait := .ready }) is _ ?_
        fun q hq k hk => ?_
      · rw [State.thread_modThread, if_pos ⟨rfl, State.team_lt_of_thread hlen, rfl, hlen⟩]
      · rw [State.thread_modThread, if_neg]
        · exact hq
        · rintro ⟨-, -, rfl, -⟩
          exact hi hk
    · have hne : i ≠ j := fun hc => hi (hc ▸ hj)
      rw [ih hrest hj (by rwa [State.threads_length_modThread]), State.thread_modThread, if_neg fun hc => hne hc.2.2.1]

/-- The threads of a team that wait for pages of a test. -/
def State.pageWaiters (s : State) (p : Nat → PageKey → Bool) (t : Nat) : List Nat :=
  s.waiting t fun _ v => match v with | .page ks => ks.any (p (dieOf (s.team t).core)) | _ => false
/-- A thread whose wait for pages ends: those of its pages that are refused are refused to it. -/
def Thread.pagesGone (deny : List PageKey) (x : Thread) : Thread :=
  { x with deny := if deny.isEmpty then x.deny
                   else deny.filter fun k => match x.wait with | .page ks => ks.contains k | _ => false }
/-- They go on: those of one team. -/
def State.wakePagesOf (s : State) (p : Nat → PageKey → Bool) (deny : List PageKey) (t : Nat) : State :=
  match s.pageWaiters p t with
  | [] => s
  | i :: is => (s.wake t (i :: is) (Thread.pagesGone deny)).tidy t
theorem State.wakePages_eq (s : State) (p : Nat → PageKey → Bool) (deny : List PageKey) :
    s.wakePages p deny = (List.range s.teams.length).foldl (fun (s : State) (t : Nat) => s.wakePagesOf p deny t) s := by
  unfold State.wakePages
  congr 1
  funext s t
  unfold State.wakePagesOf State.pageWaiters
  dsimp only
  generalize s.waiting t _ = is
  cases is <;> rfl

theorem State.mem_pageWaiters {s : State} {p : Nat → PageKey → Bool} {t i : Nat} : i ∈ s.pageWaiters p t ↔
    i < (s.team t).threads.length ∧ ∃ ks, (s.thread t i).wait = .page ks ∧ ks.any (p (dieOf (s.team t).core)) = true := by
  unfold State.pageWaiters State.waiting
  rw [List.mem_filter, List.mem_range]
  refine and_congr_right fun _ => ?_
  cases (s.thread t i).wait <;> simp
/-- A thread that does not wait for such a page goes on as meetings let it. -/
theorem State.meetsOn_wakePagesOf {s : State} {p : Nat → PageKey → Bool} {t u j : Nat} (h : t = u → j ∉ s.pageWaiters p t)
    (deny : List PageKey) : (s.thread u j).MeetsOn ((s.wakePagesOf p deny t).thread u j) := by
  unfold State.wakePagesOf
  split
  next => exact .refl _
  next i is his =>
    rw [his] at h
    have htidy := State.MeetsOn.tidy (s.wake t (i :: is) (Thread.pagesGone deny)) t u j
    rwa [State.thread_wake_other h] at htidy
/-- A thread that waits for such a page is ready, with those pages refused to it that it waited for. -/
theorem State.thread_wakePagesOf {s : State} {p : Nat → PageKey → Bool} {t i : Nat} {ks deny : List PageKey}
    (hi : i ∈ s.pageWaiters p t) (hwait : (s.thread t i).wait = .page ks) (hdeny : deny ≠ []) :
    ((s.wakePagesOf p deny t).thread t i).wait = .ready ∧
    ((s.wakePagesOf p deny t).thread t i).deny = deny.filter fun k => ks.contains k := by
  have hnodup : (s.pageWaiters p t).Nodup := List.Nodup.filter _ List.nodup_range
  have hlen := (State.mem_pageWaiters.mp hi).1
  unfold State.wakePagesOf
  split
  next hnil => simp [hnil] at hi
  next j is his =>
    rw [his] at hi hnodup
    have htidy := State.MeetsOn.tidy (s.wake t (j :: is) (Thread.pagesGone deny)) t t i
    rw [State.thread_wake hnodup hi hlen] at htidy
    obtain ⟨-, hkept, hready⟩ := htidy
    refine ⟨?_, hkept.trans ?_⟩
    · rcases hready with hready | ⟨hmeet, -⟩
      · exact hready
      · cases hmeet
    · simp [Thread.pagesGone, hdeny, hwait]
/-- A thread that waits for pages is one of a team of the machine. -/
theorem State.thread_lt_of_page {s : State} {t i : Nat} {ks : List PageKey} (h : (s.thread t i).wait = .page ks) :
    i < (s.team t).threads.length := by
  by_contra hn
  rw [State.thread, List.getD_eq_default _ _ (not_lt.mp hn)] at h
  cases h
/-- A ready thread stays ready, with the same pages refused to it, where waiters of pages go on. -/
theorem State.ready_wakePagesOf {s : State} {t i : Nat} (h : (s.thread t i).wait = .ready) (p : Nat → PageKey → Bool)
    (deny : List PageKey) (u : Nat) : ((s.wakePagesOf p deny u).thread t i).wait = .ready ∧
      ((s.wakePagesOf p deny u).thread t i).deny = (s.thread t i).deny := by
  have hnot : u = t → i ∉ s.pageWaiters p u := by
    rintro rfl hc
    obtain ⟨-, ks, hpage, -⟩ := State.mem_pageWaiters.mp hc
    rw [h] at hpage
    cases hpage
  obtain ⟨-, hdeny, hsame | ⟨hmeet, -⟩⟩ := State.meetsOn_wakePagesOf hnot deny
  · exact ⟨hsame.trans h, hdeny⟩
  · rw [h] at hmeet
    cases hmeet
/-- The same over many teams. -/
theorem State.ready_foldl_wakePagesOf {s : State} {t i : Nat} (h : (s.thread t i).wait = .ready) (p : Nat → PageKey → Bool)
    (deny : List PageKey) (l : List Nat) :
    let r := l.foldl (fun (s : State) (u : Nat) => s.wakePagesOf p deny u) s
    (r.thread t i).wait = .ready ∧ (r.thread t i).deny = (s.thread t i).deny :=
  List.foldlRecOn (motive := fun q : State => (q.thread t i).wait = .ready ∧ (q.thread t i).deny = (s.thread t i).deny)
    l _ ⟨h, rfl⟩ fun _ ⟨qready, qdeny⟩ u _ =>
      let ⟨hready, hdeny⟩ := State.ready_wakePagesOf qready p deny u
      ⟨hready, hdeny.trans qdeny⟩
/-- Over teams with its own among them, a thread that waits for such a page comes to be ready, with the refused ones of its pages
refused to it. -/
theorem State.thread_foldl_wakePagesOf {p : Nat → PageKey → Bool} {t i : Nat} {ks deny : List PageKey}
    (hkey : ∀ die, ks.any (p die) = true) (hdeny : deny ≠ []) {l : List Nat} (ht : t ∈ l) {s : State}
    (hwait : (s.thread t i).wait = .page ks) :
    let r := l.foldl (fun (s : State) (u : Nat) => s.wakePagesOf p deny u) s
    (r.thread t i).wait = .ready ∧ (r.thread t i).deny = deny.filter fun k => ks.contains k := by
  induction l generalizing s with
  | nil => cases ht
  | cons u l ih =>
    rw [List.foldl_cons]
    by_cases hu : u = t
    · subst hu
      have hmem : i ∈ s.pageWaiters p u := State.mem_pageWaiters.mpr ⟨State.thread_lt_of_page hwait, ks, hwait, hkey _⟩
      obtain ⟨hready, hrefused⟩ := State.thread_wakePagesOf hmem hwait hdeny
      obtain ⟨hready', hsame⟩ := State.ready_foldl_wakePagesOf hready p deny l
      exact ⟨hready', hsame.trans hrefused⟩
    · obtain ⟨-, -, hsame | ⟨hmeet, -⟩⟩ := State.meetsOn_wakePagesOf (s := s) (p := p) (j := i) (fun h => absurd h hu) deny
      · exact ih ((List.mem_cons.mp ht).resolve_left (Ne.symm hu)) (hsame.trans hwait)
      · rw [hwait] at hmeet
        cases hmeet
/-- Where the entries of a page close with the page refused, its waiters are ready, with it refused to them (R276). -/
theorem State.thread_closeMerge_refused {s : State} {key : PageKey} {t i : Nat} {ks : List PageKey}
    (hwait : (s.thread t i).wait = .page ks) (hmem : key ∈ ks) :
    ((s.closeMerge key [key]).thread t i).wait = .ready ∧ ((s.closeMerge key [key]).thread t i).deny = [key] := by
  have hin : t < s.teams.length := State.team_lt_of_thread (State.thread_lt_of_page hwait)
  have hrefused : ([key].filter fun k => ks.contains k) = [key] := by simp [hmem]
  rw [State.closeMerge, State.wakePages_eq]
  have hgone := State.thread_foldl_wakePagesOf (deny := [key]) (p := fun die k => k == key ||
      (((s.merges.filter fun m => m.key == key).map Merge.die).contains die && !k.far &&
        !(s.merges.filter fun m => m.key != key).any fun m => m.die == die && m.key == k))
    (fun _ => List.any_eq_true.mpr ⟨key, hmem, by simp⟩) (List.cons_ne_nil _ _) (List.mem_range.mpr hin)
    (s := { s with merges := s.merges.filter fun m => m.key != key }) hwait
  rwa [hrefused] at hgone

/-! ### Migration (R277) -/

/-- A page that was found due to migrate, and still is, goes to the frame that its partition's pool gives next. -/
theorem State.migrate_of_due {s : State} {part page : Nat} {m : Merge} {e d : Nat} {pte : Loc} {p : List Loc} {ix : List Nat}
    (hmerge : (s.merges.find? fun m => m.key == { part, s2 := true, pasid := 0, page } && m.mig) = some m)
    (hleaf : s.stage2 part (page * 65536) = .leaf e d pte p ix) (hdue : bits e 7 7 = 1)
    (hpool : (s.partOf part).poolReady = true) :
    let old := bits e 55 20 * 65536
    let new := (s.partOf part).frame
    let r := (s.modPart part fun p => { p with popped := p.popped + 1 }).copyFrame old new
    let leaf := e - bits e 55 20 * 2 ^ 20 - bits e 11 8 * 2 ^ 8 - 2 ^ 7 + new / 65536 * 2 ^ 20
    let r := (r.writeLoc noOwner pte (leBytes 8 leaf) false).tlbDrop fun x => x.part == part && x.ipa == page
    s.migrate part page = ((r.fqRecord part (fqWord page 1 true m.exec m.write) (fqWord1 0 m.ctx) old).closeMerge
      { part, s2 := true, pasid := 0, page } []).retryWords := by
  have hgo : ¬ (bits e 7 7 = 0 ∨ ¬ (s.partOf part).poolReady = true) := by simp [hdue, hpool]
  simp only [State.migrate, hmerge, State.migratePage, hleaf, if_neg hgo]

/-- Settles O50: each command and reply leaves what its lemma says, and a write of a register is what its equation says after READY. -/
theorem contextsPagesAndThePool : Obligations.ContextsPagesAndThePool := by
  unfold Obligations.ContextsPagesAndThePool
  intro s hready
  refine ⟨?commands, ?invreq, ?invalidates, ?ats, ?replies, ?waiters, ?pool, ?migrates⟩
  case commands =>
    intro c hc hbusy x q ends
    have hfree := State.cmdFree_of_idle hready hc hbusy
    have hcreate : exec (.ctxcmdCreate c) s = .next (s.ctxCreate c) := rfl
    have hupdate : exec (.ctxcmdUpdate c) s = .next (s.ctxUpdate c) := rfl
    have hrevoke : exec (.ctxcmdRevoke c) s = .next (s.ctxRevoke c) := rfl
    have hpasid : bits (dq (s.ctxRecord c) 0) 51 32 = q 0 / 2 ^ 32 % 2 ^ 20 := rfl
    have hpart : bits (dq (s.ctxRecord c) 0) 10 8 = q 0 / 256 % 8 := rfl
    have hq (n : Nat) : dq (s.ctxRecord c) n = q n := rfl
    refine ⟨fun htaken => ?_, fun hnone hgood hcluster => ?_, fun hvalid halign => ?_, fun hvalid => ?_⟩
    · rw [hcreate, State.ctxCreate_of_taken (hfree 1) htaken]
      rfl
    · rw [hcreate, State.ctxCreate_of_good (hfree 1) hnone hgood hcluster, hpasid, hpart]
      simp only [hq]
      rfl
    · rw [hupdate, State.ctxUpdate_of_valid (hfree 3) hvalid halign]
      simp only [hq]
      rfl
    · intro r d comms ats hdone
      rw [hrevoke, State.ctxRevoke_of_complete (hfree 2) hvalid hdone]
      rfl
  case invreq => exact fun v => congrArg Host.Outcome.next (if_pos hready)
  case invalidates =>
    intro part v w hinv hpart
    rw [State.pdAddr_of_inv hinv hpart]
    refine ⟨rfl, rfl, fun c hc e he hin => ?_⟩
    obtain ⟨hfirst, hsecond⟩ := of_invHits_eq_false (State.tlb_tlbDrop hc he) (hin.trans hpart.symm)
    exact ⟨fun hstage hleaf => hfirst hstage (beq_iff_eq.mpr hleaf), fun hstage => beq_eq_false_iff_ne.mp (hsecond hstage)⟩
  case ats => exact fun _ _ => rfl
  case replies =>
    intro part pasid s2 key hasked clear
    exact ⟨congrArg Host.Outcome.next (if_neg (not_not_intro hasked)), rfl⟩
  case waiters => exact fun key t i ks hwait hmem => State.thread_closeMerge_refused hwait hmem
  case pool =>
    exact fun part v h => ⟨congrArg Host.Outcome.next (if_pos hready), congrArg Host.Outcome.next (if_pos hready),
      congrArg Host.Outcome.next (if_pos hready)⟩
  case migrates =>
    intro part page m e d pte p ix hmerge hleaf hdue hpool
    exact congrArg Host.Outcome.next (State.migrate_of_due hmerge hleaf hdue hpool)

end Sys2Proof.Machine
end

section
/-! Errors: a machine check halts its core and is reported, whatever the failures of contexts that it brings. Management, temperature,
power, the watchdog and the scrub. -/

namespace Sys2Proof.Machine

open Sys2Proof

/-! ### Halted cores and reports stay -/

/-- The same cores are halted, and what was sent out has been. -/
def State.KeepsHalts (s r : State) : Prop := r.cores.map Core.halted = s.cores.map Core.halted ∧ s.out ⊆ r.out

theorem State.KeepsHalts.refl (s : State) : s.KeepsHalts s := ⟨rfl, List.Subset.refl _⟩
theorem State.KeepsHalts.trans {s r q : State} (h : s.KeepsHalts r) (g : r.KeepsHalts q) : s.KeepsHalts q :=
  ⟨g.1.trans h.1, fun _ ho => g.2 (h.2 ho)⟩
@[simp] theorem Core.trim_halted (x : Core) (keep : Nat) : (x.trim keep).halted = x.halted := by
  unfold Core.trim
  split
  · rfl
  · split <;> rfl

section
variable {s r : State} (h : s.KeepsHalts r)
include h

/-- A core is halted afterwards just where it was. -/
theorem State.KeepsHalts.core (c : Nat) : (r.core c).halted = (s.core c).halted := by
  have hcore (q : State) : (q.core c).halted = (q.cores.map Core.halted).getD c (default : Core).halted :=
    (List.getD_map (l := q.cores) (d := default) Core.halted).symm
  rw [hcore, hcore, h.1]
theorem State.KeepsHalts.out {o : Out} (ho : o ∈ s.out) : o ∈ r.out := h.2 ho

theorem State.KeepsHalts.same {q : State} (hcores : q.cores = r.cores) (hout : q.out = r.out) : s.KeepsHalts q :=
  h.trans ⟨by rw [hcores], fun _ ho => hout ▸ ho⟩
theorem State.KeepsHalts.mapCores {q : State} {f : Core → Core} (hcores : q.cores = r.cores.map f) (hout : q.out = r.out)
    (hf : ∀ x, (f x).halted = x.halted) : s.KeepsHalts q := by
  refine h.trans ⟨?_, fun _ ho => hout ▸ ho⟩
  rw [hcores, List.map_map]
  exact List.map_congr_left fun x _ => hf x
theorem State.KeepsHalts.modCore {c : Nat} {f : Core → Core} (hf : ∀ x, (f x).halted = x.halted) : s.KeepsHalts (r.modCore c f) := by
  refine h.trans ⟨List.ext_getElem? fun i => ?_, List.Subset.refl _⟩
  simp only [State.modCore, List.getElem?_map, List.getElem?_modify]
  cases r.cores[i]? with
  | none => rfl
  | some x =>
    simp only [Option.map_some]
    split
    · exact congrArg some (hf x)
    · rfl
theorem State.KeepsHalts.emit {o : Out} : s.KeepsHalts (r.emit o) := h.trans ⟨rfl, List.subset_append_left _ _⟩
theorem State.KeepsHalts.wakes {q : State} (hwakes : r.WakesOnly q) : s.KeepsHalts q := by
  obtain ⟨hrest, hcores⟩ := hwakes
  have hhalted := congrArg (List.map Core.halted) hcores
  simp only [List.map_map, Function.comp_def] at hhalted
  exact h.trans ⟨hhalted, fun _ ho => hrest ▸ ho⟩
theorem State.KeepsHalts.teamsAndGroups {q : State} (hteams : r.TeamsAndGroups q) : s.KeepsHalts q := h.wakes hteams.wakes
theorem State.KeepsHalts.foldl {α : Type} {l : List α} {f : State → α → State}
    (hf : ∀ (q : State) (a : α), s.KeepsHalts q → s.KeepsHalts (f q a)) : s.KeepsHalts (l.foldl f r) :=
  List.foldlRecOn (motive := s.KeepsHalts) l f h fun q hq a _ => hf q a hq

/-! ### Writes at a place -/

theorem State.KeepsHalts.unpoison {l : Loc} {n : Nat} : s.KeepsHalts (r.unpoison l n) := by
  unfold State.unpoison
  split
  · exact h
  · exact h.same rfl rfl
theorem State.KeepsHalts.wakeSectors {l : List Loc} : s.KeepsHalts (r.wakeSectors l) := h.wakes (r.wakesOnly_wakeSectors l)
theorem State.KeepsHalts.homePut {pa : Nat} {bytes : List Byte} : s.KeepsHalts (r.homePut pa bytes) := by
  refine .wakeSectors (.unpoison ?_)
  exact h.same rfl rfl
theorem State.KeepsHalts.disown {keep : Option Nat} {pa n : Nat} : s.KeepsHalts (r.disown keep pa n) := by
  refine h.trans ⟨List.ext_getElem? fun i => ?_, List.Subset.refl _⟩
  simp only [State.disown, List.getElem?_map, List.getElem?_mapIdx]
  cases r.cores[i]? with
  | none => rfl
  | some x =>
    simp only [Option.map_some]
    split
    · rfl
    · split <;> rfl
theorem State.KeepsHalts.land {st : Store} : s.KeepsHalts (r.land st) := by
  have hleft : s.KeepsHalts { r with stores := r.stores.filter fun x => x.id != st.id } := h.same rfl rfl
  unfold State.land
  dsimp only
  split
  · refine .homePut (.modCore hleft.disown ?_)
    exact fun _ => rfl
  · refine .homePut (.modCore hleft.disown ?_)
    exact fun _ => Core.trim_halted _ _
theorem State.KeepsHalts.ackAll {l : List Store} : s.KeepsHalts (r.ackAll l) :=
  h.foldl fun _ _ hq => hq.foldl fun _ _ hq => hq.land
theorem State.KeepsHalts.homeWrite {pa : Nat} {bytes : List Byte} : s.KeepsHalts (r.homeWrite pa bytes) :=
  .homePut (.disown h.ackAll)
theorem State.KeepsHalts.hostPut {p a : Nat} {bytes : List Byte} : s.KeepsHalts (r.hostPut p a bytes) := by
  refine .wakeSectors (.unpoison ?_)
  exact h.same rfl rfl
theorem State.KeepsHalts.unblock {t : Nat} {is : List Nat} {b : Bool} : s.KeepsHalts (r.unblock t is b) :=
  h.teamsAndGroups (r.teamsAndGroups_unblock t is b)
theorem State.KeepsHalts.wakeSync {t : Nat} : s.KeepsHalts (r.wakeSync t) := by
  unfold State.wakeSync
  dsimp only
  split
  · exact h
  · refine .unblock (h.foldl fun _ _ hq => ?_)
    exact hq.same rfl rfl
theorem State.KeepsHalts.padPut {t off : Nat} {bytes : List Byte} : s.KeepsHalts (r.padPut t off bytes) := by
  refine .wakeSectors (.wakeSync (.unpoison ?_))
  exact h.same rfl rfl
theorem State.KeepsHalts.send {m : FMsg} : s.KeepsHalts (r.send m) := h.emit
theorem State.KeepsHalts.markIf {l : Loc} {n : Nat} {bad : Bool} : s.KeepsHalts (if bad then r.mark l n else r) := by
  split
  · exact h.same rfl rfl
  · exact h
theorem State.KeepsHalts.writeLoc {o : Owner} {l : Loc} {bytes : List Byte} {bad : Bool} :
    s.KeepsHalts (r.writeLoc o l bytes bad) := by
  unfold State.writeLoc
  cases l with
  | mem pa => exact .markIf h.homeWrite
  | host p a => exact .markIf h.hostPut
  | peer pa =>
    refine .wakeSectors (.send ?_)
    exact h.same rfl rfl
  | pad t off => exact .markIf h.padPut
  | away t va => exact h

/-! ### The fault queue and the merge tables (R273, R275) -/

theorem State.KeepsHalts.modPart {p : Nat} {f : Part → Part} : s.KeepsHalts (r.modPart p f) := h.same rfl rfl
theorem State.KeepsHalts.modIface {q : Nat} {f : Iface → Iface} : s.KeepsHalts (r.modIface q f) := h.same rfl rfl
theorem State.KeepsHalts.fqPut {part f0 f1 f2 : Nat} : s.KeepsHalts (r.fqPut part f0 f1 f2) := .modPart h.writeLoc
theorem State.KeepsHalts.fqDrain {part : Nat} : s.KeepsHalts (r.fqDrain part) := by
  unfold State.fqDrain
  refine .foldl (h.foldl fun q _ hq => ?_) fun q _ hq => ?_
  · split
    · exact hq.fqPut.modPart
    · exact hq
  · split
    · exact hq.fqPut.same rfl rfl
    · exact hq
theorem State.KeepsHalts.fqRecord {part f0 f1 f2 : Nat} : s.KeepsHalts (r.fqRecord part f0 f1 f2) := .fqDrain h.modPart
theorem State.KeepsHalts.noteDry {part ctx : Nat} {dry : List Nat} {a : Touch} : s.KeepsHalts (r.noteDry part ctx dry a) := by
  unfold State.noteDry
  split
  · exact h
  · dsimp only
    split
    · exact .fqRecord h.modPart
    · exact h
theorem State.KeepsHalts.askFar {key : PageKey} : s.KeepsHalts (r.askFar key) := by
  unfold State.askFar
  split
  · exact h
  · exact .send (h.same rfl rfl)
theorem State.KeepsHalts.request {die ctx : Nat} {key : PageKey} {exec write : Bool} :
    s.KeepsHalts (r.request die ctx key exec write) := by
  unfold State.request
  dsimp only
  split
  · exact h.askFar
  · split
    · exact h
    · split
      · exact h
      · refine .fqDrain ?_
        exact h.same rfl rfl
theorem State.KeepsHalts.requestAll {die ctx : Nat} {keys : List PageKey} {exec write : Bool} :
    s.KeepsHalts (r.requestAll die ctx keys exec write) := h.foldl fun _ _ hq => hq.request

/-! ### Translation and its checks (R173, R266 to R270) -/

theorem State.KeepsHalts.orEntry {pte : Loc} {mask : Nat} : s.KeepsHalts (r.orEntry pte mask) := by
  unfold State.orEntry
  cases pte with
  | mem pa =>
    dsimp only
    split
    · exact h.ackAll
    · exact .homeWrite h.ackAll
  | host p a =>
    dsimp only
    split
    · exact h
    · exact h.hostPut
  | peer pa => exact .send (h.same rfl rfl)
  | pad t off => exact h
  | away t va => exact h
theorem State.KeepsHalts.absent {key : PageKey} {leaf : Option Tlb} : s.KeepsHalts (r.absent key leaf).1 := by
  unfold State.absent
  split
  · exact h.same rfl rfl
  · exact h
theorem State.KeepsHalts.farDrop {kind who : Nat} : s.KeepsHalts (r.farDrop kind who) := h.same rfl rfl
theorem State.KeepsHalts.tlbFill {core : Nat} {e : Tlb} : s.KeepsHalts (r.tlbFill core e) := h.modCore fun _ => rfl
theorem State.KeepsHalts.walkPage {core ctx va : Nat} {a : Touch} : s.KeepsHalts (r.walkPage core ctx va a).1 := by
  unfold State.walkPage
  dsimp only
  split
  · exact h.farDrop
  · exact .absent h.farDrop
  · exact h
  · split
    · exact h.farDrop
    · exact h
    · exact .absent h.farDrop
    · dsimp only
      split
      · exact .foldl (.noteDry h.farDrop) fun _ _ hq => hq.orEntry
      · exact .tlbFill (State.KeepsHalts.same (.foldl (.noteDry h.farDrop) fun _ _ hq => hq.orEntry) rfl rfl)
theorem State.KeepsHalts.translate {core ctx va : Nat} {a : Touch} : s.KeepsHalts (r.translate core ctx va a).1 := by
  unfold State.translate
  dsimp only
  split
  · exact h
  · split
    · exact h.tlbFill
    · exact h.walkPage
theorem State.KeepsHalts.setDirty {x : Tlb} : s.KeepsHalts (r.setDirty x) := by
  unfold State.setDirty
  split
  · exact h
  · exact .mapCores (.orEntry h.orEntry) rfl rfl fun _ => rfl
theorem State.KeepsHalts.hostOk {x : Tlb} {a : Touch} : s.KeepsHalts (r.hostOk x a).1 := by
  unfold State.hostOk
  dsimp only
  split
  · exact h
  · split
    · exact h
    · dsimp only
      split
      · exact h.same rfl rfl
      · exact h
theorem State.KeepsHalts.checks69 {core ctx : Nat} {priv : Bool} {va : Nat} {a : Touch} {fmt : Tlb → Bool} :
    s.KeepsHalts (r.checks69 core ctx priv va a fmt).1 := by
  have htranslate := h.translate (core := core) (ctx := ctx) (va := va) (a := a)
  unfold State.checks69
  generalize r.translate core ctx va a = y at htranslate ⊢
  obtain ⟨q, x⟩ := y
  cases x with
  | nomap s2 => exact htranslate
  | absent key leaf => exact htranslate
  | page x =>
    have hhost := htranslate.hostOk (x := x) (a := a)
    dsimp only
    split
    · exact htranslate
    · generalize q.hostOk x a = z at hhost ⊢
      obtain ⟨q', ok⟩ := z
      cases ok with
      | false => exact hhost
      | true =>
        dsimp only
        split
        · exact hhost.setDirty
        · exact hhost
theorem State.KeepsHalts.probeCtx {ctx va size : Nat} {a : Touch} : s.KeepsHalts (r.probeCtx ctx va size a).1 := by
  unfold State.probeCtx
  split
  · exact h
  · exact h.checks69

/-! ### Interrupts and completions (R282, R285, R288, R289) -/

theorem State.KeepsHalts.interrupt {q v : Nat} : s.KeepsHalts (r.interrupt q v) := by
  have hmsix {r : State} (h : s.KeepsHalts r) {c : Prop} [Decidable c] {m : Mgmt} {e : Nat} :
      s.KeepsHalts (if c then { r with mgmt := m } else r.emit (.msix e)) := by
    split
    · exact h.same rfl rfl
    · exact h.emit
  unfold State.interrupt
  dsimp only
  split
  · refine hmsix ?_
    split
    · exact h.hostPut
    · exact h
  · exact h
theorem State.KeepsHalts.coalesceFire {q v : Nat} : s.KeepsHalts (r.coalesceFire q v) := .interrupt h.modIface
theorem State.KeepsHalts.coalesce {q v : Nat} : s.KeepsHalts (r.coalesce q v) := by
  unfold State.coalesce
  dsimp only
  split
  · exact .coalesceFire h.modIface
  · exact h.modIface
theorem State.KeepsHalts.coalesceIf {q v : Nat} {c : Prop} [Decidable c] : s.KeepsHalts (if c then r.coalesce q v else r) := by
  split
  · exact h.coalesce
  · exact h
theorem State.KeepsHalts.completeNow {q : Nat} {p : Packet} {status : Nat} : s.KeepsHalts (r.completeNow q p status) := by
  have hprobe := h.probeCtx (ctx := p.ctx) (va := (p.words.getD 1 0).toNat) (size := 8) (a := { write := true, line := true })
  unfold State.completeNow
  dsimp only
  split
  · exact .coalesceIf h.modIface
  · generalize r.probeCtx p.ctx (p.words.getD 1 0).toNat 8 { write := true, line := true } = y at hprobe ⊢
    obtain ⟨r, a⟩ := y
    cases a with
    | ok l x => exact .coalesceIf (.modIface hprobe.writeLoc)
    | page keys => exact .modIface hprobe.requestAll
    | fault c va s2 => exact .coalesceIf (.modIface (.interrupt hprobe.modIface))
    | remote t => exact .coalesceIf (.modIface (.interrupt hprobe.modIface))

/-! ### Migration (R277) -/

theorem State.KeepsHalts.tlbDrop {p : Tlb → Bool} : s.KeepsHalts (r.tlbDrop p) := h.mapCores rfl rfl fun _ => rfl
theorem State.KeepsHalts.copyFrame {old new : Nat} : s.KeepsHalts (r.copyFrame old new) := by
  unfold State.copyFrame
  exact .mapCores h.ackAll rfl rfl fun _ => rfl
theorem State.KeepsHalts.migratePage {part page ctx : Nat} {exec write : Bool} :
    s.KeepsHalts (r.migratePage part page ctx exec write) := by
  unfold State.migratePage
  split
  · dsimp only
    split
    · exact h
    · exact .fqRecord (.tlbDrop (.writeLoc (.copyFrame h.modPart)))
  · exact h
theorem State.KeepsHalts.ipaTouch {part ctx ipa : Nat} {write : Bool} : s.KeepsHalts (r.ipaTouch part ctx ipa write) := by
  unfold State.ipaTouch
  split
  · split
    · exact h
    · split
      · exact h.migratePage
      · exact h.noteDry
  · exact h

/-! ### Failure of a context (R307) -/

theorem State.KeepsHalts.discard {c : Nat} : s.KeepsHalts (r.discard c) := h.mapCores rfl rfl fun _ => rfl
theorem State.KeepsHalts.wakeAllocs : s.KeepsHalts r.wakeAllocs := h.teamsAndGroups (r.teamsAndGroups_wakeAll false _)
theorem State.KeepsHalts.sendTag {c : Comm} {b : Bool} {m : FMsg} : s.KeepsHalts (r.sendTag c b m) := by
  unfold State.sendTag
  split
  · exact h.send.same rfl rfl
  · exact h.same rfl rfl
theorem State.KeepsHalts.failComms {c : Nat} : s.KeepsHalts (r.failComms c) := by
  unfold State.failComms
  refine .foldl ?_ fun q k hq => ?_
  · exact h.same rfl rfl
  dsimp only
  split
  · exact hq.foldl fun _ _ hq => hq.sendTag
  · exact hq.sendTag
theorem State.KeepsHalts.wakeAgree : s.KeepsHalts r.wakeAgree := by
  unfold State.wakeAgree
  refine h.foldl fun q t hq => ?_
  dsimp only
  split
  · exact hq
  · exact hq.teamsAndGroups ((State.teamsOnly_wake q t _ id).weaken.trans (State.teamsAndGroups_tidy _ t))
/-- The packets of a failed context complete, with the error interrupt where one asks for it. -/
theorem State.KeepsHalts.failPacket {q : Nat} {p : Packet} : s.KeepsHalts (
    let r := r.completeNow q p stFailed
    if bits (p.words.getD 0 0).toNat 8 8 = 1 then r.errorInt q else r) := by
  dsimp only
  split
  · exact .interrupt h.completeNow
  · exact h.completeNow
/-- The failure record is written where its address is mapped. -/
theorem State.KeepsHalts.writeMapped {l : Option Loc} {bytes : List Byte} : s.KeepsHalts (match l with
    | some l => r.writeLoc noOwner l bytes false
    | none => r) := by
  cases l with
  | some l => exact h.writeLoc
  | none => exact h
theorem State.KeepsHalts.failContext {c cause : Nat} {b : Blame} : s.KeepsHalts (r.failContext c cause b) := by
  unfold State.failContext
  dsimp only
  split
  · exact h
  · refine .writeMapped (.ipaTouch (.foldl (.wakeAgree (.failComms (.wakeAllocs (.discard ?_)))) fun q i hq => hq.foldl ?_))
    · exact h.same rfl rfl
    · exact fun _ _ hq => hq.failPacket

end

/-! ### A machine check (R313, R327) -/

@[simp] theorem State.cores_length_mcLog (s : State) (c unit : Nat) (syn : BitVec 32) (pa : Option Nat) (uc : Bool) :
    (s.mcLog c unit syn pa uc).cores.length = s.cores.length := List.length_modify ..
/-- The state in which the error is logged, the core halted and the host told, before contexts fail. -/
def State.checked (s : State) (c unit : Nat) (syn : BitVec 32) (pa : Option Nat) : State :=
  ((s.mcLog c unit syn pa true).modCore c fun x => { x with halted := true, issue := x.issue.map fun _ => none }).emit
    (.machineCheck c)
theorem State.halted_checked {s : State} {c : Nat} (hc : c < s.cores.length) (unit : Nat) (syn : BitVec 32) (pa : Option Nat) :
    ((s.checked c unit syn pa).core c).halted = true := by
  show (((s.mcLog c unit syn pa true).modCore c _).core c).halted = true
  rw [State.core_modCore, if_pos ⟨rfl, by rwa [State.cores_length_mcLog]⟩]
theorem State.checked_keepsHalts (s : State) (c unit : Nat) (syn : BitVec 32) (pa : Option Nat) :
    (s.checked c unit syn pa).KeepsHalts (s.machineCheck c unit syn pa) := by
  refine .foldl (.refl _) fun q k hq => ?_
  split
  · exact hq.failContext
  · exact hq
/-- A machine check halts its core and is reported. -/
theorem State.halted_machineCheck {s : State} {c : Nat} (hc : c < s.cores.length) (unit : Nat) (syn : BitVec 32)
    (pa : Option Nat) : ((s.machineCheck c unit syn pa).core c).halted = true :=
  ((s.checked_keepsHalts c unit syn pa).core c).trans (State.halted_checked hc unit syn pa)
theorem State.mem_out_machineCheck (s : State) (c unit : Nat) (syn : BitVec 32) (pa : Option Nat) :
    .machineCheck c ∈ (s.machineCheck c unit syn pa).out :=
  (s.checked_keepsHalts c unit syn pa).out (List.mem_append_right _ List.mem_cons_self)

/-! ### Attestation and management (R292, R293, R362) -/

theorem State.hears_of_address {s : State} {via : Transport} (h : ∀ a, via = .mctpSmbus a → a = s.mgmt.smbus) :
    s.hears via = true := by
  cases via with
  | mctpSmbus a => exact beq_iff_eq.mpr (h a rfl)
  | _ => rfl
theorem State.answer_of_heard {s : State} {via : Transport} (hstage : 2 ≤ s.mgmt.stage) (hvia : s.hears via = true) (o : Out) :
    s.answer via o = s.emit o := by
  rw [State.answer, if_neg (not_not_intro hvia), if_pos hstage]
theorem overMctp_of_ne_doe {via : Transport} (h : via ≠ .doe) : overMctp via = true := by
  cases via with
  | doe => exact absurd rfl h
  | _ => rfl
theorem State.measurement_of_image (s : State) {k : Nat} (hlow : 1 ≤ k) (hhigh : k ≤ 3) :
    s.measurement k = Config.sha512 (s.image k) := by
  rw [State.measurement, if_neg (by omega), if_pos ⟨hlow, hhigh⟩]
theorem State.sensor_of_core (s : State) {n : Nat} (h : n < 192) : s.sensor n = (s.core n).heat := if_pos h
theorem State.sensor_of_other (s : State) {n : Nat} (hlow : 192 ≤ n) (hhigh : n < 209) : s.sensor n = mget 0 s.mgmt.temps n := by
  rw [State.sensor, if_neg (Nat.not_lt.mpr hlow), if_pos hhigh]

/-! ### Temperature and power (R309, R353, R355) -/

/-- A step down where the core is 5 °C or more above the threshold, and a step up where it is below. -/
theorem Core.step_hot (x : Core) {hotAt c : Nat} (h : hotAt + 5 ≤ c) (now : Nat) : x.step hotAt c now =
    if x.clock < 3 ∧ (x.clock = 0 ∨ x.cool + 1000000 ≤ now) then { x with heat := c, clock := x.clock + 1, cool := now }
    else { x with heat := c } := by
  have hnot : ¬ c < hotAt := by omega
  simp only [Core.step, h, hnot, true_and, false_and, if_false]
theorem Core.step_cool (x : Core) {hotAt c : Nat} (h : c < hotAt) (now : Nat) : x.step hotAt c now =
    if 0 < x.clock ∧ x.cool + 10000000 ≤ now then { x with heat := c, clock := x.clock - 1, cool := now }
    else { x with heat := c } := by
  have hnot : ¬ hotAt + 5 ≤ c := by omega
  simp only [Core.step, h, hnot, true_and, false_and, if_false]
/-- Below 115 °C a core's sensor sets its clock step, and its teams move or go on. -/
theorem State.thermalPoll_core {s : State} {n c : Nat} (hn : n < 192) (hc : c < 115) :
    let q := s.modCore n fun x => x.step s.mgmt.hotAt c s.clk
    s.thermalPoll n c = if s.mgmt.hotAt < c then q.coolDown n else q.coolAgain n := by
  rw [State.thermalPoll, if_neg fun h => absurd h.2 (Nat.not_le.mpr hc), if_neg (Nat.not_le.mpr hn)]
  rfl
theorem State.powerLimit_above {s : State} {w : Nat} (h : s.mgmt.watts < w) : s.powerLimit w =
    { s with mgmt := { s.mgmt with cut := min 3 (s.mgmt.cut + 1) }, power := s.clk } := if_pos h
theorem State.powerLimit_below {s : State} {w : Nat} (h : w * 100 < s.mgmt.watts * 95) (hcut : 0 < s.mgmt.cut)
    (hlong : s.power + 10000000 ≤ s.clk) : s.powerLimit w =
      { s with mgmt := { s.mgmt with cut := s.mgmt.cut - 1 }, power := s.clk } := by
  have hunder : ¬ s.mgmt.watts < w := by omega
  have hlow : ¬ s.mgmt.watts * 95 ≤ w * 100 := by omega
  rw [State.powerLimit, if_neg hunder, if_neg hlow, if_pos ⟨hcut, hlong⟩]

/-! ### The watchdog and the scrub (R314, R315) -/

theorem State.hung_of_partition {s : State} {c : Nat} (h : ∃ p, p < 4 ∧ (∃ g ∈ s.groupsOf c p, s.ready g = true) ∧
    (s.core c).issuedAt.getD p 0 + 100000000 ≤ s.clk) : s.hung c = true := by
  obtain ⟨p, hp, hready, hlong⟩ := h
  refine List.any_eq_true.mpr ⟨p, List.mem_range.mpr hp, ?_⟩
  rw [List.any_eq_true.mpr hready, decide_eq_true hlong]
  rfl
/-- A byte of memory marked poisons its sector, and nothing else. -/
theorem State.mem_poison_mark (s : State) (pa : Nat) (l : Loc) : l ∈ (s.mark (.mem pa) 1).poison ↔
    l ∈ s.poison ∨ ∃ d, d < 32 ∧ l = .mem (pa / 32 * 32 + d) := by
  have hsector : sectorsOf (.mem pa) 1 = [.mem (pa / 32 * 32)] := rfl
  have hbytes : l ∈ (List.range 32).map (Loc.add (.mem (pa / 32 * 32))) ↔ ∃ d, d < 32 ∧ l = .mem (pa / 32 * 32 + d) := by
    simp [Loc.add, eq_comm]
  simp only [State.mark, hsector, List.flatMap_cons, List.flatMap_nil, List.append_nil, List.mem_append, List.mem_filter, hbytes]
  by_cases hl : l ∈ s.poison <;> simp [hl]

/-- Settles O53: each request and event is its equation, and what failing contexts do leaves a machine check's core halted and its
report sent. -/
theorem managementTemperatureAndErrors : Obligations.ManagementTemperatureAndErrors := by
  unfold Obligations.ManagementTemperatureAndErrors
  intro s
  refine ⟨?answers, ?overheats, ?hot, ?cool, ?above, ?below, ?watchdog, ?check, ?scrubBad, ?scrubMasked⟩
  case answers =>
    intro hstage via haddr answers
    have hvia := State.hears_of_address haddr
    have hans (o : Out) : Host.Outcome.next (s.answer via o) = (.next (s.emit o) : Host.Outcome State Fault Refusal) :=
      congrArg _ (State.answer_of_heard hstage hvia o)
    refine ⟨hans _, hans _, hans _, hans _, fun a n => hans _, fun n => hans _, fun k hlow hhigh => ?_, fun hdoe => ?_⟩
    · rw [← s.measurement_of_image hlow hhigh]
      exact congrArg Host.Outcome.next (if_pos ⟨hstage, hvia⟩)
    · have hmctp := overMctp_of_ne_doe hdoe
      refine ⟨fun c => congrArg Host.Outcome.next (if_pos ⟨hstage, hmctp, hvia⟩), fun n hn => ?_, fun n hlow hhigh => ?_⟩
      · rw [← s.sensor_of_core hn]
        exact congrArg Host.Outcome.next (if_pos ⟨hstage, by omega, hmctp, hvia⟩)
      · rw [← s.sensor_of_other hlow hhigh]
        exact congrArg Host.Outcome.next (if_pos ⟨hstage, by omega, hmctp, hvia⟩)
  case overheats => exact fun n c hn hc => congrArg Host.Outcome.next (if_pos ⟨hn, hc⟩)
  case hot =>
    intro n c hn hhot hc
    refine congrArg Host.Outcome.next ((State.thermalPoll_core hn hc).trans ?_)
    rw [if_pos (by omega)]
    simp only [Core.step_hot _ hhot]
  case cool =>
    intro n c hn hcool hc
    refine congrArg Host.Outcome.next ((State.thermalPoll_core hn hc).trans ?_)
    rw [if_neg (by omega)]
    simp only [Core.step_cool _ hcool]
  case above => exact fun w h => congrArg Host.Outcome.next (State.powerLimit_above h)
  case below => exact fun w h hcut hlong => congrArg Host.Outcome.next (State.powerLimit_below h hcut hlong)
  case watchdog =>
    intro c missed hc hruns hcause
    refine congrArg Host.Outcome.next (if_pos ⟨hc, by simp [hruns], ?_⟩)
    exact hcause.imp_right State.hung_of_partition
  case check =>
    intro c u y a hc
    have hin : ¬ Config.cores ≤ c := Nat.not_le.mpr hc
    refine ⟨⟨_, congrArg Host.Outcome.next (if_neg hin), rfl, fun hlen => ?_, ?_⟩, congrArg Host.Outcome.next (if_neg hin)⟩
    · exact State.halted_machineCheck hlen u y a
    · exact s.mem_out_machineCheck c u y a
  case scrubBad =>
    intro pa hpa
    refine ⟨s.mark (.mem pa) 1, congrArg Host.Outcome.next (if_neg (not_not_intro hpa)), s.mem_poison_mark pa⟩
  case scrubMasked => exact fun pa hpa => congrArg Host.Outcome.next (if_neg (not_not_intro hpa))

end Sys2Proof.Machine
end

section
/-! SYS words that switch contexts or reach CSRs, and the collectives: how they complete. What a return restores, and what a
write of a CSR leaves to be read. -/

namespace Sys2Proof.Machine

open Sys2Proof

/-! ### A return (R296, R302) -/

/-- Settles O38: entry banks what a return takes back, so that the last entry of the banks, of the windows and the level are
those of the entry. -/
theorem returnRestoresWhatEntrySaved : Obligations.ReturnRestoresWhatEntrySaved := by
  unfold Obligations.ReturnRestoresWhatEntrySaved
  intro x vec p6 ew y
  have hpred (q : BitVec 3) : y.pred q = if q = 7 then true else (if p6 then (0x40 : BitVec 7) else 0).getLsbD q.toNat := rfl
  simp only [hpred]
  refine ⟨rfl, rfl, rfl, rfl, rfl, ?preds, ?pred6, ?window, ?restored⟩
  case preds =>
    clear hpred y
    revert p6
    decide
  case pred6 =>
    clear hpred y
    revert p6
    decide
  case window =>
    intro hlen
    simp [y, Thread.window, Thread.entered, ← hlen]
  case restored =>
    intro z hlevel hbanks _ hew
    have hlast : z.banks.getLast? = some
        { pc := x.pc, mid := x.mid, skip := x.skip, meet := x.meet, mtag := x.mtag, alone := x.alone, p := x.p,
          laneSet := x.laneSet, looks := x.pend.filter Pend.done } := by
      rw [hbanks]
      exact List.getLast?_concat
    have hdrop : z.banks.dropLast = x.banks := by
      rw [hbanks]
      exact List.dropLast_concat
    rw [Thread.restore, hlast]
    refine ⟨rfl, rfl, rfl, rfl, rfl, rfl, rfl, ?_, hdrop, hew, rfl, rfl, rfl⟩
    show z.level - 1 = x.level
    rw [hlevel]
    rfl

/-! ### CSRs (R299, R319 to R321, R325) -/

/-- A write of a half of a lane mask sets that half and leaves the other. -/
theorem setHalf_halves (m : BitVec 128) (high : Bool) {v : Nat} (hv : v < 2 ^ 64) :
    (setHalf m high v).toNat % 2 ^ 64 = (if high then m.toNat % 2 ^ 64 else v) ∧
    (setHalf m high v).toNat / 2 ^ 64 = if high then v else m.toNat / 2 ^ 64 := by
  have hm := m.isLt
  cases high <;> simp only [setHalf, BitVec.toNat_ofNat, if_true, Bool.false_eq_true, if_false] <;> omega

/-- What the CSRs of one trap entry read as, but for the level (R325). -/
def TrapInst.csr (x : TrapInst) : Nat → Nat
  | 0x010 => x.tstat
  | 0x011 => x.epc.toNat
  | 0x012 => x.edec.toNat
  | 0x013 => x.eword.toNat
  | 0x014 => x.emask.toNat % 2 ^ 64
  | 0x015 => x.emask.toNat / 2 ^ 64
  | 0x016 => x.ekill.toNat % 2 ^ 64
  | 0x017 => x.ekill.toNat / 2 ^ 64
  | 0x018 => x.eskip.toNat % 2 ^ 64
  | 0x019 => x.eskip.toNat / 2 ^ 64
  | _ => x.frbase.toNat
/-- What a write of a half of EKILL or ESKIP leaves of what a trap entry made. -/
def TrapInst.setCsr (x : TrapInst) (idx v : Nat) : TrapInst :=
  match idx with
  | 0x016 => { x with ekill := setHalf x.ekill false v }
  | 0x017 => { x with ekill := setHalf x.ekill true v }
  | 0x018 => { x with eskip := setHalf x.eskip false v }
  | _ => { x with eskip := setHalf x.eskip true v }

theorem TrapInst.setCsr_level (x : TrapInst) (idx v : Nat) : (x.setCsr idx v).level = x.level := by
  unfold TrapInst.setCsr
  split <;> rfl
/-- A half that is written reads back. -/
theorem TrapInst.csr_setCsr_same (x : TrapInst) {idx v : Nat} (hlo : 0x016 ≤ idx) (hhi : idx ≤ 0x019) (hv : v < 2 ^ 64) :
    (x.setCsr idx v).csr idx = v := by
  interval_cases idx <;> simp only [TrapInst.setCsr, TrapInst.csr, setHalf_halves _ _ hv, if_true, Bool.false_eq_true, if_false]
/-- Every other register of the same trap entry stays as it was. -/
theorem TrapInst.csr_setCsr_other (x : TrapInst) {idx j v : Nat} (hlo : 0x016 ≤ idx) (hhi : idx ≤ 0x019) (hv : v < 2 ^ 64)
    (hjlo : 0x010 ≤ j) (hjhi : j ≤ 0x01B) (hj : j ≠ idx) : (x.setCsr idx v).csr j = x.csr j := by
  interval_cases idx <;> interval_cases j <;>
    simp only [TrapInst.setCsr, TrapInst.csr, TrapInst.tstat, setHalf_halves _ _ hv, if_true, Bool.false_eq_true, if_false,
      ne_eq, not_true_eq_false] at hj ⊢

/-- The CSRs of a thread's trap entry, and its level. -/
theorem State.csr_of_inst {s : State} {t i j : Nat} {x : TrapInst}
    (h : s.inst t ((s.team t).warpOf i) (s.thread t i).level = some x) (hlo : 0x010 ≤ j) (hhi : j ≤ 0x01B) (lane : Nat) :
    s.csr t i j lane = if j = 0x01A then (s.thread t i).level else x.csr j := by
  interval_cases j <;> simp only [State.csr, h, TrapInst.csr] <;> rfl
theorem State.warpOf_modWarp (s : State) (t w u i : Nat) (f : Warp → Warp) :
    ((s.modWarp t w f).team u).warpOf i = (s.team u).warpOf i := congrArg (i / ·) (State.modWarp_team_width ..)
/-- What a change of the instances of its level leaves at that level. -/
theorem State.inst_modInst {s : State} {t w level : Nat} {x : TrapInst} (h : s.inst t w level = some x) {f : TrapInst → TrapInst}
    (hf : ∀ y : TrapInst, (f y).level = y.level) : (s.modInst t w level f).inst t w level = some (f x) := by
  have hwarp : t < s.teams.length ∧ w < (s.team t).warps.length := by
    by_contra hout
    have hdefault : s.warp t w = default := by
      rw [not_and_or, Nat.not_lt, Nat.not_lt] at hout
      rcases hout with hout | hout
      · rw [State.warp, State.team, List.getD_eq_default _ _ hout]
        rfl
      · exact List.getD_eq_default _ _ hout
    rw [State.inst, hdefault] at h
    cases h
  have hfind : (fun y : TrapInst => decide (y.level = level)) ∘ (fun y => if y.level = level then f y else y) =
      fun y => decide (y.level = level) := by
    funext y
    by_cases hy : y.level = level <;> simp [hy, hf]
  have hlevel : x.level = level := by simpa using List.find?_some h
  rw [State.modInst, State.inst, State.warp_modWarp, if_pos ⟨rfl, hwarp.1, rfl, hwarp.2⟩]
  dsimp only
  rw [List.find?_map, hfind]
  change Option.map _ (s.inst t w level) = _
  rw [h, Option.map_some, if_pos hlevel]
/-- A write of a half of EKILL or ESKIP changes the instances of the thread's level. -/
theorem State.setCsr_inst (s : State) (t i : Nat) {idx : Nat} (v : Nat) (hlo : 0x016 ≤ idx) (hhi : idx ≤ 0x019) :
    s.setCsr t i idx v = s.modInst t ((s.team t).warpOf i) (s.thread t i).level fun x => x.setCsr idx v := by
  interval_cases idx <;> rfl

/-- Settles O42: the registers of the context, the home warp and the team are changed in place; those of a trap entry by
`inst_modInst`. -/
theorem csrWriteThenRead : Obligations.CsrWriteThenRead := by
  unfold Obligations.CsrWriteThenRead
  intro s t i lane v ht hctx hv
  have hofNat : (BitVec.ofNat 64 v).toNat = v := by rw [BitVec.toNat_ofNat, Nat.mod_eq_of_lt hv]
  have hmodCtx (f : Ctx → Ctx) : (s.modCtx (s.team t).ctx f).ctx (s.team t).ctx = f (s.ctx (s.team t).ctx) := by
    rw [State.ctx_modCtx, if_pos ⟨rfl, hctx⟩]
  refine ⟨?vectors, ?wtcmp, ?spinn, ?spinnKept, ?reslim, ?instance_, ?bkpt⟩
  case vectors =>
    rintro idx (rfl | rfl | rfl)
    · exact (congrArg (fun x : Ctx => x.trapvec.toNat) (hmodCtx _)).trans hofNat
    · exact (congrArg (fun x : Ctx => x.emuvec.toNat) (hmodCtx _)).trans hofNat
    · exact (congrArg (fun x : Ctx => x.emustk.toNat) (hmodCtx _)).trans hofNat
  case wtcmp =>
    intro hw
    have hwarp : (s.setCsr t i 0x030 v).warp t ((s.team t).warpOf i) =
        { s.warp t ((s.team t).warpOf i) with wtcmp := BitVec.ofNat 64 v } := by
      refine (State.warp_modWarp ..).trans (if_pos ⟨rfl, ht, rfl, hw⟩)
    have hof : ((s.setCsr t i 0x030 v).team t).warpOf i = (s.team t).warpOf i := State.warpOf_modWarp ..
    have hread : (s.setCsr t i 0x030 v).csr t i 0x030 lane =
        ((s.setCsr t i 0x030 v).warp t (((s.setCsr t i 0x030 v).team t).warpOf i)).wtcmp.toNat := rfl
    rw [hread, hof, hwarp, hofNat]
  case spinn =>
    intro hrange
    exact (congrArg Ctx.spinn (hmodCtx _)).trans (if_pos hrange)
  case spinnKept =>
    intro hrange
    exact (congrArg Ctx.spinn (hmodCtx _)).trans (if_neg hrange)
  case reslim =>
    refine congrArg Team.reslim ((State.team_modTeam s t t _).trans (if_pos ⟨rfl, ht⟩))
  case instance_ =>
    intro x idx hx hlo hhi
    have hinst : (s.setCsr t i idx v).inst t (((s.setCsr t i idx v).team t).warpOf i) ((s.setCsr t i idx v).thread t i).level =
        some (x.setCsr idx v) := by
      rw [s.setCsr_inst t i v hlo hhi, State.modInst, State.warpOf_modWarp, State.thread_modWarp]
      exact State.inst_modInst hx fun y => y.setCsr_level idx v
    have hlevel : ((s.setCsr t i idx v).thread t i).level = (s.thread t i).level := by
      rw [s.setCsr_inst t i v hlo hhi, State.modInst, State.thread_modWarp]
    refine ⟨?_, fun j hjlo hjhi hj => ?_⟩
    · rw [State.csr_of_inst hinst (by omega) (by omega), if_neg (by omega), x.csr_setCsr_same hlo hhi hv]
    · rw [State.csr_of_inst hinst hjlo hjhi, State.csr_of_inst hx hjlo hjhi, hlevel, x.csr_setCsr_other hlo hhi hv hjlo hjhi hj]
  case bkpt =>
    intro b hb hlen
    have hread (f : Ctx → Ctx) : (s.modCtx (s.team t).ctx f).csr t i (0x060 + b) lane =
        ((f (s.ctx (s.team t).ctx)).bkpt.getD b 0).toNat := by
      rw [← hmodCtx f]
      interval_cases b <;> rfl
    have hset : s.setCsr t i (0x060 + b) v = s.modCtx (s.team t).ctx fun c =>
        { c with bkpt := c.bkpt.set b (BitVec.ofNat 64 (v / 8 * 8 + v % 2)) } := by
      interval_cases b <;> rfl
    rw [hset, hread, List.getD_eq_getElem?_getD, List.getElem?_set_self (by omega), Option.getD_some, BitVec.toNat_ofNat,
      Nat.mod_eq_of_lt (by omega)]

/-! ### SYS words (R308, R317, R319, R320, R323) -/

/-- What a switch answers before it begins. -/
theorem State.swEarly_eq (s : State) (c core : Nat) (out : Bool) : s.swEarly c core out =
    if (s.ctx c).valid = false ∨ (s.ctx c).part ≠ s.devPart core then some 1
    else if (s.ctx c).failed.isSome then some 3
    else if (s.ctx c).out.contains core = out then some 2 else none := by
  simp only [State.swEarly, Bool.not_eq_true, beq_iff_eq]

/-- Settles O41: both words take their effect once what they wait for is written. -/
theorem csrWordsReadAndWrite : Obligations.CsrWordsReadAndWrite := by
  unfold Obligations.CsrWordsReadAndWrite
  intro w n
  have hread (s : State) : exec (.rdcsr w) s = execRdcsr w s := rfl
  have hwrite (s : State) : exec (.wrcsr w) s = execWrcsr w s := rfl
  exact ⟨sysCompletes_of_body hread rfl fun s k ex _ => rfl, sysCompletes_of_body hwrite rfl fun s k ex _ => rfl⟩

/-- Settles O44: `swEarly` answers what a switch finds; else the switch is made once no team of the context moves. -/
theorem contextSwitchesOutAndIn : Obligations.ContextSwitchesOutAndIn := by
  unfold Obligations.ContextSwitchesOutAndIn
  intro w c status early stopped
  have hearly (s : State) (k : Iss) (out : Bool) : early s k out = s.swEarly c k.core out := (s.swEarly_eq c k.core out).symm
  have hexecOut (s : State) : exec (.ctxswOut w) s = execCtxswOut w s := rfl
  have hexecIn (s : State) : exec (.ctxswIn w) s = execCtxswIn w s := rfl
  simp only [hearly]
  refine ⟨?answered, ?out, ?back⟩
  case answered =>
    rintro v out i (⟨rfl, rfl⟩ | ⟨rfl, rfl⟩)
    · refine sysCompletes_of_body hexecOut rfl ?_
      rintro s k ex ⟨hne, hv⟩
      obtain ⟨j, js, rfl⟩ := List.exists_cons_of_ne_nil hne
      simp only [c] at hv
      simp only [hv]
      rfl
    · refine sysCompletes_of_body hexecIn rfl ?_
      rintro s k ex ⟨hne, hv⟩
      obtain ⟨j, js, rfl⟩ := List.exists_cons_of_ne_nil hne
      simp only [c] at hv
      simp only [hv]
      rfl
  case out =>
    refine sysCompletes_of_body hexecOut rfl ?_
    rintro s k ex ⟨hne, hgo, hstill⟩
    obtain ⟨j, js, rfl⟩ := List.exists_cons_of_ne_nil hne
    simp only [c] at hgo
    simp only [hgo]
    exact if_neg (by simpa using hstill)
  case back =>
    refine sysCompletes_of_body hexecIn rfl ?_
    rintro s k ex ⟨hne, hgo⟩
    obtain ⟨j, js, rfl⟩ := List.exists_cons_of_ne_nil hne
    simp only [c] at hgo
    simp only [hgo]
    rfl

/-! ### Collectives (R340 to R344) -/

/-- A collective none of whose checks fails starts an operation for each home warp, in the state that its release leaves. -/
theorem collective_completes {i : Instr} {op : Nat} {w : FX} (he : ∀ s, exec i s = collective i op w s) (hb : isBrk i = false)
    (r : State) : CompletesIf i w.c
      (fun s k ex => (∀ v ∈ s.warpsOf k.team ex, s.collCheck op w k.team v ((s.ofWarp k.team v ex).headD 0) = none ∧
        s.rival k.team (s.warpsOf k.team ex) v = false) ∧ s.release k.team ex = some r)
      fun _ k ex => (r.warpsOf k.team ex).foldl (fun (s : State) (v : Nat) => s.collStart k op w v (s.ofWarp k.team v ex)) r := by
  refine completesIf_of_body he hb ?_
  rintro s k ex ⟨hchecks, hrelease⟩
  have hpass : ((s.warpsOf k.team ex).filter fun v => (s.collCheck op w k.team v ((s.ofWarp k.team v ex).headD 0)).isNone) =
      s.warpsOf k.team ex := List.filter_eq_self.mpr fun v hv => by rw [(hchecks v hv).1]; rfl
  dsimp only
  rw [hpass, List.flatMap_eq_nil_iff.mpr]
  · exact State.releasing_of_release hrelease _
  · intro v hv
    simp only [(hchecks v hv).1, (hchecks v hv).2, Bool.false_eq_true, if_false]

/-- Settles O36: the six words are one with six operations. -/
theorem collectivesStartOperations : Obligations.CollectivesStartOperations := by
  unfold Obligations.CollectivesStartOperations
  intro w starts
  exact ⟨collective_completes (fun _ => rfl) rfl, collective_completes (fun _ => rfl) rfl,
    collective_completes (fun _ => rfl) rfl, collective_completes (fun _ => rfl) rfl,
    collective_completes (fun _ => rfl) rfl, collective_completes (fun _ => rfl) rfl⟩

end Sys2Proof.Machine
end

section
/-! Trap entry: a report whose vector is zero fails its context; and the entry of a report that names a product's stop, which
marks the stop as told. -/

namespace Sys2Proof.Machine

open Sys2Proof

/-! ### What leaves the contexts as they are (R272, R275, R277, R285, R307) -/

/-- A fold of steps that each leave the contexts. -/
theorem State.ctxs_foldl {α : Type} {f : State → α → State} (hf : ∀ (s : State) (a : α), (f s a).ctxs = s.ctxs) (l : List α)
    (s : State) : (l.foldl f s).ctxs = s.ctxs := by
  induction l generalizing s with
  | nil => rfl
  | cons a r ih => exact (ih (f s a)).trans (hf s a)
theorem State.WakesOnly.ctxs {s t : State} (h : s.WakesOnly t) : t.ctxs = s.ctxs := by rw [h.1]
theorem State.TeamsAndGroups.ctxs {s t : State} (h : s.TeamsAndGroups t) : t.ctxs = s.ctxs := h.wakes.ctxs

section
variable (s : State)

theorem State.ctxs_unpoison (l : Loc) (n : Nat) : (s.unpoison l n).ctxs = s.ctxs := by
  unfold State.unpoison
  split <;> rfl
theorem State.ctxs_wakeSectors (l : List Loc) : (s.wakeSectors l).ctxs = s.ctxs := (s.wakesOnly_wakeSectors l).ctxs
theorem State.ctxs_homePut (pa : Nat) (bytes : List Byte) : (s.homePut pa bytes).ctxs = s.ctxs :=
  (State.ctxs_wakeSectors _ _).trans (State.ctxs_unpoison _ _ _)
theorem State.ctxs_land (st : Store) : (s.land st).ctxs = s.ctxs := by
  unfold State.land
  dsimp only
  split <;> exact State.ctxs_homePut _ _ _
theorem State.ctxs_ackAll (l : List Store) : (s.ackAll l).ctxs = s.ctxs :=
  State.ctxs_foldl (fun s _ => State.ctxs_foldl (fun s x => s.ctxs_land x) _ s) l s
theorem State.ctxs_homeWrite (pa : Nat) (bytes : List Byte) : (s.homeWrite pa bytes).ctxs = s.ctxs :=
  (State.ctxs_homePut _ _ _).trans (s.ctxs_ackAll _)
theorem State.ctxs_hostPut (p a : Nat) (bytes : List Byte) : (s.hostPut p a bytes).ctxs = s.ctxs :=
  (State.ctxs_wakeSectors _ _).trans (State.ctxs_unpoison _ _ _)
theorem State.ctxs_wakeSync (t : Nat) : (s.wakeSync t).ctxs = s.ctxs := by
  unfold State.wakeSync
  dsimp only
  split
  · rfl
  · refine (State.teamsAndGroups_unblock _ _ _ _).ctxs.trans (State.ctxs_foldl (fun s i => ?_) _ s)
    rfl
theorem State.ctxs_padPut (t off : Nat) (bytes : List Byte) : (s.padPut t off bytes).ctxs = s.ctxs :=
  (State.ctxs_wakeSectors _ _).trans ((State.ctxs_wakeSync _ _).trans (State.ctxs_unpoison _ _ _))
theorem State.ctxs_writeLoc (o : Owner) (l : Loc) (bytes : List Byte) (bad : Bool) :
    (s.writeLoc o l bytes bad).ctxs = s.ctxs := by
  have hmark (s : State) : (if bad then s.mark l bytes.length else s).ctxs = s.ctxs := by split <;> rfl
  cases l with
  | mem pa => exact (hmark _).trans (s.ctxs_homeWrite pa bytes)
  | host p a => exact (hmark _).trans (s.ctxs_hostPut p a bytes)
  | peer pa => exact State.ctxs_wakeSectors _ _
  | pad t off => exact (hmark _).trans (s.ctxs_padPut t off bytes)
  | away t va => rfl

theorem State.ctxs_fqPut (part f0 f1 f2 : Nat) : (s.fqPut part f0 f1 f2).ctxs = s.ctxs := s.ctxs_writeLoc _ _ _ _
theorem State.ctxs_fqDrain (part : Nat) : (s.fqDrain part).ctxs = s.ctxs := by
  unfold State.fqDrain
  refine (State.ctxs_foldl (fun s m => ?_) _ _).trans (State.ctxs_foldl (fun s r => ?_) _ s) <;> split
  · exact s.ctxs_fqPut _ _ _ _
  · rfl
  · exact s.ctxs_fqPut _ _ _ _
  · rfl
theorem State.ctxs_fqRecord (part f0 f1 f2 : Nat) : (s.fqRecord part f0 f1 f2).ctxs = s.ctxs := State.ctxs_fqDrain _ _
theorem State.ctxs_noteDry (part ctx : Nat) (dry : List Nat) (a : Touch) : (s.noteDry part ctx dry a).ctxs = s.ctxs := by
  unfold State.noteDry
  split
  · rfl
  · dsimp only
    split
    · exact State.ctxs_fqRecord _ _ _ _ _
    · rfl
theorem State.ctxs_request (die ctx : Nat) (key : PageKey) (exec write : Bool) :
    (s.request die ctx key exec write).ctxs = s.ctxs := by
  have hfar : (s.askFar key).ctxs = s.ctxs := by
    unfold State.askFar
    split <;> rfl
  unfold State.request
  dsimp only
  split
  · exact hfar
  · split
    · rfl
    · split
      · rfl
      · exact State.ctxs_fqDrain _ _
theorem State.ctxs_requestAll (die ctx : Nat) (keys : List PageKey) (exec write : Bool) :
    (s.requestAll die ctx keys exec write).ctxs = s.ctxs := State.ctxs_foldl (fun s _ => s.ctxs_request _ _ _ _ _) keys s

theorem State.ctxs_orEntry (pte : Loc) (mask : Nat) : (s.orEntry pte mask).ctxs = s.ctxs := by
  cases pte with
  | mem pa =>
    unfold State.orEntry
    dsimp only
    split
    · exact s.ctxs_ackAll _
    · exact (State.ctxs_homeWrite _ _ _).trans (s.ctxs_ackAll _)
  | host p a =>
    unfold State.orEntry
    dsimp only
    split
    · rfl
    · exact s.ctxs_hostPut _ _ _
  | peer pa => rfl
  | pad t off => rfl
  | away t va => rfl
theorem State.ctxs_absent (key : PageKey) (leaf : Option Tlb) : (s.absent key leaf).1.ctxs = s.ctxs := by
  unfold State.absent
  split <;> rfl
theorem State.ctxs_walkPage (core ctx va : Nat) (a : Touch) : (s.walkPage core ctx va a).1.ctxs = s.ctxs := by
  have hread (part : Nat) (dry : List Nat) (l : List Loc) :
      (l.foldl (fun s pte => s.orEntry pte 0x20) ((s.farDrop 0 0).noteDry part ctx dry a)).ctxs = s.ctxs :=
    (State.ctxs_foldl (fun s pte => s.ctxs_orEntry pte _) l _).trans (State.ctxs_noteDry _ _ _ _ _)
  unfold State.walkPage
  dsimp only
  split
  · rfl
  · exact State.ctxs_absent _ _ _
  · rfl
  · split
    · rfl
    · rfl
    · exact State.ctxs_absent _ _ _
    · dsimp only
      split <;> exact hread _ _ _
theorem State.ctxs_translate (core ctx va : Nat) (a : Touch) : (s.translate core ctx va a).1.ctxs = s.ctxs := by
  unfold State.translate
  dsimp only
  split
  · rfl
  · split
    · rfl
    · exact s.ctxs_walkPage _ _ _ _
theorem State.ctxs_setDirty (x : Tlb) : (s.setDirty x).ctxs = s.ctxs := by
  unfold State.setDirty
  split
  · rfl
  · exact (State.ctxs_orEntry _ _ _).trans (s.ctxs_orEntry _ _)
theorem State.ctxs_hostOk (x : Tlb) (a : Touch) : (s.hostOk x a).1.ctxs = s.ctxs := by
  grind [State.hostOk]
theorem State.ctxs_checks69 (core ctx : Nat) (priv : Bool) (va : Nat) (a : Touch) (fmt : Tlb → Bool) :
    (s.checks69 core ctx priv va a fmt).1.ctxs = s.ctxs := by
  grind [State.checks69, State.ctxs_translate, State.ctxs_hostOk, State.ctxs_setDirty]
theorem State.ctxs_probeCtx (ctx va size : Nat) (a : Touch) : (s.probeCtx ctx va size a).1.ctxs = s.ctxs := by
  unfold State.probeCtx
  split
  · rfl
  · exact s.ctxs_checks69 _ _ _ _ _ _

theorem State.ctxs_interrupt (q v : Nat) : (s.interrupt q v).ctxs = s.ctxs := by
  grind [State.interrupt, State.ctxs_hostPut, State.emit]
theorem State.ctxs_coalesce (q v : Nat) : (s.coalesce q v).ctxs = s.ctxs := by
  unfold State.coalesce
  dsimp only
  split
  · exact State.ctxs_interrupt _ _ _
  · rfl
theorem State.ctxs_completeNow (q : Nat) (p : Packet) (status : Nat) : (s.completeNow q p status).ctxs = s.ctxs := by
  grind [State.completeNow, State.ctxs_probeCtx, State.ctxs_coalesce, State.ctxs_writeLoc, State.ctxs_requestAll,
    State.ctxs_interrupt, State.errorInt, State.setErr, State.modIface]

theorem State.ctxs_migratePage (part page ctx : Nat) (exec write : Bool) :
    (s.migratePage part page ctx exec write).ctxs = s.ctxs := by
  have hcopy (s : State) (old new : Nat) : (s.copyFrame old new).ctxs = s.ctxs := s.ctxs_ackAll _
  unfold State.migratePage
  split
  · dsimp only
    split
    · rfl
    · exact (State.ctxs_fqRecord _ _ _ _ _).trans ((State.ctxs_writeLoc _ _ _ _ _).trans (hcopy _ _ _))
  · rfl
theorem State.ctxs_ipaTouch (part ctx ipa : Nat) (write : Bool) : (s.ipaTouch part ctx ipa write).ctxs = s.ctxs := by
  grind [State.ipaTouch, State.ctxs_migratePage, State.ctxs_noteDry]
theorem State.ctxs_failComms (c : Nat) : (s.failComms c).ctxs = s.ctxs := by
  have hsend (s : State) (k : Comm) (b : Bool) (m : FMsg) : (s.sendTag k b m).ctxs = s.ctxs := by
    unfold State.sendTag
    split <;> rfl
  unfold State.failComms
  refine State.ctxs_foldl (fun s k => ?_) _ _
  dsimp only
  split
  · exact State.ctxs_foldl (fun s _ => hsend s _ _ _) _ s
  · exact hsend _ _ _ _
theorem State.ctxs_wakeAgree : s.wakeAgree.ctxs = s.ctxs := by
  refine State.ctxs_foldl (fun s t => ?_) _ s
  dsimp only
  split
  · rfl
  · exact (State.teamsAndGroups_tidy _ _).ctxs.trans (s.teamsOnly_wake _ _ _).weaken.ctxs

end

/-- Failing a context that is valid and has not failed leaves the cause (R307, R330). -/
theorem State.failed_failContext {s : State} {c : Nat} (hvalid : (s.ctx c).valid = true) (hfailed : (s.ctx c).failed = none)
    (cause : Nat) (b : Blame) : ((s.failContext c cause b).ctx c).failed = some cause := by
  have hctxs : (s.failContext c cause b).ctxs = (s.modCtx c fun x => { x with failed := some cause }).ctxs := by
    have hpacket (s : State) (q : Nat) (p : Packet) : (let r := s.completeNow q p stFailed
        if bits (p.words.getD 0 0).toNat 8 8 = 1 then r.errorInt q else r).ctxs = s.ctxs := by
      dsimp only
      split
      · exact (State.ctxs_interrupt _ _ _).trans (s.ctxs_completeNow q p _)
      · exact s.ctxs_completeNow q p _
    have hrecord (s : State) (l : Option Loc) (bytes : List Byte) :
        (match l with | some l => s.writeLoc noOwner l bytes false | none => s).ctxs = s.ctxs := by
      cases l with
      | some l => exact s.ctxs_writeLoc _ _ _ _
      | none => rfl
    have hwork (s : State) : ((s.discard c).wakeAllocs.failComms c).wakeAgree.ctxs = s.ctxs :=
      (State.ctxs_wakeAgree _).trans ((State.ctxs_failComms _ _).trans (State.teamsAndGroups_wakeAll _ _ _).ctxs)
    unfold State.failContext
    dsimp only
    rw [if_neg (by simp [hvalid, hfailed])]
    refine (hrecord _ _ _).trans ((State.ctxs_ipaTouch _ _ _ _ _).trans (Eq.trans ?_ (hwork _)))
    exact State.ctxs_foldl (fun s q => State.ctxs_foldl (fun s p => hpacket s q p) _ s) _ _
  have hin : c < s.ctxs.length := by
    by_contra hout
    rw [State.ctx, List.getD_eq_default _ _ (Nat.not_lt.mp hout)] at hvalid
    cases hvalid
  have hctx : (s.failContext c cause b).ctx c = (s.modCtx c fun x => { x with failed := some cause }).ctx c :=
    congrArg (fun l : List Ctx => l.getD c default) hctxs
  rw [hctx, State.ctx_modCtx, if_pos ⟨rfl, hin⟩]

/-! ### Entry (R294 to R305) -/

/-- Settles O39: with its vector zero, entry does nothing but fail the context. -/
theorem zeroVectorFailsTheContext : Obligations.ZeroVectorFailsTheContext := by
  unfold Obligations.ZeroVectorFailsTheContext
  intro s t w r lead rest c hraised hspec hlevel hinst hvalid hfailed
  constructor
  · intro hemu hvec
    have henter : ∃ b, s.enter t w r = s.failContext c cUndefined b := by
      unfold State.enter
      simp only [hraised, hspec, hinst, hemu, if_true]
      exact ⟨_, (if_neg (by omega)).trans ((if_neg (by simp)).trans (if_pos hvec))⟩
    obtain ⟨b, hb⟩ := henter
    rw [hb]
    exact State.failed_failContext hvalid hfailed _ _
  · intro e l hemu hvec hreps
    have henter : ∃ b, s.enter t w r = s.failContext c e.2.code b := by
      unfold State.enter
      simp only [hraised, hspec, hinst, hemu, hreps, Option.isSome_none, Bool.false_eq_true, if_false]
      exact ⟨_, (if_neg (by omega)).trans (if_pos hvec)⟩
    obtain ⟨b, hb⟩ := henter
    rw [hb]
    exact State.failed_failContext hvalid hfailed _ _

/-- A clause at 0x10000 of a word that decodes to nothing. -/
def trapClause : Clause := { addr := 0x10000, header := 0x0000000000000000, words := [0], brk := [0, 0, 0, 0] }
/-- Tables of both stages that map the first GiB to itself (R266 to R268). -/
def identityTables : List (Nat × Nat) :=
  [(0x1000, 0x20F01), (0x2000, 0x30F01), (0x3000, 0x67), (0x4000, 0x50F01), (0x5000, 0x60F01), (0x6000, 0x67)]
/-- A bank of core 0 that holds the fault of stop 7, which no trap has reported (R144). -/
def stoppedBank : AccBank :=
  { owner := none, words := [], fault := some ({ code := 0x1E, addr := 0, row := 0, stop := 7, told := false }, default) }
/-- A team of one thread whose visible area lies at 0x10800, with a trap vector, and that bank. -/
def stopPending : State :=
  let s := (State.reset.placeWord trapClause).modTeam 0 fun m => { m with visible := 0x10800 }
  let s := { s with mem := identityTables.foldl (fun (m : Memory) (e : Nat × Nat) => m.writeN e.1 (leBytes 8 e.2)) s.mem }
  let s := (s.modCtx 0 fun x => { x with s1root := 0x4000, trapvec := 0x10400 }).modPart 0 fun x => { x with s2root := 0x1000 }
  s.modBank 0 0 0 fun _ => stoppedBank
/-- The report of that stop, for the thread at 0x10000. -/
def stopReport : Report := { threads := [0], raised := [0], reps := [(0, { code := 0x1E })], epc := 0x10000, stop := some 7 }
/-- Whether the fault of bank 0 has been reported. -/
def State.toldStop (s : State) : Option Bool := (s.bank 0 0 0).fault.map fun (e : BankFault × Product) => e.1.told
/-- The state and the places that the probes of its record leave. -/
def stopProbes : State × List Probe := (stopPending.settleAll 0 [0]).probeAreas 0 [0x10800]

/-- Entry marks the stop as reported. -/
theorem toldStop_enter : (stopPending.enter 0 0 stopReport).toldStop = some true := by decide +kernel

/-- Refutes O40: the report of a product's stop (R144). Its entry marks the fault of the stop in its bank as reported, so that no
second trap reports it, and the statement's state leaves the bank as it was. -/
theorem not_trapEntryVectorsTheHomeWarp : ¬ Obligations.TrapEntryVectorsTheHomeWarp := by
  unfold Obligations.TrapEntryVectorsTheHomeWarp
  intro h
  have henter := h stopPending stopProbes.1 0 0 stopReport 0 [] (0, { code := 0x1E }) [] stopProbes.2 (by decide +kernel)
    (by decide +kernel) (by decide +kernel) (by decide +kernel) (by decide +kernel) (by decide +kernel) (by decide +kernel)
    (by decide +kernel) (by decide +kernel) (by decide +kernel)
  have htold := congrArg State.toldStop henter
  rw [toldStop_enter] at htold
  revert htold
  decide +kernel

end Sys2Proof.Machine
end

section
/-! What arrives from the fabric: peer requests and answers, joins, the messages of the agreement, chunks and CBAR messages. -/

namespace Sys2Proof.Machine

open Sys2Proof

/-! ### Peer requests and answers (R334, R335) -/

/-- The local address of a fabric address. -/
theorem localPa_eq (a : Nat) : localPa a = a % 2 ^ 41 := by simp [localPa, bits]

theorem State.peerRequest_load (s : State) (chip tag : Nat) {a n : Nat} (hn : 0 < n)
    (hpa : paMemory (a % 2 ^ 41 + n - 1) = true) : let r := s.homeBytes (.mem (a % 2 ^ 41)) n
    s.peerRequest chip tag (.load a n) = r.1.send (.mrsp chip tag r.2 (r.1.poisoned (.mem (a % 2 ^ 41)) n)) := by
  rw [State.peerRequest, localPa_eq]
  exact if_neg (not_or.mpr ⟨by omega, not_not_intro hpa⟩)
theorem State.peerRequest_store (s : State) (chip tag : Nat) {a : Nat} {bytes : List Byte} (bad : Bool) (hbytes : bytes ≠ [])
    (hpa : paMemory (a % 2 ^ 41 + bytes.length - 1) = true) : let r := s.homeWrite (a % 2 ^ 41) bytes
    s.peerRequest chip tag (.store a bytes bad) =
      (if bad then r.mark (.mem (a % 2 ^ 41)) bytes.length else r).send (.mrsp chip tag [] false) := by
  rw [State.peerRequest, localPa_eq]
  exact if_neg (not_or.mpr ⟨by simpa using hbytes, not_not_intro hpa⟩)
theorem State.peerRequest_atom (s : State) (chip tag : Nat) {a wid : Nat} (aop b : Nat) (hwid : 0 < wid)
    (hpa : paMemory (a % 2 ^ 41 + wid - 1) = true) : let r := s.homeBytes (.mem (a % 2 ^ 41)) wid
    s.peerRequest chip tag (.atom a wid aop b) =
      if r.1.poisoned (.mem (a % 2 ^ 41)) wid then r.1.send (.mrsp chip tag r.2 true)
      else (r.1.homeWrite (a % 2 ^ 41) (leBytes wid (atomResult aop (8 * wid) (leValue r.2) b))).send
        (.mrsp chip tag r.2 false) := by
  rw [State.peerRequest, localPa_eq]
  exact if_neg (not_or.mpr ⟨by omega, not_not_intro hpa⟩)

section
variable {s : State} {tag : Nat} {r : PeerReq} (hr : (s.peers.find? fun r => r.tag == tag) = some r)
include hr

/-- The answer of a request that brings 8 bytes to no thread (R335). -/
theorem State.peerAnswer_data (data : List Byte) (bad : Bool) {key : PageKey} {stale : Bool} (hrole : r.role = .data key stale) :
    s.peerAnswer tag data bad =
      ({ s with peers := s.peers.filter fun x => x.tag != tag } : State).answerData r key stale data bad := by
  simp only [State.peerAnswer, hr, hrole]
/-- The acknowledgement of a store that no command made. -/
theorem State.peerAnswer_ack (data : List Byte) (bad : Bool) (hrole : ∀ key stale, r.role ≠ .data key stale)
    (hwaits : r.waits = false) (hcmd : r.cmd = 0) :
    s.peerAnswer tag data bad = { s with peers := s.peers.filter fun x => x.tag != tag } := by
  unfold State.peerAnswer
  rw [hr]
  dsimp only
  split
  · next key stale h => exact absurd h (hrole key stale)
  · simp [hwaits, hcmd]
/-- Poisoned data is consumed (R314). -/
theorem State.peerAnswer_poisoned (data : List Byte) (hrole : ∀ key stale, r.role ≠ .data key stale) (hwaits : r.waits = true) :
    s.peerAnswer tag data true = let q := s.consume (s.team r.team).core (.peer r.pa)
      { q with peers := q.peers.filter fun x => x.tag != tag } := by
  unfold State.peerAnswer
  rw [hr]
  dsimp only
  split
  · next key stale h => exact absurd h (hrole key stale)
  · simp [hwaits]
/-- The bytes of an element or an old value become a result. -/
theorem State.peerAnswer_bytes (data : List Byte) (hrole : r.role = .bytes) (hwaits : r.waits = true) :
    s.peerAnswer tag data false =
      ({ s with peers := s.peers.filter fun x => x.tag != tag } : State).answerValue r (r.how.value data r.scale) := by
  simp [State.peerAnswer, hr, hrole, hwaits]

end

/-! ### Joins and messages of the agreement (R339, R345, R346) -/

/-- A tag of no open communicator. -/
theorem State.commTag_eq_none {s : State} {ftag : Nat} (h : ∀ c ∈ s.comms, c.ftag ≠ ftag) : s.commTag ftag = none :=
  List.find?_eq_none.mpr fun c hc => by simpa using h c hc

section
variable {s : State} {ftag : Nat} {c : Comm} (hc : s.commTag ftag = some c)
include hc

theorem State.joinAt_root (chip : Nat) (hroot : s.isRoot c = true) : s.joinAt ftag chip =
    (c.held.filter fun m => m.to_ chip).foldl (fun (r : State) (m : FMsg) => r.sendTag c true m) ((s.modComm c.slot fun x =>
      { x with joined := if x.joined.contains chip then x.joined else x.joined ++ [chip],
               held := x.held.filter fun m => !m.to_ chip }).send (.joinAck ftag chip)) := by
  rw [State.joinAt, hc]
  exact if_neg (by simp [hroot])
theorem State.notOpen_join : s.notOpen ftag none = s.modComm c.slot fun x => { x with acked := x.acked && s.isRoot c } := by
  rw [State.notOpen, hc]
  rfl
theorem State.notOpen_sent {n : Nat} {m : FMsg} (hm : c.sent[n]? = some m) : s.notOpen ftag (some n) = s.modComm c.slot fun x =>
    { x with acked := x.acked && s.isRoot c, joined := c.parted m, sent := x.sent.eraseIdx n, held := x.held ++ [m] } := by
  simp [State.notOpen, hc, hm]
theorem State.joinAcked_open (hroot : s.isRoot c = false) (hacked : c.acked = false) : s.joinAcked ftag =
    c.held.foldl (fun (r : State) (m : FMsg) => r.sendTag c true m)
      (s.modComm c.slot fun x => { x with acked := true, held := [] }) := by
  rw [State.joinAcked, hc]
  exact if_neg (by simp [hroot, hacked])
theorem State.contribution_root {n lo hi : Nat} (a : Bool) {v : Option Bool} (p : Bool) (hfailed : c.failed = false)
    (hroot : s.isRoot c = true) (hlo : lo < hi) (hhi : hi ≤ c.nrank) (hopen : (c.seqInfo n).outcome = none ∨ v = none) :
    let later := if v = none then (c.agree.map Agree.seq).filter fun k => decide (n < k) else []
    s.contribution ftag n lo hi a v p = (n :: later).foldl (fun (r : State) (k : Nat) => r.tryDecide c.slot k)
      (s.modComm c.slot fun x => x.modSeq n fun e => { e with parts := e.parts ++ [(lo, hi, a, v, p)] }) := by
  have hgo : ¬ (c.failed ∨ hi ≤ lo ∨ c.nrank < hi ∨ ((¬ s.isRoot c ∨ (c.seqInfo n).outcome.isSome) ∧ v.isSome)) := by
    rcases hopen with hopen | hopen <;> simp [hfailed, hroot, hopen] <;> omega
  have hstays (f : Comm → Comm) : ¬ ¬ (s.modComm c.slot f).isRoot c = true := not_not_intro hroot
  rw [State.contribution, hc]
  refine (if_neg hgo).trans ((if_neg (hstays _)).trans ?_)
  cases v <;> rfl
theorem State.decision_taken {n : Nat} {o : BitVec 3} (p : Bool) (hfailed : c.failed = false) (hroot : s.isRoot c = false)
    (ho : o = 1 ∨ o = 2 ∨ o = 3) (hopen : (c.seqInfo n).outcome = none) : s.decision ftag n o p =
    (s.modComm c.slot fun x => x.modSeq n fun e => { e with outcome := some (o, p) }).deliver c.slot n := by
  rcases ho with rfl | rfl | rfl <;> simp [State.decision, hc, hfailed, hroot, hopen]
theorem State.decision_lost (n : Nat) (p : Bool) (hfailed : c.failed = false) : s.decision ftag n 4 p = s.loseComm c.slot p := by
  simp [State.decision, hc, hfailed]

end

/-! ### Collectives (R341, R343, R344) -/

/-- A chunk for which another rank has issued another operation fails the communicator. -/
theorem State.collChunk_mismatch {s : State} {slot k : Nat} {c : Comm} (n : Nat)
    {remote : List (Nat × OpSig × List (Byte × Bool))}
    {o : CollOp} {x : Nat × OpSig × List (Byte × Bool)} (hc : s.comm slot = some c) (hfailed : c.failed = false)
    (ho : o ∈ c.ops) (hk : o.k = k) (hx : x ∈ remote) (hsig : x.2.1 ≠ o.sig) :
    s.collChunk slot k n remote = s.failComm slot := by
  have hother : (c.ops.any fun o => o.k == k && remote.any fun r => r.2.1 != o.sig) = true := by
    refine List.any_eq_true.mpr ⟨o, ho, ?_⟩
    rw [hk, beq_self_eq_true, Bool.true_and]
    exact List.any_eq_true.mpr ⟨x, hx, by simpa using hsig⟩
  simp [State.collChunk, hc, hfailed, hother]

/-- A rank's bytes of a chunk of an operation: none where it has no leaf. -/
def CollOp.leafAt (n : Nat) (o : CollOp) : Option Leaf := match o.bytes with
  | some [] => none
  | some l => some (o.rank, (l.drop (65536 * n)).take 65536)
  | none => none
/-- The parts of a chunk that the ranks of other chips have sent. -/
def Comm.farLeaves (c : Comm) (remote : List (Nat × OpSig × List (Byte × Bool))) : List Leaf :=
  (remote.filter fun x => decide (x.1 < c.nrank) && !(decide (c.rbase ≤ x.1) && decide (x.1 < c.rbase + c.rcnt))).map
    fun x => (x.1, x.2.2)
/-- This chip's parts of a chunk that it has not sent go to each of the others. -/
def State.tellChunk (s : State) (c : Comm) (k n : Nat) : State :=
  (c.others s.mgmt.chip).foldl (fun (r : State) (_ : Nat) =>
    ((c.ops.filter fun o => o.k == k).filter fun o => !o.told.contains n).foldl (fun (r : State) (o : CollOp) => match o.leafAt n with
      | some l => r.send (.chunk c.ftag k n l.1 o.sig l.2)
      | none => r) r) s
/-- A chunk of an operation that every rank of this chip has issued, whose sources are all read, is sent on and combined. -/
theorem State.collChunk_combines {s : State} {slot k : Nat} {c d : Comm} (n : Nat)
    {remote : List (Nat × OpSig × List (Byte × Bool))} (hc : s.comm slot = some c) (hfailed : c.failed = false)
    (hsame : ∀ o ∈ c.ops, o.k = k → ∀ x ∈ remote, x.2.1 = o.sig) (hready : c.localReady k = true)
    (hdata : ∀ o ∈ c.ops, o.k = k → o.bare = false) :
    let r := (c.ops.filter fun o => o.k == k).foldl (fun (r : State) (o : CollOp) => r.readLeaf slot o) s
    r.comm slot = some d → (∀ o ∈ d.ops.filter fun o => o.k == k, o.bytes.isSome = true) →
    s.collChunk slot k n remote = (d.ops.filter fun o => o.k == k).foldl (fun (r : State) (o : CollOp) =>
        r.chunkAt slot n ((d.ops.filter fun o => o.k == k).filterMap (CollOp.leafAt n) ++ d.farLeaves remote) o)
      ((r.tellChunk d k n).modComm slot fun x => { x with ops := x.ops.map fun o =>
        if o.k = k ∧ ¬(o.told.contains n) then { o with told := o.told ++ [n] } else o }) := by
  intro r hd hread
  have hother : (c.ops.any fun o => o.k == k && remote.any fun x => x.2.1 != o.sig) = false :=
    List.any_eq_false.mpr fun o ho => by
      rw [Bool.and_eq_true, beq_iff_eq]
      rintro ⟨hk, hx⟩
      obtain ⟨x, hx, hsig⟩ := List.any_eq_true.mp hx
      exact bne_iff_ne.mp hsig (hsame o ho hk x hx)
  have hbare : ((c.ops.filter fun o => o.k == k).any CollOp.bare) = false :=
    List.any_eq_false.mpr fun o ho => by
      obtain ⟨ho, hk⟩ := List.mem_filter.mp ho
      simp [hdata o ho (by simpa using hk)]
  have hunread : ((d.ops.filter fun o => o.k == k).any fun o => o.bytes.isNone) = false :=
    List.any_eq_false.mpr fun o ho => by simp [Option.isSome_iff_ne_none.mp (hread o ho)]
  have hmissing : ¬ ((d.ops.filter fun o => o.k == k).any fun o => o.bytes.isNone) = true := by
    rw [hunread]
    exact Bool.false_ne_true
  unfold State.collChunk
  rw [hc]
  dsimp only
  rw [if_neg (by simp [hfailed]), if_neg (by rw [hother]; exact Bool.false_ne_true), if_neg (not_not_intro hready),
    if_neg (by rw [hbare]; exact Bool.false_ne_true)]
  change (match r.comm slot with | none => _ | some c => _) = _
  rw [hd]
  exact (if_neg hmissing).trans rfl

section
variable {s : State} {slot k rank : Nat} {sig : OpSig} {c : Comm} (hc : s.comm slot = some c) (hfailed : c.failed = false)
  (hrank : rank < c.nrank) (hfar : rank < c.rbase ∨ c.rbase + c.rcnt ≤ rank)
include hc hfailed hrank hfar

/-- A CBAR message of another operation than this chip's fails the communicator. -/
theorem State.barArrive_mismatch (h : (∃ o ∈ c.ops, o.k = k ∧ o.sig ≠ sig) ∨ ∃ b ∈ c.past, b.1 = k ∧ b.2 ≠ sig) :
    s.barArrive slot k rank sig = s.failComm slot := by
  have hother : ((c.ops.any fun o => o.k == k && o.sig != sig) || (c.cbars.any fun b => b.1 == k && b.2.2 != sig) ||
      (c.past.any fun b => b.1 == k && b.2 != sig)) = true := by
    rcases h with ⟨o, ho, hk, hsig⟩ | ⟨b, hb, hk, hsig⟩
    · rw [List.any_eq_true.mpr ⟨o, ho, by simp [hk, hsig]⟩, Bool.true_or, Bool.true_or]
    · rw [List.any_eq_true.mpr ⟨b, hb, by simp [hk, hsig]⟩, Bool.or_true]
  rw [State.barArrive, hc]
  exact (if_neg (by simp [hfailed]; omega)).trans (if_pos hother)
/-- One of the same operation counts. -/
theorem State.barArrive_counts (hops : ∀ o ∈ c.ops, o.k = k → o.sig = sig) (hcbars : ∀ b ∈ c.cbars, b.1 = k → b.2.2 = sig)
    (hpast : ∀ b ∈ c.past, b.1 = k → b.2 = sig) : s.barArrive slot k rank sig = ((s.modComm slot fun x =>
        { x with cbars := if x.cbars.contains (k, rank, sig) then x.cbars else x.cbars ++ [(k, rank, sig)] }).modComm slot fun x =>
          if (x.past.any fun b => b.1 == k) && x.remoteBars k
          then { x with past := x.past.filter fun b => b.1 != k, cbars := x.cbars.filter fun b => b.1 != k } else x).barTry slot k := by
  have hsame : ((c.ops.any fun o => o.k == k && o.sig != sig) || (c.cbars.any fun b => b.1 == k && b.2.2 != sig) ||
      (c.past.any fun b => b.1 == k && b.2 != sig)) = false := by
    rw [List.any_eq_false.mpr fun o ho => by simpa using hops o ho, List.any_eq_false.mpr fun b hb => by simpa using hcbars b hb,
      List.any_eq_false.mpr fun b hb => by simpa using hpast b hb]
    rfl
  rw [State.barArrive, hc]
  exact (if_neg (by simp [hfailed]; omega)).trans (if_neg (by rw [hsame]; exact Bool.false_ne_true))

end

/-- Settles O52: each message, where its tests pass, does what the lemma of its kind says. -/
theorem fabricMessagesAct : Obligations.FabricMessagesAct := by
  unfold Obligations.FabricMessagesAct
  intro s sends
  refine ⟨?load, ?store, ?atom, ?answer, ?closed, ?opened, ?chunk, ?mismatch, ?aging, ?cbar, ?lost, ?retry⟩
  case load => exact fun chip tag a n hn hpa => congrArg Host.Outcome.next (s.peerRequest_load chip tag hn hpa)
  case store => exact fun chip tag a bytes bad hne hpa => congrArg Host.Outcome.next (s.peerRequest_store chip tag bad hne hpa)
  case atom => exact fun chip tag a wid aop b hwid hpa => congrArg Host.Outcome.next (s.peerRequest_atom chip tag aop b hwid hpa)
  case answer =>
    intro tag data bad r hr left
    refine ⟨fun hrole => ⟨fun hwaits hcmd => ?_, fun hwaits hbad => ?_⟩, fun key hrole hkey => ?_, fun hwaits hbad hrole => ?_⟩
    · exact congrArg Host.Outcome.next (State.peerAnswer_ack hr data bad hrole hwaits hcmd)
    · subst hbad
      exact congrArg Host.Outcome.next (State.peerAnswer_poisoned hr data hrole hwaits)
    · refine congrArg Host.Outcome.next ((State.peerAnswer_data hr data bad hrole).trans ?_)
      simp only [State.answerData, Bool.false_eq_true, if_false, if_neg hkey]
      rfl
    · subst hbad
      exact congrArg Host.Outcome.next (State.peerAnswer_bytes hr data hrole hwaits)
  case closed =>
    intro ftag hnone
    have hc : s.commTag ftag = none := State.commTag_eq_none hnone
    refine ⟨fun chip => congrArg Host.Outcome.next ?_, fun n lo hi a v p => congrArg Host.Outcome.next ?_,
      fun n => congrArg Host.Outcome.next ?_, fun n o p => congrArg Host.Outcome.next ?_⟩
    · rw [State.joinAt, hc]; rfl
    · rw [State.contribution, hc]; rfl
    · rw [hc]; rfl
    · rw [State.decision, hc]; rfl
  case opened =>
    intro ftag c hc
    refine ⟨?join, ?refused, ?refusedSent, ?acked, ?again, ?subtree, ?abort, ?decided, ?ended⟩
    case join => exact fun chip hroot => congrArg Host.Outcome.next (State.joinAt_root hc chip hroot)
    case refused => exact congrArg Host.Outcome.next (State.notOpen_join hc)
    case refusedSent => exact fun n m hm => congrArg Host.Outcome.next (State.notOpen_sent hc hm)
    case acked => exact fun hroot hacked => congrArg Host.Outcome.next (State.joinAcked_open hc hroot hacked)
    case again =>
      intro hroot hacked hclk
      refine congrArg Host.Outcome.next ?_
      rw [hc]
      exact if_neg (by simp [hroot, hacked]; omega)
    case subtree =>
      exact fun n lo hi a v p hfailed hroot hlo hhi hopen =>
        congrArg Host.Outcome.next (State.contribution_root hc a p hfailed hroot hlo hhi hopen)
    case abort =>
      intro n hfailed hroot
      refine congrArg Host.Outcome.next ?_
      rw [hc]
      exact if_neg (by simp [hfailed, hroot])
    case decided =>
      exact fun n o p hfailed hroot ho hopen => congrArg Host.Outcome.next (State.decision_taken hc p hfailed hroot ho hopen)
    case ended => exact fun n p hfailed => congrArg Host.Outcome.next (State.decision_lost hc n p hfailed)
  case chunk =>
    intro slot k n remote c hc hfailed hsame hready hdata r d hd here hread leaf far told heard
    exact congrArg Host.Outcome.next (State.collChunk_combines n hc hfailed hsame hready hdata hd hread)
  case mismatch =>
    exact fun slot k n remote c o x hc hfailed ho hk hx hsig =>
      congrArg Host.Outcome.next (State.collChunk_mismatch n hc hfailed ho hk hx hsig)
  case aging => exact fun slot k => rfl
  case cbar =>
    intro slot k rank sig c hc hfailed hrank hfar
    exact ⟨fun hother => congrArg Host.Outcome.next (State.barArrive_mismatch hc hfailed hrank hfar hother),
      fun hops hcbars hpast => congrArg Host.Outcome.next (State.barArrive_counts hc hfailed hrank hfar hops hcbars hpast)⟩
  case lost => exact fun chips => rfl
  case retry => exact fun port => rfl

end Sys2Proof.Machine
end

section
/-! Every step keeps the canonical form of memory: the rules of the shared operations. Device memory is written by `homePut`, by a
migration and by the clearing of an area, a scratchpad by `padPut` and by its return; everything else leaves both. -/

namespace Sys2Proof.Machine

open Sys2Proof

/-! ### Changes of a team (R13, R17, R19) -/

theorem State.memOk.foldl {α : Type} {s : State} (h : s.memOk) {l : List α} {f : State → α → State}
    (hf : ∀ (r : State) (a : α), r.memOk → (f r a).memOk) : (l.foldl f s).memOk := State.memOk_foldl h l f hf
theorem State.memOk.ite {a b : State} {c : Prop} [Decidable c] (ha : a.memOk) (hb : b.memOk) : (if c then a else b).memOk := by
  split
  · exact ha
  · exact hb
/-- A fold of teams that each keep their scratchpad's form. -/
theorem State.memOk.mapTeams {s r : State} (h : s.memOk) {f : Team → Team} (hmem : r.mem = s.mem)
    (hteams : r.teams = s.teams.map f) (hf : ∀ m : Team, m.pad.wf = true → (f m).pad.wf = true) : r.memOk := by
  refine ⟨hmem ▸ h.1, fun m hm => ?_⟩
  rw [hteams] at hm
  obtain ⟨n, hn, rfl⟩ := List.mem_map.mp hm
  exact hf n (h.2 n hn)

section
variable {s : State} (h : s.memOk)
include h

theorem State.memOk.modTeam {t : Nat} {f : Team → Team} (hf : ∀ m : Team, m.pad.wf = true → (f m).pad.wf = true) :
    (s.modTeam t f).memOk := State.memOk_modTeam h t hf
theorem State.memOk.modThread {t i : Nat} {f : Thread → Thread} : (s.modThread t i f).memOk := State.memOk_modThread h t i f
theorem State.memOk.modWarp {t w : Nat} {f : Warp → Warp} : (s.modWarp t w f).memOk := State.memOk_modWarp h t w f
theorem State.memOk.modInst {t w level : Nat} {f : TrapInst → TrapInst} : (s.modInst t w level f).memOk := h.modWarp
theorem State.memOk.modCore {c : Nat} {f : Core → Core} : (s.modCore c f).memOk := h
theorem State.memOk.modCtx {c : Nat} {f : Ctx → Ctx} : (s.modCtx c f).memOk := h
theorem State.memOk.modIface {q : Nat} {f : Iface → Iface} : (s.modIface q f).memOk := h
theorem State.memOk.modPart {p : Nat} {f : Part → Part} : (s.modPart p f).memOk := h
theorem State.memOk.modLaunch {l : Nat} {f : Launch → Launch} : (s.modLaunch l f).memOk := h
theorem State.memOk.modGraph {g : Nat} {f : Graph → Graph} : (s.modGraph g f).memOk := h
theorem State.memOk.modComm {slot : Nat} {f : Comm → Comm} : (s.modComm slot f).memOk := h
theorem State.memOk.emit {o : Out} : (s.emit o).memOk := h
theorem State.memOk.send {m : FMsg} : (s.send m).memOk := h
theorem State.memOk.setMem {m : Memory} (hm : m.wf = true) : ({ s with mem := m } : State).memOk := ⟨hm, h.2⟩

/-! ### Groups, meetings and waits (R205 to R211) -/

theorem State.memOk.addGroup {t n : Nat} {is : List Nat} : (s.addGroup t n is).memOk := h.modTeam fun _ hm => hm
theorem State.memOk.ungroup {t : Nat} {is : List Nat} : (s.ungroup t is).memOk := h
theorem State.memOk.regroup {t : Nat} : (s.regroup t).memOk :=
  (h.foldl fun _ _ h => h.modThread).foldl fun _ _ h => h.addGroup
theorem State.memOk.resplit {t num : Nat} : (s.resplit t num).memOk := by
  unfold State.resplit
  split
  · exact h
  · split
    · exact h
    · exact h
    · refine State.memOk.foldl ?_ fun _ _ h => h.addGroup
      exact h
theorem State.memOk.wake {t : Nat} {is : List Nat} {f : Thread → Thread} : (s.wake t is f).memOk :=
  (h.foldl fun _ _ h => h.modThread).foldl fun _ _ h => h.modWarp
theorem State.memOk.meetRelease {t i : Nat} : (s.meetRelease t i).memOk :=
  ((h.foldl fun _ _ h => h.modThread).foldl fun _ _ h => h.wake).foldl fun _ _ h => h.modWarp
theorem State.memOk.tidy {t : Nat} : (s.tidy t).memOk := by
  refine State.memOk.regroup (h.foldl fun s i h => ?_)
  split
  · exact h.meetRelease
  · exact h
theorem State.memOk.noteBlocked {t w : Nat} : (s.noteBlocked t w).memOk := by
  unfold State.noteBlocked
  split
  · exact h.modWarp
  · exact h
theorem State.memOk.block {t i : Nat} {w : Wait} : (s.block t i w).memOk := h.modThread.ungroup.noteBlocked
theorem State.memOk.unblock {t : Nat} {is : List Nat} {b : Bool} : (s.unblock t is b).memOk := h.wake.tidy
theorem State.memOk.wakeAll {b : Bool} {p : State → Nat → Nat → Wait → Bool} : (s.wakeAll b p).memOk := by
  refine h.foldl fun s t h => ?_
  dsimp only
  split
  · exact h
  · exact h.unblock

/-! ### Homes and L1s (R154, R156, R167) -/

theorem State.memOk.farDrop {kind who : Nat} : (s.farDrop kind who).memOk := h
theorem State.memOk.wakeSector {l : Loc} : (s.wakeSector l).memOk := by
  have hwatch {s : State} {t w : Nat} (h : s.memOk) (is : List Nat) :
      (if is.isEmpty then s.modWarp t w fun x => { x with wake := true }
        else (s.modWarp t w fun x => { x with wake := false }).unblock t is true).memOk := by
    split
    · exact h.modWarp
    · exact h.modWarp.unblock
  have hwarps {s : State} {t : Nat} {l : List Nat} {p : State → Nat → Bool} {is : State → Nat → List Nat} (h : s.memOk) :
      (l.foldl (fun s w => if p s w then
        if (is s w).isEmpty then s.modWarp t w fun x => { x with wake := true }
        else (s.modWarp t w fun x => { x with wake := false }).unblock t (is s w) true else s) s).memOk := by
    refine h.foldl fun s w h => ?_
    split
    · exact hwatch h _
    · exact h
  have hspins : (if s.cores.any (fun x => x.spins.any fun d => d.any (s.spinArmed l)) then
      { s with cores := s.cores.map fun x => { x with spins := x.spins.map fun d => d.filter fun d => !s.spinArmed l d } }
    else s).memOk := by split <;> exact h
  refine hspins.foldl fun s t h => ?_
  dsimp only
  split
  · exact hwarps h
  · exact (hwarps h).unblock
theorem State.memOk.wakeSectors {l : List Loc} : (s.wakeSectors l).memOk := h.foldl fun _ _ h => h.wakeSector
theorem State.memOk.unpoison {l : Loc} {n : Nat} : (s.unpoison l n).memOk := by
  unfold State.unpoison
  split <;> exact h
theorem State.memOk.mark {l : Loc} {n : Nat} : (s.mark l n).memOk := h
theorem State.memOk.homePut {pa : Nat} {bytes : List Byte} : (s.homePut pa bytes).memOk :=
  (h.setMem (Memory.wf_writeN h.1 pa bytes)).unpoison.wakeSectors
theorem State.memOk.disown {keep : Option Nat} {pa n : Nat} : (s.disown keep pa n).memOk := h
theorem State.memOk.land {st : Store} : (s.land st).memOk := by
  unfold State.land
  dsimp only
  split <;> (refine State.memOk.homePut ?_; exact h)
theorem State.memOk.ackStore {st : Store} : (s.ackStore st).memOk := h.foldl fun _ _ h => h.land
theorem State.memOk.ackAll {l : List Store} : (s.ackAll l).memOk := h.foldl fun _ _ h => h.ackStore
theorem State.memOk.settleBytes {pa n : Nat} : (s.settleBytes pa n).memOk := h.ackAll
theorem State.memOk.settleThread {t i : Nat} : (s.settleThread t i).memOk := h.ackAll
theorem State.memOk.homeWrite {pa : Nat} {bytes : List Byte} : (s.homeWrite pa bytes).memOk := h.settleBytes.disown.homePut
theorem State.memOk.unmix {c pa n : Nat} : (s.unmix c pa n).memOk := by
  unfold State.unmix
  split
  · exact h
  · refine h.foldl fun s u h => ?_
    dsimp only
    split
    · exact h.ackAll
    · exact h
theorem State.memOk.fillSectors {c pa n : Nat} : (s.fillSectors c pa n).memOk := by
  refine h.foldl fun s sec h => ?_
  dsimp only
  split <;> exact h
theorem State.memOk.fill {c pa n : Nat} : (s.fill c pa n).memOk := h.unmix.fillSectors
theorem State.memOk.acquire {c : Nat} : (s.acquire c).memOk := h.foldl fun _ _ h => h.modCore
theorem State.memOk.dropBlock {c n : Nat} {l : Loc} : (s.dropBlock c n l).memOk := by cases l <;> exact h
theorem State.memOk.dropSector {c : Nat} {l : Loc} : (s.dropSector c l).memOk := h.dropBlock
theorem State.memOk.dropLine {c : Nat} {l : Loc} : (s.dropLine c l).memOk := h.dropBlock

/-! ### Scratchpad, host memory and places (R174, R192, R280, R335) -/

theorem State.memOk.wakeSync {t : Nat} : (s.wakeSync t).memOk := by
  unfold State.wakeSync
  dsimp only
  split
  · exact h
  · exact State.memOk.unblock (h.foldl fun _ _ h => h.modThread)
theorem State.memOk.padPut {t off : Nat} {bytes : List Byte} : (s.padPut t off bytes).memOk :=
  (h.modTeam fun _ hm => Memory.wf_writeN hm off bytes).unpoison.wakeSync.wakeSectors
theorem State.memOk.hostPut {p a : Nat} {bytes : List Byte} : (s.hostPut p a bytes).memOk := by
  refine State.memOk.wakeSectors (State.memOk.unpoison ?_)
  exact h
theorem State.memOk.fillLoc {c n : Nat} {l : Loc} : (s.fillLoc c l n).memOk := by
  cases l with
  | mem pa => exact h.fill
  | _ => exact h
theorem State.memOk.unmixAll {c : Nat} {ls : List Loc} : (s.unmixAll c ls).memOk := by
  unfold State.unmixAll
  split
  · exact h
  · exact h.foldl fun _ _ h => h.unmix
theorem State.memOk.sendPeer {o : Owner} {pa : Nat} {op : PeerOp} : (s.sendPeer o pa op).memOk := h
theorem State.memOk.askFar {key : PageKey} : (s.askFar key).memOk := by
  unfold State.askFar
  split <;> exact h
theorem State.memOk.farStale {p : PageKey → Bool} : (s.farStale p).memOk := h
theorem State.memOk.queueStore {t i pa : Nat} {bytes : List Byte} {red : Option Nat} : (s.queueStore t i pa bytes red).memOk := h
theorem State.memOk.storeLoc {t i : Nat} {l : Loc} {bytes : List Byte} : (s.storeLoc t i l bytes).memOk := by
  cases l with
  | mem pa => exact h.foldl fun _ _ h => h.queueStore
  | host p a => exact h.hostPut
  | peer pa => exact h.sendPeer.wakeSectors
  | pad u off => exact h.padPut
  | away t va => exact h
theorem State.memOk.writeLoc {o : Owner} {l : Loc} {bytes : List Byte} {bad : Bool} : (s.writeLoc o l bytes bad).memOk := by
  have hmark {s : State} (h : s.memOk) : (if bad then s.mark l bytes.length else s).memOk := by split <;> exact h
  cases l with
  | mem pa => exact hmark h.homeWrite
  | host p a => exact hmark h.hostPut
  | peer pa => exact h.sendPeer.wakeSectors
  | pad t off => exact hmark h.padPut
  | away t va => exact h

/-! ### The fault queue, the merge tables and translation (R173, R266 to R275) -/

theorem State.memOk.orEntry {pte : Loc} {mask : Nat} : (s.orEntry pte mask).memOk := by
  cases pte with
  | mem pa =>
    unfold State.orEntry
    dsimp only
    split
    · exact h.settleBytes
    · exact h.settleBytes.homeWrite
  | host p a =>
    unfold State.orEntry
    dsimp only
    split
    · exact h
    · exact h.hostPut
  | _ => exact h
theorem State.memOk.fqPut {part f0 f1 f2 : Nat} : (s.fqPut part f0 f1 f2).memOk := h.writeLoc.modPart
theorem State.memOk.fqDrain {part : Nat} : (s.fqDrain part).memOk := by
  unfold State.fqDrain
  refine State.memOk.foldl (h.foldl fun s _ h => ?_) fun s m h => ?_
  · split
    · exact h.fqPut.modPart
    · exact h
  · split
    · exact State.memOk.fqPut h
    · exact h
theorem State.memOk.fqRecord {part f0 f1 f2 : Nat} : (s.fqRecord part f0 f1 f2).memOk := h.modPart.fqDrain
theorem State.memOk.request {die ctx : Nat} {key : PageKey} {exec write : Bool} : (s.request die ctx key exec write).memOk := by
  unfold State.request
  dsimp only
  split
  · exact h.askFar
  · split
    · exact h
    · split
      · exact h
      · refine State.memOk.fqDrain ?_
        exact h
theorem State.memOk.requestAll {die ctx : Nat} {keys : List PageKey} {exec write : Bool} :
    (s.requestAll die ctx keys exec write).memOk := h.foldl fun _ _ h => h.request
theorem State.memOk.noteDry {part ctx : Nat} {dry : List Nat} {a : Touch} : (s.noteDry part ctx dry a).memOk := by
  unfold State.noteDry
  split
  · exact h
  · dsimp only
    split
    · exact h.modPart.fqRecord
    · exact h
theorem State.memOk.absent {key : PageKey} {leaf : Option Tlb} : (s.absent key leaf).1.memOk := by
  unfold State.absent
  split <;> exact h
theorem State.memOk.tlbFill {core : Nat} {e : Tlb} : (s.tlbFill core e).memOk := h
theorem State.memOk.l2Fill {die : Nat} {e : Tlb} : (s.l2Fill die e).memOk := h
theorem State.memOk.walkPage {core ctx va : Nat} {a : Touch} : (s.walkPage core ctx va a).1.memOk := by
  have hread {part : Nat} {dry : List Nat} {l : List Loc} :
      (l.foldl (fun s pte => s.orEntry pte 0x20) ((s.farDrop 0 0).noteDry part ctx dry a)).memOk :=
    h.farDrop.noteDry.foldl fun _ _ h => h.orEntry
  unfold State.walkPage
  dsimp only
  split
  · exact h
  · exact h.farDrop.absent
  · exact h
  · split
    · exact h
    · exact h
    · exact h.farDrop.absent
    · dsimp only
      split
      · exact hread
      · exact hread.l2Fill.tlbFill
theorem State.memOk.translate {core ctx va : Nat} {a : Touch} : (s.translate core ctx va a).1.memOk := by
  grind [State.translate, memOk.tlbFill, memOk.walkPage]
theorem State.memOk.setDirty {x : Tlb} : (s.setDirty x).memOk := by
  unfold State.setDirty
  split
  · exact h
  · exact h.orEntry.orEntry
theorem State.memOk.tlbDrop {p : Tlb → Bool} : (s.tlbDrop p).memOk := h
theorem State.memOk.hostOk {x : Tlb} {a : Touch} : (s.hostOk x a).1.memOk := by
  grind [State.hostOk, State.memOk]
theorem State.memOk.checks69 {core ctx : Nat} {priv : Bool} {va : Nat} {a : Touch} {fmt : Tlb → Bool} :
    (s.checks69 core ctx priv va a fmt).1.memOk := by
  grind [State.checks69, memOk.translate, memOk.hostOk, memOk.setDirty]
theorem State.memOk.checks59 {t : Nat} {priv : Bool} {va size : Nat} {a : Touch} {fmt : Tlb → Bool} :
    (s.checks59 t priv va size a fmt).1.memOk := by
  unfold State.checks59
  split
  · exact h
  · exact h.checks69

end

end Sys2Proof.Machine
end

section
/-! Every step keeps the canonical form of memory: registers and results, what a failed context leaves, and the fetch of
clauses (R50 to R52, R307, R49). -/

namespace Sys2Proof.Machine

open Sys2Proof

section
variable {s : State} (h : s.memOk)
include h

theorem State.memOk.soil {t w k n : Nat} : (s.soil t w k n).memOk := h.modWarp
theorem State.memOk.putReg {t i : Nat} {code : BitVec 8} {n v : Nat} : (s.putReg t i code n v).memOk := by
  grind [State.putReg, memOk.soil, memOk.modThread, memOk.modWarp]
theorem State.memOk.putPred {t i : Nat} {k : BitVec 3} {b : Bool} : (s.putPred t i k b).memOk := h.modThread
theorem State.memOk.putAll {t : Nat} {code : BitVec 8} {n : Nat} {vals : List (Nat × Nat)} : (s.putAll t code n vals).memOk := by
  unfold State.putAll
  split
  · refine h.foldl fun s w h => ?_
    dsimp only
    split
    · exact h
    · exact h.putReg
  · exact h.foldl fun _ _ h => h.putReg
theorem State.memOk.putSets {t : Nat} {code : BitVec 8} {n : Nat} {sets : List (List (Nat × Nat))} :
    (s.putSets t code n sets).memOk := h.foldl fun _ _ h => h.putAll
theorem State.memOk.tokAdd {t w : Nat} {k : BitVec 3} {f : Nat → Nat} : (s.tokAdd t w k f).memOk := h.modWarp
theorem State.memOk.writeBack {t i key : Nat} : (s.writeBack t i key).memOk := by
  grind [State.writeBack, memOk.putReg, memOk.putPred, memOk.modThread, memOk.tokAdd]
theorem State.memOk.settle {t i : Nat} : (s.settle t i).memOk := h.foldl fun _ _ h => h.writeBack
theorem State.memOk.settleAll {t : Nat} {is : List Nat} : (s.settleAll t is).memOk := h.foldl fun _ _ h => h.settle
theorem State.memOk.issueResults {k : Iss} {c : Common} {code : BitVec 8} {n : Nat}
    {vals : List (Nat × Option Nat × Option (BitVec 3 × Bool))} : (s.issueResults k c code n vals).memOk := by
  unfold State.issueResults
  dsimp only
  split
  · refine State.memOk.foldl (State.memOk.foldl ?_ fun _ _ h => h.modThread) fun _ _ h => h.tokAdd
    exact h
  · refine State.memOk.foldl ?_ fun _ _ h => h.modThread
    exact h
theorem State.memOk.probeCtx {ctx va size : Nat} {a : Touch} : (s.probeCtx ctx va size a).1.memOk := by
  grind [State.probeCtx, memOk.checks69]
theorem State.memOk.probeUnits {probe : State → Nat → State × Probe}
    (hp : ∀ (r : State) (a : Nat), r.memOk → (probe r a).1.memOk) {va size n : Nat} :
    (s.probeUnits probe va size n).1.memOk := by
  induction n generalizing s va with
  | zero => exact h
  | succ n ih => grind [State.probeUnits]
theorem State.memOk.probeRange {ctx va size : Nat} {write : Bool} {n : Nat} : (s.probeRange ctx va size write n).1.memOk :=
  h.probeUnits fun _ _ h => h.probeCtx
theorem State.memOk.wakePages {p : Nat → PageKey → Bool} {deny : List PageKey} : (s.wakePages p deny).memOk := by
  refine State.memOk.foldl ?_ fun s _ h => ?_ <;> grind [State.wakePages, memOk.tidy, memOk.wake]
theorem State.memOk.copyFrame {old new : Nat} : (s.copyFrame old new).memOk := by
  have hacks {l : List Store} : (s.ackAll l).memOk := h.ackAll
  refine ⟨Memory.wf_foldl_write (Memory.wf_filter hacks.1 _) _ _ _, fun m hm => ?_⟩
  obtain ⟨n, hn, rfl⟩ := List.mem_map.mp hm
  exact hacks.2 n hn
theorem State.memOk.migratePage {part page ctx : Nat} {exec write : Bool} : (s.migratePage part page ctx exec write).memOk := by
  grind [State.migratePage, memOk.modPart, memOk.copyFrame, memOk.writeLoc, memOk.tlbDrop, memOk.fqRecord]
theorem State.memOk.ipaTouch {part ctx ipa : Nat} {write : Bool} : (s.ipaTouch part ctx ipa write).memOk := by
  grind [State.ipaTouch, memOk.migratePage, memOk.noteDry]
theorem State.memOk.interrupt {q v : Nat} : (s.interrupt q v).memOk := by
  grind [State.interrupt, memOk.hostPut, memOk.emit, State.memOk]
theorem State.memOk.errorInt {q : Nat} : (s.errorInt q).memOk := h.interrupt
theorem State.memOk.setErr {q code index : Nat} : (s.setErr q code index).memOk := h
theorem State.memOk.coalesceFire {q v : Nat} : (s.coalesceFire q v).memOk := h.modIface.interrupt
theorem State.memOk.coalesce {q v : Nat} : (s.coalesce q v).memOk := by
  grind [State.coalesce, memOk.modIface, memOk.coalesceFire]
theorem State.memOk.completeNow {q : Nat} {p : Packet} {status : Nat} : (s.completeNow q p status).memOk := by
  grind [State.completeNow, memOk.modIface, memOk.coalesce, memOk.probeCtx, memOk.writeLoc, memOk.requestAll, memOk.errorInt,
    memOk.setErr]
theorem State.memOk.complete {l status : Nat} : (s.complete l status).memOk := by
  grind [State.complete, memOk.completeNow]
theorem State.memOk.discard {c : Nat} : (s.discard c).memOk := by
  refine h.mapTeams rfl rfl fun m hm => ?_
  split <;> exact hm
theorem State.memOk.wakeAllocs : (s.wakeAllocs).memOk := h.wakeAll
theorem State.memOk.sendTag {c : Comm} {open_ : Bool} {m : FMsg} : (s.sendTag c open_ m).memOk := by
  grind [State.sendTag, memOk.modComm, memOk.send]
theorem State.memOk.wakeAgree : (s.wakeAgree).memOk := by
  refine State.memOk.foldl ?_ fun s _ h => ?_ <;> grind [State.wakeAgree, memOk.tidy, memOk.wake]
theorem State.memOk.failComms {c : Nat} : (s.failComms c).memOk := by
  refine State.memOk.foldl ?_ fun s k h => ?_
  · exact h
  dsimp only
  split
  · exact h.foldl fun _ _ h => h.sendTag
  · exact h.sendTag
/-- The completion of the packets of an interface when their context fails. -/
theorem State.memOk.failPackets {q : Nat} {l : List Packet} :
    (l.foldl (fun (s : State) (p : Packet) =>
      if bits (p.words.getD 0 0).toNat 8 8 = 1 then (s.completeNow q p stFailed).errorInt q
      else s.completeNow q p stFailed) s).memOk := by
  refine h.foldl fun s p h => ?_
  split
  · exact h.completeNow.errorInt
  · exact h.completeNow
theorem State.memOk.failContext {c cause : Nat} {b : Blame} : (s.failContext c cause b).memOk := by
  unfold State.failContext
  dsimp only
  split
  · exact h
  · split
    · exact (h.modCtx.discard.wakeAllocs.failComms.wakeAgree.foldl fun _ _ h => h.failPackets).ipaTouch.writeLoc
    · exact (h.modCtx.discard.wakeAllocs.failComms.wakeAgree.foldl fun _ _ h => h.failPackets).ipaTouch
theorem State.memOk.fetchLoc {core ctx : Nat} {priv : Bool} {va : Nat} : (s.fetchLoc core ctx priv va).1.memOk := by
  grind [State.fetchLoc, memOk.translate, memOk.hostOk]
theorem State.memOk.icDrop {core : Nat} : (s.icDrop core).memOk := h
theorem State.memOk.fetchWord {core ctx : Nat} {priv : Bool} {va : Nat} : (s.fetchWord core ctx priv va).1.memOk := by
  grind [State.fetchWord, memOk.fetchLoc, memOk.unmix, memOk.modCore]
theorem State.memOk.fetchWords {core ctx : Nat} {priv : Bool} {va n : Nat} : (s.fetchWords core ctx priv va n).1.memOk := by
  induction n generalizing s va with
  | zero => exact h
  | succ n ih => grind [State.fetchWords, memOk.fetchWord]
theorem State.memOk.fetchClause {core ctx : Nat} {priv : Bool} {a3 : DWord} : (s.fetchClause core ctx priv a3).1.memOk := by
  grind [State.fetchClause, memOk.fetchWord, memOk.fetchWords]
theorem State.memOk.entering {t i : Nat} {aligned : Bool} {pc : DWord} : (s.entering t i aligned pc).1.memOk := by
  grind [State.entering, memOk.fetchLoc]

end

end Sys2Proof.Machine
end

section
/-! Every step keeps the canonical form of memory: the save areas, barriers, copy batches, guard slots and machine checks
(R212 to R216, R160, R202, R313). -/

namespace Sys2Proof.Machine

open Sys2Proof

section
variable {s : State} (h : s.memOk)
include h

theorem State.memOk.areaTouch {t off n : Nat} {write : Bool} : (s.areaTouch t off n write).memOk :=
    h.foldl fun _ _ h => h.ipaTouch
theorem State.memOk.areaPut {t off : Nat} {bytes : List Byte} : (s.areaPut t off bytes).memOk := by
  refine State.memOk.foldl ?_ fun s _ h => ?_ <;> grind [State.areaPut, memOk.writeLoc, memOk.areaTouch]
theorem State.memOk.homeZero {pa n : Nat} : (s.homeZero pa n).memOk := by
  have hs : ((s.settleBytes pa n).disown none pa n).memOk := h.settleBytes.disown
  exact ⟨Memory.wf_clear hs.1 pa n, hs.2⟩
theorem State.memOk.areaZero {t off n : Nat} : (s.areaZero t off n).memOk := by
  refine State.memOk.foldl ?_ fun s _ h => ?_ <;> grind [State.areaZero, memOk.homeZero, memOk.writeLoc, memOk.areaTouch]
theorem State.memOk.areaImage {t off n : Nat} {img : Memory} : (s.areaImage t off n img).memOk := by
  refine State.memOk.foldl ?_ fun s _ h => ?_ <;> grind [State.areaImage, memOk.areaPut, memOk.areaZero]
theorem State.memOk.putBar {t id : Nat} : (s.putBar t id).memOk := h.areaPut
theorem State.memOk.putSpanBar {t id : Nat} {b : BarRec} : (s.putSpanBar t id b).memOk := by
  grind [State.putSpanBar, memOk.areaPut]
theorem State.memOk.saveReg {t w key : Nat} : (s.saveReg t w key).memOk := by
  grind [State.saveReg, memOk.areaPut]
theorem State.memOk.loadReg {t w key : Nat} : (s.loadReg t w key).memOk := by
  unfold State.loadReg
  dsimp only
  split <;> split
  · exact h.modWarp
  · exact h
  · exact h.foldl fun _ _ h => h.modThread
  · exact h
theorem State.memOk.loadHandler {t w : Nat} : (s.loadHandler t w).memOk := by
  have hthreads {s : State} {c : Prop} [Decidable c] {i : Nat} {f : Thread → Thread} (h : s.memOk) :
      (if c then s else s.modThread t i f).memOk := by
    split
    · exact h
    · exact h.modThread
  unfold State.loadHandler
  dsimp only
  split
  · exact h.foldl fun _ _ h => hthreads h
  · exact (h.foldl fun _ _ h => hthreads h).modWarp
theorem State.memOk.loadSpec {t w : Nat} : (s.loadSpec t w).memOk := by
  grind [State.loadSpec, memOk.modWarp]
theorem State.memOk.saveTeam {t : Nat} : (s.saveTeam t).memOk := h.areaImage
theorem State.memOk.saveWarp {t w : Nat} : (s.saveWarp t w).memOk := by
  unfold State.saveWarp
  dsimp only
  split
  · exact h
  · refine State.memOk.modWarp (State.memOk.foldl (State.memOk.saveTeam (State.memOk.areaPut ?_)) fun _ _ h => h.areaPut)
    exact (h.foldl fun _ _ h => h.saveReg).foldl fun _ _ h => h.areaPut
theorem State.memOk.loadWarp {t w : Nat} : (s.loadWarp t w).memOk := by
  unfold State.loadWarp
  dsimp only
  split
  · exact h
  · split
    · exact h.areaTouch.foldl fun _ _ h => h.loadReg
    · exact (h.areaTouch.foldl fun _ _ h => h.loadReg).areaTouch.loadHandler.loadSpec
theorem State.memOk.savePad {t : Nat} : (s.savePad t).memOk := h.areaImage
theorem State.memOk.loadPad {t : Nat} : (s.loadPad t).memOk := by
  unfold State.loadPad
  dsimp only
  split
  · exact h.areaTouch.modTeam fun _ _ => Memory.wf_foldr_write rfl _ _ _
  · exact h.areaTouch
theorem State.memOk.saveBank {t b : Nat} {acc : AccBank} : (s.saveBank t b acc).memOk := h.areaImage
theorem State.memOk.barMod {t id : Nat} {f : BarRec → BarRec} : (s.barMod t id f).memOk := by
  grind [State.barMod, memOk.modTeam, memOk.putBar, memOk.unblock, State.memOk]
theorem State.memOk.spanMod {t id : Nat} {f : BarRec → BarRec} : (s.spanMod t id f).memOk := by
  grind [State.spanMod, memOk.putSpanBar, memOk.wakeAll, State.memOk]
theorem State.memOk.spanCheck {t id : Nat} : (s.spanCheck t id).memOk := by
  grind [State.spanCheck, memOk.spanMod, memOk.modTeam]
theorem State.memOk.spanArrive {t id : Nat} : (s.spanArrive t id).memOk := by
  grind [State.spanArrive, memOk.spanCheck, memOk.modTeam]
theorem State.memOk.wakeBatches {t : Nat} : (s.wakeBatches t).memOk := by
  have hends {l : List Nat} {f : State → Nat → Thread → Thread} :
      (l.foldl (fun s i => s.modThread t i (f s i)) (s.modTeam t fun m => { m with threads := m.threads.mapIdx fun i x =>
        { x with sealed := x.sealed.filter fun b => !s.batchDone t i b,
                 wait := if x.wait = .drain ∧ ¬ s.inFlight t then .exited else x.wait } })).memOk := by
    refine State.memOk.foldl ?_ fun _ _ h => h.modThread
    exact h.modTeam fun _ hm => hm
  unfold State.wakeBatches
  dsimp only
  split <;> split
  · exact hends
  · exact hends.unblock
  · exact hends.unblock
  · exact hends.unblock.unblock
theorem State.memOk.blame {c : Cmd} : (s.blame c).memOk := by
  unfold State.blame
  split
  · exact h
  · exact h.foldl fun _ _ h => h.modThread
theorem State.memOk.finishCmd {c : Cmd} : (s.finishCmd c).memOk := by
  grind [State.finishCmd, memOk.farStale, memOk.wakeBatches, memOk.blame, State.memOk]
theorem State.memOk.syncAdd {t off n : Nat} : (s.syncAdd t off n).memOk := h.padPut
theorem State.memOk.resolveCmds {t w k : Nat} {v : Bool} : (s.resolveCmds t w k v).memOk := by
  unfold State.resolveCmds
  dsimp only
  split
  · exact h.modWarp
  · refine State.memOk.foldl ?_ fun _ _ h => h.finishCmd
    exact h.modWarp
theorem State.memOk.freeSlot {r : RecSlot} : (s.freeSlot r).memOk := h.modGraph.wakeAll
theorem State.memOk.mcLog {c unit : Nat} {syn : BitVec 32} {pa : Option Nat} {uc : Bool} : (s.mcLog c unit syn pa uc).memOk := h
theorem State.memOk.machineCheck {c unit : Nat} {syn : BitVec 32} {pa : Option Nat} : (s.machineCheck c unit syn pa).memOk := by
  refine State.memOk.foldl ?_ fun s k h => ?_
  · exact h
  · split
    · exact h.failContext
    · exact h
theorem State.memOk.consume {c : Nat} {l : Loc} : (s.consume c l).memOk := by
  cases l with
  | away t va => exact h
  | _ => exact h.machineCheck

end

end Sys2Proof.Machine
end

section
/-! Every step keeps the canonical form of memory: banks, products and latches (R128 to R150). -/

namespace Sys2Proof.Machine

open Sys2Proof

section
variable {s : State} (h : s.memOk)
include h

theorem State.memOk.modSeq {c p : Nat} {f : List SeqCmd → List SeqCmd} : (s.modSeq c p f).memOk := h
theorem State.memOk.modBank {c p b : Nat} {f : AccBank → AccBank} : (s.modBank c p b f).memOk := h
theorem State.memOk.setAcc {c p b k : Nat} {v : Word} : (s.setAcc c p b k v).memOk := h
theorem State.memOk.restore {c p : Nat} {g : Gang} {bs : List Nat} : (s.restore c p g bs).memOk := by
  refine h.foldl fun s b h => ?_
  dsimp only
  split <;> exact h
theorem State.memOk.bring {c p : Nat} {g : Gang} {bs : List Nat} {r : State} (hr : s.bring c p g bs = some r) : r.memOk := by
  grind [State.bring, memOk.restore]
theorem State.memOk.clearStop {n : Nat} : (s.clearStop n).memOk := h
theorem State.memOk.tellStop {n : Nat} : (s.tellStop n).memOk := h
theorem State.memOk.probeFetch {t fmt va n : Nat} : (s.probeFetch t fmt va n).1.memOk := by
  grind [State.probeFetch, memOk.checks59]
theorem State.memOk.probeFetches {t fmt : Nat} {l : List (Nat × Nat)} : (s.probeFetches t fmt l).1.memOk := by
  induction l generalizing s with
  | nil => exact h
  | cons x l ih => exact ih h.probeFetch
theorem State.memOk.setProg {g : Gang} {j : Nat} : (s.setProg g j).memOk := h.foldl fun _ _ h => h.modWarp
theorem State.memOk.dropSeq {c p id : Nat} : (s.dropSeq c p id).memOk := h
/-- What a K row adds to the words of its range. -/
theorem State.memOk.setAccs {c p b : Nat} {ra rb : List (Row × Nat)} :
    (ra.foldl (fun s (x : Row × Nat) => rb.foldl (fun s (y : Row × Nat) =>
      s.setAcc c p b (x.2 * 128 + y.2) (accumulate (s.accWord c p b (x.2 * 128 + y.2)) x.1 y.1)) s) s).memOk :=
  h.foldl fun _ _ h => h.foldl fun _ _ h => h.setAcc
theorem State.memOk.runRow {c p : Nat} {q : SeqCmd} {x : Product} : (s.runRow c p q x).1.memOk := by
  have hprobes {la lb : List (Nat × Nat)} : (((s.restore c p x.gang (range x.bank 4)).probeFetches x.gang.team x.fmt
    la).1.probeFetches x.gang.team x.fmt lb).1.memOk := h.restore.probeFetches.probeFetches
  unfold State.runRow
  dsimp only
  split
  · exact h.setProg.dropSeq
  · split
    · exact h
    · split
      · refine State.memOk.dropSeq (State.memOk.setProg (State.memOk.foldl ?_ fun _ _ h => h.modBank))
        exact hprobes
      · split
        · exact hprobes.requestAll
        · split
          · exact hprobes.requestAll
          · split
            · exact hprobes
            · exact hprobes.unmixAll.setAccs.farDrop.modSeq
theorem State.memOk.fillResult {t i key v : Nat} : (s.fillResult t i key v).memOk := h.modThread.modWarp
theorem State.memOk.seqDo {c p : Nat} {q : SeqCmd} : (s.seqDo c p q).1.memOk := by
  unfold State.seqDo
  split
  · exact h
  · next r hr =>
    have hbr : r.memOk := h.bring hr
    cases q.op with
    | product x => exact hbr
    | acz => exact (hbr.foldl fun _ _ h => h.modBank).dropSeq
    | acrd t i key k w64 => exact hbr.fillResult.dropSeq
    | acwr ws => exact (hbr.foldl fun _ _ h => h.setAcc).dropSeq
    | acld _ | acst _ => exact hbr
/-- One pass over the queued commands of a partition. -/
theorem State.memOk.seqPass {c p : Nat} {l : List SeqCmd} {b : Bool} :
    (l.foldl (fun (r : State × Bool) q =>
      if r.2 ∨ ¬ (r.1.seqBefore c p q.gang (some q.id) q.bank q.count).isEmpty then r
      else r.1.seqDo c p q) (s, b)).1.memOk := by
  induction l generalizing s b with
  | nil => exact h
  | cons q l ih =>
    rw [List.foldl_cons]
    split
    · exact ih h
    · exact ih h.seqDo
theorem State.memOk.seqAdvance {c p n : Nat} : (s.seqAdvance c p n).memOk := by
  induction n generalizing s with
  | zero => exact h
  | succ n ih =>
    unfold State.seqAdvance
    dsimp only
    split
    · exact ih h.seqPass
    · exact h.seqPass
theorem State.memOk.drainSeq {c p : Nat} {g : Gang} {id : Option Nat} {b n fuel : Nat} :
    (s.drainSeq c p g id b n fuel).1.memOk := by
  induction fuel generalizing s with
  | zero => exact h
  | succ fuel ih => grind [State.drainSeq, memOk.runRow, memOk.seqAdvance]
theorem State.memOk.drain {c p : Nat} {g : Gang} {b n : Nat} : (s.drain c p g b n).1.memOk := h.drainSeq
theorem State.memOk.resolveSeq {t w k : Nat} {v : Bool} : (s.resolveSeq t w k v).memOk := h.modSeq.seqAdvance
theorem State.memOk.resolve {t w k : Nat} {v : Bool} : (s.resolve t w k v).memOk := by
  grind [State.resolve, memOk.wakeBatches, memOk.resolveCmds, memOk.resolveSeq]
theorem State.memOk.accept {l : Latch} : (s.accept l).memOk := by
  have hqueue {r : State} (hr : r.memOk) {c p : Nat} {f : List SeqCmd → List SeqCmd} :
      ((r.fresh.2.modSeq c p f).modTeam l.gang.team fun m =>
        { m with latches := m.latches.filter fun y => y.gang != l.gang }).memOk :=
    State.memOk.modTeam hr fun _ hm => hm
  unfold State.accept
  dsimp only
  refine State.memOk.unblock ?_
  split <;> split
  · exact (hqueue h.restore.clearStop).modWarp
  · exact (hqueue h.restore).modWarp
  · exact hqueue h.restore.clearStop
  · exact hqueue h.restore
theorem State.memOk.latchCheck {t : Nat} : (s.latchCheck t).memOk := by
  refine State.memOk.foldl ?_ fun s _ h => ?_ <;> grind [State.latchCheck, memOk.accept]

end

end Sys2Proof.Machine
end

section
/-! Every step keeps the canonical form of memory: communicators, agreement and the spin detectors (R218, R219, R340 to R349). -/

namespace Sys2Proof.Machine

open Sys2Proof

section
variable {s : State} (h : s.memOk)
include h

theorem State.memOk.bindRank {slot r t w : Nat} : (s.bindRank slot r t w).memOk := h
theorem State.memOk.rollback {t w : Nat} {sp : Spec} : (s.rollback t w sp).memOk := by
  refine State.memOk.modWarp (State.memOk.foldl ?_ fun _ _ h => h.modThread)
  exact h
theorem State.memOk.register {t w : Nat} {sp : Spec} : (s.register t w sp).memOk := by
  refine State.memOk.foldl ?_ fun s _ h => ?_ <;> grind [State.register, memOk.settleThread, memOk.storeLoc, memOk.settleBytes,
    memOk.homeWrite]
theorem State.memOk.sendTo {t : Nat} {is : List Nat} {pc : DWord} : (s.sendTo t is pc).memOk := h.ungroup.wake
theorem State.memOk.resolveMember {t w o : Nat} {isPart : Bool} : (s.resolveMember t w o isPart).memOk := by
  unfold State.resolveMember
  dsimp only
  refine State.memOk.tidy (State.memOk.wakeAgree (State.memOk.acquire ?_))
  split
  · exact h.modWarp.sendTo
  · split
    · split
      · exact h.modWarp.rollback.sendTo
      · exact h.modWarp.sendTo
    · split
      · exact (h.modWarp.foldl fun _ _ h => h.putPred).wake
      · split
        · exact h.modWarp.register.wake
        · exact (h.modWarp.rollback.foldl fun _ _ h => h.putPred).sendTo
theorem State.memOk.deliver {slot n : Nat} : (s.deliver slot n).memOk := by
  unfold State.deliver
  split
  · exact h
  · split
    · exact h
    · refine h.foldl fun s r h => ?_
      split
      · exact h.resolveMember
      · exact h
theorem State.memOk.loseComm {slot : Nat} {told : Bool} : (s.loseComm slot told).memOk := by
  unfold State.loseComm
  split
  · exact h
  · dsimp only
    split
    · exact h
    · refine State.memOk.modComm (State.memOk.failContext (State.memOk.modComm (State.memOk.foldl (State.memOk.foldl h fun s r h
    => ?_) fun _ _ h => h.finishCmd)))
      split
      · exact h.resolveMember
      · exact h
theorem State.memOk.failComm {slot : Nat} : (s.failComm slot).memOk := h.loseComm
theorem State.memOk.sendTo_ {slot chip : Nat} {m : FMsg} : (s.sendTo_ slot chip m).memOk := by
  grind [State.sendTo_, memOk.sendTag]
theorem State.memOk.sendRoot {slot : Nat} {m : FMsg} : (s.sendRoot slot m).memOk := by
  grind [State.sendRoot, memOk.sendTag]
theorem State.memOk.decide_ {slot n : Nat} {o : BitVec 3} {isPart : Bool} : (s.decide_ slot n o isPart).memOk := by
  unfold State.decide_
  split
  · exact h
  · split
    · exact h
    · dsimp only
      split
      · exact h.modComm
      · exact (h.modComm.foldl fun _ _ h => h.sendTo_).deliver
theorem State.memOk.tryDecide {slot n : Nat} : (s.tryDecide slot n).memOk := by
  grind [State.tryDecide, memOk.failComm, memOk.decide_]
theorem State.memOk.forward {slot n r : Nat} : (s.forward slot n r).memOk := by
  grind [State.forward, memOk.tryDecide, memOk.failComm, memOk.sendRoot]
theorem State.memOk.contribute {slot n r : Nat} {isAny v : Bool} : (s.contribute slot n r isAny v).memOk := by
  grind [State.contribute, memOk.forward, memOk.modComm]
theorem State.memOk.abortAt {slot n : Nat} : (s.abortAt slot n).memOk := by
  grind [State.abortAt, memOk.decide_]
theorem State.memOk.abort {slot n : Nat} : (s.abort slot n).memOk := by
  grind [State.abort, memOk.abortAt, memOk.sendRoot]
theorem State.memOk.withdraw {t w : Nat} : (s.withdraw t w).memOk :=
  h.foldl fun _ _ h => h.foldl fun _ _ h => (h.modComm.foldl fun _ _ h => h.forward).foldl fun _ _ h => h.sendTo_
theorem State.memOk.modSpin {t num : Nat} {f : Spin → Option Spin} : (s.modSpin t num f).memOk := h
theorem State.memOk.spinWord {k : Iss} {i : Instr} {c : Common} {ex : List Nat} : (s.spinWord k i c ex).memOk := by
  grind [State.spinWord, memOk.modSpin]
theorem State.memOk.spinReads {k : Iss} {ls : List (Loc × Nat × Nat)} : (s.spinReads k ls).memOk := by
  grind [State.spinReads, memOk.modSpin]
theorem State.memOk.spinClause {t num : Nat} {pc : DWord} : (s.spinClause t num pc).memOk := by
  grind [State.spinClause, memOk.modSpin]
theorem State.memOk.spinTransfer {t num : Nat} {attach : Bool} {clause pc : DWord} :
    (s.spinTransfer t num attach clause pc).memOk := by
  grind [State.spinTransfer, memOk.modSpin, memOk.modCore]

end

end Sys2Proof.Machine
end

section
/-! Every step keeps the canonical form of memory: trap entry, exits, selectors and the frame of a word (R294 to R301, R46 to
R49, R56, R57). -/

namespace Sys2Proof.Machine

open Sys2Proof

/-- Memory is in its form in the state that an outcome goes on to. -/
def memOkAfter : Host.Outcome State Fault Refusal → Prop
  | .next s => s.memOk
  | .fault _ | .refused _ => True
/-- Memory is in its form however the tests before a word end. -/
def Before.memOk : Before → Prop
  | .out s | .go s _ _ => s.memOk
/-- Memory is in its form however a word's own effect ends. -/
def Res.memOk : Res → Prop
  | .done s _ | .left s | .stall s => s.memOk

section
variable {s : State} (h : s.memOk)
include h

theorem State.memOk.clearIssue {k : Iss} : (s.clearIssue k).memOk := h
theorem State.memOk.leave {k : Iss} : (s.leave k).memOk := by
  grind [State.leave, memOk.tidy, memOk.resplit, memOk.clearIssue]
theorem State.memOk.hold {t : Nat} {is : List Nat} {w : Wait} {keep : Bool} : (s.hold t is w keep).memOk :=
  (h.foldl fun _ _ h => h.modThread).ungroup.foldl fun _ _ h => h.noteBlocked
theorem State.memOk.probeVisible {ctx va : Nat} : (s.probeVisible ctx va).1.memOk := by
  grind [State.probeVisible, memOk.translate, memOk.hostOk, memOk.setDirty]
theorem State.memOk.probeAreas {ctx : Nat} {l : List Nat} : (s.probeAreas ctx l).1.memOk := by
  induction l generalizing s with
  | nil => exact h
  | cons va l ih => exact ih h.probeVisible
/-- The fault records of a trap entry. -/
theorem State.memOk.writeRecords {core : Nat} {epc : DWord} {l : List ((Nat × Rep) × Probe)} :
    (l.foldl (fun (s : State) (e : (Nat × Rep) × Probe) => match e.2 with
      | .ok l _ => (s.writeLoc noOwner l (e.1.2.bytes epc) false).dropSector core l
      | _ => s) s).memOk := by
  refine h.foldl fun s e h => ?_
  split
  · exact h.writeLoc.dropSector
  · exact h
theorem State.memOk.enter {t w : Nat} {r : Report} : (s.enter t w r).memOk := by
  have hprobes {is l : List Nat} {c : Nat} : ((s.settleAll t is).probeAreas c l).1.memOk := h.settleAll.probeAreas
  unfold State.enter
  dsimp only
  split
  · exact h
  · split
    · exact h.hold
    · split
      · exact h.failContext
      · split
        · exact h.hold
        · generalize (if r.emu.isSome then (s.ctx (s.team t).ctx).emuvec else (s.ctx (s.team t).ctx).trapvec) = vec
          split
          · exact h.failContext
          · split
            · exact h.settleAll
            · split
              · exact hprobes.failContext
              · split
                · exact hprobes.requestAll.hold
                · refine State.memOk.foldl ?_ fun _ _ h => h.modThread
                  split
                  · exact hprobes.writeRecords.modWarp.tellStop
                  · exact hprobes.writeRecords.modWarp
theorem State.memOk.raise {t : Nat} {r : Report} : (s.raise t r).memOk :=
  (h.foldl fun _ _ h => h.enter).ungroup.tidy
theorem State.memOk.raiseAt {k : Iss} {r : Report} : (s.raiseAt k r).memOk := h.clearIssue.raise
theorem State.memOk.emulate {k : Iss} {w : DWord} {i : Option Instr} {is : List Nat} : (s.emulate k w i is).memOk := h.raiseAt
theorem State.memOk.enterLatch {l : Latch} : (s.enterLatch l).memOk := by
  unfold State.enterLatch
  dsimp only
  split
  · exact h
  · split
    · exact h
    · refine State.memOk.tidy (State.memOk.ungroup ?_)
      split
      · exact State.memOk.modTeam h.wake.enter fun _ hm => hm
      · exact h.wake.enter
theorem State.memOk.enterLatches {t : Nat} : (s.enterLatches t).memOk := by
  refine State.memOk.foldl ?_ fun s _ h => ?_ <;> grind [State.enterLatches, memOk.enterLatch]
theorem State.memOk.endInst {t w level : Nat} : (s.endInst t w level).memOk := by
  grind [State.endInst, memOk.modWarp, memOk.wake]
theorem State.memOk.leaveInst {t i level : Nat} : (s.leaveInst t i level).memOk := by
  grind [State.leaveInst, memOk.modInst, memOk.endInst]
theorem State.memOk.warpExit {t w : Nat} : (s.warpExit t w).memOk :=
  (h.foldl fun _ _ h => h.resolve).modWarp.withdraw.latchCheck.enterLatches
/-- A thread that exits frees its records. -/
theorem State.memOk.exitFrees {t i : Nat} {l : List RecSlot} {f g : Thread → Thread} :
    (l.foldl State.freeSlot (((((s.settleThread t i).settle t i).modThread t i f).settle t i).modThread t i g)).memOk :=
  h.settleThread.settle.modThread.settle.modThread.foldl fun _ _ h => h.freeSlot
/-- A thread that exits leaves its instances, and counts as arrived at its team's barriers. -/
theorem State.memOk.exitArrives {t i w level : Nat} :
    ((List.range 16).foldl (fun (s : State) (b : Nat) => (s.barMod t b fun r => { r with expect := r.expect - 1 }).spanCheck t b)
      ((List.range level).foldl (fun (s : State) (l : Nat) => s.leaveInst t i (l + 1)) ((s.ungroup t [i]).noteBlocked t
    w))).memOk :=
  (h.ungroup.noteBlocked.foldl fun _ _ h => h.leaveInst).foldl fun _ _ h => h.barMod.spanCheck
theorem State.memOk.exitThread {t i : Nat} : (s.exitThread t i).memOk := by
  unfold State.exitThread
  refine State.memOk.ite h (State.memOk.ite (State.memOk.warpExit (State.memOk.exitArrives ?_)) (State.memOk.exitArrives ?_))
  all_goals exact State.memOk.ite h.exitFrees.modThread h.exitFrees
theorem State.memOk.depart {t w n k : Nat} {is : List Nat} {pc : DWord} : (s.depart t w n k is pc).memOk :=
  (h.foldl fun _ _ h => h.modThread).modWarp
theorem State.memOk.cutTrail {t w : Nat} : (s.cutTrail t w).memOk := h.modWarp
theorem State.memOk.splitSets {t : Nat} {nexts : List (Nat × DWord)} : (s.splitSets t nexts).memOk := by
  refine h.foldl fun s w h => State.memOk.cutTrail (h.foldl fun s n h => ?_)
  dsimp only
  split
  · exact h
  · refine h.foldl fun s k h => h.foldl fun s pc h => ?_
    split
    · exact h
    · exact h.depart
theorem State.memOk.nextHeaders {t : Nat} {aligned : Nat → Bool} {l : List (Nat × DWord)} :
    (s.nextHeaders t aligned l).1.memOk := by
  induction l generalizing s with
  | nil => exact h
  | cons x l ih => grind [State.nextHeaders, memOk.entering]
theorem State.memOk.awaitHeaders {t : Nat} {over_ : Nat → Bool} {ps : List (Nat × List PageKey)} :
    (s.awaitHeaders t over_ ps).memOk := by
  refine State.memOk.foldl ?_ fun s _ h => ?_ <;> grind [State.awaitHeaders, memOk.requestAll, memOk.modThread, memOk.hold]
theorem State.memOk.settleSelector {t : Nat} {is : List Nat} {nas : BitVec 3} {link : Bool} :
    (s.settleSelector t is nas link).memOk := by
  grind [State.settleSelector, memOk.settleAll]
theorem State.memOk.transferAll {k : Iss} {c : Common} {j : Jump} {whole : Bool} {outs : List (Nat × DWord)} :
    (s.transferAll k c j whole outs).memOk := by
  have hout : ((outs.foldl (fun (s : State) (e : Nat × DWord) => s.modThread k.team e.1 fun x =>
    x.goTo e.2) (s.splitSets k.team outs)).clearIssue k).memOk :=
    (h.splitSets.foldl fun _ _ h => h.modThread).clearIssue
  unfold State.transferAll
  dsimp only
  split
  · split
    · split
      · exact hout.spinTransfer
      · exact hout
    · exact hout.resplit
  · exact hout
theorem State.memOk.finish {k : Iss} {c : Common} {ex : List Nat} {j : Jump} : (s.finish k c ex j).memOk := by
  have hcommit {r : State} (hr : r.memOk) {l : List Nat} {b : Bool} :
    (l.foldl (fun (s : State) (i : Nat) => s.modThread k.team i fun x => { x with released := b }) r).memOk :=
    hr.foldl fun _ _ h => h.modThread
  unfold State.finish
  dsimp only
  split
  · split
    · exact (h.foldl fun _ _ h => h.modThread).leave
    · split
      · exact h.foldl fun _ _ h => h.modThread
      · exact (h.foldl fun _ _ h => h.modThread).tidy
  · split
    · exact (hcommit h.settleSelector).leave
    · split
      · exact (hcommit h.settleSelector).raiseAt
      · split
        · exact (hcommit h.settleSelector.nextHeaders).raiseAt
        · have hgone {r : State} (hr : r.memOk) {is gone : List Nat} {b : Prop} [Decidable b] {whole : Bool}
    {outs : List (Nat × DWord)} {f : State → Nat → State} (hf : ∀ (r : State) (i : Nat), r.memOk → (f r i).memOk) :
    (gone.foldl (fun (s : State) (i : Nat) => s.exitThread k.team i) (((if b then is.foldl f r else r).ungroup k.team
    gone).transferAll k c j whole outs)).memOk := by
            refine State.memOk.foldl (State.memOk.transferAll (State.memOk.ungroup ?_)) fun _ _ h => h.exitThread
            split
            · exact hr.foldl hf
            · exact hr
          split
          · exact hgone h.settleSelector.nextHeaders.awaitHeaders fun _ _ h => h.modThread.soil
          · exact (hgone h.settleSelector.nextHeaders.awaitHeaders fun _ _ h => h.modThread.soil).tidy
theorem State.memOk.settleFor {k : Iss} {i : Instr} {c : Common} {ex : List Nat} : (s.settleFor k i c ex).memOk :=
  h.foldl fun _ _ h => h.foldl fun _ _ h => h.foldl fun _ _ h => h.writeBack
theorem State.memOk.settleGuard {k : Iss} {c : Common} : (s.settleGuard k c).memOk :=
  h.foldl fun _ _ h => h.foldl fun _ _ h => h.writeBack
theorem State.memOk.registerWatches {t : Nat} {ws : List Nat} : (s.registerWatches t ws).memOk := h.foldl fun _ _ h => h.modWarp
theorem State.memOk.before {k : Iss} {i : Instr} {c : Common} : (s.before k i c).memOk := by
  have hguard : (if isBrk i then s else s.settleGuard k c).memOk := State.memOk.ite h h.settleGuard
  unfold State.before
  generalize (if isBrk i then s else s.settleGuard k c) = g at hguard ⊢
  dsimp only
  split
  · exact State.memOk.raiseAt hguard
  · split
    · exact State.memOk.leave hguard
    · split
      · exact State.memOk.emulate hguard
      · split
        · exact State.memOk.raiseAt hguard
        · exact State.memOk.raiseAt hguard
        · split
          · exact State.memOk.leave hguard.settleFor
          · split
            · exact hguard.settleFor.registerWatches
            · split
              · refine State.memOk.leave ?_
                exact hguard.settleFor.registerWatches.foldl fun _ _ h => h.hold
              · change State.memOk _
                exact hguard.settleFor.registerWatches.foldl fun _ _ h => h.hold
theorem State.memOk.awaitPages {k : Iss} {keys : List PageKey} : (s.awaitPages k keys).memOk := h.hold.leave
theorem State.memOk.requests {t : Nat} {keys : List PageKey} {write : Bool} : (s.requests t keys write).memOk := h.requestAll
theorem State.memOk.trapAt {k : Iss} {ex : List Nat} {reps : List (Nat × Rep)} : (s.trapAt k ex reps).memOk := h.raiseAt
theorem State.memOk.goOn {x : Iss} : (goOn s x).memOk := h
theorem State.memOk.resume {k : Iss} {c : Common} {after : State → Iss → Res}
    (hafter : ∀ (r : State) (k : Iss), r.memOk → (after r k).memOk) : (s.resume k c after).memOk := by
  have ha := hafter s k h
  unfold State.resume
  split
  · next r j hr => rw [hr] at ha; exact State.memOk.finish ha
  · next r hr => rw [hr] at ha; exact ha
  · next r hr => rw [hr] at ha; exact State.memOk.leave ha
theorem State.memOk.word {i : Instr} {c : Common} {after : State → Iss → Res}
    {body : State → Iss → List Nat → Res} (hafter : ∀ (r : State) (k : Iss), r.memOk → (after r k).memOk)
    (hbody : ∀ (r : State) (k : Iss) (ex : List Nat), r.memOk → (body r k ex).memOk) :
    memOkAfter (word i c after body s) := by
  unfold Machine.word
  split
  · trivial
  · next k _ =>
    split
    · exact h.resume hafter
    · have hb := h.before (k := k) (i := i) (c := c)
      split
      · next r hr => rw [hr] at hb; exact hb
      · next r k ex hr =>
        rw [hr] at hb
        have hbd := hbody r k ex hb
        split
        · next r' j hr' => rw [hr'] at hbd; exact State.memOk.finish (State.memOk.spinWord hbd)
        · next r' hr' => rw [hr'] at hbd; exact hbd
        · next r' hr' => rw [hr'] at hbd; exact State.memOk.leave hbd
theorem State.memOk.simple {i : Instr} {c : Common} {body : State → Iss → List Nat → State}
    (hbody : ∀ (r : State) (k : Iss) (ex : List Nat), r.memOk → (body r k ex).memOk) : memOkAfter (simple i c body s) :=
  h.word (fun _ _ h => h) hbody

end

end Sys2Proof.Machine
end

section
/-! Every step keeps the canonical form of memory: what loads, stores and atomics share (R84 to R92, R173 to R183). -/

namespace Sys2Proof.Machine

open Sys2Proof

section
variable {s : State} (h : s.memOk)
include h

theorem State.memOk.probeEa {t i : Nat} {ea : Int} {size align : Nat} {a : Touch} {fmt : Tlb → Bool} :
    (s.probeEa t i ea size align a fmt).1.memOk := by
  grind [State.probeEa, memOk.checks59]
theorem State.memOk.access {t i : Nat} {ea : Int} {size align : Nat} {a : Touch} : (s.access t i ea size align a).1.memOk := by
  grind [State.access, memOk.probeEa]
theorem State.memOk.peekFmt {t i : Nat} {ea : Int} {a : Touch} : (s.peekFmt t i ea a).1.memOk := by
  grind [State.peekFmt, memOk.translate]
theorem State.memOk.accessScale {t i va : Nat} {x : Tlb} {a : Touch} {write : Bool} :
    (s.accessScale t i va x a write).1.memOk := h.probeEa
theorem State.memOk.accessTyped {t i : Nat} {ea : Int} {ty : BitVec 4} {a : Touch} {scaleW : Nat → Bool} {ok : Tlb → Bool} :
    (s.accessTyped t i ea ty a scaleW ok).1.memOk := by
  grind [State.accessTyped, memOk.peekFmt, memOk.probeEa, memOk.accessScale]
theorem State.memOk.probeEach {α : Type*} {f : State → Nat → State × Except Probe α}
    (hf : ∀ (r : State) (i : Nat), r.memOk → (f r i).1.memOk) {l : List Nat} : (probeEach f s l).1.memOk := by
  induction l generalizing s with
  | nil => exact h
  | cons i l ih => exact ih (hf s i h)
theorem State.memOk.awaitFar {α : Type*} {k : Iss} {ps : List (Nat × Except Probe α)}
    {go : State → Res} (hgo : ∀ r : State, r.memOk → (go r).memOk) : (s.awaitFar k ps go).memOk := by
  unfold State.awaitFar
  split
  · exact hgo s h
  · exact h.requests.awaitPages
theorem State.memOk.onProbes {α : Type*} {k : Iss} {ex : List Nat} {ps : List (Nat × Except Probe α)} {write : Bool}
    {go : State → List (Nat × α) → Res} (hgo : ∀ (r : State) (as : List (Nat × α)), r.memOk → (go r as).memOk) :
    (s.onProbes k ex ps write go).memOk := by
  unfold State.onProbes
  split
  · exact h.trapAt
  · split
    · exact h.requests.awaitPages
    · split
      · exact h.hold.leave
      · exact hgo s _ h
theorem State.memOk.onPoison {k : Iss} {test : Loc → Nat → Bool} {ls : List (Loc × Nat)} {go : Res} (hgo : go.memOk) :
    (s.onPoison k test ls go).memOk := by
  unfold State.onPoison
  split
  · exact h.consume
  · exact hgo
theorem State.memOk.askPeer {t i key : Nat} {how : LoadHow} {scale : Byte} {pa : Nat} {op : PeerOp} {role : PeerRole} :
    (s.askPeer t i key how scale pa op role).memOk := h
theorem State.memOk.fillLanes {k : Iss} {as : List (Nat × Access)} {acq : Bool} : (s.fillLanes k as acq).memOk := by
  refine State.memOk.foldl ?_ fun s _ h => ?_ <;> grind [State.fillLanes, memOk.dropSector, memOk.fillLoc]
theorem State.memOk.loadDone {k : Iss} {c : Common} {code : BitVec 8} {regs : Nat} {sx : Bool} {ty : Option (BitVec 4)}
    {as : List (Nat × Access)} {zeros : List Nat} {pred : Nat → Option (BitVec 3 × Bool)} {acq : Bool} :
    (s.loadDone k c code regs sx ty as zeros pred acq).memOk := by
  have hfar {s : State} {i key : Nat} {how : LoadHow} {v : Option (Nat × Nat × Byte × PeerRole)} (h : s.memOk) : (match v with
      | some (pa, n, sc, role) => (s.askPeer k.team i key how sc pa (.load pa n) role).block k.team i (.remoteData key)
      | none => s).memOk := by
    split
    · exact h.askPeer.block
    · exact h
  unfold State.loadDone
  dsimp only
  split
  · exact (h.spinReads.issueResults.foldl fun _ _ h => hfar h).acquire
  · exact h.spinReads.issueResults.foldl fun _ _ h => hfar h
theorem State.memOk.loadLanes {k : Iss} {c : Common} {code : BitVec 8} {regs : Nat} {sx : Bool} {ty : Option (BitVec 4)}
    {as : List (Nat × Access)} {zeros : List Nat} {pred : Nat → Option (BitVec 3 × Bool)} {acq : Bool} :
    (s.loadLanes k c code regs sx ty as zeros pred acq).memOk :=
  h.onPoison h.fillLanes.loadDone
theorem State.memOk.holdStore {t i : Nat} {l : Loc} {bytes : List Byte} : (s.holdStore t i l bytes).memOk := by
  cases l with
  | mem pa => exact h.modWarp
  | _ => exact h
theorem State.memOk.storeDone {k : Iss} {sts : List (Nat × Access × List (Loc × List Byte))} : (s.storeDone k sts).memOk := by
  refine h.foldl fun s e h => ?_
  split
  · exact h.foldl fun _ _ h => h.storeLoc
  · split
    · exact h.foldl fun _ _ h => h.holdStore
    · exact h.block
theorem State.memOk.storeLanes {k : Iss} {sts : List (Nat × Access × List (Loc × List Byte))} : (s.storeLanes k sts).memOk :=
    h.storeDone
theorem State.memOk.standStore {t key : Nat} {e : Nat × Access} {ty : BitVec 4} {v : Nat} :
    (s.standStore t key e ty v).memOk := by
  unfold State.standStore
  dsimp only
  split
  · exact h.askPeer.block
  · refine State.memOk.block ?_
    exact h
theorem State.memOk.typedStores {k : Iss} {code : BitVec 8} {regs : Nat} {ty : BitVec 4} {as : List (Nat × Access)} :
    (s.typedStores k code regs ty as).memOk := by
  refine State.memOk.foldl (State.memOk.foldl ?_ fun _ _ h => h.standStore) fun _ _ h => h.block
  exact h.storeDone
theorem State.memOk.release {t : Nat} {is : List Nat} {r : State} (hr : s.release t is = some r) : r.memOk := by
  unfold State.release at hr
  split at hr
  · cases hr
  · cases hr
    exact h.foldl fun _ _ h => h.settleThread
theorem State.memOk.syncing {t : Nat} {is : List Nat} {go : State → Res} (hgo : ∀ r : State, r.memOk → (go r).memOk) :
    (s.syncing t is go).memOk := by
  unfold State.syncing
  split
  · exact h
  · exact hgo s h
theorem State.memOk.releasing {t : Nat} {is : List Nat} {go : State → Res} (hgo : ∀ r : State, r.memOk → (go r).memOk) :
    (s.releasing t is go).memOk := by
  unfold State.releasing
  split
  · next r hr => exact hgo r (h.release hr)
  · exact h
theorem State.memOk.homeBytes {l : Loc} {n : Nat} : (s.homeBytes l n).1.memOk := by
  cases l with
  | mem pa => exact h.settleBytes
  | _ => exact h
theorem State.memOk.applyAtom {t i : Nat} {l : Loc} {n aop b : Nat} : (s.applyAtom t i l n aop b).1.memOk := by
  grind [State.applyAtom, memOk.homeBytes, memOk.dropLine, memOk.writeLoc]
theorem State.memOk.applyAtoms {t key n aop : Nat} {l : List (Nat × Loc × Nat)} : (s.applyAtoms t key n aop l).1.memOk := by
  induction l generalizing s with
  | nil => exact h
  | cons e l ih =>
    unfold State.applyAtoms
    split
    · exact ih h.askPeer
    · exact ih h.applyAtom
theorem State.memOk.redLane {t n aop : Nat} {e : Nat × Loc × Nat} : (s.redLane t n aop e).memOk := by
  grind [State.redLane, memOk.dropLine, memOk.queueStore, memOk.sendPeer, memOk.applyAtom]
theorem State.memOk.atomDone {k : Iss} {c : Common} {code : BitVec 8} {wid : BitVec 3} {aop : Nat}
    {ls : List (Nat × Loc × Nat)} {acq : Bool} : (s.atomDone k c code wid aop ls acq).memOk := by
  have hatoms {r : State} (hr : r.memOk) {n n' : Nat} {vals : List (Nat × Option Nat × Option (BitVec 3 × Bool))} :
      ({ ({ r with nextId := n } : State).issueResults k c code (widRegs wid) vals with nextId := n' } : State).memOk := by
    refine State.memOk.issueResults (s := { r with nextId := n }) ?_
    exact hr
  have hfresh : (s.fresh.2.applyAtoms k.team s.fresh.1 (widBytes wid) aop ls).1.memOk :=
    State.memOk.applyAtoms (s := s.fresh.2) h
  unfold State.atomDone
  refine State.memOk.foldl (State.memOk.ite (State.memOk.acquire (hatoms hfresh)) (hatoms hfresh)) fun s e h => ?_
  split
  · exact h.block
  · exact h
theorem State.memOk.atomLanes {k : Iss} {c : Common} {code : BitVec 8} {wid : BitVec 3} {aop : Nat}
    {ls : List (Nat × Loc × Nat)} {acq : Bool} : (s.atomLanes k c code wid aop ls acq).memOk :=
  h.onPoison h.atomDone

end

end Sys2Proof.Machine
end

section
/-! Every step keeps the canonical form of memory: the words of integers, floating point, conversion and moves (R104 to R122). -/

namespace Sys2Proof.Machine

open Sys2Proof

section
variable {s : State} (h : s.memOk)
include h

theorem State.memOk.mapTo {k : Iss} {ex : List Nat} {code : BitVec 8} {n : Nat} {f : Nat → Nat} :
    (s.mapTo k ex code n f).memOk := h.putAll
theorem State.memOk.alu {i : Instr} {w : FA} {nd : Nat} {f : State → Nat → Nat → Nat} : memOkAfter (alu i w nd f s) := by
  grind [alu, memOk.simple, memOk.mapTo]
theorem State.memOk.aluPred {i : Instr} {w : FA} {nd : Nat} {pd : BitVec 3}
    {f : State → Nat → Nat → Nat × Bool} : memOkAfter (aluPred i w nd pd f s) :=
  h.simple fun _ _ _ h => h.putAll.foldl fun _ _ h => h.putPred
theorem State.memOk.arith {i : Instr} {w : FA} {f : State → Nat → Nat → Int} : memOkAfter (arith i w f s) := h.alu
theorem State.memOk.bitwise {i : Instr} {w : FA} {f : State → Nat → Nat → Nat} : memOkAfter (bitwise i w f s) := h.alu
theorem State.memOk.emulated {i : Instr} {c : Common} : memOkAfter (emulated i c s) := by
  grind [emulated, memOk.word, memOk.goOn, memOk.emulate, Res.memOk]
theorem State.memOk.falu {i : Instr} {w : FA} {f : State → Nat → Nat → Nat} : memOkAfter (falu i w f s) := h.alu
theorem State.memOk.longAlu {i : Instr} {w : FA} {n : Nat} {f : State → Nat → Nat → Nat} : memOkAfter (longAlu i w n f s) := by
  grind [longAlu, memOk.simple, memOk.issueResults]
theorem State.memOk.execNop {cls : BitVec 2} {w : FN} : memOkAfter (execNop cls w s) :=
  h.simple fun _ _ _ h => State.memOk.ite (h.foldl fun _ _ h => h.modThread) h
theorem State.memOk.execMovi {w : FV} : memOkAfter (execMovi w s) := by
  grind [execMovi, memOk.simple, memOk.mapTo]
theorem State.memOk.execMovh {w : FV} : memOkAfter (execMovh w s) := by
  grind [execMovh, memOk.simple, memOk.mapTo]
theorem State.memOk.drainGang {c p : Nat} {g : Gang} {n : Nat} : (s.drainGang c p g n).1.memOk := by
  induction n generalizing s with
  | zero => exact h
  | succ n ih => grind [State.drainGang, memOk.drainSeq]
theorem State.memOk.drainGangs {t : Nat} {l : List Nat} : (s.drainGangs t l).1.memOk := by
  induction l generalizing s with
  | nil => exact h
  | cons w l ih => grind [State.drainGangs, memOk.drainGang]
theorem State.memOk.execRds {w : FA} : memOkAfter (execRds w s) := by
  grind [execRds, memOk.word, memOk.goOn, memOk.drainGangs, memOk.mapTo, memOk.awaitPages, memOk.consume, Res.memOk]
theorem State.memOk.execWrs {w : FA} : memOkAfter (execWrs w s) :=
  h.simple fun _ _ _ h => h.foldl fun _ _ h => h.modWarp
theorem State.memOk.execPlop {w : FA} : memOkAfter (execPlop w s) :=
  h.simple fun _ _ _ h => h.foldl fun _ _ h => h.putPred
theorem State.memOk.execPmovGet {w : FA} : memOkAfter (execPmovGet w s) := by
  grind [execPmovGet, memOk.simple, memOk.mapTo]
theorem State.memOk.execPmovSet {w : FA} : memOkAfter (execPmovSet w s) :=
  h.simple fun _ _ _ h => h.foldl fun _ _ h => h.modThread

end

end Sys2Proof.Machine
end

section
/-! Every step keeps the canonical form of memory: the words of memory (R177 to R191). -/

namespace Sys2Proof.Machine

open Sys2Proof

section
variable {s : State} (h : s.memOk)
include h

theorem State.memOk.probeGlobal {k : Iss} {w : FM} {ex : List Nat} {a : Touch} : (s.probeGlobal k w ex a).1.memOk := by
  grind [State.probeGlobal, memOk.probeEach, memOk.accessTyped, memOk.access]
theorem State.memOk.execLd {w : FM} : memOkAfter (execLd w s) := by
  grind [execLd, memOk.word, memOk.goOn, memOk.probeGlobal, memOk.onProbes, memOk.loadLanes]
theorem State.memOk.execSt {w : FM} : memOkAfter (execSt w s) := by
  refine h.word (fun _ _ h => h) fun s k ex h => h.probeGlobal.onProbes fun s as h => ?_
  split
  · exact h.onPoison (State.memOk.typedStores (h.foldl fun _ _ h => h.fillLoc))
  · exact h.storeLanes
theorem State.memOk.execLdnr {w : FM} : memOkAfter (execLdnr w s) := by
  grind [execLdnr, memOk.word, memOk.goOn, memOk.probeGlobal, memOk.onProbes, memOk.loadLanes]
theorem State.memOk.execLda {w : FM} : memOkAfter (execLda w s) := by
  grind [execLda, memOk.word, memOk.acquire, memOk.probeGlobal, memOk.onProbes, memOk.syncing, memOk.loadLanes, Res.memOk]
theorem State.memOk.storeHome {k : Iss} {i : Nat} {l : Loc} {bytes : List Byte} : (s.storeHome k i l bytes).memOk :=
    h.writeLoc.dropSector
theorem State.memOk.execStl {w : FM} : memOkAfter (execStl w s) :=
  h.word (fun _ _ h => h) fun _ _ _ h => h.probeGlobal.onProbes fun _ _ h => h.releasing fun _ h => h.foldl fun _ _ h =>
    h.storeHome
theorem State.memOk.execLds {w : FM} : memOkAfter (execLds w s) := by
  grind [execLds, memOk.word, memOk.goOn, memOk.onProbes, memOk.loadLanes]
theorem State.memOk.execSts {w : FM} : memOkAfter (execSts w s) := by
  grind [execSts, memOk.word, memOk.goOn, memOk.onProbes, memOk.storeLanes]
theorem State.memOk.storeShared {t : Nat} {is : List Nat} {l : Loc} {bytes : List Byte} : (s.storeShared t is l bytes).memOk := by
  unfold State.storeShared
  cases l with
  | mem pa => exact h.storeLoc.settleBytes
  | peer pa =>
    dsimp only
    split <;> exact h.storeLoc
  | _ => exact h.storeLoc
theorem State.memOk.qstBlock {t : Nat} {ty : BitVec 4} {ls : List (Nat × Nat × Access × Nat)} {base : Nat} :
    (s.qstBlock t ty ls base).memOk := by
  unfold State.qstBlock
  split
  · exact h
  · split
    · exact h.storeShared.storeShared
    · exact h
theorem State.memOk.probeQst {k : Iss} {w : FM} {ex : List Nat} : (s.probeQst k w ex).1.memOk := by
  grind [State.probeQst, memOk.probeEach, memOk.accessTyped]
theorem State.memOk.qstDone {k : Iss} {w : FM} {ex : List Nat} {as : List (Nat × Access)} : (s.qstDone k w ex as).memOk :=
  h.foldl fun _ _ h => h.foldl fun _ _ h => h.qstBlock
theorem State.memOk.execQst {w : FM} : memOkAfter (execQst w s) := by
  grind [execQst, memOk.word, memOk.goOn, memOk.probeQst, memOk.onProbes, memOk.qstDone, Res.memOk]
theorem State.memOk.probeAtoms {k : Iss} {w : FM} {ex : List Nat} : (s.probeAtoms k w ex).1.memOk := by
  grind [State.probeAtoms, memOk.probeEach, memOk.access]
theorem State.memOk.execAtom {w : FM} : memOkAfter (execAtom w s) := by
  grind [execAtom, memOk.word, memOk.acquire, memOk.probeAtoms, memOk.onProbes, memOk.atomLanes, memOk.releasing,
    memOk.syncing, Res.memOk]
theorem State.memOk.execRed {w : FM} : memOkAfter (execRed w s) :=
  h.word (fun _ _ h => h) fun _ _ _ h => h.probeAtoms.onProbes fun _ _ h => h.onPoison (h.foldl fun _ _ h => h.redLane)
theorem State.memOk.execAtoms {w : FM} : memOkAfter (execAtoms w s) := by
  grind [execAtoms, memOk.word, memOk.goOn, memOk.onProbes, memOk.atomLanes]
theorem State.memOk.execFenceAcq {w : FM} : memOkAfter (execFenceAcq w s) := by
  grind [execFenceAcq, memOk.word, memOk.goOn, memOk.syncing, memOk.acquire, Res.memOk]
theorem State.memOk.execFenceRel {w : FM} : memOkAfter (execFenceRel w s) := by
  grind [execFenceRel, memOk.word, memOk.goOn, memOk.releasing, Res.memOk]
theorem State.memOk.execFenceFull {w : FM} : memOkAfter (execFenceFull w s) := by
  grind [execFenceFull, memOk.word, memOk.goOn, memOk.releasing, memOk.acquire, Res.memOk]
theorem State.memOk.execPref {w : FM} : memOkAfter (execPref w s) :=
  h.simple fun s k ex h => h.foldl fun s i h => by
    grind [memOk.access, memOk.fillLoc]
theorem State.memOk.execPgreq {w : FM} : memOkAfter (execPgreq w s) := by
  refine h.word (fun _ _ h => h) fun s k ex h => ?_
  have hprobes := h.probeEach (f := fun s i => s.access k.team i (s.ea w k.team i) 1 1 { stay := true }) (l := ex)
    fun _ _ h => h.access
  dsimp only
  split
  · exact hprobes.trapAt
  · refine hprobes.awaitFar fun s h => ?_
    split
    · refine State.memOk.foldl h.requests fun s e h => ?_
      split
      · exact h.block
      · exact h
    · exact h.requests
theorem State.memOk.execIcfence {w : FN} : memOkAfter (execIcfence w s) := by
  grind [execIcfence, memOk.simple, memOk.icDrop]
theorem State.memOk.askShapes {k : Iss} {ex : List Nat} {far : List (Nat × Nat)} {near : List (Nat × BitVec 1024)} :
    (s.askShapes k ex far near).memOk := by
  refine State.memOk.foldl (State.memOk.foldl (State.memOk.foldl ?_ fun _ _ h => h.block) fun _ _ h => ?_) fun _ _ h => h.askPeer
  · exact h
  · exact h
theorem State.memOk.execShape {w : FM} : memOkAfter (execShape w s) := by
  refine h.word (fun _ _ h => h) fun s k ex h => (h.probeEach fun _ _ h => h.access).onProbes fun s _ h => h.onPoison ?_
  have hfills {l : List (Nat × Access)} {rs : List (Loc × Nat × Nat)} :
    ((l.foldl (fun (s : State) (e : Nat × Access) => s.fillLoc k.core e.2.loc 128) s).spinReads k rs).memOk :=
    (h.foldl fun _ _ h => h.fillLoc).spinReads
  dsimp only
  split
  · split
    · exact hfills.foldl fun _ _ h => h.modWarp
    · exact hfills.askShapes
  · exact hfills.trapAt
theorem State.memOk.probeTensor {k : Iss} {w : FM} {ex : List Nat} {a : Touch} : (s.probeTensor k w ex a).1.memOk := by
  grind [State.probeTensor, memOk.probeEach, memOk.access]
theorem State.memOk.execLdt {w : FM} : memOkAfter (execLdt w s) := by
  grind [execLdt, memOk.word, memOk.goOn, memOk.probeTensor, memOk.onProbes, memOk.loadLanes]
theorem State.memOk.execStt {w : FM} : memOkAfter (execStt w s) := by
  grind [execStt, memOk.word, memOk.goOn, memOk.probeTensor, memOk.onProbes, memOk.storeLanes]
theorem State.memOk.swSet {t off target : Nat} : (s.swSet t off target).memOk := by
  grind [State.swSet, memOk.padPut]
theorem State.memOk.execSwinit {w : FM} : memOkAfter (execSwinit w s) := by
  refine h.word (fun _ _ h => h) fun s k ex h => h.onProbes fun s as h => h.foldl fun s e h => ?_
  split
  · exact h.swSet
  · exact h

end

end Sys2Proof.Machine
end

section
/-! Every step keeps the canonical form of memory: transfers, barriers, watches, traps and waits (R231 to R240, R246, R54,
R192, R193, R160). -/

namespace Sys2Proof.Machine

open Sys2Proof

section
variable {s : State} (h : s.memOk)
include h

theorem State.memOk.execJmpi {w : FA} : memOkAfter (execJmpi w s) := by
  grind [execJmpi, memOk.word, memOk.goOn, Res.memOk]
theorem State.memOk.execCalli {w : FA} : memOkAfter (execCalli w s) := by
  grind [execCalli, memOk.word, memOk.goOn, Res.memOk]
theorem State.memOk.setMeet {k : Iss} {ex : List Nat} {tag : Nat} {f : Nat → DWord} : (s.setMeet k ex tag f).memOk :=
    h.foldl fun _ _ h => h.modThread
theorem State.memOk.execMeetset {w : FA} : memOkAfter (execMeetset w s) := by
  grind [execMeetset, memOk.simple, memOk.setMeet]
theorem State.memOk.execMeetsetR {w : FA} : memOkAfter (execMeetsetR w s) := by
  grind [execMeetsetR, memOk.simple, memOk.setMeet]
theorem State.memOk.execMeetsetClr {w : FA} : memOkAfter (execMeetsetClr w s) := by
  grind [execMeetsetClr, memOk.simple, memOk.setMeet]
theorem State.memOk.arrive {span : Bool} {t id i : Nat} : (s.arrive span t id i).memOk := by
  grind [State.arrive, memOk.modThread, memOk.spanArrive, memOk.barMod]
theorem State.memOk.barBlock {span : Bool} {t id i : Nat} {g : Word} : (s.barBlock span t id i g).memOk := by
  grind [State.barBlock, memOk.modWarp, memOk.spanMod, memOk.barMod, memOk.block]
theorem State.memOk.arriveAll {span : Bool} {t id : Nat} {l : List Nat} : (s.arriveAll span t id l).1.memOk := by
  induction l generalizing s with
  | nil => exact h
  | cons i l ih => exact ih h.arrive
theorem State.memOk.barWaits {span : Bool} {k : Iss} {id : Nat} {gs : List (Nat × Word)} : (s.barWaits span k id gs).memOk := by
  refine State.memOk.foldl ?_ fun s _ h => ?_ <;> grind [State.barWaits, memOk.acquire, memOk.barBlock]
theorem State.memOk.barArriveForm {i : Instr} {w : FA} {span : Bool} : memOkAfter (Machine.barArrive i w span s) :=
  h.word (fun _ _ h => h) fun _ _ _ h => h.releasing fun _ h => h.arriveAll.putAll
theorem State.memOk.barWait {i : Instr} {w : FA} {span : Bool} : memOkAfter (barWait i w span s) := by
  grind [barWait, memOk.word, memOk.acquire, memOk.syncing, memOk.barWaits, Res.memOk]
theorem State.memOk.barSync {i : Instr} {w : FA} {span : Bool} : memOkAfter (barSync i w span s) := by
  grind [barSync, memOk.word, memOk.acquire, memOk.releasing, memOk.arriveAll, memOk.barWaits, Res.memOk]
theorem State.memOk.probe16 {t i : Nat} {ea : Int} {size align : Nat} : (s.probe16 t i ea size align).1.memOk := by
  grind [State.probe16, memOk.translate, memOk.hostOk]
theorem State.memOk.watchSector {w : FM} {t i : Nat} : (s.watchSector w t i).1.memOk := by
  grind [State.watchSector, memOk.probe16]
theorem State.memOk.execWatch {w : FM} : memOkAfter (execWatch w s) := by
  refine h.word (fun _ _ h => h) fun s k ex h => ?_
  have hprobes := h.probeEach (f := fun s i => s.watchSector w k.team i) (l := ex) fun _ _ h => h.watchSector
  dsimp only
  split
  · exact hprobes.trapAt
  · refine hprobes.awaitFar fun s h => ?_
    split
    · exact h.foldl fun _ _ h => h.modWarp.foldl fun _ _ h => h.dropSector
    · exact h.trapAt
theorem State.memOk.execWatchClr {w : FM} : memOkAfter (execWatchClr w s) :=
  h.simple fun _ _ _ h => h.foldl fun _ _ h => h.modWarp
theorem State.memOk.execWait {w : FN} : memOkAfter (execWait w s) :=
  h.word (fun _ _ h => h) fun _ _ _ h => h.foldl fun _ _ h => h.ite (h.modWarp.ite (h.foldl fun _ _ h => h.block))
theorem State.memOk.execYield {w : FN} : memOkAfter (execYield w s) := by
  grind [execYield, memOk.simple]
theorem State.memOk.execSleep {w : FA} : memOkAfter (execSleep w s) :=
  h.word (fun _ _ h => h) fun _ _ _ h => h.foldl fun _ _ h => h.ite h.block
theorem State.memOk.execGres {w : FA} : memOkAfter (execGres w s) :=
  h.simple fun _ _ _ h => h.foldl fun _ _ h => h.resolve
theorem State.memOk.execTrap {w : FA} : memOkAfter (execTrap w s) := by
  grind [execTrap, memOk.word, memOk.goOn, memOk.trapAt, Res.memOk]
theorem State.memOk.execBrk {cls : BitVec 2} {rest : BitVec 56} : memOkAfter (execBrk cls rest s) := by
  grind [execBrk, memOk.simple]
theorem State.memOk.execSeal {w : FA} : memOkAfter (execSeal w s) :=
  h.word (fun _ _ h => h) fun _ _ _ h => (h.putAll.foldl fun _ _ h => h.modThread).foldl fun _ _ h => h.block
theorem State.memOk.reportPending {k : Iss} {ex : List Nat} {fs : List (Nat × PendFault)} : (s.reportPending k ex fs).memOk :=
  h.raiseAt.foldl fun _ _ h => h.modThread.ite h
theorem State.memOk.waitOver {k : Iss} : (s.waitOver k).memOk := by
  have hacq {f : Thread → Thread} : (k.threads.foldl (fun (s : State) (i : Nat) =>
    s.modThread k.team i f) (s.acquire k.core)).memOk :=
    h.acquire.foldl fun _ _ h => h.modThread
  unfold State.waitOver
  dsimp only
  split
  · exact hacq
  · exact hacq.reportPending
/-- The acquire of the threads whose wait has ended, and the faults that they report. -/
theorem State.memOk.waitEnds {k k' : Iss} {go : List α} {ex : List Nat} {faults : List (Nat × PendFault)} :
    (match faults with
      | [] => Res.ok (if go.isEmpty then s else s.acquire k.core)
      | _ => (if go.isEmpty then s else s.acquire k.core).reportPending k' ex faults).memOk := by
  split
  · exact h.ite h.acquire
  · exact (h.ite h.acquire).reportPending
theorem State.memOk.execWaitb {w : FA} : memOkAfter (execWaitb w s) := by
  refine h.word (fun _ _ h => h.waitOver) fun s k ex h => h.syncing fun s h => ?_
  dsimp only
  split
  · exact h.trapAt
  · refine State.memOk.waitEnds ?_
    exact (h.foldl fun _ _ h => h.modThread).foldl fun _ _ h => h.block
theorem State.memOk.execSwwait {w : FM} : memOkAfter (execSwwait w s) := by
  refine h.word (fun _ _ h => h.waitOver) fun s k ex h => h.onProbes fun s as h => h.syncing fun s h => ?_
  dsimp only
  split
  · exact h.trapAt
  · refine State.memOk.waitEnds ?_
    exact h.foldl fun _ _ h => h.block

end

end Sys2Proof.Machine
end

section
/-! Every step keeps the canonical form of memory: records, launches, signals and the collective branch (R226 to R229, R241 to
R252). -/

namespace Sys2Proof.Machine

open Sys2Proof

section
variable {s : State} (h : s.memOk)
include h

theorem State.memOk.dose {gi : Nat} : (s.dose gi).memOk := h
theorem State.memOk.recAlloc {w : FA} {t i n d : Nat} : (s.recAlloc w t i n d).memOk := by
  grind [State.recAlloc, memOk.block, memOk.modGraph, memOk.modThread, memOk.putReg]
theorem State.memOk.execReca {w : FA} : memOkAfter (execReca w s) := by
  refine h.word (fun _ _ h => h) fun s k ex h => ?_
  dsimp only
  split
  · exact h.trapAt
  · exact h.foldl fun _ _ h => h.recAlloc
theorem State.memOk.recCommit {t i : Nat} {r : RecSlot} : (s.recCommit t i r).memOk := h.modThread
theorem State.memOk.execRecc {w : FA} : memOkAfter (execRecc w s) := by
  refine h.word (fun _ _ h => h) fun s k ex h => ?_
  dsimp only
  split
  · refine h.releasing fun s h => h.foldl fun s r h => ?_
    split
    · exact h.recCommit
    · exact h
  · exact h.trapAt
theorem State.memOk.execRecf {w : FA} : memOkAfter (execRecf w s) := by
  refine h.simple fun s k ex h => h.foldl fun s i h => ?_
  split
  · exact h.modThread.freeSlot
  · exact h
theorem State.memOk.ringTouch {q i : Nat} {write : Bool} : (s.ringTouch q i write).memOk := h.ipaTouch
theorem State.memOk.append {q : Nat} {words : List DWord} : (s.append q words).1.memOk := by
  unfold State.append
  dsimp only
  split
  · exact h
  · split
    · exact (h.ringTouch.foldl fun _ _ h => h.writeLoc).modIface
    · exact h.ringTouch.modIface
/-- The packets of a LAUNCH, one after another. -/
theorem State.memOk.appends {q : Nat → Nat} {t : Nat} {as : List (Nat × Access)} {out : List (Nat × Nat)} :
    (as.foldl (fun (r : State × List (Nat × Nat)) (e : Nat × Access) =>
      match r.1.append (q e.1) (r.1.laneWords t e.1 e.2.loc 8) with
      | (s, some n) => (s, r.2 ++ [(e.1, n)])
      | (s, none) => (s, r.2 ++ [(e.1, 0xFFFFFFFF)])) (s, out)).1.memOk := by
  induction as generalizing s out with
  | nil => exact h
  | cons e as ih =>
    have happ := h.append (q := q e.1) (words := s.laneWords t e.1 e.2.loc 8)
    rw [List.foldl_cons]
    split
    · next r n hr => rw [hr] at happ; exact ih happ
    · next r hr => rw [hr] at happ; exact ih happ
theorem State.memOk.execLaunch {w : FA} : memOkAfter (execLaunch w s) := by
  refine h.word (fun _ _ h => h) fun s k ex h => (h.probeEach fun s i h => ?_).onProbes fun r as h =>
    h.releasing fun r h => h.onPoison ?_
  · grind [memOk.probe16]
  · have happends := State.memOk.appends (h.foldl (l := as) (f := fun s e => s.fillLoc k.core e.2.loc 64) fun _ _ h => h.fillLoc)
      (q := fun i => s.src k.team i w.sb w.sc 1) (t := k.team) (as := as) (out := [])
    exact happends.putAll
theorem State.memOk.execSignal {w : FA} : memOkAfter (execSignal w s) :=
  h.word (fun _ _ h => h) fun _ _ _ h => (h.probeEach fun _ _ h => h.access).onProbes fun _ _ h => h.releasing fun _ h =>
    h.foldl fun _ _ h => h.storeHome.coalesce.ite h.storeHome
theorem State.memOk.branch {k : Iss} {w : FA} {v : Nat} {here : List Nat} : (s.branch k w v here).memOk := by
  unfold State.branch
  dsimp only
  split
  · exact h
  · refine State.memOk.deliver (State.memOk.ite (State.memOk.foldl (State.memOk.modWarp ?_) fun _ _ h =>
    h.block) (State.memOk.modWarp ?_)) <;> split
    · exact h.bindRank.contribute.foldl fun _ _ h => h.putPred
    · exact h.bindRank.contribute
    · exact h.bindRank.contribute.foldl fun _ _ h => h.putPred
    · exact h.bindRank.contribute
theorem State.memOk.execCbr {w : FA} : memOkAfter (execCbr w s) := by
  refine h.word (fun _ _ h => h) fun s k ex h => ?_
  split
  · exact h.releasing fun _ h => h.foldl fun _ _ h => h.branch
  · exact h.trapAt
theorem State.memOk.syncWarp {t v : Nat} {here : List Nat} : (s.syncWarp t v here).memOk := by
  unfold State.syncWarp
  split
  · exact h.bindRank.foldl fun _ _ h => h.block
  · exact h.bindRank
  · exact h
theorem State.memOk.execCbsync {w : FA} : memOkAfter (execCbsync w s) := by
  refine h.word (fun _ _ h => h) fun s k ex h => ?_
  split
  · exact h.foldl fun _ _ h => h.syncWarp
  · exact h.trapAt
theorem State.memOk.abortWarp {t v : Nat} {here : List Nat} : (s.abortWarp t v here).memOk := by
  unfold State.abortWarp
  split
  · exact h
  · exact (h.bindRank.modWarp.foldl fun _ _ h => h.block).abort.deliver
theorem State.memOk.execCbsyncAbort {w : FA} : memOkAfter (execCbsyncAbort w s) := by
  refine h.word (fun _ _ h => h) fun s k ex h => ?_
  split
  · exact h.foldl fun _ _ h => h.abortWarp
  · exact h.trapAt

end

end Sys2Proof.Machine
end

section
/-! Every step keeps the canonical form of memory: the matrix words (R128 to R149). -/

namespace Sys2Proof.Machine

open Sys2Proof

section
variable {s : State} (h : s.memOk)
include h

theorem State.memOk.latchChecks {c p : Nat} : (s.latchChecks c p).memOk := by
  refine State.memOk.foldl ?_ fun s _ h => ?_ <;> grind [State.latchChecks, memOk.latchCheck]
theorem State.memOk.wakeAlloc {c p : Nat} : (s.wakeAlloc c p).memOk := h.wakeAll.latchChecks
theorem State.memOk.mtxReady {k : Iss} {v b n : Nat} {here : List Nat} : (s.mtxReady k v b n here).1.memOk := by
  grind [State.mtxReady, memOk.restore, memOk.drain]
theorem State.memOk.mtxTests {k : Iss} {ex : List Nat} {test : State → Nat → List Nat → State × Mtx}
    (htest : ∀ (r : State) (v : Nat) (here : List Nat), r.memOk → (test r v here).1.memOk) :
    (s.mtxTests k ex test).1.memOk := by
  have hl {l : List Nat} {ms : List (Nat × Mtx)} {r : State} (hr : r.memOk) :
    (l.foldl (fun (r : State × List (Nat × Mtx)) (v : Nat) => ((test r.1 v (s.ofWarp k.team v ex)).1, r.2 ++ [(v,
    (test r.1 v (s.ofWarp k.team v ex)).2)])) (r, ms)).1.memOk := by
    induction l generalizing r ms with
    | nil => exact hr
    | cons v l ih => exact ih (htest r v _ hr)
  exact hl h
theorem State.memOk.mtxActs {k : Iss} {ex : List Nat} {ms : List (Nat × Mtx)}
    {go : State → Nat → List Nat → Drain → State}
    (hgo : ∀ (r : State) (v : Nat) (here : List Nat) (d : Drain), r.memOk → (go r v here d).memOk) :
    (s.mtxActs k ex ms go).memOk := by
  refine h.foldl fun s e h => ?_
  dsimp only
  split
  · exact h.foldl fun _ _ h => h.block
  · exact hgo s _ _ _ h
  · exact h
theorem State.memOk.mtxAll {k : Iss} {ex : List Nat} {test : State → Nat → List Nat → State × Mtx}
    {go : State → Nat → List Nat → Drain → State}
    (htest : ∀ (r : State) (v : Nat) (here : List Nat), r.memOk → (test r v here).1.memOk)
    (hgo : ∀ (r : State) (v : Nat) (here : List Nat) (d : Drain), r.memOk → (go r v here d).memOk) :
    (s.mtxAll k ex test go).memOk := by
  have hr : (s.mtxTests k ex test).1.memOk := h.mtxTests htest
  unfold State.mtxAll
  dsimp only
  split
  · exact hr.consume
  · split
    · exact hr.raiseAt
    · split
      · exact hr
      · exact hr.mtxActs hgo
theorem State.memOk.enqueue {k : Iss} {g : Gang} {b n : Nat} {op : SeqOp} : (s.enqueue k g b n op).memOk := h
theorem State.memOk.grant {c p : Nat} {g : Gang} {bs : List Nat} : (s.grant c p g bs).memOk := by
  refine State.memOk.foldl ?_ fun s _ h => ?_ <;> grind [State.grant, memOk.modBank]
theorem State.memOk.allocTest {k : Iss} {w : FX} {v : Nat} {here : List Nat} : (s.allocTest k w v here).1.memOk := by
  grind [State.allocTest, memOk.restore]
theorem State.memOk.allocGo {k : Iss} {w : FX} {v : Nat} {here : List Nat} : (s.allocGo k w v here).memOk :=
  State.memOk.ite (h.foldl fun _ _ h => h.block) h.grant
theorem State.memOk.execAlloc {w : FX} : memOkAfter (execAlloc w s) :=
  h.word (fun _ _ h => h) fun _ _ _ h => h.mtxAll (fun _ _ _ h => h.allocTest) fun _ _ _ _ h => h.allocGo
theorem State.memOk.discardHeld {c p : Nat} {g : Gang} {b n : Nat} : (s.discardHeld c p g b n).memOk := h.modSeq.seqAdvance
theorem State.memOk.freeTest {k : Iss} {w : FX} {v : Nat} {here : List Nat} : (s.freeTest k w v here).1.memOk := by
  grind [State.freeTest, memOk.discardHeld, memOk.drain, memOk.restore]
theorem State.memOk.freeRange {k : Iss} {w : FX} : (s.freeRange k w).memOk :=
  (h.foldl fun _ _ h => h.modBank).wakeAlloc
theorem State.memOk.execFree {w : FX} : memOkAfter (execFree w s) := by
  refine h.word (fun _ _ h => h) fun s k ex h => ?_
  have hall := h.mtxAll (k := k) (ex := ex) (test := fun r v here =>
    if (s.sameGang k.team ex).contains (here.headD 0) then (r, .ready .clear) else r.freeTest k w v here)
    (go := fun r _ here _ => if (s.sameGang k.team ex).contains (here.headD 0) then r else r.freeRange k w)
    (fun r v here h => by split; exacts [h, h.freeTest]) (fun r v here d h => h.ite h.freeRange)
  dsimp only
  split
  · next hr _ => rw [hr] at hall; exact (State.memOk.ungroup hall).finish.tidy
  · exact hall
theorem State.memOk.capture {k : Iss} {w : FX} {v : Nat} {g : Gang} {bad : Option NotInstr} : (s.capture k w v g bad).memOk := by
  refine State.memOk.modTeam ?_ fun _ hm => hm
  exact h
theorem State.memOk.arriveLatch {g : Gang} {v : Nat} : (s.arriveLatch g v).memOk := by
  grind [State.arriveLatch, memOk.modTeam]
theorem State.memOk.mmaArrive {k : Iss} {w : FX} {bad : Option NotInstr} {v : Nat} {here : List Nat} :
    (s.mmaArrive k w bad v here).memOk := by
  have hcap : (if (s.latch (s.gangOf k.team v)).isNone then s.capture k w v (s.gangOf k.team v) bad else s).memOk :=
    h.capture.ite h
  unfold State.mmaArrive
  dsimp only
  generalize (if (s.latch (s.gangOf k.team v)).isNone then s.capture k w v (s.gangOf k.team v) bad else s) = r at hcap ⊢
  split
  · exact hcap
  · refine State.memOk.ite (hcap.foldl fun _ _ h => h.block) ?_
    split
    · exact hcap.arriveLatch
    · exact hcap.arriveLatch.accept.ite (State.memOk.ite (State.memOk.enterLatch (hcap.arriveLatch.foldl fun _ _ h => h.block))
        (hcap.arriveLatch.foldl fun _ _ h => h.block))
theorem State.memOk.execMma {w : FX} : memOkAfter (execMma w s) := by
  refine h.word (fun _ _ h => h.finish) fun s k ex h => ?_
  dsimp only
  split
  · exact h.raiseAt
  · exact h.releasing fun _ h => h.foldl fun _ _ h => h.mmaArrive
theorem State.memOk.aczGo {k : Iss} {w : FX} {v : Nat} {d : Drain} : (s.aczGo k w v d).memOk := by
  unfold State.aczGo
  split
  · exact h.foldl fun _ _ h => h.modBank
  · exact h.enqueue
theorem State.memOk.execAcz {w : FX} : memOkAfter (execAcz w s) :=
  h.word (fun _ _ h => h) fun _ _ _ h => h.mtxAll (fun _ _ _ h => h.mtxReady) fun _ _ _ _ h => h.aczGo
theorem State.memOk.acrdGo {k : Iss} {w : FX} {v : Nat} {here : List Nat} {d : Drain} : (s.acrdGo k w v here d).memOk :=
  h.issueResults.ite (h.issueResults.foldl fun _ _ h => h.enqueue)
theorem State.memOk.execAcrd {w : FX} : memOkAfter (execAcrd w s) :=
  h.word (fun _ _ h => h) fun _ _ _ h => h.mtxAll (fun _ _ _ h => h.mtxReady) fun _ _ _ _ h => h.acrdGo
theorem State.memOk.acwrGo {k : Iss} {w : FX} {v : Nat} {here : List Nat} {d : Drain} : (s.acwrGo k w v here d).memOk := by
  unfold State.acwrGo
  dsimp only
  split
  · exact h.foldl fun _ _ h => h.setAcc
  · exact h.enqueue
theorem State.memOk.execAcwr {w : FX} : memOkAfter (execAcwr w s) :=
  h.word (fun _ _ h => h) fun _ _ _ h => h.mtxAll (fun _ _ _ h => h.mtxReady) fun _ _ _ _ h => h.acwrGo
theorem State.memOk.probeRuns {t i : Nat} {a : Touch} {fmt : Option Nat} {l : List (Int × Nat)} :
    (s.probeRuns t i a fmt l).1.memOk := by
  induction l generalizing s with
  | nil => exact h
  | cons x l ih =>
    obtain ⟨va, n⟩ := x
    unfold State.probeRuns
    dsimp only
    grind [memOk.probeEa]
theorem State.memOk.ofProbe {t : Nat} {here : List Nat} {write : Bool}
    {r : Option (Nat × Nat × Bool) × List PageKey × Option Nat} {d : Drain} : (Mtx.ofProbe s t here write r d).1.memOk := by
  unfold Mtx.ofProbe
  split
  · exact h
  · exact h.requests
  · exact h
  · exact h
theorem State.memOk.startMove {k : Iss} {v b n : Nat} {here : List Nat} {op : CmdOp} {todo : List Nat} {seq : Nat → SeqOp} :
    (s.startMove k v b n here op todo seq).memOk := h
theorem State.memOk.acldTest {k : Iss} {w : FX} {v : Nat} {here : List Nat} : (s.acldTest k w v here).1.memOk := by
  grind [State.acldTest, memOk.mtxReady, memOk.probeRuns, memOk.ofProbe]
theorem State.memOk.acldGo {k : Iss} {w : FX} {v : Nat} {here : List Nat} : (s.acldGo k w v here).memOk := h
theorem State.memOk.execAcld {w : FX} : memOkAfter (execAcld w s) :=
  h.word (fun _ _ h => h) fun _ _ _ h => h.mtxAll (fun _ _ _ h => h.acldTest) fun _ _ _ _ h => h.acldGo
theorem State.memOk.acstTest {k : Iss} {w : FX} {v : Nat} {here : List Nat} : (s.acstTest k w v here).1.memOk := by
  grind [State.acstTest, memOk.mtxReady, memOk.probeEa, memOk.peekFmt, memOk.ofProbe, memOk.probeRuns]
theorem State.memOk.acstGo {k : Iss} {w : FX} {v : Nat} {here : List Nat} : (s.acstGo k w v here).memOk := h.peekFmt.startMove
theorem State.memOk.execAcst {w : FX} : memOkAfter (execAcst w s) :=
  h.word (fun _ _ h => h) fun _ _ _ h => h.mtxAll (fun _ _ _ h => h.acstTest) fun _ _ _ _ h => h.acstGo

end

end Sys2Proof.Machine
end

section
/-! Every step keeps the canonical form of memory: the engine commands and collectives (R194 to R202, R340 to R344). -/

namespace Sys2Proof.Machine

open Sys2Proof

/-- Memory is in its form however a move of bytes ends. -/
def Moved.memOk : Moved → Prop
  | .waits s | .moved s _ => s.memOk
/-- Memory is in its form however a hop ends. -/
def Hop.memOk : Hop → Prop
  | .on s _ | .over_ s => s.memOk
  | .bad _ | .poison _ => True
/-- Memory is in its form where a hop ends, or where it ends early. -/
def hopOk : Except Hop Hop → Prop
  | .ok x | .error x => x.memOk
/-- Memory is in its form where what a hop reads ends it early. -/
def earlyOk {α : Type} (r : Except Hop α) : Prop := ∀ x : Hop, r = .error x → x.memOk

theorem earlyOk.bind {α β : Type} {r : Except Hop α} {f : α → Except Hop β} (hr : earlyOk r) (hf : ∀ v : α, earlyOk (f v)) :
    earlyOk (r >>= f) := by
  cases r with
  | error x => rintro y ⟨⟩; exact hr x rfl
  | ok v => exact hf v
theorem earlyOk.hop {α : Type} {r : Except Hop α} {f : α → Except Hop Hop} (hr : earlyOk r) (hf : ∀ v : α, hopOk (f v)) :
    hopOk (r >>= f) := by
  cases r with
  | error x => exact hr x rfl
  | ok v => exact hf v
theorem earlyOk_walkRead {s : State} {t va n : Nat} : earlyOk (s.walkRead t va n) := by
  unfold State.walkRead
  split
  · rintro _ ⟨⟩; trivial
  · split <;> rintro _ ⟨⟩
    trivial
theorem earlyOk_walkDesc {s : State} {t a : Nat} : earlyOk (s.walkDesc t a) :=
  earlyOk_walkRead.bind fun _ => earlyOk_walkRead.bind fun _ => earlyOk_walkRead.bind fun _ => earlyOk_walkRead.bind
    fun _ _ hx => nomatch hx
/-- What a command does where a hop ends. -/
theorem hopOk.ends {r : Except Hop Hop} (hr : hopOk r) {on : State → Nat → State} {over_ : State → State} {bad : Nat → State}
    {poison : Loc → State} (hon : ∀ (s : State) (v : Nat), s.memOk → (on s v).memOk)
    (hover : ∀ s : State, s.memOk → (over_ s).memOk) (hbad : ∀ a : Nat, (bad a).memOk)
    (hpoison : ∀ l : Loc, (poison l).memOk) :
    (match (match r with | .ok x => x | .error x => x) with
      | .on s v => on s v
      | .over_ s => over_ s
      | .bad a => bad a
      | .poison l => poison l).memOk := by
  cases r with
  | ok x | error x =>
    cases x with
    | on s v => exact hon s v hr
    | over_ s => exact hover s hr
    | bad a => exact hbad a
    | poison l => exact hpoison l

section
variable {s : State} (h : s.memOk)
include h

theorem State.memOk.startCmd {k : Iss} {guard : Option Nat} {joins : List Nat} {op : CmdOp} {todo : List Nat}
    {sync : Option Nat} : (s.startCmd k guard joins op todo sync).memOk := by
  unfold State.startCmd
  dsimp only
  split
  · refine State.memOk.modWarp ?_
    exact h
  · exact h
theorem State.memOk.engineWord {i : Instr} {w : FX} {units : State → Iss → List Nat → List (List Nat)}
    {plan : State → Iss → List Nat → Plan} : memOkAfter (engineWord i w units plan s) := by
  refine h.word (fun _ _ h => h) fun s k ex h => ?_
  dsimp only
  split
  · exact h.trapAt
  · refine h.foldl fun s u h => ?_
    split
    · exact h.startCmd
    · exact h
theorem State.memOk.setCmd {c : Cmd} : (s.setCmd c).memOk := h
theorem State.memOk.pieceDone {c : Cmd} {piece : Nat} : (s.pieceDone c piece).memOk := by
  grind [State.pieceDone, memOk.setCmd, memOk.modSeq, memOk.seqAdvance, memOk.finishCmd]
theorem State.memOk.probeByte {t : Nat} {priv : Bool} {a : Int} {store : Bool} : (s.probeByte t priv a store).1.memOk := by
  grind [State.probeByte, memOk.checks59]
theorem State.memOk.probeBytes {t : Nat} {priv store : Bool} {l : List (Option Int)} : (s.probeBytes t priv store l).1.memOk := by
  induction l generalizing s with
  | nil => exact h
  | cons x l ih =>
    cases x with
    | none => exact ih h
    | some a => exact ih h.probeByte
theorem State.memOk.engineWaits {c : Cmd} {write : Bool} {ps : List Probe}
    {r : State} (hr : s.engineWaits c write ps = some r) : r.memOk := by
  grind [State.engineWaits, memOk.requests]
theorem State.memOk.cmdPut {c : Cmd} {l : List (Loc × Byte × Bool)} : (s.cmdPut c l).memOk := h.foldl fun _ _ h => h.writeLoc
theorem State.memOk.moveBytes {c : Cmd} {taint : Int → Bool} {ms : List (Int × Option Int)} : (s.moveBytes c taint ms).memOk := by
  have hprobes : ((s.probeBytes c.team c.priv false (ms.map Prod.snd)).1.probeBytes c.team c.priv true (ms.map fun m =>
    some m.1)).1.memOk :=
    h.probeBytes.probeBytes
  unfold State.moveBytes
  dsimp only
  split
  · next r hr => exact hprobes.engineWaits hr
  · split
    · next r hr => exact hprobes.engineWaits hr
    · exact hprobes.unmixAll.cmdPut.farDrop
theorem State.memOk.count {c : Cmd} {n : Nat} {final : Bool} : (s.count c n final).1.memOk := by
  have hadds {l : List Nat} {off : Nat} : (l.foldl (fun (s : State) (k : Nat) => s.syncAdd c.team off k) s).memOk :=
    h.foldl fun _ _ h => h.syncAdd
  unfold State.count
  split
  · exact h
  · dsimp only
    split
    · exact hadds
    · split
      · exact hadds.blame.syncAdd
      · exact hadds.syncAdd
theorem State.memOk.loadIndex {c : Cmd} {idx n : Nat} : (s.loadIndex c idx n).1.memOk := by
  grind [State.loadIndex, memOk.probeBytes, memOk.engineWaits, memOk.unmixAll, memOk.farDrop]
theorem State.memOk.seqTurn {core part : Nat} {op : SeqOp} {bank n : Nat}
    {r : State} (hr : s.seqTurn core part op bank n = some r) : r.memOk := by
  grind [State.seqTurn, memOk.bring]
/-- A move of bytes for a piece of a command, what it counts, and the end of the piece. -/
theorem State.memOk.movePiece {c : Cmd} {piece : Nat} {taint : Int → Bool} {ms : List (Int × Option Int)} {n : Nat}
    {extra : Option (Nat × Nat × Bool)} :
    (match s.moveBytes c taint ms with
      | .waits s => s
      | .moved s c =>
        let (s, c) := s.count (c.note extra) n (c.todo.all (· == piece))
        (s.setCmd c).pieceDone c piece).memOk := by
  have hm := h.moveBytes (c := c) (taint := taint) (ms := ms)
  split
  · next r hr => rw [hr] at hm; exact hm
  · next r c' hr => rw [hr] at hm; exact (State.memOk.count hm).setCmd.pieceDone
theorem State.memOk.transfer {c : Cmd} {piece : Nat} : (s.transfer c piece).memOk := by
  unfold State.transfer
  dsimp only
  split
  case h_1 => exact h.ite h.movePiece
  case h_2 => grind [memOk.loadIndex, memOk.setCmd, memOk.finishCmd]
  case h_3 => exact h.ite h.movePiece
  case h_4 => grind [memOk.loadIndex, memOk.count, memOk.setCmd, memOk.finishCmd]
  case h_5 => exact h.ite h.movePiece
  case h_6 => exact h.finishCmd.ite (h.ite h.movePiece)
  case h_7 =>
    split
    · exact h
    · next r hr =>
      have hturn : r.memOk := h.seqTurn hr
      refine hturn.pieceDone.ite (hturn.ite ?_)
      split
      · next r' _ hr' => exact hturn.probeBytes.engineWaits hr'
      · exact hturn.probeBytes.consume
      · refine State.memOk.pieceDone (State.memOk.setCmd (State.memOk.farDrop (hturn.probeBytes.unmixAll.foldl fun s x h => ?_)))
        split
        · exact h.setAcc
        · exact h
  case h_8 =>
    split
    · exact h
    · next r hr =>
      have hturn : r.memOk := h.seqTurn hr
      refine hturn.pieceDone.ite (hturn.ite ?_)
      split
      · next r' hr' => exact hturn.probeBytes.engineWaits hr'
      · exact hturn.probeBytes.cmdPut.setCmd.pieceDone
  case h_9 => exact h
theorem State.memOk.walkWrite {t va : Nat} {bytes : List Byte} {r : State} (hr : s.walkWrite t va bytes = some r) : r.memOk := by
  unfold State.walkWrite at hr
  obtain ⟨pa, -, rfl⟩ := Option.map_eq_some_iff.mp hr
  exact h.homeWrite
theorem State.memOk.csrHop {t : Nat} {d : List Nat} {n u : Nat} : hopOk (s.csrHop t d n u) := by
  refine earlyOk_walkRead.hop fun a => earlyOk_walkRead.hop fun b => ?_
  dsimp only
  split
  · split
    · next r hr => exact h.walkWrite hr
    · trivial
  · refine earlyOk_walkRead.hop fun v => ?_
    split
    · next r hr => exact h.walkWrite hr
    · trivial
theorem State.memOk.chainHop {t : Nat} {d : List Nat} {n p : Nat} : hopOk (s.chainHop t d n p) := by
  refine earlyOk_walkRead.hop fun v => ?_
  dsimp only
  split
  · trivial
  · split
    · next r hr =>
      have hw : r.memOk := h.walkWrite hr
      change Hop.memOk (if v = 0 then .over_ r else .on r v)
      split <;> exact hw
    · trivial
theorem State.memOk.hop {c : Cmd} : (s.hop c).memOk := by
  unfold State.hop
  refine State.memOk.ite h ?_
  split
  · have hset : (s.settleThread c.team c.lead).memOk := h.settleThread
    have hgo {d : List Nat} {n v : Nat} : hopOk (if walkMode d = 1 then (s.settleThread c.team c.lead).csrHop c.team d n v
        else (s.settleThread c.team c.lead).chainHop c.team d n v) := by
      split
      · exact hset.csrHop
      · exact hset.chainHop
    dsimp only
    split
    · refine hgo.ends (fun _ _ h => ?_) (fun _ h => h.setCmd.finishCmd) (fun _ => hset.setCmd.finishCmd) fun _ => hset.consume
      exact h.setCmd.finishCmd.ite h.setCmd
    · split
      · next x hx =>
        refine hopOk.ends (r := .error x) (earlyOk_walkDesc x hx) (fun _ _ h => ?_) (fun _ h => h.setCmd.finishCmd)
          (fun _ => hset.setCmd.finishCmd) fun _ => hset.consume
        exact h.setCmd.finishCmd.ite h.setCmd
      · refine hset.setCmd.finishCmd.ite ?_
        refine hgo.ends (fun _ _ h => ?_) (fun _ h => h.setCmd.finishCmd) (fun _ => hset.setCmd.finishCmd) fun _ => hset.consume
        exact h.setCmd.finishCmd.ite h.setCmd
  · exact h

end

end Sys2Proof.Machine
end

section
/-! Every step keeps the canonical form of memory: the data collectives (R340 to R344). -/

namespace Sys2Proof.Machine

open Sys2Proof

section
variable {s : State} (h : s.memOk)
include h

theorem State.memOk.probeAs {c : Cmd} {store : Bool} {as : List (Option Int)} : (s.probeAs c store as).1.memOk := by
  grind [State.probeAs, memOk.probeBytes, State.memOk]
theorem State.memOk.readLeaf {slot : Nat} {o : CollOp} : (s.readLeaf slot o).memOk := by
  grind [State.readLeaf, memOk.probeAs, memOk.engineWaits, memOk.unmixAll, memOk.modComm, memOk.setCmd, memOk.farDrop]
theorem State.memOk.endOp {slot : Nat} {o : CollOp} : (s.endOp slot o).memOk := by
  grind [State.endOp, memOk.modComm, memOk.finishCmd]
theorem State.memOk.barTry {slot k : Nat} : (s.barTry slot k).memOk := by
  unfold State.barTry
  split
  · exact h
  · exact State.memOk.ite (h.foldl fun _ _ h => h.endOp) h
theorem State.memOk.collStart {k : Iss} {op : Nat} {w : FX} {v : Nat} {here : List Nat} : (s.collStart k op w v here).memOk := by
  unfold State.collStart
  dsimp only
  split
  · exact h
  · next c r _ =>
    have hops {guard : Option Nat} {joins todo : List Nat} {cop : CmdOp} {sync : Option Nat} {f : Comm → Comm} :
    ((((s.bindRank c.slot r k.team v).modWarp k.team v fun x => { x with colls :=
    x.colls + 1 }).startCmd k guard joins cop todo sync).modComm c.slot f).memOk :=
      h.bindRank.modWarp.startCmd.modComm
    have hsent {l : List Nat} {m : Nat → FMsg} {r : State} (hr : r.memOk) :
    (l.foldl (fun (s : State) (chip : Nat) => s.sendTo_ c.slot chip (m chip)) r).memOk := hr.foldl fun _ _ h => h.sendTo_
    exact State.memOk.ite (State.memOk.failComm hops) (State.memOk.ite (State.memOk.barTry (hsent hops)) (State.memOk.readLeaf
    (hsent hops)))
theorem State.memOk.collective {i : Instr} {op : Nat} {w : FX} : memOkAfter (collective i op w s) := by
  refine h.word (fun _ _ h => h) fun s k ex h => ?_
  dsimp only
  split
  · exact h.trapAt
  · exact h.releasing fun _ h => h.foldl fun _ _ h => h.collStart
theorem State.memOk.writeRuns {c : Cmd} {ws : List (Nat × List (Byte × Bool))} : (s.writeRuns c ws).memOk := by
  unfold State.writeRuns
  dsimp only
  split
  · next r hr => exact h.probeAs.engineWaits hr
  · exact h.probeAs.cmdPut
theorem State.memOk.chunkAt {slot chunk : Nat} {leaves : List Leaf} {o : CollOp} : (s.chunkAt slot chunk leaves o).memOk := by
  unfold State.chunkAt
  split
  · exact h
  · next c _ =>
    have hw := h.writeRuns (c := c) (ws := chunkWrites o leaves (65536 * chunk))
    split
    · exact h
    · split
      · next r hr => rw [hr] at hw; exact hw
      · next r c' hr =>
        rw [hr] at hw
        exact State.memOk.ite (State.memOk.endOp (State.memOk.setCmd hw)) (State.memOk.setCmd hw)
theorem State.memOk.collChunk {slot k chunk : Nat} {remote : List (Nat × OpSig × List (Byte × Bool))} :
    (s.collChunk slot k chunk remote).memOk := by
  have hleaves {l : List CollOp} : (l.foldl (fun (s : State) (o : CollOp) => s.readLeaf slot o) s).memOk :=
    h.foldl fun _ _ h => h.readLeaf
  have hsends {s : State} {l : List CollOp} {chips : List Nat} {f : CollOp → Option Leaf}
    {m : CollOp → Leaf → FMsg} (h : s.memOk) : (chips.foldl (fun (s : State) (_ : Nat) =>
    l.foldl (fun (s : State) (o : CollOp) => match f o with
      | some x => s.send (m o x)
      | none => s) s) s).memOk := by
    refine h.foldl fun s _ h => h.foldl fun s o h => ?_
    split
    · exact h.send
    · exact h
  unfold State.collChunk
  split
  · exact h
  · refine h.ite (h.failComm.ite (h.ite (h.barTry.ite ?_)))
    dsimp only
    split
    · exact hleaves
    · refine hleaves.ite (State.memOk.foldl (State.memOk.modComm (hsends hleaves)) fun _ _ h => h.chunkAt)

end

end Sys2Proof.Machine
end

section
/-! Every step keeps the canonical form of memory: residency and the tumbler's moves (R16, R170, R211 to R214, R221). -/

namespace Sys2Proof.Machine

open Sys2Proof

section
variable {s : State} (h : s.memOk)
include h

theorem State.memOk.swapOut {t w : Nat} : (s.swapOut t w).memOk :=
  (h.foldl fun _ _ h => h.settleThread.settle).ungroup.saveWarp.modWarp
theorem State.memOk.wakeRemote : (s.wakeRemote).memOk := h.wakeAll
theorem State.memOk.padBack {t : Nat} : (s.padBack t).memOk :=
  h.ite (State.memOk.wakeRemote (h.loadPad.modTeam fun _ hm => Memory.wf_foldl_write hm _ _ _))
theorem State.memOk.padAway {t : Nat} : (s.padAway t).memOk := by
  grind [State.padAway, memOk.modTeam, memOk.savePad]
theorem State.memOk.swapIn {t w : Nat} : (s.swapIn t w).memOk :=
  (h.acquire.icDrop.padBack.loadWarp.foldl fun _ _ h => h.modThread).modWarp.wakeRemote.tidy
theorem State.memOk.ticketLoc {l : Nat} : (s.ticketLoc l).1.memOk := by
  grind [State.ticketLoc, memOk.probeCtx]
theorem State.memOk.claimAt {l : Nat} {line : Loc} {die by_ : Nat} : (s.claimAt l line die by_).1.memOk := by
  grind [State.claimAt, memOk.homeBytes, memOk.writeLoc, memOk.modLaunch]

end

end Sys2Proof.Machine
end

section
/-! Every step keeps the canonical form of memory: the SYS words (R302, R303, R317 to R324). -/

namespace Sys2Proof.Machine

open Sys2Proof

section
variable {s : State} (h : s.memOk)
include h

theorem State.memOk.fate {t : Nat} {x : TrapInst} {retry : Bool} : (s.fate t x retry).memOk := by
  unfold State.fate
  split
  · exact h
  · dsimp only
    split
    · exact h
    · exact State.memOk.ite h h
theorem State.memOk.again {t i : Nat} {c : Clause} : (s.again t i c).1.memOk := by
  grind [State.again, memOk.fetchClause]
theorem State.memOk.sendBack {t i : Nat} {x : TrapInst} {b : Back} : (s.sendBack t i x b).1.memOk := by
  have hagain {c : Clause} := h.again (t := t) (i := i) (c := c)
  unfold State.sendBack
  dsimp only
  split
  · exact h.exitThread
  · exact h.modThread
  · exact h.modThread
  · split
    · split
      · next r c hr => exact State.memOk.modThread (Eq.mp (congrArg (fun p => State.memOk p.1) hr) hagain)
      · next r hr => exact State.memOk.modThread (Eq.mp (congrArg (fun p => State.memOk p.1) hr) hagain)
    · exact h.modThread
  · split
    · split
      · next r hr => exact State.memOk.modThread (Eq.mp (congrArg (fun p => State.memOk p.1) hr) hagain)
      · next r c hr =>
        have hr' : r.memOk := Eq.mp (congrArg (fun p => State.memOk p.1) hr) hagain
        split
        · exact hr'.exitThread
        · exact State.memOk.modThread (hr'.modThread.ite hr')
    · exact h.modThread
  · exact h
theorem State.memOk.eret1 {t i : Nat} {x : TrapInst} {retry : Bool} : (s.eret1 t i x retry).1.memOk :=
  State.memOk.leaveInst (State.memOk.sendBack (State.memOk.ite (h.modThread.foldl fun _ _ h => h.putPred) h.modThread))
/-- The threads that return, one after another. -/
theorem State.memOk.erets {t : Nat} {x : TrapInst} {retry : Bool} {ex : List Nat} {out : List (Nat × DWord)} :
    (ex.foldl (fun (r : State × List (Nat × DWord)) (i : Nat) =>
      let (s, o) := r.1.eret1 t i x retry
      (s, r.2 ++ o)) (s, out)).1.memOk := by
  induction ex generalizing s out with
  | nil => exact h
  | cons i ex ih => exact ih h.eret1
theorem State.memOk.eretAll {k : Iss} {ex : List Nat} {x : TrapInst} {retry : Bool} : (s.eretAll k ex x retry).memOk := by
  have hfate {c : Prop} [Decidable c] {is : List Nat} : ((if c then s.fate k.team x retry else s).ungroup k.team is).memOk :=
    State.memOk.ite h.fate h
  unfold State.eretAll
  dsimp only
  refine State.memOk.tidy (State.memOk.splitSets ?_)
  refine State.memOk.erets ?_
  split
  · exact hfate
  · split
    · exact hfate.foldl fun _ _ h => h.modThread
    · exact hfate.putAll
theorem State.memOk.eret {i : Instr} {w : FS} {retry : Bool} : memOkAfter (eret i w retry s) := by
  grind [eret, memOk.word, memOk.goOn, memOk.settleAll, memOk.releasing, memOk.eretAll, memOk.finish, Res.memOk]
theorem State.memOk.sysWord {i : Instr} {w : FS} {body : State → Iss → List Nat → Res}
    (hbody : ∀ (r : State) (k : Iss) (ex : List Nat), r.memOk → (body r k ex).memOk) :
    memOkAfter (sysWord i w body s) := by
  refine h.word (fun _ _ h => h) fun s k ex h => ?_
  dsimp only
  split
  · exact h.settleAll
  · exact hbody _ k ex h.settleAll
theorem State.memOk.execRdcsr {w : FS} : memOkAfter (execRdcsr w s) := h.sysWord fun _ _ _ h => h.putAll
theorem State.memOk.setCsr {t i idx v : Nat} : (s.setCsr t i idx v).memOk := by
  unfold State.setCsr
  dsimp only
  split
  case h_1 | h_2 | h_3 | h_9 => exact h
  case h_10 | h_11 => exact h.modTeam fun _ hm => hm
  case h_12 => exact State.memOk.ite h h
  all_goals exact h.modWarp
theorem State.memOk.execWrcsr {w : FS} : memOkAfter (execWrcsr w s) :=
  h.sysWord fun _ _ _ h => h.foldl fun _ _ h => h.setCsr
theorem State.memOk.invalidate {p : Tlb → Bool} : (s.invalidate p).memOk := h.ackAll
theorem State.memOk.tlbinv {i : Instr} {w : FS} {p : State → Nat → Nat → Tlb → Bool} : memOkAfter (tlbinv i w p s) := by
  refine h.sysWord fun s k ex h => ?_
  split
  · exact h
  · refine h.releasing fun s h => ?_
    have hmarks {is : List Nat} {q : State → Nat → Tlb → Bool} {js : List Nat}
    {f : Option (List Nat × List (Nat × Nat × Nat))} : (js.foldl (fun (s : State) (i : Nat) => s.modThread k.team i fun x =>
    { x with flush := f }) (is.foldl (fun (s : State) (v : Nat) => s.invalidate (q s v)) s)).memOk :=
      (h.foldl fun _ _ h => h.invalidate).foldl fun _ _ h => h.modThread
    dsimp only
    split
    · exact hmarks.foldl fun _ _ h => h.modThread
    · exact hmarks
theorem State.memOk.spillBank {c p b : Nat} {g : Gang} : (s.spillBank c p b g).memOk := by
  grind [State.spillBank, memOk.modBank, memOk.saveBank, State.memOk]
theorem State.memOk.spillBanks {c p : Nat} {test : Gang → Bool} : (s.spillBanks c p test).memOk := by
  refine State.memOk.wakeAlloc (h.foldl fun s b h => ?_)
  split
  · exact h.spillBank.ite h
  · exact h
theorem State.memOk.spillTeam {t : Nat} : (s.spillTeam t).memOk := h.spillBanks
theorem State.memOk.teamOut {t : Nat} : (s.teamOut t).memOk := by
  refine State.memOk.modTeam (State.memOk.padAway (State.memOk.spillTeam (h.foldl fun s w h =>
    State.memOk.modWarp ?_))) fun _ hm => hm
  exact h.swapOut.ite h
theorem State.memOk.settleIn {t : Nat} : (s.settleIn t).memOk := by
  refine State.memOk.foldl ?_ fun s _ h => ?_ <;> grind [State.settleIn, memOk.swapIn]
theorem State.memOk.teamIn {t : Nat} : (s.teamIn t).memOk := by
  grind [State.teamIn, memOk.settleIn, memOk.unblock]
theorem State.memOk.swStatus {k : Iss} {ex : List Nat} {w : FS} {v : Nat} : (s.swStatus k ex w v).memOk := h.putAll
theorem State.memOk.execCtxswOut {w : FS} : memOkAfter (execCtxswOut w s) := by
  refine h.sysWord fun s k ex h => ?_
  split
  · exact h
  · dsimp only
    split
    · exact h.swStatus
    · have hstop {l : List Nat} : (l.foldl (fun (s : State) (t : Nat) => s.modTeam t fun m => { m with stop :=
    true }) s).memOk := h.foldl fun _ _ h => h.modTeam fun _ hm => hm
      split
      · exact hstop
      · exact (hstop.foldl fun _ _ h => h.teamOut).modCtx.swStatus
theorem State.memOk.execCtxswIn {w : FS} : memOkAfter (execCtxswIn w s) := by
  refine h.sysWord fun s k ex h => ?_
  split
  · exact h
  · dsimp only
    split
    · exact h.swStatus
    · exact (h.modCtx.foldl fun _ _ h => h.teamIn).swStatus
theorem State.memOk.claimed {k : Iss} {w : FS} {ex : List Nat} {v : Option Nat} : (s.claimed k w ex v).memOk := h.putAll
theorem State.memOk.execClaim {w : FS} : memOkAfter (execClaim w s) := by
  refine h.sysWord fun s k ex h => ?_
  split
  · exact h
  · next i _ =>
    have hprobes := h.probeEach (f := fun s i => s.access k.team i (s.opnd k.team i w.sa 2 : Int) 128 128 { write := true })
      (l := [i]) fun _ _ h => h.access
    dsimp only
    refine hprobes.onProbes fun s as h => ?_
    split
    · split
      · exact h.claimed
      · exact h.claimAt.claimed
    · exact h
theorem State.memOk.claimDue {g : Nat} {e : Nat × Nat × List Nat} : (s.claimDue g e).memOk := h
theorem State.memOk.takeDue {die : Nat} : (s.takeDue die).1.memOk := by
  grind [State.takeDue, memOk.claimDue]
theorem State.memOk.execClaimNode {w : FS} : memOkAfter (execClaimNode w s) := by
  refine h.sysWord fun s k ex h => ?_
  split
  · exact h
  · exact h.takeDue.claimed
theorem State.memOk.mcClear {c b : Nat} : (s.mcClear c b).memOk := h
theorem State.memOk.execMcack {w : FS} : memOkAfter (execMcack w s) := by
  refine h.sysWord fun s k ex h => ?_
  split
  · exact h
  · exact h.mcClear
theorem State.memOk.execHalt {w : FS} : memOkAfter (execHalt w s) := by
  refine h.sysWord fun s k ex h => ?_
  split
  · exact h
  · dsimp only
    split
    · refine State.memOk.leave (State.memOk.modCore ?_)
      exact h.modTeam fun _ hm => hm
    · exact h.failContext

end

end Sys2Proof.Machine
end

section
/-! Every step keeps the canonical form of memory: clause headers, results and wakes, the formation table and the tumbler (R33
to R36, R49, R57, R203 to R213). -/

namespace Sys2Proof.Machine

open Sys2Proof

section
variable {s : State} (h : s.memOk)
include h

theorem State.memOk.take {t num : Nat} {g : Group} {c : Clause} {pos : Nat} : (s.take t num g c pos).memOk := by
  unfold State.take
  dsimp only
  refine State.memOk.foldl ?_ fun s _ h => h.modWarp
  exact h.foldl fun s _ h => h.modThread
theorem State.memOk.spinDetect {t num : Nat} : (s.spinDetect t num).memOk := by
  unfold State.spinDetect
  split
  · exact (h.modSpin.foldl fun s _ h => h.block).tidy
  · exact h
theorem State.memOk.settleTokens {t : Nat} {ws : List Nat} {mask : Nat} : (s.settleTokens t ws mask).memOk :=
  h.foldl fun _ _ h => h.foldl fun _ _ h => h.foldl fun _ _ h => h.writeBack
theorem State.memOk.fetchFor {t : Nat} {is : List Nat} {pc : DWord} {keep : Bool} : (s.fetchFor t is pc keep).1.memOk := by
  grind [State.fetchFor, memOk.raise, memOk.fetchClause, memOk.requestAll, memOk.tidy, memOk.hold, memOk.consume]
theorem State.memOk.notReady {t : Nat} {is : List Nat} : (s.notReady t is).memOk := h.foldl fun _ _ h => h.modThread
theorem State.memOk.clauseHeader {t num : Nat} : (s.clauseHeader t num).memOk := by
  unfold State.clauseHeader
  split
  · exact h
  · dsimp only
    refine h.ite (h.spinDetect.ite ?_)
    split
    · exact (h.foldl fun _ _ h => h.block).tidy
    · split
      · exact h.raise
      · have hfetch {is : List Nat} {pc : DWord} := h.fetchFor (t := t) (is := is) (pc := pc) (keep := false)
        split
        · next r hr => exact Eq.mp (congrArg (fun p => State.memOk p.1) hr) hfetch
        · next r c hr =>
          have h : r.memOk := Eq.mp (congrArg (fun p => State.memOk p.1) hr) hfetch
          refine State.memOk.ite h.settleTokens.notReady ?_
          split
          · exact h.settleTokens.raise
          · exact h.settleTokens.raise.foldl fun _ _ h => h.modWarp.ite h
          · exact State.memOk.take (State.memOk.spinClause (h.settleTokens.foldl fun _ _ h => h.modThread))
theorem State.memOk.resumeGroup {t num : Nat} : (s.resumeGroup t num).memOk := by
  grind [State.resumeGroup, memOk.fetchFor, memOk.take]
theorem State.memOk.storeAck {id : Nat} : (s.storeAck id).memOk := by
  grind [State.storeAck, memOk.ackStore]
theorem State.memOk.spurious {t w : Nat} : (s.spurious t w).memOk := by
  grind [State.spurious, memOk.unblock, memOk.modWarp]
theorem State.memOk.execSpinDetect {team num : Nat} : memOkAfter (execSpinDetect team num s) := by
  grind [execSpinDetect, memOk.spinDetect, memOkAfter]
theorem State.memOk.sleepOver {team tidx : Nat} : (s.sleepOver team tidx).memOk := by
  grind [State.sleepOver, memOk.unblock]
theorem State.memOk.execWtimer {team warp : Nat} : memOkAfter (execWtimer team warp s) := by
  grind [execWtimer, memOk.clauseHeader, memOkAfter]
theorem State.memOk.parkScan {c p : Nat} : (s.parkScan c p).memOk := by
  grind [State.parkScan, memOk.notReady, State.memOk]
theorem State.memOk.tumble {c p : Nat} : (s.tumble c p).memOk := by
  unfold State.tumble
  split
  · exact h.padBack
  · dsimp only
    split
    · exact h
    · exact State.memOk.ite (h.foldl fun _ _ h => h.swapOut).swapIn h
theorem State.memOk.writeDirty {t w key : Nat} : (s.writeDirty t w key).memOk := by
  grind [State.writeDirty, memOk.modWarp, memOk.saveReg]
theorem State.memOk.rotateOut {t : Nat} : (s.rotateOut t).memOk :=
  State.memOk.ite (h.foldl fun _ _ h => h.swapOut).padAway h

end

end Sys2Proof.Machine
end

section
/-! Every step keeps the canonical form of memory: banks, products and engines, and the start, retirement and stealing of
teams (R138 to R150, R195, R215 to R217, R222 to R229). -/

namespace Sys2Proof.Machine

open Sys2Proof

section
variable {s : State} (h : s.memOk)
include h

theorem State.memOk.bankSpill {c p b : Nat} : (s.bankSpill c p b).memOk := by
  grind [State.bankSpill, memOk.latchChecks, memOk.spillBanks]
theorem State.memOk.kRow {id : Nat} : (s.kRow id).memOk := by
  grind [State.kRow, memOk.runRow, memOk.consume, memOk.wakeBatches, memOk.seqAdvance]
theorem State.memOk.execCopyTransfer {id piece : Nat} : memOkAfter (execCopyTransfer id piece s) := by
  grind [execCopyTransfer, memOk.transfer, memOkAfter]
theorem State.memOk.execWalkHop {id : Nat} : memOkAfter (execWalkHop id s) := by
  grind [execWalkHop, memOk.hop, memOkAfter]
theorem State.memOk.addTeam {m : Team} (hm : m.pad.wf = true) : ({ s with teams := s.teams ++ [m] } : State).memOk :=
  ⟨h.1, fun n hn => (List.mem_append.mp hn).elim (h.2 n) fun hn => List.mem_singleton.mp hn ▸ hm⟩
theorem State.memOk.startFails {p : Spot} {code addr : Nat} : (s.startFails p code addr).memOk :=
  (h.addTeam (m := p.team (s.launch p.launch).ctx 0 0 s.clk [] false false) rfl).failContext
theorem State.memOk.probeList {ctx base n : Nat} : (s.probeList ctx base n).1.memOk := h.probeAreas
theorem State.memOk.probeParam {p : Spot} {va : Nat} : (s.probeParam p va).1.memOk := by
  grind [State.probeParam, memOk.checks69]
theorem State.memOk.openAreas {t : Nat} : (s.openAreas t).memOk := by
  grind [State.openAreas, memOk.areaZero, memOk.areaPut]
theorem State.memOk.push {p : Spot} {ctx : Nat} : (s.push p ctx).memOk := by
  grind [State.push, memOk.fetchWords]
theorem State.memOk.fuse {core : Nat} : (s.fuse core).memOk := by
  grind [State.fuse, memOk.ackAll, State.memOk]
theorem State.memOk.startAt {p : Spot} {began : State → State} (hb : ∀ r : State, r.memOk → (began r).memOk) :
    (s.startAt p began).memOk := by
  have hprobe := h.probeUnits (fun r va h => h.probeParam (p := p) (va := va)) (va := p.param) (size := 8) (n := 8)
  unfold State.startAt
  extract_lets x c
  split
  · next r ks hr => exact State.memOk.requestAll (Eq.mp (congrArg (fun p => State.memOk p.1) hr) hprobe)
  · next r code a f hr => exact State.memOk.startFails (Eq.mp (congrArg (fun p => State.memOk p.1) hr) hprobe)
  · next r x hr => exact Eq.mp (congrArg (fun p => State.memOk p.1) hr) hprobe
  · next r x y hr => exact Eq.mp (congrArg (fun p => State.memOk p.1) hr) hprobe
  · next r ls hr =>
    have h : r.memOk := Eq.mp (congrArg (fun p => State.memOk p.1) hr) hprobe
    split
    · extract_lets base
      have hlist {l n : Nat} : (r.probeList c l n).1.memOk := h.probeList
      split
      next r ps hr =>
      have h : r.memOk := Eq.mp (congrArg (fun p => State.memOk p.1) hr) hlist
      split
      · exact h.startFails
      · split
        · exact h.requestAll
        · split
          · exact h.consume
          · extract_lets start placed fused params t room added span spans opened pushed left
            have hplaced : placed.memOk := (hb _ h).foldl fun r e h => by
              split
              · exact h.writeLoc
              · exact h
            have hfused : fused.memOk := hplaced.fuse.ite hplaced
            have hadded : added.memOk := hfused.addTeam rfl
            have hspans : spans.memOk := State.memOk.ite hadded hadded
            exact (hspans.openAreas.acquire.settleIn.push.foldl fun _ _ h => h.exitThread).tidy.wakeRemote
    · exact h
theorem State.memOk.claimSpan {l k die : Nat} : (s.claimSpan l k die).memOk := by
  grind [State.claimSpan, memOk.ticketLoc, memOk.requestAll, memOk.homeBytes, memOk.claimAt]
theorem State.memOk.startGrid {l index core part : Nat} : (s.startGrid l index core part).memOk := by
  grind [State.startGrid, memOk.claimSpan, memOk.startAt]
theorem State.memOk.startNode {l g index core part : Nat} : (s.startNode l g index core part).memOk := by
  unfold State.startNode
  dsimp only
  split
  · exact h
  · next r e hr =>
    refine State.memOk.startAt ?_ fun r h => h.modGraph
    split at hr
    · simp only [Option.some.injEq, Prod.mk.injEq] at hr
      exact hr.1 ▸ h
    · split at hr
      · obtain ⟨e, he, hr⟩ := Option.map_eq_some_iff.mp hr
        exact (Prod.mk.inj hr).1 ▸ h.claimDue
      · cases hr
theorem State.memOk.teamStart {l index core part : Nat} : (s.teamStart l index core part).memOk := by
  grind [State.teamStart, memOk.startNode, memOk.startGrid]
theorem State.memOk.graphCheck {g : Nat} : (s.graphCheck g).memOk := by
  grind [State.graphCheck, memOk.modGraph, memOk.complete, memOk.modLaunch, memOk.probeCtx, memOk.writeLoc, memOk.requestAll,
    memOk.errorInt, memOk.setErr]
theorem State.memOk.freeBanks {t : Nat} : (s.freeBanks t).memOk := by
  grind [State.freeBanks, memOk.modCore, memOk.wakeAlloc, State.memOk]
theorem State.memOk.countRetired {l : Nat} {line : Option Loc} : (s.countRetired l line).memOk := by
  unfold State.countRetired
  cases line with
  | none => exact State.memOk.ite h.modLaunch.modLaunch.complete h.modLaunch
  | some loc =>
    exact State.memOk.ite h.modLaunch.homeBytes.writeLoc.modLaunch.complete h.modLaunch.homeBytes.writeLoc
theorem State.memOk.teamRetire {t : Nat} : (s.teamRetire t).memOk := by
  unfold State.teamRetire
  extract_lets m line off
  refine h.ite ?_
  split
  · exact h.failContext
  · have hline : line.1.memOk := by
      unfold line
      split
      · exact h
      · exact h.ticketLoc
    clear_value line
    split
    · exact State.memOk.requestAll hline
    · replace h := hline
      extract_lets fewer n less spans freed retired last
      have hfewer : fewer.memOk := h.foldl fun _ _ h => h.spanMod
      clear_value fewer
      have hspans : spans.memOk := hfewer
      have hfreed : freed.memOk := hspans.freeBanks
      have hretired : retired.memOk := hfreed.modTeam fun _ hm => hm
      have hlast : last.memOk := by
        unfold last
        split
        · exact hretired.graphCheck
        · exact hretired.countRetired
      exact hlast.wakeRemote
theorem State.memOk.stealFrom {l die : Nat} {line : Loc} {a : List Nat} : (s.stealFrom l die line a).memOk := by
  induction a generalizing s with
  | nil => exact h
  | cons e a ih =>
    rw [State.stealFrom]
    split
    · exact State.memOk.ite (ih h.claimAt) h
    · exact State.memOk.ite h.claimAt h
theorem State.memOk.steal {die l : Nat} : (s.steal die l).memOk := by
  grind [State.steal, memOk.claimDue, memOk.ticketLoc, memOk.stealFrom, memOk.requestAll]
theorem State.memOk.doserTimer {l n d : Nat} : (s.doserTimer l n d).memOk := by
  grind [State.doserTimer, memOk.modGraph]

end

end Sys2Proof.Machine
end

section
/-! Every step keeps the canonical form of memory: the front end's packets (R225 to R227, R281 to R289). -/

namespace Sys2Proof.Machine

open Sys2Proof

section
variable {s : State} (h : s.memOk)
include h

theorem State.memOk.haltIface {q code : Nat} : (s.haltIface q code).memOk := by
  grind [State.haltIface, memOk.modIface, memOk.setErr, memOk.errorInt]
theorem State.memOk.doorbell {q : Nat} {t : Word} : (s.doorbell q t).memOk := by
  unfold State.doorbell
  extract_lets x
  exact h.ite (h.haltIface.ite h.modIface)
theorem State.memOk.readAhead {q : Nat} : (s.readAhead q).memOk := by
  grind [State.readAhead, memOk.ringTouch, memOk.modIface]
theorem State.memOk.advance {q : Nat} : (s.advance q).memOk := h
theorem State.memOk.begin_ {q : Nat} {p : Packet} : (s.begin_ q p).memOk := h
theorem State.memOk.beginEnd {q : Nat} {p : Packet} {status : Nat} : (s.beginEnd q p status).memOk := h.begin_.completeNow
theorem State.memOk.refuse {q : Nat} {p : Packet} {status : Nat} : (s.refuse q p status).memOk := by
  grind [State.refuse, memOk.errorInt, memOk.setErr, memOk.beginEnd]
theorem State.memOk.servePacket {q : Nat} {types : Nat → Bool} {run : State → Packet → State}
    (hrun : ∀ (r : State) (p : Packet), r.memOk → (run r p).memOk) : (s.servePacket q types run).memOk := by
  unfold State.servePacket
  split
  · exact h
  · exact h.haltIface
  · extract_lets x read
    have hread : read.memOk := h.ite h.ringTouch
    clear_value read
    refine h.ite ?_
    split
    · exact hread.setErr.errorInt.advance
    · exact State.memOk.ite (hread.beginEnd.errorInt.ite hread.beginEnd) (hread.refuse.ite (hrun _ _ hread))
theorem State.memOk.onPacket {q : Nat} {types : Nat → Bool} {run : State → Packet → State}
    (hrun : ∀ (r : State) (p : Packet), r.memOk → (run r p).memOk) : (s.onPacket q types run).memOk :=
  h.ite (h.servePacket hrun)
theorem State.memOk.execNopPacket {q : Nat} : memOkAfter (execNopPacket q s) := h.onPacket fun _ _ h => h.beginEnd
theorem State.memOk.readFor {ctx va align n : Nat} : (s.readFor ctx va align n).1.memOk := by
  grind [State.readFor, memOk.probeRange]
theorem State.memOk.unread {q : Nat} {p : Packet} {e : Probe} {write : Bool} : (s.unread q p e write).memOk := by
  unfold State.unread
  split
  · exact h.requestAll.modIface
  · exact h.refuse
theorem State.memOk.launchPacket {q : Nat} {p : Packet} : (s.launchPacket q p).memOk := by
  have hdesc {va : Nat} := h.readFor (ctx := p.ctx) (va := va) (align := 128) (n := 16)
  unfold State.launchPacket
  extract_lets k
  split
  · next r e hr => exact State.memOk.unread (Eq.mp (congrArg (fun p => State.memOk p.1) hr) hdesc)
  · next r d hr =>
    have h : r.memOk := Eq.mp (congrArg (fun p => State.memOk p.1) hr) hdesc
    have hline {va : Nat} := h.readFor (ctx := p.ctx) (va := va) (align := 128) (n := 16)
    refine h.refuse.ite ?_
    split
    · next r e hr => exact State.memOk.unread (Eq.mp (congrArg (fun p => State.memOk p.1) hr) hline)
    · next r line hr =>
      have h : r.memOk := Eq.mp (congrArg (fun p => State.memOk p.1) hr) hline
      have hticket {va : Nat} := h.probeRange (ctx := p.ctx) (va := va) (size := 8) (write := true) (n := 16)
      split
      · next r e hr => exact State.memOk.unread (Eq.mp (congrArg (fun p => State.memOk p.1) hr) hticket)
      · next r ls hr =>
        have h : r.memOk := Eq.mp (congrArg (fun p => State.memOk p.1) hr) hticket
        extract_lets x l
        refine h.refuse.ite (h.refuse.ite (h.refuse.ite (State.memOk.begin_ ?_)))
        exact h
theorem State.memOk.execLaunchPacket {q : Nat} : memOkAfter (execLaunchPacket q s) := h.onPacket fun _ _ h => h.launchPacket
theorem State.memOk.readNodes {ctx at_ n a : Nat} : (s.readNodes ctx at_ n a).1.memOk := by
  induction a generalizing s with
  | zero => exact h
  | succ m ih => grind [State.readNodes, memOk.readFor]
theorem State.memOk.graphPacket {q : Nat} {p : Packet} : (s.graphPacket q p).memOk := by
  grind [State.graphPacket, memOk.readFor, memOk.unread, memOk.refuse, memOk.readNodes, memOk.graphCheck, memOk.dose,
    memOk.begin_, State.memOk]
theorem State.memOk.execGraphPacket {q : Nat} : memOkAfter (execGraphPacket q s) := h.onPacket fun _ _ h => h.graphPacket
theorem State.memOk.tryWait {q : Nat} {p : Packet} : (s.tryWait q p).memOk := by
  grind [State.tryWait, memOk.probeCtx, memOk.homeBytes, memOk.completeNow, memOk.requestAll]
theorem State.memOk.execWaitPacket {q : Nat} : memOkAfter (execWaitPacket q s) :=
  h.onPacket fun _ _ h => h.begin_.modIface.tryWait
theorem State.memOk.waitAgain {q : Nat} : (s.waitAgain q).memOk := by
  grind [State.waitAgain, memOk.tryWait]
theorem State.memOk.signalPacket {q : Nat} {p : Packet} : (s.signalPacket q p).memOk := by
  grind [State.signalPacket, memOk.probeCtx, memOk.beginEnd, memOk.writeLoc, memOk.unread]
theorem State.memOk.execSignalPacket {q : Nat} : memOkAfter (execSignalPacket q s) := h.onPacket fun _ _ h => h.signalPacket
theorem State.memOk.execFetchFence {q : Nat} : memOkAfter (execFetchFence q s) := h.onPacket fun _ _ h => h.beginEnd.modIface
theorem State.memOk.execInterfaceEnable {q : Nat} : memOkAfter (execInterfaceEnable q s) := by
  grind [execInterfaceEnable, memOk.modIface, memOkAfter]
theorem State.memOk.execInterfaceDisable {q : Nat} : memOkAfter (execInterfaceDisable q s) := by
  grind [execInterfaceDisable, memOk.modIface, memOkAfter]
theorem State.memOk.execErrClear {q : Nat} : memOkAfter (execErrClear q s) := by
  grind [execErrClear, memOk.modIface, memOkAfter]
theorem State.memOk.intTimer {q v : Nat} : (s.intTimer q v).memOk := by
  grind [State.intTimer, memOk.coalesceFire]
theorem State.memOk.cmdEnd {c result : Nat} : (s.cmdEnd c result).memOk := h

end

end Sys2Proof.Machine
end

section
/-! Every step keeps the canonical form of memory: contexts, translation and the migration pool (R261, R262, R270 to R280). -/

namespace Sys2Proof.Machine

open Sys2Proof

section
variable {s : State} (h : s.memOk)
include h

theorem State.memOk.ctxCreate {c : Nat} : (s.ctxCreate c).memOk := by
  grind [State.ctxCreate, memOk.cmdEnd, memOk.ipaTouch, memOk.modCtx]
theorem State.memOk.ctxUpdate {c : Nat} : (s.ctxUpdate c).memOk := by
  grind [State.ctxUpdate, memOk.cmdEnd, memOk.ipaTouch, memOk.modCtx]
theorem State.memOk.ctxRevoke {c : Nat} : (s.ctxRevoke c).memOk := by
  grind [State.ctxRevoke, memOk.cmdEnd, memOk.failContext, memOk.tlbDrop, memOk.modCtx, State.memOk]
theorem State.memOk.invReq {v : DWord} : (s.invReq v).memOk := by
  grind [State.invReq, State.memOk]
theorem State.memOk.pdAddr {part : Nat} {v : DWord} : (s.pdAddr part v).memOk := by
  grind [State.pdAddr, memOk.modPart, memOk.invalidate, State.memOk]
theorem State.memOk.retryWords : (s.retryWords).memOk := by
  refine State.memOk.foldl (h.foldl fun s q h => h.foldl fun s p h => ?_) fun _ _ h => h.graphCheck
  split
  · exact h.completeNow
  · exact h
theorem State.memOk.closeMerge {key : PageKey} {deny : List PageKey} : (s.closeMerge key deny).memOk := by
  grind [State.closeMerge, memOk.wakePages, State.memOk]
theorem State.memOk.supply {part pasid : Nat} {s2 : Bool} : (s.supply part pasid s2).memOk := by
  grind [State.supply, memOk.retryWords, memOk.closeMerge, State.memOk]
theorem State.memOk.tryDeny {key : PageKey} {f : State → State} (hf : ∀ r : State, r.memOk → (f r).memOk) :
    (s.tryDeny key f).memOk := by
  have hr := hf { s with deny := [key], hit := false } h
  exact State.memOk.ite hr h
theorem State.memOk.anyPacket {q : Nat} : (s.anyPacket q).memOk := by
  refine h.servePacket fun s p h => ?_
  split
  · exact h.launchPacket
  · exact h.graphPacket
  · exact h.signalPacket
  · exact h
theorem State.memOk.refusePage {part pasid : Nat} {s2 : Bool} : (s.refusePage part pasid s2).memOk := by
  unfold State.refusePage
  extract_lets key try_ cmds ids rows packets launches teams graphs
  have htry {s : State} (h : s.memOk) {f : State → State} (hf : ∀ r : State, r.memOk → (f r).memOk) : (try_ s f).memOk :=
    h.tryDeny hf
  clear_value try_
  have hcmds : cmds.memOk := by
    refine h.foldl fun s c h => h.ite ?_
    dsimp only
    refine State.memOk.ite h (State.memOk.foldl h fun s piece h => htry h fun s h => ?_)
    split
    · exact h.transfer
    · exact h
  have hrows : rows.memOk := hcmds.foldl fun _ _ h => htry h fun _ h => h.kRow
  have hpackets : packets.memOk := by
    refine hrows.foldl fun s q h => htry (htry (h.foldl fun s p h => ?_) fun _ h => h.waitAgain) fun _ h => h.anyPacket
    split
    · exact htry h fun _ h => h.completeNow
    · exact h
  have hlaunches : launches.memOk := hpackets.foldl fun _ _ h => h.foldl fun _ _ h => htry h fun _ h => h.teamStart
  have hteams : teams.memOk := hlaunches.foldl fun _ _ h => htry h fun _ h => h.teamRetire
  have hgraphs : graphs.memOk := hteams.foldl fun _ _ h => htry h fun _ h => h.graphCheck
  exact h.ite hgraphs.closeMerge.retryWords
theorem State.memOk.execPoolbaseWrite {part : Nat} {v : DWord} : memOkAfter (execPoolbaseWrite part v s) := by
  grind [execPoolbaseWrite, memOk.modPart, memOkAfter]
theorem State.memOk.execPoolsizeWrite {part : Nat} {v : DWord} : memOkAfter (execPoolsizeWrite part v s) := by
  grind [execPoolsizeWrite, memOk.modPart, memOkAfter]
theorem State.memOk.execFqheadWrite {part : Nat} {v : Word} : memOkAfter (execFqheadWrite part v s) := by
  grind [execFqheadWrite, memOk.fqDrain, memOk.modPart, memOkAfter]
theorem State.memOk.migrate {part page : Nat} : (s.migrate part page).memOk := by
  grind [State.migrate, memOk.retryWords, memOk.closeMerge, memOk.migratePage]
theorem State.memOk.execQenc {w : FA} : memOkAfter (execQenc w s) := by
  grind [execQenc, memOk.simple, memOk.putSets]

end

end Sys2Proof.Machine
end

section
/-! Every step keeps the canonical form of memory: communicator slots, reset and bring-up, registers, CXL.mem, attestation,
temperature and errors (R263, R291 to R293, R309, R313 to R315, R336 to R338, R353 to R362). -/

namespace Sys2Proof.Machine

open Sys2Proof

section
variable {s : State} (h : s.memOk)
include h

theorem State.memOk.commEnd {slot result : Nat} : (s.commEnd slot result).memOk := h
theorem State.memOk.commOpen {slot : Nat} : (s.commOpen slot).memOk := by
  unfold State.commOpen
  refine h.ite (State.memOk.ite ?_ ?_)
  · exact h
  · split
    · exact h.commEnd
    · next c hc =>
      refine h.commEnd.ite (h.commEnd.ite ?_)
      extract_lets alone lost opened joining
      have hopened : opened.memOk := h
      have hjoining : joining.memOk := hopened.ite hopened.send
      exact (hjoining.failComm.ite hjoining).commEnd
theorem State.memOk.commClose {slot : Nat} : (s.commClose slot).memOk := by
  grind [State.commClose, memOk.failComm, memOk.commEnd, State.memOk]
theorem State.memOk.execOpenTimeout {slot : Nat} : memOkAfter (execOpenTimeout slot s) := State.memOk.ite h h
theorem State.memOk.timeSync : (s.timeSync).memOk := by
  grind [State.timeSync, memOk.commOpen, State.memOk]
/-- A reset of the module keeps the contents of device memory, and no team. -/
theorem State.memOk.moduleReset : (s.moduleReset).memOk := ⟨h.1, State.memOk_reset.2⟩
theorem State.memOk.execMreset : memOkAfter (execMreset s) := by
  grind [execMreset, memOk.moduleReset, memOkAfter]
theorem State.memOk.bringUp {b : Boot} : (s.bringUp b).memOk := by
  unfold State.bringUp
  extract_lets m n err m' up c
  clear_value n
  refine h.ite (State.memOk.ite h ?_)
  split
  · exact h
  · exact h
  · exact h.setMem rfl
  · exact h
  · exact h
theorem State.memOk.ctxCmd {v : Nat} : (s.ctxCmd v).memOk := by
  grind [State.ctxCmd, State.memOk]
theorem State.memOk.commCmd {v : Nat} : (s.commCmd v).memOk := by
  grind [State.commCmd, State.memOk]
theorem State.memOk.partWrite {p off : Nat} {v : DWord} : (s.partWrite p off v).memOk := by
  unfold State.partWrite
  extract_lets n conf
  have hconf {f : Part → Part} : (conf f).memOk := h.ite h.modPart
  clear_value conf
  split
  · exact hconf
  · exact hconf
  · exact h.modPart
  · exact h.modPart
  · exact hconf
  · exact hconf
  · exact h.modPart.fqDrain
  · exact h.pdAddr
  · exact h.refusePage.ite h.supply
  · exact h
theorem State.memOk.msixWrite {k : Nat} {v : DWord} : (s.msixWrite k v).memOk := by
  grind [State.msixWrite, memOk.emit, State.memOk]
theorem State.memOk.notifyWrite {q off : Nat} {v : DWord} : (s.notifyWrite q off v).memOk := by
  unfold State.notifyWrite
  extract_lets n
  split
  · exact h.doorbell
  · exact h.modIface
  · exact h.modIface
  · exact h.modIface.ite h
  · exact h
theorem State.memOk.bar0Write {off : Nat} {v : DWord} : (s.bar0Write off v).memOk := by
  unfold State.bar0Write
  extract_lets n mgmt
  have hmgmt {f : Mgmt → Mgmt} : (mgmt f).memOk := h
  clear_value mgmt
  refine h.ite ((h.mcClear.ite h).ite ((h.msixWrite.ite h).ite ((h.modIface.ite h).ite ((h.modIface.ite h).ite
    ((h.partWrite.ite h).ite ?_)))))
  split
  · exact h.ite hmgmt
  · exact hmgmt
  · exact h.ctxCmd
  · exact h.invReq
  · exact h.commCmd
  · exact hmgmt
  · exact h.moduleReset.ite h
  · exact h
theorem State.memOk.execRegisterWrite {bar off : Nat} {v : DWord} : memOkAfter (execRegisterWrite bar off v s) := by
  grind [execRegisterWrite, memOk.bar0Write, memOk.notifyWrite, memOkAfter]
theorem State.memOk.execMcBankClear {pcn bank : Nat} : memOkAfter (execMcBankClear pcn bank s) := by
  grind [execMcBankClear, memOk.mcClear, memOkAfter]
theorem State.memOk.readRegister {bar off : Nat} : (s.readRegister bar off).memOk := h
theorem State.memOk.execCxlMemRead {pa len : Nat} : memOkAfter (execCxlMemRead pa len s) := by
  grind [execCxlMemRead, memOk.emit, memOkAfter]
theorem State.memOk.execCxlMemWrite {pa : Nat} {bytes : List Byte} : memOkAfter (execCxlMemWrite pa bytes s) := by
  grind [execCxlMemWrite, memOk.homeWrite, memOk.emit, memOkAfter]
theorem State.memOk.hostMap {pasid page : Nat} {ok : Bool} : (s.hostMap pasid page ok).memOk := h
theorem State.memOk.configRead {off : Nat} : (s.configRead off).memOk := h
theorem State.memOk.answer {via : Transport} {o : Out} : (s.answer via o).memOk := by
  grind [State.answer, memOk.emit]
theorem State.memOk.execGetCertificate {via : Transport} {offset len : Nat} : memOkAfter (execGetCertificate via offset len s)
    := h.answer
theorem State.memOk.execGetMeasurements {via : Transport} {index : Nat} : memOkAfter (execGetMeasurements via index s) := by
  grind [execGetMeasurements, memOk.emit, memOkAfter]
theorem State.memOk.execMctpControl {via : Transport} {cmd : BitVec 8} : memOkAfter (execMctpControl via cmd s) := by
  grind [execMctpControl, memOk.emit, memOkAfter]
theorem State.memOk.execPldmRequest {via : Transport} {sensor : Nat} : memOkAfter (execPldmRequest via sensor s) := by
  grind [execPldmRequest, memOk.emit, memOkAfter]
theorem State.memOk.moveTeam {t c : Nat} : (s.moveTeam t c).memOk := by
  unfold State.moveTeam
  extract_lets m is n ws out settled acked spilled saved away mine left taken spins to_ named on moved fused fetched back loaded
    switched
  have hsettled : settled.memOk := h.foldl fun _ _ h => h.settleThread.settle
  have hsaved : saved.memOk := hsettled.ackAll.ungroup.spillTeam.foldl fun _ _ h => h.saveWarp
  have haway : away.memOk := hsaved.padAway.ite hsaved
  have hspins : spins.memOk := haway.modSeq.modSeq.modCore
  clear_value spins
  have hnamed : named.memOk := hspins
  have hmoved : moved.memOk := hnamed.modTeam fun _ hm => hm
  have hfused : fused.memOk := hmoved.fuse.ite hmoved
  have hback : back.memOk := hfused.acquire.icDrop.padBack.ite hfused.acquire.icDrop
  have hloaded : loaded.memOk := hback.foldl fun _ _ h => h.loadWarp
  have hswitched : switched.memOk := hloaded.modCtx.ite hloaded
  exact hswitched.wakeAlloc.wakeAlloc.tidy
theorem State.memOk.coolDown {core : Nat} : (s.coolDown core).memOk := by
  refine h.foldl fun s t h => ?_
  have hstop {b : Bool} : (s.modTeam t fun m => { m with stop := b }).memOk := h.modTeam fun _ hm => hm
  split
  · exact hstop
  · exact h.moveTeam.ite (hstop.ite h.moveTeam)
theorem State.memOk.coolAgain {core : Nat} : (s.coolAgain core).memOk := h.foldl fun _ _ h => h.modTeam fun _ hm => hm
theorem State.memOk.thermalPoll {n celsius : Nat} : (s.thermalPoll n celsius).memOk := by
  grind [State.thermalPoll, memOk.moduleReset, memOk.modCore, memOk.coolDown, memOk.coolAgain, State.memOk]
theorem State.memOk.powerLimit {watts : Nat} : (s.powerLimit watts).memOk := by
  grind [State.powerLimit, State.memOk]
theorem State.memOk.execMachineCheck {core unit : Nat} {syndrome : BitVec 32} {paddr : Option Nat}
    {uc : Bool} : memOkAfter (execMachineCheck core unit syndrome paddr uc s) := by
  grind [execMachineCheck, memOk.machineCheck, memOk.mcLog, memOkAfter]
theorem State.memOk.execWatchdog {core : Nat} {missed : Bool} : memOkAfter (execWatchdog core missed s) := by
  grind [execWatchdog, memOk.machineCheck, memOkAfter]
theorem State.memOk.scrub {pa : Nat} {uncorrectable : Bool} : (s.scrub pa uncorrectable).memOk := by
  grind [State.scrub, memOk.mark, memOk.mcLog]

end

end Sys2Proof.Machine
end

section
/-! Every step keeps the canonical form of memory: what arrives from the fabric (R334, R335, R339, R343 to R346, R349). -/

namespace Sys2Proof.Machine

open Sys2Proof

section
variable {s : State} (h : s.memOk)
include h

theorem State.memOk.peerRequest {chip tag : Nat} {op : PeerOp} : (s.peerRequest chip tag op).memOk := by
  cases op with
  | load addr len => exact h.ite h.settleBytes.send
  | store addr bytes bad => exact h.ite h.writeLoc.send
  | atom addr wid aop b => exact h.ite (h.settleBytes.send.ite h.settleBytes.homeWrite.send)
theorem State.memOk.answered {r : PeerReq} {is : List Nat} : (s.answered r is).memOk := by
  grind [State.answered, memOk.unblock, memOk.acquire]
theorem State.memOk.answerValue {r : PeerReq} {v : Nat} : (s.answerValue r v).memOk := by
  grind [State.answerValue, memOk.answered, memOk.writeBack, memOk.fillResult]
theorem State.memOk.together {r : PeerReq} : (s.together r).2.memOk := h
theorem State.memOk.noteGot {tag : Nat} {role : PeerRole} : (s.noteGot tag role).memOk := h
theorem State.memOk.answerStores {r : PeerReq} : (s.answerStores r).memOk := by
  refine State.memOk.answered (State.memOk.foldl h.together fun s x h => ?_)
  split
  · exact h.foldl fun _ _ h => h.storeLoc
  · exact h
theorem State.memOk.answerShapes {r : PeerReq} : (s.answerShapes r).memOk := by
  unfold State.answerShapes
  have h := h.together (r := r)
  split
  next all s' hs =>
  rw [hs] at h
  extract_lets t recs ran here
  split
  · exact State.memOk.answered ((h.foldl fun _ _ h => h.modWarp).foldl fun _ _ h => h.modThread)
  · exact h.wake.raise
  · exact h
theorem State.memOk.answerData {r : PeerReq} {key : PageKey} {stale : Bool} {data : List Byte} {bad : Bool} :
    (s.answerData r key stale data bad).memOk := by
  grind [State.answerData, memOk.consume, memOk.modCore, memOk.retryWords, memOk.wakePages, State.memOk]
theorem State.memOk.cmdAcked {id : Nat} : (s.cmdAcked id).memOk := by
  grind [State.cmdAcked, memOk.finishCmd]
theorem State.memOk.peerAnswer {tag : Nat} {data : List Byte} {bad : Bool} : (s.peerAnswer tag data bad).memOk := by
  grind [State.peerAnswer, memOk.answerData, memOk.cmdAcked, memOk.consume, memOk.answerValue, memOk.askPeer, memOk.noteGot,
    memOk.together, memOk.answerStores, memOk.answerShapes, State.memOk]
theorem State.memOk.joinAt {ftag chip : Nat} : (s.joinAt ftag chip).memOk := by
  unfold State.joinAt
  split
  · exact h.send
  · exact h.ite (h.modComm.send.foldl fun _ _ h => h.sendTag)
theorem State.memOk.notOpen {ftag : Nat} {which : Option Nat} : (s.notOpen ftag which).memOk := by
  grind [State.notOpen, memOk.modComm]
theorem State.memOk.joinAcked {ftag : Nat} : (s.joinAcked ftag).memOk := by
  unfold State.joinAcked
  split
  · exact h.ite (h.modComm.foldl fun _ _ h => h.sendTag)
  · exact h
theorem State.memOk.execJoinRetry {ftag : Nat} : memOkAfter (execJoinRetry ftag s) := by
  grind [execJoinRetry, memOk.send, memOk.modComm, memOkAfter]
theorem State.memOk.contribution {ftag seq lo hi : Nat} {isAny : Bool} {value : Option Bool} {isPart : Bool} :
    (s.contribution ftag seq lo hi isAny value isPart).memOk := by
  unfold State.contribution
  split
  · exact h.send
  · exact h.ite (h.modComm.ite (h.modComm.foldl fun _ _ h => h.tryDecide))
theorem State.memOk.execAbortMessage {ftag seq : Nat} : memOkAfter (execAbortMessage ftag seq s) := by
  grind [execAbortMessage, memOk.send, memOk.abortAt, memOkAfter]
theorem State.memOk.decision {ftag seq : Nat} {outcome : BitVec 3} {isPart : Bool} :
    (s.decision ftag seq outcome isPart).memOk := by
  grind [State.decision, memOk.send, memOk.loseComm, memOk.deliver, memOk.modComm]
theorem State.memOk.barArrive {slot k rank : Nat} {sig : OpSig} : (s.barArrive slot k rank sig).memOk := by
  grind [State.barArrive, memOk.failComm, memOk.modComm, memOk.barTry]
theorem State.memOk.linkLoss {chips : List Nat} : (s.linkLoss chips).memOk := by
  unfold State.linkLoss
  extract_lets lost mgmt cut
  have hcut : cut.memOk := h
  exact hcut.foldl fun _ _ h => h.failComm
theorem State.memOk.execShfl {w : FA} : memOkAfter (execShfl w s) := by
  refine h.simple fun s k ex h => ?_
  exact State.memOk.foldl h.putSets fun _ _ h => h.putPred
theorem State.memOk.execVote {w : FA} : memOkAfter (execVote w s) := by
  refine h.simple fun s k ex h => ?_
  exact h.putSets.ite (h.putSets.foldl fun _ _ h => h.foldl fun _ _ h => h.putPred)
theorem State.memOk.execRedux {w : FA} : memOkAfter (execRedux w s) := by
  grind [execRedux, memOk.simple, memOk.issueResults]
theorem State.memOk.execMatchLanes {w : FA} : memOkAfter (execMatchLanes w s) := by
  grind [execMatchLanes, memOk.simple, memOk.issueResults]
theorem State.memOk.execV2s {w : FA} : memOkAfter (execV2s w s) := by
  grind [execV2s, memOk.simple, memOk.issueResults]

end

end Sys2Proof.Machine
end

section
/-! Every step keeps the canonical form of memory: what each instruction does, the order of steps, and the step itself (R36,
R203, R276). -/

namespace Sys2Proof.Machine

open Sys2Proof

section
variable {s : State} (h : s.memOk)
include h

/-- What each row of the opcode table does. -/
theorem State.memOk.exec {i : Instr} : memOkAfter (Machine.exec i s) := by
  unfold Machine.exec
  cases i with
  | nop => exact h.execNop
  | add | sub | mul | mad | neg | abs | min | max | sar => exact h.arith
  | mulh | and | or | xor | andn | not | shl | shr | rotl | fshf | brev | bfx | bfi | sel => exact h.bitwise
  | madw | popc | clz | ctz | prmt | lea | fclass | fdot2 | cvt | pack | unpk | qdec | mov => exact h.alu
  | addc | subb | cmp | fcmp => exact h.aluPred
  | div | rem | fdiv => exact h.emulated
  | fadd | fsub | fmul | ffma | fmin | fmax | fscale | frnd => exact h.falu
  | frcp | frsq | fsqrt | fexp2 | flog2 | fsin | fcos | ftanh => exact h.longAlu
  | qenc => exact h.execQenc
  | movi => exact h.execMovi
  | movh => exact h.execMovh
  | rds => exact h.execRds
  | wrs => exact h.execWrs
  | shfl => exact h.execShfl
  | vote => exact h.execVote
  | redux => exact h.execRedux
  | matchLanes => exact h.execMatchLanes
  | v2s => exact h.execV2s
  | plop => exact h.execPlop
  | pmovGet => exact h.execPmovGet
  | pmovSet => exact h.execPmovSet
  | ld => exact h.execLd
  | st => exact h.execSt
  | ldnr => exact h.execLdnr
  | lda => exact h.execLda
  | stl => exact h.execStl
  | lds => exact h.execLds
  | sts => exact h.execSts
  | ldt => exact h.execLdt
  | stt => exact h.execStt
  | qst => exact h.execQst
  | atom => exact h.execAtom
  | red => exact h.execRed
  | atoms => exact h.execAtoms
  | fenceAcq => exact h.execFenceAcq
  | fenceRel => exact h.execFenceRel
  | fenceFull => exact h.execFenceFull
  | pref => exact h.execPref
  | pgreq => exact h.execPgreq
  | icfence => exact h.execIcfence
  | shape => exact h.execShape
  | swinit => exact h.execSwinit
  | swwait => exact h.execSwwait
  | waitb => exact h.execWaitb
  | jmpi => exact h.execJmpi
  | calli => exact h.execCalli
  | meetset => exact h.execMeetset
  | meetsetR => exact h.execMeetsetR
  | meetsetClr => exact h.execMeetsetClr
  | barArrive | sbarArrive => exact h.barArriveForm
  | barWait | sbarWait => exact h.barWait
  | barSync | sbarSync => exact h.barSync
  | watch => exact h.execWatch
  | watchClr => exact h.execWatchClr
  | wait => exact h.execWait
  | yield => exact h.execYield
  | sleep => exact h.execSleep
  | cbr => exact h.execCbr
  | cbsync => exact h.execCbsync
  | cbsyncAbort => exact h.execCbsyncAbort
  | gres => exact h.execGres
  | reca => exact h.execReca
  | recc => exact h.execRecc
  | recf => exact h.execRecf
  | launch => exact h.execLaunch
  | signal => exact h.execSignal
  | trap => exact h.execTrap
  | brk => exact h.execBrk
  | alloc => exact h.execAlloc
  | free => exact h.execFree
  | mma => exact h.execMma
  | acz => exact h.execAcz
  | acrd => exact h.execAcrd
  | acwr => exact h.execAcwr
  | acld => exact h.execAcld
  | acst => exact h.execAcst
  | cpy | cpyg | cpys | cpyt | walk => exact h.engineWord
  | crdc | calr | crsc | calg | cbcs | cbar => exact h.collective
  | eretDone | eretRetry => exact h.eret
  | rdcsr => exact h.execRdcsr
  | wrcsr => exact h.execWrcsr
  | tlbinvPage | tlbinvPasid | tlbinvGpage | tlbinvIpa | tlbinvAll => exact h.tlbinv
  | ctxswOut => exact h.execCtxswOut
  | ctxswIn => exact h.execCtxswIn
  | claim => exact h.execClaim
  | claimNode => exact h.execClaimNode
  | mcack => exact h.execMcack
  | halt => exact h.execHalt
  | clauseHeader => exact h.clauseHeader
  | resultWriteback => exact h.writeBack
  | storeAcknowledge => exact h.storeAck
  | spuriousWake => exact h.spurious
  | spinDetect => exact h.execSpinDetect
  | sleepExpire => exact h.sleepOver
  | wtimer => exact h.execWtimer
  | parkScan => exact h.parkScan
  | tumblerSwap => exact h.tumble
  | checkpointWriteback => exact h.writeDirty
  | teamRotateOut => exact h.rotateOut
  | bankSpill => exact h.bankSpill
  | kRow => exact h.kRow
  | copyTransfer => exact h.execCopyTransfer
  | walkHop => exact h.execWalkHop
  | teamStart => exact h.teamStart
  | teamRetire => exact h.teamRetire
  | workSteal => exact h.steal
  | doserTimer => exact h.doserTimer
  | pageMigration => exact h.migrate
  | interruptTimer => exact h.intTimer
  | packetAging | atsInvalidation | chunkAging | linkRetry => exact h
  | doorbell => exact h.doorbell
  | nopPacket => exact h.execNopPacket
  | launchPacket => exact h.execLaunchPacket
  | graphPacket => exact h.execGraphPacket
  | waitPacket => exact h.execWaitPacket
  | waitPacketSatisfied => exact h.waitAgain
  | signalPacket => exact h.execSignalPacket
  | fetchFence => exact h.execFetchFence
  | ctxcmdCreate => exact h.ctxCreate
  | ctxcmdRevoke => exact h.ctxRevoke
  | ctxcmdUpdate => exact h.ctxUpdate
  | invreq => exact h.invReq
  | pdctlSupply => exact h.supply
  | pdctlFail => exact h.refusePage
  | poolbaseWrite => exact h.execPoolbaseWrite
  | poolsizeWrite => exact h.execPoolsizeWrite
  | fqheadWrite => exact h.execFqheadWrite
  | interfaceEnable => exact h.execInterfaceEnable
  | interfaceDisable => exact h.execInterfaceDisable
  | errClear => exact h.execErrClear
  | commcmdOpen => exact h.commOpen
  | commcmdClose => exact h.commClose
  | openTimeout => exact h.execOpenTimeout
  | timeSync => exact h.timeSync
  | mreset => exact h.execMreset
  | mcBankClear => exact h.execMcBankClear
  | registerWrite => exact h.execRegisterWrite
  | cxlMemRead => exact h.execCxlMemRead
  | cxlMemWrite => exact h.execCxlMemWrite
  | getVersion | getCapabilities | negotiateAlgorithms | getDigests | challenge => exact h.answer
  | getCertificate => exact h.execGetCertificate
  | getMeasurements => exact h.execGetMeasurements
  | mctpControl => exact h.execMctpControl
  | pldmRequest => exact h.execPldmRequest
  | mreq => exact h.peerRequest
  | mrsp => exact h.peerAnswer
  | join => exact h.joinAt
  | notopen => exact h.notOpen
  | joinAck => exact h.joinAcked
  | joinRetry => exact h.execJoinRetry
  | contribution => exact h.contribution
  | abortMessage => exact h.execAbortMessage
  | decision => exact h.decision
  | collectiveChunk => exact h.collChunk
  | linkLoss => exact h.linkLoss
  | thermalPoll => exact h.thermalPoll
  | powerLimit => exact h.powerLimit
  | watchdog => exact h.execWatchdog
  | patrolScrub => exact h.scrub
  | machineCheck => exact h.execMachineCheck
  | bringUp => exact h.bringUp
  | moduleReset => exact h.moduleReset
  | watchRegistration => exact h.registerWatches
  | cbarMessage => exact h.barArrive
  -- SEAL alone is left; its name is a keyword of Lean's.
  | _ => exact h.execSeal

/-! ### Steps -/

theorem State.memOk.denying {t : Nat} {is : List Nat} : (s.denying t is).memOk := h
theorem State.memOk.undeny {old : State} {t : Nat} {is : List Nat} : (old.undeny t is s).memOk := by
  have hclear {f : State → Nat → State} (hf : ∀ (r : State) (i : Nat), r.memOk → (f r i).memOk) : (is.foldl f s).memOk :=
    h.foldl hf
  exact hclear fun r i h => h.ite h.modThread
theorem State.memOk.unknownWord {k : Iss} {w : DWord} : (s.unknownWord k w).memOk := by
  grind [State.unknownWord, memOk.settleGuard, memOk.raiseAt, memOk.leave, memOk.emulate]
theorem State.memOk.elapse {ns : Nat} : (s.elapse ns).memOk := h
theorem State.memOk.mergeGroups {t a b : Nat} : (s.mergeGroups t a b).memOk := by
  grind [State.mergeGroups, memOk.modSpin, State.memOk]

end

/-- A change of the next state that keeps the form keeps it after an outcome. -/
theorem memOkAfter.mapNext {o : Host.Outcome State Fault Refusal} (h : memOkAfter o) {f : State → State}
    (hf : ∀ r : State, r.memOk → (f r).memOk) : memOkAfter (mapNext f o) := by
  cases o with
  | next r => exact hf r h
  | fault | refused => trivial

section
variable {s : State} (h : s.memOk)
include h

theorem State.memOk.runWord {k : Iss} : memOkAfter (s.runWord k) := by
  refine memOkAfter.mapNext ?_ fun _ h => h.undeny
  split
  · exact h.denying.exec
  · exact State.memOk.ite (h.denying.resume fun _ _ h => h.goOn) h.denying.unknownWord
theorem State.memOk.issueAt {core part : Nat} : memOkAfter (s.issueAt core part) := by
  have hturn : State.memOk { s with turn := (core, part) } := h
  unfold State.issueAt
  extract_lets r
  split
  · split
    · exact hturn
    · exact hturn.runWord
  · exact hturn
theorem State.memOk.move {m : Move} : memOkAfter (s.move m) := by
  unfold State.move
  split
  · exact memOkAfter.mapNext h.denying.exec fun _ h => h.undeny
  · split
    · exact h
    · exact h.exec
  · exact h.issueAt
  · exact h.denying.resumeGroup.undeny
  · exact h.mergeGroups
  · exact h.elapse
  · exact h.modCore
  · exact h
  · exact h
  · exact h
  · exact h.readAhead
  · exact h.readRegister
  · exact h.hostPut
  · exact h.hostMap
  · exact h.configRead
  · exact h.emit
theorem State.memOk.advanceOne : memOkAfter s.advanceOne := by
  unfold State.advanceOne
  split
  · next m r _ =>
    have hnext : State.memOk { s with agenda := r } := h
    exact hnext.move
  · split
    · exact h.runWord
    · exact h.move

end

/-- Settles O58: what each step does, written out over the operations that it is made of, leaves device memory and every
scratchpad in their form, because only `homePut`, a migration and the clearing of an area write device memory, and only
`padPut` and a scratchpad's return write a scratchpad. -/
theorem everyStepKeepsMemoryCanonical : Obligations.EveryStepKeepsMemoryCanonical := by
  intro s t h hstep
  have hafter : memOkAfter (step s) := h.advanceOne
  rwa [hstep] at hafter

end Sys2Proof.Machine
end
